-- ==== Sys2Proof/Word.lean ====
section
/-! DEFINITION. The word types of the SK9 and their plainest arithmetic. -/

namespace Sys2Proof

/-- A general register's value (R28). -/
abbrev Word := BitVec 64

/-- An instruction word (R84). -/
abbrev W32 := BitVec 32

/-- A byte of memory (R313). -/
abbrev Byte := BitVec 8

/-- A register field: Table 2.1 says what each number selects (R27). -/
abbrev Reg := BitVec 5

/-- A segment descriptor (Table 2.2). -/
abbrev Desc := BitVec 128

/-- Bits `hi` down to `lo` of a natural number (R1, R4). -/
def nbits (v hi lo : Nat) : Nat := (v >>> lo) % 2 ^ (hi + 1 - lo)

/-- Bit `i` of a natural number (R1). -/
def nbit (v i : Nat) : Bool := v.testBit i

/-- Least multiple of `m` that is at least `n`. -/
def roundUp (n m : Nat) : Nat := (n + m - 1) / m * m

/-- Quotient rounded up. -/
def cdiv (n m : Nat) : Nat := (n + m - 1) / m

end Sys2Proof
end

