-- ==== Sys2Proof/Syntax.lean ====
section
/-! DEFINITION. The steps of the machine: one constructor of `Instr` for each row of the opcode table. The rows
that carry an encoding are the instructions; the others are the events of the device (an engine's progress, a
word's arrival, a host write …), which no word decodes to. -/

namespace Sys2Proof

/-- The fields of a 64-bit instruction of layout T64 (Table 4.4) with its second word (Table 4.5, R91). -/
structure T64 where
  d  : Reg
  a  : Reg
  b  : Reg
  f  : BitVec 8
  x  : Bool
  w1 : W32
  deriving DecidableEq, Repr

namespace T64
/-- Routine handle or instruction-specific value (Table 4.5). -/
def h (t : T64) : BitVec 8 := t.w1.extractLsb' 24 8
/-- Completion message wanted (Table 4.5). -/
def cm (t : T64) : Bool := t.w1.getLsbD 23
/-- Full-empty mode (Table 4.5). -/
def fe (t : T64) : BitVec 2 := t.w1.extractLsb' 21 2
/-- Instruction-specific field (Table 4.5). -/
def spec (t : T64) : BitVec 21 := t.w1.extractLsb' 0 21
end T64

/-- The four neighbour ports (R10): north y+1, east x+1, south y−1, west x−1. -/
inductive Dir where | north | east | south | west
  deriving DecidableEq, Repr

/-- The engines, in the order of their numbers (R223). -/
inductive Eng where | vector | copy | global | matrix | pyramid | link
  deriving DecidableEq, Repr

/-- What an error code found when a protected word was read (R422). It is the physical world's input to a step. -/
inductive Ecc where | clean | corrected | uncorrectable
  deriving DecidableEq, Repr

/-- Why a word does not decode, with the word index in its group (R105): illegal-encoding with a reason, or
reserved-field with the mask of the offending bits. -/
inductive DecFail where
  | illegal (idx : Nat) (reason : Nat)
  | reserved (idx : Nat) (mask : W32)
  deriving DecidableEq, Repr

/-- A frame at a front-door port (R380): its tag (none: untagged), its EtherType, its payload's length before
padding, and the payload with its padding. -/
structure Frame where
  port      : Nat
  fcsGood   : Bool
  vlan      : Option (BitVec 12)
  etherType : BitVec 16
  len       : Nat
  payload   : List Byte
  deriving DecidableEq, Repr

/-- A put that another device sends to this one (R282, R283). -/
structure InPut where
  dev    : Nat
  issuer : Nat
  part   : Nat
  dva    : Nat
  ctr    : Option Nat
  h      : BitVec 8
  tag    : BitVec 16
  ln     : Bool
  fmt    : BitVec 7
  scale  : W32
  lineB  : Nat
  data   : List (List Byte)
  deriving DecidableEq, Repr

/-- What the destination device answers to a put of this device (R283). [DESIGN CHOICE: log 13] -/
inductive Remote where
  | applied
  | late (step : BitVec 16)
  | failed (sub : BitVec 8) (dva : Nat)
  deriving DecidableEq, Repr

/-- The put whose first line arrives: one in flight from this device, with the destination's answer where that is
another device, or one that another device sent here. -/
inductive PutRef where
  | own (i : Nat) (r : Remote)
  | inbound (p : InPut)
  deriving DecidableEq, Repr

/-- A bandwidth-budget site (R412): a cluster memory port or an HBM4E channel. -/
inductive Site where | port (layer cl : Nat) | channel (g : Nat)
  deriving DecidableEq, Repr

/-- A piece of a storage structure in which its code finds an error (Table 22.1): a word of a scratchpad or of HBM4E; the full-empty bit of a granule;
a line of an instruction cache; an entry of a micro-TLB or of a port's TLB; a word of the context state, mailboxes and queues of a cluster; a flit
on the control network or the data mesh that a cluster sends. -/
inductive Guarded where
  | word (w : Nat) | granule (g : Nat) | icacheLine (cid line : Nat) | microTlb (cid i : Nat) | portTlb (layer cl i : Nat)
  | queues (layer cl : Nat) | flit (layer cl : Nat)
  deriving DecidableEq, Repr

/-- The registers that partition firmware writes over the service path (Tables 19.6, 20.3, 21.3, 22.5; R169, R365,
R380, R402, R425). -/
inductive FwReg where
  | cols (p : Nat) | ucores (p : Nat) | secmask (p : Nat) | c0core (p : Nat) | c0slots (p : Nat) | c0rate (p : Nat)
  | shcap (p : Nat) | ringBase (p : Nat) (secure : Bool) | ringCtl (p : Nat) (secure : Bool)
  | ringHead (p : Nat) (secure : Bool) | ringTail (p : Nat) (secure : Bool) | clearNinv (p : Nat) | clearNfull (p : Nat)
  | clearNrate (p : Nat)
  | ptroot (p : Nat) | keylo (p : Nat) | keyhi (p : Nat) | wdlim (p : Nat)
  | budget (s : Site) (p cls : Nat) | retctl (cid : Nat) | vlan (id : Nat) | errcnt (layer cl : Nat)
  | segEntry (cid q : Nat) | sigPolicy (p : Nat) | trustedKey (p i : Nat) | debugger (p : Nat)
  deriving DecidableEq, Repr

/-- An access to physical function 0 (R432, R434): the host writes `bootctl` in BAR0, or reads at an offset of the vendor-specific extended capability in
the configuration space; or partition firmware reads the boot status register. -/
inductive PfAccess where
  | bootctl (v : W32)
  | config (off : Nat)
  | firmware
  deriving DecidableEq, Repr

/-- The triggers of containment (Table 22.6). -/
inductive Trigger where
  | clusterError (layer cl : Nat) | flitRetries (layer cl : Nat) | clusterResetFailed (layer cl : Nat)
  | partitionState (p : Nat) | routineCopy (p : Nat) | partitionResetFailed (p : Nat)
  | dispatcherState | clocks | verticalLinks
  deriving DecidableEq, Repr

/-- How far a start gets (R430): it reaches phase 0x0F, or a phase ends with a cause other than 0 and names a part
(Table 22.12), or it has run the phases up to one. `bad` lists the physical cores that fail their self-test, each with its cluster (R431), and
`column` says below which column no column passes its self-test for another reason (R433). -/
inductive StartOutcome where
  | running (column : Nat) (bad : List (Nat × Nat))
  | failed (phase cause : BitVec 8) (unit : BitVec 7)
  | unfinished (phase : BitVec 8)
  deriving DecidableEq, Repr

/-- The steps of the machine, one constructor per row of the opcode table. -/
inductive Instr where
  /-- `ADD` (R126). Adds two registers, with optional 32-bit width and saturation. -/
  | add (d : Reg) (a : Reg) (b : Reg) (w : Bool) (x : Bool)
  /-- `SUB` (R126). Subtracts register b from register a. -/
  | sub (d : Reg) (a : Reg) (b : Reg) (w : Bool) (x : Bool)
  /-- `AND` (R126). Bitwise AND of two registers. -/
  | and (d : Reg) (a : Reg) (b : Reg) (w : Bool) (x : Bool)
  /-- `OR` (R126). Bitwise OR of two registers. -/
  | or (d : Reg) (a : Reg) (b : Reg) (w : Bool) (x : Bool)
  /-- `XOR` (R126). Bitwise XOR of two registers. -/
  | xor (d : Reg) (a : Reg) (b : Reg) (w : Bool) (x : Bool)
  /-- `ANDN` (R126). Computes a AND NOT b. -/
  | andn (d : Reg) (a : Reg) (b : Reg) (w : Bool) (x : Bool)
  /-- `SHL` (R126). Shifts left by the low bits of b, saturating under a prefix. -/
  | shl (d : Reg) (a : Reg) (b : Reg) (w : Bool) (x : Bool)
  /-- `SHR` (R126). Shifts right logically. -/
  | shr (d : Reg) (a : Reg) (b : Reg) (w : Bool) (x : Bool)
  /-- `SAR` (R126). Shifts right arithmetically. -/
  | sar (d : Reg) (a : Reg) (b : Reg) (w : Bool) (x : Bool)
  /-- `ROL` (R126). Rotates left within the operation width. -/
  | rol (d : Reg) (a : Reg) (b : Reg) (w : Bool) (x : Bool)
  /-- `MUL` (R126). Multiplies two registers, keeping the low bits or saturating. -/
  | mul (d : Reg) (a : Reg) (b : Reg) (w : Bool) (x : Bool)
  /-- `MULH` (R127). Writes the high half of the signed product. -/
  | mulh (d : Reg) (a : Reg) (b : Reg) (w : Bool) (x : Bool)
  /-- `MULHU` (R127). Writes the high half of the unsigned product. -/
  | mulhu (d : Reg) (a : Reg) (b : Reg) (w : Bool) (x : Bool)
  /-- `DIV` (R128). Signed division truncating toward zero, with divide-by-zero handling. -/
  | div (d : Reg) (a : Reg) (b : Reg) (w : Bool) (x : Bool)
  /-- `DIVU` (R128). Unsigned division. -/
  | divu (d : Reg) (a : Reg) (b : Reg) (w : Bool) (x : Bool)
  /-- `REM` (R128). Signed remainder with the sign of the dividend. -/
  | rem (d : Reg) (a : Reg) (b : Reg) (w : Bool) (x : Bool)
  /-- `REMU` (R128). Unsigned remainder. -/
  | remu (d : Reg) (a : Reg) (b : Reg) (w : Bool) (x : Bool)
  /-- `MIN` (R126). Signed minimum of two registers. -/
  | min (d : Reg) (a : Reg) (b : Reg) (w : Bool) (x : Bool)
  /-- `MAX` (R126). Signed maximum of two registers. -/
  | max (d : Reg) (a : Reg) (b : Reg) (w : Bool) (x : Bool)
  /-- `MINU` (R126). Unsigned minimum of two registers. -/
  | minu (d : Reg) (a : Reg) (b : Reg) (w : Bool) (x : Bool)
  /-- `MAXU` (R126). Unsigned maximum of two registers. -/
  | maxu (d : Reg) (a : Reg) (b : Reg) (w : Bool) (x : Bool)
  /-- `SLT` (R126). Writes 1 if a is less than b, signed. -/
  | slt (d : Reg) (a : Reg) (b : Reg) (w : Bool) (x : Bool)
  /-- `SLTU` (R126). Writes 1 if a is less than b, unsigned. -/
  | sltu (d : Reg) (a : Reg) (b : Reg) (w : Bool) (x : Bool)
  /-- `CLMUL` (R127). Writes the low 64 bits of the carry-less product. -/
  | clmul (d : Reg) (a : Reg) (b : Reg) (x : Bool)
  /-- `CLMULH` (R127). Writes the high 64 bits of the carry-less product. -/
  | clmulh (d : Reg) (a : Reg) (b : Reg) (x : Bool)
  /-- `CLZ` (R126). Counts leading zero bits. -/
  | clz (d : Reg) (a : Reg) (w : Bool) (x : Bool)
  /-- `CTZ` (R126). Counts trailing zero bits. -/
  | ctz (d : Reg) (a : Reg) (w : Bool) (x : Bool)
  /-- `POPC` (R126). Counts one bits. -/
  | popc (d : Reg) (a : Reg) (w : Bool) (x : Bool)
  /-- `BREV` (R126). Reverses the bit order. -/
  | brev (d : Reg) (a : Reg) (w : Bool) (x : Bool)
  /-- `BSWAP` (R126). Reverses the byte order. -/
  | bswap (d : Reg) (a : Reg) (w : Bool) (x : Bool)
  /-- `SXB` (R126). Sign-extends the low byte. -/
  | sxb (d : Reg) (a : Reg) (w : Bool) (x : Bool)
  /-- `SXH` (R126). Sign-extends the low half-word. -/
  | sxh (d : Reg) (a : Reg) (w : Bool) (x : Bool)
  /-- `SXW` (R126). Sign-extends the low word. -/
  | sxw (d : Reg) (a : Reg) (x : Bool)
  /-- `ZXB` (R126). Zero-extends the low byte. -/
  | zxb (d : Reg) (a : Reg) (w : Bool) (x : Bool)
  /-- `ZXH` (R126). Zero-extends the low half-word. -/
  | zxh (d : Reg) (a : Reg) (w : Bool) (x : Bool)
  /-- `ZXW` (R126). Zero-extends the low word. -/
  | zxw (d : Reg) (a : Reg) (x : Bool)
  /-- `ABS` (R126). Absolute value, saturating under a prefix. -/
  | abs (d : Reg) (a : Reg) (w : Bool) (x : Bool)
  /-- `NEG` (R126). Negation, saturating under a prefix. -/
  | neg (d : Reg) (a : Reg) (w : Bool) (x : Bool)
  /-- `ADDI` (R129). Adds a sign-extended or extended immediate. -/
  | addi (d : Reg) (a : Reg) (imm : BitVec 13) (x : Bool)
  /-- `ANDI` (R129). Bitwise AND with an immediate. -/
  | andi (d : Reg) (a : Reg) (imm : BitVec 13) (x : Bool)
  /-- `ORI` (R129). Bitwise OR with an immediate. -/
  | ori (d : Reg) (a : Reg) (imm : BitVec 13) (x : Bool)
  /-- `XORI` (R129). Bitwise XOR with an immediate. -/
  | xori (d : Reg) (a : Reg) (imm : BitVec 13) (x : Bool)
  /-- `SHLI` (R129). Shifts left by an immediate 0 to 63. -/
  | shli (d : Reg) (a : Reg) (imm : BitVec 13) (x : Bool)
  /-- `SHRI` (R129). Shifts right logically by an immediate. -/
  | shri (d : Reg) (a : Reg) (imm : BitVec 13) (x : Bool)
  /-- `SARI` (R129). Shifts right arithmetically by an immediate. -/
  | sari (d : Reg) (a : Reg) (imm : BitVec 13) (x : Bool)
  /-- `MULI` (R129). Multiplies by an immediate. -/
  | muli (d : Reg) (a : Reg) (imm : BitVec 13) (x : Bool)
  /-- `SLTI` (R129). Signed compare with an immediate. -/
  | slti (d : Reg) (a : Reg) (imm : BitVec 13) (x : Bool)
  /-- `SLTIU` (R129). Unsigned compare with an immediate. -/
  | sltiu (d : Reg) (a : Reg) (imm : BitVec 13) (x : Bool)
  /-- `LI` (R130). Writes a sign-extended 19-bit immediate. -/
  | li (d : Reg) (imm : BitVec 19)
  /-- `LIS` (R131). Shifts x[d] left by 19 and ORs in a zero-extended immediate. -/
  | lis (d : Reg) (imm : BitVec 19)
  /-- `LIX` (R132). Writes a sign-extended 51-bit immediate. -/
  | lix (d : Reg) (imm : BitVec 51)
  /-- `CMP_EQ` (R133). Compares for equality and combines into a predicate bit. -/
  | cmpEq (k : BitVec 5) (a : Reg) (b : Reg) (w : Bool) (comb : BitVec 2)
  /-- `CMP_NE` (R133). Compares for inequality into a predicate bit. -/
  | cmpNe (k : BitVec 5) (a : Reg) (b : Reg) (w : Bool) (comb : BitVec 2)
  /-- `CMP_LT` (R133). Signed less-than compare into a predicate bit. -/
  | cmpLt (k : BitVec 5) (a : Reg) (b : Reg) (w : Bool) (comb : BitVec 2)
  /-- `CMP_GE` (R133). Signed greater-or-equal compare into a predicate bit. -/
  | cmpGe (k : BitVec 5) (a : Reg) (b : Reg) (w : Bool) (comb : BitVec 2)
  /-- `CMP_LTU` (R133). Unsigned less-than compare into a predicate bit. -/
  | cmpLtu (k : BitVec 5) (a : Reg) (b : Reg) (w : Bool) (comb : BitVec 2)
  /-- `CMP_GEU` (R133). Unsigned greater-or-equal compare into a predicate bit. -/
  | cmpGeu (k : BitVec 5) (a : Reg) (b : Reg) (w : Bool) (comb : BitVec 2)
  /-- `CMPI_EQ` (R134). Sets a predicate bit if a equals the immediate. -/
  | cmpiEq (k : BitVec 5) (a : Reg) (imm : BitVec 10)
  /-- `CMPI_NE` (R134). Sets a predicate bit if a differs from the immediate. -/
  | cmpiNe (k : BitVec 5) (a : Reg) (imm : BitVec 10)
  /-- `CMPI_LT` (R134). Signed less-than against an immediate. -/
  | cmpiLt (k : BitVec 5) (a : Reg) (imm : BitVec 10)
  /-- `CMPI_GE` (R134). Signed greater-or-equal against an immediate. -/
  | cmpiGe (k : BitVec 5) (a : Reg) (imm : BitVec 10)
  /-- `CMPI_LTU` (R134). Unsigned less-than against an immediate. -/
  | cmpiLtu (k : BitVec 5) (a : Reg) (imm : BitVec 10)
  /-- `CMPI_GEU` (R134). Unsigned greater-or-equal against an immediate. -/
  | cmpiGeu (k : BitVec 5) (a : Reg) (imm : BitVec 10)
  /-- `SEL` (R135). Writes a or b according to a predicate bit, optionally inverted. -/
  | sel (d : Reg) (a : Reg) (b : Reg) (inv : Bool) (kb : BitVec 5)
  /-- `KGET` (R136). Writes the predicate word to a register. -/
  | kget (d : Reg)
  /-- `KSET` (R136). Writes the predicate word from a register. -/
  | kset (a : Reg)
  /-- `KAND` (R136). ANDs two predicate bits. -/
  | kand (d : BitVec 5) (a : BitVec 5) (b : BitVec 5)
  /-- `KOR` (R136). ORs two predicate bits. -/
  | kor (d : BitVec 5) (a : BitVec 5) (b : BitVec 5)
  /-- `KXOR` (R136). XORs two predicate bits. -/
  | kxor (d : BitVec 5) (a : BitVec 5) (b : BitVec 5)
  /-- `KNOT` (R136). Inverts a predicate bit. -/
  | knot (d : BitVec 5) (a : BitVec 5)
  /-- `SRG` (R137). Reads a special register into a general register. -/
  | srg (d : Reg) (sr : BitVec 10)
  /-- `SRS` (R137). Writes a special register, under access and value checks. -/
  | srs (d : Reg) (sr : BitVec 10)
  /-- `SRX` (R137). Exchanges a special register with a general register. -/
  | srx (d : Reg) (sr : BitVec 10)
  /-- `FADD` (R139). Floating-point addition in f32 or f64. -/
  | fadd (d : Reg) (a : Reg) (b : Reg) (dbl : Bool) (x : Bool)
  /-- `FSUB` (R139). Floating-point subtraction. -/
  | fsub (d : Reg) (a : Reg) (b : Reg) (dbl : Bool) (x : Bool)
  /-- `FMUL` (R139). Floating-point multiplication. -/
  | fmul (d : Reg) (a : Reg) (b : Reg) (dbl : Bool) (x : Bool)
  /-- `FDIV` (R139). Floating-point division. -/
  | fdiv (d : Reg) (a : Reg) (b : Reg) (dbl : Bool) (x : Bool)
  /-- `FSQRT` (R139). Floating-point square root. -/
  | fsqrt (d : Reg) (a : Reg) (dbl : Bool) (x : Bool)
  /-- `FMIN` (R140). IEEE minimumNumber of two operands. -/
  | fmin (d : Reg) (a : Reg) (b : Reg) (dbl : Bool) (x : Bool)
  /-- `FMAX` (R140). IEEE maximumNumber of two operands. -/
  | fmax (d : Reg) (a : Reg) (b : Reg) (dbl : Bool) (x : Bool)
  /-- `FABS` (R139). Clears the sign bit. -/
  | fabs (d : Reg) (a : Reg) (dbl : Bool) (x : Bool)
  /-- `FNEG` (R139). Inverts the sign bit. -/
  | fneg (d : Reg) (a : Reg) (dbl : Bool) (x : Bool)
  /-- `FSGNJ` (R139). Gives a the sign bit of b. -/
  | fsgnj (d : Reg) (a : Reg) (b : Reg) (dbl : Bool) (x : Bool)
  /-- `FCLASS` (R141). Writes a one-hot class of the operand. -/
  | fclass (d : Reg) (a : Reg) (dbl : Bool) (x : Bool)
  /-- `FRCPA` (R142). Approximate reciprocal rounded through 17 significant bits. -/
  | frcpa (d : Reg) (a : Reg) (dbl : Bool) (x : Bool)
  /-- `FRSQA` (R142). Approximate reciprocal square root. -/
  | frsqa (d : Reg) (a : Reg) (dbl : Bool) (x : Bool)
  /-- `FEXP2A` (R142). Approximate 2 to the power a. -/
  | fexp2a (d : Reg) (a : Reg) (dbl : Bool) (x : Bool)
  /-- `FLOG2A` (R142). Approximate base-2 logarithm. -/
  | flog2a (d : Reg) (a : Reg) (dbl : Bool) (x : Bool)
  /-- `FMA` (R143). Fused A times B plus C, rounded once. -/
  | fma (d : Reg) (a : Reg) (b : Reg) (c : Reg) (dbl : Bool) (x : Bool)
  /-- `FMS` (R143). Fused A times B minus C. -/
  | fms (d : Reg) (a : Reg) (b : Reg) (c : Reg) (dbl : Bool) (x : Bool)
  /-- `FNMA` (R143). Fused minus A times B minus C. -/
  | fnma (d : Reg) (a : Reg) (b : Reg) (c : Reg) (dbl : Bool) (x : Bool)
  /-- `FNMS` (R143). Fused minus A times B plus C. -/
  | fnms (d : Reg) (a : Reg) (b : Reg) (c : Reg) (dbl : Bool) (x : Bool)
  /-- `FCMP_EQ` (R144). Floating equality into a predicate bit. -/
  | fcmpEq (k : BitVec 5) (a : Reg) (b : Reg) (dbl : Bool) (x : Bool)
  /-- `FCMP_LT` (R144). Floating less-than into a predicate bit. -/
  | fcmpLt (k : BitVec 5) (a : Reg) (b : Reg) (dbl : Bool) (x : Bool)
  /-- `FCMP_LE` (R144). Floating less-or-equal into a predicate bit. -/
  | fcmpLe (k : BitVec 5) (a : Reg) (b : Reg) (dbl : Bool) (x : Bool)
  /-- `FCMP_UN` (R144). Sets the predicate when either operand is a NaN. -/
  | fcmpUn (k : BitVec 5) (a : Reg) (b : Reg) (dbl : Bool) (x : Bool)
  /-- `FCMP_EQS` (R144). Signalling floating equality into a predicate bit. -/
  | fcmpEqs (k : BitVec 5) (a : Reg) (b : Reg) (dbl : Bool) (x : Bool)
  /-- `FCVT` (R145). Converts between element formats under rounding and overflow policy. -/
  | fcvt (d : Reg) (a : Reg) (src : BitVec 4) (dst : BitVec 4) (x : Bool)
  /-- `LDB` (R166). Loads a sign-extended byte. -/
  | ldb (d : Reg) (a : Reg) (seg : BitVec 3) (off : BitVec 10) (x : Bool)
  /-- `LDBU` (R166). Loads a zero-extended byte. -/
  | ldbu (d : Reg) (a : Reg) (seg : BitVec 3) (off : BitVec 10) (x : Bool)
  /-- `LDH` (R166). Loads a sign-extended half-word. -/
  | ldh (d : Reg) (a : Reg) (seg : BitVec 3) (off : BitVec 10) (x : Bool)
  /-- `LDHU` (R166). Loads a zero-extended half-word. -/
  | ldhu (d : Reg) (a : Reg) (seg : BitVec 3) (off : BitVec 10) (x : Bool)
  /-- `LDW` (R166). Loads a sign-extended word. -/
  | ldw (d : Reg) (a : Reg) (seg : BitVec 3) (off : BitVec 10) (x : Bool)
  /-- `LDWU` (R166). Loads a zero-extended word. -/
  | ldwu (d : Reg) (a : Reg) (seg : BitVec 3) (off : BitVec 10) (x : Bool)
  /-- `LDD` (R166). Loads a double word. -/
  | ldd (d : Reg) (a : Reg) (seg : BitVec 3) (off : BitVec 10) (x : Bool)
  /-- `STB` (R167). Stores a byte. -/
  | stb (d : Reg) (a : Reg) (seg : BitVec 3) (off : BitVec 10) (x : Bool)
  /-- `STH` (R167). Stores a half-word. -/
  | sth (d : Reg) (a : Reg) (seg : BitVec 3) (off : BitVec 10) (x : Bool)
  /-- `STW` (R167). Stores a word. -/
  | stw (d : Reg) (a : Reg) (seg : BitVec 3) (off : BitVec 10) (x : Bool)
  /-- `STD` (R167). Stores a double word, clearing poison. -/
  | std (d : Reg) (a : Reg) (seg : BitVec 3) (off : BitVec 10) (x : Bool)
  /-- `LDFK` (R172). Waits for a full granule and loads without emptying it. -/
  | ldfk (d : Reg) (a : Reg) (seg : BitVec 3) (off : BitVec 10)
  /-- `LDFC` (R172). Waits for a full granule, loads and marks it empty. -/
  | ldfc (d : Reg) (a : Reg) (seg : BitVec 3) (off : BitVec 10)
  /-- `STFE` (R172). Waits for an empty granule, stores and marks it full. -/
  | stfe (d : Reg) (a : Reg) (seg : BitVec 3) (off : BitVec 10)
  /-- `STFS` (R172). Stores and marks the granule full without waiting. -/
  | stfs (d : Reg) (a : Reg) (seg : BitVec 3) (off : BitVec 10)
  /-- `FESET` (R174). Marks a granule full and wakes waiters. -/
  | feset (a : Reg) (seg : BitVec 3) (off : BitVec 8)
  /-- `FECLR` (R174). Marks a granule empty and wakes waiters. -/
  | feclr (a : Reg) (seg : BitVec 3) (off : BitVec 8)
  /-- `FEGET` (R174). Reads a granule's full-empty state. -/
  | feget (d : Reg) (a : Reg) (seg : BitVec 3) (off : BitVec 8)
  /-- `LEA` (R168). Writes the address of an offset in a segment's space. -/
  | lea (d : Reg) (a : Reg) (seg : BitVec 3) (off : BitVec 10)
  /-- `SEGLD` (R170). Loads a segment register from the partition segment table. -/
  | segld (d : Reg) (a : Reg)
  /-- `SEGGET` (R170). Reads half of a segment descriptor. -/
  | segget (d : Reg) (a : Reg) (b : Reg)
  /-- `SEGCHK` (R170). Reports space, rights and room of an offset. -/
  | segchk (d : Reg) (a : Reg) (b : Reg)
  /-- `AMO_SWAP` (R176). Atomic swap at the word's owner. -/
  | amoSwap (d : Reg) (a : Reg) (b : Reg) (seg : BitVec 3) (x : Bool)
  /-- `AMO_ADD` (R176). Atomic add at the word's owner. -/
  | amoAdd (d : Reg) (a : Reg) (b : Reg) (seg : BitVec 3) (x : Bool)
  /-- `AMO_AND` (R176). Atomic AND. -/
  | amoAnd (d : Reg) (a : Reg) (b : Reg) (seg : BitVec 3) (x : Bool)
  /-- `AMO_OR` (R176). Atomic OR. -/
  | amoOr (d : Reg) (a : Reg) (b : Reg) (seg : BitVec 3) (x : Bool)
  /-- `AMO_XOR` (R176). Atomic XOR. -/
  | amoXor (d : Reg) (a : Reg) (b : Reg) (seg : BitVec 3) (x : Bool)
  /-- `AMO_MIN` (R176). Atomic signed minimum. -/
  | amoMin (d : Reg) (a : Reg) (b : Reg) (seg : BitVec 3) (x : Bool)
  /-- `AMO_MAX` (R176). Atomic signed maximum. -/
  | amoMax (d : Reg) (a : Reg) (b : Reg) (seg : BitVec 3) (x : Bool)
  /-- `AMO_MINU` (R176). Atomic unsigned minimum. -/
  | amoMinu (d : Reg) (a : Reg) (b : Reg) (seg : BitVec 3) (x : Bool)
  /-- `AMO_MAXU` (R176). Atomic unsigned maximum. -/
  | amoMaxu (d : Reg) (a : Reg) (b : Reg) (seg : BitVec 3) (x : Bool)
  /-- `AMO_FADD_S` (R176). Atomic f32 addition under RNE. -/
  | amoFaddS (d : Reg) (a : Reg) (b : Reg) (seg : BitVec 3) (x : Bool)
  /-- `AMO_FADD_D` (R176). Atomic f64 addition under RNE. -/
  | amoFaddD (d : Reg) (a : Reg) (b : Reg) (seg : BitVec 3) (x : Bool)
  /-- `AMO_FMIN_S` (R176). Atomic f32 minimumNumber. -/
  | amoFminS (d : Reg) (a : Reg) (b : Reg) (seg : BitVec 3) (x : Bool)
  /-- `AMO_FMAX_S` (R176). Atomic f32 maximumNumber. -/
  | amoFmaxS (d : Reg) (a : Reg) (b : Reg) (seg : BitVec 3) (x : Bool)
  /-- `CAS` (R177). Compare-and-swap at the word's owner, returning the old value. -/
  | cas (d : Reg) (a : Reg) (b : Reg) (seg : BitVec 3) (x : Bool)
  /-- `RED_SWAP` (R180). Remote update writing b without a result. -/
  | redSwap (a : Reg) (b : Reg) (seg : BitVec 3) (x : Bool)
  /-- `RED_ADD` (R180). Remote add update. -/
  | redAdd (a : Reg) (b : Reg) (seg : BitVec 3) (x : Bool)
  /-- `RED_AND` (R180). Remote AND update. -/
  | redAnd (a : Reg) (b : Reg) (seg : BitVec 3) (x : Bool)
  /-- `RED_OR` (R180). Remote OR update. -/
  | redOr (a : Reg) (b : Reg) (seg : BitVec 3) (x : Bool)
  /-- `RED_XOR` (R180). Remote XOR update. -/
  | redXor (a : Reg) (b : Reg) (seg : BitVec 3) (x : Bool)
  /-- `RED_MIN` (R180). Remote signed minimum update. -/
  | redMin (a : Reg) (b : Reg) (seg : BitVec 3) (x : Bool)
  /-- `RED_MAX` (R180). Remote signed maximum update. -/
  | redMax (a : Reg) (b : Reg) (seg : BitVec 3) (x : Bool)
  /-- `RED_MINU` (R180). Remote unsigned minimum update. -/
  | redMinu (a : Reg) (b : Reg) (seg : BitVec 3) (x : Bool)
  /-- `RED_MAXU` (R180). Remote unsigned maximum update. -/
  | redMaxu (a : Reg) (b : Reg) (seg : BitVec 3) (x : Bool)
  /-- `RED_FADD_S` (R180). Remote f32 add update. -/
  | redFaddS (a : Reg) (b : Reg) (seg : BitVec 3) (x : Bool)
  /-- `RED_FADD_D` (R180). Remote f64 add update. -/
  | redFaddD (a : Reg) (b : Reg) (seg : BitVec 3) (x : Bool)
  /-- `RED_FMIN_S` (R180). Remote f32 minimum update. -/
  | redFminS (a : Reg) (b : Reg) (seg : BitVec 3) (x : Bool)
  /-- `RED_FMAX_S` (R180). Remote f32 maximum update. -/
  | redFmaxS (a : Reg) (b : Reg) (seg : BitVec 3) (x : Bool)
  /-- `MIG` (R187). Moves the thread to the channel core that owns a global address. -/
  | mig (a : Reg) (b : Reg)
  /-- `HOME` (R187). Returns a migrant to its home context. -/
  | home
  /-- `DLG` (R190). Sends a routine request to the delegation server of a word's owner. -/
  | dlg (t : T64)
  /-- `DLGRET` (R191). Sends two reply words to the requester and takes the next request. -/
  | dlgret
  /-- `BEQ` (R146). Branches when two registers are equal. -/
  | beq (a : Reg) (b : Reg) (disp : BitVec 14)
  /-- `BNE` (R146). Branches when two registers differ. -/
  | bne (a : Reg) (b : Reg) (disp : BitVec 14)
  /-- `BLT` (R146). Branches on signed less-than. -/
  | blt (a : Reg) (b : Reg) (disp : BitVec 14)
  /-- `BGE` (R146). Branches on signed greater-or-equal. -/
  | bge (a : Reg) (b : Reg) (disp : BitVec 14)
  /-- `BLTU` (R146). Branches on unsigned less-than. -/
  | bltu (a : Reg) (b : Reg) (disp : BitVec 14)
  /-- `BGEU` (R146). Branches on unsigned greater-or-equal. -/
  | bgeu (a : Reg) (b : Reg) (disp : BitVec 14)
  /-- `BK` (R146). Branches when a predicate bit is 1. -/
  | bk (k : BitVec 5) (disp : BitVec 19)
  /-- `BKN` (R146). Branches when a predicate bit is 0. -/
  | bkn (k : BitVec 5) (disp : BitVec 19)
  /-- `J` (R147). Jumps by a 24-bit word displacement. -/
  | j (disp : BitVec 24)
  /-- `CALL` (R147). Writes the return PC to x23 and jumps. -/
  | call (disp : BitVec 24)
  /-- `CALLL` (R147). Long call with a 51-bit displacement. -/
  | calll (imm : BitVec 51)
  /-- `JR` (R147). Jumps to the PC held in a register. -/
  | jr (a : Reg)
  /-- `JALR` (R147). Jumps to a register PC, writing the return PC to d. -/
  | jalr (d : Reg) (a : Reg)
  /-- `RET` (R147). Jumps to the PC in x23. -/
  | ret
  /-- `REP` (R152). Captures a window of words and checks it as a repeat frame. -/
  | rep (n : BitVec 4) (sd : BitVec 2) (sa : BitVec 2) (sb : BitVec 2) (c : Reg)
  /-- `TRAP` (R149). Raises trap-instruction with the immediate in tinfo. -/
  | trap (imm : BitVec 16)
  /-- `NOP` (R150). Does nothing. -/
  | nop
  /-- `ERET` (R151). Sets the PC and repeat position in user mode. -/
  | eret (a : Reg) (b : Reg)
  /-- `BRK` (R150). Raises breakpoint. -/
  | brk
  /-- `IFL` (R150). Discards every line of the core's instruction cache. -/
  | ifl
  /-- `HALT` (R150). Enters the debugger-halted state, or acts as brk without a debugger. -/
  | halt
  /-- `RECVT` (R196). Waits up to a cycle limit for a mailbox word. -/
  | recvt (d : Reg) (a : Reg)
  /-- `MBCNT` (R197). Writes the mailbox word count. -/
  | mbcnt (d : Reg)
  /-- `SEND` (R197). Sends a context word to an MBA. -/
  | send (a : Reg) (b : Reg)
  /-- `BAR_ARRIVE` (R200). Records an arrival in the current barrier phase. -/
  | barArrive (a : Reg) (scope : BitVec 3)
  /-- `BAR_INIT` (R199). Joins a barrier instance, setting or checking its phase. -/
  | barInit (a : Reg) (b : Reg) (scope : BitVec 3)
  /-- `BAR_LEAVE` (R201). Leaves a barrier instance's member set. -/
  | barLeave (a : Reg) (scope : BitVec 3)
  /-- `FENCE_FULL` (R202). Waits for earlier accesses and scoped updates, and orders later accesses. -/
  | fenceFull (scope : BitVec 3) (x : Bool)
  /-- `FENCE_ACQ` (R202). Waits for earlier loads and orders later accesses. -/
  | fenceAcq (scope : BitVec 3) (x : Bool)
  /-- `FENCE_REL` (R202). Waits for earlier accesses, scoped red updates and replicated propagation. -/
  | fenceRel (scope : BitVec 3) (x : Bool)
  /-- `SPAWN` (R203). Starts an unspawned context at a PC with initial state. -/
  | spawn (d : Reg) (a : Reg) (b : Reg)
  /-- `REAP` (R205). Stops and unspawns a context and posts an exit notice. -/
  | reap (d : Reg) (a : Reg)
  /-- `EXIT` (R206). Ends the issuing context after its accesses are performed. -/
  | exit
  /-- `SAVE` (R208). Writes a context's 512-byte frame, stopping it if another. -/
  | save (d : Reg) (a : Reg) (b : Reg)
  /-- `LOAD` (R209). Checks and installs a frame into a context and runs it. -/
  | load (d : Reg) (a : Reg) (b : Reg)
  /-- `TKDEC` (R211). Sends a decrement to a dependence counter. -/
  | tkdec (a : Reg)
  /-- `TKSET` (R211). Sends a set of a dependence counter. -/
  | tkset (a : Reg) (b : Reg)
  /-- `ERFLIP` (R212). Ends a firing, waits for accesses and engine commands, and flips the task's tiles. -/
  | erflip (a : Reg)
  /-- `ERPASS` (R213). Flips the task's tiles without waiting for engine commands. -/
  | erpass (a : Reg)
  /-- `ERORI` (R214). Writes whether a shared tile points towards the task. -/
  | erori (d : Reg) (a : Reg) (b : Reg)
  /-- `ERARM` (R288). Arms or disarms an edge-reversal task after checking its edge list. -/
  | erarm (t : T64)
  /-- `BOWSTART` (R216). Launches a bow token for a group round a scope's ring. -/
  | bowstart (d : Reg) (a : Reg) (b : Reg)
  /-- `MUTESEND` (R218). Stops a context and places the mute in its qout stream. -/
  | mutesend (a : Reg)
  /-- `RND` (R220). Steps the generator and writes the 64-bit draw. -/
  | rnd (d : Reg)
  /-- `RNGSEED` (R221). Reseeds the generator from a register and the context identity. -/
  | rngseed (a : Reg)
  /-- `FLGET` (R222). Writes the sticky flags to a register. -/
  | flget (d : Reg)
  /-- `FLCLR` (R222). Clears selected sticky flags. -/
  | flclr (a : Reg)
  /-- `FLTREE` (R222). Reads the cluster union of flags in the supervisor context. -/
  | fltree (d : Reg)
  /-- `ENGST` (R223). Reads an engine status register in one step. -/
  | engst (d : Reg) (a : Reg)
  /-- `ENGCANCEL` (R224). Marks the context's unbegun commands of an engine cancelled. -/
  | engcancel (d : Reg) (a : Reg)
  /-- `MXLEASE` (R225). Requests the capo of the quad's matrix array. -/
  | mxlease (d : Reg)
  /-- `MXREL` (R226). Ends the context's lease or withdraws its request. -/
  | mxrel
  /-- `TLBINV` (R227). Drops translations covering a DVA in the named buffers. -/
  | tlbinv (a : Reg) (b : Reg)
  /-- `TLBINVALL` (R227). Drops all of the partition's translations in the named buffers. -/
  | tlbinvall (a : Reg)
  /-- `FOLD` (R247). Issues a reduction of tile sequences to the vector engine. -/
  | fold (t : T64)
  /-- `SCAN` (R248). Issues a prefix scan to the vector engine. -/
  | scan (t : T64)
  /-- `ZIP` (R249). Issues an elementwise routine over two tiles. -/
  | zip (t : T64)
  /-- `OUTER` (R249). Issues an outer product of two lines under a routine. -/
  | outer (t : T64)
  /-- `TCOPY` (R250). Issues a tile copy, conversion or transform to the copy engine. -/
  | tcopy (t : T64)
  /-- `TFILL` (R251). Issues a fill of a tile with a value or routine pattern. -/
  | tfill (t : T64)
  /-- `TXP` (R252). Issues a tile transpose. -/
  | txp (t : T64)
  /-- `GLD` (R253). Issues a load of tile lines from HBM. -/
  | gld (t : T64)
  /-- `GST` (R253). Issues a store of tile lines to HBM. -/
  | gst (t : T64)
  /-- `RTNDEF` (R240). Checks a routine image and writes it into every routine-table copy. -/
  | rtndef (t : T64)
  /-- `MXLDST` (R263). Issues a load of the shadow weight plane. -/
  | mxldst (t : T64)
  /-- `MXSWAP` (R265). Issues an exchange of active and shadow planes. -/
  | mxswap (t : T64)
  /-- `MXSTRM` (R266). Issues a stream of activation rows past the active plane. -/
  | mxstrm (t : T64)
  /-- `MXDRAIN` (R267). Issues a drain of accumulators into a tile with an epilogue. -/
  | mxdrain (t : T64)
  /-- `LVSET_IMM` (R269). Writes the fretboard from the second word. -/
  | lvsetImm (t : T64)
  /-- `LVSET_REG` (R269). Writes the fretboard from a register. -/
  | lvsetReg (t : T64)
  /-- `WLD` (R271). Issues a load of a pyramid-port weight set. -/
  | wld (t : T64)
  /-- `RSTR` (R272). Issues a crossing or folded restrict. -/
  | rstr (t : T64)
  /-- `PROL` (R280). Issues a crossing or folded prolong. -/
  | prol (t : T64)
  /-- `PUT` (R282). Issues a write or reduce put of a tile to another device. -/
  | put (t : T64)
  /-- `PUTARM` (R284). Copies an arm record into the link engine and returns an arm number. -/
  | putarm (t : T64)
  /-- `CNTW` (R286). Registers a watch on a counter block. -/
  | cntw (t : T64)
  /-- `LNCH` (R287). Sends a launch record to the dispatcher and waits for its answer. -/
  | lnch (t : T64)
  /-- `DLGCTL_ENABLE` (R309). Write of dlgctl.en from 0 to 1 makes context 15 a delegation server. -/
  | dlgctlEnable (d : Reg)
  /-- `DLGCTL_DISABLE` (R309). Write of dlgctl.en from 1 to 0 unspawns an idle delegation server. -/
  | dlgctlDisable (d : Reg)
  /-- `REMOTE_UPDATE_APPLY` (R180). The owner applies an arriving remote update, or discards it on poison, and returns the credit. -/
  | remoteUpdateApply (n : Nat) (e : Ecc)
  /-- `MIGRANT_ARRIVAL` (R183). A migrant reaches a host channel core, takes a free context or waits in the arrival queue, and reloads its segments. -/
  | migrantArrival (m : Nat)
  /-- `MIGRANT_HOME_ARRIVAL` (R187). A returning migrant re-enters its home context and the held-away state ends. -/
  | migrantHomeArrival (m : Nat)
  /-- `DELEGATION_ACCEPT` (R191). A waiting delegation request enters the server's queue when room frees, releasing its requester. -/
  | delegationAccept (cid : Nat)
  /-- `DELEGATION_START` (R191). The server context starts a routine from the head request, or when a request reaches an empty queue. -/
  | delegationStart (cid : Nat)
  /-- `REPEAT_FRAME_STEP` (R155). One iteration of one captured word executes in its slot with staggered fields. -/
  | repeatFrameStep
  /-- `LATE_POISON` (R165). A relaxed load that returned poison traps at the next group boundary. -/
  | latePoison (m : Nat)
  /-- `ENGINE_FAULT_DELIVERY` (R257). A faulted command's trap is taken by its issuing context at the next group boundary, then the completion word is posted. -/
  | engineFaultDelivery (m : Nat)
  /-- `RECVT_TIMEOUT` (R196). The limit expires with the mailbox empty: k30 set and zero written. -/
  | recvtTimeout (m : Nat)
  /-- `MAILBOX_WORD_ARRIVAL` (R195). A word reaches a destination core's ingress buffer and enters the mailbox if it has room. -/
  | mailboxWordArrival (src dst : Nat)
  /-- `PORT_WORD_ARRIVAL` (R30). A word reaches a neighbour port's incoming queue, feeding the first blocked reader. -/
  | portWordArrival (cid : Nat) (dir : Dir)
  /-- `QIN_WORD_ARRIVAL` (R31). A qout word reaches the downstream qin. -/
  | qinWordArrival (src dst : Nat)
  /-- `COUNTER_OPERATION_APPLY` (R211). A counter operation arrives at the counter's bank and is applied, possibly posting a run entry or setting underflow. -/
  | counterOperationApply (n : Nat)
  /-- `BOW_TOKEN_PASS` (R217). A core holds the token until member messages are delivered, marks it if active, and sends it on. -/
  | bowTokenPass (n : Nat)
  /-- `MUTE_PLACEMENT` (R218). The mute is placed once the downstream qin has room, and the mute notice posted. -/
  | mutePlacement (m : Nat)
  /-- `LEASE_TERM_TIMEOUT` (R259). 4,096 base cycles after a term began, the term ends and is re-granted. -/
  | leaseTermTimeout (quad : Nat)
  /-- `ENGINE_COMMAND_RUN` (R233). An engine begins its next queued command once the previous has completed. -/
  | engineCommandRun (cid : Nat) (eng : Eng) (e : Ecc)
  /-- `ENGINE_COMMAND_COMPLETION` (R234). A command completes: status written, flags ORed, completion word posted. -/
  | engineCommandCompletion (cid : Nat) (eng : Eng)
  /-- `RESTRICT_COMBINE` (R276). When all participants delivered or faulted, the parent combines partials, converts and lands them. -/
  | restrictCombine (parent slot : Nat)
  /-- `PUT_ARRIVAL` (R283). A put's first line reaches the destination; a reduce put is judged late or applied. -/
  | putArrival (p : PutRef)
  /-- `PUT_COUNTER_INCREMENT` (R283). When all lines are performed, the destination counter's count rises and the put completes. -/
  | putCounterIncrement (n : Nat)
  /-- `ARMED_PUT_DEADLINE_FIRE` (R285). An armed put fires when global time reaches its deadline. -/
  | armedPutDeadlineFire (cid n : Nat)
  /-- `PUT_UNDELIVERABLE` (R420). A put to an unreachable device completes with fault cause 0xFD and no trap. -/
  | putUndeliverable (n : Nat)
  /-- `LINK_FLIT_RETRY` (R419). A link flit failing its CRC is sent again. -/
  | linkFlitRetry (link : Nat)
  /-- `MEMORY_ACCESS_PERFORM` (R164). An access reaches its bank or channel and is performed, returning data where it reads. -/
  | memoryAccessPerform (m n : Nat) (e : Ecc)
  /-- `PAGE_WALK` (R388). A port walk completes with a leaf, not-present or poison, filling TLBs. -/
  | pageWalk (n : Nat) (e : Ecc)
  /-- `ICACHE_LINE_FILL` (R51). A missed instruction line arrives and the waiting fetch proceeds. -/
  | icacheLineFill (cid line : Nat)
  /-- `RETENTION_ENTRY` (R426). A bank idle for retctl.idle cycles is re-encoded into retention. -/
  | retentionEntry (cid bank : Nat)
  /-- `RETENTION_EXIT_COMPLETE` (R426). A bank finishes leaving retention and waiting accesses proceed. -/
  | retentionExitComplete (cid bank : Nat)
  /-- `PATROL_SCRUB` (R424). The scrubber reads a word and rewrites it corrected if unwritten since. -/
  | patrolScrub (at_ : Guarded) (e : Ecc)
  /-- `WATCHDOG` (R401). A stall clock reaching wdlim abandons the wait and traps to the supervisor. -/
  | watchdog (m : Nat)
  /-- `BUDGET_WINDOW_START` (R412). Each 1,000 ns every budget's token count is reset to tok. -/
  | budgetWindowStart
  /-- `EMISSION_SLOT` (R372). In each dispatcher slot one work item of the chosen launch is emitted. -/
  | emissionSlot
  /-- `WORK_ITEM_ARRIVAL` (R373). An emitted item reaches a core on its walk and is taken, passed on or queued. -/
  | workItemArrival (n : Nat)
  /-- `FRONT_DOOR_FRAME` (R380). A launch frame arrives at a front-door port and its records are admitted or discarded. -/
  | frontDoorFrame (fr : Frame)
  /-- `HOST_DOORBELL` (R381). A host write to a ring tail register advances the ring. -/
  | hostDoorbell (part : Nat) (secure : Bool) (link : Nat) (world : Bool) (tail : W32)
  /-- `HOST_RING_FETCH` (R381). The dispatcher fetches the next ring record and admits or skips it. -/
  | hostRingFetch (part : Nat) (secure : Bool) (rec : List Word)
  /-- `BAR2_HOST_ACCESS` (R417). A host access through BAR2 is translated and performed as a plain 8-byte access. -/
  | bar2HostAccess (part : Nat) (off : Nat) (wr : Option Word)
  /-- `SLOT_ALLOCATOR_REQUEST` (R409). Firmware requests n slots per port for a partition; granted or refused. -/
  | slotAllocatorRequest (die part n : Nat)
  /-- `SLOT_TABLE_SWITCH` (R409). A die's slot tables change together at a frame boundary. -/
  | slotTableSwitch (die : Nat)
  /-- `COMPAT_WRITE` (R322). Firmware switches Rogil store-forwarding mode in a quiescent partition. -/
  | compatWrite (part : Nat) (v : Bool)
  /-- `FIRMWARE_REGISTER_WRITE` (R385). Firmware writes a service-path register that has no row of its own. -/
  | firmwareRegisterWrite (r : FwReg) (v : Nat)
  /-- `IMAGE_LOAD` (R364). Firmware verifies, checks and places a WOF image in a quiescent partition. -/
  | imageLoad (part : Nat) (image : List Byte) (err : Bool)
  /-- `CONTEXT0_START` (R292). Partition firmware starts context 0 of a core with a supervisor load. -/
  | context0Start (cid : Nat) (pc : Nat)
  /-- `DEBUG_HALT` (R402). A debugger halts a context, stopping it and freezing stall clocks. -/
  | debugHalt (m : Nat)
  /-- `DEBUG_RESUME` (R402). A debugger resumes a halted context at its PC. -/
  | debugResume (m : Nat) (frame : List Byte)
  /-- `CONTAINMENT` (R427). An uncorrectable fault is contained at the smallest level whose trigger it meets. -/
  | containment (t : Trigger)
  /-- `CLUSTER_RESET` (R428). A contained cluster is reset, ending outside operations and losing its state. -/
  | clusterReset (layer cl : Nat)
  /-- `CLUSTER_RETURN` (R428). Firmware restores images and slots, starts contexts 0 and marks the cluster returned. -/
  | clusterReturn (layer cl : Nat) (pc : Nat)
  /-- `PARTITION_RESET` (R429). Resets every cluster and upper core of a partition and discards its launches. -/
  | partitionReset (part : Nat)
  /-- `DEVICE_START` (R430). The Alwick controller starts the device through its boot phases. -/
  | deviceStart (o : StartOutcome)
  /-- `START_TIMEOUT` (R430). A start not reaching phase 0x0F within 30 s fails and the failed-start count rises. -/
  | startTimeout
  /-- `BOOTCTL_WRITE` (R432). A host write of 1 to bootctl clears the start counts and restarts in full mode. -/
  | bootctlWrite (a : PfAccess)
  /-- `THROTTLE_STEP` (R435). Power or temperature over limit lowers or restores the base clock by one step. -/
  | throttleStep (down : Bool)
  /-- `ATTESTATION_REPORT` (R438). Produces a signed report of boot status and measurement chains. -/
  | attestationReport (part : Nat) (nonce : List Byte)
  /-- `ILLEGAL_ENCODING` (R109). A fetched word whose major or function code is unassigned, or whose reserved W bit is set, raises illegal-encoding or reserved-field. -/
  | illegalEncoding (f : DecFail)
  /-- `MICRO_TLB_FILL` (R393). A micro-TLB miss served from the cluster port TLB delivers its fill and the stalled context proceeds. -/
  | microTlbFill (m : Nat)
  /-- `HOST_BAR0_WRITE` (R417). A host write to a BAR0 register other than a tail (ring base, ring control, win, wsel) changes the partition's ring or window state under its own checks. -/
  | hostBar0Write (part link : Nat) (world : Bool) (off : Nat) (v : Word)
  /-- `HOST_LINK_STATE_CHANGE` (R418). A PCI Express link goes down or returns, and ring fetches and host access continue through the other link. -/
  | hostLinkStateChange (link : Nat) (up : Bool)
  /-- `POWER_CYCLE` (R432). Module power is removed and restored, clearing the count of failed minimal starts and leading to a start. -/
  | powerCycle
  /-- `C0RATE_WINDOW_START` (R379). At each 1 us window the count of class-0 front-door records admitted against c0rate begins again. -/
  | c0rateWindowStart
  deriving DecidableEq, Repr

end Sys2Proof
end

