-- ==== Sys2Proof/WellFormed.lean ====
section
/-! DEFINITION. Which terms of `Instr` are instructions that words stand for: every field within the range that its
description gives it (R88, R91, R129, R170, R187, R208, R244, R262, R269, R271, R272, R282, R284–R288). Events carry
no words. -/

namespace Sys2Proof

/-- A T64 instruction that leaves `d` out (R90). -/
def T64.noD (t : T64) : Bool := t.d == 0
/-- A T64 instruction that leaves `a` out (R90). -/
def T64.noA (t : T64) : Bool := t.a == 0
/-- A T64 instruction that leaves `b` out (R90). -/
def T64.noB (t : T64) : Bool := t.b == 0
/-- Bits of the f field that must be zero (R90). -/
def T64.noF (t : T64) (m : BitVec 8) : Bool := t.f &&& m == 0
/-- Bits of the second word that must be zero. -/
def T64.noW (t : T64) (m : W32) : Bool := t.w1 &&& m == 0
/-- `fe` is 00, 01 or 10 (R91). -/
def T64.feOk (t : T64) : Bool := t.fe != 3
/-- `fe` is 00. -/
def T64.fe0 (t : T64) : Bool := t.fe == 0
/-- No extension bit: the major accepts no prefix (R90, R94). -/
def T64.noX (t : T64) : Bool := !t.x

/-- Well-formed instructions. -/
def Instr.wf : Instr → Bool
  | .shli _ _ imm _ | .shri _ _ imm _ | .sari _ _ imm _ => imm.toNat < 64
  | .segld d _ => d.toNat < 8
  | .segget _ a b => a.toNat < 8 && b.toNat < 2
  | .segchk _ a _ => a.toNat < 8
  | .mig _ b => b.toNat < 8
  | .save d _ _ | .load d _ _ => d.toNat < 8
  | .fcvt _ _ src dst _ => src.toNat < 13 && dst.toNat < 13
  | .fold t | .scan t => t.noF 0x80 && t.feOk && t.noW 0xFFFFF && (!t.f.getLsbD 6 || t.noB)
  | .zip t => t.noF 0xC0 && t.feOk && t.noW 0xFFFFF
  | .outer t => t.noF 0xE0 && t.feOk && t.noW 0xFFFFF
  | .tcopy t => t.noB && t.noF 0xC0 && t.feOk && t.noW 0xFFFFF
  | .tfill t => t.noB && t.noF 0xC0 && t.feOk && t.noW 0x1FFFFF
  | .txp t => t.noX && t.noB && t.noF 0xFF && t.feOk && t.noW 0xFFFFF
  | .gld t => t.noX && t.noF 0xF8 && t.feOk && t.noW 0x1FFFFF
  | .gst t => t.noX && t.noF 0xF8 && t.fe0 && t.noW 0xFFFFF
  | .mxldst t => t.noX && t.noD && t.noF 0xFF && t.fe0 && t.noW 0xFFFFE
  | .mxswap t => t.noX && t.noD && t.noA && t.noB && t.noF 0xFF && t.fe0 && t.noW 0x1FFFFF
  | .mxstrm t => t.noX && t.noD && t.noB && t.noF 0xFF && t.fe0 && t.noW 0xFFF80
  | .mxdrain t => t.noA && t.noF 0x80 && t.feOk && t.noW 0xF8000
  | .wld t => t.noX && t.noD && t.noB && t.noF 0xFF && t.fe0 && t.noW 0xFFFF8
  | .rstr t => t.noB && t.noF 0xDF && t.feOk && t.noW 0xF0000
  | .prol t => t.noB && t.noF 0xFF && t.feOk && t.noW 0xE0000
  | .put t => t.noX && t.noF 0xFF && t.fe0 && t.noW 0xE0000
  | .dlg t => t.noX && t.noD && t.noB && t.noF 0xF8 && t.noW 3
  | .lnch t => t.noX && t.noB && t.noF 0xF8 && t.noW 0xFFFF00FE
  | .putarm t => t.noX && t.noB && t.noF 0xF8 && t.noW 0xFFFFFFFF
  | .cntw t => t.noX && t.noF 0xF8 && t.noW 0xFFFFFFFF
  | .lvsetImm t => t.noX && t.noD && t.noA && t.noB && t.noF 0xFF
  | .lvsetReg t => t.noX && t.noD && t.noB && t.f == 1 && t.noW 0xFFFFFFFF
  | .erarm t => t.noX && t.noD && t.noB && t.noF 0xFF && t.noW 0xFFFFFFFF
  | .rtndef t => t.noX && t.noD && t.noF 0xF8 && t.noW 0xFFFFFFFF
  | .dlgctlEnable .. | .dlgctlDisable .. | .remoteUpdateApply .. | .migrantArrival .. | .migrantHomeArrival ..
  | .delegationAccept .. | .delegationStart .. | .repeatFrameStep | .latePoison .. | .engineFaultDelivery ..
  | .recvtTimeout .. | .mailboxWordArrival .. | .portWordArrival .. | .qinWordArrival ..
  | .counterOperationApply .. | .bowTokenPass .. | .mutePlacement .. | .leaseTermTimeout ..
  | .engineCommandRun .. | .engineCommandCompletion .. | .restrictCombine .. | .putArrival ..
  | .putCounterIncrement .. | .armedPutDeadlineFire .. | .putUndeliverable .. | .linkFlitRetry ..
  | .memoryAccessPerform .. | .pageWalk .. | .icacheLineFill .. | .retentionEntry ..
  | .retentionExitComplete .. | .patrolScrub .. | .watchdog .. | .budgetWindowStart | .emissionSlot
  | .workItemArrival .. | .frontDoorFrame .. | .hostDoorbell .. | .hostRingFetch .. | .bar2HostAccess ..
  | .slotAllocatorRequest .. | .slotTableSwitch .. | .compatWrite .. | .firmwareRegisterWrite ..
  | .imageLoad .. | .context0Start .. | .debugHalt .. | .debugResume .. | .containment .. | .clusterReset ..
  | .clusterReturn .. | .partitionReset .. | .deviceStart .. | .startTimeout | .bootctlWrite ..
  | .throttleStep .. | .attestationReport .. | .illegalEncoding .. | .microTlbFill .. | .hostBar0Write ..
  | .hostLinkStateChange .. | .powerCycle | .c0rateWindowStart => false
  | .add .. | .sub .. | .and .. | .or .. | .xor .. | .andn .. | .shl .. | .shr .. | .sar .. | .rol .. | .mul ..
  | .mulh .. | .mulhu .. | .div .. | .divu .. | .rem .. | .remu .. | .min .. | .max .. | .minu .. | .maxu ..
  | .slt .. | .sltu .. | .clmul .. | .clmulh .. | .clz .. | .ctz .. | .popc .. | .brev .. | .bswap .. | .sxb ..
  | .sxh .. | .sxw .. | .zxb .. | .zxh .. | .zxw .. | .abs .. | .neg .. | .addi .. | .andi .. | .ori ..
  | .xori .. | .muli .. | .slti .. | .sltiu .. | .li .. | .lis .. | .lix .. | .cmpEq .. | .cmpNe .. | .cmpLt ..
  | .cmpGe .. | .cmpLtu .. | .cmpGeu .. | .cmpiEq .. | .cmpiNe .. | .cmpiLt .. | .cmpiGe .. | .cmpiLtu ..
  | .cmpiGeu .. | .sel .. | .kget .. | .kset .. | .kand .. | .kor .. | .kxor .. | .knot .. | .srg .. | .srs ..
  | .srx .. | .fadd .. | .fsub .. | .fmul .. | .fdiv .. | .fsqrt .. | .fmin .. | .fmax .. | .fabs .. | .fneg ..
  | .fsgnj .. | .fclass .. | .frcpa .. | .frsqa .. | .fexp2a .. | .flog2a .. | .fma .. | .fms .. | .fnma ..
  | .fnms .. | .fcmpEq .. | .fcmpLt .. | .fcmpLe .. | .fcmpUn .. | .fcmpEqs .. | .ldb .. | .ldbu .. | .ldh ..
  | .ldhu .. | .ldw .. | .ldwu .. | .ldd .. | .stb .. | .sth .. | .stw .. | .std .. | .ldfk .. | .ldfc ..
  | .stfe .. | .stfs .. | .feset .. | .feclr .. | .feget .. | .lea .. | .amoSwap .. | .amoAdd .. | .amoAnd ..
  | .amoOr .. | .amoXor .. | .amoMin .. | .amoMax .. | .amoMinu .. | .amoMaxu .. | .amoFaddS .. | .amoFaddD ..
  | .amoFminS .. | .amoFmaxS .. | .cas .. | .redSwap .. | .redAdd .. | .redAnd .. | .redOr .. | .redXor ..
  | .redMin .. | .redMax .. | .redMinu .. | .redMaxu .. | .redFaddS .. | .redFaddD .. | .redFminS ..
  | .redFmaxS .. | .home | .dlgret | .beq .. | .bne .. | .blt .. | .bge .. | .bltu .. | .bgeu .. | .bk ..
  | .bkn .. | .j .. | .call .. | .calll .. | .jr .. | .jalr .. | .ret | .rep .. | .trap .. | .nop | .eret ..
  | .brk | .ifl | .halt | .recvt .. | .mbcnt .. | .send .. | .barArrive .. | .barInit .. | .barLeave ..
  | .fenceFull .. | .fenceAcq .. | .fenceRel .. | .spawn .. | .reap .. | .exit | .tkdec .. | .tkset ..
  | .erflip .. | .erpass .. | .erori .. | .bowstart .. | .mutesend .. | .rnd .. | .rngseed .. | .flget ..
  | .flclr .. | .fltree .. | .engst .. | .engcancel .. | .mxlease .. | .mxrel | .tlbinv .. | .tlbinvall .. => true

end Sys2Proof
end

