-- ==== Sys2Proof/Decode.lean ====
section
/-! DEFINITION. From words to instructions and back (chapters 4 and 5, and the field tables of chapters 7 to 10).
Decoding is total: what no rule assigns is rejected with the fault that the manual names for it. -/

namespace Sys2Proof

/-- `k` bits of a word from bit `lo` up, left where they stand: the offending bits of a reserved field (R105). -/
def fieldBits (w : W32) (lo k : Nat) : W32 := (w.extractLsb' lo k).setWidth 32 <<< lo

/-- An instruction whose unused and reserved fields hold `bad` (R88). -/
def chk (n : Nat) (bad : W32) (i : Instr) : Except DecFail Instr :=
  if bad = 0 then .ok i else .error (.reserved n bad)

/-- The kinds of a word by its top bits (R84). -/
def isPfx (w : W32) : Bool := w.extractLsb' 30 2 == 2
/-- The first word of a 64-bit instruction (R84). -/
def isWide (w : W32) : Bool := w.extractLsb' 30 2 == 3

/-- Kind of a prefix word (Table 4.7). -/
def pfxKind (w : W32) : Nat := (w.extractLsb' 27 3).toNat

/-- Offending bits of a prefix word: the field of a reserved kind or of a reserved value, a one in a zero field (R93). -/
def pfxBad (w : W32) : W32 :=
  match pfxKind w with
  | 0 => fieldBits w 0 21 ||| (if w.extractLsb' 24 3 = 7 then fieldBits w 24 3 else 0)
      ||| (if w.extractLsb' 22 2 = 3 then fieldBits w 22 2 else 0)
  | 1 => fieldBits w 0 27
  | 2 => fieldBits w 0 24
  | 3 => 0
  | _ => 7#32 <<< 27

/-- The 64-bit majors that only base cores have (R254, R260, R282, R284). -/
def baseOnly (m : Nat) : Bool := m == 0x04 || m == 0x05 || (0x0F ≤ m && m ≤ 0x14)

/-- Whether the major opcode of an instruction's first word is assigned on a layer (Tables 5.1 and 5.4). -/
def majorAssigned (layer : Nat) (w : W32) : Bool :=
  if isWide w then
    let m := (w.extractLsb' 24 6).toNat
    m ≤ 0x1A && m != 0x07 && !(layer != 0 && baseOnly m)
  else
    let m := (w.extractLsb' 24 8).toNat
    m ≤ 0x11 || (0x14 ≤ m && m ≤ 0x17) || (0x20 ≤ m && m ≤ 0x31) || (0x34 ≤ m && m ≤ 0x37)
      || (0x40 ≤ m && m ≤ 0x4D) || (0x50 ≤ m && m ≤ 0x5D)

/-- Whether the format of an instruction's first word has an X bit (R88; I64 has none). -/
def hasX (w : W32) : Bool :=
  let m := (w.extractLsb' 24 8).toNat
  if isWide w then m != 0xC0 && m != 0xC1
  else m != 0x0B && m != 0x0C && !(0x40 ≤ m && m ≤ 0x49) && m != 0x4B

/-- Whether an instruction accepts a prefix kind (Table 4.6). -/
def accepts (w : W32) (kind : Nat) : Bool :=
  let m := (w.extractLsb' 24 8).toNat
  match kind with
  | 0 => m ≤ 0x0A || (0x14 ≤ m && m ≤ 0x17) || (0xC8 ≤ m && m ≤ 0xCD) || (0xD4 ≤ m && m ≤ 0xD6)
  | 1 => 0x20 ≤ m && m ≤ 0x2A
  | 2 => (0x34 ≤ m && m ≤ 0x36) || m == 0x52
  | _ => (0x01 ≤ m && m ≤ 0x04) || (0x08 ≤ m && m ≤ 0x0A)

/-! ## 32-bit instructions -/

/-- Major 0x00 (Tables 5.1 to 5.3). -/
def decodeInt (n : Nat) (w : W32) : Except DecFail Instr :=
  match (w.extractLsb' 1 7).toNat with
  | 0x00 => .ok (.add (w.extractLsb' 19 5) (w.extractLsb' 14 5) (w.extractLsb' 9 5) (w.getLsbD 8) (w.getLsbD 0))
  | 0x01 => .ok (.sub (w.extractLsb' 19 5) (w.extractLsb' 14 5) (w.extractLsb' 9 5) (w.getLsbD 8) (w.getLsbD 0))
  | 0x02 => .ok (.and (w.extractLsb' 19 5) (w.extractLsb' 14 5) (w.extractLsb' 9 5) (w.getLsbD 8) (w.getLsbD 0))
  | 0x03 => .ok (.or (w.extractLsb' 19 5) (w.extractLsb' 14 5) (w.extractLsb' 9 5) (w.getLsbD 8) (w.getLsbD 0))
  | 0x04 => .ok (.xor (w.extractLsb' 19 5) (w.extractLsb' 14 5) (w.extractLsb' 9 5) (w.getLsbD 8) (w.getLsbD 0))
  | 0x05 => .ok (.andn (w.extractLsb' 19 5) (w.extractLsb' 14 5) (w.extractLsb' 9 5) (w.getLsbD 8) (w.getLsbD 0))
  | 0x06 => .ok (.shl (w.extractLsb' 19 5) (w.extractLsb' 14 5) (w.extractLsb' 9 5) (w.getLsbD 8) (w.getLsbD 0))
  | 0x07 => .ok (.shr (w.extractLsb' 19 5) (w.extractLsb' 14 5) (w.extractLsb' 9 5) (w.getLsbD 8) (w.getLsbD 0))
  | 0x08 => .ok (.sar (w.extractLsb' 19 5) (w.extractLsb' 14 5) (w.extractLsb' 9 5) (w.getLsbD 8) (w.getLsbD 0))
  | 0x09 => .ok (.rol (w.extractLsb' 19 5) (w.extractLsb' 14 5) (w.extractLsb' 9 5) (w.getLsbD 8) (w.getLsbD 0))
  | 0x0A => .ok (.mul (w.extractLsb' 19 5) (w.extractLsb' 14 5) (w.extractLsb' 9 5) (w.getLsbD 8) (w.getLsbD 0))
  | 0x0B => .ok (.mulh (w.extractLsb' 19 5) (w.extractLsb' 14 5) (w.extractLsb' 9 5) (w.getLsbD 8) (w.getLsbD 0))
  | 0x0C => .ok (.mulhu (w.extractLsb' 19 5) (w.extractLsb' 14 5) (w.extractLsb' 9 5) (w.getLsbD 8) (w.getLsbD 0))
  | 0x0D => .ok (.div (w.extractLsb' 19 5) (w.extractLsb' 14 5) (w.extractLsb' 9 5) (w.getLsbD 8) (w.getLsbD 0))
  | 0x0E => .ok (.divu (w.extractLsb' 19 5) (w.extractLsb' 14 5) (w.extractLsb' 9 5) (w.getLsbD 8) (w.getLsbD 0))
  | 0x0F => .ok (.rem (w.extractLsb' 19 5) (w.extractLsb' 14 5) (w.extractLsb' 9 5) (w.getLsbD 8) (w.getLsbD 0))
  | 0x10 => .ok (.remu (w.extractLsb' 19 5) (w.extractLsb' 14 5) (w.extractLsb' 9 5) (w.getLsbD 8) (w.getLsbD 0))
  | 0x11 => .ok (.min (w.extractLsb' 19 5) (w.extractLsb' 14 5) (w.extractLsb' 9 5) (w.getLsbD 8) (w.getLsbD 0))
  | 0x12 => .ok (.max (w.extractLsb' 19 5) (w.extractLsb' 14 5) (w.extractLsb' 9 5) (w.getLsbD 8) (w.getLsbD 0))
  | 0x13 => .ok (.minu (w.extractLsb' 19 5) (w.extractLsb' 14 5) (w.extractLsb' 9 5) (w.getLsbD 8) (w.getLsbD 0))
  | 0x14 => .ok (.maxu (w.extractLsb' 19 5) (w.extractLsb' 14 5) (w.extractLsb' 9 5) (w.getLsbD 8) (w.getLsbD 0))
  | 0x15 => .ok (.slt (w.extractLsb' 19 5) (w.extractLsb' 14 5) (w.extractLsb' 9 5) (w.getLsbD 8) (w.getLsbD 0))
  | 0x16 => .ok (.sltu (w.extractLsb' 19 5) (w.extractLsb' 14 5) (w.extractLsb' 9 5) (w.getLsbD 8) (w.getLsbD 0))
  | 0x17 => chk n (fieldBits w 8 1) (.clmul (w.extractLsb' 19 5) (w.extractLsb' 14 5) (w.extractLsb' 9 5) (w.getLsbD 0))
  | 0x18 => chk n (fieldBits w 8 1) (.clmulh (w.extractLsb' 19 5) (w.extractLsb' 14 5) (w.extractLsb' 9 5) (w.getLsbD 0))
  | 0x20 => chk n (fieldBits w 9 5) (.clz (w.extractLsb' 19 5) (w.extractLsb' 14 5) (w.getLsbD 8) (w.getLsbD 0))
  | 0x21 => chk n (fieldBits w 9 5) (.ctz (w.extractLsb' 19 5) (w.extractLsb' 14 5) (w.getLsbD 8) (w.getLsbD 0))
  | 0x22 => chk n (fieldBits w 9 5) (.popc (w.extractLsb' 19 5) (w.extractLsb' 14 5) (w.getLsbD 8) (w.getLsbD 0))
  | 0x23 => chk n (fieldBits w 9 5) (.brev (w.extractLsb' 19 5) (w.extractLsb' 14 5) (w.getLsbD 8) (w.getLsbD 0))
  | 0x24 => chk n (fieldBits w 9 5) (.bswap (w.extractLsb' 19 5) (w.extractLsb' 14 5) (w.getLsbD 8) (w.getLsbD 0))
  | 0x25 => chk n (fieldBits w 9 5) (.sxb (w.extractLsb' 19 5) (w.extractLsb' 14 5) (w.getLsbD 8) (w.getLsbD 0))
  | 0x26 => chk n (fieldBits w 9 5) (.sxh (w.extractLsb' 19 5) (w.extractLsb' 14 5) (w.getLsbD 8) (w.getLsbD 0))
  | 0x27 => chk n (fieldBits w 9 5 ||| fieldBits w 8 1) (.sxw (w.extractLsb' 19 5) (w.extractLsb' 14 5) (w.getLsbD 0))
  | 0x28 => chk n (fieldBits w 9 5) (.zxb (w.extractLsb' 19 5) (w.extractLsb' 14 5) (w.getLsbD 8) (w.getLsbD 0))
  | 0x29 => chk n (fieldBits w 9 5) (.zxh (w.extractLsb' 19 5) (w.extractLsb' 14 5) (w.getLsbD 8) (w.getLsbD 0))
  | 0x2A => chk n (fieldBits w 9 5 ||| fieldBits w 8 1) (.zxw (w.extractLsb' 19 5) (w.extractLsb' 14 5) (w.getLsbD 0))
  | 0x2B => chk n (fieldBits w 9 5) (.abs (w.extractLsb' 19 5) (w.extractLsb' 14 5) (w.getLsbD 8) (w.getLsbD 0))
  | 0x2C => chk n (fieldBits w 9 5) (.neg (w.extractLsb' 19 5) (w.extractLsb' 14 5) (w.getLsbD 8) (w.getLsbD 0))
  | _ => .error (.illegal n 1)

/-- Major 0x0D (Tables 5.1 to 5.3). -/
def decodeCmp (n : Nat) (w : W32) : Except DecFail Instr :=
  match (w.extractLsb' 1 3).toNat with
  | 0x00 => chk n (fieldBits w 6 2 ||| fieldBits w 0 1) (.cmpEq (w.extractLsb' 19 5) (w.extractLsb' 14 5) (w.extractLsb' 9 5) (w.getLsbD 8) (w.extractLsb' 4 2))
  | 0x01 => chk n (fieldBits w 6 2 ||| fieldBits w 0 1) (.cmpNe (w.extractLsb' 19 5) (w.extractLsb' 14 5) (w.extractLsb' 9 5) (w.getLsbD 8) (w.extractLsb' 4 2))
  | 0x02 => chk n (fieldBits w 6 2 ||| fieldBits w 0 1) (.cmpLt (w.extractLsb' 19 5) (w.extractLsb' 14 5) (w.extractLsb' 9 5) (w.getLsbD 8) (w.extractLsb' 4 2))
  | 0x03 => chk n (fieldBits w 6 2 ||| fieldBits w 0 1) (.cmpGe (w.extractLsb' 19 5) (w.extractLsb' 14 5) (w.extractLsb' 9 5) (w.getLsbD 8) (w.extractLsb' 4 2))
  | 0x04 => chk n (fieldBits w 6 2 ||| fieldBits w 0 1) (.cmpLtu (w.extractLsb' 19 5) (w.extractLsb' 14 5) (w.extractLsb' 9 5) (w.getLsbD 8) (w.extractLsb' 4 2))
  | 0x05 => chk n (fieldBits w 6 2 ||| fieldBits w 0 1) (.cmpGeu (w.extractLsb' 19 5) (w.extractLsb' 14 5) (w.extractLsb' 9 5) (w.getLsbD 8) (w.extractLsb' 4 2))
  | _ => .error (.illegal n 1)

/-- Major 0x0E (Tables 5.1 to 5.3). -/
def decodeCmpi (n : Nat) (w : W32) : Except DecFail Instr :=
  match (w.extractLsb' 11 3).toNat with
  | 0x00 => chk n (fieldBits w 0 1) (.cmpiEq (w.extractLsb' 19 5) (w.extractLsb' 14 5) (w.extractLsb' 1 10))
  | 0x01 => chk n (fieldBits w 0 1) (.cmpiNe (w.extractLsb' 19 5) (w.extractLsb' 14 5) (w.extractLsb' 1 10))
  | 0x02 => chk n (fieldBits w 0 1) (.cmpiLt (w.extractLsb' 19 5) (w.extractLsb' 14 5) (w.extractLsb' 1 10))
  | 0x03 => chk n (fieldBits w 0 1) (.cmpiGe (w.extractLsb' 19 5) (w.extractLsb' 14 5) (w.extractLsb' 1 10))
  | 0x04 => chk n (fieldBits w 0 1) (.cmpiLtu (w.extractLsb' 19 5) (w.extractLsb' 14 5) (w.extractLsb' 1 10))
  | 0x05 => chk n (fieldBits w 0 1) (.cmpiGeu (w.extractLsb' 19 5) (w.extractLsb' 14 5) (w.extractLsb' 1 10))
  | _ => .error (.illegal n 1)

/-- Major 0x10 (Tables 5.1 to 5.3). -/
def decodeKop (n : Nat) (w : W32) : Except DecFail Instr :=
  match (w.extractLsb' 1 8).toNat with
  | 0x00 => chk n (fieldBits w 14 5 ||| fieldBits w 9 5 ||| fieldBits w 0 1) (.kget (w.extractLsb' 19 5))
  | 0x01 => chk n (fieldBits w 19 5 ||| fieldBits w 9 5 ||| fieldBits w 0 1) (.kset (w.extractLsb' 14 5))
  | 0x02 => chk n (fieldBits w 0 1) (.kand (w.extractLsb' 19 5) (w.extractLsb' 14 5) (w.extractLsb' 9 5))
  | 0x03 => chk n (fieldBits w 0 1) (.kor (w.extractLsb' 19 5) (w.extractLsb' 14 5) (w.extractLsb' 9 5))
  | 0x04 => chk n (fieldBits w 0 1) (.kxor (w.extractLsb' 19 5) (w.extractLsb' 14 5) (w.extractLsb' 9 5))
  | 0x05 => chk n (fieldBits w 9 5 ||| fieldBits w 0 1) (.knot (w.extractLsb' 19 5) (w.extractLsb' 14 5))
  | _ => .error (.illegal n 1)

/-- Major 0x11 (Tables 5.1 to 5.3). -/
def decodeSrop (n : Nat) (w : W32) : Except DecFail Instr :=
  match (w.extractLsb' 1 8).toNat with
  | 0x00 => chk n (fieldBits w 0 1) (.srg (w.extractLsb' 19 5) (w.extractLsb' 9 10))
  | 0x01 => chk n (fieldBits w 0 1) (.srs (w.extractLsb' 19 5) (w.extractLsb' 9 10))
  | 0x02 => chk n (fieldBits w 0 1) (.srx (w.extractLsb' 19 5) (w.extractLsb' 9 10))
  | _ => .error (.illegal n 1)

/-- Major 0x14 (Tables 5.1 to 5.3). -/
def decodeFp (n : Nat) (w : W32) : Except DecFail Instr :=
  match (w.extractLsb' 1 7).toNat with
  | 0x00 => .ok (.fadd (w.extractLsb' 19 5) (w.extractLsb' 14 5) (w.extractLsb' 9 5) (w.getLsbD 8) (w.getLsbD 0))
  | 0x01 => .ok (.fsub (w.extractLsb' 19 5) (w.extractLsb' 14 5) (w.extractLsb' 9 5) (w.getLsbD 8) (w.getLsbD 0))
  | 0x02 => .ok (.fmul (w.extractLsb' 19 5) (w.extractLsb' 14 5) (w.extractLsb' 9 5) (w.getLsbD 8) (w.getLsbD 0))
  | 0x03 => .ok (.fdiv (w.extractLsb' 19 5) (w.extractLsb' 14 5) (w.extractLsb' 9 5) (w.getLsbD 8) (w.getLsbD 0))
  | 0x04 => chk n (fieldBits w 9 5) (.fsqrt (w.extractLsb' 19 5) (w.extractLsb' 14 5) (w.getLsbD 8) (w.getLsbD 0))
  | 0x05 => .ok (.fmin (w.extractLsb' 19 5) (w.extractLsb' 14 5) (w.extractLsb' 9 5) (w.getLsbD 8) (w.getLsbD 0))
  | 0x06 => .ok (.fmax (w.extractLsb' 19 5) (w.extractLsb' 14 5) (w.extractLsb' 9 5) (w.getLsbD 8) (w.getLsbD 0))
  | 0x07 => chk n (fieldBits w 9 5) (.fabs (w.extractLsb' 19 5) (w.extractLsb' 14 5) (w.getLsbD 8) (w.getLsbD 0))
  | 0x08 => chk n (fieldBits w 9 5) (.fneg (w.extractLsb' 19 5) (w.extractLsb' 14 5) (w.getLsbD 8) (w.getLsbD 0))
  | 0x09 => .ok (.fsgnj (w.extractLsb' 19 5) (w.extractLsb' 14 5) (w.extractLsb' 9 5) (w.getLsbD 8) (w.getLsbD 0))
  | 0x0A => chk n (fieldBits w 9 5) (.fclass (w.extractLsb' 19 5) (w.extractLsb' 14 5) (w.getLsbD 8) (w.getLsbD 0))
  | 0x0B => chk n (fieldBits w 9 5) (.frcpa (w.extractLsb' 19 5) (w.extractLsb' 14 5) (w.getLsbD 8) (w.getLsbD 0))
  | 0x0C => chk n (fieldBits w 9 5) (.frsqa (w.extractLsb' 19 5) (w.extractLsb' 14 5) (w.getLsbD 8) (w.getLsbD 0))
  | 0x0D => chk n (fieldBits w 9 5) (.fexp2a (w.extractLsb' 19 5) (w.extractLsb' 14 5) (w.getLsbD 8) (w.getLsbD 0))
  | 0x0E => chk n (fieldBits w 9 5) (.flog2a (w.extractLsb' 19 5) (w.extractLsb' 14 5) (w.getLsbD 8) (w.getLsbD 0))
  | _ => .error (.illegal n 1)

/-- Major 0x15 (Tables 5.1 to 5.3). -/
def decodeFma (_n : Nat) (w : W32) : Except DecFail Instr :=
  match (w.extractLsb' 1 2).toNat with
  | 0x00 => .ok (.fma (w.extractLsb' 19 5) (w.extractLsb' 14 5) (w.extractLsb' 9 5) (w.extractLsb' 4 5) (w.getLsbD 3) (w.getLsbD 0))
  | 0x01 => .ok (.fms (w.extractLsb' 19 5) (w.extractLsb' 14 5) (w.extractLsb' 9 5) (w.extractLsb' 4 5) (w.getLsbD 3) (w.getLsbD 0))
  | 0x02 => .ok (.fnma (w.extractLsb' 19 5) (w.extractLsb' 14 5) (w.extractLsb' 9 5) (w.extractLsb' 4 5) (w.getLsbD 3) (w.getLsbD 0))
  | _ => .ok (.fnms (w.extractLsb' 19 5) (w.extractLsb' 14 5) (w.extractLsb' 9 5) (w.extractLsb' 4 5) (w.getLsbD 3) (w.getLsbD 0))

/-- Major 0x16 (Tables 5.1 to 5.3). -/
def decodeFcmp (n : Nat) (w : W32) : Except DecFail Instr :=
  match (w.extractLsb' 1 3).toNat with
  | 0x00 => chk n (fieldBits w 4 4) (.fcmpEq (w.extractLsb' 19 5) (w.extractLsb' 14 5) (w.extractLsb' 9 5) (w.getLsbD 8) (w.getLsbD 0))
  | 0x01 => chk n (fieldBits w 4 4) (.fcmpLt (w.extractLsb' 19 5) (w.extractLsb' 14 5) (w.extractLsb' 9 5) (w.getLsbD 8) (w.getLsbD 0))
  | 0x02 => chk n (fieldBits w 4 4) (.fcmpLe (w.extractLsb' 19 5) (w.extractLsb' 14 5) (w.extractLsb' 9 5) (w.getLsbD 8) (w.getLsbD 0))
  | 0x03 => chk n (fieldBits w 4 4) (.fcmpUn (w.extractLsb' 19 5) (w.extractLsb' 14 5) (w.extractLsb' 9 5) (w.getLsbD 8) (w.getLsbD 0))
  | 0x04 => chk n (fieldBits w 4 4) (.fcmpEqs (w.extractLsb' 19 5) (w.extractLsb' 14 5) (w.extractLsb' 9 5) (w.getLsbD 8) (w.getLsbD 0))
  | _ => .error (.illegal n 1)

/-- Major 0x2F (Tables 5.1 to 5.3). -/
def decodeFetag (n : Nat) (w : W32) : Except DecFail Instr :=
  match (w.extractLsb' 9 2).toNat with
  | 0x00 => chk n (fieldBits w 19 5 ||| fieldBits w 0 1) (.feset (w.extractLsb' 14 5) (w.extractLsb' 11 3) (w.extractLsb' 1 8))
  | 0x01 => chk n (fieldBits w 19 5 ||| fieldBits w 0 1) (.feclr (w.extractLsb' 14 5) (w.extractLsb' 11 3) (w.extractLsb' 1 8))
  | 0x02 => chk n (fieldBits w 0 1) (.feget (w.extractLsb' 19 5) (w.extractLsb' 14 5) (w.extractLsb' 11 3) (w.extractLsb' 1 8))
  | _ => .error (.illegal n 1)

/-- Major 0x31 (Tables 5.1 to 5.3). -/
def decodeSegop (n : Nat) (w : W32) : Except DecFail Instr :=
  match (w.extractLsb' 1 8).toNat with
  | 0x00 => chk n (fieldBits w 9 5 ||| fieldBits w 0 1 ||| fieldBits w 22 2) (.segld (w.extractLsb' 19 5) (w.extractLsb' 14 5))
  | 0x01 => chk n (fieldBits w 0 1 ||| fieldBits w 17 2 ||| fieldBits w 10 4) (.segget (w.extractLsb' 19 5) (w.extractLsb' 14 5) (w.extractLsb' 9 5))
  | 0x02 => chk n (fieldBits w 0 1 ||| fieldBits w 17 2) (.segchk (w.extractLsb' 19 5) (w.extractLsb' 14 5) (w.extractLsb' 9 5))
  | _ => .error (.illegal n 1)

/-- Major 0x34 (Tables 5.1 to 5.3). -/
def decodeAmo (n : Nat) (w : W32) : Except DecFail Instr :=
  match (w.extractLsb' 1 5).toNat with
  | 0x00 => .ok (.amoSwap (w.extractLsb' 19 5) (w.extractLsb' 14 5) (w.extractLsb' 9 5) (w.extractLsb' 6 3) (w.getLsbD 0))
  | 0x01 => .ok (.amoAdd (w.extractLsb' 19 5) (w.extractLsb' 14 5) (w.extractLsb' 9 5) (w.extractLsb' 6 3) (w.getLsbD 0))
  | 0x02 => .ok (.amoAnd (w.extractLsb' 19 5) (w.extractLsb' 14 5) (w.extractLsb' 9 5) (w.extractLsb' 6 3) (w.getLsbD 0))
  | 0x03 => .ok (.amoOr (w.extractLsb' 19 5) (w.extractLsb' 14 5) (w.extractLsb' 9 5) (w.extractLsb' 6 3) (w.getLsbD 0))
  | 0x04 => .ok (.amoXor (w.extractLsb' 19 5) (w.extractLsb' 14 5) (w.extractLsb' 9 5) (w.extractLsb' 6 3) (w.getLsbD 0))
  | 0x05 => .ok (.amoMin (w.extractLsb' 19 5) (w.extractLsb' 14 5) (w.extractLsb' 9 5) (w.extractLsb' 6 3) (w.getLsbD 0))
  | 0x06 => .ok (.amoMax (w.extractLsb' 19 5) (w.extractLsb' 14 5) (w.extractLsb' 9 5) (w.extractLsb' 6 3) (w.getLsbD 0))
  | 0x07 => .ok (.amoMinu (w.extractLsb' 19 5) (w.extractLsb' 14 5) (w.extractLsb' 9 5) (w.extractLsb' 6 3) (w.getLsbD 0))
  | 0x08 => .ok (.amoMaxu (w.extractLsb' 19 5) (w.extractLsb' 14 5) (w.extractLsb' 9 5) (w.extractLsb' 6 3) (w.getLsbD 0))
  | 0x09 => .ok (.amoFaddS (w.extractLsb' 19 5) (w.extractLsb' 14 5) (w.extractLsb' 9 5) (w.extractLsb' 6 3) (w.getLsbD 0))
  | 0x0A => .ok (.amoFaddD (w.extractLsb' 19 5) (w.extractLsb' 14 5) (w.extractLsb' 9 5) (w.extractLsb' 6 3) (w.getLsbD 0))
  | 0x0B => .ok (.amoFminS (w.extractLsb' 19 5) (w.extractLsb' 14 5) (w.extractLsb' 9 5) (w.extractLsb' 6 3) (w.getLsbD 0))
  | 0x0C => .ok (.amoFmaxS (w.extractLsb' 19 5) (w.extractLsb' 14 5) (w.extractLsb' 9 5) (w.extractLsb' 6 3) (w.getLsbD 0))
  | _ => .error (.illegal n 1)

/-- Major 0x36 (Tables 5.1 to 5.3). -/
def decodeRed (n : Nat) (w : W32) : Except DecFail Instr :=
  match (w.extractLsb' 1 5).toNat with
  | 0x00 => chk n (fieldBits w 19 5) (.redSwap (w.extractLsb' 14 5) (w.extractLsb' 9 5) (w.extractLsb' 6 3) (w.getLsbD 0))
  | 0x01 => chk n (fieldBits w 19 5) (.redAdd (w.extractLsb' 14 5) (w.extractLsb' 9 5) (w.extractLsb' 6 3) (w.getLsbD 0))
  | 0x02 => chk n (fieldBits w 19 5) (.redAnd (w.extractLsb' 14 5) (w.extractLsb' 9 5) (w.extractLsb' 6 3) (w.getLsbD 0))
  | 0x03 => chk n (fieldBits w 19 5) (.redOr (w.extractLsb' 14 5) (w.extractLsb' 9 5) (w.extractLsb' 6 3) (w.getLsbD 0))
  | 0x04 => chk n (fieldBits w 19 5) (.redXor (w.extractLsb' 14 5) (w.extractLsb' 9 5) (w.extractLsb' 6 3) (w.getLsbD 0))
  | 0x05 => chk n (fieldBits w 19 5) (.redMin (w.extractLsb' 14 5) (w.extractLsb' 9 5) (w.extractLsb' 6 3) (w.getLsbD 0))
  | 0x06 => chk n (fieldBits w 19 5) (.redMax (w.extractLsb' 14 5) (w.extractLsb' 9 5) (w.extractLsb' 6 3) (w.getLsbD 0))
  | 0x07 => chk n (fieldBits w 19 5) (.redMinu (w.extractLsb' 14 5) (w.extractLsb' 9 5) (w.extractLsb' 6 3) (w.getLsbD 0))
  | 0x08 => chk n (fieldBits w 19 5) (.redMaxu (w.extractLsb' 14 5) (w.extractLsb' 9 5) (w.extractLsb' 6 3) (w.getLsbD 0))
  | 0x09 => chk n (fieldBits w 19 5) (.redFaddS (w.extractLsb' 14 5) (w.extractLsb' 9 5) (w.extractLsb' 6 3) (w.getLsbD 0))
  | 0x0A => chk n (fieldBits w 19 5) (.redFaddD (w.extractLsb' 14 5) (w.extractLsb' 9 5) (w.extractLsb' 6 3) (w.getLsbD 0))
  | 0x0B => chk n (fieldBits w 19 5) (.redFminS (w.extractLsb' 14 5) (w.extractLsb' 9 5) (w.extractLsb' 6 3) (w.getLsbD 0))
  | 0x0C => chk n (fieldBits w 19 5) (.redFmaxS (w.extractLsb' 14 5) (w.extractLsb' 9 5) (w.extractLsb' 6 3) (w.getLsbD 0))
  | _ => .error (.illegal n 1)

/-- Major 0x37 (Tables 5.1 to 5.3). -/
def decodeMigop (n : Nat) (w : W32) : Except DecFail Instr :=
  match (w.extractLsb' 1 8).toNat with
  | 0x00 => chk n (fieldBits w 19 5 ||| fieldBits w 0 1 ||| fieldBits w 12 2) (.mig (w.extractLsb' 14 5) (w.extractLsb' 9 5))
  | 0x01 => chk n (fieldBits w 19 5 ||| fieldBits w 14 5 ||| fieldBits w 9 5 ||| fieldBits w 0 1) (.home)
  | _ => .error (.illegal n 1)

/-- Major 0x4A (Tables 5.1 to 5.3). -/
def decodeJump (n : Nat) (w : W32) : Except DecFail Instr :=
  match (w.extractLsb' 1 8).toNat with
  | 0x00 => chk n (fieldBits w 19 5 ||| fieldBits w 9 5 ||| fieldBits w 0 1) (.jr (w.extractLsb' 14 5))
  | 0x01 => chk n (fieldBits w 9 5 ||| fieldBits w 0 1) (.jalr (w.extractLsb' 19 5) (w.extractLsb' 14 5))
  | 0x02 => chk n (fieldBits w 19 5 ||| fieldBits w 14 5 ||| fieldBits w 9 5 ||| fieldBits w 0 1) (.ret)
  | _ => .error (.illegal n 1)

/-- Major 0x4D (Tables 5.1 to 5.3). -/
def decodeSys (n : Nat) (w : W32) : Except DecFail Instr :=
  match (w.extractLsb' 1 8).toNat with
  | 0x00 => chk n (fieldBits w 19 5 ||| fieldBits w 14 5 ||| fieldBits w 9 5 ||| fieldBits w 0 1) (.nop)
  | 0x01 => chk n (fieldBits w 19 5 ||| fieldBits w 0 1) (.eret (w.extractLsb' 14 5) (w.extractLsb' 9 5))
  | 0x02 => chk n (fieldBits w 19 5 ||| fieldBits w 14 5 ||| fieldBits w 9 5 ||| fieldBits w 0 1) (.brk)
  | 0x03 => chk n (fieldBits w 19 5 ||| fieldBits w 14 5 ||| fieldBits w 9 5 ||| fieldBits w 0 1) (.ifl)
  | 0x04 => chk n (fieldBits w 19 5 ||| fieldBits w 14 5 ||| fieldBits w 9 5 ||| fieldBits w 0 1) (.halt)
  | _ => .error (.illegal n 1)

/-- Major 0x50 (Tables 5.1 to 5.3). -/
def decodeMsg (n : Nat) (w : W32) : Except DecFail Instr :=
  match (w.extractLsb' 1 8).toNat with
  | 0x00 => chk n (fieldBits w 9 5 ||| fieldBits w 0 1) (.recvt (w.extractLsb' 19 5) (w.extractLsb' 14 5))
  | 0x01 => chk n (fieldBits w 14 5 ||| fieldBits w 9 5 ||| fieldBits w 0 1) (.mbcnt (w.extractLsb' 19 5))
  | 0x02 => chk n (fieldBits w 19 5 ||| fieldBits w 0 1) (.send (w.extractLsb' 14 5) (w.extractLsb' 9 5))
  | _ => .error (.illegal n 1)

/-- Major 0x51 (Tables 5.1 to 5.3). -/
def decodeBar (n : Nat) (w : W32) : Except DecFail Instr :=
  match (w.extractLsb' 1 4).toNat with
  | 0x00 => chk n (fieldBits w 19 5 ||| fieldBits w 9 5 ||| fieldBits w 8 1 ||| fieldBits w 0 1) (.barArrive (w.extractLsb' 14 5) (w.extractLsb' 5 3))
  | 0x01 => chk n (fieldBits w 19 5 ||| fieldBits w 8 1 ||| fieldBits w 0 1) (.barInit (w.extractLsb' 14 5) (w.extractLsb' 9 5) (w.extractLsb' 5 3))
  | 0x02 => chk n (fieldBits w 19 5 ||| fieldBits w 9 5 ||| fieldBits w 8 1 ||| fieldBits w 0 1) (.barLeave (w.extractLsb' 14 5) (w.extractLsb' 5 3))
  | _ => .error (.illegal n 1)

/-- Major 0x52 (Tables 5.1 to 5.3). -/
def decodeFence (n : Nat) (w : W32) : Except DecFail Instr :=
  match (w.extractLsb' 1 3).toNat with
  | 0x00 => chk n (fieldBits w 19 5 ||| fieldBits w 14 5 ||| fieldBits w 9 5 ||| fieldBits w 8 1 ||| fieldBits w 4 1) (.fenceFull (w.extractLsb' 5 3) (w.getLsbD 0))
  | 0x01 => chk n (fieldBits w 19 5 ||| fieldBits w 14 5 ||| fieldBits w 9 5 ||| fieldBits w 8 1 ||| fieldBits w 4 1) (.fenceAcq (w.extractLsb' 5 3) (w.getLsbD 0))
  | 0x02 => chk n (fieldBits w 19 5 ||| fieldBits w 14 5 ||| fieldBits w 9 5 ||| fieldBits w 8 1 ||| fieldBits w 4 1) (.fenceRel (w.extractLsb' 5 3) (w.getLsbD 0))
  | _ => .error (.illegal n 1)

/-- Major 0x53 (Tables 5.1 to 5.3). -/
def decodeCtx (n : Nat) (w : W32) : Except DecFail Instr :=
  match (w.extractLsb' 1 8).toNat with
  | 0x00 => chk n (fieldBits w 0 1) (.spawn (w.extractLsb' 19 5) (w.extractLsb' 14 5) (w.extractLsb' 9 5))
  | 0x01 => chk n (fieldBits w 9 5 ||| fieldBits w 0 1) (.reap (w.extractLsb' 19 5) (w.extractLsb' 14 5))
  | 0x02 => chk n (fieldBits w 19 5 ||| fieldBits w 14 5 ||| fieldBits w 9 5 ||| fieldBits w 0 1) (.exit)
  | 0x03 => chk n (fieldBits w 0 1 ||| fieldBits w 22 2) (.save (w.extractLsb' 19 5) (w.extractLsb' 14 5) (w.extractLsb' 9 5))
  | 0x04 => chk n (fieldBits w 0 1 ||| fieldBits w 22 2) (.load (w.extractLsb' 19 5) (w.extractLsb' 14 5) (w.extractLsb' 9 5))
  | _ => .error (.illegal n 1)

/-- Major 0x54 (Tables 5.1 to 5.3). -/
def decodeTask (n : Nat) (w : W32) : Except DecFail Instr :=
  match (w.extractLsb' 1 8).toNat with
  | 0x00 => chk n (fieldBits w 19 5 ||| fieldBits w 9 5 ||| fieldBits w 0 1) (.tkdec (w.extractLsb' 14 5))
  | 0x01 => chk n (fieldBits w 19 5 ||| fieldBits w 0 1) (.tkset (w.extractLsb' 14 5) (w.extractLsb' 9 5))
  | _ => .error (.illegal n 1)

/-- Major 0x55 (Tables 5.1 to 5.3). -/
def decodeEr (n : Nat) (w : W32) : Except DecFail Instr :=
  match (w.extractLsb' 1 8).toNat with
  | 0x00 => chk n (fieldBits w 19 5 ||| fieldBits w 9 5 ||| fieldBits w 0 1) (.erflip (w.extractLsb' 14 5))
  | 0x01 => chk n (fieldBits w 19 5 ||| fieldBits w 9 5 ||| fieldBits w 0 1) (.erpass (w.extractLsb' 14 5))
  | 0x02 => chk n (fieldBits w 0 1) (.erori (w.extractLsb' 19 5) (w.extractLsb' 14 5) (w.extractLsb' 9 5))
  | _ => .error (.illegal n 1)

/-- Major 0x58 (Tables 5.1 to 5.3). -/
def decodeRng (n : Nat) (w : W32) : Except DecFail Instr :=
  match (w.extractLsb' 1 8).toNat with
  | 0x00 => chk n (fieldBits w 14 5 ||| fieldBits w 9 5 ||| fieldBits w 0 1) (.rnd (w.extractLsb' 19 5))
  | 0x01 => chk n (fieldBits w 19 5 ||| fieldBits w 9 5 ||| fieldBits w 0 1) (.rngseed (w.extractLsb' 14 5))
  | _ => .error (.illegal n 1)

/-- Major 0x59 (Tables 5.1 to 5.3). -/
def decodeFlg (n : Nat) (w : W32) : Except DecFail Instr :=
  match (w.extractLsb' 1 8).toNat with
  | 0x00 => chk n (fieldBits w 14 5 ||| fieldBits w 9 5 ||| fieldBits w 0 1) (.flget (w.extractLsb' 19 5))
  | 0x01 => chk n (fieldBits w 19 5 ||| fieldBits w 9 5 ||| fieldBits w 0 1) (.flclr (w.extractLsb' 14 5))
  | 0x02 => chk n (fieldBits w 14 5 ||| fieldBits w 9 5 ||| fieldBits w 0 1) (.fltree (w.extractLsb' 19 5))
  | _ => .error (.illegal n 1)

/-- Major 0x5A (Tables 5.1 to 5.3). -/
def decodeEng (n : Nat) (w : W32) : Except DecFail Instr :=
  match (w.extractLsb' 1 8).toNat with
  | 0x00 => chk n (fieldBits w 9 5 ||| fieldBits w 0 1) (.engst (w.extractLsb' 19 5) (w.extractLsb' 14 5))
  | 0x01 => chk n (fieldBits w 9 5 ||| fieldBits w 0 1) (.engcancel (w.extractLsb' 19 5) (w.extractLsb' 14 5))
  | _ => .error (.illegal n 1)

/-- Major 0x5B (Tables 5.1 to 5.3). -/
def decodeCapo (n : Nat) (w : W32) : Except DecFail Instr :=
  match (w.extractLsb' 1 8).toNat with
  | 0x00 => chk n (fieldBits w 14 5 ||| fieldBits w 9 5 ||| fieldBits w 0 1) (.mxlease (w.extractLsb' 19 5))
  | 0x01 => chk n (fieldBits w 19 5 ||| fieldBits w 14 5 ||| fieldBits w 9 5 ||| fieldBits w 0 1) (.mxrel)
  | _ => .error (.illegal n 1)

/-- Major 0x5C (Tables 5.1 to 5.3). -/
def decodeTlb (n : Nat) (w : W32) : Except DecFail Instr :=
  match (w.extractLsb' 1 8).toNat with
  | 0x00 => chk n (fieldBits w 19 5 ||| fieldBits w 0 1) (.tlbinv (w.extractLsb' 14 5) (w.extractLsb' 9 5))
  | 0x01 => chk n (fieldBits w 19 5 ||| fieldBits w 9 5 ||| fieldBits w 0 1) (.tlbinvall (w.extractLsb' 14 5))
  | _ => .error (.illegal n 1)

/-- A 32-bit instruction word with `n` words before it in its group: its function code is judged, then its unused and
reserved fields (Table 4.8, steps 5, 7 and 8). -/
def decode32 (n : Nat) (w : W32) : Except DecFail Instr :=
  match (w.extractLsb' 24 8).toNat with
  | 0x00 => decodeInt n w
  | 0x01 => .ok (.addi (w.extractLsb' 19 5) (w.extractLsb' 14 5) (w.extractLsb' 1 13) (w.getLsbD 0))
  | 0x02 => .ok (.andi (w.extractLsb' 19 5) (w.extractLsb' 14 5) (w.extractLsb' 1 13) (w.getLsbD 0))
  | 0x03 => .ok (.ori (w.extractLsb' 19 5) (w.extractLsb' 14 5) (w.extractLsb' 1 13) (w.getLsbD 0))
  | 0x04 => .ok (.xori (w.extractLsb' 19 5) (w.extractLsb' 14 5) (w.extractLsb' 1 13) (w.getLsbD 0))
  | 0x05 => chk n (fieldBits w 7 7) (.shli (w.extractLsb' 19 5) (w.extractLsb' 14 5) (w.extractLsb' 1 13) (w.getLsbD 0))
  | 0x06 => chk n (fieldBits w 7 7) (.shri (w.extractLsb' 19 5) (w.extractLsb' 14 5) (w.extractLsb' 1 13) (w.getLsbD 0))
  | 0x07 => chk n (fieldBits w 7 7) (.sari (w.extractLsb' 19 5) (w.extractLsb' 14 5) (w.extractLsb' 1 13) (w.getLsbD 0))
  | 0x08 => .ok (.muli (w.extractLsb' 19 5) (w.extractLsb' 14 5) (w.extractLsb' 1 13) (w.getLsbD 0))
  | 0x09 => .ok (.slti (w.extractLsb' 19 5) (w.extractLsb' 14 5) (w.extractLsb' 1 13) (w.getLsbD 0))
  | 0x0A => .ok (.sltiu (w.extractLsb' 19 5) (w.extractLsb' 14 5) (w.extractLsb' 1 13) (w.getLsbD 0))
  | 0x0B => .ok (.li (w.extractLsb' 19 5) (w.extractLsb' 0 19))
  | 0x0C => .ok (.lis (w.extractLsb' 19 5) (w.extractLsb' 0 19))
  | 0x0D => decodeCmp n w
  | 0x0E => decodeCmpi n w
  | 0x0F => chk n (fieldBits w 7 2 ||| fieldBits w 0 1) (.sel (w.extractLsb' 19 5) (w.extractLsb' 14 5) (w.extractLsb' 9 5) (w.getLsbD 6) (w.extractLsb' 1 5))
  | 0x10 => decodeKop n w
  | 0x11 => decodeSrop n w
  | 0x14 => decodeFp n w
  | 0x15 => decodeFma n w
  | 0x16 => decodeFcmp n w
  | 0x17 => if 13 ≤ (w.extractLsb' 5 4).toNat ∨ 13 ≤ (w.extractLsb' 1 4).toNat then .error (.illegal n 1) else
      chk n (fieldBits w 9 5) (.fcvt (w.extractLsb' 19 5) (w.extractLsb' 14 5) (w.extractLsb' 5 4) (w.extractLsb' 1 4) (w.getLsbD 0))
  | 0x20 => .ok (.ldb (w.extractLsb' 19 5) (w.extractLsb' 14 5) (w.extractLsb' 11 3) (w.extractLsb' 1 10) (w.getLsbD 0))
  | 0x21 => .ok (.ldbu (w.extractLsb' 19 5) (w.extractLsb' 14 5) (w.extractLsb' 11 3) (w.extractLsb' 1 10) (w.getLsbD 0))
  | 0x22 => .ok (.ldh (w.extractLsb' 19 5) (w.extractLsb' 14 5) (w.extractLsb' 11 3) (w.extractLsb' 1 10) (w.getLsbD 0))
  | 0x23 => .ok (.ldhu (w.extractLsb' 19 5) (w.extractLsb' 14 5) (w.extractLsb' 11 3) (w.extractLsb' 1 10) (w.getLsbD 0))
  | 0x24 => .ok (.ldw (w.extractLsb' 19 5) (w.extractLsb' 14 5) (w.extractLsb' 11 3) (w.extractLsb' 1 10) (w.getLsbD 0))
  | 0x25 => .ok (.ldwu (w.extractLsb' 19 5) (w.extractLsb' 14 5) (w.extractLsb' 11 3) (w.extractLsb' 1 10) (w.getLsbD 0))
  | 0x26 => .ok (.ldd (w.extractLsb' 19 5) (w.extractLsb' 14 5) (w.extractLsb' 11 3) (w.extractLsb' 1 10) (w.getLsbD 0))
  | 0x27 => .ok (.stb (w.extractLsb' 19 5) (w.extractLsb' 14 5) (w.extractLsb' 11 3) (w.extractLsb' 1 10) (w.getLsbD 0))
  | 0x28 => .ok (.sth (w.extractLsb' 19 5) (w.extractLsb' 14 5) (w.extractLsb' 11 3) (w.extractLsb' 1 10) (w.getLsbD 0))
  | 0x29 => .ok (.stw (w.extractLsb' 19 5) (w.extractLsb' 14 5) (w.extractLsb' 11 3) (w.extractLsb' 1 10) (w.getLsbD 0))
  | 0x2A => .ok (.std (w.extractLsb' 19 5) (w.extractLsb' 14 5) (w.extractLsb' 11 3) (w.extractLsb' 1 10) (w.getLsbD 0))
  | 0x2B => chk n (fieldBits w 0 1) (.ldfk (w.extractLsb' 19 5) (w.extractLsb' 14 5) (w.extractLsb' 11 3) (w.extractLsb' 1 10))
  | 0x2C => chk n (fieldBits w 0 1) (.ldfc (w.extractLsb' 19 5) (w.extractLsb' 14 5) (w.extractLsb' 11 3) (w.extractLsb' 1 10))
  | 0x2D => chk n (fieldBits w 0 1) (.stfe (w.extractLsb' 19 5) (w.extractLsb' 14 5) (w.extractLsb' 11 3) (w.extractLsb' 1 10))
  | 0x2E => chk n (fieldBits w 0 1) (.stfs (w.extractLsb' 19 5) (w.extractLsb' 14 5) (w.extractLsb' 11 3) (w.extractLsb' 1 10))
  | 0x2F => decodeFetag n w
  | 0x30 => chk n (fieldBits w 0 1) (.lea (w.extractLsb' 19 5) (w.extractLsb' 14 5) (w.extractLsb' 11 3) (w.extractLsb' 1 10))
  | 0x31 => decodeSegop n w
  | 0x34 => decodeAmo n w
  | 0x35 => chk n (fieldBits w 1 5) (.cas (w.extractLsb' 19 5) (w.extractLsb' 14 5) (w.extractLsb' 9 5) (w.extractLsb' 6 3) (w.getLsbD 0))
  | 0x36 => decodeRed n w
  | 0x37 => decodeMigop n w
  | 0x40 => .ok (.beq (w.extractLsb' 19 5) (w.extractLsb' 14 5) (w.extractLsb' 0 14))
  | 0x41 => .ok (.bne (w.extractLsb' 19 5) (w.extractLsb' 14 5) (w.extractLsb' 0 14))
  | 0x42 => .ok (.blt (w.extractLsb' 19 5) (w.extractLsb' 14 5) (w.extractLsb' 0 14))
  | 0x43 => .ok (.bge (w.extractLsb' 19 5) (w.extractLsb' 14 5) (w.extractLsb' 0 14))
  | 0x44 => .ok (.bltu (w.extractLsb' 19 5) (w.extractLsb' 14 5) (w.extractLsb' 0 14))
  | 0x45 => .ok (.bgeu (w.extractLsb' 19 5) (w.extractLsb' 14 5) (w.extractLsb' 0 14))
  | 0x46 => .ok (.bk (w.extractLsb' 19 5) (w.extractLsb' 0 19))
  | 0x47 => .ok (.bkn (w.extractLsb' 19 5) (w.extractLsb' 0 19))
  | 0x48 => .ok (.j (w.extractLsb' 0 24))
  | 0x49 => .ok (.call (w.extractLsb' 0 24))
  | 0x4A => decodeJump n w
  | 0x4B => chk n (fieldBits w 1 8 ||| fieldBits w 0 1) (.rep (w.extractLsb' 20 4) (w.extractLsb' 18 2) (w.extractLsb' 16 2) (w.extractLsb' 14 2) (w.extractLsb' 9 5))
  | 0x4C => chk n (fieldBits w 19 5 ||| fieldBits w 1 2 ||| fieldBits w 0 1) (.trap (w.extractLsb' 3 16))
  | 0x4D => decodeSys n w
  | 0x50 => decodeMsg n w
  | 0x51 => decodeBar n w
  | 0x52 => decodeFence n w
  | 0x53 => decodeCtx n w
  | 0x54 => decodeTask n w
  | 0x55 => decodeEr n w
  | 0x56 => if w.extractLsb' 1 8 = 0 then chk n (fieldBits w 0 1) (.bowstart (w.extractLsb' 19 5) (w.extractLsb' 14 5) (w.extractLsb' 9 5)) else .error (.illegal n 1)
  | 0x57 => if w.extractLsb' 1 8 = 0 then chk n (fieldBits w 19 5 ||| fieldBits w 9 5 ||| fieldBits w 0 1) (.mutesend (w.extractLsb' 14 5)) else .error (.illegal n 1)
  | 0x58 => decodeRng n w
  | 0x59 => decodeFlg n w
  | 0x5A => decodeEng n w
  | 0x5B => decodeCapo n w
  | 0x5C => decodeTlb n w
  | 0x5D => if w.extractLsb' 1 8 = 0 then chk n (fieldBits w 19 5 ||| fieldBits w 14 5 ||| fieldBits w 9 5 ||| fieldBits w 0 1) (.dlgret) else .error (.illegal n 1)
  | _ => .error (.illegal n 0)

/-! ## 64-bit instructions -/

/-- The fields of layout T64 (Table 4.4). -/
def t64Of (w0 w1 : W32) : T64 :=
  ⟨w0.extractLsb' 19 5, w0.extractLsb' 14 5, w0.extractLsb' 9 5, w0.extractLsb' 1 8, w0.getLsbD 0, w1⟩

/-- A T64 instruction whose first word must have zeros at the bits `m0`, and its second at `m1` (R88). Word index 3 names
the second word (R105). [DESIGN CHOICE: log 100] -/
def chk64 (n : Nat) (w0 w1 m0 m1 : W32) (i : Instr) : Except DecFail Instr :=
  if w0 &&& m0 ≠ 0 then .error (.reserved n (w0 &&& m0))
  else if w1 &&& m1 ≠ 0 then .error (.reserved 3 (w1 &&& m1))
  else .ok i

/-- The bits of the second word of an engine command that must be zero: those of `spec` in `m`, and `fe` where it is not a value that the command
allows (R91, Tables 9.8, 10.3, 10.8). A handle that the command does not allow is a check of its issue (R242). [DEDUCED: log 90] -/
def engMask (w1 m : W32) (fe0 : Bool) : W32 :=
  m ||| (if fe0 || w1.extractLsb' 21 2 == 3 then 0x00600000 else 0)

/-- The bit of the field `b` of a T64 word, as masks. -/
def mD : W32 := 0x00F80000
/-- Mask of the field a. -/
def mA : W32 := 0x0007C000
/-- Mask of the field b. -/
def mB : W32 := 0x00003E00
/-- Mask of bits of the field f. -/
def mF (m : BitVec 8) : W32 := m.setWidth 32 <<< 1

/-- A 64-bit instruction on a core of a layer, with `n` words before it in its group. [DESIGN CHOICE: log 98] -/
def decode64 (layer n : Nat) (w0 w1 : W32) : Except DecFail Instr :=
  let t := t64Of w0 w1
  let m := (w0.extractLsb' 24 6).toNat
  if layer != 0 && baseOnly m then .error (.illegal n 0) else
  match m with
  | 0x00 => .ok (.lix t.d (w0.extractLsb' 0 19 ++ w1))
  | 0x01 => chk n (fieldBits w0 19 5) (.calll (w0.extractLsb' 0 19 ++ w1))
  | 0x02 => chk64 n w0 w1 (1 ||| mD ||| mB ||| mF 0xF8) 3 (.dlg t)
  | 0x03 => chk64 n w0 w1 (1 ||| mB ||| mF 0xF8) 0xFFFF00FE (.lnch t)
  | 0x04 => chk64 n w0 w1 (1 ||| mF 0xFF) (engMask w1 0xE0000 true) (.put t)
  | 0x05 => chk64 n w0 w1 (1 ||| mB ||| mF 0xF8) 0xFFFFFFFF (.putarm t)
  | 0x06 => chk64 n w0 w1 (1 ||| mF 0xF8) 0xFFFFFFFF (.cntw t)
  | 0x08 => chk64 n w0 w1 (mF 0x80 ||| (if w0.getLsbD 7 then mB else 0)) (engMask w1 0xFFFFF false) (.fold t)
  | 0x09 => chk64 n w0 w1 (mF 0x80 ||| (if w0.getLsbD 7 then mB else 0)) (engMask w1 0xFFFFF false) (.scan t)
  | 0x0A => chk64 n w0 w1 (mF 0xC0) (engMask w1 0xFFFFF false) (.zip t)
  | 0x0B => chk64 n w0 w1 (mF 0xE0) (engMask w1 0xFFFFF false) (.outer t)
  | 0x0C => chk64 n w0 w1 (mB ||| mF 0xC0) (engMask w1 0xFFFFF false) (.tcopy t)
  | 0x0D => chk64 n w0 w1 (mB ||| mF 0xC0) (engMask w1 0x1FFFFF false) (.tfill t)
  | 0x0E => chk64 n w0 w1 (1 ||| mB ||| mF 0xFF) (engMask w1 0xFFFFF false) (.txp t)
  | 0x0F => chk64 n w0 w1 (1 ||| mF 0xF8) (engMask w1 0x1FFFFF false) (.gld t)
  | 0x10 => chk64 n w0 w1 (1 ||| mF 0xF8) (engMask w1 0xFFFFF true) (.gst t)
  | 0x11 => chk64 n w0 w1 (1 ||| mD ||| mF 0xFF) (engMask w1 0xFFFFE true) (.mxldst t)
  | 0x12 => chk64 n w0 w1 (1 ||| mD ||| mA ||| mB ||| mF 0xFF) (engMask w1 0x1FFFFF true) (.mxswap t)
  | 0x13 => chk64 n w0 w1 (1 ||| mD ||| mB ||| mF 0xFF) (engMask w1 0xFFF80 true) (.mxstrm t)
  | 0x14 => chk64 n w0 w1 (mA ||| mF 0x80) (engMask w1 0xF8000 false) (.mxdrain t)
  | 0x15 => chk64 n w0 w1 (mB ||| mF 0xDF) (engMask w1 0xF0000 false) (.rstr t)
  | 0x16 => chk64 n w0 w1 (mB ||| mF 0xFF) (engMask w1 0xE0000 false) (.prol t)
  | 0x17 => chk64 n w0 w1 (1 ||| mD ||| mB ||| mF 0xFF) (engMask w1 0xFFFF8 true) (.wld t)
  | 0x18 =>
    if w0.getLsbD 1 then chk64 n w0 w1 (1 ||| mD ||| mB ||| mF 0xFE) 0xFFFFFFFF (.lvsetReg t)
    else chk64 n w0 w1 (1 ||| mD ||| mA ||| mB ||| mF 0xFE) 0 (.lvsetImm t)
  | 0x19 => chk64 n w0 w1 (1 ||| mD ||| mB ||| mF 0xFF) 0xFFFFFFFF (.erarm t)
  | 0x1A => chk64 n w0 w1 (1 ||| mD ||| mF 0xF8) 0xFFFFFFFF (.rtndef t)
  | _ => .error (.illegal n 0)

/-- The instruction that begins with the word `w0` on a core of a layer; `w1` is the word after it, which only a 64-bit
instruction uses, and `n` counts the prefix words before it. A prefix word begins no instruction. -/
def decode (layer n : Nat) (w0 w1 : W32) : Except DecFail Instr :=
  if isWide w0 then decode64 layer n w0 w1
  else if isPfx w0 then .error (.illegal n 0)
  else decode32 n w0

/-! ## Encoding -/

/-- A one-word encoding. -/
def one (w : W32) : List W32 := [w]

/-- Format RR (Table 4.2). -/
def fmtRR (m : BitVec 8) (d a b : BitVec 5) (f : BitVec 8) (x : Bool) : W32 := m ++ d ++ a ++ b ++ f ++ BitVec.ofBool x
/-- Format RI (Table 4.2). -/
def fmtRI (m : BitVec 8) (d a : BitVec 5) (imm : BitVec 13) (x : Bool) : W32 := m ++ d ++ a ++ imm ++ BitVec.ofBool x
/-- Format LI (Table 4.2). -/
def fmtLI (m : BitVec 8) (d : BitVec 5) (imm : BitVec 19) : W32 := m ++ d ++ imm
/-- Format CI (Table 4.2). -/
def fmtCI (m : BitVec 8) (k a : BitVec 5) (cond : BitVec 3) (imm : BitVec 10) (x : Bool) : W32 :=
  m ++ k ++ a ++ cond ++ imm ++ BitVec.ofBool x
/-- Format F4 (Table 4.2). -/
def fmtF4 (m : BitVec 8) (d a b c : BitVec 5) (op : BitVec 3) (x : Bool) : W32 :=
  m ++ d ++ a ++ b ++ c ++ op ++ BitVec.ofBool x
/-- Format MEM (Table 4.2). -/
def fmtMEM (m : BitVec 8) (d a : BitVec 5) (seg : BitVec 3) (off : BitVec 10) (x : Bool) : W32 :=
  m ++ d ++ a ++ seg ++ off ++ BitVec.ofBool x
/-- Format AMO (Table 4.2). -/
def fmtAMO (m : BitVec 8) (d a b : BitVec 5) (seg : BitVec 3) (op : BitVec 5) (x : Bool) : W32 :=
  m ++ d ++ a ++ b ++ seg ++ op ++ BitVec.ofBool x
/-- Format SR (Table 4.2). -/
def fmtSR (m : BitVec 8) (d : BitVec 5) (sr : BitVec 10) (op : BitVec 8) (x : Bool) : W32 :=
  m ++ d ++ sr ++ op ++ BitVec.ofBool x
/-- Format BR (Table 4.2). -/
def fmtBR (m : BitVec 8) (a b : BitVec 5) (disp : BitVec 14) : W32 := m ++ a ++ b ++ disp
/-- Format BK (Table 4.2). -/
def fmtBK (m : BitVec 8) (k : BitVec 5) (disp : BitVec 19) : W32 := m ++ k ++ disp
/-- Format J (Table 4.2). -/
def fmtJ (m : BitVec 8) (disp : BitVec 24) : W32 := m ++ disp
/-- Format REP (Table 4.2). -/
def fmtREP (m : BitVec 8) (n : BitVec 4) (sd sa sb : BitVec 2) (c : BitVec 5) : W32 :=
  m ++ n ++ sd ++ sa ++ sb ++ c ++ 0#9
/-- The layout of `trap` (Table 4.3). -/
def fmtTrap (imm : BitVec 16) : W32 := 0x4C#8 ++ 0#5 ++ imm ++ 0#3
/-- f as W, or the precision, and a seven-bit function. -/
def fW (w : Bool) (c : BitVec 7) : BitVec 8 := BitVec.ofBool w ++ c
/-- f of `cmp` (Table 4.3). -/
def fCmp (w : Bool) (comb : BitVec 2) (cond : BitVec 3) : BitVec 8 := BitVec.ofBool w ++ 0#2 ++ comb ++ cond
/-- f of `sel` (Table 4.3). -/
def fSel (inv : Bool) (kb : BitVec 5) : BitVec 8 := 0#2 ++ BitVec.ofBool inv ++ kb
/-- f of `fcvt` (Table 5.1). -/
def fCvt (src dst : BitVec 4) : BitVec 8 := src ++ dst
/-- f of BAR and `fence` (Table 4.3). -/
def fScope (scope : BitVec 3) (fn : BitVec 4) : BitVec 8 := 0#1 ++ scope ++ fn
/-- op of FMA: the precision and the function (Table 5.1). -/
def opP (p : Bool) (c : BitVec 2) : BitVec 3 := BitVec.ofBool p ++ c
/-- The low bits of `fetag` (Table 4.3). -/
def offTag (op : BitVec 2) (off : BitVec 8) : BitVec 10 := op ++ off
/-- The first word of layout T64 (Table 4.4). -/
def fmtT64 (m : BitVec 8) (d a b : BitVec 5) (f : BitVec 8) (x : Bool) : W32 := fmtRR m d a b f x
/-- The first word of layout I64 (R92). -/
def fmtI64 (m : BitVec 8) (d : BitVec 5) (hi : BitVec 19) : W32 := m ++ d ++ hi

/-- A two-word encoding of layout T64 (Table 4.4). -/
def two (m : BitVec 8) (t : T64) : List W32 :=
  [fmtT64 m t.d t.a t.b t.f t.x, t.w1]

/-- The words of an instruction (R87, R90, R92, Tables 4.2 to 4.4, 5.1, 5.2, 5.4). An event has none. [DESIGN CHOICE: log 14] -/
def encode : Instr → List W32
  | .add d a b w x => one (fmtRR 0x00 d a b (fW w 0) x)
  | .sub d a b w x => one (fmtRR 0x00 d a b (fW w 1) x)
  | .and d a b w x => one (fmtRR 0x00 d a b (fW w 2) x)
  | .or d a b w x => one (fmtRR 0x00 d a b (fW w 3) x)
  | .xor d a b w x => one (fmtRR 0x00 d a b (fW w 4) x)
  | .andn d a b w x => one (fmtRR 0x00 d a b (fW w 5) x)
  | .shl d a b w x => one (fmtRR 0x00 d a b (fW w 6) x)
  | .shr d a b w x => one (fmtRR 0x00 d a b (fW w 7) x)
  | .sar d a b w x => one (fmtRR 0x00 d a b (fW w 8) x)
  | .rol d a b w x => one (fmtRR 0x00 d a b (fW w 9) x)
  | .mul d a b w x => one (fmtRR 0x00 d a b (fW w 10) x)
  | .mulh d a b w x => one (fmtRR 0x00 d a b (fW w 11) x)
  | .mulhu d a b w x => one (fmtRR 0x00 d a b (fW w 12) x)
  | .div d a b w x => one (fmtRR 0x00 d a b (fW w 13) x)
  | .divu d a b w x => one (fmtRR 0x00 d a b (fW w 14) x)
  | .rem d a b w x => one (fmtRR 0x00 d a b (fW w 15) x)
  | .remu d a b w x => one (fmtRR 0x00 d a b (fW w 16) x)
  | .min d a b w x => one (fmtRR 0x00 d a b (fW w 17) x)
  | .max d a b w x => one (fmtRR 0x00 d a b (fW w 18) x)
  | .minu d a b w x => one (fmtRR 0x00 d a b (fW w 19) x)
  | .maxu d a b w x => one (fmtRR 0x00 d a b (fW w 20) x)
  | .slt d a b w x => one (fmtRR 0x00 d a b (fW w 21) x)
  | .sltu d a b w x => one (fmtRR 0x00 d a b (fW w 22) x)
  | .clmul d a b x => one (fmtRR 0x00 d a b (fW false 23) x)
  | .clmulh d a b x => one (fmtRR 0x00 d a b (fW false 24) x)
  | .clz d a w x => one (fmtRR 0x00 d a 0 (fW w 32) x)
  | .ctz d a w x => one (fmtRR 0x00 d a 0 (fW w 33) x)
  | .popc d a w x => one (fmtRR 0x00 d a 0 (fW w 34) x)
  | .brev d a w x => one (fmtRR 0x00 d a 0 (fW w 35) x)
  | .bswap d a w x => one (fmtRR 0x00 d a 0 (fW w 36) x)
  | .sxb d a w x => one (fmtRR 0x00 d a 0 (fW w 37) x)
  | .sxh d a w x => one (fmtRR 0x00 d a 0 (fW w 38) x)
  | .sxw d a x => one (fmtRR 0x00 d a 0 (fW false 39) x)
  | .zxb d a w x => one (fmtRR 0x00 d a 0 (fW w 40) x)
  | .zxh d a w x => one (fmtRR 0x00 d a 0 (fW w 41) x)
  | .zxw d a x => one (fmtRR 0x00 d a 0 (fW false 42) x)
  | .abs d a w x => one (fmtRR 0x00 d a 0 (fW w 43) x)
  | .neg d a w x => one (fmtRR 0x00 d a 0 (fW w 44) x)
  | .addi d a imm x => one (fmtRI 0x01 d a imm x)
  | .andi d a imm x => one (fmtRI 0x02 d a imm x)
  | .ori d a imm x => one (fmtRI 0x03 d a imm x)
  | .xori d a imm x => one (fmtRI 0x04 d a imm x)
  | .shli d a imm x => one (fmtRI 0x05 d a imm x)
  | .shri d a imm x => one (fmtRI 0x06 d a imm x)
  | .sari d a imm x => one (fmtRI 0x07 d a imm x)
  | .muli d a imm x => one (fmtRI 0x08 d a imm x)
  | .slti d a imm x => one (fmtRI 0x09 d a imm x)
  | .sltiu d a imm x => one (fmtRI 0x0A d a imm x)
  | .li d imm => one (fmtLI 0x0B d imm)
  | .lis d imm => one (fmtLI 0x0C d imm)
  | .cmpEq k a b w comb => one (fmtRR 0x0D k a b (fCmp w comb 0) false)
  | .cmpNe k a b w comb => one (fmtRR 0x0D k a b (fCmp w comb 1) false)
  | .cmpLt k a b w comb => one (fmtRR 0x0D k a b (fCmp w comb 2) false)
  | .cmpGe k a b w comb => one (fmtRR 0x0D k a b (fCmp w comb 3) false)
  | .cmpLtu k a b w comb => one (fmtRR 0x0D k a b (fCmp w comb 4) false)
  | .cmpGeu k a b w comb => one (fmtRR 0x0D k a b (fCmp w comb 5) false)
  | .cmpiEq k a imm => one (fmtCI 0x0E k a 0 imm false)
  | .cmpiNe k a imm => one (fmtCI 0x0E k a 1 imm false)
  | .cmpiLt k a imm => one (fmtCI 0x0E k a 2 imm false)
  | .cmpiGe k a imm => one (fmtCI 0x0E k a 3 imm false)
  | .cmpiLtu k a imm => one (fmtCI 0x0E k a 4 imm false)
  | .cmpiGeu k a imm => one (fmtCI 0x0E k a 5 imm false)
  | .sel d a b inv kb => one (fmtRR 0x0F d a b (fSel inv kb) false)
  | .kget d => one (fmtRR 0x10 d 0 0 0 false)
  | .kset a => one (fmtRR 0x10 0 a 0 1 false)
  | .kand d a b => one (fmtRR 0x10 d a b 2 false)
  | .kor d a b => one (fmtRR 0x10 d a b 3 false)
  | .kxor d a b => one (fmtRR 0x10 d a b 4 false)
  | .knot d a => one (fmtRR 0x10 d a 0 5 false)
  | .srg d sr => one (fmtSR 0x11 d sr 0 false)
  | .srs d sr => one (fmtSR 0x11 d sr 1 false)
  | .srx d sr => one (fmtSR 0x11 d sr 2 false)
  | .fadd d a b dbl x => one (fmtRR 0x14 d a b (fW dbl 0) x)
  | .fsub d a b dbl x => one (fmtRR 0x14 d a b (fW dbl 1) x)
  | .fmul d a b dbl x => one (fmtRR 0x14 d a b (fW dbl 2) x)
  | .fdiv d a b dbl x => one (fmtRR 0x14 d a b (fW dbl 3) x)
  | .fsqrt d a dbl x => one (fmtRR 0x14 d a 0 (fW dbl 4) x)
  | .fmin d a b dbl x => one (fmtRR 0x14 d a b (fW dbl 5) x)
  | .fmax d a b dbl x => one (fmtRR 0x14 d a b (fW dbl 6) x)
  | .fabs d a dbl x => one (fmtRR 0x14 d a 0 (fW dbl 7) x)
  | .fneg d a dbl x => one (fmtRR 0x14 d a 0 (fW dbl 8) x)
  | .fsgnj d a b dbl x => one (fmtRR 0x14 d a b (fW dbl 9) x)
  | .fclass d a dbl x => one (fmtRR 0x14 d a 0 (fW dbl 10) x)
  | .frcpa d a dbl x => one (fmtRR 0x14 d a 0 (fW dbl 11) x)
  | .frsqa d a dbl x => one (fmtRR 0x14 d a 0 (fW dbl 12) x)
  | .fexp2a d a dbl x => one (fmtRR 0x14 d a 0 (fW dbl 13) x)
  | .flog2a d a dbl x => one (fmtRR 0x14 d a 0 (fW dbl 14) x)
  | .fma d a b c dbl x => one (fmtF4 0x15 d a b c (opP dbl 0) x)
  | .fms d a b c dbl x => one (fmtF4 0x15 d a b c (opP dbl 1) x)
  | .fnma d a b c dbl x => one (fmtF4 0x15 d a b c (opP dbl 2) x)
  | .fnms d a b c dbl x => one (fmtF4 0x15 d a b c (opP dbl 3) x)
  | .fcmpEq k a b dbl x => one (fmtRR 0x16 k a b (fW dbl 0) x)
  | .fcmpLt k a b dbl x => one (fmtRR 0x16 k a b (fW dbl 1) x)
  | .fcmpLe k a b dbl x => one (fmtRR 0x16 k a b (fW dbl 2) x)
  | .fcmpUn k a b dbl x => one (fmtRR 0x16 k a b (fW dbl 3) x)
  | .fcmpEqs k a b dbl x => one (fmtRR 0x16 k a b (fW dbl 4) x)
  | .fcvt d a src dst x => one (fmtRR 0x17 d a 0 (fCvt src dst) x)
  | .ldb d a seg off x => one (fmtMEM 0x20 d a seg off x)
  | .ldbu d a seg off x => one (fmtMEM 0x21 d a seg off x)
  | .ldh d a seg off x => one (fmtMEM 0x22 d a seg off x)
  | .ldhu d a seg off x => one (fmtMEM 0x23 d a seg off x)
  | .ldw d a seg off x => one (fmtMEM 0x24 d a seg off x)
  | .ldwu d a seg off x => one (fmtMEM 0x25 d a seg off x)
  | .ldd d a seg off x => one (fmtMEM 0x26 d a seg off x)
  | .stb d a seg off x => one (fmtMEM 0x27 d a seg off x)
  | .sth d a seg off x => one (fmtMEM 0x28 d a seg off x)
  | .stw d a seg off x => one (fmtMEM 0x29 d a seg off x)
  | .std d a seg off x => one (fmtMEM 0x2A d a seg off x)
  | .ldfk d a seg off => one (fmtMEM 0x2B d a seg off false)
  | .ldfc d a seg off => one (fmtMEM 0x2C d a seg off false)
  | .stfe d a seg off => one (fmtMEM 0x2D d a seg off false)
  | .stfs d a seg off => one (fmtMEM 0x2E d a seg off false)
  | .feset a seg off => one (fmtMEM 0x2F 0 a seg (offTag 0 off) false)
  | .feclr a seg off => one (fmtMEM 0x2F 0 a seg (offTag 1 off) false)
  | .feget d a seg off => one (fmtMEM 0x2F d a seg (offTag 2 off) false)
  | .lea d a seg off => one (fmtMEM 0x30 d a seg off false)
  | .segld d a => one (fmtRR 0x31 d a 0 0 false)
  | .segget d a b => one (fmtRR 0x31 d a b 1 false)
  | .segchk d a b => one (fmtRR 0x31 d a b 2 false)
  | .amoSwap d a b seg x => one (fmtAMO 0x34 d a b seg 0 x)
  | .amoAdd d a b seg x => one (fmtAMO 0x34 d a b seg 1 x)
  | .amoAnd d a b seg x => one (fmtAMO 0x34 d a b seg 2 x)
  | .amoOr d a b seg x => one (fmtAMO 0x34 d a b seg 3 x)
  | .amoXor d a b seg x => one (fmtAMO 0x34 d a b seg 4 x)
  | .amoMin d a b seg x => one (fmtAMO 0x34 d a b seg 5 x)
  | .amoMax d a b seg x => one (fmtAMO 0x34 d a b seg 6 x)
  | .amoMinu d a b seg x => one (fmtAMO 0x34 d a b seg 7 x)
  | .amoMaxu d a b seg x => one (fmtAMO 0x34 d a b seg 8 x)
  | .amoFaddS d a b seg x => one (fmtAMO 0x34 d a b seg 9 x)
  | .amoFaddD d a b seg x => one (fmtAMO 0x34 d a b seg 10 x)
  | .amoFminS d a b seg x => one (fmtAMO 0x34 d a b seg 11 x)
  | .amoFmaxS d a b seg x => one (fmtAMO 0x34 d a b seg 12 x)
  | .cas d a b seg x => one (fmtAMO 0x35 d a b seg 0 x)
  | .redSwap a b seg x => one (fmtAMO 0x36 0 a b seg 0 x)
  | .redAdd a b seg x => one (fmtAMO 0x36 0 a b seg 1 x)
  | .redAnd a b seg x => one (fmtAMO 0x36 0 a b seg 2 x)
  | .redOr a b seg x => one (fmtAMO 0x36 0 a b seg 3 x)
  | .redXor a b seg x => one (fmtAMO 0x36 0 a b seg 4 x)
  | .redMin a b seg x => one (fmtAMO 0x36 0 a b seg 5 x)
  | .redMax a b seg x => one (fmtAMO 0x36 0 a b seg 6 x)
  | .redMinu a b seg x => one (fmtAMO 0x36 0 a b seg 7 x)
  | .redMaxu a b seg x => one (fmtAMO 0x36 0 a b seg 8 x)
  | .redFaddS a b seg x => one (fmtAMO 0x36 0 a b seg 9 x)
  | .redFaddD a b seg x => one (fmtAMO 0x36 0 a b seg 10 x)
  | .redFminS a b seg x => one (fmtAMO 0x36 0 a b seg 11 x)
  | .redFmaxS a b seg x => one (fmtAMO 0x36 0 a b seg 12 x)
  | .mig a b => one (fmtRR 0x37 0 a b 0 false)
  | .home => one (0x37000002#32)
  | .dlgret => one (0x5D000000#32)
  | .beq a b disp => one (fmtBR 0x40 a b disp)
  | .bne a b disp => one (fmtBR 0x41 a b disp)
  | .blt a b disp => one (fmtBR 0x42 a b disp)
  | .bge a b disp => one (fmtBR 0x43 a b disp)
  | .bltu a b disp => one (fmtBR 0x44 a b disp)
  | .bgeu a b disp => one (fmtBR 0x45 a b disp)
  | .bk k disp => one (fmtBK 0x46 k disp)
  | .bkn k disp => one (fmtBK 0x47 k disp)
  | .j disp => one (fmtJ 0x48 disp)
  | .call disp => one (fmtJ 0x49 disp)
  | .jr a => one (fmtRR 0x4A 0 a 0 0 false)
  | .jalr d a => one (fmtRR 0x4A d a 0 1 false)
  | .ret => one (0x4A000004#32)
  | .rep n sd sa sb c => one (fmtREP 0x4B n sd sa sb c)
  | .trap imm => one (fmtTrap imm)
  | .nop => one (0x4D000000#32)
  | .eret a b => one (fmtRR 0x4D 0 a b 1 false)
  | .brk => one (0x4D000004#32)
  | .ifl => one (0x4D000006#32)
  | .halt => one (0x4D000008#32)
  | .recvt d a => one (fmtRR 0x50 d a 0 0 false)
  | .mbcnt d => one (fmtRR 0x50 d 0 0 1 false)
  | .send a b => one (fmtRR 0x50 0 a b 2 false)
  | .barArrive a scope => one (fmtRR 0x51 0 a 0 (fScope scope 0) false)
  | .barInit a b scope => one (fmtRR 0x51 0 a b (fScope scope 1) false)
  | .barLeave a scope => one (fmtRR 0x51 0 a 0 (fScope scope 2) false)
  | .fenceFull scope x => one (fmtRR 0x52 0 0 0 (fScope scope 0) x)
  | .fenceAcq scope x => one (fmtRR 0x52 0 0 0 (fScope scope 1) x)
  | .fenceRel scope x => one (fmtRR 0x52 0 0 0 (fScope scope 2) x)
  | .spawn d a b => one (fmtRR 0x53 d a b 0 false)
  | .reap d a => one (fmtRR 0x53 d a 0 1 false)
  | .exit => one (0x53000004#32)
  | .save d a b => one (fmtRR 0x53 d a b 3 false)
  | .load d a b => one (fmtRR 0x53 d a b 4 false)
  | .tkdec a => one (fmtRR 0x54 0 a 0 0 false)
  | .tkset a b => one (fmtRR 0x54 0 a b 1 false)
  | .erflip a => one (fmtRR 0x55 0 a 0 0 false)
  | .erpass a => one (fmtRR 0x55 0 a 0 1 false)
  | .erori d a b => one (fmtRR 0x55 d a b 2 false)
  | .bowstart d a b => one (fmtRR 0x56 d a b 0 false)
  | .mutesend a => one (fmtRR 0x57 0 a 0 0 false)
  | .rnd d => one (fmtRR 0x58 d 0 0 0 false)
  | .rngseed a => one (fmtRR 0x58 0 a 0 1 false)
  | .flget d => one (fmtRR 0x59 d 0 0 0 false)
  | .flclr a => one (fmtRR 0x59 0 a 0 1 false)
  | .fltree d => one (fmtRR 0x59 d 0 0 2 false)
  | .engst d a => one (fmtRR 0x5A d a 0 0 false)
  | .engcancel d a => one (fmtRR 0x5A d a 0 1 false)
  | .mxlease d => one (fmtRR 0x5B d 0 0 0 false)
  | .mxrel => one (0x5B000002#32)
  | .tlbinv a b => one (fmtRR 0x5C 0 a b 0 false)
  | .tlbinvall a => one (fmtRR 0x5C 0 a 0 1 false)
  | .lix d imm => [fmtI64 0xC0 d (imm.extractLsb' 32 19), imm.extractLsb' 0 32]
  | .calll imm => [fmtI64 0xC1 0 (imm.extractLsb' 32 19), imm.extractLsb' 0 32]
  | .dlg t => two 0xC2 t
  | .lnch t => two 0xC3 t
  | .put t => two 0xC4 t
  | .putarm t => two 0xC5 t
  | .cntw t => two 0xC6 t
  | .fold t => two 0xC8 t
  | .scan t => two 0xC9 t
  | .zip t => two 0xCA t
  | .outer t => two 0xCB t
  | .tcopy t => two 0xCC t
  | .tfill t => two 0xCD t
  | .txp t => two 0xCE t
  | .gld t => two 0xCF t
  | .gst t => two 0xD0 t
  | .mxldst t => two 0xD1 t
  | .mxswap t => two 0xD2 t
  | .mxstrm t => two 0xD3 t
  | .mxdrain t => two 0xD4 t
  | .rstr t => two 0xD5 t
  | .prol t => two 0xD6 t
  | .wld t => two 0xD7 t
  | .lvsetImm t => two 0xD8 t
  | .lvsetReg t => two 0xD8 t
  | .erarm t => two 0xD9 t
  | .rtndef t => two 0xDA t
  | .dlgctlEnable .. | .dlgctlDisable .. | .remoteUpdateApply .. | .migrantArrival .. | .migrantHomeArrival ..
  | .delegationAccept .. | .delegationStart .. | .repeatFrameStep | .latePoison .. | .engineFaultDelivery ..
  | .recvtTimeout .. | .mailboxWordArrival .. | .portWordArrival .. | .qinWordArrival ..
  | .counterOperationApply .. | .bowTokenPass .. | .mutePlacement .. | .leaseTermTimeout ..
  | .engineCommandRun .. | .engineCommandCompletion .. | .restrictCombine .. | .putArrival ..
  | .putCounterIncrement .. | .armedPutDeadlineFire .. | .putUndeliverable .. | .linkFlitRetry ..
  | .memoryAccessPerform .. | .pageWalk .. | .icacheLineFill .. | .retentionEntry ..
  | .retentionExitComplete .. | .patrolScrub .. | .watchdog .. | .budgetWindowStart | .emissionSlot
  | .workItemArrival .. | .frontDoorFrame .. | .hostDoorbell .. | .hostRingFetch .. | .bar2HostAccess ..
  | .slotAllocatorRequest .. | .slotTableSwitch .. | .compatWrite .. | .firmwareRegisterWrite ..
  | .imageLoad .. | .context0Start .. | .debugHalt .. | .debugResume .. | .containment .. | .clusterReset ..
  | .clusterReturn .. | .partitionReset .. | .deviceStart .. | .startTimeout | .bootctlWrite ..
  | .throttleStep .. | .attestationReport .. | .illegalEncoding .. | .microTlbFill .. | .hostBar0Write ..
  | .hostLinkStateChange .. | .powerCycle | .c0rateWindowStart => []

/-! ## Bytes -/

/-- The little-endian word at a byte offset of a list, absent bytes read as zero (R1, R84). -/
def wordOfBytes (bs : List Byte) (o : Nat) : W32 :=
  (bs.getD (o + 3) 0) ++ (bs.getD (o + 2) 0) ++ (bs.getD (o + 1) 0) ++ (bs.getD o 0)

/-- The little-endian bytes of a word (R1). -/
def bytesOfWord (w : W32) : List Byte :=
  [w.extractLsb' 0 8, w.extractLsb' 8 8, w.extractLsb' 16 8, w.extractLsb' 24 8]

/-- The instruction that a list of one or two words begins with, on a core of a layer. -/
def decodeWords (layer : Nat) (ws : List W32) : Except DecFail Instr := decode layer 0 (ws.getD 0 0) (ws.getD 1 0)

/-- The instruction that bytes begin with on a base core, and the bytes that follow it. -/
def decodeBytes (bs : List Byte) : Except DecFail (Instr × List Byte) :=
  let w0 := wordOfBytes bs 0
  match decode 0 0 w0 (wordOfBytes bs 4) with
  | .ok i => .ok (i, bs.drop (if isWide w0 then 8 else 4))
  | .error f => .error f

/-- The bytes of an instruction given as a number in the opcode table's numbering: the first word is bits 31..0, the second
bits 63..32, bits from `nbits` up are zero. -/
def tableBytes (nbits w : Nat) : List Byte :=
  let v := w % 2 ^ nbits
  bytesOfWord (BitVec.ofNat 32 v) ++ bytesOfWord (BitVec.ofNat 32 (v / 2 ^ 32))

/-- The instruction that the decoder reads from a word numbered as the opcode table numbers it. -/
def decodeTableWord (nbits w : Nat) : Option Instr :=
  match decodeBytes (tableBytes nbits w) with
  | .ok (i, _) => some i
  | .error _ => none

end Sys2Proof
end

