-- ==== Sys2Proof/Machine/Fp.lean ====
section
/-! DEFINITION. Number formats, rounding and floating-point arithmetic (chapter 3; R139–R145). A value is read from its
bits, an operation computes it exactly (or to a precision beyond which no rounding can see, with one more bit that says
whether anything was cut off), and one function rounds it into a format. -/

namespace Sys2Proof.Machine

/-! ## Formats -/

/-- A floating-point format (Table 3.2): exponent and fraction widths, bias, and the largest finite magnitude as
`maxM × 2^maxE`. -/
structure FFmt where
  ebits : Nat
  t     : Nat
  bias  : Int
  maxM  : Nat
  maxE  : Int
  deriving DecidableEq, Repr

/-- The floating-point format of a code 0x4–0x9 (Tables 3.1, 3.2). -/
def ffmt : Nat → FFmt
  | 4 => ⟨11, 52, 1023, 2 ^ 53 - 1, 971⟩
  | 5 => ⟨8, 23, 127, 2 ^ 24 - 1, 104⟩
  | 6 => ⟨5, 10, 15, 2 ^ 11 - 1, 5⟩
  | 7 => ⟨8, 7, 127, 2 ^ 8 - 1, 120⟩
  | 8 => ⟨4, 3, 7, 14, 5⟩
  | _ => ⟨5, 2, 15, 7, 13⟩

/-- The kind of a format code (Table 3.1). -/
inductive Kind where
  | int (signed : Bool)
  | float
  | q4x
  deriving DecidableEq, Repr

/-- Kind of a format code (Table 3.1). -/
def fmtKind : Nat → Kind
  | 0 | 2 | 10 => .int true
  | 1 | 3 | 11 => .int false
  | 12 => .q4x
  | _ => .float

/-- Width in bits of a format code (Table 3.1). -/
def fmtBits : Nat → Nat
  | 0 | 1 | 4 => 64
  | 2 | 3 | 5 | 12 => 32
  | 6 | 7 => 16
  | _ => 8

/-- A natural number's low `n` bits as a two's complement integer (R4). -/
def toInt (n v : Nat) : Int := if v.testBit (n - 1) then (v % 2 ^ n : Nat) - (2 ^ n : Nat) else (v % 2 ^ n : Nat)
/-- The low `n` bits of an integer. -/
def ofInt (n : Nat) (v : Int) : Nat := (v % (2 ^ n : Nat)).toNat

/-- The image of a value of a format in a general register (Table 3.1). -/
def image (code v : Nat) : Word :=
  match code with
  | 2 => BitVec.ofInt 64 (toInt 32 v)
  | 10 => BitVec.ofInt 64 (toInt 8 v)
  | _ => BitVec.ofNat 64 (v % 2 ^ fmtBits code)

/-! ## Values -/

/-- A value: a NaN with its sign, its quiet bit and its fraction (aligned at the top of 52 bits), an infinity, or
`(−1)^sign × m × 2^e`. -/
inductive FVal where
  | nan (sign quiet : Bool) (frac : Nat)
  | inf (sign : Bool)
  | fin (sign : Bool) (m : Nat) (e : Int)
  deriving DecidableEq, Repr

/-- The value of bits in a floating-point format (R57, R58). [DEDUCED: log 23] -/
def decodeF (code v : Nat) : FVal :=
  let p := ffmt code
  let s := v.testBit (p.ebits + p.t)
  let x := nbits v (p.ebits + p.t - 1) p.t
  let f := v % 2 ^ p.t
  let emin := 1 - p.bias
  if x = 2 ^ p.ebits - 1 ∧ (code ≠ 8 ∨ f = 7) then
    if f = 0 then .inf s else .nan s (code = 8 || f.testBit (p.t - 1)) (f * 2 ^ (52 - p.t))
  else if x = 0 then .fin s f (emin - p.t)
  else .fin s (2 ^ p.t + f) (emin - p.t + (x - 1 : Nat))

/-- An integer as a value. -/
def ofIntV (v : Int) : FVal := .fin (v < 0) v.natAbs 0

/-- The value of the Q4X slot at place `i` of a group, read as a slot that is decoded (R60), and whether it is an escape
in slot 6 or 7 (NV). -/
def q4Slot (g i : Nat) : FVal × Bool :=
  let n := nbits g (4 * i + 3) (4 * i)
  if n ≠ 8 then (ofIntV (toInt 4 n), false)
  else if i ≤ 5 then (decodeF 8 (16 * nbits g (4 * i + 7) (4 * i + 4) + nbits g (4 * i + 11) (4 * i + 8)), false)
  else (.fin false 0 0, true)

/-- The elements of a Q4X group from slot `i` on, `skip` of them payload (R60), with the NV of each. -/
def q4Group (g : Nat) : (fuel i skip : Nat) → List (FVal × Bool)
  | 0, _, _ => []
  | n + 1, i, skip + 1 => (.fin false 0 0, false) :: q4Group g n (i + 1) skip
  | n + 1, i, 0 => q4Slot g i :: q4Group g n (i + 1) (if nbits g (4 * i + 3) (4 * i) = 8 ∧ i ≤ 5 then 2 else 0)

/-- The elements of a Q4X group (R60). -/
def q4Elems (g : Nat) : List (FVal × Bool) := q4Group g 8 0 0

/-- The value of an element's bits in a format; of a Q4X group, element 0 (R55). -/
def decodeV (code v : Nat) : FVal :=
  match fmtKind code with
  | .int true => ofIntV (toInt (fmtBits code) v)
  | .int false => .fin false (v % 2 ^ fmtBits code) 0
  | .q4x => (q4Slot v 0).1
  | .float => decodeF code v

/-! ## Flags (Table 2.7) -/

/-- Sticky flags in the order of Table 2.7. -/
def fNV : BitVec 6 := 0b100000
/-- Division by zero. -/
def fDZ : BitVec 6 := 0b010000
/-- Overflow. -/
def fOF : BitVec 6 := 0b001000
/-- Underflow. -/
def fUF : BitVec 6 := 0b000100
/-- Inexact. -/
def fNX : BitVec 6 := 0b000010
/-- Integer saturation. -/
def fSAT : BitVec 6 := 0b000001
/-- A flag where a condition holds. -/
def fIf (p : Bool) (f : BitVec 6) : BitVec 6 := if p then f else 0

/-! ## Rounding (R66–R69) -/

/-- What decides a rounding: the effective mode (R67), whether an arithmetic modifier is present and its `sat` field
(R66), whether the result goes to a bank with `fmtN[6]` set, and the sixteen random bits (R69). -/
structure REnv where
  rnd  : Nat
  pfx  : Bool
  sat  : Nat
  bank : Bool
  rho  : Nat
  deriving DecidableEq, Repr

/-- Round-to-nearest-even with nothing else in force. -/
def rne : REnv := ⟨1, false, 0, false, 0⟩

/-- The overflow policy is saturate (R66). -/
def REnv.saturates (v : REnv) (code : Nat) : Bool :=
  (v.pfx && (v.sat = 1 || v.sat = 2)) || v.bank || (code = 8 && !v.pfx)

/-- `m ÷ 2^k` rounded to an integer magnitude, and whether anything was lost (Table 3.7, R69). -/
def roundMag (v : REnv) (sign : Bool) (m k : Nat) : Nat × Bool :=
  let q := m >>> k
  let r := m % 2 ^ k
  let up := match v.rnd with
    | 2 => false
    | 3 => r ≠ 0 && !sign
    | 4 => r ≠ 0 && sign
    | 5 => r ≠ 0 && 2 ^ k ≤ 2 * r
    | 6 => 2 ^ 16 ≤ (r * 2 ^ 16) / 2 ^ k + v.rho
    | _ => 2 ^ k < 2 * r || (2 ^ k = 2 * r && q % 2 = 1)
  (if up then q + 1 else q, r ≠ 0)

/-- `m × 2^e` rounded to a multiple of `2^u`, in that unit. -/
def roundAt (v : REnv) (sign : Bool) (m : Nat) (e u : Int) : Nat × Bool :=
  if u ≤ e then (m * 2 ^ (e - u).toNat, false) else roundMag v sign m (u - e).toNat

/-- The result of rounding into a floating-point format. -/
structure Rounded where
  bits    : Nat
  ovfl    : Bool
  tiny    : Bool
  inexact : Bool
  deriving DecidableEq, Repr

/-- The sign bit of a format, where set. -/
def signBit (code : Nat) (s : Bool) : Nat := if s then 2 ^ ((ffmt code).ebits + (ffmt code).t) else 0
/-- Infinity of a format with a sign. -/
def infBits (code : Nat) (s : Bool) : Nat := signBit code s + (2 ^ (ffmt code).ebits - 1) * 2 ^ (ffmt code).t
/-- The largest finite value of a format with a sign (Table 3.2). -/
def maxBits (code : Nat) (s : Bool) : Nat := if code = 8 then signBit 8 s + 0x7E else infBits code s - 1
/-- The default NaN of a format (R58). -/
def defaultNaN (code : Nat) : Nat := if code = 8 then 0x7F else infBits code false + 2 ^ ((ffmt code).t - 1)
/-- A NaN's bits in a format, quieted (R58). -/
def nanBits (code : Nat) (s : Bool) (frac : Nat) : Nat :=
  if code = 8 then signBit 8 s + 0x7F
  else infBits code s + (frac ||| 2 ^ 51) / 2 ^ (52 - (ffmt code).t)

/-- The result of an overflow (Tables 3.6, 3.8). -/
def overBits (code : Nat) (v : REnv) (s : Bool) : Nat :=
  if v.saturates code then maxBits code s
  else if code = 8 then signBit 8 s + 0x7F
  else match v.rnd with
    | 2 => maxBits code s
    | 3 => if s then maxBits code s else infBits code s
    | 4 => if s then infBits code s else maxBits code s
    | _ => infBits code s

/-- `(−1)^s × m × 2^e` rounded once into a floating-point format (R59, R66, R68). -/
def roundTo (code : Nat) (v : REnv) (s : Bool) (m : Nat) (e : Int) : Rounded :=
  if m = 0 then ⟨signBit code s, false, false, false⟩
  else
    let p := ffmt code
    let emin := 1 - p.bias
    let top := e + (m.log2 : Int)
    let u := max top emin - p.t
    let (q, inexact) := roundAt v s m e u
    let (q1, _) := roundAt v s m e (top - p.t)
    let tiny := top < emin && (q1.log2 : Int) + (top - p.t) < emin
    if p.maxE < u || (u = p.maxE && p.maxM < q) then ⟨overBits code v s, true, tiny, true⟩
    else ⟨signBit code s + (u + p.t - emin).toNat * 2 ^ p.t + q, false, tiny, inexact⟩

/-- Flags of a rounding (R59, R66). -/
def Rounded.flags (r : Rounded) : BitVec 6 :=
  fIf r.ovfl fOF ||| fIf (r.tiny && r.inexact && !r.ovfl) fUF ||| fIf r.inexact fNX

/-- A result and its flags. -/
abbrev FRes := Nat × BitVec 6

/-- A value rounded into a floating-point format, with its flags. -/
def roundRes (code : Nat) (v : REnv) (s : Bool) (m : Nat) (e : Int) : FRes :=
  let r := roundTo code v s m e
  (r.bits, r.flags)

/-! ## NaN operands (R58) -/

/-- The NaN result of operands of which one or more is a NaN, the first one's, with NV where any is signalling. -/
def nanOf (code : Nat) (xs : List FVal) : Option FRes :=
  let sig := xs.any fun x => match x with | .nan _ false _ => true | _ => false
  match xs.find? fun x => match x with | .nan .. => true | _ => false with
  | some (.nan s _ f) => some (nanBits code s f, fIf sig fNV)
  | _ => none

/-- An invalid operation's result (R58, R139). -/
def invalid (code : Nat) : FRes := (defaultNaN code, fNV)

/-! ## Arithmetic -/

/-- The sign of a value. -/
def FVal.sign : FVal → Bool | .nan s _ _ => s | .inf s => s | .fin s _ _ => s
/-- A value negated. -/
def FVal.negate : FVal → FVal | .nan s q f => .nan (!s) q f | .inf s => .inf (!s) | .fin s m e => .fin (!s) m e
/-- A value is zero. -/
def FVal.isZero : FVal → Bool | .fin _ 0 _ => true | _ => false
/-- A value is a NaN. -/
def FVal.isNaN : FVal → Bool | .nan .. => true | _ => false
/-- A value is a signalling NaN. -/
def FVal.isSNaN : FVal → Bool | .nan _ false _ => true | _ => false

/-- The sum of two finite values, rounded; the sign of an exact zero is that of R139. -/
def addFin (code : Nat) (v : REnv) (s1 : Bool) (m1 : Nat) (e1 : Int) (s2 : Bool) (m2 : Nat) (e2 : Int) : FRes :=
  let e := min e1 e2
  let a : Int := (m1 * 2 ^ (e1 - e).toNat : Nat)
  let b : Int := (m2 * 2 ^ (e2 - e).toNat : Nat)
  let t := (if s1 then -a else a) + (if s2 then -b else b)
  if t = 0 then
    (signBit code (if m1 = 0 && m2 = 0 && s1 = s2 then s1 else v.rnd = 4), 0)
  else roundRes code v (t < 0) t.natAbs e

/-- `x + y` of values that are not NaNs. -/
def addV (code : Nat) (v : REnv) : FVal → FVal → FRes
  | .inf s, .inf t => if s = t then (infBits code s, 0) else invalid code
  | .inf s, _ => (infBits code s, 0)
  | _, .inf t => (infBits code t, 0)
  | .fin s1 m1 e1, .fin s2 m2 e2 => addFin code v s1 m1 e1 s2 m2 e2
  | _, _ => invalid code

/-- The exact product of two values, or none where it is 0 × ∞. -/
def mulExact : FVal → FVal → Option FVal
  | .fin s1 m1 e1, .fin s2 m2 e2 => some (.fin (s1 != s2) (m1 * m2) (e1 + e2))
  | x, y => if x.isZero || y.isZero then none else some (.inf (x.sign != y.sign))

/-- `fadd`. -/
def fAdd (code : Nat) (v : REnv) (x y : FVal) : FRes := (nanOf code [x, y]).getD (addV code v x y)
/-- `fsub`. -/
def fSub (code : Nat) (v : REnv) (x y : FVal) : FRes := (nanOf code [x, y]).getD (addV code v x y.negate)
/-- A value that is not a NaN, rounded. -/
def roundV (code : Nat) (v : REnv) : FVal → FRes
  | .fin s m e => roundRes code v s m e
  | .inf s => (infBits code s, 0)
  | .nan s _ f => (nanBits code s f, 0)
/-- `fmul`. -/
def fMul (code : Nat) (v : REnv) (x y : FVal) : FRes :=
  (nanOf code [x, y]).getD (match mulExact x y with | some z => roundV code v z | none => invalid code)

/-- `m1 ÷ m2` to at least 120 bits, its last bit saying whether anything was cut off, with its exponent. -/
def quot (m1 m2 : Nat) : Nat × Int :=
  let k := 120 + m2.log2
  let n := m1 * 2 ^ k
  (2 * (n / m2) + (if n % m2 = 0 then 0 else 1), -(k : Int) - 1)

/-- The finite quotient, rounded. -/
def divFin (code : Nat) (v : REnv) (s1 : Bool) (m1 : Nat) (e1 : Int) (s2 : Bool) (m2 : Nat) (e2 : Int) : FRes :=
  let (q, e) := quot m1 m2
  roundRes code v (s1 != s2) q (e + e1 - e2)

/-- `x ÷ y` of values that are not NaNs (Table 6.8). -/
def divV (code : Nat) (v : REnv) : FVal → FVal → FRes
  | .inf _, .inf _ => invalid code
  | .inf s, y => (infBits code (s != y.sign), 0)
  | x, .inf t => (signBit code (x.sign != t), 0)
  | .fin s1 m1 e1, .fin s2 m2 e2 =>
    if m2 = 0 then if m1 = 0 then invalid code else (infBits code (s1 != s2), fDZ)
    else divFin code v s1 m1 e1 s2 m2 e2
  | _, _ => invalid code
/-- `fdiv`. -/
def fDiv (code : Nat) (v : REnv) (x y : FVal) : FRes := (nanOf code [x, y]).getD (divV code v x y)

/-- The integer square root, bit by bit from bit `n − 1` of the root down. -/
def isqrtFrom (m : Nat) : (n r : Nat) → Nat
  | 0, r => r
  | n + 1, r => isqrtFrom m n (if (r + 2 ^ n) * (r + 2 ^ n) ≤ m then r + 2 ^ n else r)
/-- The integer square root. -/
def isqrt (m : Nat) : Nat := isqrtFrom m (m.log2 / 2 + 1) 0

/-- `√(m × 2^e)` to at least 100 bits, its last bit saying whether anything was cut off, with its exponent. -/
def sqrtMag (m : Nat) (e : Int) : Nat × Int :=
  let k : Nat := 240 + (if e % 2 = 0 then 0 else 1)
  let n := m * 2 ^ k
  let r := isqrt n
  (2 * r + (if r * r = n then 0 else 1), (e - k) / 2 - 1)

/-- `fsqrt`. -/
def fSqrt (code : Nat) (v : REnv) (x : FVal) : FRes :=
  (nanOf code [x]).getD (match x with
    | .fin s 0 _ => (signBit code s, 0)
    | .fin true _ _ => invalid code
    | .fin false m e => let (r, e') := sqrtMag m e; roundRes code v false r e'
    | .inf false => (infBits code false, 0)
    | _ => invalid code)

/-- `x × y + z`, one rounding; 0 × ∞ is invalid even beside a NaN `z` (R143). -/
def fFma (code : Nat) (v : REnv) (x y z : FVal) : FRes :=
  match nanOf code [x, y] with
  | some _ => (nanOf code [x, y, z]).getD (invalid code)
  | none =>
    match mulExact x y with
    | none => let r := (nanOf code [z]).getD (invalid code); (r.1, r.2 ||| fNV)
    | some p => (nanOf code [z]).getD (addV code v p z)

/-- The four operations of R143. `negP` negates the product, `negC` the addend; a NaN keeps its sign (R58). -/
def fFmaOp (code : Nat) (v : REnv) (negP negC : Bool) (x y z : FVal) : FRes :=
  let n := fun (p : Bool) (u : FVal) => if p && !u.isNaN then u.negate else u
  fFma code v (n negP x) y (n negC z)

/-! ## Comparison -/

/-- The signed integer of a finite value at exponent `e`. -/
def finAt (s : Bool) (m : Nat) (e0 e : Int) : Int :=
  let a : Int := (m * 2 ^ (e0 - e).toNat : Nat)
  if s then -a else a

/-- `x < y` for values that are not NaNs, with −0 = +0. -/
def FVal.lt : FVal → FVal → Bool
  | .inf s, .inf t => s && !t
  | .inf s, _ => s
  | _, .inf t => !t
  | .fin s1 m1 e1, .fin s2 m2 e2 => finAt s1 m1 e1 (min e1 e2) < finAt s2 m2 e2 (min e1 e2)
  | _, _ => false

/-- `x = y` for values that are not NaNs, with −0 = +0. -/
def FVal.eqv (x y : FVal) : Bool := !x.isNaN && !y.isNaN && !x.lt y && !y.lt x

/-- The rank of a value in Table 3.9: by value, −0 below +0, every NaN at the top. -/
def FVal.below (x y : FVal) : Bool :=
  if x.isNaN then false else if y.isNaN then true
  else x.lt y || (x.isZero && y.isZero && x.sign && !y.sign)

/-- minimumNumber and maximumNumber (R140). `x` and `y` come with their bits. -/
def fMinMax (code : Nat) (maxi : Bool) (x y : FVal) (xb yb : Nat) : FRes :=
  let nv := fIf (x.isSNaN || y.isSNaN) fNV
  if x.isNaN && y.isNaN then (nanOf code [x, y]).getD (invalid code)
  else if x.isNaN then (yb, nv)
  else if y.isNaN then (xb, nv)
  else if x.below y then (if maxi then yb else xb, 0) else (if maxi then xb else yb, 0)

/-- The class mask of a value in a format (Table 6.9). -/
def fClass (code : Nat) : FVal → Nat
  | .nan _ q _ => if q then 2 ^ 9 else 2 ^ 8
  | .inf s => if s then 1 else 2 ^ 7
  | .fin s m _ =>
    if m = 0 then if s then 2 ^ 3 else 2 ^ 4
    else if m < 2 ^ (ffmt code).t then if s then 2 ^ 2 else 2 ^ 5
    else if s then 2 ^ 1 else 2 ^ 6

/-- `fcmp` (Table 6.11): the predicate and the flag. -/
def fCompare (cond : Nat) (x y : FVal) : Bool × BitVec 6 :=
  let any := x.isNaN || y.isNaN
  let sig := x.isSNaN || y.isSNaN
  match cond with
  | 0 => (x.eqv y, fIf sig fNV)
  | 1 => (!any && x.lt y, fIf any fNV)
  | 2 => (!any && !y.lt x, fIf any fNV)
  | 3 => (any, fIf sig fNV)
  | _ => (x.eqv y, fIf any fNV)

/-! ## The approximate functions (R142) -/

/-- The 17 leading bits of `m × 2^e`, rounded to nearest even, and whether that is inexact. -/
def to17 (m : Nat) (e : Int) : Nat × Int × Bool :=
  let u := e + (m.log2 : Int) - 16
  let (q, x) := roundAt rne false m e u
  (q, u, x)

/-- Ends an approximate function: 17 bits, then the destination under RNE; `cut` says that `m × 2^e` is not the exact
value. -/
def approx (code : Nat) (v : REnv) (s : Bool) (m : Nat) (e : Int) (cut : Bool) : FRes :=
  let (q, u, x) := to17 m e
  let r := roundTo code { v with rnd := 1 } s q u
  let r := { r with inexact := r.inexact || x || cut }
  (r.bits, fIf r.ovfl fOF ||| fIf (r.tiny && r.inexact) fUF ||| fIf r.inexact fNX)

/-- The series `x + x³/3 + x⁵/5 + …` in fixed point with `p` fraction bits: `t` is the power, `k` its exponent. -/
def atanhSum (p x2 : Nat) : (fuel t k : Nat) → Nat
  | 0, _, _ => 0
  | n + 1, t, k => t / k + atanhSum p x2 n (t * x2 / 2 ^ p) (k + 2)

/-- The natural logarithm of `a ÷ b` (between 1 and 2) in fixed point with 320 fraction bits. -/
def lnFix (a b : Nat) : Nat :=
  let z := (a - b) * 2 ^ 320 / (a + b)
  2 * atanhSum 320 (z * z / 2 ^ 320) 110 z 1

/-- The series of the exponential in fixed point with 320 fraction bits. -/
def expSum (x : Nat) : (fuel t k : Nat) → Nat
  | 0, _, _ => 0
  | n + 1, t, k => t + expSum x n (t * x / (2 ^ 320 * k)) (k + 1)

/-- 2 to the power `f ÷ 2^320` (between 0 and 1) in fixed point with 320 fraction bits. -/
def exp2Fix (f : Nat) : Nat := expSum (f * lnFix 2 1 / 2 ^ 320) 80 (2 ^ 320) 1

/-- `frcpa` (Table 6.10). -/
def fRcpa (code : Nat) (v : REnv) (x : FVal) : FRes :=
  (nanOf code [x]).getD (match x with
    | .inf s => (signBit code s, 0)
    | .fin s 0 _ => (infBits code s, fDZ)
    | .fin s m e => let (q, e') := quot 1 m; approx code v s q (e' - e) false
    | _ => invalid code)

/-- `frsqa` (Table 6.10). -/
def fRsqa (code : Nat) (v : REnv) (x : FVal) : FRes :=
  (nanOf code [x]).getD (match x with
    | .inf false => (0, 0)
    | .fin s 0 _ => (infBits code s, fDZ)
    | .fin false m e =>
      let h : Nat := if e % 2 = 0 then 0 else 1
      let m' := m * 2 ^ h
      let k := 128 + m'.log2
      let n := 2 ^ (2 * k) / m'
      let r := isqrt n
      approx code v false (2 * r + (if r * r * m' = 2 ^ (2 * k) then 0 else 1)) (-(k : Int) - 1 - (e - h) / 2) false
    | _ => invalid code)

/-- `fexp2a` (Table 6.10). Exponents beyond ±8192 give what those give: every format's range ends before. [DEDUCED: log 22] -/
def fExp2a (code : Nat) (v : REnv) (x : FVal) : FRes :=
  (nanOf code [x]).getD (match x with
    | .inf s => (if s then 0 else infBits code false, 0)
    | .fin s m e =>
      if m = 0 then approx code v false 1 0 false
      else
        let big := 14 < e + (m.log2 : Int)
        let m := if big then 8192 else m
        let e := if big then 0 else e
        let a := finAt s m (e + 1200) 0
        let n := a / (2 ^ 1200 : Nat)
        let f := (a % (2 ^ 1200 : Nat)).toNat
        if f = 0 then approx code v false 1 n false else approx code v false (exp2Fix (f / 2 ^ 880)) (n - 320) true
    | _ => invalid code)

/-- `flog2a` (Table 6.10). -/
def fLog2a (code : Nat) (v : REnv) (x : FVal) : FRes :=
  (nanOf code [x]).getD (match x with
    | .inf false => (infBits code false, 0)
    | .fin _ 0 _ => (infBits code true, fDZ)
    | .fin false m e =>
      let k := e + (m.log2 : Int)
      if m = 2 ^ m.log2 then
        if k = 0 then (0, 0) else approx code v (k < 0) k.natAbs 0 false
      else
        let l : Int := k * (2 ^ 320 : Nat) + (lnFix m (2 ^ m.log2) * 2 ^ 320 / lnFix 2 1 : Nat)
        approx code v (l < 0) l.natAbs (-320) true
    | _ => invalid code)

/-! ## Conversions (R61, R65, R66, R69, R145) -/

/-- The end of an integer format's range (R56). -/
def intLo (signed : Bool) (n : Nat) : Int := if signed then -(2 ^ (n - 1) : Nat) else 0
/-- The upper end of an integer format's range (R56). -/
def intHi (signed : Bool) (n : Nat) : Int := if signed then (2 ^ (n - 1) : Nat) - 1 else (2 ^ n : Nat) - 1

/-- A value into an integer format, from a floating-point or Q4X source (R65). -/
def toIntFmt (signed : Bool) (n : Nat) (v : REnv) : FVal → FRes
  | .nan .. => (0, fNV)
  | .inf s => (ofInt n (if s then intLo signed n else intHi signed n), fNV)
  | .fin s m e =>
    let (q, x) := roundAt v s m e 0
    let r : Int := if s then -q else q
    if r < intLo signed n then (ofInt n (intLo signed n), fNV)
    else if intHi signed n < r then (ofInt n (intHi signed n), fNV)
    else (ofInt n r, fIf x fNX)

/-- An integer into an integer format (R65, Table 3.6). -/
def intToInt (signed : Bool) (n : Nat) (sat : Bool) (r : Int) : FRes :=
  if intLo signed n ≤ r ∧ r ≤ intHi signed n then (ofInt n r, 0)
  else if sat then (ofInt n (if r < 0 then intLo signed n else intHi signed n), fSAT)
  else (ofInt n r, 0)

/-- A value into `q4x`, as a plain slot code (R61). -/
def toQ4 (v : REnv) : FVal → FRes
  | .nan .. => (0, fNV)
  | .inf s => (ofInt 4 (if s then -7 else 7), fOF ||| fNX)
  | .fin s m e =>
    let (q, x) := roundAt v s m e 0
    if 7 < q then (ofInt 4 (if s then -7 else 7), fOF ||| fNX) else (ofInt 4 (if s then -q else q), fIf x fNX)

/-- A value into a floating-point format (R58, R65, R66). -/
def toFloat (code : Nat) (v : REnv) : FVal → FRes
  | .nan s q f => (nanBits code s f, fIf (!q) fNV)
  | .inf s => if code = 8 then (overBits 8 v s, fOF ||| fNX) else (infBits code s, 0)
  | .fin s m e => roundRes code v s m e

/-- A value of a source format into another format; `intSrc` says that the source is an integer format. -/
def convertV (intSrc : Bool) (dst : Nat) (v : REnv) (x : FVal) : FRes :=
  match fmtKind dst, x, intSrc with
  | .int sg, .fin s m _, true => intToInt sg (fmtBits dst) (v.saturates dst) (if s then -m else m)
  | .int sg, x, _ => toIntFmt sg (fmtBits dst) v x
  | .q4x, x, _ => toQ4 v x
  | .float, x, _ => toFloat dst v x

/-- An integer format code. -/
def isIntFmt (code : Nat) : Bool := match fmtKind code with | .int _ => true | _ => false

/-- Some value of the source lies strictly between two adjacent values of the destination (R69). -/
def canRound (src dst : Nat) : Bool :=
  if src = dst then false
  else match fmtKind src, fmtKind dst with
    | .int _, .int _ => false
    | .int _, .q4x => false
    | .int sg, .float => (ffmt dst).t + 1 < fmtBits src - (if sg then 1 else 0)
    | .float, .float =>
      (ffmt dst).t < (ffmt src).t || 1 - (ffmt src).bias - (ffmt src).t < 1 - (ffmt dst).bias - (ffmt dst).t
    | .float, _ => true
    | .q4x, .int _ => true
    | .q4x, .q4x => false
    | .q4x, .float => dst = 9

/-- `fcvt` (R55, R145): the destination's bits and the flags. From `q4x` into `q4x` slot 0 passes; an escape there is converted as R61 states,
since a conversion never writes one. Under RSR that conversion, whose pair draws nothing (R69), rounds as with the random value 0.
[DEDUCED: log 89] [DESIGN CHOICE: log 123] -/
def fConvert (src dst : Nat) (v : REnv) (a : Nat) : FRes :=
  if src = dst then
    match fmtKind src with
    | .float => if (decodeF src a).isSNaN then (a ||| 2 ^ ((ffmt src).t - 1), fNV) else (a, 0)
    | .q4x => toQ4 v (decodeV src a)
    | .int _ => (a, 0)
  else convertV (isIntFmt src) dst v (decodeV src a)

/-! ## The generator (R70–R72) -/

/-- The multiplier of R70. -/
def rngMul : Word := 0x2545F4914F6CDD1D
/-- The generator's next state (R70). -/
def rngStep (s : Word) : Word :=
  let s := s ^^^ (s >>> 12)
  let s := s ^^^ (s <<< 25)
  s ^^^ (s >>> 27)

/-- One 16-bit value, with the generator's state and `gpos` after it (R72). -/
def draw (s : Word) (g : BitVec 2) : Nat × Word × BitVec 2 :=
  let s' := if g = 0 then rngStep s else s
  (nbits (s' * rngMul).toNat (16 * g.toNat + 15) (16 * g.toNat), s', g + 1)

/-- The generator's state and `gpos` after `n` values (R73). -/
def drawMany : Nat → Word → BitVec 2 → Word × BitVec 2
  | 0, s, g => (s, g)
  | n + 1, s, g => let (_, s', g') := draw s g; drawMany n s' g'

/-- The seed of a generator (R71). -/
def rngSeed (t : Word) : Word :=
  let z := t + 0x9E3779B97F4A7C15
  let z := (z ^^^ (z >>> 30)) * 0xBF58476D1CE4E5B9
  let z := (z ^^^ (z >>> 27)) * 0x94D049BB133111EB
  let z := z ^^^ (z >>> 31)
  if z = 0 then 1 else z

end Sys2Proof.Machine
end

