-- ==== Sys2Proof/Config.lean ====
section
/-! DEFINITION. What the SK9-2040-H8 fixes: the layers (Table 1.1), the clocks, the address map the model
lays memory out in, and the free values that the manual leaves open (constants with no body). -/

namespace Sys2Proof.Config

/-- Mesh width of a layer in full mode (Table 1.1) and in minimal mode (R433). -/
def meshW (minimal : Bool) : Nat → Nat
  | 0 => if minimal then 12 else 48
  | 1 => if minimal then 6 else 24
  | 2 => 12
  | _ => 6

/-- Mesh height of a layer in full mode (Table 1.1) and in minimal mode (R433). -/
def meshH (minimal : Bool) : Nat → Nat
  | 0 => if minimal then 8 else 32
  | 1 => if minimal then 4 else 16
  | 2 => 8
  | _ => 4

/-- Contexts per core (Table 1.1). -/
def contexts : Nat → Nat
  | 0 => 16 | 1 => 8 | _ => 4

/-- Bank size in bytes (Table 1.1). -/
def bankSize : Nat → Nat
  | 0 => 32768 | 1 => 65536 | 2 => 131072 | _ => 262144

/-- Scratchpad size in bytes: sixteen banks (Table 1.1). -/
def spadSize (l : Nat) : Nat := 16 * bankSize l

/-- Offset unit of a tile descriptor: the bank size divided by 2,048 (Table 4.9). -/
def offUnit (l : Nat) : Nat := bankSize l / 2048

/-- The cluster width W of R11: clusters along x (Table 1.1). The same numbering serves minimal mode, whose smaller
mesh is the corner of the full one. -/
def clusterW : Nat → Nat
  | 0 => 8 | 1 => 4 | 2 => 2 | _ => 1

/-- Layer clock in units of 0.1 GHz (Table 1.1). -/
def clock : Nat → Nat
  | 0 => 27 | 1 => 34 | 2 => 41 | _ => 48

/-- Ticks of the model's own time unit in 10 ns: a common multiple of every clock of R9 and R435, so that each
layer's cycle is a whole number of ticks. [DESIGN CHOICE: log 10] -/
def tickPer10ns : Nat := 3292850761200

/-- Ticks in one cycle of a clock of `f` tenths of a GHz. -/
def period (f : Nat) : Nat := tickPer10ns / f

/-- Depth of an engine's command queue per core (Table 9.1): vector, copy, global, matrix, pyramid port, link. -/
def engDepth : Nat → Nat
  | 0 => 8 | 1 => 8 | 2 => 16 | 3 => 4 | 4 => 4 | _ => 8

/-- Retention entry and exit in cycles (Table 22.4). -/
def retEntry : Nat → Nat
  | 0 => 2048 | 1 => 4096 | 2 => 8192 | _ => 16384

/-- Retention exit in cycles (Table 22.4). -/
def retExit : Nat → Nat
  | 0 => 1536 | 1 => 3072 | 2 => 6144 | _ => 12288

/-- Device physical memory in bytes, full mode (R19). -/
def hbmSize : Nat := 768 * 2 ^ 30

/-- Device physical memory in bytes, minimal mode (R433). -/
def hbmSizeMin : Nat := 96 * 2 ^ 30

/-- Where the model lays the scratchpad of core `cid` in its one memory. [DESIGN CHOICE: log 11] -/
def spadLoc (cid off : Nat) : Nat := 2 ^ 40 + cid * 2 ^ 22 + off

/-- Where the model lays byte `a` of the code space of a layer in its one memory. -/
def codeLoc (layer a : Nat) : Nat := 2 ^ 49 + layer * 2 ^ 48 + a

/-- The core whose scratchpad holds a location of the scratchpad region. -/
def locCid (loc : Nat) : Nat := (loc - 2 ^ 40) / 2 ^ 22

/-- The offset of a location of the scratchpad region in its core's scratchpad. -/
def locOff (loc : Nat) : Nat := (loc - 2 ^ 40) % 2 ^ 22

/-- A location below the scratchpad region is a byte of HBM4E, at its physical address. -/
def isHbm (loc : Nat) : Bool := loc < 2 ^ 40

/-- A location of the scratchpad region. -/
def isSpad (loc : Nat) : Bool := 2 ^ 40 ≤ loc && loc < 2 ^ 49

/-- FREE VALUE. The place, among the lines that a core's instruction cache holds, of the one that a fill displaces (R9, R101).
[DESIGN CHOICE: log 92] -/
opaque icacheVictim : (cid line tick : Nat) → Nat

/-- FREE VALUE. The phase of a pod barrier of an id that members on other devices of the pod stand in at a tick, where it has any there (R21,
R199). [DESIGN CHOICE: log 85] -/
opaque peerPhase : (id tick : Nat) → Option W32

/-- FREE VALUE. The ticks from the beginning of a phase of a pod barrier until every member of it on another device has arrived (R200).
[DESIGN CHOICE: log 85] -/
opaque peersArrive : (id phase began : Nat) → Nat

/-- FREE VALUE. Whether a signature of the given bytes over a digest verifies under a key (R365, R430): the manual
names SLH-DSA-SHA2-128s and gives no key. [DESIGN CHOICE: log 15] -/
opaque signatureValid : (key : Nat) → (digest : List Byte) → (sig : List Byte) → Bool

/-- FREE VALUE. The device identity key's signature of a digest (R438). -/
opaque identitySign : (digest : List Byte) → List Byte

/-- FREE VALUE. The digest in a measurement log entry of a start (R437): type 1 firmware, 2 the firmware of a partition, 4 entry
into minimal mode. -/
opaque startDigest : (type part : Nat) → List Byte

/-- FREE VALUE. What memory holds after a load that ended with status 6 (R364: undefined), by load count and
location. -/
opaque undefinedByte : (count loc : Nat) → Byte

/-- FREE VALUE. What a byte of HBM4E reads as under a key under which it has not been written (Table 1.5): by the key of the access, the key of the
latest write of its block of 16 bytes, the step in which the writes under that key began, the location, and what the block holds under the key
of its writes, where another key reads it. [DESIGN CHOICE: log 94] -/
opaque undeciphered : (key written since loc : Nat) → (block : List Byte) → Byte

/-- FREE VALUE. What a stream finds at a column beyond its activation tile, where the active plane is not of the shape that its
issued shape promised (R265, R268: a weight load faulted), by accumulator row and column. -/
opaque strayActivation : (m k : Nat) → W32

end Sys2Proof.Config
end

