-- ==== Sys2Proof/Machine/State.lean ====
section
/-! DEFINITION. The state of one SK9 device, as plain data, and the state right after reset. A context is named by
its mailbox address (MBA, R15) and a core by its logical core id (CID, R14), both as natural numbers. Tables are
association lists in rising key order; what an unlisted key holds is the `init` of its type. -/

namespace Sys2Proof.Machine

/-- An association list in rising key order. -/
abbrev Tbl (α : Type) := List (Nat × α)

/-! ## Contexts -/

/-- Why a context is stopped (R204, R228, R208, R218). -/
inductive StopWhy where | trap | save | mute
  deriving DecidableEq, Repr

/-- The states of a context (chapter 8, "Contexts"; R402 for the debugger's halt, which a context that has already stopped may
enter too: `was` says why it had stopped). -/
inductive Run where
  | unspawned
  | running
  | stopped (w : StopWhy)
  | halted (was : Option StopWhy)
  deriving DecidableEq, Repr

/-- The waits that cost a context its slots (Tables 2.10, 7.3, 20.5). -/
inductive WaitKind where
  | access | emptyRead | emptyPort (d : Dir) | emptyQin | fullWrite | sendFull | counterFull | engineQueue | tlb | icache
  | retention | fullEmpty | fence | away | delegation | dlgCredit | launch | relaxedFull | redCredits | lease | target | tables
  | serverIdle | muteRoom | bandwidth (paid : Nat)
  deriving DecidableEq, Repr

/-- A wait in progress: its kind, the tick its stall clock started and the limit that counts for it, as `wdlim` stood then
(R392, R401), the step count at the last try, and a number that the kind gives a meaning: for a read of an empty queue, the words that lay
there for it and did not suffice (R29, R217); for a full relaxed set, the number of its oldest access (Table 7.3). -/
structure Wait where
  kind  : WaitKind
  since : Nat
  lim   : Nat
  epoch : Nat
  seen  : Nat
  deriving DecidableEq, Repr

/-- The operations of Table 7.9. -/
inductive AmoOp where
  | swap | add | and | or | xor | min | max | minu | maxu | faddS | faddD | fminS | fmaxS
  deriving DecidableEq, Repr

/-- What an access does when it is performed. -/
inductive AccKind where
  | load (signed : Bool) (d : Reg)
  | store (v : Word)
  | amo (op : AmoOp) (b : Word) (d : Reg)
  | cas (expected new : Word) (d : Reg)
  deriving DecidableEq, Repr

/-- What the page of a range gives an access to it: whether it is replicated (R320), and the key under which its bytes lie in HBM4E (Table
1.5, Table 20.1); none for an access that names no page. -/
structure Page where
  repl : Bool
  key  : Option Nat
  deriving DecidableEq, Repr

/-- The page of an access that is not translated. -/
def Page.plain : Page := ⟨false, none⟩

/-- Ranges of memory that one access takes in turn: first byte, size, and what its page gives. There is one, but for an
access that crosses from one core of the cluster window to the next (R37) or from one page to the next. -/
abbrev Place := List (Nat × Nat × Page)

/-- How a block of 16 bytes of HBM4E lies encrypted (Table 1.5): the key of its latest write; the bytes of it that have been written under that
key since another key wrote the block, or since nothing had; and the step in which that began. -/
structure KeyTag where
  key   : Nat
  kept  : BitVec 16
  since : Nat
  deriving DecidableEq, Repr

/-- An access that has issued and is not yet performed (R163): where it is performed; the home copy of the same bytes, where its page
is replicated (R320, R390), otherwise the same place; its size; whether it is relaxed; what a
trap of it reports (Table 7.2); the PC and the words of its instruction (Table 8.6); and its place in issue order on the device. -/
structure Acc where
  kind : AccKind
  at_  : Place
  home : Place
  n    : Nat
  rlx  : Bool
  info : Word
  ipc  : Word
  seq  : Nat
  instr : Word
  pfxs : Word
  deriving DecidableEq, Repr

/-- A buffered store whose value a context has read by forwarding (R321): its number in issue order, and its bytes. -/
structure Fwded where
  seq  : Nat
  home : Place
  deriving DecidableEq, Repr

/-- A waiting `recvt` (R196): the cycle at which it times out, its destination, and whether the time is
over and its destination does not take the zero yet. -/
structure Rcv where
  stop : Nat
  d    : Reg
  expired : Bool
  deriving DecidableEq, Repr

/-- A trap about to be taken (R228): its cause and its `tinfo`. -/
structure Trap where
  cause : BitVec 8
  tinfo : Word
  deriving DecidableEq, Repr

/-- A trap that a migrant raised, to be taken at home (R186): the words of its group for the record (Table 8.6), and
whether a repeat frame was running. -/
structure HomeTrap where
  t      : Trap
  tpc    : Word
  instr  : Word
  pfxs   : Word
  deriving DecidableEq, Repr

/-- What a home context keeps of the thread that left it (R189, Table 2.4). -/
structure Left where
  pc    : Word
  x     : Vector Word 24
  k     : W32
  flags : BitVec 6
  seg   : Vector Desc 8
  sel   : W32
  gpos  : BitVec 2
  rngst : Word
  mode  : Word
  deriving DecidableEq, Repr

/-- Where a thread that has left its home context is (R182–R188). -/
inductive AwayPhase where
  | toHost
  | queued
  | hosted (ctx : Nat)
  | toHome
  deriving DecidableEq, Repr

/-- A thread away from home: its host core, its phase, the access it carries (performed after arrival), whether the
home core has recalled it (R188), the trap to take at home (R186), what it left behind, the PC of the instruction
that made its latest move, and the tick at which it left with the limit that counts for it (R392, R401). -/
structure Away where
  host   : Nat
  phase  : AwayPhase
  carry  : Option Acc
  recallIt : Bool
  trap   : Option HomeTrap
  left   : Left
  mpc    : Word
  since  : Nat
  lim    : Nat
  deriving DecidableEq, Repr

/-- A word in a mailbox: its sender, hardware word or context word (R32), and its place among the five words of a work item
(0: not one of them; R377). -/
structure MWord where
  src  : Nat
  hw   : Bool
  v    : Word
  five : Nat
  deriving DecidableEq, Repr

/-- An entry of a `qin` (R31): a word with its sender, or the mute (R218) with the context it was placed for. -/
inductive QEntry where
  | word (src : Nat) (v : Word)
  | mute (src : Nat)
  deriving DecidableEq, Repr

/-- A captured repeat frame (R152, R155), with its number of iterations, which is fixed at `rep` and at a resumption (R158). -/
structure RFrame where
  rpc   : Word
  words : List W32
  sd    : BitVec 2
  sa    : BitVec 2
  sb    : BitVec 2
  c     : Reg
  n     : Nat
  deriving DecidableEq, Repr

/-- An agent of the hardware that posts words (R195): while a word of it waits, it does nothing further. -/
inductive HwAgent where
  | core (cid : Nat)
  | engine (cid : Nat) (e : Eng)
  | counters (cid : Nat)
  | barrier (key : Nat)
  | lease (quad : Nat)
  | items (cid : Nat)
  | bow (cid : Nat)
  | dispatcher
  deriving DecidableEq, Repr

/-- A fault of an engine command waiting to be delivered (R257): cause, `tinfo`, the command's two words, the
completion word to post after the trap, and the engine. -/
structure EngFault where
  t    : Trap
  cmd  : Word
  done : Option Word
  by_  : HwAgent
  deriving DecidableEq, Repr

/-- The group being executed (R95, R98): its modifier fields (R100), relaxed bit, scope and extension (R99), how many
words precede the instruction, and its words for the trap record (Table 8.6). -/
structure Grp where
  arith : Bool
  rnd   : BitVec 3
  sat   : BitVec 2
  nf    : Bool
  rlx   : Bool
  scope : Option (BitVec 3)
  ext   : Option (BitVec 27)
  n     : Nat
  instr : Word
  pfxs  : Word
  deriving DecidableEq, Repr

/-- The flags that engines have set in a context in one cycle of its core (R75, R138): the cycle, those of them that were clear before, and
all of them. -/
structure FlagOr where
  cyc : Nat
  new : BitVec 6
  all : BitVec 6
  deriving DecidableEq, Repr

/-- A group of one instruction with nothing before it. -/
def Grp.none : Grp := ⟨false, 0, 0, false, false, Option.none, Option.none, 0, 0, 0⟩

/-- The state of a context (chapter 2, chapter 8). `via` is the `tinfo` that an orphaned extension at `pc` would
report (R96); `gen` counts the context's ends, so that a completion knows whether its issuer has ended (R195); `fwd` lists the
buffered stores that it has read by forwarding (R314, R321); `pops` lists the queue registers that an instruction in progress has read, with the
words read, which leave their queues when it completes (R29); `ored` is what engines have set in `flags` in the cycle that it names (R75, R138); `rcv` is a waiting `recvt` (R196); `notice` is a trap notice that waits for
the context's earlier accesses, with its handler (R229, R315); `stopReq` names the context
that is stopping this one (R204; `byDebugger` for the debugger), `muteOut` lists the contexts whose mutes wait for
room in this one's `qout`, oldest first (R218; the context itself where it forwards one, R219); `cyc` is the cycle of its last slot, or, where it was held since, the cycle in which what held it cleared (R50, R52). -/
structure Context where
  run    : Run
  pc     : Word
  via    : Word
  x      : Vector Word 24
  k      : W32
  seg    : Vector Desc 8
  sel    : W32
  gpos   : BitVec 2
  sec    : Bool
  sup    : Bool
  mode   : Word
  flags  : BitVec 6
  ored   : Option FlagOr
  msgdst : Word
  jobseed : Word
  rngst  : Word
  fretboard : W32
  tcause : BitVec 8
  tinfo  : Word
  tpc    : Word
  qlink  : Word
  bowgrp : BitVec 16
  qcls   : BitVec 2
  part   : BitVec 4
  ctxid  : BitVec 8
  mbx    : List MWord
  rot    : Nat
  qin    : List QEntry
  frame  : Option RFrame
  out    : List Acc
  fwd    : List Fwded
  pops   : List (Reg × Word)
  late   : Option Word
  pend   : Option EngFault
  wait   : Option Wait
  rcv    : Option Rcv
  notice : Option (Nat × Word)
  away   : Option Away
  stopReq : Option Nat
  muteOut : List Nat
  gen    : Nat
  cyc    : Nat
  deriving DecidableEq, Repr

/-- A context that nothing has started: registers and memory-like state zero, `mode` round-to-nearest-even with every
trap disabled, the generator in its least nonzero state (R44). [DESIGN CHOICE: log 5] -/
def Context.init : Context where
  run := .unspawned
  pc := 0
  via := 0
  x := Vector.replicate 24 0
  k := 0
  seg := Vector.replicate 8 0
  sel := 0
  gpos := 0
  sec := false
  sup := false
  mode := 1
  flags := 0
  ored := none
  msgdst := 0
  jobseed := 0
  rngst := 1
  fretboard := 0
  tcause := 0
  tinfo := 0
  tpc := 0
  qlink := 0
  bowgrp := 0
  qcls := 0
  part := 0
  ctxid := 0
  mbx := []
  rot := 0
  qin := []
  frame := none
  out := []
  fwd := []
  pops := []
  late := none
  pend := none
  wait := none
  rcv := none
  notice := none
  away := none
  stopReq := none
  muteOut := []
  gen := 0
  cyc := 0

/-! ## Engines -/

/-- A tile after the checks of R104, bound to its core and to the format and scale of its bank (R45, R232). -/
structure Tile where
  cid    : Nat
  bank   : Nat
  off    : Nat
  rows   : Nat
  cols   : Nat
  stride : Nat
  pad    : Bool
  cmaj   : Bool
  fmt    : BitVec 7
  scale  : W32
  deriving DecidableEq, Repr

/-- A routine of the partition's table (R237). -/
structure Routine where
  assoc : BitVec 2
  inF   : BitVec 4
  outF  : BitVec 4
  ma    : Bool
  pp    : Bool
  ce    : Bool
  ve    : Bool
  body  : List W32
  deriving DecidableEq, Repr

/-- The operator a command runs (R242): a routine bound from the table, or a built-in in its working format. -/
inductive Oper where
  | routine (h : BitVec 8) (r : Routine)
  | builtin (h : BitVec 8) (wf : BitVec 4)
  deriving DecidableEq, Repr

/-- What an engine command does (chapters 9 and 10). -/
inductive Op where
  | fold (ax na : Bool)
  | scan (na : Bool)
  | zip (bc : Bool)
  | outer
  | tcopy
  | tfill
  | txp
  | gld (seg : Desc) (o p : Nat)
  | gst (seg : Desc) (o p : Nat)
  | mxldst (sp : Bool)
  | mxswap
  | mxstrm (arow : Nat) (clr : Bool)
  | mxdrain (arow acol : Nat) (bs clr : Bool)
  | wld (wset : Nat)
  | rstr (wset : Nat) (shx : Bool) (mask : BitVec 4) (dlev : BitVec 4) (cross : Bool)
  | prol (wset : Nat) (shx : Bool) (mask : BitVec 4) (add cross : Bool)
  | put (dst : Word) (ctr : Option Nat) (h : BitVec 8) (tag : BitVec 16) (ln : Bool)
  | armed (srcDva lineB lines : Nat) (fmt : BitVec 4) (dst : Word) (ctr : Option Nat) (h : BitVec 8) (tag : BitVec 16)
      (ln : Bool) (deadline : Option Nat)
  deriving DecidableEq, Repr

/-- A piece of an output: bytes at a location, which is the home copy where its page is replicated (R320); where `half` is set, one
four-bit slot. -/
structure Piece where
  loc  : Nat
  half : Option Bool
  page : Page
  data : List Byte
  deriving DecidableEq, Repr

/-- An output for a row-scaled bank, which is converted as the engine writes its row (R64): its index and place in its tile, the format and the
bits of its value with their flags, and the random value reserved for the conversion. -/
structure LateOut where
  tile  : Tile
  outx  : Nat
  l     : Nat
  e     : Nat
  op    : Nat
  bits  : Nat
  flags : BitVec 6
  rho   : Nat
  deriving DecidableEq, Repr

/-- Outputs of a command that share an aligned 8-byte word and are written together (R235): their indices, their pieces, the flags of their
elements, and, for a row-scaled bank, the values that are still to be converted, for which the pieces only name the places (R64). -/
structure OutEnt where
  outs   : List Nat
  pieces : List Piece
  flags  : BitVec 6
  vals   : List LateOut
  deriving DecidableEq, Repr

/-- How far a running command has got: the unit of work it is on; the source words of that unit read so far (none where
poisoned); the physical pieces of the line it is on (R253); the outputs computed and not yet written; what it keeps between
units; the source words that a crossing restrict brings to its instance (R275); the flags of what has been written; the random values still to be used; the source granules it has waited for (R235);
the destination granules in which it has written something and has more to write (R235); the fault that will end it (R255); and the 64 bytes of global memory for which it was last charged a token (R412). -/
structure Prog where
  unit  : Nat
  reads : List (Option Word)
  plan  : Place
  buf   : List OutEnt
  keep  : List Word
  words : List (Option Word)
  flags : BitVec 6
  rng   : Word
  gpos  : BitVec 2
  waited : List Nat
  partly : List Nat
  fault : Option (BitVec 8 × Word)
  done  : Bool
  began : Bool
  charged : Option Nat
  deriving DecidableEq, Repr

/-- A command in an engine's queue (R232): what it does, its operands as read at issue, what it bound, and the class charged for it, as
`qcls` stood at issue (R414). -/
structure Cmd where
  op    : Op
  oper  : Option Oper
  dt    : Option Tile
  at_   : Option Tile
  bt    : Option Tile
  dts   : List Tile
  av    : Word
  bv    : Word
  cv    : Word
  issuer : Nat
  gen   : Nat
  seq   : Nat
  cm    : Bool
  fe    : BitVec 2
  sw    : Bool
  rnd   : BitVec 3
  sat   : BitVec 2
  pfx   : Bool
  te    : BitVec 5
  nf    : Bool
  words : Word
  grid  : Nat
  cancelled : Bool
  inst  : Nat
  cls   : BitVec 2
  prog  : Prog
  deriving DecidableEq, Repr

/-- A command that has passed its checks, or an armed put that has fired, and that waits for room in a full queue (R231, R232, R285): the context
that issued it; where that context waits in the instruction, the PC behind it; and the words before the instruction in its group (Table 8.6). -/
structure Entering where
  who : Nat
  npc : Option Word
  cmd : Cmd
  pfxs : Word
  deriving DecidableEq, Repr

/-- One engine of a core: its queue, the commands that wait to enter it in the order in which they came, the next sequence number, and its
status register (R47, R231, R233). -/
structure EngSt where
  queue : List Cmd
  enter : List Entering
  next  : W32
  last  : W32
  fault : Bool
  cause : BitVec 8
  deriving DecidableEq, Repr

/-- An engine after start-up: nothing queued, and the first command will get number 1 (R233). -/
def EngSt.init : EngSt := ⟨[], [], 1, 0, false, 0⟩

/-- A column placed in a weight plane (Table 10.2): its logical number, its stored values and its two-bit indices. -/
structure PCol where
  n   : Nat
  w   : List W32
  idx : List Nat
  deriving DecidableEq, Repr

/-- A weight plane (Table 10.2). -/
structure Plane where
  rows : Nat
  sp   : Bool
  fmt  : BitVec 4
  cols : List PCol
  deriving DecidableEq, Repr

/-- A plane that has never been loaded (R261, R266). -/
def Plane.init : Plane := ⟨0, false, 5, []⟩

/-- The matrix state of a base core (R261): the two planes, the accumulators (row × 256 + column), and the issued
shapes of the active and the shadow plane (R265). -/
structure Mx where
  active  : Plane
  shadow  : Plane
  acc     : Tbl W32
  issuedA : Nat × Bool
  issuedS : Nat × Bool
  deriving DecidableEq, Repr

/-- Matrix state at start-up (R261). -/
def Mx.init : Mx := ⟨Plane.init, Plane.init, [], (0, false), (0, false)⟩

/-! ## Cores -/

/-- An incoming neighbour queue (R30): its words, each with the context whose instruction in progress has read it and has popped nothing yet
(R29); and the contexts blocked reading it, the one that blocked first at the head. -/
structure PortQ where
  q       : List (Word × Option Nat)
  blocked : List Nat
  deriving DecidableEq, Repr

/-- A delegated request (R190). -/
structure Req where
  rpc  : W32
  args : List Word
  from_ : Nat
  deriving DecidableEq, Repr

/-- The delegation server of a core (R191, R308): enabled, the requester whose routine is running, and the queue. -/
structure Server where
  en    : Bool
  cur   : Option Nat
  queue : List Req
  deriving DecidableEq, Repr

/-- A work item on its way or in an overflow queue (R373–R377): its launch's admission number and launch number, its
index, the fields its five words carry, its hint, its walk as it stood at emission (R385), how many cores of it it has visited, and its place in send
order on the message network on its present way (R410). -/
structure Item where
  seq    : Nat
  lnum   : BitVec 16
  item   : Nat
  cls    : BitVec 2
  sec    : Bool
  part   : BitVec 4
  entry  : Word
  arg    : Word
  seed   : Word
  ctr    : Word
  hint   : Nat
  walk   : List Nat
  pos    : Nat
  n      : Nat
  deriving DecidableEq, Repr

/-- A translation held in a buffer (R393, R394): its partition, the context it is tagged with (micro-TLB), the DVA and
the size (as a power of two) of the page, the leaf, whether it answers a walk made for the access that waits
(R395), and the range of keys as it stood when its walk began (R392). -/
structure TlbEnt where
  part : BitVec 4
  ctx  : Nat
  dva  : Nat
  bits : Nat
  leaf : Word
  fresh : Bool
  keylo : Nat
  keyhi : Nat
  deriving DecidableEq, Repr

/-- An armed edge-reversal task (R288): its counter's offset and the number of its tiles. Its edge list stands in the
scratchpad, where the hardware uses it. -/
structure Armed where
  off : Nat
  n   : Nat
  deriving DecidableEq, Repr

/-- An armed put (R284): its number, the words of its `putarm`, the context that armed it, and the record's fields. -/
structure ArmPut where
  num    : Nat
  words  : Word
  issuer : Nat
  gen    : Nat
  part   : BitVec 4
  src    : Nat
  lineB  : Nat
  lines  : Nat
  fmt    : BitVec 4
  dst    : Word
  ctr    : Option Nat
  local_ : Nat
  thresh : Nat
  deadline : Option Nat
  h      : BitVec 8
  tag    : BitVec 16
  cm     : Bool
  ln     : Bool
  rs     : Bool
  deriving DecidableEq, Repr

/-- A watch on a counter block (R286): its number, the block's physical address and its page, the threshold and the requester. -/
structure Watch where
  num    : Nat
  pa     : Nat
  page   : Page
  thresh : Nat
  who    : Nat
  deriving DecidableEq, Repr

/-- The retention state of a bank (R426). -/
inductive Ret where
  | active
  | retained
  | exiting (ready : Nat)
  deriving DecidableEq, Repr

/-- A bank's retention state and the cycle of the last access to it (R426). -/
structure BankSt where
  ret  : Ret
  last : Nat
  deriving DecidableEq, Repr

/-- The state of a core (chapters 2, 9, 10, 11, 19, 20, 22). `ic` holds the lines of the instruction cache and `icreq`
the lines that it has asked memory for (R85, R101); `considered` is the item that the core considered last: the cycle, the item's admission
number and its index (R374); `arrq` is the arrival queue of migrants (R183); `down` says that the core alone is out of service, between a reset of
its partition and its return (R429). -/
structure Core where
  portN  : PortQ
  portE  : PortQ
  portS  : PortQ
  portW  : PortQ
  fmt    : Vector (BitVec 7) 16
  bscl   : Vector W32 16
  eng    : Vector EngSt 6
  mx     : Mx
  wset   : Tbl W32
  dlg    : Server
  arrq   : List Nat
  claims : Nat
  ovf    : List Item
  down   : Bool
  utlb   : List TlbEnt
  ic     : Tbl (Option (BitVec 512))
  icreq  : List Nat
  armed  : List Armed
  armput : List ArmPut
  watches : List Watch
  runents : List Word
  bow    : BitVec 16
  considered : Nat × Nat × Nat
  bank   : Tbl BankSt
  retEn  : Bool
  retIdle : W32
  deriving DecidableEq, Repr

/-- A core after start-up: queues empty, engines idle, weights and accumulators +0 (R261, R271), bow activity bits set
(R304), bank formats and scales zero, retention off. -/
def Core.init : Core where
  portN := ⟨[], []⟩
  portE := ⟨[], []⟩
  portS := ⟨[], []⟩
  portW := ⟨[], []⟩
  fmt := Vector.replicate 16 0
  bscl := Vector.replicate 16 0
  eng := Vector.replicate 6 EngSt.init
  mx := Mx.init
  wset := []
  dlg := ⟨false, none, []⟩
  arrq := []
  claims := 0
  ovf := []
  down := false
  utlb := []
  ic := []
  icreq := []
  armed := []
  armput := []
  watches := []
  runents := []
  bow := BitVec.allOnes 16
  considered := (0, 0, 0)
  bank := []
  retEn := false
  retIdle := 0

/-! ## Clusters, quads, parents -/

/-- The state of a cluster: its port's translation buffer (R394), its error counts (Table 22.3), whether it is out of
service between a reset and its return (R428), and the physical core that serves as each of its logical cores, where the discovery flood of the
latest start recorded another map than the first 24 physical cores (R10, R431). -/
structure Cluster where
  ptlb  : List TlbEnt
  disc  : Nat
  unc   : Nat
  cor   : Nat
  down  : Bool
  phys  : List Nat
  deriving DecidableEq, Repr

/-- A cluster after start-up. -/
def Cluster.init : Cluster := ⟨[], 0, 0, 0, false, List.range 24⟩

/-- A pending request for a lease (R258, R259): the context, and whether its grant posts a word. -/
structure LReq where
  who   : Nat
  fresh : Bool
  deriving DecidableEq, Repr

/-- The lease of a quad's matrix array (R258, R259): holder, requests oldest first, child index of the last holder,
terms begun, the base cycle in which the term began, the matrix commands entered under it, and the count of commands that entered the
grid's order (R260). -/
structure Lease where
  holder : Option Nat
  reqs   : List LReq
  lastCh : Nat
  terms  : W32
  began  : Nat
  used   : Nat
  grid   : Nat
  deriving DecidableEq, Repr

/-- The lease at start-up: no term granted, the rotation as if child 3 had held it (R258). -/
def Lease.init : Lease := ⟨none, [], 3, 0, 0, 0, 0⟩

/-- What one participant brought to a restrict instance (R275, R276): its child index, its command with the source words that it read, and, once
the governing participant is known, its partials (the prefix it delivered; R278, R279). -/
structure Part where
  child : Nat
  cid   : Nat
  cmd   : Cmd
  parts : List W32
  deriving DecidableEq, Repr

/-- A restrict instance slot of a parent (R275): the number of the current instance, how many restricts each child has brought
to the slot, the participants of the current instance, and, once their partials have been combined, the one that governs and the
fault of the combination (R279). -/
structure RInst where
  num   : Nat
  cnt   : List Nat
  parts : List Part
  gov   : Option Nat
  fault : Option (BitVec 8 × Word)
  deriving DecidableEq, Repr

/-- A slot that no restrict has joined. -/
def RInst.init : RInst := ⟨0, [0, 0, 0, 0], [], none, none⟩

/-! ## Device -/

/-- A barrier instance (R198): phase, members, the contexts that have arrived in the phase, and the tick at which the phase began. The members and
arrivals are those of this device. -/
structure Bar where
  phase   : W32
  members : List Nat
  arrived : List Nat
  began   : Nat
  deriving DecidableEq, Repr

/-- A barrier instance that no context has joined. -/
def Bar.init : Bar := ⟨0, [], [], 0⟩

/-- A word on the message network or in an ingress buffer (R195, R411): sender, destination, whether the hardware sent
it, its place among the five words of a work item (0: not one of them; R377), the bow groups of its sender (R217), its place in send
order on the message network (R410), and whether it is the completion word of an engine command (R234). -/
structure NWord where
  src  : Nat
  dst  : Nat
  hw   : Bool
  v    : Word
  five : Nat
  grp  : BitVec 16
  n    : Nat
  cmd  : Bool
  deriving DecidableEq, Repr

/-- A hardware word that its agent cannot post yet, since 64 hardware words wait for its destination (R195), with the work item that counts as
posted with it (R377). -/
structure Held where
  by_ : HwAgent
  w   : NWord
  item : Option Item
  deriving DecidableEq, Repr

/-- A word on its way to a neighbour's queue (R30), with the bow groups of its sender (R217). -/
structure PWord where
  cid : Nat
  dir : Dir
  src : Nat
  v   : Word
  grp : BitVec 16
  deriving DecidableEq, Repr

/-- A word on its way to a downstream `qin` (R31), with the bow groups of its sender (R217). -/
structure QWord where
  src : Nat
  dst : Nat
  e   : QEntry
  grp : BitVec 16
  deriving DecidableEq, Repr

/-- A counter operation on its way (R211, R212). -/
inductive COpKind where
  | dec
  | set (n : W32)
  | flip (tile : W32)
  deriving DecidableEq, Repr

/-- A counter operation: sender (2^20 + a launch's admission number where the dispatcher sends it), the counter's core and
offset, what it does, the bow groups of its sender (R217), and its place in send order on the message network (R410). -/
structure COp where
  src  : Nat
  cid  : Nat
  off  : Nat
  kind : COpKind
  grp  : BitVec 16
  n    : Nat
  deriving DecidableEq, Repr

/-- A remote update on its way (R180), with its place in issue order on the device and the core on which it was issued. -/
structure Upd where
  src   : Nat
  owner : Nat
  at_   : Place
  n     : Nat
  op    : AmoOp
  v     : Word
  seq   : Nat
  by_   : Nat
  deriving DecidableEq, Repr

/-- A store that is performed at the home copy and not yet at another copy (R320): the context whose store or atomic it is, for which a
fence of that context waits (none: a write of an engine, a put, the host or the hardware, for which no fence waits; R328), with its number in
issue order; the core that made it (none: another device or the host); its bytes; and, for the lines of a put, the put's number (R283); and the key of its page. -/
structure Propag where
  src  : Option Nat
  seq  : Nat
  by_  : Option Nat
  put  : Option Nat
  key  : Option Nat
  loc  : Nat
  data : List Byte
  deriving DecidableEq, Repr

/-- A bow token (R216, R217): group, scope and its instance, starter, the cores still to visit, and the mark. -/
structure Token where
  grp    : Nat
  scope  : Nat
  inst   : Nat
  start  : Nat
  ring   : List Nat
  marked : Bool
  deriving DecidableEq, Repr

/-- A put on its way to its destination (R282, R283): the core whose link engine sent it (none: another device's), the other
device, the put, whether its issuer is secure, whether a source line's fault cut it short (R255), whether its first line has
been judged, how many of its pieces have landed, and its number. -/
structure PutMsg where
  cid   : Option Nat
  dev   : Nat
  p     : InPut
  sec   : Bool
  short : Bool
  judged : Bool
  pos   : Nat
  num   : Nat
  deriving DecidableEq, Repr

/-- Who asks a port for a translation (R393, R394): a context, with its number in the core's micro-TLB and what a trap of the waiting
access reports (Tables 7.2 and 8.6), or an engine of the core. -/
inductive Asker where
  | ctx (m tag : Nat) (ht : HomeTrap)
  | eng (e : Eng)
  deriving DecidableEq, Repr

/-- A request that a walk serves (R394): the partition, the table that the walk starts from and the range of keys, as they stood when it began (R392), the cluster whose port walks, the core and
who asks there, the DVA, and whether a walker has it (otherwise it waits for one of the 64). -/
structure Walk where
  part : BitVec 4
  root : Nat
  keylo : Nat
  keyhi : Nat
  cl   : Nat
  cid  : Nat
  who  : Asker
  dva  : Nat
  busy : Bool
  deriving DecidableEq, Repr

/-- An answer on its way (R393): the core, who asked there, and the translation, or the sub-cause of a walk without one (R391, R396). -/
structure Fill where
  cid : Nat
  who : Asker
  ent : TlbEnt
  bad : Option (BitVec 8)
  deriving DecidableEq, Repr

/-- A request waiting in the control network for a delegation queue (R190, R191), with its
place in send order on the message network (R410). -/
structure DReq where
  owner : Nat
  req   : Req
  n     : Nat
  deriving DecidableEq, Repr

/-- A context that waits for a full-empty state of a granule, in arrival order (R173). -/
inductive FeKind where
  | ldfk (d : Reg)
  | ldfc (d : Reg)
  | stfe (v : Word)
  | engEmpty (cid : Nat) (eng : Eng)
  | engFull (cid : Nat) (eng : Eng)
  deriving DecidableEq, Repr

/-- A waiter of a granule: the granule, what it waits to do, the word it accesses, the context (0 for an engine's; 1 once
an engine's wait is satisfied), the PC that follows its instruction, and what a trap of it reports (Tables 7.2 and 8.6). -/
structure FeWaiter where
  g    : Nat
  kind : FeKind
  at_  : Place
  who  : Nat
  npc  : Word
  info : Word
  instr : Word
  deriving DecidableEq, Repr

/-- An admitted launch (R369–R372): its record's fields, its numbers, the next item never emitted, items that returned
unemitted, items posted, whether it holds a pool entry, and whether the `tkset` of its completion counter has been applied (R370). -/
structure Launch where
  seq    : Nat
  lnum   : BitVec 16
  part   : BitVec 4
  cls    : BitVec 2
  sec    : Bool
  chn    : Bool
  hint   : Nat
  radius : Nat
  entry  : Word
  arg    : Word
  items  : Nat
  deadline : Option Nat
  seed   : Word
  ctr    : Word
  nextI  : Nat
  back   : List Nat
  posted : Nat
  pool   : Bool
  counted : Bool
  deriving DecidableEq, Repr

/-- A `lnch` that answered FULL and waits for a space notice (R371, R287). -/
structure SpaceWait where
  part : BitVec 4
  who  : Nat
  tag  : BitVec 8
  deriving DecidableEq, Repr

/-- A host launch ring (R381, Table 21.6): base, control, head, tail, and the link of its latest doorbell (R418). -/
structure Ring where
  base : Word
  ctl  : W32
  head : W32
  tail : W32
  link : Nat
  deriving DecidableEq, Repr

/-- A measurement log (R437): its entries and its chain value. -/
structure MLog where
  entries : List (List Byte)
  chain   : List Byte
  deriving DecidableEq, Repr

/-- A measurement log at start-up (R437). -/
def MLog.init : MLog := ⟨[], List.replicate 32 0⟩

/-- The state of a partition: the dispatcher's registers (Table 19.6), the translation registers (Table 20.3), the
routine table (chapter 9), Rogil mode, whether a write of 0 to it waits for the stores that its cores hold, and the access number from
which on stores are held (R322), the host's window (Table 21.6), the loaded image and the monitor's
fretboard image and entry (R354, R363), its measurement log, the next launch number, the class-0 records of the current window, its trusted keys by index
(R365),
whether a debugger is attached (R150, R402), the tick since which its stall clocks stand still (R403), and whether it is
contained until its reset (R427). -/
structure Partition where
  cols    : Nat
  ucores  : Nat
  secmask : Nat
  c0core  : Nat
  c0slots : Nat
  c0rate  : Nat
  shcap   : Nat
  ninv    : Nat
  nfull   : Nat
  nrate   : Nat
  c0seen  : Nat
  ring0   : Ring
  ring1   : Ring
  ptroot  : Nat
  keylo   : Nat
  keyhi   : Nat
  wdlim   : Nat
  routines : Tbl (Option Routine)
  compat  : Bool
  drain   : Bool
  cseq    : Nat
  win     : Word
  wsel    : Bool
  sigReq  : Bool
  keys    : Tbl Nat
  image   : List Byte
  mfret   : W32
  mentry  : Option Word
  log     : MLog
  lnum    : BitVec 16
  status  : BitVec 64
  dbg     : Bool
  frozen  : Option Nat
  held    : Bool
  deriving DecidableEq, Repr

/-- A partition that firmware has not configured. -/
def Partition.init : Partition where
  cols := 0
  ucores := 0
  secmask := 0
  c0core := 0
  c0slots := 0
  c0rate := 0
  shcap := 0
  ninv := 0
  nfull := 0
  nrate := 0
  c0seen := 0
  ring0 := ⟨0, 15, 0, 0, 0⟩
  ring1 := ⟨0, 15, 0, 0, 0⟩
  ptroot := 0
  keylo := 0
  keyhi := 0
  wdlim := 0
  routines := []
  compat := false
  drain := false
  cseq := 0
  win := 0
  wsel := false
  sigReq := false
  keys := []
  image := []
  mfret := 0
  mentry := none
  log := MLog.init
  lnum := 0
  status := 0
  dbg := false
  frozen := none
  held := false

/-- A layer's clock (R9, R435): cycles counted up to the tick `at_`, and the present rate in tenths of a GHz. -/
structure Clock where
  cyc  : Nat
  at_  : Nat
  rate : Nat
  deriving DecidableEq, Repr

/-- The boot state (R430–R434): the boot status register's fields, the two failed-start counts (R432), minimal mode,
whether the controller holds the device after three failed minimal starts, when the running start began, and the column
a minimal start uses (R433). -/
structure Boot where
  phase    : BitVec 8
  cause    : BitVec 8
  unit     : BitVec 7
  fails    : Nat
  minFails : Nat
  minimal  : Bool
  thr      : Bool
  held     : Bool
  began    : Nat
  column   : Nat
  deriving DecidableEq, Repr

/-- The slot table of a die (R407, R409): the owner of each of the 64 slots of every output port, and the table that
takes over at the next frame boundary, with the number of the frame in which it was first asked for. [DEDUCED: log 64] -/
structure SlotTab where
  own  : List (Option Nat)
  next : Option (List (Option Nat) × Nat)
  deriving DecidableEq, Repr

/-- Slot table of a die after start-up: every slot free. -/
def SlotTab.init : SlotTab := ⟨List.replicate 64 none, none⟩

/-- A budget (R412): tokens per window, the spill bit, and the tokens left in this window. -/
structure Budget where
  tok   : Nat
  spill : Bool
  left  : Nat
  deriving DecidableEq, Repr

/-- A request for memory bandwidth (R413): an access of a context, a remote update, or the next line of an engine's command. -/
inductive Asks where
  | acc (m seq : Nat)
  | upd (src seq : Nat)
  | eng (cid : Nat) (e : Eng)
  | block (m : Nat)
  deriving DecidableEq, Repr

/-- A request that waits at a site (R413): the site, the partition and class charged, the tokens it needs, whose it is, and the place of the site on
its way. -/
structure BReq where
  site : Nat
  part : Nat
  cls  : Nat
  n    : Nat
  who  : Asks
  pos  : Nat
  deriving DecidableEq, Repr

/-- What the model's schedule asks for next: that the device's next step be the next slot of the context at an MBA, or an
event. The list is the model's own: it stands for the choices that the manual leaves to timing, and for what the
outside world does to the device. [DESIGN CHOICE: log 1] -/
inductive Agenda where
  | slot (m : Nat)
  | ev (i : Instr)
  deriving DecidableEq, Repr

/-- The state of the device. [DESIGN CHOICE: log 16] -/
structure State where
  /-- The schedule (the model's own field). -/
  agenda : List Agenda
  /-- The context whose slot this is, by its home MBA (the model's own field). -/
  cur    : Nat
  /-- Steps taken so far (the model's own field: a stalled context is tried again only after something has happened). -/
  epoch  : Nat
  /-- The group in execution (R95, R98). -/
  grp    : Grp
  /-- Time in ticks since power-on. -/
  tick   : Nat
  /-- The clocks of the four layers. -/
  clk    : Vector Clock 4
  /-- Contexts by MBA. -/
  ctxs   : Tbl Context
  /-- Cores by CID. -/
  cores  : Tbl Core
  /-- Clusters by 64 × layer + number. -/
  clusters : Tbl Cluster
  /-- Leases by the CID of the quad's child 0. -/
  leases : Tbl Lease
  /-- Restrict instance slots by 4 × parent CID + (0 shape Q, 1 and 2 shape X). -/
  rinst  : Tbl RInst
  /-- Every byte of the device's memories: HBM4E, scratchpads and code spaces, laid out as Config says. -/
  mem    : List Host.Cell
  /-- Under which key blocks of HBM4E lie encrypted, by location ÷ 16; nothing for a block that no access under a key has written. -/
  keyed  : Tbl KeyTag
  /-- Poisoned 64-bit words, by location ÷ 8. -/
  poison : List Nat
  /-- Empty full-empty granules, by location ÷ 16. -/
  empties : List Nat
  /-- Waiters for full-empty states, in arrival order. -/
  feq    : List FeWaiter
  /-- Words on the message network. -/
  net    : List NWord
  /-- Words in ingress buffers. -/
  ingress : List NWord
  /-- Hardware words that their agents cannot post yet (R195). -/
  held   : List Held
  /-- Messages sent on the message network so far (R410). -/
  mseq   : Nat
  /-- Words between neighbours. -/
  pnet   : List PWord
  /-- Words on their way to a `qin`. -/
  qnet   : List QWord
  /-- Counter operations on their way. -/
  cops   : List COp
  /-- Remote updates on their way. -/
  reds   : List Upd
  /-- Stores not yet propagated to every copy. -/
  props  : List Propag
  /-- Delegation requests in the control network. -/
  dreqs  : List DReq
  /-- Bow tokens. -/
  tokens : List Token
  /-- Puts on their way. -/
  puts   : List PutMsg
  /-- Page-table walks in flight. -/
  walks  : List Walk
  /-- Micro-TLB fills on their way. -/
  fills  : List Fill
  /-- Barrier instances by (scope × 2^20 + instance) × 64 + id. -/
  bars   : Tbl Bar
  /-- Partitions. -/
  parts  : Tbl Partition
  /-- The pending-launch store. -/
  store  : List Launch
  /-- Next admission sequence number. -/
  lseq   : Nat
  /-- Emitted items on their walks. -/
  items  : List Item
  /-- `lnch`es waiting for a space notice. -/
  spaceq : List SpaceWait
  /-- The dispatcher's next emission slot of its frame of 64. -/
  eslot  : Nat
  /-- Front-door frames discarded (R380). -/
  fdrops : Nat
  /-- The VLAN table (R380): valid, partition, secure world permitted, packed as the entry's six bits. -/
  vlans  : Tbl (BitVec 6)
  /-- Slot tables by die: 0–3 base, 4 layer 1, 5 crown. -/
  slots  : Tbl SlotTab
  /-- Budgets by site, partition and class. -/
  budgets : Tbl Budget
  /-- Tokens served in this window, by site. -/
  served : Tbl Nat
  /-- Requests that wait for bandwidth, in arrival order (R413). -/
  bwait  : List BReq
  /-- The partition last served by spill, by site (R413). -/
  spilt  : Tbl Nat
  /-- Packets dropped, by die (R415): 0–3 base, 4 layer 1, 5 crown. -/
  drops  : Tbl Nat
  /-- The budget window last begun, in µs of global time. -/
  window : Nat
  /-- The class-0 rate window last begun, in µs of global time. -/
  rwindow : Nat
  /-- PCI Express links 0 and 1 up. -/
  link0  : Bool
  link1  : Bool
  /-- Skaolo flits sent again, by link (R419). -/
  retries : Tbl Nat
  /-- This device's number in its pod (R282). -/
  devNum : Nat
  /-- Boot state. -/
  boot   : Boot
  /-- The device measurement log (R437). -/
  dlog   : MLog
  /-- Attestation reports and notices that have left the device for its host or its peers, oldest first. -/
  outbox : List (List Byte)
  /-- Accesses issued so far (orders the stores of sibling contexts; R321). -/
  aseq   : Nat
  /-- Loads that ended with status 6 (R364). -/
  loads  : Nat
  /-- Puts sent so far (tells the lines of one put from those of another; R283). -/
  pseq   : Nat
  deriving DecidableEq, Repr

/-- Where a step ends without a next state. -/
inductive Fault where
  /-- Raised by `step` when the schedule names a context or a core that the mesh does not have (R16). Safe: the device has
  no such agent, so no claim about the device is about such a step. -/
  | absentAgent (id : Nat)
  deriving DecidableEq, Repr

/-- Why a step is refused. -/
inductive Refusal where
  /-- Raised by `exec` for an instruction that has no meaning yet. Safe: nothing is claimed of it. -/
  | notModelled (mnemonic : String)
  deriving DecidableEq, Repr

/-- The device with power on and no start made (R430): every context unspawned, every memory as an unlisted byte reads,
every granule full (R171). [DESIGN CHOICE: log 4, 8] -/
def State.reset : State where
  agenda := []
  cur := 0
  epoch := 0
  grp := Grp.none
  tick := 0
  clk := #v[⟨0, 0, 27⟩, ⟨0, 0, 34⟩, ⟨0, 0, 41⟩, ⟨0, 0, 48⟩]
  ctxs := []
  cores := []
  clusters := []
  leases := []
  rinst := []
  mem := []
  keyed := []
  poison := []
  empties := []
  feq := []
  net := []
  ingress := []
  held := []
  mseq := 0
  pnet := []
  qnet := []
  cops := []
  reds := []
  props := []
  dreqs := []
  tokens := []
  puts := []
  walks := []
  fills := []
  bars := []
  parts := []
  store := []
  lseq := 0
  items := []
  spaceq := []
  eslot := 0
  fdrops := 0
  vlans := []
  slots := []
  budgets := []
  served := []
  bwait := []
  spilt := []
  drops := []
  window := 0
  rwindow := 0
  link0 := true
  link1 := true
  retries := []
  devNum := 0
  boot := ⟨0, 0, 0, 0, 0, false, false, false, 0, 0⟩
  dlog := MLog.init
  outbox := []
  aseq := 0
  loads := 0
  pseq := 0

end Sys2Proof.Machine
end

