-- ==== Sys2Proof/Machine/Table.lean ====
section
/-! DEFINITION. Association tables and the device's one memory: lookup, update, and the canonical form that makes equal
memories equal data. -/

namespace Sys2Proof.Machine

/-- What a table holds under `k`; `d` where it lists nothing. -/
def tget {α : Type} (d : α) : Tbl α → Nat → α
  | [], _ => d
  | (j, v) :: t, k => if j = k then v else tget d t k

/-- A table with `v` under `k`. -/
def tset {α : Type} : Tbl α → Nat → α → Tbl α
  | [], k, v => [(k, v)]
  | (j, w) :: t, k, v =>
    if j = k then (k, v) :: t
    else if k < j then (k, v) :: (j, w) :: t
    else (j, w) :: tset t k v

/-- The byte at a location: zero where memory lists nothing. [DESIGN CHOICE: log 6] -/
def memGet : List Host.Cell → Nat → Byte
  | [], _ => 0
  | (a, v) :: m, k => if a = k then v else memGet m k

/-- Memory without an entry at `k`. -/
def memDel : List Host.Cell → Nat → List Host.Cell
  | [], _ => []
  | (a, v) :: m, k => if a = k then m else if k < a then (a, v) :: m else (a, v) :: memDel m k

/-- Memory with a listed byte at `k`. -/
def memIns : List Host.Cell → Nat → Byte → List Host.Cell
  | [], k, v => [(k, v)]
  | (a, w) :: m, k, v =>
    if a = k then (k, v) :: m
    else if k < a then (k, v) :: (a, w) :: m
    else (a, w) :: memIns m k v

/-- Memory after a byte write, in canonical form: writing what an unlisted location reads as removes the entry. -/
def memPut (m : List Host.Cell) (k : Nat) (v : Byte) : List Host.Cell :=
  if v = 0 then memDel m k else memIns m k v

/-- The canonical form: locations strictly rising from `lo`, no entry that reads as an unlisted one. -/
def memWfFrom : Nat → List Host.Cell → Bool
  | _, [] => true
  | lo, (a, v) :: m => decide (lo ≤ a) && decide (v ≠ 0) && memWfFrom (a + 1) m

/-- The canonical form of memory. -/
def memWf (m : List Host.Cell) : Bool := memWfFrom 0 m

/-- `n` bytes from a location upwards. -/
def memBytes (m : List Host.Cell) (loc : Nat) : Nat → List Byte
  | 0 => []
  | n + 1 => memGet m loc :: memBytes m (loc + 1) n

/-- Memory after bytes are written from a location upwards. -/
def memPutList (m : List Host.Cell) (loc : Nat) : List Byte → List Host.Cell
  | [] => m
  | b :: bs => memPutList (memPut m loc b) (loc + 1) bs

/-- How a block of HBM4E lies encrypted, where an access under a key has written it. -/
def tagOf (t : Tbl KeyTag) (b : Nat) : Option KeyTag := (t.find? fun x => x.1 = b).map (·.2)

/-- The byte that an access under a key finds at a location (Table 1.5): what was written there under that key; an access without a key, and
a block that no access under a key has written, give the byte as it stands. -/
def keyGet (m : List Host.Cell) (t : Tbl KeyTag) (key : Option Nat) (loc : Nat) : Byte :=
  match key, tagOf t (loc / 16) with
  | some k, some g =>
    if g.key = k then
      if g.kept.getLsbD (loc % 16) then memGet m loc else Config.undeciphered k k g.since loc []
    else Config.undeciphered k g.key g.since loc (memBytes m (loc / 16 * 16) 16)
  | _, _ => memGet m loc

/-- `n` bytes from a location upwards, as an access under a key finds them. -/
def keyBytes (m : List Host.Cell) (t : Tbl KeyTag) (key : Option Nat) (loc : Nat) : Nat → List Byte
  | 0 => []
  | n + 1 => keyGet m t key loc :: keyBytes m t key (loc + 1) n

/-- The bytes of block `b` that a range holds. -/
def bytesOfBlock (b loc n : Nat) : BitVec 16 :=
  let lo := max loc (16 * b) - 16 * b
  let hi := min (loc + n) (16 * b + 16) - 16 * b
  BitVec.ofNat 16 ((2 ^ (hi - lo) - 1) * 2 ^ lo)

/-- A block's record after a write under key `k`, in step `e`, of some of its bytes. -/
def KeyTag.write (g : Option KeyTag) (k e : Nat) (bits : BitVec 16) : KeyTag :=
  match g with
  | none => ⟨k, BitVec.allOnes 16, e⟩
  | some g => if g.key = k then { g with kept := g.kept ||| bits } else ⟨k, bits, e⟩

/-- The records of the blocks of a range after a write of it under key `k`. -/
def keyPut (t : Tbl KeyTag) (k e loc n : Nat) : List Nat → Tbl KeyTag
  | [] => t
  | b :: l => keyPut (tset t b (KeyTag.write (tagOf t b) k e (bytesOfBlock b loc n))) k e loc n l

/-- The little-endian value of bytes (R1). -/
def leVal : List Byte → Nat
  | [] => 0
  | b :: bs => b.toNat + 256 * leVal bs

/-- The `n` little-endian bytes of a value (R1). -/
def leBytes : Nat → Nat → List Byte
  | 0, _ => []
  | n + 1, v => BitVec.ofNat 8 v :: leBytes n (v / 256)

/-- A set of numbers as a rising list: membership. -/
def nmem (l : List Nat) (k : Nat) : Bool := l.elem k

/-- A set of numbers as a rising list: insertion. -/
def nins : List Nat → Nat → List Nat
  | [], k => [k]
  | a :: l, k => if a = k then a :: l else if k < a then k :: a :: l else a :: nins l k

/-- A set of numbers as a rising list: removal. -/
def ndel : List Nat → Nat → List Nat
  | [], _ => []
  | a :: l, k => if a = k then l else a :: ndel l k

/-- Element `i` of a list, or `d`. -/
def nth {α : Type} (d : α) : List α → Nat → α
  | [], _ => d
  | a :: _, 0 => a
  | _ :: l, i + 1 => nth d l i

/-- A list without its element `i`. -/
def dropAt {α : Type} : List α → Nat → List α
  | [], _ => []
  | _ :: l, 0 => l
  | a :: l, i + 1 => a :: dropAt l i

/-- A list with element `i` replaced. -/
def setAt {α : Type} : List α → Nat → α → List α
  | [], _, _ => []
  | _ :: l, 0, v => v :: l
  | a :: l, i + 1, v => a :: setAt l i v

/-- The numbers from `a` up, `n` of them. -/
def upFrom (a : Nat) : Nat → List Nat
  | 0 => []
  | n + 1 => a :: upFrom (a + 1) n

/-- The blocks of 16 bytes that a range touches. -/
def blockNums (loc n : Nat) : List Nat := if n = 0 then [] else upFrom (loc / 16) ((loc + n - 1) / 16 + 1 - loc / 16)

end Sys2Proof.Machine
end

