-- ==== Sys2Proof/Machine/Topo.lean ====
section
/-! DEFINITION. Identities: cores, contexts, clusters, quads, dies, channels and scopes (chapter 1). -/

namespace Sys2Proof.Machine

open Sys2Proof.Config

/-- Layer of a CID (Table 1.2). -/
def cidLayer (c : Nat) : Nat := nbits c 15 14
/-- x of a CID (Table 1.2). -/
def cidX (c : Nat) : Nat := nbits c 13 8
/-- y of a CID (Table 1.2). -/
def cidY (c : Nat) : Nat := nbits c 7 3
/-- The CID of a core (Table 1.2). -/
def mkCid (l x y : Nat) : Nat := l * 2 ^ 14 + x * 2 ^ 8 + y * 2 ^ 3

/-- A CID is valid when x and y lie within the mesh of its layer and bits [2:0] are zero; a one above bit 15 makes it
invalid (R16). -/
def cidValid (minimal : Bool) (c : Nat) : Bool :=
  c < 2 ^ 16 && c % 8 = 0 && cidX c < meshW minimal (cidLayer c) && cidY c < meshH minimal (cidLayer c)

/-- The core of an MBA (Table 1.3). -/
def mbaCid (m : Nat) : Nat := m / 16
/-- The context of an MBA (Table 1.3). -/
def mbaCtx (m : Nat) : Nat := m % 16

/-- An MBA is valid when its CID is and its context number is below the layer's count (R16). -/
def mbaValid (minimal : Bool) (m : Nat) : Bool :=
  m < 2 ^ 20 && cidValid minimal (mbaCid m) && mbaCtx m < contexts (cidLayer (mbaCid m))

/-- Cluster number of a core within its layer (R11). -/
def cidCluster (c : Nat) : Nat := cidX c / 6 + clusterW (cidLayer c) * (cidY c / 4)
/-- Cluster core index (R11). -/
def cidCci (c : Nat) : Nat := cidX c % 6 + 6 * (cidY c % 4)
/-- Key of a core's cluster in the table of clusters. -/
def clKey (c : Nat) : Nat := 64 * cidLayer c + cidCluster c
/-- The core with a cluster core index in a cluster (R11). -/
def clusterCore (layer cl cci : Nat) : Nat :=
  mkCid layer (6 * (cl % clusterW layer) + cci % 6) (4 * (cl / clusterW layer) + cci / 6)
/-- The core with index `cci` in the cluster of core `c` (R37). -/
def sibling (c cci : Nat) : Nat := clusterCore (cidLayer c) (cidCluster c) cci

/-- Child index within the quad (R12). -/
def cidChild (c : Nat) : Nat := cidX c % 2 + 2 * (cidY c % 2)
/-- The core with child index 0 of a core's quad (R12). -/
def quadBase (c : Nat) : Nat := mkCid (cidLayer c) (cidX c / 2 * 2) (cidY c / 2 * 2)
/-- The core with child index `k` of a quad (R12). -/
def quadCore (q k : Nat) : Nat := mkCid (cidLayer q) (cidX q / 2 * 2 + k % 2) (cidY q / 2 * 2 + k / 2)
/-- The parent of a core of layers 0 to 2 (R12). -/
def parentOf (c : Nat) : Nat := mkCid (cidLayer c + 1) (cidX c / 2) (cidY c / 2)
/-- Child `k` of a core of layers 1 to 3 (R12). -/
def childOf (p k : Nat) : Nat := mkCid (cidLayer p - 1) (2 * cidX p + k % 2) (2 * cidY p + k / 2)

/-- Base die of a base core (R13). -/
def baseDie (c : Nat) : Nat := cidX c / 24 + 2 * (cidY c / 16)
/-- A die of the slot allocators: the base dies, then the layer-1 die, then the crown die (R409). -/
def dieOf (c : Nat) : Nat := match cidLayer c with | 0 => baseDie c | 1 => 4 | _ => 5

/-- Corner index of a channel core (R17). -/
def cornerOf (c : Nat) : Option Nat :=
  if cidLayer c = 0 then
    match cidCci c with | 0 => some 0 | 5 => some 1 | 18 => some 2 | 23 => some 3 | _ => none
  else none
/-- Cluster core index of corner `k` (R17). -/
def cornerCci : Nat → Nat | 0 => 0 | 1 => 5 | 2 => 18 | _ => 23

/-- The channel that holds a physical address: PA[19:12] (R19), or PA[16:12] in minimal mode (R433). -/
def paChannel (minimal : Bool) (pa : Nat) : Nat := if minimal then nbits pa 16 12 else nbits pa 19 12

/-- The channel core of a channel (R18; R433 in minimal mode, where core j serves channels j and j + 16). -/
def channelCore (minimal : Bool) (g : Nat) : Nat :=
  if minimal then
    let j := g % 16
    clusterCore 0 ((j / 4) % 2 + 8 * (j / 8)) (cornerCci (j % 4))
  else
    let die := g / 64
    let r := g % 64 / 4
    let cx := 4 * (die % 2) + r % 4
    let cy := 4 * (die / 2) + r / 4
    clusterCore 0 (cx + 8 * cy) (cornerCci (g % 4))

/-- The owner of a byte of the device's memories: the bank's core, or the channel core (R175, R328). -/
def ownerOfLoc (minimal : Bool) (loc : Nat) : Nat :=
  if isHbm loc then channelCore minimal (paChannel minimal loc) else locCid loc

/-- The instance of a scope that holds a context (Table 1.6, R22). Die scope on an upper layer is layer scope. -/
def scopeInst (scope m : Nat) : Nat :=
  let c := mbaCid m
  match scope with
  | 0 => m
  | 1 => c
  | 2 => quadBase c
  | 3 => clKey c
  | 4 => if cidLayer c = 0 then baseDie c else cidLayer c
  | 5 => cidLayer c
  | _ => 0

/-- The scope code an instruction names: die on an upper layer reads as layer (R22). -/
def scopeNorm (scope m : Nat) : Nat := if scope = 4 ∧ cidLayer (mbaCid m) ≠ 0 then 5 else scope

/-- Whether a core lies within the instance of a scope that holds context `m`; no core lies within context scope
(R328). -/
def coreInScope (scope m c : Nat) : Bool :=
  match scopeNorm scope m with
  | 0 => false
  | 1 => c = mbaCid m
  | 2 => quadBase c = quadBase (mbaCid m)
  | 3 => clKey c = clKey (mbaCid m)
  | 4 => cidLayer c = 0 && baseDie c = baseDie (mbaCid m)
  | 5 => cidLayer c = cidLayer (mbaCid m)
  | _ => true

/-- The smallest scope that holds two cores (R178). -/
def smallestScope (m c : Nat) : Nat :=
  if coreInScope 1 m c then 1 else if coreInScope 2 m c then 2 else if coreInScope 3 m c then 3
  else if coreInScope 4 m c then 4 else if coreInScope 5 m c then 5 else 6

/-- Every core of a layer's mesh in ascending CID. -/
def layerCores (minimal : Bool) (l : Nat) : List Nat :=
  (upFrom 0 (meshW minimal l)).flatMap fun x => (upFrom 0 (meshH minimal l)).map fun y => mkCid l x y

/-- The cores of a scope's instance in ascending CID (R216). -/
def scopeCores (minimal : Bool) (scope m : Nat) : List Nat :=
  match scopeNorm scope m with
  | 1 => [mbaCid m]
  | 2 => let q := quadBase (mbaCid m); [quadCore q 0, quadCore q 2, quadCore q 1, quadCore q 3]
  | 6 => (upFrom 0 4).flatMap (layerCores minimal)
  | sc => (layerCores minimal (cidLayer (mbaCid m))).filter (coreInScope sc m)

/-- Manhattan distance of two cores of one layer (R373). -/
def hops (a b : Nat) : Nat :=
  (max (cidX a) (cidX b) - min (cidX a) (cidX b)) + (max (cidY a) (cidY b) - min (cidY a) (cidY b))

/-- The neighbour that a port faces (R10), or none at the mesh edge (R30). -/
def neighbour (minimal : Bool) (c : Nat) : Dir → Option Nat
  | .north => if cidY c + 1 < meshH minimal (cidLayer c) then some (mkCid (cidLayer c) (cidX c) (cidY c + 1)) else none
  | .east => if cidX c + 1 < meshW minimal (cidLayer c) then some (mkCid (cidLayer c) (cidX c + 1) (cidY c)) else none
  | .south => if 0 < cidY c then some (mkCid (cidLayer c) (cidX c) (cidY c - 1)) else none
  | .west => if 0 < cidX c then some (mkCid (cidLayer c) (cidX c - 1) (cidY c)) else none

/-- The side of the neighbour at which a word sent through a port arrives. -/
def opposite : Dir → Dir
  | .north => .south | .east => .west | .south => .north | .west => .east

/-- Number of an engine (R223). -/
def engNum : Eng → Nat
  | .vector => 0 | .copy => 1 | .global => 2 | .matrix => 3 | .pyramid => 4 | .link => 5

/-- Whether a core of a layer has an engine (Table 9.1). -/
def engPresent (layer : Nat) : Eng → Bool
  | .vector | .copy | .pyramid => true
  | .global | .matrix | .link => layer = 0

end Sys2Proof.Machine
end

