-- ==== Sys2Proof/Machine/Ops.lean ====
section
/-! DEFINITION. The named operations over the device's state: parts of it, time, words on the networks, the registers of
Table 2.1, taking a trap, and how an instruction ends. -/

namespace Sys2Proof.Machine

open Sys2Proof.Config

/-! ## Parts of the state -/

/-- A context that nothing has started: its `ctxid` is its number (Table 2.5). -/
def Context.fresh (m : Nat) : Context := { Context.init with ctxid := BitVec.ofNat 8 (m % 16) }
/-- The context at an MBA. -/
def State.ctx (s : State) (m : Nat) : Context := tget (Context.fresh m) s.ctxs m
/-- Replaces the context at an MBA. -/
def State.setCtx (s : State) (m : Nat) (c : Context) : State := { s with ctxs := tset s.ctxs m c }
/-- Changes the context at an MBA. -/
def State.modCtx (s : State) (m : Nat) (f : Context → Context) : State := s.setCtx m (f (s.ctx m))
/-- The core with a CID. -/
def State.core (s : State) (c : Nat) : Core := tget Core.init s.cores c
/-- Replaces the core with a CID. -/
def State.setCore (s : State) (c : Nat) (k : Core) : State := { s with cores := tset s.cores c k }
/-- Changes the core with a CID. -/
def State.modCore (s : State) (c : Nat) (f : Core → Core) : State := s.setCore c (f (s.core c))
/-- A cluster by its key. -/
def State.cluster (s : State) (k : Nat) : Cluster := tget Cluster.init s.clusters k
/-- Changes a cluster. -/
def State.modCluster (s : State) (k : Nat) (f : Cluster → Cluster) : State :=
  { s with clusters := tset s.clusters k (f (s.cluster k)) }
/-- The lease of a quad, by the CID of its child 0. -/
def State.lease (s : State) (q : Nat) : Lease := tget Lease.init s.leases q
/-- Changes a quad's lease. -/
def State.modLease (s : State) (q : Nat) (f : Lease → Lease) : State := { s with leases := tset s.leases q (f (s.lease q)) }
/-- A context is halted by a debugger, or by `halt` (R150, R402). -/
def Run.isHalted : Run → Bool
  | .halted _ => true
  | _ => false
/-- A request for a translation is a context's. -/
def Asker.isCtx (a : Asker) (m : Nat) : Bool := match a with | .ctx n _ _ => n = m | .eng _ => false
/-- A partition. -/
def State.part (s : State) (p : Nat) : Partition := tget Partition.init s.parts p
/-- Changes a partition. -/
def State.modPart (s : State) (p : Nat) (f : Partition → Partition) : State :=
  { s with parts := tset s.parts p (f (s.part p)) }
/-- The context whose slot this is. -/
def State.me (s : State) : Context := s.ctx s.cur
/-- Changes the context whose slot this is. -/
def State.modMe (s : State) (f : Context → Context) : State := s.modCtx s.cur f
/-- Whether the mesh is the minimal one (R433). -/
def State.minimal (s : State) : Bool := s.boot.minimal

/-- An engine of a core. -/
def State.eng (s : State) (c : Nat) (e : Eng) : EngSt := (s.core c).eng.getD (engNum e) EngSt.init
/-- Changes an engine of a core. -/
def State.modEng (s : State) (c : Nat) (e : Eng) (f : EngSt → EngSt) : State :=
  s.modCore c fun k => { k with eng := k.eng.setIfInBounds (engNum e) (f (k.eng.getD (engNum e) EngSt.init)) }

/-! ## Where a thread runs (R182–R184) -/

/-- The host core of a context's thread while a host has it. -/
def Context.hosted (c : Context) : Option (Nat × Nat) :=
  match c.away with
  | some a => match a.phase with | .hosted n => some (a.host, n) | _ => none
  | none => none
/-- Whether a context's thread runs as a migrant. -/
def Context.migrant (c : Context) : Bool := c.hosted.isSome
/-- The core on which the thread of context `m` runs. -/
def State.hereOf (s : State) (m : Nat) : Nat := match (s.ctx m).hosted with | some (h, _) => h | none => mbaCid m
/-- The core on which the current thread runs. -/
def State.here (s : State) : Nat := s.hereOf s.cur
/-- The context number of that core that the current thread occupies. -/
def State.hereCtx (s : State) : Nat := match s.me.hosted with | some (_, n) => n | none => mbaCtx s.cur
/-- Layer of the core on which the current thread runs. -/
def State.layer (s : State) : Nat := cidLayer s.here

/-! ## Time (R9, R24, R50, R435) -/

/-- Cycles of a layer's clock since the end of start-up. -/
def State.cycles (s : State) (l : Nat) : Nat :=
  let c := s.clk.getD l ⟨0, 0, 1⟩
  c.cyc + (s.tick - c.at_) / period c.rate
/-- Global time in nanoseconds. -/
def State.gtime (s : State) : Nat := s.tick * 10 / tickPer10ns
/-- Ticks of a number of nanoseconds, rounded up. -/
def tickOfNs (ns : Nat) : Nat := cdiv (ns * tickPer10ns) 10

/-! ## How an instruction ends -/

/-- Why an instruction does not complete: a trap; a wait, after which it is tried again from its start (R29, R51); a read
of an empty port, which keeps its place in the port's order (R30); a missed translation, or one to be walked anew after
the cached leaf is dropped (R393, R395); an access to a bank in retention (R426); a line of code that is missing; a trap
whose `tpc` is not the group's PC (R153); a state of its own that it leaves behind; the mute in the way of its read of
`qin` (R219); bandwidth that a block still needs, with the pieces of it that have been paid for and the budgets as they then stand (R412, R413). -/
inductive Stop where
  | trap (t : Trap)
  | wait (k : WaitKind)
  | port (d : Dir)
  | tlb (dva : Nat) (info : Word) (drop : Bool)
  | bank (cid n : Nat)
  | line (n : Nat)
  | trapPc (t : Trap) (pc : Word)
  | hold
  | mute
  | unpaid (window : Nat) (budgets : Tbl Budget) (served : Tbl Nat) (bwait : List BReq) (spilt : Tbl Nat) (paid : Nat)
  deriving DecidableEq, Repr

/-- The effect of an instruction on the device. -/
abbrev M := EStateM Stop State

/-- Raises a trap with a cause and a `tinfo` (R4, R230). -/
def raise {α : Type} (cause : Nat) (tinfo : Nat) : M α := throw (.trap ⟨BitVec.ofNat 8 cause, BitVec.ofNat 64 tinfo⟩)
/-- Waits (R51). -/
def stall {α : Type} (k : WaitKind) : M α := throw (.wait k)
/-- The issuing context. -/
def me : M Context := do return (← get).me
/-- Changes the issuing context. -/
def modMe (f : Context → Context) : M Unit := modify fun s => s.modMe f
/-- Raises a trap where a condition holds. -/
def raiseIf (p : Bool) (cause : Nat) (tinfo : Nat) : M Unit := if p then raise cause tinfo else pure ()
/-- Waits where a condition holds. -/
def stallIf (p : Bool) (k : WaitKind) : M Unit := if p then stall k else pure ()
/-- Raises migrant-restriction in a migrant (R185). -/
def noMigrant : M Unit := do
  let s ← get
  raiseIf s.me.migrant 0x10 s.grp.instr.toNat
/-- A migrant that names register 24–30 in any field raises migrant-restriction before anything else (R33). -/
def fields (rs : List Reg) : M Unit := do
  let s ← get
  raiseIf (s.me.migrant && rs.any fun r => 24 ≤ r.toNat && r.toNat ≤ 30) 0x10 s.grp.instr.toNat
/-- The instruction is reserved to context 0 and to supervisor mode (R193). -/
def privileged : M Unit := do
  let s ← get
  raiseIf (!s.me.sup && mbaCtx s.cur != 0) 0x06 s.grp.instr.toNat

/-! ## Words on the networks (R30–R32, R194, R195, R410, R411) -/

/-- The five-word counts of a work item and the sender's rotation share one number: sender, and the place of the last
admitted word among its five (0: none is under way). [DEDUCED: log 83] -/
def rotOf (src five : Nat) : Nat := src + 2 ^ 20 * (if five = 5 then 0 else five)

/-- The next sender in rotation by ascending MBA among those with a word waiting (R195). -/
def nextSender (rot : Nat) (l : List NWord) : Option Nat :=
  if 2 ^ 20 ≤ rot then some (rot % 2 ^ 20)
  else
    let srcs := l.map (·.src)
    match (srcs.filter (rot < ·)).min? with
    | some a => some a
    | none => srcs.min?

/-- The word of a sender that may be admitted next: while the five words of a work item are under way, the next of them (R377). -/
def nextWord (l : List NWord) (rot dst src : Nat) : Option NWord :=
  l.find? fun w => w.dst = dst && w.src = src && (decide (rot < 2 ^ 20) || decide (w.five = rot / 2 ^ 20 + 1))

/-- A waiting `recvt` whose cycle is over before the word that now comes finds its time over (R196). -/
def Context.lateRcv (c : Context) (now : Nat) : Option Rcv :=
  c.rcv.map fun r =>
    if decide (c.mbx.length ≤ (c.pops.filter (·.1 = 30)).length) && decide (r.stop < now) then { r with expired := true } else r

/-- A mailbox with room admits one waiting word of its ingress buffer (R195). -/
def admitWord (s : State) (m : Nat) : State :=
  let c := s.ctx m
  if 16 ≤ c.mbx.length then s
  else
    match nextSender c.rot (s.ingress.filter (·.dst = m)) with
    | none => s
    | some src =>
      match nextWord s.ingress c.rot m src with
      | none => s
      | some w =>
        { s with ingress := s.ingress.erase w }.setCtx m
          { c with mbx := c.mbx ++ [MWord.mk w.src w.hw w.v w.five], rot := rotOf src w.five,
                   rcv := c.lateRcv (s.cycles (cidLayer (mbaCid m))) }

/-- A mailbox with room admits up to `n` words that wait for it (R195). -/
def admitWords (m : Nat) : (n : Nat) → State → State
  | 0, s => s
  | n + 1, s => admitWords m n (admitWord s m)

/-- The MBA under which a core's hardware sends (R195). -/
def hwMba (cid : Nat) : Nat := 16 * cid + 15

/-- Hardware words of one destination that are not yet in its mailbox. -/
def hwWaiting (s : State) (dst : Nat) : Nat :=
  (s.net.filter fun w => w.hw && w.dst = dst).length + (s.ingress.filter fun w => w.hw && w.dst = dst).length

/-- A word goes out on the message network, in its place in send order (R410). -/
def putOnNet (s : State) (w : NWord) : State := { s with net := s.net ++ [{ w with n := s.mseq }], mseq := s.mseq + 1 }

/-- A hardware word to a destination must wait: 64 wait for it already (R195). -/
def mustHold (s : State) (dst : Nat) : Bool := decide (64 ≤ hwWaiting s dst) || s.held.any (fun h => h.w.dst = dst)

/-- An agent is an engine, whose words are completion words (R234). -/
def HwAgent.isEngine : HwAgent → Bool
  | .engine .. => true
  | _ => false

/-- An agent of a core's hardware posts a word (R194, R195): while 64 hardware words wait for the destination, the agent keeps it. `five` is its
place among the five words of a work item, `it` the item that counts as posted with it. -/
def postWith (s : State) (a : HwAgent) (cid dst : Nat) (v : Word) (five : Nat) (it : Option Item) : State :=
  let w : NWord := ⟨hwMba cid, dst, true, v, five, 0, 0, a.isEngine⟩
  if mustHold s dst then { s with held := s.held ++ [⟨a, w, it⟩] } else putOnNet s w

/-- An agent of a core's hardware posts a word with which no item counts. -/
def postAs (s : State) (a : HwAgent) (cid dst : Nat) (v : Word) (five : Nat) : State := postWith s a cid dst v five none

/-- Posts a hardware word from the hardware of a core (R194, R195). -/
def postHw (s : State) (cid dst : Nat) (v : Word) : State := postAs s (.core cid) cid dst v 0

/-- An agent waits to post a word: it does nothing further (R195). -/
def hwBusy (s : State) (a : HwAgent) : Bool := s.held.any (·.by_ = a)

/-- A core is out of service, with its cluster or alone (R415, R428, R429). -/
def State.downAt (s : State) (cid : Nat) : Bool := (s.cluster (clKey cid)).down || (s.core cid).down

/-- Words of one core that hold a credit of a destination core (R411). -/
def creditsUsed (s : State) (src dst : Nat) : Nat :=
  let f := fun w : NWord => !w.hw && mbaCid w.src = src && mbaCid w.dst = dst
  (s.net.filter f).length + (s.ingress.filter f).length
    + (s.cops.filter fun o => mbaCid o.src = src && o.cid = dst).length
    + (s.dreqs.filter fun r => mbaCid r.req.from_ = src && r.owner = dst).length

/-- A typed hardware word: type in [63:56] over a payload (Table 8.2). -/
def hwWord (type payload : Nat) : Word := BitVec.ofNat 64 (type * 2 ^ 56 + payload)

/-- The destination-reset notice for a word to a context of a cluster that is being reset (R415, Table 21.5). -/
def resetNotice (dst : Nat) : Word := hwWord 0x0D (2 ^ 32 + mbaCid dst * 2 ^ 16 + mbaCtx dst)

/-- A member context of bow groups acts: its core's activity bits are set (R217, R304). -/
def bowMark (s : State) (m : Nat) : State := s.modCore (mbaCid m) fun k => { k with bow := k.bow ||| (s.ctx m).bowgrp }

/-- A release action comes after every earlier access of its context, relaxed ones included (R315). -/
def released : M Unit := do
  let c ← me
  stallIf (!c.out.isEmpty) .access

/-- Sends a context word to an MBA: the check of R16, the credit of R411; a word for a cluster under reset is lost and
its sender told (R415). -/
def sendWord (dst : Word) (v : Word) : M Unit := do
  let s ← get
  let d := dst.toNat
  raiseIf (!mbaValid s.minimal d) 0x02 d
  released
  if s.downAt (mbaCid d) then
    set (postHw s (mbaCid s.cur) s.cur (resetNotice d))
  else
    stallIf (64 ≤ creditsUsed s (mbaCid s.cur) (mbaCid d)) .sendFull
    set (bowMark (putOnNet s ⟨s.cur, d, false, v, 0, s.me.bowgrp, 0, false⟩) s.cur)

/-- The CID under which the dispatcher on the crown die posts words. -/
def dispatcherCid : Nat := mkCid 3 0 0

/-- Who sends on the message network (R410): a context or a core's hardware by its MBA; the dispatcher, for each of its launches too. -/
def senderOf (src : Nat) : Nat := if 2 ^ 20 ≤ src then hwMba dispatcherCid else src

/-- Who sends an item on the present piece of its way, and to which core (R373, R410). -/
def Item.leg (it : Item) : Nat × Nat :=
  (if it.pos = 0 then hwMba dispatcherCid else hwMba (it.walk.getD (it.pos - 1) it.hint), it.walk.getD it.pos it.hint)

/-- An earlier message of one sender to one core is still on the message network (R410). -/
def earlierMsg (s : State) (src cid n : Nat) : Bool :=
  let by_ := fun (x : Nat) => senderOf x = senderOf src
  s.net.any (fun w => by_ w.src && mbaCid w.dst = cid && decide (w.n < n))
    || s.cops.any (fun o => by_ o.src && o.cid = cid && decide (o.n < n))
    || s.dreqs.any (fun r => by_ r.req.from_ && r.owner = cid && decide (r.n < n))
    || s.items.any (fun it => it.leg = (senderOf src, cid) && decide (it.n < n))

/-- An item sets out on its next way on the message network, in its place in send order (R410). -/
def sendItem (s : State) (i : Nat) (it : Item) : State := { s with items := setAt s.items i { it with n := s.mseq }, mseq := s.mseq + 1 }

/-- A neighbour queue of a core (R30). -/
def Core.portq (k : Core) : Dir → PortQ
  | .north => k.portN | .east => k.portE | .south => k.portS | .west => k.portW
/-- Replaces a neighbour queue. -/
def Core.setPortq (k : Core) : Dir → PortQ → Core
  | .north, q => { k with portN := q } | .east, q => { k with portE := q }
  | .south, q => { k with portS := q } | .west, q => { k with portW := q }

/-- The place of a number in a list. -/
def placeOf (l : List Nat) (k : Nat) : Option Nat := l.findIdx? (· == k)

/-- The place of the `i`-th word of a port that no instruction in progress has read. -/
def freePlace : List (Word × Option Nat) → Nat → Option Nat
  | [], _ => none
  | (_, some _) :: l, i => (freePlace l i).map (· + 1)
  | (_, none) :: _, 0 => some 0
  | (_, none) :: l, i + 1 => (freePlace l i).map (· + 1)

/-- The word of a port that a read by context `m` takes: the oldest words are those of the contexts that blocked first (R30). -/
def PortQ.next (q : PortQ) (m : Nat) : Option Nat := freePlace q.q ((placeOf q.blocked m).getD q.blocked.length)

/-- Pops a word of a neighbour port (R30). -/
def popPort (d : Dir) : M Word := do
  let s ← get
  let c := mbaCid s.cur
  raiseIf (neighbour s.minimal c d).isNone 0x02 (match d with | .north => 24 | .east => 25 | .south => 26 | .west => 27)
  let q := (s.core c).portq d
  match q.next s.cur with
  | some i =>
    set (s.modCore c fun k => k.setPortq d ⟨dropAt q.q i, q.blocked.erase s.cur⟩)
    return (nth (0, none) q.q i).1
  | none => throw (.port d)

/-- The port that a register number selects (Table 2.1). -/
def regPort (r : Reg) : Option Dir :=
  match r.toNat with | 24 => some .north | 25 => some .east | 26 => some .south | 27 => some .west | _ => none

/-- The word that a read by context `m` takes stays in its place, read by the instruction in progress of `m` (R29). -/
def PortQ.claim (q : PortQ) (m : Nat) : PortQ :=
  match q.next m with
  | some i => ⟨setAt q.q i ((nth (0, none) q.q i).1, some m), q.blocked.erase m⟩
  | none => q
/-- The instruction in progress of `m` takes its words of a port. -/
def PortQ.take (q : PortQ) (m : Nat) : PortQ := { q with q := q.q.filter (·.2 ≠ some m) }
/-- The instruction in progress of `m` has read nothing of a port. -/
def PortQ.giveBack (q : PortQ) (m : Nat) : PortQ := { q with q := q.q.map fun x => if x.2 = some m then (x.1, none) else x }

/-- Sends a word through a neighbour port (R30). -/
def pushPort (d : Dir) (v : Word) : M Unit := do
  let s ← get
  let c := mbaCid s.cur
  match neighbour s.minimal c d with
  | none => raise 0x02 (match d with | .north => 24 | .east => 25 | .south => 26 | .west => 27)
  | some n =>
    released
    let o := opposite d
    let q := (s.core n).portq o
    stallIf (8 ≤ q.q.length + (s.pnet.filter fun w => w.cid = n && w.dir = o).length) .fullWrite
    set (bowMark { s with pnet := s.pnet ++ [PWord.mk n o s.cur v s.me.bowgrp] } s.cur)

/-- Sender of an entry of a `qin`. -/
def QEntry.src : QEntry → Nat
  | .word m _ => m | .mute m => m

/-- Places of a downstream `qin` that one context's unpopped words and mute take (R31, R218). -/
def qoutUsed (s : State) (src dst : Nat) : Nat :=
  ((s.ctx dst).qin.filter fun e => e.src = src).length + (s.qnet.filter fun w => w.src = src && w.dst = dst).length

/-- Whether `qlink` is bound to a context of the writer's cluster (R31). -/
def qlinkOk (s : State) (m : Nat) : Bool :=
  let q := (s.ctx m).qlink.toNat
  nbit q 20 && mbaValid s.minimal (nbits q 19 0) && clKey (mbaCid (nbits q 19 0)) = clKey (mbaCid m)

/-- Pushes a word to `qout` (R31). -/
def pushQout (v : Word) : M Unit := do
  let s ← get
  raiseIf (!qlinkOk s s.cur) 0x02 s.me.qlink.toNat
  released
  let d := nbits s.me.qlink.toNat 19 0
  stallIf (16 ≤ qoutUsed s s.cur d) .fullWrite
  set (bowMark { s with qnet := s.qnet ++ [QWord.mk s.cur d (.word s.cur v) s.me.bowgrp] } s.cur)

/-- Pops the oldest word of `qin`; the mute stops the role (R31, R219). -/
def popQin : M Word := do
  let c ← me
  match c.qin with
  | [] => stall .emptyQin
  | .mute _ :: _ => throw .mute
  | .word _ v :: q => modMe fun c => { c with qin := q }; return v

/-- Sets predicate bit `i`. -/
def Context.setK (c : Context) (i : Nat) (b : Bool) : Context :=
  { c with k := (c.k &&& ~~~(1#32 <<< i)) ||| (if b then 1#32 <<< i else 0) }

/-! ## Whose core it is, and work items (R293, R375, R377, R382–R384) -/

/-- The cores of layers 2 and 3 in the order of the bits of `ucores` (Table 19.6). -/
def upperCores (minimal : Bool) : List Nat := layerCores minimal 2 ++ layerCores minimal 3

/-- The partition supervisor context: context 3 of the lowest-CID apex core of the partition (R383). -/
def supervisorOf (s : State) (p : Nat) : Nat :=
  let u := (s.part p).ucores
  let l := ((layerCores false 3).zip (upFrom 96 24)).filter fun x => nbit u x.2 && cidValid s.minimal x.1
  match l with
  | (c, _) :: _ => 16 * c + 3
  | [] => 16 * mkCid 3 0 0 + 3

/-- The column of a core of layer 0 or 1 (R382). -/
def columnOf (cid : Nat) : Nat :=
  if cidLayer cid = 0 then cidX cid / 12 + 4 * (cidY cid / 8) else cidX cid / 6 + 4 * (cidY cid / 4)
/-- A core's place among the bits of `ucores` (Table 19.6). -/
def upperIndex (cid : Nat) : Nat :=
  if cidLayer cid = 2 then 8 * cidX cid + cidY cid else 96 + 4 * cidX cid + cidY cid
/-- A core belongs to a partition (R382, R383). -/
def coreIn (s : State) (p cid : Nat) : Bool :=
  if cidLayer cid < 2 then nbit (s.part p).cols (columnOf cid) else nbit (s.part p).ucores (upperIndex cid)
/-- The partition that a core belongs to. -/
def ownerPart (s : State) (cid : Nat) : Option Nat := (upFrom 0 16).find? fun p => coreIn s p cid
/-- A core whose cluster or partition is contained: nothing of it goes on (R427). -/
def isolated (s : State) (cid : Nat) : Bool :=
  s.downAt cid || match ownerPart s cid with | some p => (s.part p).held | none => false
/-- The place of a core's block among the bits of `secmask` (Table 19.6). -/
def blockIndex (cid : Nat) : Nat :=
  match cidLayer cid with
  | 0 => 5 * columnOf cid + 1 + cidX cid / 6 % 2 + 2 * (cidY cid / 4 % 2)
  | 1 => 5 * columnOf cid
  | _ => 80 + upperIndex cid
/-- A core's block is in the secure world (R384). -/
def blockSecure (s : State) (p cid : Nat) : Bool := nbit (s.part p).secmask (blockIndex cid)
/-- A core is designated for class 0 (Table 19.6); a channel core never is (R379). -/
def classZero (s : State) (p cid : Nat) : Bool :=
  match cidLayer cid with
  | 0 => (cornerOf cid).isNone && nbit (s.part p).c0core (120 * columnOf cid + 24 + 8 * (cidX cid % 12) + cidY cid % 8)
  | 1 => nbit (s.part p).c0core (120 * columnOf cid + 4 * (cidX cid % 6) + cidY cid % 4)
  | _ => false

/-- Some migrant holds a context of a core (R183). -/
def hosting (s : State) (cid n : Nat) : Bool := s.ctxs.any fun x => x.2.hosted = some (cid, n)

/-- Contexts of a core that are eligible and idle for an item of a class (R293, R383). -/
def eligible (s : State) (p cid cls : Nat) : Nat :=
  ((upFrom 1 15).filter fun n =>
    decide (n < contexts (cidLayer cid)) && (s.ctx (16 * cid + n)).run = .unspawned && !hosting s cid n
      && 16 * cid + n != supervisorOf s p && !(n = 1 && classZero s p cid && cls != 0)).length

/-- A core may take an item (R293), where no word of an item that it took before still waits to be posted (R195). -/
def coreTakes (s : State) (cid : Nat) (it : Item) : Bool :=
  (s.ctx (16 * cid)).run != .unspawned && !hwBusy s (.items cid) && decide ((s.core cid).claims < eligible s it.part.toNat cid it.cls.toNat)

/-- A core that the walk of an item does not skip (R373): of the item's partition and world, and a channel core only with
`chn`. -/
def walkOk (s : State) (p : Nat) (sec chn : Bool) (cid : Nat) : Bool :=
  coreIn s p cid && blockSecure s p cid = sec && ((cornerOf cid).isNone || chn)

/-- A store entry of a partition has become free: the oldest waiting `lnch` gets its space notice (R371, R287). -/
def spaceNotice (s : State) (p : BitVec 4) : State :=
  match s.spaceq.find? (·.part = p) with
  | some w =>
    postAs { s with spaceq := s.spaceq.erase w } .dispatcher dispatcherCid w.who (hwWord 0x0A (w.tag.toNat * 2 ^ 8 + p.toNat)) 0
  | none => s

/-- The launch of an item has one more item posted; with its last one its entry frees (R371, R377). -/
def countPosted (s : State) (it : Item) : State :=
  match s.store.find? (·.seq = it.seq) with
  | none => s
  | some l =>
    if l.posted + 1 < l.items then
      { s with store := s.store.map fun x => if x.seq = it.seq then { x with posted := x.posted + 1 } else x }
    else spaceNotice { s with store := s.store.filter (·.seq != it.seq) } l.part

/-- The work-item word (Table 19.3). -/
def itemWord (it : Item) : Word :=
  BitVec.ofNat 64 (5 * 2 ^ 56 + it.cls.toNat * 2 ^ 54 + (if it.sec then 2 ^ 53 else 0) + it.part.toNat * 2 ^ 48
    + it.lnum.toNat * 2 ^ 32 + it.item % 2 ^ 32)

/-- A core takes an item: one claim more, and five words to its context 0 (R293, R377). The item counts as posted when the first of them is. -/
def takeItem (s : State) (cid : Nat) (it : Item) : State :=
  let word := fun (s : State) (v : Word) (i : Nat) => postAs s (.items cid) cid (16 * cid) v i
  let kept := mustHold s (16 * cid)
  let s := postWith s (.items cid) cid (16 * cid) (itemWord it) 1 (some it)
  let s := (word (word (word (word s it.entry 2) it.arg 3) it.seed 4) it.ctr 5).modCore cid fun k => { k with claims := k.claims + 1 }
  if kept then s else countPosted s it

/-- Takes items from an overflow queue while the core can: the oldest class-0 item, otherwise the oldest (R375). -/
def takeQueuedN (cid : Nat) : (fuel : Nat) → State → State
  | 0, s => s
  | n + 1, s =>
    let q := (s.core cid).ovf.filter fun it => it.walk.elem cid
    match (q.find? (·.cls = 0)).or q.head? with
    | none => s
    | some it =>
      if coreTakes s cid it then takeQueuedN cid n (takeItem (s.modCore cid fun k => { k with ovf := k.ovf.erase it }) cid it)
      else s
/-- A core takes what it can from its overflow queue (R375). -/
def takeQueued (s : State) (cid : Nat) : State := takeQueuedN cid 64 s

/-- A kept word of an agent is posted, where fewer than 64 hardware words wait for its destination (R195); the list holds what has been
posted. -/
def release (x : State × List Held) (h : Held) : State × List Held :=
  if 64 ≤ hwWaiting x.1 h.w.dst then ({ x.1 with held := x.1.held ++ [h] }, x.2) else (putOnNet x.1 h.w, x.2 ++ [h])

/-- A kept word has been posted: its item counts as posted (R377), and a core whose last word of an item that was may take the next item (R375). -/
def wordPosted (s : State) (h : Held) : State :=
  let s := match h.item with | some it => countPosted s it | none => s
  match h.by_ with
  | .items cid => if hwBusy s (.items cid) then s else takeQueued s cid
  | _ => s

/-- The kept words for which there is room are posted, in their order (R195). -/
def releaseHeld (s : State) : State :=
  match s.held with
  | [] => s
  | l =>
    let x := l.foldl release ({ s with held := [] }, [])
    x.2.foldl wordPosted x.1

/-- A mailbox admits what it can of what waits for it, and agents that waited post on (R195). -/
def admitAll (m : Nat) (s : State) : State := releaseHeld (admitWords m 16 s)

/-- Pops the oldest word of the mailbox: k31 says whether the hardware made it, one waiting word is admitted, and a
work-item word's claim ends, after which the core may take an item that waits (R32, R195, R293, R375). -/
def popMbx : M Word := do
  let s ← get
  match s.me.mbx with
  | [] => stall .emptyRead
  | w :: q =>
    let s := releaseHeld (admitWord (s.modMe fun c => { c with mbx := q }.setK 31 w.hw) s.cur)
    let cid := mbaCid s.cur
    set (if w.five = 1 then takeQueued (s.modCore cid fun k => { k with claims := k.claims - 1 }) cid else s)
    return w.v

/-! ## Registers (Table 2.1) -/

/-- A general register of a context. -/
def Context.reg (c : Context) (n : Nat) : Word := c.x.getD n 0
/-- A context with a general register replaced. -/
def Context.setReg (c : Context) (n : Nat) (v : Word) : Context := { c with x := c.x.setIfInBounds n v }

/-- An outstanding relaxed load will write general register `n` (Table 7.3). -/
def Context.awaits (c : Context) (n : Nat) : Bool :=
  c.out.any fun a => match a.kind with | .load _ d => d.toNat = n | _ => false

/-- Reads a register field (R27, Table 2.1). -/
def readReg (r : Reg) : M Word := do
  match r.toNat with
  | 24 => popPort .north
  | 25 => popPort .east
  | 26 => popPort .south
  | 27 => popPort .west
  | 28 => popQin
  | 29 => raise 0x02 29
  | 30 => popMbx
  | 31 => return 0
  | n => do
    let c ← me
    stallIf (c.awaits n) .access
    return c.reg n

/-- Writes a register field (R27, Table 2.1). [DEDUCED: log 17] -/
def writeReg (r : Reg) (v : Word) : M Unit := do
  match r.toNat with
  | 24 => pushPort .north v
  | 25 => pushPort .east v
  | 26 => pushPort .south v
  | 27 => pushPort .west v
  | 28 => raise 0x02 28
  | 29 => pushQout v
  | 30 => do sendWord (← me).msgdst v
  | 31 => pure ()
  | n => do
    stallIf ((← me).awaits n) .access
    modMe fun c => c.setReg n v

/-- A register that is a general register or `zr`: one whose read and write touch nothing else. -/
def plainReg (r : Reg) : Bool := r.toNat < 24 || r.toNat = 31

/-! ## What an instruction in progress has read from queues (R29) -/

/-- Changes the four neighbour queues of a core. -/
def Core.modPorts (k : Core) (f : PortQ → PortQ) : Core :=
  { k with portN := f k.portN, portE := f k.portE, portS := f k.portS, portW := f k.portW }

/-- The word of a queue register that the current context reads stays in its queue: at a port it is marked as read (R29). -/
def claimPort (s : State) (x : Reg × Word) : State :=
  match regPort x.1 with
  | some d => s.modCore (mbaCid s.cur) fun k => k.setPortq d ((k.portq d).claim s.cur)
  | none => s

/-- An instruction goes on behind its slot, or waits: the words of the queue registers that it has read stay where they are
until it completes, those of ports marked as read (R29). `s0` is the state before it read anything, `l` the registers it read with their
values. -/
def postpone (s0 : State) (l : List (Reg × Word)) : M Unit :=
  let q := l.filter fun x => !plainReg x.1
  if q.isEmpty then pure ()
  else modify fun s =>
    ((q.foldl claimPort s0).modCore s.here fun k => { k with utlb := (s.core s.here).utlb }).modMe fun c => { c with pops := q }

/-- The instruction in progress of a context completes: it takes the words that it has read (R29). -/
def takePops (s : State) (m : Nat) : State :=
  let l := (s.ctx m).pops
  if l.isEmpty then s
  else
    let t := l.foldl (fun (s : State) (x : Reg × Word) =>
      if 28 ≤ x.1.toNat then match (readReg x.1).run s with | .ok _ t => t | .error _ _ => s else s) { s with cur := m }
    ({ t with cur := s.cur }.modCore (mbaCid m) fun k => k.modPorts (·.take m)).modCtx m fun c => { c with pops := [] }

/-- The instruction in progress of a context is abandoned, or traps: it has popped nothing (R29, R204). -/
def giveBack (s : State) (m : Nat) : State :=
  if (s.ctx m).pops.isEmpty then s
  else (s.modCore (mbaCid m) fun k => k.modPorts (·.giveBack m)).modCtx m fun c => { c with pops := [] }

/-- Sets sticky flags (R43). -/
def setFlags (f : BitVec 6) : M Unit := modMe fun c => { c with flags := c.flags ||| f }

/-- What engines have set in the flags of a context in the present cycle of the core where its thread runs (R75). -/
def State.flagOr (s : State) (m : Nat) : FlagOr :=
  let t := s.cycles (cidLayer (s.hereOf m))
  match (s.ctx m).ored with
  | some o => if o.cyc = t then o else ⟨t, 0, 0⟩
  | none => ⟨t, 0, 0⟩

/-- An engine ORs flags into its issuer's (R75). -/
def orFlags (s : State) (m : Nat) (f : BitVec 6) : State :=
  let o := s.flagOr m
  if f = 0 then s
  else s.modCtx m fun c => { c with flags := c.flags ||| f, ored := some ⟨o.cyc, o.new ||| (f &&& ~~~c.flags), o.all ||| f⟩ }

/-- `mode.iters` (Table 2.6). -/
def Context.iters (c : Context) : Nat := nbits c.mode.toNat 47 16
/-- `mode.fpos` (Table 2.6). -/
def Context.fpos (c : Context) : Nat := nbits c.mode.toNat 12 9
/-- A context with `mode`[47:9] replaced (R42, R155). -/
def Context.setFrame (c : Context) (iters fpos : Nat) : Context :=
  { c with mode := BitVec.ofNat 64 (c.mode.toNat % 2 ^ 9 + fpos % 16 * 2 ^ 9 + iters % 2 ^ 32 * 2 ^ 16) }

/-! ## Taking a trap (R48, R186, R228–R230) -/

/-- Writes bytes to memory. -/
def State.putBytes (s : State) (loc : Nat) (bs : List Byte) : State := { s with mem := memPutList s.mem loc bs }
/-- Words wholly written lose their poison (R165). -/
def State.clearPoison (s : State) (loc n : Nat) : State :=
  { s with poison := s.poison.filter fun w => !(loc ≤ 8 * w && 8 * w + 8 ≤ loc + n) }

/-- Where a context's trap record lies (R228). -/
def trapRecordLoc (m : Nat) : Nat :=
  let b := bankSize (cidLayer (mbaCid m))
  spadLoc (mbaCid m) (15 * b + b - 1280 + 64 * mbaCtx m)

/-- The trap record (Table 8.6). -/
def trapRecord (s : State) (m : Nat) (t : HomeTrap) (returned : Bool) : List Byte :=
  let c := s.ctx m
  leBytes 8 (t.t.cause.toNat + 2 ^ 8 * mbaCtx m + (if returned then 2 ^ 16 else 0) + (if c.iters = 0 then 0 else 2 ^ 17))
    ++ leBytes 8 t.tpc.toNat ++ leBytes 8 t.t.tinfo.toNat ++ leBytes 8 t.instr.toNat ++ leBytes 8 t.pfxs.toNat
    ++ leBytes 8 c.mode.toNat ++ leBytes 8 s.gtime ++ leBytes 8 (c.flags.toNat + 2 ^ 32 * c.k.toNat)

/-- Who gets a context's trap notice (R229). -/
def trapHandler (s : State) (m : Nat) (cause : Nat) : Nat :=
  if mbaCtx m = 0 || cause = 0x06 || cause = 0x17 then supervisorOf s (s.ctx m).part.toNat else 16 * mbaCid m

/-- The entries of a core's micro-TLB no longer answer a walk made for a waiting access (R395). -/
def stale (s : State) (cid n : Nat) : State :=
  s.modCore cid fun k => { k with utlb := k.utlb.map fun e => if e.ctx = n then { e with fresh := false } else e }

/-- A context that `m` no longer stops or waits for. -/
def Context.unlink (c : Context) (m : Nat) : Context :=
  { c with stopReq := if c.stopReq = some m then none else c.stopReq,
           muteOut := c.muteOut.filter (· ≠ m) }

/-- An access whose instruction holds its context until it is performed: a plain load or an atomic (Table 2.10). -/
def Acc.holds (a : Acc) : Bool := !a.rlx && match a.kind with | .store _ => false | _ => true

/-- A context whose loaded value waits for a port, a `qout` or a mailbox to take it (Table 2.10): the access is not performed before, and a stop
abandons the instruction (R204). [DEDUCED: log 24] -/
def Context.full (c : Context) : Bool :=
  c.out.any Acc.holds && match c.wait with | some w => w.kind = .fullWrite | none => false

/-- The instruction of such a context is abandoned: its access is not made, and the PC stays at it (R204). -/
def letGo (s : State) (m : Nat) : State :=
  let c := s.ctx m
  if c.full then
    match c.out.find? Acc.holds with
    | some a => s.modCtx m fun c => { c with out := c.out.erase a, pc := a.ipc, wait := none }
    | none => s
  else s

/-- A command that waits for room in its engine's queue is given up: the random values reserved for it are not used (R73, R204). -/
def leaveEngines (s : State) (m : Nat) : State :=
  match ((s.core (mbaCid m)).eng.toList.flatMap (·.enter)).find? (fun x => x.who = m && x.npc.isSome) with
  | none => s
  | some x =>
    (s.modCore (mbaCid m) fun k => { k with eng := k.eng.map fun q => { q with enter := q.enter.filter fun x => !(x.who = m && x.npc.isSome) } }).modCtx m fun c =>
      { c with rngst := x.cmd.prog.rng, gpos := x.cmd.prog.gpos }

/-! ## Walkers (R394) -/

/-- The walks of a port that its walkers have taken up, each once: the partition and the 4 KiB (R394). -/
def busyWalks (s : State) (cl : Nat) : List (BitVec 4 × Nat) :=
  ((s.walks.filter fun w => w.cl = cl && w.busy).map fun w => (w.part, w.dva / 4096)).eraseDups

/-- A walker takes up a request of a port: it joins a walk in flight for its 4 KiB, or one of the 64 walkers is free (R394). -/
def walkerFree (s : State) (w : Walk) : Bool :=
  let l := busyWalks s w.cl
  l.elem (w.part, w.dva / 4096) || decide (l.length < 64)

/-- The requests that wait for a walker, in their order, as far as walkers are free; the walk that one begins starts from the table that its
partition has now, with the range of keys of now (R392, R394). -/
def startWaiting : List Walk → State → State
  | [], s => s
  | w :: l, s =>
    let q := s.part w.part.toNat
    startWaiting l (if w.busy || !walkerFree s w then { s with walks := s.walks ++ [w] }
      else { s with walks := s.walks ++ [{ w with busy := true, root := q.ptroot, keylo := q.keylo, keyhi := q.keyhi }] })

/-- Of the requests in a list, those that have a walker keep it, and walkers that are free go on to those that wait (R394). -/
def goOnWalking (s : State) (l : List Walk) : State := startWaiting (l.filter (!·.busy)) { s with walks := l.filter (·.busy) }

/-- A context gives up what it waits for: its command at a full queue, what it has read from ports, its place at a port, its request at a bank, the bandwidth that it waits for, its translation, the stop of
another context or the mute's place (R204). -/
def withdraw (s : State) (m : Nat) : State :=
  let s := leaveEngines (giveBack (letGo s m) m) m
  let s := stale s (s.hereOf m) (match (s.ctx m).hosted with | some (_, n) => n | none => mbaCtx m)
  let s := s.modCore (mbaCid m) fun k => k.modPorts fun q => { q with blocked := q.blocked.filter (· != m) }
  let s := goOnWalking s (s.walks.filter fun w => !w.who.isCtx m)
  let s := { s with
    feq := s.feq.filter fun w => !(w.who = m && match w.kind with | .engEmpty .. | .engFull .. => false | _ => true),
    fills := s.fills.filter fun f => !f.who.isCtx m,
    dreqs := s.dreqs.filter (·.req.from_ != m),
    bwait := s.bwait.filter (·.who != Asks.block m),
    ctxs := s.ctxs.map fun (x : Nat × Context) => (x.1, x.2.unlink m) }
  s.modCtx m fun c => { c with wait := none, rcv := none }

/-- The trap notice of a context that waits for its earlier accesses goes out once they have been performed (R229, R315). -/
def sendNotice (s : State) (m : Nat) : State :=
  match (s.ctx m).notice with
  | none => s
  | some (dst, v) =>
    if (s.ctx m).out.isEmpty then postHw (s.modCtx m fun c => { c with notice := none }) (mbaCid m) dst v else s

/-- A trap is taken in the home context: the record, `tcause`, `tinfo` and `tpc`, the stop at the trapping group, the
notice, which is a release (R48, R228, R229). -/
def takeTrapHome (s : State) (m : Nat) (t : HomeTrap) (returned : Bool) : State :=
  let rec_ := trapRecord s m t returned
  let loc := trapRecordLoc m
  let s := ((withdraw s m).putBytes loc rec_).clearPoison loc 64
  let s := s.modCtx m fun c =>
    { c with run := .stopped .trap, pc := t.tpc, tcause := t.t.cause, tinfo := t.t.tinfo, tpc := t.tpc,
             notice := some (trapHandler s m t.t.cause.toNat, hwWord 0x07 (mbaCid m * 2 ^ 16 + t.t.cause.toNat * 2 ^ 8 + mbaCtx m)) }
  sendNotice s m

/-- A trap of a context. A migrant first returns home, once its earlier accesses have been performed, and the trap is taken there (R186,
R327). [DEDUCED: log 30] -/
def takeTrapOf (s : State) (m : Nat) (t : HomeTrap) : State :=
  let c := s.ctx m
  match c.away, c.hosted with
  | some a, some _ => (withdraw s m).modCtx m fun c => { c with away := some { a with
      phase := if c.out.isEmpty then .toHome else a.phase, trap := some t } }
  | _, _ => takeTrapHome s m t false

/-- A trap of the group that the current context issues (R98). -/
def takeTrap (t : Trap) (s : State) : State := takeTrapOf s s.cur ⟨t, s.me.pc, s.grp.instr, s.grp.pfxs⟩

/-! ## Completion -/

/-- The PC that follows the current group, whose instruction has `len` bytes (R98). -/
def State.nextPc (s : State) (len : Nat) : Word := s.me.pc + BitVec.ofNat 64 (4 * s.grp.n + len)

/-- The code of a wait under the watchdog (Table 20.5). A `tkdec` or `tkset` that waits for a credit has none there. -/
def waitCode : WaitKind → Option Nat
  | .fullEmpty => some 1
  | .fullWrite | .sendFull => some 2
  | .engineQueue => some 3
  | .fence => some 4
  | .away => some 5
  | .delegation | .dlgCredit | .launch => some 6
  | .relaxedFull | .redCredits => some 7
  | .lease => some 8
  | _ => none

/-- Two waits are one wait of Tables 2.10 and 20.5. -/
def sameWait (a b : WaitKind) : Bool := a = b || ((waitCode a).isSome && waitCode a = waitCode b)

/-- The words that lie for a context in the queue whose read it waits in, and that do not suffice (R29, R217); the oldest access of a full
relaxed set (Table 7.3). -/
def waitSeen (s : State) (m : Nat) (k : WaitKind) : Nat :=
  let c := s.ctx m
  match k with
  | .emptyRead => c.mbx.length
  | .emptyQin => c.qin.length
  | .emptyPort d =>
    let q := (s.core (mbaCid m)).portq d
    (q.q.filter (·.2.isNone)).length - (placeOf q.blocked m).getD q.blocked.length
  | .relaxedFull =>
    match c.wait with
    | some w => if w.kind = .relaxedFull then w.seen else ((c.out.filter (·.rlx)).map (·.seq)).min?.getD 0
    | none => ((c.out.filter (·.rlx)).map (·.seq)).min?.getD 0
  | _ => 0

/-- A wait is a read of a mailbox, a port or a `qin` (R217). -/
def WaitKind.isRead : WaitKind → Bool
  | .emptyRead | .emptyQin | .emptyPort _ => true
  | _ => false

/-- A context waits in a read of a queue, and no more lies there for it than when it was last tried (R29, R217). -/
def blockedRead (s : State) (m : Nat) : Bool :=
  match (s.ctx m).wait with
  | some w => w.kind.isRead && decide (waitSeen s m w.kind ≤ w.seen)
  | none => false

/-- Notes that a context waits: its stall clock starts when it begins to wait, under the limit of that moment (R392, R401). -/
def noteWait (s : State) (m : Nat) (k : WaitKind) : State :=
  let n := waitSeen s m k
  s.modCtx m fun c =>
    let z := match c.wait with
      | some w => if sameWait w.kind k then (w.since, w.lim) else (s.tick, (s.part c.part.toNat).wdlim)
      | none => (s.tick, (s.part c.part.toNat).wdlim)
    { c with wait := some ⟨k, z.1, z.2, s.epoch, n⟩ }

/-- A context of a partition is halted: the partition's stall clocks stand still (R403). -/
def freeze (s : State) (p : Nat) : State := s.modPart p fun q => { q with frozen := q.frozen.or (some s.tick) }
/-- When no context of a partition is halted any more, each stall clock goes on from the value it held (R403). -/
def thaw (s : State) (p : Nat) : State :=
  match (s.part p).frozen with
  | none => s
  | some f =>
    if s.ctxs.any fun x => x.2.part.toNat = p && x.2.run.isHalted then s
    else
      let on := fun (t : Nat) => t + (s.tick - max f t)
      { s.modPart p (fun q => { q with frozen := none }) with
        ctxs := s.ctxs.map fun (m, c) => (m, if c.part.toNat = p then
          { c with wait := c.wait.map fun w => { w with since := on w.since },
                   away := c.away.map fun a => { a with since := on a.since } } else c) }

/-- What held a context has cleared: the instruction that waited completes in this cycle of the core where its thread runs, and its next one
issues in its first slot after it (R52). -/
def resumed (s : State) (m : Nat) : State := s.modCtx m fun c => { c with wait := none, cyc := s.cycles (cidLayer (s.hereOf m)) }
/-- The same, and the context goes on behind an instruction of `len` bytes with nothing before it. -/
def resumedAfter (s : State) (m len : Nat) : State :=
  (resumed s m).modCtx m fun c => { c with via := c.pc, pc := c.pc + BitVec.ofNat 64 len }

/-- The current context goes on at a PC reached from the group at `via` (R96). -/
def State.goto (s : State) (pc via : Word) : State :=
  s.modMe fun c => { c with pc := pc, via := via, wait := none }

/-- The mute notice (R218, R219). -/
def muteNotice (s : State) (m : Nat) : State :=
  postHw s (mbaCid m) (16 * mbaCid m) (hwWord 0x08 (mbaCid m * 2 ^ 16 + mbaCtx m))

/-- A list without the first mute. -/
def dropMute : List QEntry → List QEntry
  | [] => []
  | .mute _ :: l => l
  | e :: l => e :: dropMute l

/-- The context stops for the mute (R204, R219). -/
def muteStop (s : State) (m : Nat) : State :=
  muteNotice ((withdraw s m).modCtx m fun c => { c with run := .stopped .mute }) m

/-- Places the mute in a context's `qout` stream where there is room (R218). -/
def placeMute (s : State) (m : Nat) : Option State :=
  let d := nbits (s.ctx m).qlink.toNat 19 0
  if 16 ≤ qoutUsed s m d then none else some { s with qnet := s.qnet ++ [QWord.mk m d (.mute m) 0] }

/-- A context whose read of `qin` meets the mute takes it out, forwards it and stops (R219); none where the mute waits for
room in its `qout`. -/
def forwardMute (s : State) (m : Nat) : Option State :=
  let t := s.modCtx m fun c => { c with qin := dropMute c.qin }
  if qlinkOk s m then (placeMute t m).map fun t => muteStop t m else some (muteStop t m)

/-- A context waits, in a read of `qin`, for room for the mute that it forwards (R219). -/
def Context.forwards (c : Context) (m : Nat) : Bool := c.muteOut.elem m && c.run = .running && c.wait.isSome

/-- What becomes of the current context when its read of `qin` meets the mute (R204, R219). -/
def muteTaken (s : State) : State :=
  let m := s.cur
  if !s.me.out.isEmpty then noteWait s m .access
  else match forwardMute s m with
    | some t => t
    | none => noteWait (s.modMe fun c => { c with muteOut := if c.muteOut.elem m then c.muteOut else c.muteOut ++ [m] }) m .fullWrite

end Sys2Proof.Machine
end

