-- ==== Sys2Proof/Machine/Mem.lean ====
section
/-! DEFINITION. Memory: segments and their checks (R36–R38, Table 7.1), translation (R386–R397), poison and error
correction (R165, R422), retention (R426), bandwidth budgets (R412–R414), full-empty granules (R171–R174), and the
performance of accesses (R164, R313–R321). -/

namespace Sys2Proof.Machine

open Sys2Proof.Config

/-! ## Segments -/

/-- `base` of a descriptor (Table 2.2). -/
def dBase (d : Desc) : Nat := nbits d.toNat 79 32
/-- `limit` of a descriptor (Table 2.2). -/
def dLimit (d : Desc) : Nat := nbits d.toNat 127 80
/-- `space` of a descriptor (Table 2.2). -/
def dSpace (d : Desc) : Nat := nbits d.toNat 1 0
/-- A right of a descriptor, by its bit (Table 2.2): 8 R, 9 W, 10 X, 11 A, 12 F. -/
def dRight (d : Desc) (i : Nat) : Bool := d.getLsbD i
/-- The R right. -/
def rR : Nat := 8
/-- The W right. -/
def rW : Nat := 9
/-- The X right. -/
def rX : Nat := 10
/-- The A right. -/
def rA : Nat := 11
/-- The F right. -/
def rF : Nat := 12

/-- The extent of a space for a core of a layer (R37). -/
def extent (layer space : Nat) : Nat :=
  match space with | 0 => spadSize layer | 1 => 24 * spadSize layer | _ => 2 ^ 48

/-- A descriptor is valid for a core of a layer (R37). -/
def descValid (layer : Nat) (d : Desc) : Bool :=
  nbits d.toNat 31 13 = 0 && nbits d.toNat 7 2 = 0 && (!dRight d rX || dSpace d = 3)
    && decide (dBase d + dLimit d ≤ extent layer (dSpace d))

/-- A segment register of a context. -/
def Context.segd (c : Context) (q : Nat) : Desc := c.seg.getD q 0

/-- `tinfo` of a memory trap (Table 7.2). -/
def memInfo (seg kind : Nat) (rlx : Bool) (addr : Nat) : Nat :=
  seg % 8 * 2 ^ 61 + kind % 32 * 2 ^ 56 + (if rlx then 2 ^ 55 else 0) + addr % 2 ^ 48

/-- The rights that the page must give an access (R391, Table 20.2). -/
inductive Pte where | read | write | atomic | dlg
  deriving DecidableEq, Repr

/-- An access as Table 7.1 gives it: bytes, alignment, rights, spaces, kind code, and the page's rights. -/
structure Access where
  n      : Nat
  align  : Nat
  need   : List Nat
  spaces : List Nat
  kind   : Nat
  pte    : Pte
  deriving DecidableEq, Repr

/-- The checks of R38 with those of R160: the cause of the first that fails. -/
def segFault (layer : Nat) (d : Desc) (o : Int) (a : Access) : Option Nat :=
  if !(a.need.all (dRight d)) || !a.spaces.elem (dSpace d) || (dSpace d = 2 && layer != 0) then some 0x08
  else if o < 0 || (dLimit d : Int) < o + a.n then some 0x07
  else if o % (a.align : Int) ≠ 0 then some 0x09
  else none

/-- The untranslated location of an address in a space (R37, R386). -/
def spaceLoc (cid space addr : Nat) : Nat :=
  match space with
  | 0 => spadLoc cid addr
  | 1 => let z := spadSize (cidLayer cid); spadLoc (sibling cid (addr / z)) (addr % z)
  | _ => codeLoc (cidLayer cid) addr

/-- The parts of a range on the two sides of a multiple of `z`. -/
def splitAtMultiple (z addr n : Nat) : List (Nat × Nat) :=
  if addr % z + n ≤ z then [(addr, n)] else [(addr, z - addr % z), (addr + (z - addr % z), n - (z - addr % z))]

/-- The untranslated place of `n` bytes at an address of a space: in the cluster window, bytes beyond one core's scratchpad are the next
core's (R37). -/
def spacePlace (cid space addr n : Nat) : Place :=
  if space = 1 then (splitAtMultiple (spadSize (cidLayer cid)) addr n).map fun x => (spaceLoc cid 1 x.1, x.2, .plain)
  else [(spaceLoc cid space addr, n, .plain)]

/-! ## Words of memory -/

/-- The unsigned value of `n` bytes at a location. -/
def State.rd (s : State) (loc n : Nat) : Nat := leVal (memBytes s.mem loc n)
/-- The bytes of a range as an access under a key finds them (Table 1.5). -/
def State.keyBytes (s : State) (key : Option Nat) (loc n : Nat) : List Byte := Machine.keyBytes s.mem s.keyed key loc n
/-- The unsigned value of `n` bytes as an access under a key finds them. -/
def State.rdKey (s : State) (key : Option Nat) (loc n : Nat) : Nat := leVal (s.keyBytes key loc n)
/-- Writes bytes under a key (Table 1.5). -/
def State.putKeyed (s : State) (key : Option Nat) (loc : Nat) (bs : List Byte) : State :=
  { s.putBytes loc bs with keyed := match key with
      | some k => keyPut s.keyed k s.epoch loc bs.length (blockNums loc bs.length)
      | none => s.keyed }
/-- Some byte of a range lies in a poisoned word. -/
def State.poisoned (s : State) (loc n : Nat) : Bool := s.poison.any fun w => decide (8 * w < loc + n) && decide (loc < 8 * w + 8)
/-- Writes `n` bytes of a value; a word written whole loses its poison (R165). -/
def State.wr (s : State) (loc n v : Nat) : State := (s.putBytes loc (leBytes n v)).clearPoison loc n

/-- The first byte of a place. -/
def Place.loc (p : Place) : Nat := (p.headD (0, 0, .plain)).1
/-- The bytes of a place, lowest address first. -/
def Place.bytes (s : State) (p : Place) : List Byte := p.flatMap fun x => s.keyBytes x.2.2.key x.1 x.2.1
/-- The unsigned value at a place. -/
def Place.val (s : State) (p : Place) : Nat := leVal (p.bytes s)
/-- Some word of a place is poisoned. -/
def Place.bad (s : State) (p : Place) : Bool := p.any fun x => s.poisoned x.1 x.2.1
/-- The locations of the bytes of a place, in order. -/
def Place.locs (p : Place) : List Nat := p.flatMap fun x => upFrom x.1 x.2.1

/-- The first and the last location of every range of a place. -/
def Place.ends (p : Place) : List Nat := p.flatMap fun x => [x.1, x.1 + (x.2.1 - 1)]

/-- Two byte ranges meet. -/
def meets (a n b k : Nat) : Bool := decide (a < b + k) && decide (b < a + n)
/-- Two places meet. -/
def Place.meets (p q : Place) : Bool := p.any fun x => q.any fun y => Machine.meets x.1 x.2.1 y.1 y.2.1

/-- Adds to an error count of a cluster, saturating (Table 22.3). -/
def countCor (s : State) (k : Nat) : State := s.modCluster k fun c => { c with cor := min (c.cor + 1) (2 ^ 32 - 1) }
/-- Counts an uncorrectable error. -/
def countUnc (s : State) (k : Nat) : State := s.modCluster k fun c => { c with unc := min (c.unc + 1) (2 ^ 16 - 1) }
/-- Counts an update discarded on poison (R181). -/
def countDisc (s : State) (k : Nat) : State := s.modCluster k fun c => { c with disc := min (c.disc + 1) (2 ^ 16 - 1) }
/-- The cluster that holds a location (R425). -/
def locCluster (s : State) (loc : Nat) : Nat := clKey (ownerOfLoc s.minimal loc)

/-- The retention state of a bank. -/
def State.bank (s : State) (cid b : Nat) : BankSt := tget ⟨.active, 0⟩ (s.core cid).bank b
/-- Replaces the retention state of a bank. -/
def State.setBank (s : State) (cid b : Nat) (x : BankSt) : State :=
  s.modCore cid fun k => { k with bank := tset k.bank b x }
/-- The bank of a location of the scratchpad region. -/
def locBank (loc : Nat) : Nat := locOff loc / bankSize (cidLayer (locCid loc))

/-- What the error code found when the word at a location was read (Table 22.1): a corrected error is counted; an
uncorrectable one poisons the word, both words of 128 bits in a retained bank, or the four words of 32 bytes of HBM. -/
def applyEcc (s : State) (loc : Nat) (e : Ecc) : State :=
  match e with
  | .clean => s
  | .corrected => countCor s (locCluster s loc)
  | .uncorrectable =>
    let w := loc / 8
    let ws :=
      if isHbm loc then upFrom (loc / 32 * 4) 4
      else if isSpad loc && (s.bank (locCid loc) (locBank loc)).ret != .active then upFrom (loc / 16 * 2) 2
      else [w]
    countUnc { s with poison := ws.foldl nins s.poison } (locCluster s loc)

/-- The bank that a location's access waits for, where it is not active (R426). -/
def sleeping (s : State) (loc : Nat) : Option (Nat × Nat) :=
  if isSpad loc then
    if (s.bank (locCid loc) (locBank loc)).ret = .active then none else some (locCid loc, locBank loc)
  else none
/-- An access to a retained bank starts its exit (R426). -/
def startExit (s : State) (cid b : Nat) : State :=
  match (s.bank cid b).ret with
  | .retained => s.setBank cid b { s.bank cid b with ret := .exiting (s.cycles (cidLayer cid) + retExit (cidLayer cid)) }
  | _ => s
/-- Notes an access to a bank: it has not been idle since (R426). -/
def touch (s : State) (loc : Nat) : State :=
  if isSpad loc then
    s.setBank (locCid loc) (locBank loc) { s.bank (locCid loc) (locBank loc) with last := s.cycles (cidLayer (locCid loc)) }
  else s

/-! ## Bandwidth budgets (R412–R414) -/

/-- Number of a site: cluster ports by the key of the cluster, channels from 256 up. -/
def siteNum : Site → Nat
  | .port l c => 64 * l + c
  | .channel g => 256 + g
/-- Key of a budget. -/
def budgetKey (site part cls : Nat) : Nat := 64 * site + 4 * part + cls
/-- A budget that firmware has not written: no tokens, and free to use what no budget takes. [DESIGN CHOICE: log 9] -/
def Budget.init : Budget := ⟨0, true, 0⟩
/-- Tokens that a site serves in a window (R412). -/
def siteCap (site : Nat) : Nat := if site < 256 then 4096 else 1750

/-- The budget of a request. -/
def BReq.budget (s : State) (r : BReq) : Budget := tget Budget.init s.budgets (budgetKey r.site r.part r.cls)

/-- A request still waits: what it is for has not been done or given up, and its core is not contained. -/
def Asks.live (s : State) : Asks → Bool
  | .acc m q => !isolated s (s.hereOf m) && (s.ctx m).out.any (·.seq = q)
  | .upd m q => s.reds.any fun u => u.src = m && u.seq = q && !isolated s u.by_
  | .eng c e => !isolated s c && !(s.eng c e).queue.isEmpty
  | .block m => (s.ctx m).run = .running && match (s.ctx m).wait with | some ⟨.bandwidth _, _, _, _, _⟩ => true | _ => false

/-- The requests that wait at a site, in arrival order, a new one last. -/
def BReq.line (s : State) (r : BReq) : List BReq :=
  let l := s.bwait.filter fun x => x.site = r.site && x.who.live s
  if l.any (·.who = r.who) then l else l ++ [r]

/-- The least of a list by a measure; of equal ones the first. -/
def leastBy {α : Type} (f : α → Nat) : List α → Option α
  | [] => none
  | x :: l => match leastBy f l with
    | some y => if f y < f x then some y else some x
    | none => some x

/-- The request that a site serves next: those with tokens come first, by class and then in arrival order; then those that may spill, in rotation
by partition (R413). The answer says whether it spills. -/
def BReq.next (s : State) (r : BReq) : Option (BReq × Bool) :=
  let l := r.line s
  match leastBy (·.cls) (l.filter fun x => decide (x.n ≤ (x.budget s).left)) with
  | some x => some (x, false)
  | none =>
    let last := tget 15 s.spilt r.site
    (leastBy (fun x => (x.part + 15 - last) % 16) (l.filter fun x => (x.budget s).spill)).map fun x => (x, true)

/-- A request is served at a site and its tokens are spent; none where it waits (R412, R413). -/
def spend (s : State) (r : BReq) : Option State :=
  let used := tget 0 s.served r.site
  match r.next s with
  | some (x, spills) =>
    if x.who = r.who && decide (used + r.n ≤ siteCap r.site) then
      let t := { s with served := tset s.served r.site (used + r.n), bwait := s.bwait.filter (·.who != r.who) }
      some (if spills then { t with spilt := tset t.spilt r.site r.part }
        else { t with budgets := tset t.budgets (budgetKey r.site r.part r.cls) { r.budget s with left := (r.budget s).left - r.n } })
    else none
  | none => none

/-- A request waits at a site, and nowhere else (R413). -/
def queueAt (s : State) (r : BReq) : State :=
  if s.bwait.elem r then s else { s with bwait := s.bwait.filter (·.who != r.who) ++ [r] }

/-- A budget window begins, where its time has come: every budget has its tokens (R412). -/
def budgetWindow (s : State) : State :=
  if s.gtime / 1000 ≤ s.window then s
  else { s with window := s.gtime / 1000, served := [],
                budgets := s.budgets.map fun (x : Nat × Budget) => (x.1, { x.2 with left := x.2.tok }) }

/-- The sites by which an access of a core goes, each with the tokens that it takes: for every range in HBM4E the port of the core's cluster and then
the channel; other accesses need no token (R412). -/
def sitesOf (minimal : Bool) (cid : Nat) (p : Place) : List (Nat × Nat) :=
  p.flatMap fun x => if isHbm x.1 then [(clKey cid, cdiv x.2.1 64), (256 + paChannel minimal x.1, cdiv x.2.1 64)] else []

/-- A request is served at one site after the other, from the `k`-th on its way, or waits at the one that does not serve it (R412–R414). -/
def passSites (who : Asks) (part cls : Nat) : List (Nat × Nat) → Nat → State → Except State State
  | [], _, s => .ok s
  | (site, n) :: l, k, s =>
    let r : BReq := ⟨site, part, cls, n, who, k⟩
    match spend s r with
    | some t => passSites who part cls l (k + 1) t
    | none => .error (queueAt s r)

/-- The budgets of an access to a place: it goes on from the site at which it waits. -/
def budgetPlace (who : Asks) (cid part cls : Nat) (p : Place) (s : State) : Except State State :=
  let l := sitesOf s.minimal cid p
  let k := match s.bwait.find? fun r => r.who = who && l[r.pos]? = some (r.site, r.n) with | some r => r.pos | none => 0
  passSites who part cls (l.drop k) k (if l.isEmpty then s else budgetWindow s)

/-- The budgets of an access to `n` bytes. -/
def budget (s : State) (who : Asks) (cid part cls loc n : Nat) : Except State State := budgetPlace who cid part cls [(loc, n, .plain)] s

/-! ## Translation (R386–R397) -/

/-- Bytes of device physical memory. -/
def State.hbm (s : State) : Nat := if s.minimal then hbmSizeMin else hbmSize

/-- What a walk ends with (R388, R396). -/
inductive WalkEnd where
  | leaf (e : Word) (bits : Nat)
  | absent
  | poison
  deriving DecidableEq, Repr

/-- `leaf` of a page table entry (Table 20.1). -/
def pteLeaf (e : Nat) : Bool := nbit e 1
/-- The address a page table entry names (Table 20.1). -/
def ptePa (e : Nat) : Nat := nbits e 39 12 * 2 ^ 12

/-- A present entry of level `l` is malformed (R388). -/
def pteBad (limit l e : Nat) : Bool :=
  nbits e 50 40 != 0 || nbits e 11 9 != 0 || nbit e 4
    || (if pteLeaf e then
          let bits := if l = 0 ∧ nbit e 8 then 16 else 12 + 9 * l
          let base := if bits = 16 then ptePa e / 2 ^ 16 * 2 ^ 16 else ptePa e
          l = 3 || base % 2 ^ bits != 0 || decide (limit < base + 2 ^ bits)
        else l = 0 || nbits e 11 2 != 0 || nbits e 63 51 != 0 || decide (limit < ptePa e + 4096))

/-- The size of a leaf's page at a level, as a power of two (R388, R389). -/
def leafBits (l e : Nat) : Nat := if l = 0 ∧ nbit e 8 then 16 else 12 + 9 * l

/-- The walk from the table at `pa` of level `l − 1` down (R388, R396). -/
def pteWalk (s : State) (dva : Nat) : (l pa : Nat) → WalkEnd
  | 0, _ => .absent
  | l + 1, pa =>
    let a := pa + 8 * nbits dva (20 + 9 * l) (12 + 9 * l)
    if s.poisoned a 8 then .poison
    else
      let e := s.rd a 8
      if !nbit e 0 || pteBad s.hbm l e then .absent
      else if pteLeaf e then .leaf (BitVec.ofNat 64 e) (leafBits l e)
      else pteWalk s dva l (ptePa e)

/-- A walk for a DVA from the table that a root names (R388). A root beyond the last physical address names no table. -/
def walkFrom (s : State) (root dva : Nat) : WalkEnd :=
  if s.hbm < root * 4096 + 4096 then .absent else pteWalk s dva 4 (root * 4096)
/-- A partition's walk for a DVA (R388). -/
def walk (s : State) (part : BitVec 4) (dva : Nat) : WalkEnd := walkFrom s (s.part part.toNat).ptroot dva

/-- The page entry of a translation buffer that covers a DVA. -/
def TlbEnt.covers (e : TlbEnt) (dva : Nat) : Bool := e.dva / 2 ^ e.bits = dva / 2 ^ e.bits

/-- The first check of R391 that an access fails against a leaf, with the range of keys as it stood when the leaf's walk began (R392); 0 where it
passes. -/
def leafFail (sec : Bool) (p : Pte) (x : TlbEnt) : Nat :=
  let e := x.leaf.toNat
  let right := match p with
    | .read => nbit e 2
    | .write => nbit e 3
    | .atomic => nbit e 5 && nbit e 3
    | .dlg => nbit e 5
  if !right then 1
  else if nbit e 6 && !sec then 2
  else if p = .atomic && nbit e 7 then 3
  else if !(decide (x.keylo ≤ nbits e 63 51) && decide (nbits e 63 51 ≤ x.keyhi)) then 4
  else 0

/-- The physical address of a DVA under a leaf (R388, R389). -/
def leafPa (e : TlbEnt) (dva : Nat) : Nat := ptePa e.leaf.toNat / 2 ^ e.bits * 2 ^ e.bits + dva % 2 ^ e.bits
/-- `repl` of a leaf. -/
def leafRepl (e : TlbEnt) : Bool := nbit e.leaf.toNat 7
/-- What the page of a leaf gives an access. -/
def leafPage (e : TlbEnt) : Page := ⟨leafRepl e, some (nbits e.leaf.toNat 63 51)⟩
/-- The copy of a replicated byte on a base die (R390). -/
def copyPa (pa die : Nat) : Nat := pa / 2 ^ 20 * 2 ^ 20 + die * 2 ^ 18 + pa % 2 ^ 18
/-- The physical address at which an access of a core to a home copy is performed: a read of a replicated page at the copy of the
core's die, any other at the home copy (R164, R390). -/
def copyFor (cid : Nat) (p : Pte) (pa : Nat) (repl : Bool) : Nat := if repl && p = .read then copyPa pa (baseDie cid) else pa
/-- The place at which an access of a core to the home copy of its bytes is performed (R164, R390). -/
def copyPlace (cid : Nat) (p : Pte) (home : Place) : Place := home.map fun x => (copyFor cid p x.1 x.2.2.repl, x.2)
/-- The physical address at which an access of a core is performed (R164, R390). -/
def accessPa (cid : Nat) (p : Pte) (e : TlbEnt) (dva : Nat) : Nat := copyFor cid p (leafPa e dva) (leafRepl e)

/-- A buffer of at most `n` entries with an entry made the most recently used. -/
def tlbPut (n : Nat) (l : List TlbEnt) (e : TlbEnt) : List TlbEnt :=
  (e :: l.filter fun x => !(x.part = e.part && x.ctx = e.ctx && x.bits = e.bits && x.dva = e.dva)).take n

/-- The port's translation of a DVA for a partition (R394). -/
def portHit (s : State) (cl : Nat) (part : BitVec 4) (dva : Nat) : Option TlbEnt :=
  (s.cluster cl).ptlb.find? fun e => e.part = part && e.covers dva
/-- Fills the port's buffer of 256 entries (R394). -/
def portFill (s : State) (cl : Nat) (e : TlbEnt) : State :=
  s.modCluster cl fun c => { c with ptlb := tlbPut 256 c.ptlb { e with ctx := 0, fresh := false } }
/-- Drops the port's translations of a DVA. -/
def portDrop (s : State) (cl : Nat) (part : BitVec 4) (dva : Nat) : State :=
  s.modCluster cl fun c => { c with ptlb := c.ptlb.filter fun e => !(e.part = part && e.covers dva) }

/-- A miss at a port starts a walk, joins one, or waits for a walker (R392, R394). -/
def startWalk (s : State) (part : BitVec 4) (cl cid : Nat) (who : Asker) (dva : Nat) : State :=
  let q := s.part part.toNat
  let w : Walk := ⟨part, q.ptroot, q.keylo, q.keyhi, cl, cid, who, dva, false⟩
  { s with walks := s.walks ++ [{ w with busy := walkerFree s w }] }

/-- A context that misses in the micro-TLB asks its port (R393); with `drop`, the cached leaf is dropped from the port
and from the micro-TLB, and the port walks (R395). -/
def askPort (s : State) (m dva : Nat) (drop : Bool) (ht : HomeTrap) : State :=
  let cid := s.hereOf m
  let c := s.ctx m
  let tag := match c.hosted with | some (_, n) => n | none => mbaCtx m
  let cl := clKey cid
  let s := if drop then
      (portDrop s cl c.part dva).modCore cid fun k =>
        { k with utlb := k.utlb.filter fun e => !(e.part = c.part && e.ctx = tag && e.covers dva) }
    else s
  match portHit s cl c.part dva with
  | some e => { s with fills := s.fills ++ [Fill.mk cid (.ctx m tag ht) { e with ctx := tag, fresh := false } none] }
  | none => startWalk s c.part cl cid (.ctx m tag ht) dva

/-- Translates an access of the current context in the micro-TLB of the core where it runs (R391, R393, R395): the home copy, and what
its page gives. -/
def translate (dva : Nat) (p : Pte) (info : Word) : M (Nat × Page) := do
  let s ← get
  let c := s.me
  let cid := s.here
  let tag := s.hereCtx
  match (s.core cid).utlb.find? fun e => e.part = c.part && e.ctx = tag && e.covers dva with
  | none => throw (.tlb dva info false)
  | some e =>
    match leafFail c.sec p e with
    | 0 =>
      set (s.modCore cid fun k => { k with utlb := tlbPut 8 k.utlb { e with fresh := false } })
      return (leafPa e dva, leafPage e)
    | 3 => throw (.trap ⟨0x0B, info⟩)
    | _ => if e.fresh then throw (.trap ⟨0x0B, info⟩) else throw (.tlb dva info true)

/-- What a fresh walk finds for an access at a DVA: the physical address of the home copy and what its page gives, or
the sub-cause. -/
def walkPa (s : State) (part : BitVec 4) (sec : Bool) (p : Pte) (dva : Nat) : Except Nat (Nat × Page) :=
  match walk s part dva with
  | .absent => .error 0x0A
  | .poison => .error 0x13
  | .leaf l b =>
    let e : TlbEnt := ⟨part, 0, dva / 2 ^ b * 2 ^ b, b, l, false, (s.part part.toNat).keylo, (s.part part.toNat).keyhi⟩
    if leafFail sec p e = 0 then .ok (leafPa e dva, leafPage e) else .error 0x0B

/-- What an engine's request for a translation finds (R253, R391, R394–R396). -/
inductive PortAns where
  | at_ (home : Nat) (page : Page)
  | fault (sub : Nat)
  | wait
  deriving DecidableEq, Repr

/-- An engine's request for a translation at its port (R253, R391, R394–R396): the home copy and what its page
gives, the sub-cause of its fault, or a walk for which the engine waits. A leaf that fails the check is dropped and walked anew; the answer
of the engine's own walk is final. -/
def portAccess (s : State) (cl cid : Nat) (e : Eng) (part : BitVec 4) (sec : Bool) (p : Pte) (dva : Nat) : State × PortAns :=
  let mine := fun (w : Asker) => w = .eng e
  match s.fills.find? fun f => f.cid = cid && mine f.who && f.ent.part = part && (f.ent.covers dva || f.ent.dva / 4096 = dva / 4096) with
  | some f =>
    let s := { s with fills := s.fills.erase f }
    match f.bad with
    | some c => (s, .fault c.toNat)
    | none => if leafFail sec p f.ent = 0 then (s, .at_ (leafPa f.ent dva) (leafPage f.ent)) else (s, .fault 0x0B)
  | none =>
    if s.walks.any fun w => w.cid = cid && mine w.who then (s, .wait)
    else match portHit s cl part dva with
      | none => (startWalk s part cl cid (.eng e) dva, .wait)
      | some x =>
        match leafFail sec p x with
        | 0 => (portFill s cl x, .at_ (leafPa x dva) (leafPage x))
        | 3 => (s, .fault 0x0B)
        | _ => (startWalk (portDrop s cl part dva) part cl cid (.eng e) dva, .wait)

/-- Where an access that has passed its checks is performed: its place, the home copy of its bytes, and what a poison
trap of it reports (Table 7.2). -/
structure Spot where
  at_  : Place
  home : Place
  info : Word
  deriving DecidableEq, Repr

/-- The first location of a spot. -/
def Spot.loc (p : Spot) : Nat := p.at_.loc

/-- The ranges of an access to global memory, page by page (R386, R388). -/
def translateAll (p : Pte) (info : Word) : List (Nat × Nat) → M Place
  | [] => return []
  | (a, n) :: l => do
    let (pa, r) ← translate a p info
    return (pa, n, r) :: (← translateAll p info l)

/-- An access that an instruction checks (R160, R386, R390). A poison trap of an access to space 3 reports the offset. [DESIGN CHOICE: log 105] -/
def checkAccess (q : Nat) (o : Int) (a : Access) (rlx : Bool) : M Spot := do
  let s ← get
  let d := s.me.segd q
  match segFault s.layer d o a with
  | some c => raise c (memInfo q a.kind false (ofInt 48 o))
  | none =>
    let addr := dBase d + o.toNat
    if dSpace d = 2 then
      let home ← translateAll a.pte (BitVec.ofNat 64 (memInfo q a.kind false addr)) (splitAtMultiple 4096 addr a.n)
      return ⟨copyPlace s.here a.pte home, home, BitVec.ofNat 64 (memInfo q a.kind rlx addr)⟩
    else
      let p := spacePlace s.here (dSpace d) addr a.n
      return ⟨p, p, BitVec.ofNat 64 (memInfo q a.kind rlx (ofInt 48 o))⟩

/-- An access of the current context would make its port walk (R393, R395): it passes the segment's checks, and the micro-TLB has no leaf
that answers it. -/
def mustWalk (s : State) (q : Nat) (o : Int) (a : Access) : Bool :=
  let c := s.me
  let d := c.segd q
  (segFault s.layer d o a).isNone && dSpace d = 2
    && (splitAtMultiple 4096 (dBase d + o.toNat) a.n).any fun x =>
      match (s.core s.here).utlb.find? fun e => e.part = c.part && e.ctx = s.hereCtx && e.covers x.1 with
      | none => true
      | some e => leafFail c.sec a.pte e != 0 && leafFail c.sec a.pte e != 3 && !e.fresh

/-- The bank that an access to a place waits for, where one is not active (R426). -/
def asleep (s : State) (locs : List Nat) : Option (Nat × Nat) := locs.findSome? fun l => sleeping s l

/-- An access that touches a bank in retention waits for its exit (R426). -/
def awake (locs : List Nat) : M Unit := do
  match asleep (← get) locs with
  | some (c, b) => throw (.bank c b)
  | none => pure ()

/-- The context's outstanding plain access is performed before the next instruction accesses memory (Table 2.10). -/
def settled : M Unit := do
  let c ← me
  stallIf (c.out.any fun a => !a.rlx) .access

/-! ## Counter blocks (R281, R285, R286) -/

/-- `count` of the counter block at a physical address (Table 10.9), as its page's key gives it. -/
def State.count (s : State) (pa : Nat) (key : Option Nat) : Nat := s.rdKey key pa 8 % 2 ^ 48

/-- The watches that a counter block satisfies fire: each posts its notice and is gone (R286, Table 21.5). -/
def fireWatches (s : State) (pa : Nat) : State :=
  let cid := channelCore s.minimal (paChannel s.minimal pa)
  let due := fun (w : Watch) => w.pa = pa && decide (w.thresh ≤ s.count pa w.page.key)
  if !isHbm pa || s.poisoned pa 8 || !((s.core cid).watches.any due) then s
  else
    (s.core cid).watches.foldl
      (fun t w => if due w then postAs t (.counters cid) cid w.who (hwWord 0x0B (w.num * 2 ^ 48 + s.count pa w.page.key)) 0 else t)
      (s.modCore cid fun k => { k with watches := k.watches.filter fun w => !due w })

/-- The home copy of a counter block, and what its page gives: the sub-cause where its partition has no such block, or where it
is poisoned. -/
def ctrPa (s : State) (part : BitVec 4) (sec : Bool) (dva : Nat) : Except Nat (Nat × Page) :=
  match walkPa s part sec .write dva with
  | .error k => .error k
  | .ok x => if s.poisoned x.1 16 then .error 0x13 else .ok x

/-- The local counter of an armed put. -/
def ArmPut.pa (s : State) (a : ArmPut) : Option (Nat × Page) :=
  match ctrPa s a.part (s.ctx a.issuer).sec a.local_ with | .ok pa => some pa | .error _ => none

/-- An armed put's count has reached its threshold, or global time its deadline (R285). -/
def ArmPut.due (s : State) (a : ArmPut) : Bool :=
  (match a.pa s with | some pa => decide (a.thresh ≤ s.count pa.1 pa.2.key) | none => false)
    || match a.deadline with | some d => decide (d ≤ s.gtime) | none => false

/-- A command that has not begun, with the random values reserved for it (R73). -/
def Prog.init (st : Word) (g : BitVec 2) : Prog :=
  { unit := 0, reads := [], plan := [], buf := [], keep := [], words := [], flags := 0, rng := st, gpos := g, waited := [],
    partly := [], fault := none, done := false, began := false, charged := none }

/-- The command of an armed put that fires. -/
def ArmPut.cmd (a : ArmPut) (seq : Nat) (cls : BitVec 2) : Cmd :=
  { op := .armed a.src a.lineB a.lines a.fmt a.dst a.ctr a.h a.tag a.ln a.deadline, oper := none, dt := none, at_ := none,
    bt := none, dts := [], av := 0, bv := 0, cv := 0, issuer := a.issuer, gen := a.gen, seq := seq, cm := a.cm, fe := 0, sw := false,
    rnd := 1, sat := 0, pfx := false, te := 0, nf := false, words := a.words, grid := 0, cancelled := false, inst := 0,
    cls := cls, prog := Prog.init 0 0 }

/-- The copies of a replicated page's bytes other than the home copy (R390). -/
def otherCopies (pa : Nat) : List Nat := ((upFrom 0 4).map (copyPa pa)).filter (· ≠ pa)

/-- Bytes are written to a place: a word wholly written loses its poison (R165). -/
def putPlace : Place → List Byte → State → State
  | [], _, s => s
  | x :: l, bs, s => putPlace l (bs.drop x.2.1) ((s.putKeyed x.2.2.key x.1 (bs.take x.2.1)).clearPoison x.1 x.2.1)

/-- The writes to the other copies of a place that a write of its home copy leaves to do (R320, R390). `w` names who makes it. -/
def copiesOf (w : Propag) : Place → List Byte → List Propag
  | [], _ => []
  | x :: l, bs =>
    (if x.2.2.repl then (otherCopies x.1).map fun a => { w with key := x.2.2.key, loc := a, data := bs.take x.2.1 } else []) ++ copiesOf w l (bs.drop x.2.1)

/-- Who makes a write (R328, R427): for a store or an atomic, its context and its number in issue order; the core that makes it, and the
number of the put whose line it is. -/
structure Writer where
  src : Option Nat
  seq : Nat
  by_ : Option Nat
  put : Option Nat
  deriving DecidableEq, Repr

/-- The hardware of a core, with no fence waiting for it. -/
def Writer.ofCore (cid : Nat) : Writer := ⟨none, 0, some cid, none⟩
/-- A writer outside the device, or its firmware. -/
def Writer.outside : Writer := ⟨none, 0, none, none⟩

/-- Bytes are written at the home copy of a place and are on their way to its other copies (R313, R320). -/
def putCopies (w : Writer) (p : Place) (bs : List Byte) (s : State) : State :=
  let t := putPlace p bs s
  match copiesOf ⟨w.src, w.seq, w.by_, w.put, none, 0, []⟩ p bs with
  | [] => t
  | l => { t with props := t.props ++ l }

/-- An armed put fires (R285): with `rs`, the local counter's step advances and its count becomes 0; the put enters the link
engine's queue as a `put` would, or waits for room in it; its number is free. [DEDUCED: log 49] -/
def fireArm (cid : Nat) (s : State) (a : ArmPut) : State :=
  let s := match a.rs, a.pa s with
    | true, some pa => putCopies (Writer.ofCore cid) [(pa.1, 8, pa.2)] (leBytes 8 ((s.rdKey pa.2.key pa.1 8 / 2 ^ 48 + 1) % 2 ^ 16 * 2 ^ 48)) s
    | _, _ => s
  let s := s.modCore cid fun k => { k with armput := k.armput.filter (·.num != a.num) }
  let c := fun (n : Nat) => a.cmd n (s.ctx a.issuer).qcls
  s.modEng cid .link fun q =>
    if decide (engDepth (engNum .link) ≤ q.queue.length) || !q.enter.isEmpty then { q with enter := q.enter ++ [⟨a.issuer, none, c 0, 0⟩] }
    else { q with queue := q.queue ++ [c q.next.toNat], next := q.next + 1 }

/-- The armed puts whose local counter is the block at `pa` and which are due fire (R285). -/
def fireArms (s : State) (pa : Nat) : State :=
  let mine := fun (a : ArmPut) => match a.pa s with | some x => x.1 = pa && a.due s | none => false
  let due := s.cores.flatMap fun (x : Nat × Core) => (x.2.armput.filter mine).map fun a => (x.1, a)
  due.foldl (fun (t : State) (x : Nat × ArmPut) => fireArm x.1 t x.2) s

/-- A write to memory may satisfy the watches and the armed puts of the counter block that it touches, whoever makes it (R285, R286). -/
def afterWrite (s : State) (loc : Nat) : State := fireArms (fireWatches s (loc / 16 * 16)) (loc / 16 * 16)

/-- The places where 16-byte blocks that a range touches begin. -/
def blocksOf (loc n : Nat) : List Nat := (blockNums loc n).map (16 * ·)

/-- Bytes are written to a place of memory (R164, R285, R286, R313, R320). -/
def writeAt (w : Writer) (p : Place) (bs : List Byte) (s : State) : State :=
  (p.flatMap fun x => blocksOf x.1 x.2.1).foldl afterWrite (putCopies w p bs s)

/-! ## Full-empty granules (R171–R174) -/

/-- A granule is empty. -/
def State.isEmpty (s : State) (g : Nat) : Bool := s.empties.elem g
/-- Marks a granule without waking anyone. -/
def State.mark (s : State) (g : Nat) (full : Bool) : State :=
  { s with empties := if full then ndel s.empties g else nins s.empties g }

/-- Writes a value that an access returns to a context's register; none where its port, `qout` or mailbox does not take it yet (R51,
R166). [DEDUCED: log 24] -/
def deliver (s : State) (m : Nat) (d : Reg) (v : Word) : Option State :=
  if d.toNat < 24 then some (s.modCtx m fun c => c.setReg d.toNat v)
  else if d.toNat = 31 then some s
  else match writeReg d v { s with cur := m } with
    | .ok _ t => some { t with cur := s.cur }
    | .error _ _ => none

/-- A waiting full-empty instruction completes: it takes the words that it has read from queues, and its context goes on behind it (R29). -/
def feDone (s : State) (w : FeWaiter) : State :=
  (resumed (takePops s w.who) w.who).modCtx w.who fun c => { c with via := c.pc, pc := w.npc }

/-- The traps of a waiting full-empty load (R165). -/
def feTrap (s : State) (w : FeWaiter) : State :=
  takeTrapOf s w.who ⟨⟨0x13, w.info⟩, (s.ctx w.who).pc, w.instr, 0⟩

/-- A waiter that a full granule satisfies. -/
def FeWaiter.wantsFull (w : FeWaiter) : Bool :=
  match w.kind with | .ldfk _ | .ldfc _ => true | .engFull .. => w.who = 0 | _ => false
/-- A waiter that an empty granule satisfies. -/
def FeWaiter.wantsEmpty (w : FeWaiter) : Bool := match w.kind with | .stfe _ | .engEmpty .. => true | _ => false

/-- The banks of a place have been accessed (R426). -/
def touchAt (s : State) (p : Place) : State := p.foldl (fun s x => touch (touch s x.1) (x.1 + (x.2.1 - 1))) s

/-- Serves the first waiter that a granule's state satisfies, and says whether it served one (R173). An engine's claim on
an empty granule stays at the head until the engine has written; a load whose destination does not take its value stays at the head until it does. -/
def serveOne (s : State) (g : Nat) : State × Bool :=
  if s.isEmpty g then
    match s.feq.find? fun w => w.g = g && w.wantsEmpty with
    | some w =>
      match w.kind with
      | .stfe v =>
        let s := { s with feq := s.feq.erase w }
        (feDone ((putPlace w.at_ (leBytes 8 v.toNat) (touchAt s w.at_)).mark g true) w, true)
      | _ =>
        ({ s with feq := s.feq.map fun x => if x = w then { x with who := 1 } else x }, false)
    | none => (s, false)
  else
    match s.feq.find? fun w => w.g = g && w.wantsFull with
    | some w =>
      let t := { s with feq := s.feq.erase w }
      let load := fun (d : Reg) (empties : Bool) =>
        if w.at_.bad s then (feTrap t w, true)
        else match deliver (takePops (touchAt t w.at_) w.who) w.who d (BitVec.ofNat 64 (w.at_.val s)) with
          | some t => (feDone (if empties then t.mark g false else t) w, true)
          | none => (s, false)
      match w.kind with
      | .ldfk d => load d false
      | .ldfc d => load d true
      | _ => ({ s with feq := s.feq.map fun x => if x = w then { x with who := 1 } else x }, true)
    | none => (s, false)

/-- Serves waiters until none is satisfied (R173). -/
def serveN (g : Nat) : (fuel : Nat) → State → State
  | 0, s => s
  | n + 1, s => let (s', b) := serveOne s g; if b then serveN g n s' else s'

/-- Serves the waiters of a granule (R173). [DEDUCED: log 25] -/
def serve (s : State) (g : Nat) : State := serveN g (2 * s.feq.length + 1) s

/-- Marks a granule full or empty at its bank: a change of state serves the waiters; marking a full granule full, or an
empty one empty, wakes no one (R173). -/
def feMark (s : State) (g : Nat) (full : Bool) : State :=
  if s.isEmpty g = !full then s else serve (s.mark g full) g

/-! ## The performance of an access -/

/-- The new value of an atomic (Table 7.9). -/
def amoNew (op : AmoOp) (m b : Nat) : Nat :=
  let z := fun v => toInt 64 v
  match op with
  | .swap => b
  | .add => (m + b) % 2 ^ 64
  | .and => m &&& b
  | .or => m ||| b
  | .xor => m ^^^ b
  | .min => if z m ≤ z b then m else b
  | .max => if z m ≤ z b then b else m
  | .minu => min m b
  | .maxu => max m b
  | .faddS => (fAdd 5 rne (decodeF 5 m) (decodeF 5 b)).1
  | .faddD => (fAdd 4 rne (decodeF 4 m) (decodeF 4 b)).1
  | .fminS => (fMinMax 5 false (decodeF 5 m) (decodeF 5 b) m b).1
  | .fmaxS => (fMinMax 5 true (decodeF 5 m) (decodeF 5 b) m b).1

/-- Bytes of an atomic (Table 7.9). -/
def amoBytes : AmoOp → Nat
  | .faddS | .fminS | .fmaxS => 4
  | _ => 8

/-- The plain stores outstanding on a core, which a core in Rogil mode holds in its store buffer (R321): those issued since the mode began
(R322). -/
def buffered (s : State) (cid : Nat) : List (Nat × Acc) :=
  s.ctxs.flatMap fun (m, c) =>
    if s.hereOf m = cid then
      c.out.filterMap fun a => match a.kind with
        | .store _ => if a.rlx || decide (a.seq < (s.part c.part.toNat).cseq) then none else some (m, a)
        | _ => none
    else []

/-- The youngest buffered store that meets a place. -/
def youngest (l : List (Nat × Acc)) (p : Place) : Option Acc :=
  (l.filter fun x => x.2.home.meets p).foldl (fun r x => match r with
    | some a => if a.seq < x.2.seq then some x.2 else r
    | none => some x.2) none

/-- The value of bytes that lie in a list of locations, each with its byte, in the order of the locations asked for; none where one is not there. -/
def pickBytes (l : List (Nat × Byte)) : List Nat → Option (List Byte)
  | [] => some []
  | a :: t =>
    match l.find? (·.1 = a), pickBytes l t with
    | some x, some bs => some (x.2 :: bs)
    | _, _ => none

/-- What Rogil mode makes of an access of a context (R321): nothing, the value of a buffered store, or a wait. -/
inductive Fwd where | no | value (v : Nat) (b : Acc) | wait
  deriving DecidableEq, Repr

/-- Rogil store forwarding (R321). -/
def forward (s : State) (m : Nat) (a : Acc) : Fwd :=
  if !(s.part (s.ctx m).part.toNat).compat then .no
  else match a.kind with
    | .store _ => .no
    | .load .. =>
      if a.rlx then .no
      else match youngest (buffered s (s.hereOf m)) a.home with
        | none => .no
        | some b =>
          match b.kind with
          | .store v =>
            match pickBytes (b.home.locs.zip (leBytes b.n v.toNat)) a.home.locs with
            | some bs => .value (leVal bs) b
            | none => .wait
          | _ => .wait
    | _ =>
      if (youngest ((buffered s (s.hereOf m)).filter fun x => x.1 != m && decide (x.2.seq < a.seq)) a.home).isSome then .wait else .no

/-- A store is still on its way to the copies of its bytes: it is outstanding, or has not reached every copy. -/
def storeLive (s : State) (q : Nat) : Bool :=
  s.ctxs.any (fun x => x.2.out.any (·.seq = q)) || s.props.any fun p => p.src.isSome && p.seq = q

/-- A context has read a buffered store by forwarding (R314, R321). -/
def noteFwd (s : State) (m : Nat) (b : Acc) : State :=
  s.modCtx m fun c => { c with fwd := ⟨b.seq, b.home⟩ :: c.fwd.filter fun f => storeLive s f.seq }

/-- Removes an outstanding access of a context. -/
def dropAcc (s : State) (m i : Nat) : State := s.modCtx m fun c => { c with out := dropAt c.out i }

/-- The image of a loaded value (R166). -/
def loadImage (signed : Bool) (n v : Nat) : Word :=
  if signed then BitVec.ofInt 64 (toInt (8 * n) v) else BitVec.ofNat 64 v

/-- A poisoned word has been read: a relaxed load's trap is late, any other is precise (R165). Of several relaxed loads that find poison, the
one performed last is reported. [DESIGN CHOICE: log 106] -/
def poisonRead (s : State) (m : Nat) (a : Acc) : State :=
  if a.rlx then s.modCtx m fun c => { c with late := some a.info }
  else takeTrapOf s m ⟨⟨0x13, a.info⟩, a.ipc, a.instr, a.pfxs⟩

/-- A value reaches the destination of an access: the instruction takes the words that it has read from queues (R29) and, where it held its
context, no longer does (R52). -/
def landValue (s : State) (m : Nat) (a : Acc) (d : Reg) (v : Word) : Option State :=
  (deliver (if a.holds then takePops s m else s) m d v).map fun t => if a.holds then resumed t m else t

/-- The effect of an access at its bank or channel (R164–R167, R176, R177); none where the destination does not take its value yet. -/
def perform (s : State) (m : Nat) (a : Acc) : Option State :=
  let w : Writer := ⟨some m, a.seq, some (s.hereOf m), none⟩
  match a.kind with
  | .load sg d => if a.at_.bad s then some (poisonRead s m a) else landValue s m a d (loadImage sg a.n (a.at_.val s))
  | .store v => some (writeAt w a.at_ (leBytes a.n v.toNat) s)
  | .amo op b d =>
    if a.at_.bad s then some (poisonRead s m a)
    else
      let old := a.at_.val s
      landValue (writeAt w a.at_ (leBytes a.n (amoNew op old (b.toNat % 2 ^ (8 * a.n)))) s) m a d (BitVec.ofNat 64 old)
  | .cas e n d =>
    if a.at_.bad s then some (poisonRead s m a)
    else
      let old := a.at_.val s
      landValue (if old = e.toNat then writeAt w a.at_ (leBytes a.n n.toNat) s else s) m a d (BitVec.ofNat 64 old)

/-- No earlier outstanding access of its context meets the bytes of an access (R163). -/
def issueOrder (s : State) (m i : Nat) (a : Acc) : Bool := !(((s.ctx m).out.take i).any fun b => b.home.meets a.home)

/-- Of a read, its context's own stores to the copy it reads have reached it, and so have the buffered stores that it has read there by
forwarding (R314, R321). -/
def readsOwn (s : State) (m : Nat) (a : Acc) : Bool :=
  match a.kind with
  | .store _ => true
  | _ => !(s.props.any fun p => p.src = some m && a.at_.meets [(p.loc, p.data.length, .plain)])
      && !((s.ctx m).fwd.any fun f => f.home.meets a.home && storeLive s f.seq)

/-- An outstanding access of a context may be performed at its bank or channel (R163, R314). -/
def inOrder (s : State) (m i : Nat) (a : Acc) : Bool := issueOrder s m i a && readsOwn s m a

/-- A loaded value waits for its destination to take it (Table 2.10). -/
def noteFull (s : State) (m : Nat) : State :=
  match (s.ctx m).wait with
  | some w => if w.kind = .fullWrite then s else noteWait s m .fullWrite
  | none => noteWait s m .fullWrite

/-- Some core holds a store of a partition in its store buffer (R321, R322). -/
def storesHeld (s : State) (p : Nat) : Bool := s.ctxs.any fun x => x.2.part.toNat = p && !(buffered s (s.hereOf x.1)).isEmpty

/-- A write of 0 to `compat` takes effect when the cores of its partition hold no store any more (R322). -/
def settleDrain (s : State) (p : Nat) : State :=
  if (s.part p).drain && !storesHeld s p then s.modPart p fun q => { q with compat := false, drain := false } else s

/-- What follows the performance of an access: a trap notice that waited for it goes out (R229, R315), and `compat` may change (R322). -/
def performed (s : State) (m : Nat) : State :=
  let t := sendNotice s m
  settleDrain t (t.ctx m).part.toNat

/-- The `i`-th outstanding access of a context is performed, where it may be (R164). -/
def performAt (s : State) (m i : Nat) (e : Ecc) : State :=
  match (s.ctx m).out[i]? with
  | none => s
  | some a =>
    let done := fun (t : Option State) => match t with | some t => performed t m | none => noteFull s m
    if !issueOrder s m i a || isolated s (s.hereOf m) then s
    else match forward s m a with
      | .wait => s
      | .value v b => match a.kind with
        | .load sg d => done (landValue (noteFwd (dropAcc s m i) m b) m a d (loadImage sg a.n v))
        | _ => s
      | .no =>
        if !readsOwn s m a then s
        else match asleep s a.at_.ends with
        | some (c, b) => startExit s c b
        | none =>
          match budgetPlace (.acc m a.seq) (s.hereOf m) (s.ctx m).part.toNat (s.ctx m).qcls.toNat a.at_ s with
          | .error t => t
          | .ok t => done (perform (dropAcc (applyEcc (touchAt t a.at_) a.at_.loc e) m i) m a)

/-- A key lies in a partition's range (R391). -/
def Partition.hasKey (q : Partition) (k : Nat) : Bool := decide (q.keylo ≤ k) && decide (k ≤ q.keyhi)

/-- A block of HBM4E holds what was written under a key of a partition to which the key of an access does not belong (R5). -/
def foreignBlock (s : State) (key : Option Nat) (b : Nat) : Bool :=
  match key, tagOf s.keyed b with
  | some k, some g =>
    let l := (upFrom 0 16).filter fun p => (s.part p).hasKey g.key
    !l.isEmpty && !(l.any fun p => (s.part p).hasKey k)
  | _, _ => false

/-- Bytes reach a copy of a replicated page, block by block, but for blocks that hold another partition's data (R5, R390). [DESIGN CHOICE: log
102] -/
def putCopy (key : Option Nat) (loc : Nat) (bs : List Byte) : List Nat → State → State
  | [], s => s
  | b :: l, s =>
    let lo := max loc (16 * b)
    let own := (bs.drop (lo - loc)).take (16 * b + 16 - lo)
    putCopy key loc bs l (if foreignBlock s key b then s else (s.putKeyed key lo own).clearPoison lo own.length)

/-- A store reaches a copy of a replicated page, after every earlier store to those bytes (R313, R320). Nothing of a contained core goes on
(R427). [DESIGN CHOICE: log 102] -/
def propagateAt (s : State) (i : Nat) : State :=
  match s.props[i]? with
  | none => s
  | some p =>
    if (s.props.take i).any (fun q => meets q.loc q.data.length p.loc p.data.length) || p.by_.any (isolated s) then s
    else putCopy p.key p.loc p.data (blockNums p.loc p.data.length) { s with props := dropAt s.props i }

end Sys2Proof.Machine
end

