-- ==== Sys2Proof/Machine/Fetch.lean ====
section
/-! DEFINITION. Fetching a group and the decode checks (R35, R84–R86, R93–R98, Table 4.8). -/

namespace Sys2Proof.Machine

open Sys2Proof.Config

/-- A line of a core's instruction cache (R85). -/
def icLine (s : State) (cid line : Nat) : Option (BitVec 512) := tget none (s.core cid).ic line

/-- The line of code memory that a fill reads: the line's 64 bytes. -/
def codeLine (s : State) (cid line : Nat) : BitVec 512 :=
  BitVec.ofNat 512 (s.rd (codeLoc (cidLayer cid) (64 * line)) 64)

/-- A word of code at an address of the code space, or the line that is missing. -/
def icWord (s : State) (cid a : Nat) : Except Nat W32 :=
  match icLine s cid (a / 64), icLine s cid ((a + 3) / 64) with
  | some l, some h =>
    .ok (BitVec.ofNat 32 ((l.toNat + 2 ^ 512 * (if a / 64 = (a + 3) / 64 then 0 else h.toNat)) / 2 ^ (8 * (a % 64))))
  | none, _ => .error (a / 64)
  | _, none => .error ((a + 3) / 64)

/-- What fetching a group finds: its words; a line that is missing; or a fetch fault, with the words fetched before it. -/
inductive Fetched where
  | group (pfxs : List W32) (w0 w1 : W32) (cross : Bool)
  | miss (line : Nat)
  | fault (cause : Nat) (off : Nat) (pfxs : List W32) (w0 : W32)
  deriving DecidableEq, Repr

/-- The check of R35 on a word at offset `o` of the code segment. -/
def fetchFault (d : Desc) (o : Nat) : Option Nat :=
  if !dRight d rX then some 0x08 else if dLimit d < o + 4 then some 0x07 else none

/-- Fetches the words of a group from offset `o`, where `pfxs` have been fetched (R35, R84, R85, R95). -/
def fetchFrom (s : State) (cid : Nat) (d : Desc) : (left : Nat) → (o : Nat) → (pfxs : List W32) → Fetched
  | 0, o, pfxs => .fault 0x07 o pfxs 0
  | n + 1, o, pfxs =>
    match fetchFault d o with
    | some c => .fault c o pfxs 0
    | none =>
      match icWord s cid (dBase d + o) with
      | .error l => .miss l
      | .ok w =>
        if isPfx w && n ≠ 0 then fetchFrom s cid d n (o + 4) (pfxs ++ [w])
        else if isWide w then
          if (dBase d + o) % 64 = 60 then .group pfxs w 0 true
          else match fetchFault d (o + 4) with
            | some c => .fault c (o + 4) pfxs w
            | none =>
              match icWord s cid (dBase d + o + 4) with
              | .error l => .miss l
              | .ok w1 => .group pfxs w w1 false
        else .group pfxs w 0 false

/-- Fetches the group at a context's PC on the core where its thread runs: at most two prefixes and one more word, which
the group rules reject where it is a third prefix. -/
def fetchGroup (s : State) (m : Nat) : Fetched :=
  fetchFrom s (s.hereOf m) ((s.ctx m).segd 0) 3 (s.ctx m).pc.toNat []

/-- A word or two words as the trap record holds them (Table 8.6). -/
def recWord (w0 w1 : W32) : Word := w1 ++ w0

/-- The group record of fetched words. -/
def grpOf (pfxs : List W32) (w0 w1 : W32) : Grp :=
  let find := fun k => pfxs.find? fun p => pfxKind p = k
  { arith := (find 0).isSome
    rnd := match find 0 with | some p => p.extractLsb' 24 3 | none => 0
    sat := match find 0 with | some p => p.extractLsb' 22 2 | none => 0
    nf := match find 0 with | some p => p.getLsbD 21 | none => false
    rlx := (find 1).isSome
    scope := (find 2).map fun p => p.extractLsb' 24 3
    ext := (find 3).map fun p => p.extractLsb' 0 27
    n := pfxs.length
    instr := recWord w0 w1
    pfxs := recWord (pfxs.getD 0 0) (pfxs.getD 1 0) }

/-- What the decode checks find (Table 4.8). -/
inductive Decoded where
  | ok (i : Instr)
  | illegal (f : DecFail)
  | orphan (cause : Nat) (tinfo : Word)
  deriving DecidableEq, Repr

/-- The first prefix word with a bad kind or value (step 3). -/
def badPfx : List W32 → Nat → Option (Nat × W32)
  | [], _ => none
  | p :: l, i => if pfxBad p = 0 then badPfx l (i + 1) else some (i, pfxBad p)

/-- The first prefix whose kind an instruction does not accept (R95). -/
def unaccepted (w0 : W32) : List W32 → Nat → Option Nat
  | [], _ => none
  | p :: l, i => if accepts w0 (pfxKind p) then unaccepted w0 l (i + 1) else some i

/-- Two prefixes of one kind (R95). -/
def repeated : List W32 → Bool
  | [p, q] => pfxKind p = pfxKind q
  | _ => false

/-- The decode checks on a fetched group, in the order of Table 4.8. `via` is what an orphaned extension reports (R96). -/
def decodeGroup (layer : Nat) (via : Word) (pfxs : List W32) (w0 w1 : W32) (cross : Bool) : Decoded :=
  let n := pfxs.length
  let third := isPfx w0
  if cross then .illegal (.illegal n 2)
  else match badPfx (if third then pfxs ++ [w0] else pfxs) 0 with
    | some (i, m) => .illegal (.reserved i m)
    | none =>
      if repeated pfxs then .orphan 0x03 1
      else if third then .orphan 0x03 2
      else if !majorAssigned layer w0 then .illegal (.illegal n 0)
      else if n = 0 && hasX w0 && w0.getLsbD 0 then .orphan 0x04 via
      else match unaccepted w0 pfxs 0 with
        | some i => .orphan 0x03 (BitVec.ofNat 64 i)
        | none =>
          if n ≠ 0 && !(hasX w0 && w0.getLsbD 0) then .orphan 0x03 (BitVec.ofNat 64 n)
          else match decode layer n w0 w1 with
            | .ok i => .ok i
            | .error f => .illegal f

/-- The trap of a word that does not decode (R105). -/
def decFailTrap : DecFail → Trap
  | .illegal i r => ⟨0x01, BitVec.ofNat 64 (i * 2 ^ 32 + r)⟩
  | .reserved i m => ⟨0x02, BitVec.ofNat 64 (2 ^ 62 + i * 2 ^ 32 + m.toNat)⟩

/-- The words of the group or of the frame step at which a context stands, as far as the core has fetched them, for a trap
record (Table 8.6). -/
def wordsAt (s : State) (m : Nat) : Word × Word :=
  let c := s.ctx m
  match c.frame with
  | some f => if c.iters = 0 then (0, 0) else (recWord (f.words.getD c.fpos 0) 0, 0)
  | none =>
    match fetchGroup s m with
    | .group pfxs w0 w1 _ => (recWord w0 w1, recWord (pfxs.getD 0 0) (pfxs.getD 1 0))
    | .fault _ _ pfxs w0 => (recWord w0 0, recWord (pfxs.getD 0 0) (pfxs.getD 1 0))
    | .miss _ => (0, 0)

/-- A trap that a context takes at the group where it stands. -/
def trapAt (s : State) (m : Nat) (t : Trap) : State :=
  takeTrapOf s m ⟨t, (s.ctx m).pc, (wordsAt s m).1, (wordsAt s m).2⟩

end Sys2Proof.Machine
end

