-- ==== Sys2Proof/Machine/Flags.lean ====
section
/-! DEFINITION. Integer results and their saturation (R77, R126–R129), conditions (R133, R134, R146), and how flags and
floating-point traps end an instruction (R75, R76). -/

namespace Sys2Proof.Machine

/-- Width of an operation (R126). -/
def width (w : Bool) : Nat := if w then 32 else 64
/-- An operand's unsigned value at a width (R126). -/
def opU (w : Bool) (v : Word) : Nat := v.toNat % 2 ^ width w
/-- An operand's signed value at a width (R126). -/
def opS (w : Bool) (v : Word) : Int := toInt (width w) v.toNat
/-- The register image of a result of a width: a 32-bit result is written sign-extended (R126). -/
def resImage (w : Bool) (v : Nat) : Word := if w then BitVec.ofInt 64 (toInt 32 v) else BitVec.ofNat 64 v
/-- The register image of an exact result wrapped to a width. -/
def wrapImage (w : Bool) (e : Int) : Word := resImage w (ofInt (width w) e)

/-- An exact result under a saturation field (R77): the image and the flag. -/
def saturate (w : Bool) (sk : Nat) (e : Int) : Word × BitVec 6 :=
  let lo := intLo (sk = 1) (width w)
  let hi := intHi (sk = 1) (width w)
  if sk = 0 then (wrapImage w e, 0)
  else if e < lo then (wrapImage w lo, fSAT)
  else if hi < e then (wrapImage w hi, fSAT)
  else (wrapImage w e, 0)

/-- An operand of a saturating function: unsigned under `sat=u`, signed otherwise (R126). -/
def opSat (w : Bool) (sk : Nat) (v : Word) : Int := if sk = 2 then opU w v else opS w v

/-- The shift amount of a register operand (R126). -/
def shAmt (w : Bool) (b : Word) : Nat := b.toNat % width w

/-- Division with its corner cases (R128, Table 6.3), before saturation: quotient truncated toward zero. -/
def quotInt (a b : Int) : Int := a.tdiv b
/-- The remainder, with the sign of the dividend (R128). -/
def remInt (a b : Int) : Int := a.tmod b

/-- The carry-less product (R127). -/
def clmulN (a : Nat) : (fuel : Nat) → (b : Nat) → Nat
  | 0, _ => 0
  | n + 1, b => (if a % 2 = 1 then b else 0) ^^^ clmulN (a / 2) n (2 * b)

/-- Leading zero bits of a value of width `n` (Table 6.2). -/
def clzN (n v : Nat) : Nat := if v % 2 ^ n = 0 then n else n - 1 - (v % 2 ^ n).log2
/-- Trailing zero bits (Table 6.2). -/
def ctzN : (n : Nat) → Nat → Nat
  | 0, _ => 0
  | n + 1, v => if v % 2 = 1 then 0 else 1 + ctzN n (v / 2)
/-- One bits (Table 6.2). -/
def popcN : (n : Nat) → Nat → Nat
  | 0, _ => 0
  | n + 1, v => v % 2 + popcN n (v / 2)
/-- Bits reversed (Table 6.2). -/
def brevN : (n : Nat) → Nat → Nat
  | 0, _ => 0
  | n + 1, v => v % 2 * 2 ^ n + brevN n (v / 2)
/-- Bytes reversed (Table 6.2). -/
def bswapN : (n : Nat) → Nat → Nat
  | 0, _ => 0
  | n + 1, v => v % 256 * 256 ^ n + bswapN n (v / 256)

/-- The conditions of `cmp`, `cmpi` and the branches. -/
inductive Cond where | eq | ne | lt | ge | ltu | geu
  deriving DecidableEq, Repr

/-- A condition on two operands at a width (R133, R146). -/
def Cond.holds (c : Cond) (w : Bool) (a b : Word) : Bool :=
  match c with
  | .eq => opU w a = opU w b
  | .ne => opU w a ≠ opU w b
  | .lt => opS w a < opS w b
  | .ge => opS w b ≤ opS w a
  | .ltu => opU w a < opU w b
  | .geu => opU w b ≤ opU w a

/-! ## Flags and traps -/

/-- The saturation field in effect: 00 without an arithmetic modifier (R126). -/
def Grp.sk (g : Grp) : Nat := if g.arith then g.sat.toNat else 0

/-- The flags of an instruction's operations: an `nf` field keeps them out (R75). -/
def addFlags (f : BitVec 6) : M Unit := do
  let g := (← get).grp
  if g.arith && g.nf then pure () else setFlags f

/-- The trap-enable bits of `mode` (Table 2.6). -/
def Context.te (c : Context) : BitVec 5 := c.mode.extractLsb' 3 5

/-- Raises fp-exception where an exception raised is enabled (R76). -/
def fpTrap (f : BitVec 6) : M Unit := do
  let c ← me
  raiseIf ((f.extractLsb' 1 5 &&& c.te) != 0) 0x0D (f.toNat / 2)

/-- The effective rounding mode (R67). -/
def effRnd (g : Grp) (mode : Word) : Nat := if g.arith && g.rnd != 0 then g.rnd.toNat else nbits mode.toNat 2 0

/-- The rounding environment of the current instruction; under RSR one 16-bit value is drawn for it (R67, R69, R73). -/
def rounding (draws : Bool) : M REnv := do
  let s ← get
  let r := effRnd s.grp s.me.mode
  let v : REnv := ⟨r, s.grp.arith, s.grp.sat.toNat, false, 0⟩
  if r = 6 && draws then
    let (p, st, g) := draw s.me.rngst s.me.gpos
    set (s.modMe fun c => { c with rngst := st, gpos := g })
    return { v with rho := p }
  else return v

end Sys2Proof.Machine
end

