-- ==== Sys2Proof/Machine/Run.lean ====
section
/-! DEFINITION. How an instruction's effect ends its step: it completes and the PC moves, or it stops (R29, R51, R98,
R148). -/

namespace Sys2Proof.Machine

open Sys2Proof.Config

/-- What every step of the machine answers. -/
abbrev Out := Host.Outcome State Fault Refusal

/-- What an instruction that does not complete leaves behind: `s0` is the state before it, `s1` the state that it had
reached (R29). [DEDUCED: log 21] -/
def stopped (e : Stop) (s0 s1 : State) : State :=
  match e with
  | .trap t => takeTrap t s0
  | .wait k => noteWait s0 s0.cur k
  | .port d =>
    let c := mbaCid s0.cur
    let q := (s0.core c).portq d
    noteWait (if q.blocked.elem s0.cur then s0
      else s0.modCore c fun k => k.setPortq d ⟨q.q, q.blocked ++ [s0.cur]⟩) s0.cur (.emptyPort d)
  | .tlb dva info drop =>
    noteWait (askPort s0 s0.cur dva drop ⟨⟨0, info⟩, s0.me.pc, s0.grp.instr, s0.grp.pfxs⟩) s0.cur .tlb
  | .bank c b => noteWait (startExit s0 c b) s0.cur .retention
  | .line l =>
    noteWait (s0.modCore s0.here fun k => { k with icreq := nins k.icreq l }) s0.cur .icache
  | .trapPc t pc => takeTrapOf s0 s0.cur ⟨t, pc, s0.grp.instr, s0.grp.pfxs⟩
  | .unpaid u b w q p j => noteWait { s0 with window := u, budgets := b, served := w, bwait := q, spilt := p } s0.cur (.bandwidth j)
  | .hold => s1
  | .mute => muteTaken s0

/-- Runs an instruction of `len` bytes whose effect leaves the PC to advance (R98). -/
def runInstr (len : Nat) (body : M Unit) (s : State) : Out :=
  match body s with
  | .ok _ t => .next (t.goto (s.nextPc len) s.me.pc)
  | .error e t => .next (stopped e s t)

/-- Runs an instruction whose effect names the PC that follows and what an orphaned extension there reports (R96). -/
def runJump (body : M (Word × Word)) (s : State) : Out :=
  match body s with
  | .ok (pc, via) t => .next (t.goto pc via)
  | .error e t => .next (stopped e s t)

/-- Runs an instruction whose effect sets its own context's state. -/
def runWhole (body : M Unit) (s : State) : Out :=
  match body s with
  | .ok _ t => .next t
  | .error e t => .next (stopped e s t)

/-- An event's effect. -/
def runEvent (f : State → State) (s : State) : Out := .next (f s)

/-- The checks of a transfer's target (R148). -/
def checkTarget (t : Word) : M Unit := do
  raiseIf (decide (2 ^ 48 ≤ t.toNat)) 0x07 t.toNat
  raiseIf (t.toNat % 4 != 0) 0x09 t.toNat

/-- A displacement in words from the PC of the current group (R87). -/
def relTarget (s : State) (k : Nat) (disp : BitVec k) : Word := s.me.pc + BitVec.ofNat 64 (4 * s.grp.n) + disp.signExtend 64 * 4

end Sys2Proof.Machine
end

