-- ==== Sys2Proof/Machine/Barrier.lean ====
section
/-! DEFINITION. Barriers (R198–R201). -/

namespace Sys2Proof.Machine

open Sys2Proof.Config

/-- Key of the barrier instance that a context names by a scope and an id (R198). -/
def barKey (m scope id : Nat) : Nat :=
  let sc := scopeNorm scope m
  (sc * 2 ^ 20 + scopeInst sc m) * 64 + id
/-- A barrier instance. -/
def State.bar (s : State) (key : Nat) : Bar := tget Bar.init s.bars key
/-- Replaces a barrier instance. -/
def State.setBar (s : State) (key : Nat) (b : Bar) : State := { s with bars := tset s.bars key b }

/-- The barrier completion word (Table 8.2). -/
def barWord (key : Nat) (phase : W32) : Word := hwWord 2 (key / 2 ^ 26 * 2 ^ 48 + key % 64 * 2 ^ 32 + phase.toNat)

/-- The instance is a pod's (R21). -/
def barPod (key : Nat) : Bool := key / 2 ^ 26 = 7

/-- The members on other devices have arrived (R21, R200). [DESIGN CHOICE: log 85] -/
def peersReady (s : State) (key : Nat) (b : Bar) : Bool :=
  !barPod key || decide (b.began + peersArrive (key % 64) b.phase.toNat b.began ≤ s.tick)

/-- A phase in which every member has arrived is complete: its completion word goes to every context that arrived in it, and
the phase advances (R200, R201). -/
def completeBar (s : State) (key : Nat) : State :=
  let b := s.bar key
  if !b.arrived.isEmpty && b.members.all b.arrived.elem && peersReady s key b && !hwBusy s (.barrier key) then
    (b.arrived.foldl (fun s m => postAs s (.barrier key) (mbaCid m) m (barWord key b.phase) 0) s).setBar key
      ⟨b.phase + 1, b.members, [], s.tick⟩
  else s

/-- The phase with which a context that joins an instance must agree (R199): that of the members here, or of members on other devices.
[DESIGN CHOICE: log 85] -/
def barPhase (s : State) (key : Nat) : Option W32 :=
  let i := s.bar key
  if i.members.isEmpty then (if barPod key then peerPhase (key % 64) s.tick else none) else some i.phase

/-- The barrier id in register `a` (R198). -/
def barId (a : Reg) : M Nat := do
  let v ← readReg a
  raiseIf (decide (63 < v.toNat)) 0x02 v.toNat
  return v.toNat

/-- `bar.init` (R199). The membership is judged before the phase. [DESIGN CHOICE: log 111] -/
def bodyBarInit (a b : Reg) (scope : BitVec 3) : M Unit := do
  noMigrant
  let id ← readReg a
  let ph := (← readReg b).setWidth 32
  raiseIf (decide (63 < id.toNat)) 0x02 id.toNat
  let s ← get
  let key := barKey s.cur scope.toNat id.toNat
  let i := s.bar key
  raiseIf (i.members.elem s.cur) 0x02 id.toNat
  let now := barPhase s key
  raiseIf (now.any (· != ph)) 0x02 (now.getD 0).toNat
  set (s.setBar key ⟨ph, nins i.members s.cur, i.arrived, if i.members.isEmpty then s.tick else i.began⟩)
/-- The step of `bar.init`. -/
def execBarInit (a b : Reg) (scope : BitVec 3) (s : State) : Out := runInstr 4 (bodyBarInit a b scope) s

/-- `bar.arrive`: a release (R200). -/
def bodyBarArrive (a : Reg) (scope : BitVec 3) : M Unit := do
  noMigrant
  let id ← barId a
  let s ← get
  let key := barKey s.cur scope.toNat id
  let i := s.bar key
  raiseIf (!i.members.elem s.cur || i.arrived.elem s.cur) 0x02 id
  released
  set (completeBar (s.setBar key { i with arrived := nins i.arrived s.cur }) key)
/-- The step of `bar.arrive`. -/
def execBarArrive (a : Reg) (scope : BitVec 3) (s : State) : Out := runInstr 4 (bodyBarArrive a scope) s

/-- A context leaves an instance (R201). -/
def leaveBar (s : State) (m key : Nat) : State :=
  let i := s.bar key
  completeBar (s.setBar key { i with members := ndel i.members m }) key

/-- `bar.leave` (R201). -/
def bodyBarLeave (a : Reg) (scope : BitVec 3) : M Unit := do
  noMigrant
  let id ← barId a
  let s ← get
  let key := barKey s.cur scope.toNat id
  raiseIf (!(s.bar key).members.elem s.cur) 0x02 id
  set (leaveBar s s.cur key)
/-- The step of `bar.leave`. -/
def execBarLeave (a : Reg) (scope : BitVec 3) (s : State) : Out := runInstr 4 (bodyBarLeave a scope) s

/-- A context leaves every instance of which it is a member (R201). -/
def leaveAllBars (s : State) (m : Nat) : State :=
  (s.bars.filter fun x => x.2.members.elem m).foldl (fun s x => leaveBar s m x.1) s

end Sys2Proof.Machine
end

