-- ==== Sys2Proof/Machine/Capo.lean ====
section
/-! DEFINITION. The capo: the lease on a quad's matrix array (R225, R226, R258–R260). -/

namespace Sys2Proof.Machine

open Sys2Proof.Config

/-- Length of a term in base cycles (R259). -/
def termCycles : Nat := 4096
/-- Matrix commands of a term (R259). -/
def termCommands : Nat := 64

/-- A term begins for a context; the grant of a request that `mxlease` entered posts its word (R258, Table 8.2). -/
def beginTerm (s : State) (q m : Nat) (fresh : Bool) : State :=
  let l := s.lease q
  let terms := l.terms + 1
  let s := s.modLease q fun l =>
    { l with holder := some m, lastCh := cidChild (mbaCid m), terms := terms, began := s.cycles 0, used := 0 }
  if fresh then postAs s (.lease q) (mbaCid m) m (hwWord 3 terms.toNat) 0 else s

/-- The request that a free array grants: cores in rotation after the last holder's, the oldest request of a core first
(R258). -/
def nextRequest (l : Lease) : Option LReq :=
  (upFrom 1 4).findSome? fun k => l.reqs.find? fun r => cidChild (mbaCid r.who) = (l.lastCh + k) % 4

/-- A free array with requests is granted (R258), where no earlier grant word of the array still waits to be posted (R195). -/
def grantLease (s : State) (q : Nat) : State :=
  let l := s.lease q
  match l.holder, if hwBusy s (.lease q) then none else nextRequest l with
  | none, some r => beginTerm (s.modLease q fun l => { l with reqs := l.reqs.erase r }) q r.who r.fresh
  | _, _ => s

/-- A term ends by count or by time (R259), where no earlier grant word of the array still waits to be posted (R195). -/
def endTerm (s : State) (q : Nat) : State :=
  let l := s.lease q
  match if hwBusy s (.lease q) then none else l.holder with
  | none => s
  | some m =>
    if l.reqs.isEmpty then beginTerm s q m false
    else grantLease (s.modLease q fun l => { l with holder := none, reqs := l.reqs ++ [⟨m, false⟩] }) q

/-- A context ends its lease or withdraws its request (R226). -/
def releaseLease (s : State) (m : Nat) : State :=
  let q := quadBase (mbaCid m)
  if cidLayer (mbaCid m) ≠ 0 then s
  else
    let s := s.modLease q fun l => { l with reqs := l.reqs.filter (·.who != m) }
    if (s.lease q).holder = some m then grantLease (s.modLease q fun l => { l with holder := none }) q else s

/-- `mxlease` (R225). -/
def bodyMxlease (d : Reg) : M Unit := do
  noMigrant
  let s ← get
  raiseIf (s.layer != 0) 0x02 s.layer
  let q := quadBase (mbaCid s.cur)
  let l := s.lease q
  if l.holder = some s.cur || l.reqs.any (·.who = s.cur) then writeReg d 1
  else
    writeReg d 0
    modify fun s => grantLease (s.modLease q fun l => { l with reqs := l.reqs ++ [⟨s.cur, true⟩] }) q
/-- The step of `mxlease`. -/
def execMxlease (d : Reg) (s : State) : Out := runInstr 4 (bodyMxlease d) s

/-- `mxrel` (R226). -/
def bodyMxrel : M Unit := do
  noMigrant
  modify fun s => releaseLease s s.cur
/-- The step of `mxrel`. -/
def execMxrel (s : State) : Out := runInstr 4 bodyMxrel s

/-- 4,096 base cycles after a term began it ends (R259); so does one that has ended by count while the array waited to post a word, and a request
that met such a wait is granted. -/
def leaseTimeout (quad : Nat) (s : State) : State :=
  let l := s.lease quad
  if l.holder.isNone then grantLease s quad
  else if decide (l.began + termCycles ≤ s.cycles 0) || decide (termCommands ≤ l.used) then endTerm s quad else s
/-- The step of `LEASE_TERM_TIMEOUT`. -/
def execLeaseTermTimeout (quad : Nat) (s : State) : Out := runEvent (leaseTimeout quad) s

/-- The check that a matrix command makes first (R260): the issuer holds the lease, or waits for its re-grant (R259). -/
def needLease : M Unit := do
  let s ← get
  let l := s.lease (quadBase (mbaCid s.cur))
  if l.holder = some s.cur then stallIf (decide (termCommands ≤ l.used)) .lease
  else if l.reqs.any (fun r => r.who = s.cur && !r.fresh) then stall .lease
  else raise 0x11 (s.grp.instr.toNat % 2 ^ 32)

/-- A matrix command has entered a queue under the holder's term; the 64th ends the term (R259). -/
def countCommand (s : State) (q : Nat) : State :=
  let s := s.modLease q fun l => { l with used := l.used + 1 }
  if termCommands ≤ (s.lease q).used then endTerm s q else s

end Sys2Proof.Machine
end

