-- ==== Sys2Proof/Machine/Float.lean ====
section
/-! DEFINITION. Floating-point instructions (majors 0x14–0x17; chapter 6) -/

namespace Sys2Proof.Machine

/-- Ends a floating-point instruction: an enabled exception traps in place of completing; otherwise the result and the
flags are written (R75, R76, R139). -/
def fpEnd (d : Reg) (code : Nat) (r : FRes) : M Unit := do
  fpTrap r.2
  writeReg d (image code r.1)
  addFlags r.2

/-- The format of a `.s` or `.d` instruction (R139). -/
def fpFmt (dbl : Bool) : Nat := if dbl then 4 else 5

/-- An operand's bits under the image of a format (R55). -/
def fpBits (code : Nat) (v : Word) : Nat := v.toNat % 2 ^ fmtBits code

/-- A floating-point function of two registers; `draws` where it rounds (R69, R73). -/
def fp2 (d a b : Reg) (dbl draws : Bool) (f : (code : Nat) → REnv → Nat → Nat → FRes) : M Unit := do
  fields [d, a, b]
  let x ← readReg a
  let y ← readReg b
  let v ← rounding draws
  fpEnd d (fpFmt dbl) (f (fpFmt dbl) v (fpBits (fpFmt dbl) x) (fpBits (fpFmt dbl) y))

/-- A floating-point function of one register. -/
def fp1 (d a : Reg) (dbl draws : Bool) (f : (code : Nat) → REnv → Nat → FRes) : M Unit := do
  fields [d, a]
  let x ← readReg a
  let v ← rounding draws
  fpEnd d (fpFmt dbl) (f (fpFmt dbl) v (fpBits (fpFmt dbl) x))

/-- A function of the values of two operands. -/
def onVals2 (f : Nat → REnv → FVal → FVal → FRes) (code : Nat) (v : REnv) (x y : Nat) : FRes :=
  f code v (decodeF code x) (decodeF code y)
/-- A function of the value of one operand. -/
def onVals1 (f : Nat → REnv → FVal → FRes) (code : Nat) (v : REnv) (x : Nat) : FRes := f code v (decodeF code x)

/-- The place of a format's sign bit. -/
def signPos (code : Nat) : Nat := fmtBits code - 1
/-- Bits with the sign bit set to `s`, NaNs included (R139). -/
def withSign (code x : Nat) (s : Bool) : Nat := x % 2 ^ signPos code + (if s then 2 ^ signPos code else 0)

/-- A fused multiply-add (R143). -/
def fp3 (d a b c : Reg) (dbl negP negC : Bool) : M Unit := do
  fields [d, a, b, c]
  let x ← readReg a
  let y ← readReg b
  let z ← readReg c
  let v ← rounding true
  let k := fpFmt dbl
  let dec := fun w => decodeF k (fpBits k w)
  fpEnd d k (fFmaOp k v negP negC (dec x) (dec y) (dec z))

/-- `fcmp` (R144). -/
def fpCompare (cond : Nat) (k : BitVec 5) (a b : Reg) (dbl : Bool) : M Unit := do
  fields [a, b]
  let x ← readReg a
  let y ← readReg b
  let c := fpFmt dbl
  let (r, fl) := fCompare cond (decodeF c (fpBits c x)) (decodeF c (fpBits c y))
  fpTrap fl
  modMe fun m => m.setK k.toNat r
  addFlags fl

/-- `fadd` (R139). -/
def bodyFadd (d a b : Reg) (dbl : Bool) : M Unit := fp2 d a b dbl true (onVals2 fAdd)
/-- The step of `fadd`. -/
def execFadd (d a b : Reg) (dbl _x : Bool) (s : State) : Out := runInstr 4 (bodyFadd d a b dbl) s

/-- `fsub` (R139). -/
def bodyFsub (d a b : Reg) (dbl : Bool) : M Unit := fp2 d a b dbl true (onVals2 fSub)
/-- The step of `fsub`. -/
def execFsub (d a b : Reg) (dbl _x : Bool) (s : State) : Out := runInstr 4 (bodyFsub d a b dbl) s

/-- `fmul` (R139). -/
def bodyFmul (d a b : Reg) (dbl : Bool) : M Unit := fp2 d a b dbl true (onVals2 fMul)
/-- The step of `fmul`. -/
def execFmul (d a b : Reg) (dbl _x : Bool) (s : State) : Out := runInstr 4 (bodyFmul d a b dbl) s

/-- `fdiv` (R139). -/
def bodyFdiv (d a b : Reg) (dbl : Bool) : M Unit := fp2 d a b dbl true (onVals2 fDiv)
/-- The step of `fdiv`. -/
def execFdiv (d a b : Reg) (dbl _x : Bool) (s : State) : Out := runInstr 4 (bodyFdiv d a b dbl) s

/-- `fsqrt` (R139). -/
def bodyFsqrt (d a : Reg) (dbl : Bool) : M Unit := fp1 d a dbl true (onVals1 fSqrt)
/-- The step of `fsqrt`. -/
def execFsqrt (d a : Reg) (dbl _x : Bool) (s : State) : Out := runInstr 4 (bodyFsqrt d a dbl) s

/-- `fmin` (R140). -/
def bodyFmin (d a b : Reg) (dbl : Bool) : M Unit := 
  fp2 d a b dbl false fun c _ x y => fMinMax c false (decodeF c x) (decodeF c y) x y
/-- The step of `fmin`. -/
def execFmin (d a b : Reg) (dbl _x : Bool) (s : State) : Out := runInstr 4 (bodyFmin d a b dbl) s

/-- `fmax` (R140). -/
def bodyFmax (d a b : Reg) (dbl : Bool) : M Unit := 
  fp2 d a b dbl false fun c _ x y => fMinMax c true (decodeF c x) (decodeF c y) x y
/-- The step of `fmax`. -/
def execFmax (d a b : Reg) (dbl _x : Bool) (s : State) : Out := runInstr 4 (bodyFmax d a b dbl) s

/-- `fabs` (R139). -/
def bodyFabs (d a : Reg) (dbl : Bool) : M Unit := fp1 d a dbl false fun c _ x => (withSign c x false, 0)
/-- The step of `fabs`. -/
def execFabs (d a : Reg) (dbl _x : Bool) (s : State) : Out := runInstr 4 (bodyFabs d a dbl) s

/-- `fneg` (R139). -/
def bodyFneg (d a : Reg) (dbl : Bool) : M Unit := fp1 d a dbl false fun c _ x => (withSign c x (!nbit x (signPos c)), 0)
/-- The step of `fneg`. -/
def execFneg (d a : Reg) (dbl _x : Bool) (s : State) : Out := runInstr 4 (bodyFneg d a dbl) s

/-- `fsgnj` (R139). -/
def bodyFsgnj (d a b : Reg) (dbl : Bool) : M Unit := 
  fp2 d a b dbl false fun c _ x y => (withSign c x (nbit y (signPos c)), 0)
/-- The step of `fsgnj`. -/
def execFsgnj (d a b : Reg) (dbl _x : Bool) (s : State) : Out := runInstr 4 (bodyFsgnj d a b dbl) s

/-- `fclass` (R141). -/
def bodyFclass (d a : Reg) (dbl : Bool) : M Unit := do
  fields [d, a]
  let x ← readReg a
  writeReg d (BitVec.ofNat 64 (fClass (fpFmt dbl) (decodeF (fpFmt dbl) (fpBits (fpFmt dbl) x))))
/-- The step of `fclass`. -/
def execFclass (d a : Reg) (dbl _x : Bool) (s : State) : Out := runInstr 4 (bodyFclass d a dbl) s

/-- `frcpa` (R142). -/
def bodyFrcpa (d a : Reg) (dbl : Bool) : M Unit := fp1 d a dbl false (onVals1 fRcpa)
/-- The step of `frcpa`. -/
def execFrcpa (d a : Reg) (dbl _x : Bool) (s : State) : Out := runInstr 4 (bodyFrcpa d a dbl) s

/-- `frsqa` (R142). -/
def bodyFrsqa (d a : Reg) (dbl : Bool) : M Unit := fp1 d a dbl false (onVals1 fRsqa)
/-- The step of `frsqa`. -/
def execFrsqa (d a : Reg) (dbl _x : Bool) (s : State) : Out := runInstr 4 (bodyFrsqa d a dbl) s

/-- `fexp2a` (R142). -/
def bodyFexp2a (d a : Reg) (dbl : Bool) : M Unit := fp1 d a dbl false (onVals1 fExp2a)
/-- The step of `fexp2a`. -/
def execFexp2a (d a : Reg) (dbl _x : Bool) (s : State) : Out := runInstr 4 (bodyFexp2a d a dbl) s

/-- `flog2a` (R142). -/
def bodyFlog2a (d a : Reg) (dbl : Bool) : M Unit := fp1 d a dbl false (onVals1 fLog2a)
/-- The step of `flog2a`. -/
def execFlog2a (d a : Reg) (dbl _x : Bool) (s : State) : Out := runInstr 4 (bodyFlog2a d a dbl) s

/-- `fma` (R143). -/
def bodyFma (d a b c : Reg) (dbl : Bool) : M Unit := fp3 d a b c dbl false false
/-- The step of `fma`. -/
def execFma (d a b c : Reg) (dbl _x : Bool) (s : State) : Out := runInstr 4 (bodyFma d a b c dbl) s

/-- `fms` (R143). -/
def bodyFms (d a b c : Reg) (dbl : Bool) : M Unit := fp3 d a b c dbl false true
/-- The step of `fms`. -/
def execFms (d a b c : Reg) (dbl _x : Bool) (s : State) : Out := runInstr 4 (bodyFms d a b c dbl) s

/-- `fnma` (R143). -/
def bodyFnma (d a b c : Reg) (dbl : Bool) : M Unit := fp3 d a b c dbl true true
/-- The step of `fnma`. -/
def execFnma (d a b c : Reg) (dbl _x : Bool) (s : State) : Out := runInstr 4 (bodyFnma d a b c dbl) s

/-- `fnms` (R143). -/
def bodyFnms (d a b c : Reg) (dbl : Bool) : M Unit := fp3 d a b c dbl true false
/-- The step of `fnms`. -/
def execFnms (d a b c : Reg) (dbl _x : Bool) (s : State) : Out := runInstr 4 (bodyFnms d a b c dbl) s

/-- `fcmpEq` (R144). -/
def bodyFcmpEq (k : BitVec 5) (a b : Reg) (dbl : Bool) : M Unit := fpCompare 0 k a b dbl
/-- The step of `fcmpEq`. -/
def execFcmpEq (k : BitVec 5) (a b : Reg) (dbl _x : Bool) (s : State) : Out := runInstr 4 (bodyFcmpEq k a b dbl) s

/-- `fcmpLt` (R144). -/
def bodyFcmpLt (k : BitVec 5) (a b : Reg) (dbl : Bool) : M Unit := fpCompare 1 k a b dbl
/-- The step of `fcmpLt`. -/
def execFcmpLt (k : BitVec 5) (a b : Reg) (dbl _x : Bool) (s : State) : Out := runInstr 4 (bodyFcmpLt k a b dbl) s

/-- `fcmpLe` (R144). -/
def bodyFcmpLe (k : BitVec 5) (a b : Reg) (dbl : Bool) : M Unit := fpCompare 2 k a b dbl
/-- The step of `fcmpLe`. -/
def execFcmpLe (k : BitVec 5) (a b : Reg) (dbl _x : Bool) (s : State) : Out := runInstr 4 (bodyFcmpLe k a b dbl) s

/-- `fcmpUn` (R144). -/
def bodyFcmpUn (k : BitVec 5) (a b : Reg) (dbl : Bool) : M Unit := fpCompare 3 k a b dbl
/-- The step of `fcmpUn`. -/
def execFcmpUn (k : BitVec 5) (a b : Reg) (dbl _x : Bool) (s : State) : Out := runInstr 4 (bodyFcmpUn k a b dbl) s

/-- `fcmpEqs` (R144). -/
def bodyFcmpEqs (k : BitVec 5) (a b : Reg) (dbl : Bool) : M Unit := fpCompare 4 k a b dbl
/-- The step of `fcmpEqs`. -/
def execFcmpEqs (k : BitVec 5) (a b : Reg) (dbl _x : Bool) (s : State) : Out := runInstr 4 (bodyFcmpEqs k a b dbl) s

/-- A format code that `fcvt` may name (R55). -/
def cvtCode (c : BitVec 4) : Bool := c.toNat ≤ 12
/-- `fcvt` (R55, R145). -/
def bodyFcvt (d a : Reg) (src dst : BitVec 4) : M Unit := do
  fields [d, a]
  raiseIf (!cvtCode src || !cvtCode dst) 0x01 ((← get).grp.n * 2 ^ 32 + 1)
  let x ← readReg a
  let v ← rounding (canRound src.toNat dst.toNat)
  fpEnd d dst.toNat (fConvert src.toNat dst.toNat v (fpBits src.toNat x))
/-- The step of `fcvt`. -/
def execFcvt (d a : Reg) (src dst : BitVec 4) (_x : Bool) (s : State) : Out := runInstr 4 (bodyFcvt d a src dst) s

end Sys2Proof.Machine
end

