-- ==== Sys2Proof/Machine/Int.lean ====
section
/-! DEFINITION. Integer, immediate, compare and predicate instructions (majors 0x00–0x10, `lix`; chapter 6) -/

namespace Sys2Proof.Machine

/-! ## Shapes -/

/-- A function of two registers: reads a and b, computes a result and flags, writes d (R29, R126). -/
def alu2 (d a b : Reg) (f : (sk : Nat) → Word → Word → Word × BitVec 6) : M Unit := do
  fields [d, a, b]
  let x ← readReg a
  let y ← readReg b
  let (r, fl) := f (← get).grp.sk x y
  writeReg d r
  addFlags fl

/-- A function of one register (R126). -/
def alu1 (d a : Reg) (f : (sk : Nat) → Word → Word × BitVec 6) : M Unit := do
  fields [d, a]
  let x ← readReg a
  let (r, fl) := f (← get).grp.sk x
  writeReg d r
  addFlags fl

/-- The immediate of an RI instruction, extended where the group says so (R99, R129). -/
def immediate (imm : BitVec 13) : M Word := do
  match (← get).grp.ext with
  | some e => return (e ++ imm).signExtend 64
  | none => return imm.signExtend 64

/-- A function of a register and an immediate (R129). -/
def aluI (d a : Reg) (imm : BitVec 13) (f : (sk : Nat) → Word → Word → Word × BitVec 6) : M Unit := do
  fields [d, a]
  let x ← readReg a
  let (r, fl) := f (← get).grp.sk x (← immediate imm)
  writeReg d r
  addFlags fl

/-- A shift by an immediate, which must lie within 0–63 (R129, R105). -/
def aluShI (d a : Reg) (imm : BitVec 13) (f : (sk : Nat) → Word → Word → Word × BitVec 6) : M Unit := do
  fields [d, a]
  raiseIf (decide (64 ≤ imm.toNat)) 0x02 (2 ^ 62 + (← get).grp.n * 2 ^ 32 + imm.toNat / 64 * 2 ^ 7)
  let x ← readReg a
  let (r, fl) := f (← get).grp.sk x (imm.setWidth 64)
  writeReg d r
  addFlags fl

/-! ## Results (Table 6.2) -/

/-- A saturating function of two operands. -/
def satBin (w : Bool) (f : Int → Int → Int) (sk : Nat) (x y : Word) : Word × BitVec 6 :=
  saturate w sk (f (opSat w sk x) (opSat w sk y))
/-- A saturating function of one operand. -/
def satUn (w : Bool) (f : Int → Int) (sk : Nat) (x : Word) : Word × BitVec 6 := saturate w sk (f (opSat w sk x))
/-- A function of two unsigned operands that does not saturate. -/
def natBin (w : Bool) (f : Nat → Nat → Nat) (_ : Nat) (x y : Word) : Word × BitVec 6 :=
  (resImage w (f (opU w x) (opU w y) % 2 ^ width w), 0)
/-- A function of two signed operands that does not saturate. -/
def intBin (w : Bool) (f : Int → Int → Int) (_ : Nat) (x y : Word) : Word × BitVec 6 :=
  (wrapImage w (f (opS w x) (opS w y)), 0)
/-- A function of one unsigned operand that does not saturate. -/
def natUn (w : Bool) (f : Nat → Nat) (_ : Nat) (x : Word) : Word × BitVec 6 := (resImage w (f (opU w x) % 2 ^ width w), 0)
/-- `shl`: A × 2^sh (R126). -/
def shlRes (w : Bool) (sk : Nat) (x y : Word) : Word × BitVec 6 := saturate w sk (opSat w sk x * (2 ^ shAmt w y : Nat))
/-- `shr` (Table 6.2). -/
def shrRes (w : Bool) (_ : Nat) (x y : Word) : Word × BitVec 6 := (resImage w (opU w x / 2 ^ shAmt w y), 0)
/-- `sar` (Table 6.2). -/
def sarRes (w : Bool) (_ : Nat) (x y : Word) : Word × BitVec 6 := (wrapImage w (opS w x / (2 ^ shAmt w y : Nat)), 0)
/-- `rol` (Table 6.2). -/
def rolRes (w : Bool) (_ : Nat) (x y : Word) : Word × BitVec 6 :=
  let n := width w
  let k := shAmt w y
  (resImage w (opU w x * 2 ^ k % 2 ^ n + opU w x / 2 ^ (n - k)), 0)

/-- Division: by zero it raises integer-divide-by-zero where `mode.IDZ` is set, and otherwise sets DZ and gives the
result of Table 6.3 (R128). `val` reads an operand, `zero` is the result of a division by zero, `fin` the image. -/
def divide (d a b : Reg) (val : (sk : Nat) → Word → Int) (f : Int → Int → Int) (zero : Word → Word)
    (img : (sk : Nat) → Int → Word × BitVec 6) : M Unit := do
  fields [d, a, b]
  let x ← readReg a
  let y ← readReg b
  let sk := (← get).grp.sk
  if val sk y = 0 then
    raiseIf (nbit (← me).mode.toNat 8) 0x0C 0
    writeReg d (zero x)
    addFlags fDZ
  else
    let (r, fl) := img sk (f (val sk x) (val sk y))
    writeReg d r
    addFlags fl

/-- The predicate update of `cmp` (R133). -/
def combine (comb : BitVec 2) (old c : Bool) : Bool :=
  match comb.toNat with | 0 => c | 1 => old && c | 2 => old || c | _ => old != c

/-- Predicate bit `i`. -/
def Context.kbit (c : Context) (i : Nat) : Bool := c.k.getLsbD i

/-- `cmp` (R133). -/
def compare (cond : Cond) (k : BitVec 5) (a b : Reg) (w : Bool) (comb : BitVec 2) : M Unit := do
  fields [a, b]
  let x ← readReg a
  let y ← readReg b
  modMe fun c => c.setK k.toNat (combine comb (c.kbit k.toNat) (cond.holds w x y))

/-- `cmpi` (R134). -/
def compareI (cond : Cond) (k : BitVec 5) (a : Reg) (imm : BitVec 10) : M Unit := do
  fields [a]
  let x ← readReg a
  modMe fun c => c.setK k.toNat (cond.holds false x (imm.signExtend 64))

/-- A function of two predicate bits (R136). -/
def predicate (d a b : BitVec 5) (f : Bool → Bool → Bool) : M Unit :=
  modMe fun c => c.setK d.toNat (f (c.kbit a.toNat) (c.kbit b.toNat))

/-! ## The instructions -/

/-- `add` (R126). -/
def bodyAdd (d a b : Reg) (w : Bool) : M Unit := alu2 d a b (satBin w (· + ·))
/-- The step of `add`. -/
def execAdd (d a b : Reg) (w _x : Bool) (s : State) : Out := runInstr 4 (bodyAdd d a b w) s

/-- `sub` (R126). -/
def bodySub (d a b : Reg) (w : Bool) : M Unit := alu2 d a b (satBin w (· - ·))
/-- The step of `sub`. -/
def execSub (d a b : Reg) (w _x : Bool) (s : State) : Out := runInstr 4 (bodySub d a b w) s

/-- `and` (R126). -/
def bodyAnd (d a b : Reg) (w : Bool) : M Unit := alu2 d a b (natBin w (· &&& ·))
/-- The step of `and`. -/
def execAnd (d a b : Reg) (w _x : Bool) (s : State) : Out := runInstr 4 (bodyAnd d a b w) s

/-- `or` (R126). -/
def bodyOr (d a b : Reg) (w : Bool) : M Unit := alu2 d a b (natBin w (· ||| ·))
/-- The step of `or`. -/
def execOr (d a b : Reg) (w _x : Bool) (s : State) : Out := runInstr 4 (bodyOr d a b w) s

/-- `xor` (R126). -/
def bodyXor (d a b : Reg) (w : Bool) : M Unit := alu2 d a b (natBin w (· ^^^ ·))
/-- The step of `xor`. -/
def execXor (d a b : Reg) (w _x : Bool) (s : State) : Out := runInstr 4 (bodyXor d a b w) s

/-- `andn` (R126). -/
def bodyAndn (d a b : Reg) (w : Bool) : M Unit := alu2 d a b (natBin w fun x y => x &&& (2 ^ width w - 1 - y))
/-- The step of `andn`. -/
def execAndn (d a b : Reg) (w _x : Bool) (s : State) : Out := runInstr 4 (bodyAndn d a b w) s

/-- `shl` (R126). -/
def bodyShl (d a b : Reg) (w : Bool) : M Unit := alu2 d a b (shlRes w)
/-- The step of `shl`. -/
def execShl (d a b : Reg) (w _x : Bool) (s : State) : Out := runInstr 4 (bodyShl d a b w) s

/-- `shr` (R126). -/
def bodyShr (d a b : Reg) (w : Bool) : M Unit := alu2 d a b (shrRes w)
/-- The step of `shr`. -/
def execShr (d a b : Reg) (w _x : Bool) (s : State) : Out := runInstr 4 (bodyShr d a b w) s

/-- `sar` (R126). -/
def bodySar (d a b : Reg) (w : Bool) : M Unit := alu2 d a b (sarRes w)
/-- The step of `sar`. -/
def execSar (d a b : Reg) (w _x : Bool) (s : State) : Out := runInstr 4 (bodySar d a b w) s

/-- `rol` (R126). -/
def bodyRol (d a b : Reg) (w : Bool) : M Unit := alu2 d a b (rolRes w)
/-- The step of `rol`. -/
def execRol (d a b : Reg) (w _x : Bool) (s : State) : Out := runInstr 4 (bodyRol d a b w) s

/-- `mul` (R126). -/
def bodyMul (d a b : Reg) (w : Bool) : M Unit := alu2 d a b (satBin w (· * ·))
/-- The step of `mul`. -/
def execMul (d a b : Reg) (w _x : Bool) (s : State) : Out := runInstr 4 (bodyMul d a b w) s

/-- `mulh` (R127). -/
def bodyMulh (d a b : Reg) (w : Bool) : M Unit := alu2 d a b (intBin w fun x y => x * y / (2 ^ width w : Nat))
/-- The step of `mulh`. -/
def execMulh (d a b : Reg) (w _x : Bool) (s : State) : Out := runInstr 4 (bodyMulh d a b w) s

/-- `mulhu` (R127). -/
def bodyMulhu (d a b : Reg) (w : Bool) : M Unit := alu2 d a b (natBin w fun x y => x * y / 2 ^ width w)
/-- The step of `mulhu`. -/
def execMulhu (d a b : Reg) (w _x : Bool) (s : State) : Out := runInstr 4 (bodyMulhu d a b w) s

/-- `div` (R128). -/
def bodyDiv (d a b : Reg) (w : Bool) : M Unit := 
  divide d a b (opSat w) quotInt (fun _ => wrapImage w (-1)) (saturate w)
/-- The step of `div`. [DEDUCED: log 18] -/
def execDiv (d a b : Reg) (w _x : Bool) (s : State) : Out := runInstr 4 (bodyDiv d a b w) s

/-- `divu` (R128). -/
def bodyDivu (d a b : Reg) (w : Bool) : M Unit := 
  divide d a b (fun _ v => (opU w v : Int)) quotInt (fun _ => wrapImage w (-1)) (fun _ e => (wrapImage w e, 0))
/-- The step of `divu`. -/
def execDivu (d a b : Reg) (w _x : Bool) (s : State) : Out := runInstr 4 (bodyDivu d a b w) s

/-- `rem` (R128). -/
def bodyRem (d a b : Reg) (w : Bool) : M Unit := 
  divide d a b (fun _ v => opS w v) remInt (fun x => wrapImage w (opS w x)) (fun _ e => (wrapImage w e, 0))
/-- The step of `rem`. -/
def execRem (d a b : Reg) (w _x : Bool) (s : State) : Out := runInstr 4 (bodyRem d a b w) s

/-- `remu` (R128). -/
def bodyRemu (d a b : Reg) (w : Bool) : M Unit := 
  divide d a b (fun _ v => (opU w v : Int)) remInt (fun x => wrapImage w (opS w x)) (fun _ e => (wrapImage w e, 0))
/-- The step of `remu`. -/
def execRemu (d a b : Reg) (w _x : Bool) (s : State) : Out := runInstr 4 (bodyRemu d a b w) s

/-- `min` (R126). -/
def bodyMin (d a b : Reg) (w : Bool) : M Unit := alu2 d a b (intBin w min)
/-- The step of `min`. -/
def execMin (d a b : Reg) (w _x : Bool) (s : State) : Out := runInstr 4 (bodyMin d a b w) s

/-- `max` (R126). -/
def bodyMax (d a b : Reg) (w : Bool) : M Unit := alu2 d a b (intBin w max)
/-- The step of `max`. -/
def execMax (d a b : Reg) (w _x : Bool) (s : State) : Out := runInstr 4 (bodyMax d a b w) s

/-- `minu` (R126). -/
def bodyMinu (d a b : Reg) (w : Bool) : M Unit := alu2 d a b (natBin w min)
/-- The step of `minu`. -/
def execMinu (d a b : Reg) (w _x : Bool) (s : State) : Out := runInstr 4 (bodyMinu d a b w) s

/-- `maxu` (R126). -/
def bodyMaxu (d a b : Reg) (w : Bool) : M Unit := alu2 d a b (natBin w max)
/-- The step of `maxu`. -/
def execMaxu (d a b : Reg) (w _x : Bool) (s : State) : Out := runInstr 4 (bodyMaxu d a b w) s

/-- `slt` (R126). -/
def bodySlt (d a b : Reg) (w : Bool) : M Unit := alu2 d a b (intBin w fun x y => if x < y then 1 else 0)
/-- The step of `slt`. -/
def execSlt (d a b : Reg) (w _x : Bool) (s : State) : Out := runInstr 4 (bodySlt d a b w) s

/-- `sltu` (R126). -/
def bodySltu (d a b : Reg) (w : Bool) : M Unit := alu2 d a b (natBin w fun x y => if x < y then 1 else 0)
/-- The step of `sltu`. -/
def execSltu (d a b : Reg) (w _x : Bool) (s : State) : Out := runInstr 4 (bodySltu d a b w) s

/-- `clmul` (R127). -/
def bodyClmul (d a b : Reg) : M Unit := alu2 d a b (natBin false fun x y => clmulN x 64 y % 2 ^ 64)
/-- The step of `clmul`. -/
def execClmul (d a b : Reg) (_x : Bool) (s : State) : Out := runInstr 4 (bodyClmul d a b) s

/-- `clmulh` (R127). -/
def bodyClmulh (d a b : Reg) : M Unit := alu2 d a b (natBin false fun x y => clmulN x 64 y / 2 ^ 64)
/-- The step of `clmulh`. -/
def execClmulh (d a b : Reg) (_x : Bool) (s : State) : Out := runInstr 4 (bodyClmulh d a b) s

/-- `clz` (R126). -/
def bodyClz (d a : Reg) (w : Bool) : M Unit := alu1 d a (natUn w (clzN (width w)))
/-- The step of `clz`. -/
def execClz (d a : Reg) (w _x : Bool) (s : State) : Out := runInstr 4 (bodyClz d a w) s

/-- `ctz` (R126). -/
def bodyCtz (d a : Reg) (w : Bool) : M Unit := alu1 d a (natUn w (ctzN (width w)))
/-- The step of `ctz`. -/
def execCtz (d a : Reg) (w _x : Bool) (s : State) : Out := runInstr 4 (bodyCtz d a w) s

/-- `popc` (R126). -/
def bodyPopc (d a : Reg) (w : Bool) : M Unit := alu1 d a (natUn w (popcN (width w)))
/-- The step of `popc`. -/
def execPopc (d a : Reg) (w _x : Bool) (s : State) : Out := runInstr 4 (bodyPopc d a w) s

/-- `brev` (R126). -/
def bodyBrev (d a : Reg) (w : Bool) : M Unit := alu1 d a (natUn w (brevN (width w)))
/-- The step of `brev`. -/
def execBrev (d a : Reg) (w _x : Bool) (s : State) : Out := runInstr 4 (bodyBrev d a w) s

/-- `bswap` (R126). -/
def bodyBswap (d a : Reg) (w : Bool) : M Unit := alu1 d a (natUn w (bswapN (width w / 8)))
/-- The step of `bswap`. -/
def execBswap (d a : Reg) (w _x : Bool) (s : State) : Out := runInstr 4 (bodyBswap d a w) s

/-- `sxb` (R126). -/
def bodySxb (d a : Reg) (w : Bool) : M Unit := alu1 d a (fun _ x => (wrapImage w (toInt 8 x.toNat), 0))
/-- The step of `sxb`. -/
def execSxb (d a : Reg) (w _x : Bool) (s : State) : Out := runInstr 4 (bodySxb d a w) s

/-- `sxh` (R126). -/
def bodySxh (d a : Reg) (w : Bool) : M Unit := alu1 d a (fun _ x => (wrapImage w (toInt 16 x.toNat), 0))
/-- The step of `sxh`. -/
def execSxh (d a : Reg) (w _x : Bool) (s : State) : Out := runInstr 4 (bodySxh d a w) s

/-- `sxw` (R126). -/
def bodySxw (d a : Reg) : M Unit := alu1 d a (fun _ x => (wrapImage false (toInt 32 x.toNat), 0))
/-- The step of `sxw`. -/
def execSxw (d a : Reg) (_x : Bool) (s : State) : Out := runInstr 4 (bodySxw d a) s

/-- `zxb` (R126). -/
def bodyZxb (d a : Reg) (w : Bool) : M Unit := alu1 d a (natUn w (· % 2 ^ 8))
/-- The step of `zxb`. -/
def execZxb (d a : Reg) (w _x : Bool) (s : State) : Out := runInstr 4 (bodyZxb d a w) s

/-- `zxh` (R126). -/
def bodyZxh (d a : Reg) (w : Bool) : M Unit := alu1 d a (natUn w (· % 2 ^ 16))
/-- The step of `zxh`. -/
def execZxh (d a : Reg) (w _x : Bool) (s : State) : Out := runInstr 4 (bodyZxh d a w) s

/-- `zxw` (R126). -/
def bodyZxw (d a : Reg) : M Unit := alu1 d a (natUn false (· % 2 ^ 32))
/-- The step of `zxw`. -/
def execZxw (d a : Reg) (_x : Bool) (s : State) : Out := runInstr 4 (bodyZxw d a) s

/-- `abs` (R126). -/
def bodyAbs (d a : Reg) (w : Bool) : M Unit := alu1 d a (satUn w fun x => x.natAbs)
/-- The step of `abs`. -/
def execAbs (d a : Reg) (w _x : Bool) (s : State) : Out := runInstr 4 (bodyAbs d a w) s

/-- `neg` (R126). -/
def bodyNeg (d a : Reg) (w : Bool) : M Unit := alu1 d a (satUn w fun x => -x)
/-- The step of `neg`. -/
def execNeg (d a : Reg) (w _x : Bool) (s : State) : Out := runInstr 4 (bodyNeg d a w) s

/-- `addi` (R129). -/
def bodyAddi (d a : Reg) (imm : BitVec 13) : M Unit := aluI d a imm (satBin false (· + ·))
/-- The step of `addi`. -/
def execAddi (d a : Reg) (imm : BitVec 13) (_x : Bool) (s : State) : Out := runInstr 4 (bodyAddi d a imm) s

/-- `andi` (R129). -/
def bodyAndi (d a : Reg) (imm : BitVec 13) : M Unit := aluI d a imm (natBin false (· &&& ·))
/-- The step of `andi`. -/
def execAndi (d a : Reg) (imm : BitVec 13) (_x : Bool) (s : State) : Out := runInstr 4 (bodyAndi d a imm) s

/-- `ori` (R129). -/
def bodyOri (d a : Reg) (imm : BitVec 13) : M Unit := aluI d a imm (natBin false (· ||| ·))
/-- The step of `ori`. -/
def execOri (d a : Reg) (imm : BitVec 13) (_x : Bool) (s : State) : Out := runInstr 4 (bodyOri d a imm) s

/-- `xori` (R129). -/
def bodyXori (d a : Reg) (imm : BitVec 13) : M Unit := aluI d a imm (natBin false (· ^^^ ·))
/-- The step of `xori`. -/
def execXori (d a : Reg) (imm : BitVec 13) (_x : Bool) (s : State) : Out := runInstr 4 (bodyXori d a imm) s

/-- `shli` (R129). -/
def bodyShli (d a : Reg) (imm : BitVec 13) : M Unit := aluShI d a imm (shlRes false)
/-- The step of `shli`. -/
def execShli (d a : Reg) (imm : BitVec 13) (_x : Bool) (s : State) : Out := runInstr 4 (bodyShli d a imm) s

/-- `shri` (R129). -/
def bodyShri (d a : Reg) (imm : BitVec 13) : M Unit := aluShI d a imm (shrRes false)
/-- The step of `shri`. -/
def execShri (d a : Reg) (imm : BitVec 13) (_x : Bool) (s : State) : Out := runInstr 4 (bodyShri d a imm) s

/-- `sari` (R129). -/
def bodySari (d a : Reg) (imm : BitVec 13) : M Unit := aluShI d a imm (sarRes false)
/-- The step of `sari`. -/
def execSari (d a : Reg) (imm : BitVec 13) (_x : Bool) (s : State) : Out := runInstr 4 (bodySari d a imm) s

/-- `muli` (R129). -/
def bodyMuli (d a : Reg) (imm : BitVec 13) : M Unit := aluI d a imm (satBin false (· * ·))
/-- The step of `muli`. -/
def execMuli (d a : Reg) (imm : BitVec 13) (_x : Bool) (s : State) : Out := runInstr 4 (bodyMuli d a imm) s

/-- `slti` (R129). -/
def bodySlti (d a : Reg) (imm : BitVec 13) : M Unit := aluI d a imm (intBin false fun x y => if x < y then 1 else 0)
/-- The step of `slti`. -/
def execSlti (d a : Reg) (imm : BitVec 13) (_x : Bool) (s : State) : Out := runInstr 4 (bodySlti d a imm) s

/-- `sltiu` (R129). -/
def bodySltiu (d a : Reg) (imm : BitVec 13) : M Unit := aluI d a imm (natBin false fun x y => if x < y then 1 else 0)
/-- The step of `sltiu`. -/
def execSltiu (d a : Reg) (imm : BitVec 13) (_x : Bool) (s : State) : Out := runInstr 4 (bodySltiu d a imm) s

/-- `li` (R130). -/
def bodyLi (d : Reg) (imm : BitVec 19) : M Unit := do
  fields [d]
  writeReg d (imm.signExtend 64)
/-- The step of `li`. -/
def execLi (d : Reg) (imm : BitVec 19) (s : State) : Out := runInstr 4 (bodyLi d imm) s

/-- `lis` (R131). -/
def bodyLis (d : Reg) (imm : BitVec 19) : M Unit := do
  fields [d]
  raiseIf (!plainReg d) 0x02 d.toNat
  let v ← readReg d
  writeReg d ((v <<< 19) ||| imm.setWidth 64)
/-- The step of `lis`. -/
def execLis (d : Reg) (imm : BitVec 19) (s : State) : Out := runInstr 4 (bodyLis d imm) s

/-- `lix` (R132). -/
def bodyLix (d : Reg) (imm : BitVec 51) : M Unit := do
  fields [d]
  writeReg d (imm.signExtend 64)
/-- The step of `lix`. -/
def execLix (d : Reg) (imm : BitVec 51) (s : State) : Out := runInstr 8 (bodyLix d imm) s

/-- `cmpEq` (R133). -/
def bodyCmpEq (k : BitVec 5) (a b : Reg) (w : Bool) (comb : BitVec 2) : M Unit := compare .eq k a b w comb
/-- The step of `cmpEq`. -/
def execCmpEq (k : BitVec 5) (a b : Reg) (w : Bool) (comb : BitVec 2) (s : State) : Out := runInstr 4 (bodyCmpEq k a b w comb) s

/-- `cmpNe` (R133). -/
def bodyCmpNe (k : BitVec 5) (a b : Reg) (w : Bool) (comb : BitVec 2) : M Unit := compare .ne k a b w comb
/-- The step of `cmpNe`. -/
def execCmpNe (k : BitVec 5) (a b : Reg) (w : Bool) (comb : BitVec 2) (s : State) : Out := runInstr 4 (bodyCmpNe k a b w comb) s

/-- `cmpLt` (R133). -/
def bodyCmpLt (k : BitVec 5) (a b : Reg) (w : Bool) (comb : BitVec 2) : M Unit := compare .lt k a b w comb
/-- The step of `cmpLt`. -/
def execCmpLt (k : BitVec 5) (a b : Reg) (w : Bool) (comb : BitVec 2) (s : State) : Out := runInstr 4 (bodyCmpLt k a b w comb) s

/-- `cmpGe` (R133). -/
def bodyCmpGe (k : BitVec 5) (a b : Reg) (w : Bool) (comb : BitVec 2) : M Unit := compare .ge k a b w comb
/-- The step of `cmpGe`. -/
def execCmpGe (k : BitVec 5) (a b : Reg) (w : Bool) (comb : BitVec 2) (s : State) : Out := runInstr 4 (bodyCmpGe k a b w comb) s

/-- `cmpLtu` (R133). -/
def bodyCmpLtu (k : BitVec 5) (a b : Reg) (w : Bool) (comb : BitVec 2) : M Unit := compare .ltu k a b w comb
/-- The step of `cmpLtu`. -/
def execCmpLtu (k : BitVec 5) (a b : Reg) (w : Bool) (comb : BitVec 2) (s : State) : Out := runInstr 4 (bodyCmpLtu k a b w comb) s

/-- `cmpGeu` (R133). -/
def bodyCmpGeu (k : BitVec 5) (a b : Reg) (w : Bool) (comb : BitVec 2) : M Unit := compare .geu k a b w comb
/-- The step of `cmpGeu`. -/
def execCmpGeu (k : BitVec 5) (a b : Reg) (w : Bool) (comb : BitVec 2) (s : State) : Out := runInstr 4 (bodyCmpGeu k a b w comb) s

/-- `cmpiEq` (R134). -/
def bodyCmpiEq (k : BitVec 5) (a : Reg) (imm : BitVec 10) : M Unit := compareI .eq k a imm
/-- The step of `cmpiEq`. -/
def execCmpiEq (k : BitVec 5) (a : Reg) (imm : BitVec 10) (s : State) : Out := runInstr 4 (bodyCmpiEq k a imm) s

/-- `cmpiNe` (R134). -/
def bodyCmpiNe (k : BitVec 5) (a : Reg) (imm : BitVec 10) : M Unit := compareI .ne k a imm
/-- The step of `cmpiNe`. -/
def execCmpiNe (k : BitVec 5) (a : Reg) (imm : BitVec 10) (s : State) : Out := runInstr 4 (bodyCmpiNe k a imm) s

/-- `cmpiLt` (R134). -/
def bodyCmpiLt (k : BitVec 5) (a : Reg) (imm : BitVec 10) : M Unit := compareI .lt k a imm
/-- The step of `cmpiLt`. -/
def execCmpiLt (k : BitVec 5) (a : Reg) (imm : BitVec 10) (s : State) : Out := runInstr 4 (bodyCmpiLt k a imm) s

/-- `cmpiGe` (R134). -/
def bodyCmpiGe (k : BitVec 5) (a : Reg) (imm : BitVec 10) : M Unit := compareI .ge k a imm
/-- The step of `cmpiGe`. -/
def execCmpiGe (k : BitVec 5) (a : Reg) (imm : BitVec 10) (s : State) : Out := runInstr 4 (bodyCmpiGe k a imm) s

/-- `cmpiLtu` (R134). -/
def bodyCmpiLtu (k : BitVec 5) (a : Reg) (imm : BitVec 10) : M Unit := compareI .ltu k a imm
/-- The step of `cmpiLtu`. -/
def execCmpiLtu (k : BitVec 5) (a : Reg) (imm : BitVec 10) (s : State) : Out := runInstr 4 (bodyCmpiLtu k a imm) s

/-- `cmpiGeu` (R134). -/
def bodyCmpiGeu (k : BitVec 5) (a : Reg) (imm : BitVec 10) : M Unit := compareI .geu k a imm
/-- The step of `cmpiGeu`. -/
def execCmpiGeu (k : BitVec 5) (a : Reg) (imm : BitVec 10) (s : State) : Out := runInstr 4 (bodyCmpiGeu k a imm) s

/-- `sel` (R135). -/
def bodySel (d a b : Reg) (inv : Bool) (kb : BitVec 5) : M Unit := do
  fields [d, a, b]
  let x ← readReg a
  let y ← readReg b
  writeReg d (if (← me).kbit kb.toNat != inv then x else y)
/-- The step of `sel`. -/
def execSel (d a b : Reg) (inv : Bool) (kb : BitVec 5) (s : State) : Out := runInstr 4 (bodySel d a b inv kb) s

/-- `kget` (R136). -/
def bodyKget (d : Reg) : M Unit := do
  fields [d]
  writeReg d ((← me).k.setWidth 64)
/-- The step of `kget`. -/
def execKget (d : Reg) (s : State) : Out := runInstr 4 (bodyKget d) s

/-- `kset` (R136). -/
def bodyKset (a : Reg) : M Unit := do
  fields [a]
  let v ← readReg a
  modMe fun c => { c with k := v.setWidth 32 }
/-- The step of `kset`. -/
def execKset (a : Reg) (s : State) : Out := runInstr 4 (bodyKset a) s

/-- `kand` (R136). -/
def bodyKand (d a b : BitVec 5) : M Unit := predicate d a b (· && ·)
/-- The step of `kand`. -/
def execKand (d a b : BitVec 5) (s : State) : Out := runInstr 4 (bodyKand d a b) s

/-- `kor` (R136). -/
def bodyKor (d a b : BitVec 5) : M Unit := predicate d a b (· || ·)
/-- The step of `kor`. -/
def execKor (d a b : BitVec 5) (s : State) : Out := runInstr 4 (bodyKor d a b) s

/-- `kxor` (R136). -/
def bodyKxor (d a b : BitVec 5) : M Unit := predicate d a b (· != ·)
/-- The step of `kxor`. -/
def execKxor (d a b : BitVec 5) (s : State) : Out := runInstr 4 (bodyKxor d a b) s

/-- `knot` (R136). -/
def bodyKnot (d a : BitVec 5) : M Unit := predicate d a a fun x _ => !x
/-- The step of `knot`. -/
def execKnot (d a : BitVec 5) (s : State) : Out := runInstr 4 (bodyKnot d a) s

end Sys2Proof.Machine
end

