-- ==== Sys2Proof/Machine/Operands.lean ====
section
/-! DEFINITION. Special registers (R41–R47, Tables 2.5, 8.5, 11.6, 21.4, 22.2): their numbers, who may read and write
them, and what a write does. -/

namespace Sys2Proof.Machine

open Sys2Proof.Config

/-- Who owns a special register: its context, its core, its cluster, its partition or the device (Table 2.5). -/
inductive SrOwner where | context | core | cluster | partition | device
  deriving DecidableEq, Repr

/-- The owner of a special register; none where the tables lack the number. -/
def srOwner (n : Nat) : Option SrOwner :=
  if n = 0x000 ∨ n = 0x001 ∨ n = 0x004 ∨ n = 0x007 ∨ n = 0x008 ∨ n = 0x00B ∨ n = 0x00C ∨ n = 0x030
    ∨ n = 0x050 ∨ n = 0x051 ∨ n = 0x052 ∨ n = 0x080 ∨ n = 0x081 ∨ n = 0x083 then some .context
  else if n = 0x005 ∨ n = 0x006 ∨ n = 0x00A ∨ n = 0x082 ∨ (0x010 ≤ n ∧ n ≤ 0x02F) ∨ (0x040 ≤ n ∧ n ≤ 0x045) then some .core
  else if n = 0x060 ∨ n = 0x084 then some .cluster
  else if n = 0x070 then some .partition
  else if n = 0x009 then some .device
  else none

/-- The registers that some context may write (Table 2.5). -/
def srWritable (n : Nat) : Bool :=
  n = 0x000 || n = 0x001 || n = 0x008 || n = 0x00C || (0x010 ≤ n && n ≤ 0x02F) || (0x080 ≤ n && n ≤ 0x083)

/-- The cluster supervisor context (R46): context 0 of the core with cluster core index 0. -/
def clusterSupervisor (m : Nat) : Bool := mbaCtx m = 0 && cidCci (mbaCid m) = 0

/-- The union of `flags` over the contexts of a cluster (R46). -/
def flagUnion (s : State) (key : Nat) : BitVec 6 :=
  (s.ctxs.filter fun x => clKey (mbaCid x.1) = key).foldl (fun f x => f ||| x.2.flags) 0

/-- An engine status register (R47). -/
def EngSt.status (e : EngSt) : Word :=
  BitVec.ofNat 64 (e.last.toNat + (if e.fault then 2 ^ 32 else 0) + e.cause.toNat * 2 ^ 40)

/-- `errcnt` of a cluster (Table 22.3). -/
def Cluster.errcnt (c : Cluster) : Word := BitVec.ofNat 16 c.disc ++ BitVec.ofNat 16 c.unc ++ BitVec.ofNat 32 c.cor

/-- `dlgctl` of a core (Table 11.7). -/
def Server.word (v : Server) : Word :=
  BitVec.ofNat 64 ((if v.en then 1 else 0) + (if v.cur.isSome then 2 else 0) + v.queue.length * 2 ^ 8)

/-- An engine by its number (R223). -/
def engOf : Nat → Option Eng
  | 0 => some .vector | 1 => some .copy | 2 => some .global | 3 => some .matrix | 4 => some .pyramid | 5 => some .link
  | _ => none

/-- The value of a special register of the tables, as the current context reads it on the core where it runs (R184). -/
def srValue (s : State) (n : Nat) : Word :=
  let c := s.me
  let k := s.core s.here
  match n with
  | 0x000 => c.mode
  | 0x001 => c.flags.setWidth 64
  | 0x004 => BitVec.ofNat 64 (c.ctxid.toNat % 16)
  | 0x005 => BitVec.ofNat 64 s.here
  | 0x006 => BitVec.ofNat 64 s.layer
  | 0x007 => BitVec.ofNat 64 (c.part.toNat + if c.sec then 16 else 0)
  | 0x008 => c.msgdst
  | 0x009 => BitVec.ofNat 64 s.gtime
  | 0x00A => BitVec.ofNat 64 (s.cycles s.layer)
  | 0x00B => c.jobseed
  | 0x00C => c.rngst
  | 0x030 => c.fretboard.setWidth 64
  | 0x050 => c.tcause.setWidth 64
  | 0x051 => c.tinfo
  | 0x052 => c.tpc
  | 0x060 => (flagUnion s (clKey (mbaCid s.cur))).setWidth 64
  | 0x070 => if (s.part c.part.toNat).compat then 1 else 0
  | 0x080 => c.qlink
  | 0x081 => c.bowgrp.setWidth 64
  | 0x082 => k.dlg.word
  | 0x083 => c.qcls.setWidth 64
  | 0x084 => (s.cluster (clKey s.here)).errcnt
  | _ =>
    if n < 0x020 then (k.fmt.getD (n - 0x010) 0).setWidth 64
    else if n < 0x030 then (k.bscl.getD (n - 0x020) 0).setWidth 64
    else match engOf (n - 0x040) with | some e => (s.eng s.here e).status | none => 0

/-- The number exists (R41, R105). -/
def srNumber (n : Nat) : M SrOwner := do
  match srOwner n with
  | some o => return o
  | none => raise 0x01 ((← get).grp.n * 2 ^ 32 + n * 16 + 3)

/-- Raises privileged (R41, R230). -/
def denied {α : Type} : M α := do raise 0x06 (← get).grp.instr.toNat

/-- The access column of a read (R41, R46, R425). -/
def srReadOk (o : SrOwner) : M Unit := do
  if o = .cluster && !clusterSupervisor (← get).cur then denied else pure ()

/-- The access column of a write (R41, R309, R414). A migrant writes no register of a core or a cluster (Table 7.11). [DESIGN CHOICE: log 96] -/
def srWriteOk (n : Nat) (o : SrOwner) : M Unit := do
  let s ← get
  raiseIf (s.me.migrant && (o = .core || o = .cluster)) 0x10 s.grp.instr.toNat
  if !srWritable n then denied
  else if (n = 0x082 || n = 0x083) && !s.me.sup && mbaCtx s.cur != 0 then denied
  else pure ()

/-- A value that a register's map marks invalid (R41, R105). -/
def srInvalid {α : Type} (n : Nat) : M α := raise 0x02 (3 * 2 ^ 62 + n)

/-- `qlink` holds a valid value (Table 2.8, R16). -/
def qlinkValid (s : State) (v : Word) : Bool :=
  decide (v.toNat < 2 ^ 21) && (!nbit v.toNat 20 || mbaValid s.minimal (nbits v.toNat 19 0))

/-- A context is the supervisor context of the partition to which its core belongs, and runs with `sup` = 1 however it is started (R383).
[DESIGN CHOICE: log 86] -/
def isSupervisor (s : State) (m : Nat) : Bool :=
  match ownerPart s (mbaCid m) with | some p => m = supervisorOf s p | none => false

/-- The world in which a context of a core runs (R384): that of the core's block in its partition; `z` where the core belongs to none. -/
def worldOf (s : State) (cid : Nat) (z : Bool) : Bool :=
  match ownerPart s cid with | some p => blockSecure s p cid | none => z

/-- The state that `spawn` by context `m` would give context `n` of its core, started at `pc` with `x0` (R203, R71). -/
def spawned (s : State) (m n : Nat) (pc x0 : Word) : Context :=
  let w := s.ctx m
  let t := 16 * mbaCid m + n
  let c := s.ctx t
  { Context.fresh t with
    run := .running
    pc := pc
    via := BitVec.allOnes 64
    x := (Vector.replicate 24 (0 : Word)).setIfInBounds 0 x0
    seg := w.seg
    sel := w.sel
    sec := w.sec
    sup := w.sup || isSupervisor s t
    mode := BitVec.ofNat 64 (w.mode.toNat % 2 ^ 9)
    jobseed := w.jobseed
    rngst := rngSeed (w.jobseed ^^^ BitVec.ofNat 64 t)
    fretboard := w.fretboard
    qcls := w.qcls
    part := w.part
    mbx := c.mbx
    rot := c.rot
    qin := c.qin
    gen := c.gen
    cyc := s.cycles (cidLayer (mbaCid t)) }

/-- Enables or disables the delegation server of the current context's core (R309). -/
def writeDlgctl (v : Word) : M Unit := do
  let s ← get
  let cid := mbaCid s.cur
  if cidLayer cid ≠ 0 then srInvalid 0x082
  else
    let k := s.core cid
    let m := 16 * cid + 15
    if v.getLsbD 0 = k.dlg.en then pure ()
    else if v.getLsbD 0 then
      if (s.ctx m).run != .unspawned || s.ctxs.any (fun x => x.2.hosted = some (cid, 15)) then srInvalid 0x082
      else
        let c := spawned s s.cur 15 0 0
        set ((s.setCtx m { c with wait := some ⟨.serverIdle, s.tick, 0, s.epoch, 0⟩ }).modCore cid fun k =>
          { k with dlg := ⟨true, none, []⟩ })
    else if k.dlg.cur.isSome || !k.dlg.queue.isEmpty then srInvalid 0x082
    else
      set (takeQueued ((s.modCtx m fun c => { c with run := .unspawned, wait := none }).modCore cid fun k =>
        { k with dlg := ⟨false, none, []⟩ }) cid)

/-- The old value that `srx` reads (R138): of `flags`, that from before what engines set in this cycle. -/
def srOld (s : State) (n : Nat) : Word :=
  if n = 0x001 then (s.me.flags &&& ~~~(s.flagOr s.cur).new).setWidth 64 else srValue s n

/-- Writes a special register that the current context may write (R41–R45, R137, R138). In a cycle in which an engine sets flags, a write of
`flags` comes first (R75). -/
def srPut (n : Nat) (v : Word) : M Unit := do
  let s ← get
  let d := v.toNat
  match n with
  | 0x000 =>
    if nbits d 2 0 = 0 ∨ nbits d 2 0 = 7 then srInvalid n
    else modMe fun c => { c with mode := BitVec.ofNat 64 (c.mode.toNat / 2 ^ 9 * 2 ^ 9 + d % 2 ^ 9) }
  | 0x001 => if 2 ^ 6 ≤ d then srInvalid n else modMe fun c => { c with flags := v.setWidth 6 ||| (s.flagOr s.cur).all }
  | 0x008 => modMe fun c => { c with msgdst := v }
  | 0x00C => if d = 0 then srInvalid n else modMe fun c => { c with rngst := v, gpos := 0 }
  | 0x080 => if !qlinkValid s v then srInvalid n else modMe fun c => { c with qlink := v }
  | 0x081 => if 2 ^ 16 ≤ d then srInvalid n else modMe fun c => { c with bowgrp := v.setWidth 16 }
  | 0x082 => writeDlgctl v
  | 0x083 => if 4 ≤ d then srInvalid n else modMe fun c => { c with qcls := v.setWidth 2 }
  | _ =>
    if n < 0x020 then
      if nbits d 3 0 = 13 ∨ nbits d 3 0 = 14 ∨ nbits d 5 4 = 3 then srInvalid n
      else set (s.modCore s.here fun k => { k with fmt := k.fmt.setIfInBounds (n - 0x010) (v.setWidth 7) })
    else set (s.modCore s.here fun k => { k with bscl := k.bscl.setIfInBounds (n - 0x020) (v.setWidth 32) })

end Sys2Proof.Machine
end

