-- ==== Sys2Proof/Machine/Control.lean ====
section
/-! DEFINITION. Special-register instructions, branches, jumps, `trap`, the SYS group, and the repeat frame (majors 0x11,
0x40–0x4D; R137–R138, R146–R158). -/

namespace Sys2Proof.Machine

open Sys2Proof.Config

/-! ## Special registers (R137) -/

/-- `srg` (R137). -/
def bodySrg (d : Reg) (sr : BitVec 10) : M Unit := do
  fields [d]
  let o ← srNumber sr.toNat
  srReadOk o
  writeReg d (srValue (← get) sr.toNat)
/-- The step of `srg`. -/
def execSrg (d : Reg) (sr : BitVec 10) (s : State) : Out := runInstr 4 (bodySrg d sr) s

/-- `srs` (R137). [DEDUCED: log 20] -/
def bodySrs (d : Reg) (sr : BitVec 10) : M Unit := do
  fields [d]
  let o ← srNumber sr.toNat
  srWriteOk sr.toNat o
  srPut sr.toNat (← readReg d)
/-- The step of `srs`. -/
def execSrs (d : Reg) (sr : BitVec 10) (s : State) : Out := runInstr 4 (bodySrs d sr) s

/-- `srx`: checked as a read and as a write; the old values change places (R41, R137). [DESIGN CHOICE: log 95] -/
def bodySrx (d : Reg) (sr : BitVec 10) : M Unit := do
  fields [d]
  raiseIf (!plainReg d) 0x02 d.toNat
  let o ← srNumber sr.toNat
  srReadOk o
  srWriteOk sr.toNat o
  let old := srOld (← get) sr.toNat
  srPut sr.toNat (← readReg d)
  writeReg d old
/-- The step of `srx`. -/
def execSrx (d : Reg) (sr : BitVec 10) (s : State) : Out := runInstr 4 (bodySrx d sr) s

/-! ## Branches and jumps (R146–R148) -/

/-- A compare and branch: the PC that follows and the one that an orphaned extension there names (R96, R146). -/
def branch (cond : Cond) (a b : Reg) (disp : BitVec 14) : M (Word × Word) := do
  fields [a, b]
  let x ← readReg a
  let y ← readReg b
  let s ← get
  if cond.holds false x y then
    checkTarget (relTarget s 14 disp)
    return (relTarget s 14 disp, s.me.pc)
  else return (s.nextPc 4, s.me.pc)

/-- A branch on a predicate bit (R146). -/
def branchK (k : BitVec 5) (v : Bool) (disp : BitVec 19) : M (Word × Word) := do
  let s ← get
  if s.me.kbit k.toNat = v then
    checkTarget (relTarget s 19 disp)
    return (relTarget s 19 disp, s.me.pc)
  else return (s.nextPc 4, s.me.pc)

/-- A transfer to `t`; with `link`, the PC that follows goes to a register once the target has passed its checks
(R147, R148). -/
def jumpTo (t : Word) (link : Option Reg) (len : Nat) : M (Word × Word) := do
  checkTarget t
  let s ← get
  match link with
  | some d => writeReg d (s.nextPc len)
  | none => pure ()
  return (t, s.me.pc)

/-- The step of `beq` (R146). -/
def execBeq (a b : Reg) (disp : BitVec 14) (s : State) : Out := runJump (branch .eq a b disp) s
/-- The step of `bne` (R146). -/
def execBne (a b : Reg) (disp : BitVec 14) (s : State) : Out := runJump (branch .ne a b disp) s
/-- The step of `blt` (R146). -/
def execBlt (a b : Reg) (disp : BitVec 14) (s : State) : Out := runJump (branch .lt a b disp) s
/-- The step of `bge` (R146). -/
def execBge (a b : Reg) (disp : BitVec 14) (s : State) : Out := runJump (branch .ge a b disp) s
/-- The step of `bltu` (R146). -/
def execBltu (a b : Reg) (disp : BitVec 14) (s : State) : Out := runJump (branch .ltu a b disp) s
/-- The step of `bgeu` (R146). -/
def execBgeu (a b : Reg) (disp : BitVec 14) (s : State) : Out := runJump (branch .geu a b disp) s
/-- The step of `bk` (R146). -/
def execBk (k : BitVec 5) (disp : BitVec 19) (s : State) : Out := runJump (branchK k true disp) s
/-- The step of `bkn` (R146). -/
def execBkn (k : BitVec 5) (disp : BitVec 19) (s : State) : Out := runJump (branchK k false disp) s

/-- The step of `j` (R147). -/
def execJ (disp : BitVec 24) (s : State) : Out := runJump (jumpTo (relTarget s 24 disp) none 4) s
/-- The step of `call` (R147). -/
def execCall (disp : BitVec 24) (s : State) : Out := runJump (jumpTo (relTarget s 24 disp) (some 23) 4) s
/-- The step of `calll` (R147). -/
def execCalll (imm : BitVec 51) (s : State) : Out := runJump (jumpTo (relTarget s 51 imm) (some 23) 8) s

/-- `jr` (R147). -/
def bodyJr (a : Reg) : M (Word × Word) := do
  fields [a]
  jumpTo (← readReg a) none 4
/-- The step of `jr`. -/
def execJr (a : Reg) (s : State) : Out := runJump (bodyJr a) s
/-- `jalr`: reads a, then writes d, then goes (R147). -/
def bodyJalr (d a : Reg) : M (Word × Word) := do
  fields [d, a]
  let t ← readReg a
  jumpTo t (some d) 4
/-- The step of `jalr`. -/
def execJalr (d a : Reg) (s : State) : Out := runJump (bodyJalr d a) s
/-- `ret` (R147). -/
def bodyRet : M (Word × Word) := do
  jumpTo (← readReg 23) none 4
/-- The step of `ret`. -/
def execRet (s : State) : Out := runJump bodyRet s

/-! ## Trap and system instructions (R149–R151) -/

/-- The step of `trap`: it raises trap-instruction (R149). -/
def execTrap (imm : BitVec 16) (s : State) : Out := runInstr 4 (raise 0x15 imm.toNat) s

/-- The step of `nop` (R150). -/
def execNop (s : State) : Out := runInstr 4 (pure ()) s

/-- The step of `brk`: it raises breakpoint (R150). -/
def execBrk (s : State) : Out := runInstr 4 (raise 0x14 0) s

/-- `ifl`: discards every line of the core's instruction cache (R150). -/
def bodyIfl : M Unit := modify fun s => s.modCore s.here fun k => { k with ic := [] }
/-- The step of `ifl`. -/
def execIfl (s : State) : Out := runInstr 4 bodyIfl s

/-- `halt`: the halted state at the PC that follows, or breakpoint where no debugger is attached (R150). -/
def bodyHalt : M Unit := do
  let s ← get
  if (s.part s.me.part.toNat).dbg then
    set (freeze ((s.goto (s.nextPc 4) s.me.pc).modMe fun c => { c with run := .halted none }) s.me.part.toNat)
  else raise 0x14 0
/-- The step of `halt`. -/
def execHalt (s : State) : Out := runWhole bodyHalt s

/-- `eret`: sets the PC and the repeat position (R151). -/
def bodyEret (a b : Reg) : M (Word × Word) := do
  fields [a, b]
  let t ← readReg a
  let m ← readReg b
  checkTarget t
  let it := nbits m.toNat 47 16
  modMe fun c => { c.setFrame it (if it = 0 then 0 else nbits m.toNat 12 9) with frame := none }
  return (t, BitVec.allOnes 64)
/-- The step of `eret`. -/
def execEret (a b : Reg) (s : State) : Out := runJump (bodyEret a b) s

/-! ## The repeat frame (R152–R158) -/

/-- Major opcode of a captured word. -/
def majorOf (w : W32) : Nat := (w.extractLsb' 24 8).toNat
/-- Function code of a captured word. -/
def funcOf (w : W32) : Nat := (w.extractLsb' 1 8).toNat

/-- Whether the fields d, a and b of a captured word name general registers (R154). -/
def regFields (w : W32) : Bool × Bool × Bool :=
  let m := majorOf w
  let f := funcOf w
  if m = 0x00 then (true, true, f % 128 < 0x20)
  else if m ≤ 0x0A then (true, true, false)
  else if m ≤ 0x0C then (true, false, false)
  else if m = 0x0D then (false, true, true)
  else if m = 0x0E then (false, true, false)
  else if m = 0x0F then (true, true, true)
  else if m = 0x10 then (f = 0, f = 1, false)
  else if m = 0x11 then (true, false, false)
  else if m = 0x14 then (true, true, f % 128 ≤ 3 || f % 128 = 5 || f % 128 = 6 || f % 128 = 9)
  else if m = 0x15 then (true, true, true)
  else if m = 0x16 then (false, true, true)
  else if m = 0x17 then (true, true, false)
  else (false, false, false)

/-- A word has an assigned code (R109): one of an unassigned code is no instruction that writes a register. -/
def assignedCode (w : W32) : Bool := match decode32 0 w with | .error (.illegal _ _) => false | _ => true

/-- The field d of a captured word is a destination (R154): of all that name a register there, only `srs` reads it. -/
def writesD (w : W32) : Bool := (regFields w).1 && !(majorOf w = 0x11 && funcOf w = 1) && assignedCode w

/-- A staggered field in iteration `i` (R154, R155). -/
def staggerReg (v : Reg) (i step : Nat) : Reg := if v.toNat < 24 then BitVec.ofNat 5 ((v.toNat + i * step) % 24) else v

/-- A captured word in iteration `i` of a frame (R155). -/
def stagger (f : RFrame) (w : W32) (i : Nat) : W32 :=
  let (d, a, b) := regFields w
  let g := fun (p : Bool) (lo : Nat) (st : BitVec 2) =>
    let v := w.extractLsb' lo 5
    (if p then staggerReg v i st.toNat else v).setWidth 32 <<< lo
  (w &&& 0xFF0001FF) ||| g d 19 f.sd ||| g a 14 f.sa ||| g b 9 f.sb

/-- A captured word fails the content check: bit 31, a major above 0x17, or an X bit that is 1 (R153). The unassigned majors 0x12 and 0x13
have no format, hence no X bit (Table 5.1). -/
def contentBad (w : W32) : Bool :=
  w.getLsbD 31 || 0x17 < majorOf w || (hasX w && majorOf w != 0x12 && majorOf w != 0x13 && w.getLsbD 0)

/-- Some iteration below `n` of a captured word writes register `c` (R154). -/
def writesCount (f : RFrame) (w : W32) (n : Nat) : Bool :=
  let d := (w.extractLsb' 19 5).toNat
  writesD w && d < 24 && (upFrom 0 (min n 24)).any fun i => (d + i * f.sd.toNat) % 24 = f.c.toNat

/-- The place of the first word that satisfies a test. -/
def firstBad (p : W32 → Bool) (l : List W32) : Option Nat := l.findIdx? p

/-- Fetches the words of a window from offset `o` of the code segment (R153). -/
def fetchWindow (s : State) (cid : Nat) (d : Desc) : (n : Nat) → (o : Nat) → Except Stop (List W32)
  | 0, _ => .ok []
  | n + 1, o =>
    match fetchFault d o with
    | some c => .error (.trapPc ⟨BitVec.ofNat 8 c, BitVec.ofNat 64 (memInfo 0 14 false o)⟩ (BitVec.ofNat 64 o))
    | none =>
      match icWord s cid (dBase d + o) with
      | .error l => .error (.line l)
      | .ok w =>
        match fetchWindow s cid d n (o + 4) with
        | .ok ws => .ok (w :: ws)
        | .error e => .error e

/-- Fetches words of the code segment from an offset. -/
def window (n o : Nat) : M (List W32) := do
  let s ← get
  match fetchWindow s s.here (s.me.segd 0) n o with
  | .error e => throw e
  | .ok ws => return ws

/-- The frame of a `rep` at offset `rpc` with `n` iterations, whose window has been fetched but not checked. -/
def frameOf (rpc : Nat) (len : BitVec 4) (sd sa sb : BitVec 2) (c : Reg) (n : Nat) : M RFrame := do
  return ⟨BitVec.ofNat 64 rpc, ← window (len.toNat + 1) (rpc + 4), sd, sa, sb, c, n⟩

/-- The place of the first word of a frame that fails the content check, or else writes the count register within `n` iterations (R153, R154). -/
def RFrame.bad (f : RFrame) (n : Nat) : Option Nat :=
  (firstBad contentBad f.words).or (firstBad (fun w => writesCount f w n) f.words)

/-- `rep` (R152–R155). [DESIGN CHOICE: log 101] -/
def bodyRep (n : BitVec 4) (sd sa sb : BitVec 2) (c : Reg) : M (Word × Word) := do
  fields [c]
  raiseIf (!plainReg c) 0x02 c.toNat
  let v ← readReg c
  raiseIf (decide (2 ^ 32 ≤ v.toNat)) 0x02 v.toNat
  let pc := (← me).pc
  let f ← frameOf pc.toNat n sd sa sb c v.toNat
  match f.bad v.toNat with
  | some i => raise 0x05 i
  | none =>
    if v = 0 then return (pc + BitVec.ofNat 64 (4 * (n.toNat + 2)), pc)
    else
      modMe fun m => { m.setFrame v.toNat 0 with frame := some f }
      return (pc + 4, pc)
/-- The step of `rep`. -/
def execRep (n : BitVec 4) (sd sa sb : BitVec 2) (c : Reg) (s : State) : Out := runJump (bodyRep n sd sa sb c) s

/-- Rebuilds the frame of a context that resumes inside one (R158): the `rep` word and its window are fetched and checked as R153 states; the
count register's value is the number of iterations from then on. A word that R152 rejects is no `rep`, and the place of the `rep` is taken modulo
2^48. [DESIGN CHOICE: log 109, 110] -/
def rebuild : M RFrame := do
  let c ← me
  let fail : M RFrame := raise 0x05 c.fpos
  let rpc := (c.pc.toNat + 2 ^ 48 - 4 * (c.fpos + 1)) % 2 ^ 48
  match decode32 0 ((← window 1 rpc).getD 0 0) with
  | .ok (.rep n sd sa sb r) => do
    let f ← frameOf rpc n sd sa sb r 0
    if n.toNat < c.fpos || !plainReg r || (firstBad contentBad f.words).isSome then fail
    else
      let v ← readReg r
      if v.toNat < c.iters then fail else return { f with n := v.toNat }
  | _ => fail

/-- The effect of an instruction of majors 0x00–0x17, which a frame may capture (R153, R155). No other word passes the
content check. -/
def frameBody : Instr → M Unit
  | .add d a b w _ => bodyAdd d a b w
  | .sub d a b w _ => bodySub d a b w
  | .and d a b w _ => bodyAnd d a b w
  | .or d a b w _ => bodyOr d a b w
  | .xor d a b w _ => bodyXor d a b w
  | .andn d a b w _ => bodyAndn d a b w
  | .shl d a b w _ => bodyShl d a b w
  | .shr d a b w _ => bodyShr d a b w
  | .sar d a b w _ => bodySar d a b w
  | .rol d a b w _ => bodyRol d a b w
  | .mul d a b w _ => bodyMul d a b w
  | .mulh d a b w _ => bodyMulh d a b w
  | .mulhu d a b w _ => bodyMulhu d a b w
  | .div d a b w _ => bodyDiv d a b w
  | .divu d a b w _ => bodyDivu d a b w
  | .rem d a b w _ => bodyRem d a b w
  | .remu d a b w _ => bodyRemu d a b w
  | .min d a b w _ => bodyMin d a b w
  | .max d a b w _ => bodyMax d a b w
  | .minu d a b w _ => bodyMinu d a b w
  | .maxu d a b w _ => bodyMaxu d a b w
  | .slt d a b w _ => bodySlt d a b w
  | .sltu d a b w _ => bodySltu d a b w
  | .clmul d a b _ => bodyClmul d a b
  | .clmulh d a b _ => bodyClmulh d a b
  | .clz d a w _ => bodyClz d a w
  | .ctz d a w _ => bodyCtz d a w
  | .popc d a w _ => bodyPopc d a w
  | .brev d a w _ => bodyBrev d a w
  | .bswap d a w _ => bodyBswap d a w
  | .sxb d a w _ => bodySxb d a w
  | .sxh d a w _ => bodySxh d a w
  | .sxw d a _ => bodySxw d a
  | .zxb d a w _ => bodyZxb d a w
  | .zxh d a w _ => bodyZxh d a w
  | .zxw d a _ => bodyZxw d a
  | .abs d a w _ => bodyAbs d a w
  | .neg d a w _ => bodyNeg d a w
  | .addi d a imm _ => bodyAddi d a imm
  | .andi d a imm _ => bodyAndi d a imm
  | .ori d a imm _ => bodyOri d a imm
  | .xori d a imm _ => bodyXori d a imm
  | .shli d a imm _ => bodyShli d a imm
  | .shri d a imm _ => bodyShri d a imm
  | .sari d a imm _ => bodySari d a imm
  | .muli d a imm _ => bodyMuli d a imm
  | .slti d a imm _ => bodySlti d a imm
  | .sltiu d a imm _ => bodySltiu d a imm
  | .li d imm => bodyLi d imm
  | .lis d imm => bodyLis d imm
  | .cmpEq k a b w comb => bodyCmpEq k a b w comb
  | .cmpNe k a b w comb => bodyCmpNe k a b w comb
  | .cmpLt k a b w comb => bodyCmpLt k a b w comb
  | .cmpGe k a b w comb => bodyCmpGe k a b w comb
  | .cmpLtu k a b w comb => bodyCmpLtu k a b w comb
  | .cmpGeu k a b w comb => bodyCmpGeu k a b w comb
  | .cmpiEq k a imm => bodyCmpiEq k a imm
  | .cmpiNe k a imm => bodyCmpiNe k a imm
  | .cmpiLt k a imm => bodyCmpiLt k a imm
  | .cmpiGe k a imm => bodyCmpiGe k a imm
  | .cmpiLtu k a imm => bodyCmpiLtu k a imm
  | .cmpiGeu k a imm => bodyCmpiGeu k a imm
  | .sel d a b inv kb => bodySel d a b inv kb
  | .kget d => bodyKget d
  | .kset a => bodyKset a
  | .kand d a b => bodyKand d a b
  | .kor d a b => bodyKor d a b
  | .kxor d a b => bodyKxor d a b
  | .knot d a => bodyKnot d a
  | .fadd d a b dbl _ => bodyFadd d a b dbl
  | .fsub d a b dbl _ => bodyFsub d a b dbl
  | .fmul d a b dbl _ => bodyFmul d a b dbl
  | .fdiv d a b dbl _ => bodyFdiv d a b dbl
  | .fsqrt d a dbl _ => bodyFsqrt d a dbl
  | .fmin d a b dbl _ => bodyFmin d a b dbl
  | .fmax d a b dbl _ => bodyFmax d a b dbl
  | .fabs d a dbl _ => bodyFabs d a dbl
  | .fneg d a dbl _ => bodyFneg d a dbl
  | .fsgnj d a b dbl _ => bodyFsgnj d a b dbl
  | .fclass d a dbl _ => bodyFclass d a dbl
  | .frcpa d a dbl _ => bodyFrcpa d a dbl
  | .frsqa d a dbl _ => bodyFrsqa d a dbl
  | .fexp2a d a dbl _ => bodyFexp2a d a dbl
  | .flog2a d a dbl _ => bodyFlog2a d a dbl
  | .fma d a b c dbl _ => bodyFma d a b c dbl
  | .fms d a b c dbl _ => bodyFms d a b c dbl
  | .fnma d a b c dbl _ => bodyFnma d a b c dbl
  | .fnms d a b c dbl _ => bodyFnms d a b c dbl
  | .fcmpEq k a b dbl _ => bodyFcmpEq k a b dbl
  | .fcmpLt k a b dbl _ => bodyFcmpLt k a b dbl
  | .fcmpLe k a b dbl _ => bodyFcmpLe k a b dbl
  | .fcmpUn k a b dbl _ => bodyFcmpUn k a b dbl
  | .fcmpEqs k a b dbl _ => bodyFcmpEqs k a b dbl
  | .fcvt d a src dst _ => bodyFcvt d a src dst
  | .srg d sr => bodySrg d sr
  | .srs d sr => bodySrs d sr
  | .srx d sr => bodySrx d sr
  | _ => raise 0x05 0

/-- One captured instruction of one iteration (R155, R158): it runs with its fields staggered, and the position moves on; after
the last one the frame ends and the PC passes the window. -/
def frameStep (f : RFrame) : M (Word × Word) := do
  let c ← me
  let i := f.n - c.iters
  let j := c.fpos
  match decode32 0 (stagger f (f.words.getD j 0) i) with
  | .error e => throw (.trap (decFailTrap e))
  | .ok ins =>
    frameBody ins
    if j + 1 < f.words.length then
      modMe fun m => { m.setFrame c.iters (j + 1) with frame := some f }
      return (f.rpc + BitVec.ofNat 64 (4 * (j + 2)), f.rpc)
    else if 1 < c.iters then
      modMe fun m => { m.setFrame (c.iters - 1) 0 with frame := some f }
      return (f.rpc + 4, f.rpc)
    else
      modMe fun m => { m.setFrame 0 0 with frame := none }
      return (f.rpc + BitVec.ofNat 64 (4 * (f.words.length + 1)), f.rpc)

/-- The step of `REPEAT_FRAME_STEP`, in the slot of a context whose repeat position is not zero: the frame is first rebuilt
where the context has just resumed (R158). -/
def bodyRepeatFrameStep : M (Word × Word) := do
  let c ← me
  let f ← match c.frame with | some f => pure f | none => rebuild
  modify fun s => { s with grp := { Grp.none with instr := recWord (f.words.getD c.fpos 0) 0 } }
  frameStep f
/-- The step of `REPEAT_FRAME_STEP`. A context outside a frame has no step to run. -/
def execRepeatFrameStep (s : State) : Out :=
  if s.me.iters = 0 then .next s
  else
    let s := { s with grp := { Grp.none with instr := (wordsAt s s.cur).1 } }
    runJump bodyRepeatFrameStep s

/-- The step of `ILLEGAL_ENCODING`: a word that does not decode raises what R105 states. -/
def execIllegalEncoding (f : DecFail) (s : State) : Out := runInstr 4 (throw (.trap (decFailTrap f))) s

end Sys2Proof.Machine
end

