-- ==== Sys2Proof/Machine/Migrate.lean ====
section
/-! DEFINITION. Threads that leave their home context (R40, R182–R189), and `mig` and `home`. -/

namespace Sys2Proof.Machine

open Sys2Proof.Config

/-- The offset of a selector's descriptor in a core's scratchpad (R169). -/
def segEntryOff (cid q : Nat) : Nat := spadSize (cidLayer cid) - 256 + 16 * q
/-- The descriptor at a selector of a core's copy of the partition segment table (R169). -/
def tableDesc (s : State) (cid q : Nat) : Desc := BitVec.ofNat 128 (s.rd (spadLoc cid (segEntryOff cid q)) 16)
/-- Segment registers reloaded from their selectors at a core (R40, R184). -/
def reloadSegs (s : State) (cid : Nat) (sel : W32) : Vector Desc 8 :=
  Vector.ofFn fun i : Fin 8 => tableDesc s cid (nbits sel.toNat (4 * i + 3) (4 * i))

/-- A context of a host core that a migrant may take: one of 1–14 that is unspawned (R183). -/
def freeHost (s : State) (cid : Nat) : Option Nat :=
  (upFrom 1 14).find? fun n =>
    decide (n < contexts (cidLayer cid)) && (s.ctx (16 * cid + n)).run = .unspawned && !hosting s cid n

/-- What the page must give an access, as it chooses the copy (R164). -/
def AccKind.pte : AccKind → Pte
  | .load .. => .read
  | _ => .write

/-- An access that a thread carries is performed on the core that it reaches: at the copy of that core's die (R164, R182). -/
def Acc.on (a : Acc) (cid : Nat) : Acc := { a with at_ := copyPlace cid a.kind.pte a.home }

/-- A migrant takes a host context: its segments are reloaded and the access that it carries is outstanding (R182,
R184). -/
def enterHost (s : State) (m cid n : Nat) : State :=
  let s := s.modCtx m fun c =>
    match c.away with
    | some a =>
      { c with away := some { a with host := cid, phase := .hosted n, carry := none }, seg := reloadSegs s cid c.sel,
               out := c.out ++ (a.carry.map (·.on cid)).toList }
    | none => c
  resumed s m

/-- A host context that has become free takes the oldest migrant of the arrival queue (R183). -/
def admitMigrant (s : State) (cid : Nat) : State :=
  match (s.core cid).arrq with
  | [] => s
  | m :: q =>
    match freeHost s cid with
    | none => s
    | some n => enterHost (s.modCore cid fun k => { k with arrq := q }) m cid n

/-- A context of a core has become free: the oldest migrant that waits there takes it, and then the core may take an item
that waits (R183, R375). -/
def freed (s : State) (cid : Nat) : State := takeQueued (admitMigrant s cid) cid

/-- The current thread moves to the core `target` with the access that it carries (R182): after its earlier accesses have
been performed. A move home re-enters the home context. -/
def moveTo (target : Nat) (carry : Option Acc) : M Unit := do
  let s ← get
  let c := s.me
  stallIf (!c.out.isEmpty) .access
  match c.away with
  | none =>
    let left : Left := ⟨c.pc, c.x, c.k, c.flags, c.seg, c.sel, c.gpos, c.rngst, c.mode⟩
    modMe fun c => { c with away := some ⟨target, .toHost, carry, false, none, left, c.pc, s.tick, (s.part c.part.toNat).wdlim⟩ }
  | some a =>
    modMe fun c => { c with away := some { a with
      host := target, phase := if target = mbaCid s.cur then .toHome else .toHost, carry := carry, mpc := c.pc } }
    modify fun s => freed s a.host

/-- `mig`'s access (Table 7.1). -/
def migAccess : Access := ⟨1, 1, [rR], [2], 12, .read⟩

/-- `mig` (R187). -/
def bodyMig (a b : Reg) : M Unit := do
  fields [a]
  let x ← readReg a
  settled
  let p ← checkAccess b.toNat x.toInt migAccess false
  let s ← get
  let owner := ownerOfLoc s.minimal p.home.loc
  if owner = s.here then pure () else moveTo owner none
/-- The step of `mig`. -/
def execMig (a b : Reg) (s : State) : Out := runInstr 4 (bodyMig a b) s

/-- `home` (R187). -/
def bodyHome : M Unit := do
  let s ← get
  if s.me.migrant then moveTo (mbaCid s.cur) none else pure ()
/-- The step of `home`. -/
def execHome (s : State) : Out := runInstr 4 bodyHome s

/-- A migrant reaches its host (R183): it enters the arrival queue of 16 entries, from which it takes a free context at
once; where the queue is full the network holds it. -/
def arrive (m : Nat) (s : State) : State :=
  match (s.ctx m).away with
  | some a =>
    if a.phase != .toHost || s.downAt a.host || 16 ≤ (s.core a.host).arrq.length then s
    else
      admitMigrant ((s.modCore a.host fun k => { k with arrq := k.arrq ++ [m] }).modCtx m fun c =>
        { c with away := some { a with phase := .queued } }) a.host
  | none => s
/-- The step of `MIGRANT_ARRIVAL` (R182–R184). -/
def execMigrantArrival (m : Nat) (s : State) : Out := runEvent (arrive m) s

/-- A hosted migrant leaves its host for home (R186, R188). -/
def leaveHost (s : State) (m : Nat) (a : Away) : State :=
  freed (s.modCtx m fun c => { c with away := some { a with phase := .toHome } }) a.host

/-- A returning migrant re-enters its home context (R182, R186, R187): a trap that it raised is taken there, and an access
that it carries is outstanding there. One that waits at its host for its earlier accesses, with a trap or recalled, leaves once they have been
performed (R188, R327). -/
def arriveHome (m : Nat) (s : State) : State :=
  match (s.ctx m).away with
  | some a =>
    if a.phase != .toHome then
      match a.phase with
      | .hosted _ => if (a.trap.isSome || a.recallIt) && (s.ctx m).out.isEmpty then leaveHost s m a else s
      | _ => s
    else
      let s := s.modCtx m fun c =>
        { c with away := none, seg := reloadSegs s (mbaCid m) c.sel, out := c.out ++ (a.carry.map (·.on (mbaCid m))).toList }
      let s := freed (resumed s m) a.host
      match a.trap with
      | some t => takeTrapHome s m t true
      | none => s
  | none => s
/-- The step of `MIGRANT_HOME_ARRIVAL` (R186–R188). -/
def execMigrantHomeArrival (m : Nat) (s : State) : Out := runEvent (arriveHome m) s

/-- The home core recalls a thread (R188): a hosted migrant stops at its next group boundary, after its outstanding
accesses have been performed, and is shipped home; a thread on its way, or in an arrival queue, abandons the
instruction that moves it. [DEDUCED: log 29] -/
def recallIt (s : State) (m : Nat) : State :=
  match (s.ctx m).away with
  | none => s
  | some a =>
    match a.phase with
    | .toHome => s
    | .hosted _ =>
      let s := withdraw s m
      if (s.ctx m).out.isEmpty then leaveHost s m { a with recallIt := true }
      else s.modCtx m fun c => { c with away := some { a with recallIt := true } }
    | _ =>
      (giveBack (s.modCore a.host fun k => { k with arrq := k.arrq.erase m }) m).modCtx m fun c =>
        { c with pc := a.mpc, away := some { a with phase := .toHome, carry := none, recallIt := true } }

end Sys2Proof.Machine
end

