-- ==== Sys2Proof/Machine/Load.lean ====
section
/-! DEFINITION. Loads, stores, segment operations, full-empty operations, atomics and remote updates (majors 0x20–0x36;
R160–R181). A load, a store or an atomic issues here, after its checks and its translation; it is performed at its bank
or channel by `MEMORY_ACCESS_PERFORM`. -/

namespace Sys2Proof.Machine

open Sys2Proof.Config

/-- Relaxed accesses outstanding (R163). -/
def Context.relaxed (c : Context) : Nat := (c.out.filter (·.rlx)).length

/-- The access of a register that will be written when a load's data returns can be made: what `write_reg` would trap on
is judged before the load issues (R27, R30, R31, R32). -/
def checkDest (d : Reg) : M Unit := do
  let s ← get
  let edge := fun (dir : Dir) => raiseIf (neighbour s.minimal (mbaCid s.cur) dir).isNone 0x02 d.toNat
  match d.toNat with
  | 24 => edge .north
  | 25 => edge .east
  | 26 => edge .south
  | 27 => edge .west
  | 28 => raise 0x02 28
  | 29 => raiseIf (!qlinkOk s s.cur) 0x02 s.me.qlink.toNat
  | 30 => raiseIf (!mbaValid s.minimal s.me.msgdst.toNat) 0x02 s.me.msgdst.toNat
  | n => stallIf (s.me.awaits n) .access

/-- A relaxed access waits to issue (Table 7.3): 8 are outstanding; a context that has begun to wait goes on waiting until the access that was the
oldest then is performed. -/
def Context.relaxedFull (c : Context) : Bool :=
  decide (8 ≤ c.relaxed) || match c.wait with | some w => w.kind = .relaxedFull && c.out.any (·.seq = w.seen) | none => false

/-- Issues an access (R163): it is outstanding until it is performed; a migrant's access to a global word of another core
moves the thread first (R182). An access that holds its context takes the words that it has read from queues when it is performed: `s0` is the
state before it read any, `reads` what it has read (R29). -/
def issue (s0 : State) (reads : List (Reg × Word)) (kind : AccKind) (p : Spot) (n : Nat) (rlx : Bool) : M Unit := do
  let s ← get
  let c := s.me
  let a : Acc := ⟨kind, p.at_, p.home, n, rlx, p.info, c.pc, s.aseq, s.grp.instr, s.grp.pfxs⟩
  if a.holds then postpone s0 reads else pure ()
  modify fun s => { s with aseq := s.aseq + 1 }
  let owner := ownerOfLoc s.minimal p.home.loc
  let atomic := match kind with | .amo .. | .cas .. => true | _ => false
  if isHbm p.home.loc && owner != s.here && (atomic || c.migrant) then moveTo owner (some a)
  else modMe fun c => { c with out := c.out ++ [a] }

/-- The access of a load of `n` bytes (Table 7.1). -/
def loadAccess (n : Nat) : Access := ⟨n, n, [rR], [0, 1, 2, 3], 0, .read⟩
/-- The access of a store of `n` bytes (Table 7.1). -/
def storeAccess (n : Nat) : Access := ⟨n, n, [rW], [0, 1, 2, 3], 1, .write⟩

/-- A load issues (R162, R163, R166). -/
def loadMem (d a : Reg) (seg : BitVec 3) (off : BitVec 10) (n : Nat) (signed : Bool) : M Unit := do
  fields [d, a]
  let s0 ← get
  let x ← readReg a
  let rlx := (← get).grp.rlx && plainReg d
  settled
  stallIf (rlx && (← me).relaxedFull) .relaxedFull
  let p ← checkAccess seg.toNat (x.toInt + off.toNat * n) (loadAccess n) rlx
  checkDest d
  issue s0 [(a, x)] (.load signed d) p n rlx

/-- A store issues (R163, R167). -/
def storeMem (d a : Reg) (seg : BitVec 3) (off : BitVec 10) (n : Nat) : M Unit := do
  fields [d, a]
  let s0 ← get
  let x ← readReg a
  let v ← readReg d
  let rlx := (← get).grp.rlx
  settled
  stallIf (rlx && (← me).relaxedFull) .relaxedFull
  let p ← checkAccess seg.toNat (x.toInt + off.toNat * n) (storeAccess n) rlx
  issue s0 [(a, x), (d, v)] (.store (BitVec.ofNat 64 (v.toNat % 2 ^ (8 * n)))) p n rlx

/-- The step of `ldb` (R166). -/
def execLdb (d a : Reg) (seg : BitVec 3) (off : BitVec 10) (_x : Bool) (s : State) : Out :=
  runInstr 4 (loadMem d a seg off 1 true) s
/-- The step of `ldbu` (R166). -/
def execLdbu (d a : Reg) (seg : BitVec 3) (off : BitVec 10) (_x : Bool) (s : State) : Out :=
  runInstr 4 (loadMem d a seg off 1 false) s
/-- The step of `ldh` (R166). -/
def execLdh (d a : Reg) (seg : BitVec 3) (off : BitVec 10) (_x : Bool) (s : State) : Out :=
  runInstr 4 (loadMem d a seg off 2 true) s
/-- The step of `ldhu` (R166). -/
def execLdhu (d a : Reg) (seg : BitVec 3) (off : BitVec 10) (_x : Bool) (s : State) : Out :=
  runInstr 4 (loadMem d a seg off 2 false) s
/-- The step of `ldw` (R166). -/
def execLdw (d a : Reg) (seg : BitVec 3) (off : BitVec 10) (_x : Bool) (s : State) : Out :=
  runInstr 4 (loadMem d a seg off 4 true) s
/-- The step of `ldwu` (R166). -/
def execLdwu (d a : Reg) (seg : BitVec 3) (off : BitVec 10) (_x : Bool) (s : State) : Out :=
  runInstr 4 (loadMem d a seg off 4 false) s
/-- The step of `ldd` (R166). -/
def execLdd (d a : Reg) (seg : BitVec 3) (off : BitVec 10) (_x : Bool) (s : State) : Out :=
  runInstr 4 (loadMem d a seg off 8 false) s
/-- The step of `stb` (R167). -/
def execStb (d a : Reg) (seg : BitVec 3) (off : BitVec 10) (_x : Bool) (s : State) : Out :=
  runInstr 4 (storeMem d a seg off 1) s
/-- The step of `sth` (R167). -/
def execSth (d a : Reg) (seg : BitVec 3) (off : BitVec 10) (_x : Bool) (s : State) : Out :=
  runInstr 4 (storeMem d a seg off 2) s
/-- The step of `stw` (R167). -/
def execStw (d a : Reg) (seg : BitVec 3) (off : BitVec 10) (_x : Bool) (s : State) : Out :=
  runInstr 4 (storeMem d a seg off 4) s
/-- The step of `std` (R167). -/
def execStd (d a : Reg) (seg : BitVec 3) (off : BitVec 10) (_x : Bool) (s : State) : Out :=
  runInstr 4 (storeMem d a seg off 8) s

/-! ## Full-empty operations (R171–R174) -/

/-- In Rogil mode, the core holds a store of a sibling to bytes of a place (R321). -/
def State.siblingHolds (s : State) (p : Place) : Bool :=
  (s.part s.me.part.toNat).compat && (youngest ((buffered s s.here).filter (·.1 ≠ s.cur)) p).isSome

/-- An access that is performed at once reaches its bank or channel: the context's own outstanding accesses to its bytes come first (R163,
R314), so do buffered stores of its siblings (R321), and the bank is awake (R426). -/
def atBank (p : Spot) : M Unit := do
  let s ← get
  stallIf (s.me.out.any fun a => a.home.meets p.home) .access
  stallIf (s.siblingHolds p.home) .access
  awake p.at_.ends
  modify fun s => touchAt s p.at_

/-- A waiter joins the queue of its granule, and its context waits there (R172, R173). -/
def joinQueue (s0 : State) (reads : List (Reg × Word)) (w : FeWaiter) : M Unit := do
  postpone s0 reads
  modify fun s => noteWait { touchAt s w.at_ with feq := s.feq ++ [w] } s.cur .fullEmpty
  throw .hold

/-- `ldfk` and `ldfc` (R172); `empties` says that the load marks its granule empty. -/
def feLoad (d a : Reg) (seg : BitVec 3) (off : BitVec 10) (kind : Nat) (empties : Bool) : M Unit := do
  fields [d, a]
  let s0 ← get
  let x ← readReg a
  settled
  let p ← checkAccess seg.toNat (x.toInt + off.toNat * 8) ⟨8, 8, [rR, rF], [0, 1], kind, .read⟩ false
  checkDest d
  atBank p
  let s ← get
  let g := p.loc / 16
  if s.isEmpty g || s.feq.any (fun w => w.g = g && w.wantsFull) then
    joinQueue s0 [(a, x)] ⟨g, if empties then .ldfc d else .ldfk d, p.at_, s.cur, s.nextPc 4, p.info, s.grp.instr⟩
  else if p.at_.bad s then throw (.trap ⟨0x13, p.info⟩)
  else match deliver s s.cur d (BitVec.ofNat 64 (p.at_.val s)) with
    | none => stall .fullWrite
    | some s => set (if empties then feMark s g false else s)

/-- The step of `ldfk` (R172). -/
def execLdfk (d a : Reg) (seg : BitVec 3) (off : BitVec 10) (s : State) : Out := runInstr 4 (feLoad d a seg off 2 false) s
/-- The step of `ldfc` (R172). -/
def execLdfc (d a : Reg) (seg : BitVec 3) (off : BitVec 10) (s : State) : Out := runInstr 4 (feLoad d a seg off 3 true) s

/-- `stfe` (R172): a release (Table 12.1). -/
def bodyStfe (d a : Reg) (seg : BitVec 3) (off : BitVec 10) : M Unit := do
  fields [d, a]
  let s0 ← get
  let x ← readReg a
  let v ← readReg d
  settled
  released
  let p ← checkAccess seg.toNat (x.toInt + off.toNat * 8) ⟨8, 8, [rW, rF], [0, 1], 4, .write⟩ false
  atBank p
  let s ← get
  let g := p.loc / 16
  if s.isEmpty g && !(s.feq.any fun w => w.g = g && w.wantsEmpty) then
    set (feMark (putPlace p.at_ (leBytes 8 v.toNat) s) g true)
  else
    joinQueue s0 [(a, x), (d, v)] ⟨g, .stfe v, p.at_, s.cur, s.nextPc 4, p.info, s.grp.instr⟩
/-- The step of `stfe`. -/
def execStfe (d a : Reg) (seg : BitVec 3) (off : BitVec 10) (s : State) : Out := runInstr 4 (bodyStfe d a seg off) s

/-- `stfs`: it never waits (R172); a release. -/
def bodyStfs (d a : Reg) (seg : BitVec 3) (off : BitVec 10) : M Unit := do
  fields [d, a]
  let x ← readReg a
  let v ← readReg d
  settled
  released
  let p ← checkAccess seg.toNat (x.toInt + off.toNat * 8) ⟨8, 8, [rW, rF], [0, 1], 5, .write⟩ false
  atBank p
  modify fun s => feMark (putPlace p.at_ (leBytes 8 v.toNat) s) (p.loc / 16) true
/-- The step of `stfs`. -/
def execStfs (d a : Reg) (seg : BitVec 3) (off : BitVec 10) (s : State) : Out := runInstr 4 (bodyStfs d a seg off) s

/-- The granule of a `fetag` (R174). -/
def tagAccess (a : Reg) (seg : BitVec 3) (off : BitVec 8) : M Nat := do
  let x ← readReg a
  settled
  let p ← checkAccess seg.toNat (x.toInt + off.toNat * 16) ⟨16, 16, [rF], [0, 1], 6, .read⟩ false
  atBank p
  return p.loc / 16

/-- `feset`: a release (R174, Table 12.1). -/
def bodyFeset (a : Reg) (seg : BitVec 3) (off : BitVec 8) : M Unit := do
  fields [a]
  released
  let g ← tagAccess a seg off
  modify fun s => feMark s g true
/-- The step of `feset`. -/
def execFeset (a : Reg) (seg : BitVec 3) (off : BitVec 8) (s : State) : Out := runInstr 4 (bodyFeset a seg off) s
/-- `feclr` (R174). -/
def bodyFeclr (a : Reg) (seg : BitVec 3) (off : BitVec 8) : M Unit := do
  fields [a]
  let g ← tagAccess a seg off
  modify fun s => feMark s g false
/-- The step of `feclr`. -/
def execFeclr (a : Reg) (seg : BitVec 3) (off : BitVec 8) (s : State) : Out := runInstr 4 (bodyFeclr a seg off) s
/-- `feget` (R174). -/
def bodyFeget (d a : Reg) (seg : BitVec 3) (off : BitVec 8) : M Unit := do
  fields [d, a]
  let g ← tagAccess a seg off
  writeReg d (if (← get).isEmpty g then 0 else 1)
/-- The step of `feget`. -/
def execFeget (d a : Reg) (seg : BitVec 3) (off : BitVec 8) (s : State) : Out := runInstr 4 (bodyFeget d a seg off) s

/-! ## Addresses and segments (R168–R170) -/

/-- `lea` (R168). -/
def bodyLea (d a : Reg) (seg : BitVec 3) (off : BitVec 10) : M Unit := do
  fields [d, a]
  let x ← readReg a
  let o := x.toInt + off.toNat
  let g := (← me).segd seg.toNat
  raiseIf (o < 0 || (dLimit g : Int) < o) 0x07 (memInfo seg.toNat 7 false (ofInt 48 o))
  writeReg d (BitVec.ofNat 64 (dBase g + o.toNat))
/-- The step of `lea`. -/
def execLea (d a : Reg) (seg : BitVec 3) (off : BitVec 10) (s : State) : Out := runInstr 4 (bodyLea d a seg off) s

/-- A selector in its place in `sel` (Table 2.3). -/
def withSel (sel : W32) (d q : Nat) : W32 :=
  BitVec.ofNat 32 (sel.toNat - nbits sel.toNat (4 * d + 3) (4 * d) * 2 ^ (4 * d) + q % 16 * 2 ^ (4 * d))

/-- `segld` (R169, R170). [DEDUCED: log 26] -/
def bodySegld (d a : Reg) : M Unit := do
  fields [a]
  let q ← readReg a
  settled
  raiseIf (decide (15 < q.toNat)) 0x02 q.toNat
  let s ← get
  let off := segEntryOff s.here q.toNat
  let loc := spadLoc s.here off
  stallIf (s.me.out.any fun a => a.home.meets [(loc, 16, .plain)]) .access
  raiseIf (s.poisoned loc 16) 0x13 (memInfo d.toNat 8 false off)
  let g := tableDesc s s.here q.toNat
  raiseIf (!descValid s.layer g) 0x02 q.toNat
  modMe fun c => { c with seg := c.seg.setIfInBounds d.toNat g, sel := withSel c.sel d.toNat q.toNat }
/-- The step of `segld`. -/
def execSegld (d a : Reg) (s : State) : Out := runInstr 4 (bodySegld d a) s

/-- `segget` (R170). -/
def bodySegget (d a b : Reg) : M Unit := do
  fields [d]
  let g := (← me).segd a.toNat
  writeReg d (if b = 0 then g.extractLsb' 0 64 else g.extractLsb' 64 64)
/-- The step of `segget`. -/
def execSegget (d a b : Reg) (s : State) : Out := runInstr 4 (bodySegget d a b) s

/-- The value of `segchk` (Table 7.6). -/
def segRoom (g : Desc) (o : Int) : Word :=
  BitVec.ofNat 64 (dSpace g * 2 ^ 53 + nbits g.toNat 12 8 * 2 ^ 48
    + (if 0 ≤ o ∧ o ≤ dLimit g then dLimit g - o.toNat else 0))
/-- `segchk` (R170). -/
def bodySegchk (d a b : Reg) : M Unit := do
  fields [d, b]
  let o ← readReg b
  writeReg d (segRoom ((← me).segd a.toNat) o.toInt)
/-- The step of `segchk`. -/
def execSegchk (d a b : Reg) (s : State) : Out := runInstr 4 (bodySegchk d a b) s

/-! ## Fences that atomics and `fence` wait for (R202, R325, R328) -/

/-- The MBA that stands for where the current context runs, for scopes (R193, R328). -/
def State.hereMba (s : State) : Nat := 16 * s.here + s.hereCtx

/-- Every access of the current context is performed; every `red` of it whose owner lies in the scope is applied; at
device scope and above its stores to replicated pages are in every copy (R202). -/
def State.fenceDone (s : State) (scope : Nat) : Bool :=
  s.me.out.isEmpty
    && !(s.reds.any fun u => u.src = s.cur && coreInScope scope s.hereMba u.owner)
    && (scope < 6 || !(s.props.any fun p => p.src = some s.cur))

/-- The effective scope of an atomic: the larger of its own and the smallest that holds the context and the owner
(R178). -/
def State.effScope (s : State) (owner : Nat) : Nat :=
  max (min 6 (match s.grp.scope with | some x => x.toNat | none => 6)) (smallestScope s.hereMba owner)

/-! ## Atomics (R175–R179) -/

/-- The access of an atomic of `n` bytes (Table 7.1). -/
def atomAccess (n kind : Nat) : Access := ⟨n, n, [rA], [0, 1, 2], kind, .atomic⟩

/-- An atomic whose translation makes the port walk first waits for all that a fence can wait for: the walk's reads come after what the fence
at its effective scope orders before it, and that scope is known by the walk alone (R178, R315, R396). [DESIGN CHOICE: log 116] -/
def beforeWalk (q : Nat) (o : Int) (a : Access) : M Unit := do
  let s ← get
  stallIf (mustWalk s q o a && !s.fenceDone 6) .fence

/-- An `amo` issues (R175, R176, R325): after the fence at its effective scope. On a global word of another core the
thread moves first. -/
def amoMem (op : AmoOp) (d a b : Reg) (seg : BitVec 3) : M Unit := do
  fields [d, a, b]
  let s0 ← get
  let x ← readReg a
  let v ← readReg b
  settled
  let n := amoBytes op
  beforeWalk seg.toNat x.toInt (atomAccess n 9)
  let p ← checkAccess seg.toNat x.toInt (atomAccess n 9) false
  checkDest d
  let s ← get
  stallIf (!s.fenceDone (s.effScope (ownerOfLoc s.minimal p.home.loc))) .fence
  stallIf (s.siblingHolds p.home) .access
  issue s0 [(a, x), (b, v)] (.amo op v d) p n false

/-- `cas` (R177). -/
def bodyCas (d a b : Reg) (seg : BitVec 3) : M Unit := do
  fields [d, a, b]
  let s0 ← get
  let x ← readReg a
  let v ← readReg b
  let e ← readReg d
  settled
  beforeWalk seg.toNat x.toInt (atomAccess 8 10)
  let p ← checkAccess seg.toNat x.toInt (atomAccess 8 10) false
  checkDest d
  let s ← get
  stallIf (!s.fenceDone (s.effScope (ownerOfLoc s.minimal p.home.loc))) .fence
  stallIf (s.siblingHolds p.home) .access
  issue s0 [(a, x), (b, v), (d, e)] (.cas e v d) p 8 false
/-- The step of `cas`. -/
def execCas (d a b : Reg) (seg : BitVec 3) (_x : Bool) (s : State) : Out := runInstr 4 (bodyCas d a b seg) s

/-- A `red` issues (R180): the update is on its way to its owner. -/
def redMem (op : AmoOp) (a b : Reg) (seg : BitVec 3) : M Unit := do
  fields [a, b]
  let x ← readReg a
  let v ← readReg b
  settled
  let n := amoBytes op
  let p ← checkAccess seg.toNat x.toInt (atomAccess n 11) false
  let s ← get
  stallIf (decide (32 ≤ (s.reds.filter fun u => u.src = s.cur).length)) .redCredits
  set { s with reds := s.reds ++ [Upd.mk s.cur (ownerOfLoc s.minimal p.home.loc) p.home n op v s.aseq s.here], aseq := s.aseq + 1 }

/-- The step of `amo.swap` (R176). -/
def execAmoSwap (d a b : Reg) (seg : BitVec 3) (_x : Bool) (s : State) : Out :=
  runInstr 4 (amoMem .swap d a b seg) s
/-- The step of `amo.add` (R176). -/
def execAmoAdd (d a b : Reg) (seg : BitVec 3) (_x : Bool) (s : State) : Out :=
  runInstr 4 (amoMem .add d a b seg) s
/-- The step of `amo.and` (R176). -/
def execAmoAnd (d a b : Reg) (seg : BitVec 3) (_x : Bool) (s : State) : Out :=
  runInstr 4 (amoMem .and d a b seg) s
/-- The step of `amo.or` (R176). -/
def execAmoOr (d a b : Reg) (seg : BitVec 3) (_x : Bool) (s : State) : Out :=
  runInstr 4 (amoMem .or d a b seg) s
/-- The step of `amo.xor` (R176). -/
def execAmoXor (d a b : Reg) (seg : BitVec 3) (_x : Bool) (s : State) : Out :=
  runInstr 4 (amoMem .xor d a b seg) s
/-- The step of `amo.min` (R176). -/
def execAmoMin (d a b : Reg) (seg : BitVec 3) (_x : Bool) (s : State) : Out :=
  runInstr 4 (amoMem .min d a b seg) s
/-- The step of `amo.max` (R176). -/
def execAmoMax (d a b : Reg) (seg : BitVec 3) (_x : Bool) (s : State) : Out :=
  runInstr 4 (amoMem .max d a b seg) s
/-- The step of `amo.minu` (R176). -/
def execAmoMinu (d a b : Reg) (seg : BitVec 3) (_x : Bool) (s : State) : Out :=
  runInstr 4 (amoMem .minu d a b seg) s
/-- The step of `amo.maxu` (R176). -/
def execAmoMaxu (d a b : Reg) (seg : BitVec 3) (_x : Bool) (s : State) : Out :=
  runInstr 4 (amoMem .maxu d a b seg) s
/-- The step of `amo.faddS` (R176). -/
def execAmoFaddS (d a b : Reg) (seg : BitVec 3) (_x : Bool) (s : State) : Out :=
  runInstr 4 (amoMem .faddS d a b seg) s
/-- The step of `amo.faddD` (R176). -/
def execAmoFaddD (d a b : Reg) (seg : BitVec 3) (_x : Bool) (s : State) : Out :=
  runInstr 4 (amoMem .faddD d a b seg) s
/-- The step of `amo.fminS` (R176). -/
def execAmoFminS (d a b : Reg) (seg : BitVec 3) (_x : Bool) (s : State) : Out :=
  runInstr 4 (amoMem .fminS d a b seg) s
/-- The step of `amo.fmaxS` (R176). -/
def execAmoFmaxS (d a b : Reg) (seg : BitVec 3) (_x : Bool) (s : State) : Out :=
  runInstr 4 (amoMem .fmaxS d a b seg) s
/-- The step of `red.swap` (R180). -/
def execRedSwap (a b : Reg) (seg : BitVec 3) (_x : Bool) (s : State) : Out :=
  runInstr 4 (redMem .swap a b seg) s
/-- The step of `red.add` (R180). -/
def execRedAdd (a b : Reg) (seg : BitVec 3) (_x : Bool) (s : State) : Out :=
  runInstr 4 (redMem .add a b seg) s
/-- The step of `red.and` (R180). -/
def execRedAnd (a b : Reg) (seg : BitVec 3) (_x : Bool) (s : State) : Out :=
  runInstr 4 (redMem .and a b seg) s
/-- The step of `red.or` (R180). -/
def execRedOr (a b : Reg) (seg : BitVec 3) (_x : Bool) (s : State) : Out :=
  runInstr 4 (redMem .or a b seg) s
/-- The step of `red.xor` (R180). -/
def execRedXor (a b : Reg) (seg : BitVec 3) (_x : Bool) (s : State) : Out :=
  runInstr 4 (redMem .xor a b seg) s
/-- The step of `red.min` (R180). -/
def execRedMin (a b : Reg) (seg : BitVec 3) (_x : Bool) (s : State) : Out :=
  runInstr 4 (redMem .min a b seg) s
/-- The step of `red.max` (R180). -/
def execRedMax (a b : Reg) (seg : BitVec 3) (_x : Bool) (s : State) : Out :=
  runInstr 4 (redMem .max a b seg) s
/-- The step of `red.minu` (R180). -/
def execRedMinu (a b : Reg) (seg : BitVec 3) (_x : Bool) (s : State) : Out :=
  runInstr 4 (redMem .minu a b seg) s
/-- The step of `red.maxu` (R180). -/
def execRedMaxu (a b : Reg) (seg : BitVec 3) (_x : Bool) (s : State) : Out :=
  runInstr 4 (redMem .maxu a b seg) s
/-- The step of `red.faddS` (R180). -/
def execRedFaddS (a b : Reg) (seg : BitVec 3) (_x : Bool) (s : State) : Out :=
  runInstr 4 (redMem .faddS a b seg) s
/-- The step of `red.faddD` (R180). -/
def execRedFaddD (a b : Reg) (seg : BitVec 3) (_x : Bool) (s : State) : Out :=
  runInstr 4 (redMem .faddD a b seg) s
/-- The step of `red.fminS` (R180). -/
def execRedFminS (a b : Reg) (seg : BitVec 3) (_x : Bool) (s : State) : Out :=
  runInstr 4 (redMem .fminS a b seg) s
/-- The step of `red.fmaxS` (R180). -/
def execRedFmaxS (a b : Reg) (seg : BitVec 3) (_x : Bool) (s : State) : Out :=
  runInstr 4 (redMem .fmaxS a b seg) s

/-! ## Performance -/

/-- A waiting full-empty load whose destination can now take its value is served (R172, R173). -/
def serveFor (s : State) (m : Nat) : State :=
  match s.feq.find? fun w => w.who = m && w.wantsFull with
  | some w => serve s w.g
  | none => s

/-- The step of `MEMORY_ACCESS_PERFORM`: the `i`-th outstanding access of context `m` is performed; beyond them, a store
reaches a copy of a replicated page (R164, R320); beyond those, the granule at which `m` waits is served. -/
def execMemoryAccessPerform (m i : Nat) (e : Ecc) (s : State) : Out :=
  let n := (s.ctx m).out.length
  runEvent (fun s => if i < n then performAt s m i e else if i < n + s.props.length then propagateAt s (i - n) else serveFor s m) s

/-- An update may be applied (R315, R326, R427): every earlier update of its sender to those bytes has been, and every earlier relaxed access of
its sender to them has been performed; its sender's core is not contained. -/
def updInOrder (s : State) (i : Nat) (u : Upd) : Bool :=
  !((s.reds.take i).any fun v => v.src = u.src && v.at_.meets u.at_)
    && !((s.ctx u.src).out.any fun a => decide (a.seq < u.seq) && a.home.meets u.at_) && !isolated s u.by_

/-- The owner applies an update in flight (R180, R181, R326). A poisoned word discards it. -/
def applyUpdate (i : Nat) (e : Ecc) (s : State) : State :=
  match s.reds[i]? with
  | none => s
  | some u =>
    if !updInOrder s i u then s
    else match asleep s u.at_.ends with
      | some (c, b) => startExit s c b
      | none =>
        match budgetPlace (.upd u.src u.seq) u.owner (s.ctx u.src).part.toNat (s.ctx u.src).qcls.toNat u.at_ s with
        | .error t => t
        | .ok t =>
          let t := applyEcc (touchAt { t with reds := dropAt t.reds i } u.at_) u.at_.loc e
          if u.at_.bad t then countDisc t (clKey u.owner)
          else writeAt (.ofCore u.by_) u.at_ (leBytes u.n (amoNew u.op (u.at_.val t) (u.v.toNat % 2 ^ (8 * u.n)))) t
/-- The step of `REMOTE_UPDATE_APPLY`. -/
def execRemoteUpdateApply (i : Nat) (e : Ecc) (s : State) : Out := runEvent (applyUpdate i e) s

/-- A late poison is taken at a context's next group boundary (R165). -/
def takeLate (m : Nat) (s : State) : State :=
  let c := s.ctx m
  match c.late with
  | some t => if c.run = .running && !(c.out.any Acc.holds) then trapAt (s.modCtx m fun c => { c with late := none }) m ⟨0x13, t⟩ else s
  | none => s
/-- The step of `LATE_POISON`. -/
def execLatePoison (m : Nat) (s : State) : Out := runEvent (takeLate m) s

end Sys2Proof.Machine
end

