-- ==== Sys2Proof/Machine/Block.lean ====
section
/-! DEFINITION. Blocks that an instruction reads or writes as a whole: save frames, launch and arm records, routine images
(R161, R208, R209, R240, R284, R287). A block is checked as one access and performed in pieces of 16 or 64 bytes. -/

namespace Sys2Proof.Machine

open Sys2Proof.Config

/-- A block: its bytes, its alignment, the bytes of a piece, its rights, spaces and kind code (Table 7.2), and the page's
right. -/
structure BlockAccess where
  n      : Nat
  align  : Nat
  piece  : Nat
  need   : List Nat
  spaces : List Nat
  kind   : Nat
  pte    : Pte
  deriving DecidableEq, Repr

/-- Checks and translates a block at offset `o` of a segment (R38, R161). [DEDUCED: log 27] -/
def blockPieces (q : Nat) (o : Int) (a : BlockAccess) : M (List Spot) := do
  let s ← get
  match segFault s.layer (s.me.segd q) o ⟨a.n, a.align, a.need, a.spaces, a.kind, a.pte⟩ with
  | some c => raise c (memInfo q a.kind false (ofInt 48 o))
  | none =>
    (upFrom 0 (a.n / a.piece)).mapM fun i =>
      checkAccess q (o + (i * a.piece : Nat)) ⟨a.piece, 1, a.need, a.spaces, a.kind, a.pte⟩ false

/-- A piece can be performed: the context's own accesses to it come first, and have reached the copy that it reads, and its bank is awake
(R163, R314, R426). -/
def atPiece (p : Spot) : M Unit := do
  atBank p
  let s ← get
  stallIf (s.props.any (fun x => x.src = some s.cur && p.at_.meets [(x.loc, x.data.length, .plain)])
    || s.me.fwd.any fun f => f.home.meets p.home && storeLive s f.seq) .access

/-- The pieces of a block that the waiting instruction has paid for (R413). -/
def Context.paid (c : Context) : Nat := match c.wait with | some ⟨.bandwidth n, _, _, _, _⟩ => n | _ => 0

/-- Pays for the pieces of a block from the `k`-th on: the state, and the first piece that waits for bandwidth. -/
def payFrom (s : State) : List Spot → Nat → State × Option Nat
  | [], _ => (s, none)
  | p :: ps, k =>
    match budgetPlace (.block s.cur) s.here s.me.part.toNat s.me.qcls.toNat p.at_ s with
    | .ok t => payFrom t ps (k + 1)
    | .error t => (t, some k)

/-- A block waits until every piece of it has been served (R412, R413); what it has paid for stays paid. -/
def payBlock (ps : List Spot) : M Unit := do
  let s ← get
  match payFrom s (ps.drop s.me.paid) s.me.paid with
  | (t, none) => set t
  | (t, some k) => throw (.unpaid t.window t.budgets t.served t.bwait t.spilt k)

/-- The pieces of a block, ready to be performed. -/
def readyBlock (q : Nat) (o : Int) (a : BlockAccess) : M (List Spot) := do
  let ps ← blockPieces q o a
  ps.forM atPiece
  payBlock ps
  return ps

/-- Reads a block; poison anywhere in it traps before anything is done (R165). -/
def readBlock (q : Nat) (o : Int) (a : BlockAccess) : M (List Byte) := do
  let ps ← readyBlock q o a
  let s ← get
  match ps.find? fun p => p.at_.bad s with
  | some p => throw (.trap ⟨0x13, p.info⟩)
  | none => return ps.flatMap fun p => p.at_.bytes s

/-- Writes the pieces of a block in order, of `k` bytes each. -/
def writePieces (w : Writer) (k : Nat) : List Spot → List Byte → State → State
  | [], _, s => s
  | p :: ps, bs, s => writePieces w k ps (bs.drop k) (writeAt w p.at_ (bs.take k) s)

/-- A little-endian double word of a block. -/
def dword (bs : List Byte) (off : Nat) : Word := BitVec.ofNat 64 (leVal ((bs.drop off).take 8))

end Sys2Proof.Machine
end

