-- ==== Sys2Proof/Machine/Stop.lean ====
section
/-! DEFINITION. Stopping a context and ending it (R188, R204–R206). -/

namespace Sys2Proof.Machine

open Sys2Proof.Config

/-- What stands in `stopReq` for a debugger's halt. -/
def byDebugger : Nat := 2 ^ 20

/-- One step of stopping context `m` for `who`, and whether it has stopped (R204): a thread held away is recalled; its
outstanding accesses are performed; a late poison is taken as its trap; then it stops at its group boundary, and an
instruction in a wait is abandoned. A context that does not run is not stopped again. [DEDUCED: log 31] -/
def stopStep (s : State) (m who : Nat) (r : Run) : State × Bool :=
  let free := fun s : State => s.modCtx m fun c => { c with stopReq := none }
  match (s.ctx m).away with
  | some _ => ((recallIt s m).modCtx m fun c => { c with stopReq := some who }, false)
  | none =>
    let s := if (s.ctx m).full then giveBack (letGo s m) m else s
    let c := s.ctx m
    if !c.out.isEmpty then (s.modCtx m fun c => { c with stopReq := some who }, false)
    else if c.run != .running then (free s, true)
    else if c.late.isSome then (takeLate m (free s), true)
    else ((withdraw (free s) m).modCtx m fun c => { c with run := r }, true)

/-- The exit notice goes to context 0 of the core, or, for context 0, to the partition supervisor (R205, R206). -/
def exitNotice (s : State) (m reason : Nat) : State :=
  let dst := if mbaCtx m = 0 then supervisorOf s (s.ctx m).part.toNat else 16 * mbaCid m
  postHw s (mbaCid m) dst (hwWord 6 (mbaCid m * 2 ^ 16 + reason * 2 ^ 4 + mbaCtx m))

/-- A word that is on its way to a context that ends is a completion word of an engine command that it issued (R195, R234). -/
def NWord.doneFor (w : NWord) (m : Nat) : Bool := w.cmd && w.dst = m

/-- Completion words for a context that has ended are discarded, wherever they wait (R195, R234). -/
def dropDone (s : State) (m : Nat) : State :=
  { s with net := s.net.filter (!·.doneFor m), ingress := s.ingress.filter (!·.doneFor m), held := s.held.filter (!·.w.doneFor m) }

/-- An instruction that waits elsewhere than in a queue is given up without being abandoned: it is tried again from its start. -/
def tryAgain (s : State) (m : Nat) : State := (giveBack s m).modCtx m fun c => { c with wait := none }

/-- A context ends (R205, R206): it is unspawned, its mailbox is emptied, it leaves every barrier, its lease or request is
released, a delegation server that it was is disabled (R310), completion words of its commands are discarded (R195), the notice goes out, and its
core, or the host of a migrant, may take a migrant or an item that waits. A `mutesend` whose mute waits for room in its `qout` is tried again
(R218). [DESIGN CHOICE: log 117] -/
def endContext (s : State) (m reason : Nat) : State :=
  let cid := mbaCid m
  let server := mbaCtx m = 15 && (s.core cid).dlg.en
  let host := s.hereOf m
  let s := withdraw s m
  let s := dropDone (((s.ctx m).muteOut.filter (· ≠ m)).foldl tryAgain s) m
  let s := s.modCtx m fun c => { c with
    run := .unspawned, mbx := [], gen := c.gen + 1, frame := none, fwd := [], late := none, pend := none,
    stopReq := none, muteOut := [], away := none }
  let s := if server then s.modCore cid fun k => { k with dlg := ⟨false, none, []⟩ } else s
  let s := admitAll m s
  let s := releaseLease (leaveAllBars s m) m
  thaw (freed (freed (exitNotice s m reason) host) cid) (s.ctx m).part.toNat

/-- The issuer waits until another context has stopped (R204): what it has done so far is undone (R29), what the stop has
done stays. -/
def waitStop (s : State) (m : Nat) (r : Run) : M Unit := do
  set (noteWait (stopStep s m s.cur r).1 s.cur .target)
  throw .hold

/-- A context that a supervisor's remote form or a number of the core names (R203–R209, R400), with the value as it stands
in the register. -/
def namedContext (v : Word) : M Nat := do
  let s ← get
  let n := v.toNat
  if n < 2 ^ 20 then
    raiseIf (decide (contexts (cidLayer (mbaCid s.cur)) ≤ n)) 0x02 n
    return 16 * mbaCid s.cur + n
  else
    let m := n % 2 ^ 20
    raiseIf (!s.me.sup || decide (2 ^ 21 ≤ n) || !mbaValid s.minimal m || !coreIn s s.me.part.toNat (mbaCid m)) 0x02 n
    return m

end Sys2Proof.Machine
end

