-- ==== Sys2Proof/Machine/Ctx.lean ====
section
/-! DEFINITION. Contexts: `spawn`, `reap`, `exit`, `save`, `load` (R203–R209, R400). -/

namespace Sys2Proof.Machine

open Sys2Proof.Config

/-- `spawn` (R203). The target is checked before the number. [DESIGN CHOICE: log 112] -/
def bodySpawn (d a b : Reg) : M Unit := do
  noMigrant
  privileged
  let n ← readReg a
  let t ← readReg b
  let x0 ← readReg d
  checkTarget t
  let s ← get
  let cid := mbaCid s.cur
  let k := n.toNat
  raiseIf (k = 0 || decide (contexts (cidLayer cid) ≤ k)) 0x02 k
  raiseIf ((s.ctx (16 * cid + k)).run != .unspawned || hosting s cid k) 0x02 k
  set (s.setCtx (16 * cid + k) (spawned s s.cur k t x0))
/-- The step of `spawn`. -/
def execSpawn (d a b : Reg) (s : State) : Out := runInstr 4 (bodySpawn d a b) s

/-- `exit`: waits until the context's accesses are performed; the context ends, a migrant's at home (R187, R206). -/
def bodyExit : M Unit := do
  let s ← get
  stallIf (!s.me.out.isEmpty) .fence
  set (endContext s s.cur 0)
/-- The step of `exit`. -/
def execExit (s : State) : Out := runWhole bodyExit s

/-- The issuer's own end and the state in which it goes on, as one effect. -/
def goOn : M Unit := modify fun s => s.goto (s.nextPc 4) s.me.pc

/-- `reap` (R205, R400). -/
def bodyReap (d a : Reg) : M Unit := do
  noMigrant
  privileged
  let s0 ← get
  let v ← readReg a
  let m ← namedContext v
  raiseIf (decide (v = 0)) 0x02 0
  let s ← get
  raiseIf (hosting s (mbaCid m) (mbaCtx m)) 0x02 v.toNat
  if m = s.cur then
    stallIf (!s.me.out.isEmpty) .fence
    set (endContext s m 1)
  else if (s.ctx m).run = .unspawned then
    writeReg d 0
    goOn
  else
    match stopStep s m s.cur (.stopped .save) with
    | (_, false) => waitStop s0 m (.stopped .save)
    | (t, true) => do
      set t
      writeReg d 1
      modify fun t => endContext t m 1
      goOn
/-- The step of `reap`. -/
def execReap (d a : Reg) (s : State) : Out := runWhole (bodyReap d a) s

/-! ## Save frames -/

/-- Bytes of a save frame (R207). -/
def frameSize : Nat := 512

/-- The context word (Table 2.3). -/
def contextWord (c : Context) : Nat :=
  c.sel.toNat * 2 ^ 32 + c.gpos.toNat * 2 ^ 26 + (if c.sec then 2 ^ 25 else 0) + (if c.sup then 2 ^ 24 else 0)
    + c.mode.toNat % 2 ^ 16

/-- The save frame of a context at a PC (Table 8.4). -/
def saveFrame (c : Context) (pc : Word) : List Byte :=
  let w := fun v : Nat => leBytes 8 v
  w pc.toNat ++ w (c.k.toNat + c.flags.toNat * 2 ^ 32) ++ (c.x.toList.flatMap fun v => w v.toNat)
    ++ w (contextWord c) ++ w c.rngst.toNat ++ w c.mode.toNat ++ w c.jobseed.toNat ++ w c.msgdst.toNat ++ w c.qlink.toNat
    ++ w c.tcause.toNat ++ w c.tinfo.toNat ++ w c.tpc.toNat
    ++ w (c.ctxid.toNat + (c.part.toNat + if c.sec then 16 else 0) * 2 ^ 8 + c.bowgrp.toNat * 2 ^ 16)
    ++ (c.seg.toList.flatMap fun d => leBytes 16 d.toNat) ++ List.replicate 96 0

/-- Segment register `i` of a frame. -/
def frameSeg (f : List Byte) (i : Nat) : Desc := BitVec.ofNat 128 (leVal ((f.drop (288 + 16 * i)).take 16))

/-- The offset of the first field of a frame that fails checks 2 to 4 of R209, for a context of a layer. -/
def frameFault (s : State) (layer : Nat) (f : List Byte) : Option Nat :=
  match (upFrom 0 8).find? fun i => !descValid layer (frameSeg f i) with
  | some i => some (288 + 16 * i)
  | none =>
    let r := nbits (dword f 224).toNat 2 0
    if r = 0 || r = 7 then some 224
    else if !qlinkValid s (dword f 248) then some 248
    else if dword f 216 = 0 then some 216
    else none

/-- The bits of `mode` that exist (Table 2.6). -/
def modeMask : Nat := (2 ^ 48 - 1) - 2 ^ 13 - 2 ^ 14 - 2 ^ 15

/-- What a frame gives a context beside what its fields say: `ctxid`, `part`, and the world and the mode of the context word. -/
structure FrameId where
  ctxid : BitVec 8
  part  : BitVec 4
  sec   : Bool
  sup   : Bool
  deriving DecidableEq, Repr

/-- The partition of a context (Table 2.5): that which its core has been given to, from when nothing has started the context (R382, R383).
[DESIGN CHOICE: log 118] -/
def partOf (s : State) (m : Nat) : BitVec 4 :=
  if (s.ctx m).run = .unspawned then ((ownerPart s (mbaCid m)).map (BitVec.ofNat 4)).getD (s.ctx m).part else (s.ctx m).part

/-- What a frame makes of context `m` (R41, R209): a supervisor's frame gives `ctxid` and `part`, a user's leaves them. The context is in the
world of its block (R384), and the supervisor context runs with `sup` = 1 (R383). [DESIGN CHOICE: log 86, 87] -/
def frameId (s : State) (m : Nat) (f : List Byte) (super : Bool) : FrameId :=
  let cw := (dword f 208).toNat
  let img := (dword f 280).toNat
  ⟨if super then BitVec.ofNat 8 img else (s.ctx m).ctxid, if super then BitVec.ofNat 4 (nbits img 11 8) else partOf s m,
    worldOf s (mbaCid m) (nbit cw 25), nbit cw 24 || isSupervisor s m⟩

/-- A context with a frame installed, which runs at the frame's PC (R209). The `mode` dword counts, and the image of its low bits in the context
word does not. [DESIGN CHOICE: log 88] -/
def installFrame (c : Context) (f : List Byte) (i : FrameId) : Context :=
  let cw := (dword f 208).toNat
  let img := (dword f 280).toNat
  { c with
    run := .running
    pc := BitVec.ofNat 64 ((dword f 0).toNat % 2 ^ 48 / 4 * 4)
    via := BitVec.allOnes 64
    k := (dword f 8).setWidth 32
    flags := BitVec.ofNat 6 (nbits (dword f 8).toNat 37 32)
    x := Vector.ofFn fun i : Fin 24 => dword f (16 + 8 * i)
    sel := BitVec.ofNat 32 (nbits cw 63 32)
    gpos := BitVec.ofNat 2 (nbits cw 27 26)
    sec := i.sec
    sup := i.sup
    rngst := dword f 216
    mode := BitVec.ofNat 64 ((dword f 224).toNat &&& modeMask)
    jobseed := dword f 232
    msgdst := dword f 240
    qlink := dword f 248
    tcause := (dword f 256).setWidth 8
    tinfo := dword f 264
    tpc := dword f 272
    ctxid := i.ctxid
    part := i.part
    bowgrp := BitVec.ofNat 16 (nbits img 31 16)
    seg := Vector.ofFn fun i : Fin 8 => frameSeg f i
    frame := none
    wait := none
    rcv := none }

/-- Context 0 has been started: run entries kept for it are posted, and its core may take items (R292, R293). -/
def monitorStarted (s : State) (cid : Nat) : State :=
  let es := (s.core cid).runents
  takeQueued (es.foldl (fun s w => postHw s cid (16 * cid) w) (s.modCore cid fun k => { k with runents := [] })) cid

/-- A frame is installed into a context, which then runs (R52, R209, R292, R403). -/
def loadFrame (s : State) (m : Nat) (f : List Byte) (super : Bool) : State :=
  let was := (s.ctx m).run
  let p := (s.ctx m).part.toNat
  let s := bowMark (thaw (resumed (s.modCtx m fun c => installFrame c f (frameId s m f super)) m) p) m
  if mbaCtx m = 0 && was = .unspawned then monitorStarted s (mbaCid m) else s

/-- The access of `save` (Table 7.1, R208). -/
def saveAccess : BlockAccess := ⟨512, 64, 64, [rW], [0, 1, 2], 17, .write⟩
/-- The access of `load` (Table 7.1, R209). -/
def loadFrameAccess : BlockAccess := ⟨512, 64, 64, [rR], [0, 1, 2], 18, .read⟩

/-- Another context than the issuer's is reserved to context 0 and to supervisor mode (R193); in user mode a value with bit 20 set names none
(R400). -/
def otherReserved (v : Word) : M Unit := do
  let s ← get
  raiseIf (!s.me.sup && nbit v.toNat 20) 0x02 v.toNat
  if v.toNat = mbaCtx s.cur then pure () else privileged

/-- Writes a context's frame to the pieces of a `save` (R208). -/
def writeFrame (s : State) (ps : List Spot) (c : Context) (pc : Word) : State :=
  writePieces ⟨some s.cur, s.aseq, some s.here, none⟩ 64 ps (saveFrame c pc) { s with aseq := s.aseq + 1 }

/-- The PC that the frame of a stopped context holds (R208). [DEDUCED: log 28] -/
def framePc (c : Context) : Word := if c.run = .stopped .trap then c.tpc else c.pc

/-- `save` (R208, R400). -/
def bodySave (d a b : Reg) : M Unit := do
  noMigrant
  let s0 ← get
  let v ← readReg a
  otherReserved v
  let o ← readReg b
  let m ← namedContext v
  settled
  let ps ← readyBlock d.toNat o.toInt saveAccess
  let s ← get
  if m = s.cur then
    stallIf (s.me.out.any fun a => match a.kind with | .load .. => true | _ => false) .access
    set (writeFrame s ps s.me (s.nextPc 4))
    goOn
  else
    raiseIf (decide ((s.ctx m).run = .unspawned)) 0x02 v.toNat
    match stopStep s m s.cur (.stopped .save) with
    | (_, false) => waitStop s0 m (.stopped .save)
    | (t, true) =>
      set (writeFrame t ps (t.ctx m) (framePc (t.ctx m)))
      goOn
/-- The step of `save`. -/
def execSave (d a b : Reg) (s : State) : Out := runWhole (bodySave d a b) s

/-- `load` (R209, R400). The frame is read before its context is judged. [DESIGN CHOICE: log 113] -/
def bodyLoad (d a b : Reg) : M Unit := do
  noMigrant
  let v ← readReg a
  otherReserved v
  let o ← readReg b
  let m ← namedContext v
  settled
  let f ← readBlock d.toNat o.toInt loadFrameAccess
  let s ← get
  let c := s.ctx m
  let self := m = s.cur
  raiseIf (!self && (decide (c.run = .running) || hosting s (mbaCid m) (mbaCtx m))) 0x02 v.toNat
  stallIf (!c.out.isEmpty) .access
  let cw := (dword f 208).toNat
  raiseIf (!s.me.sup && (nbit cw 24 || nbit cw 25 != s.me.sec)) 0x06 s.grp.instr.toNat
  match frameFault s (cidLayer (mbaCid m)) f with
  | some e => raise 0x02 e
  | none =>
    set (loadFrame s m f s.me.sup)
    if self then pure () else goOn
/-- The step of `load`. -/
def execLoad (d a b : Reg) (s : State) : Out := runWhole (bodyLoad d a b) s

end Sys2Proof.Machine
end

