-- ==== Sys2Proof/Machine/Dlg.lean ====
section
/-! DEFINITION. Delegation (R190, R191, R308–R311). -/

namespace Sys2Proof.Machine

open Sys2Proof.Config

/-- The access of `dlg` (Table 7.1). -/
def dlgAccess : Access := ⟨1, 1, [rA], [0, 1, 2], 13, .dlg⟩

/-- `dlg`: a send and a release (R190), before which a walk for it comes no earlier than the accesses before it (R315, R396). The requester waits
until its request is accepted. -/
def bodyDlg (t : T64) : M Unit := do
  noMigrant
  let s0 ← get
  let x ← readReg t.a
  settled
  let s ← get
  stallIf (mustWalk s (t.f.toNat % 8) x.toInt dlgAccess && !s.me.out.isEmpty) .access
  let p ← checkAccess (t.f.toNat % 8) x.toInt dlgAccess false
  let s ← get
  let owner := ownerOfLoc s.minimal p.home.loc
  raiseIf (!(s.core owner).dlg.en) 0x16 owner
  released
  stallIf (decide (64 ≤ creditsUsed s (mbaCid s.cur) owner)) .dlgCredit
  let args := (upFrom 0 6).map fun i => s0.me.reg i
  postpone s0 [(t.a, x)]
  modify fun s =>
    noteWait { s with dreqs := s.dreqs ++ [⟨owner, ⟨t.w1, args, s.cur⟩, s.mseq⟩], mseq := s.mseq + 1 } s.cur .delegation
  throw .hold
/-- The step of `dlg`. -/
def execDlg (t : T64) (s : State) : Out := runInstr 8 (bodyDlg t) s

/-- The oldest request that waits for a core's server: it enters the server's queue of 32, and its requester goes on; a
disabled server refuses it (R191, R310). -/
def acceptRequest (cid : Nat) (s : State) : State :=
  match s.dreqs.find? (·.owner = cid) with
  | none => s
  | some r =>
    let v := (s.core cid).dlg
    let m := r.req.from_
    if earlierMsg s m cid r.n || s.downAt cid then s
    else if !v.en then
      trapAt { s with dreqs := s.dreqs.erase r } m ⟨0x16, BitVec.ofNat 64 cid⟩
    else if 32 ≤ v.queue.length then s
    else
      resumedAfter (takePops ({ s with dreqs := s.dreqs.erase r }.modCore cid fun k =>
        { k with dlg := { v with queue := v.queue ++ [r.req] } }) m) m 8
/-- The step of `DELEGATION_ACCEPT`. -/
def execDelegationAccept (cid : Nat) (s : State) : Out := runEvent (acceptRequest cid) s

/-- A server context waits for its next request. -/
def Context.idleServer (c : Context) : Bool :=
  c.run = .running && match c.wait with | some w => w.kind = .serverIdle | none => false

/-- The server starts the routine of the oldest request, with x0–x5 from it (R191). [DESIGN CHOICE: log 99] -/
def startRoutine (cid : Nat) (s : State) : State :=
  let v := (s.core cid).dlg
  let m := 16 * cid + 15
  match v.queue with
  | [] => s
  | r :: q =>
    if v.en && v.cur.isNone && (s.ctx m).idleServer then
      (resumed (s.modCore cid fun k => { k with dlg := ⟨true, some r.from_, q⟩ }) m).modCtx m fun c =>
        { c with pc := r.rpc.setWidth 64, via := BitVec.allOnes 64,
                 x := Vector.ofFn fun i : Fin 24 => if i.val < 6 then r.args.getD i 0 else c.reg i }
    else s
/-- The step of `DELEGATION_START`. -/
def execDelegationStart (cid : Nat) (s : State) : Out := runEvent (startRoutine cid) s

/-- `dlgret`: the replies go out as a release, and the server waits for the next request (R191). -/
def bodyDlgret : M Unit := do
  noMigrant
  let s ← get
  let cid := mbaCid s.cur
  raiseIf (!(mbaCtx s.cur = 15 && (s.core cid).dlg.en)) 0x16 1
  match (s.core cid).dlg.cur with
  | none => pure ()
  | some r => do
    released
    let s := postHw (postHw s cid r (s.me.reg 0)) cid r (s.me.reg 1)
    set (s.modCore cid fun k => { k with dlg := { k.dlg with cur := none } })
  modify fun s => noteWait s s.cur .serverIdle
  throw .hold
/-- The step of `dlgret`. -/
def execDlgret (s : State) : Out := runInstr 4 bodyDlgret s

/-- A write of `dlgctl` that turns `en` from 0 to 1 (R309): the step of `srs` on it. -/
def execDlgctlEnable (d : Reg) (s : State) : Out :=
  if (s.core (mbaCid s.cur)).dlg.en then .next s else execSrs d 0x082 s
/-- A write of `dlgctl` that turns `en` from 1 to 0 (R309): the step of `srs` on it. -/
def execDlgctlDisable (d : Reg) (s : State) : Out :=
  if (s.core (mbaCid s.cur)).dlg.en then execSrs d 0x082 s else .next s

end Sys2Proof.Machine
end

