-- ==== Sys2Proof/Machine/Tile.lean ====
section
/-! DEFINITION. Tiles and operators: descriptors (R102–R104), the elements of a bank under its format and scale (R62–R64,
R245), routines on a lane (R237–R241), the built-in operators (R242, R243, R83), and the evaluation of operators in order
(R246), with the faults of R255. -/

namespace Sys2Proof.Machine

open Sys2Proof.Config

/-! ## Formats of banks -/

/-- Format code of a bank register. -/
def fCode (f : BitVec 7) : Nat := nbits f.toNat 3 0
/-- Scale mode of a bank register. -/
def fMode (f : BitVec 7) : Nat := nbits f.toNat 5 4
/-- The formats whose elements a scale mode scales (R62). -/
def scalable (code : Nat) : Bool := code = 2 || code = 3 || (5 ≤ code && code ≤ 12)
/-- A bank's elements are scaled (R62). -/
def scaled (f : BitVec 7) : Bool := scalable (fCode f) && (fMode f = 1 || fMode f = 2)
/-- A bank is raw. -/
def isRaw (f : BitVec 7) : Bool := fCode f = 15
/-- Bytes of the header of a line (R63). -/
def hdrBytes (f : BitVec 7) : Nat := if scalable (fCode f) && fMode f = 2 then 16 else 0
/-- Half bytes of an element (R103). -/
def elemHalves (code : Nat) : Nat := if code = 12 then 1 else if code = 15 then 2 else fmtBits code / 4
/-- Bytes of a line of `n` elements (R103). -/
def lineBytes (f : BitVec 7) (n : Nat) : Nat :=
  hdrBytes f + (if fCode f = 12 then cdiv n 8 * 4 else n * elemHalves (fCode f) / 2)

/-- The working format of a bank (Table 9.7). -/
def workFmt (f : BitVec 7) : Nat :=
  let c := fCode f
  if c ≤ 1 || c = 4 then c
  else if fMode f = 0 && (c = 2 || c = 10) then 0
  else if fMode f = 0 && (c = 3 || c = 11) then 1
  else 5

/-! ## Descriptors (R102–R104) -/

/-- The format and scale of a core's bank. -/
def bankFmt (s : State) (cid b : Nat) : BitVec 7 × W32 := ((s.core cid).fmt.getD b 0, (s.core cid).bscl.getD b 0)

/-- The tile that a descriptor names on a core: bound to its bank's format and scale (R45). -/
def tileAt (s : State) (cid : Nat) (v : Word) : Tile :=
  let d := v.toNat
  let b := nbits d 63 60
  { cid := cid, bank := b, off := nbits d 59 49 * offUnit (cidLayer cid), rows := nbits d 48 39 + 1,
    cols := nbits d 38 29 + 1, stride := nbits d 28 17 * 16, pad := nbit d 9, cmaj := nbit d 8,
    fmt := (bankFmt s cid b).1, scale := (bankFmt s cid b).2 }

/-- `core` of a descriptor. -/
def tileCore (v : Word) : Nat := nbits v.toNat 16 12
/-- The core that a descriptor addresses, where `cid` stands for the issuing one (Table 4.9). -/
def tileCid (cid : Nat) (v : Word) : Nat := if tileCore v = 31 then cid else sibling cid (tileCore v)

/-- Elements of a line, its halo included. -/
def Tile.lineLen (t : Tile) : Nat := (if t.cmaj then t.rows else t.cols) + (if t.pad then 2 else 0)
/-- Lines, with the halo lines. -/
def Tile.lines (t : Tile) : Nat := (if t.cmaj then t.cols else t.rows) + (if t.pad then 2 else 0)
/-- Bytes of a line (R103). -/
def Tile.lineB (t : Tile) : Nat := lineBytes t.fmt t.lineLen
/-- Interior elements. -/
def Tile.size (t : Tile) : Nat := t.rows * t.cols
/-- Where line `l` begins in the model's memory. -/
def Tile.lineLoc (t : Tile) (l : Nat) : Nat :=
  spadLoc t.cid (t.bank * bankSize (cidLayer t.cid) + t.off + l * t.stride)

/-- A descriptor breaks R104. -/
def tileBad (t : Tile) (v : Word) (dest : Bool) : Bool :=
  nbits v.toNat 11 10 != 0 || nbits v.toNat 7 0 != 0 || (24 ≤ tileCore v && tileCore v ≤ 30)
    || decide (bankSize (cidLayer t.cid) < t.off + (t.lines - 1) * t.stride + t.lineB)
    || (dest && decide (t.stride < t.lineB))

/-- The line of element (`i`, `j`) and its place there; −1 and the size reach the halo. -/
def Tile.at (t : Tile) (i j : Int) : Nat × Nat :=
  let h : Int := if t.pad then 1 else 0
  if t.cmaj then ((j + h).toNat, (i + h).toNat) else ((i + h).toNat, (j + h).toNat)

/-- Where the element at place `e` of a line lies: the first byte of it, or of its group for `q4x`. -/
def Tile.elemLoc (t : Tile) (l e : Nat) : Nat :=
  t.lineLoc l + hdrBytes t.fmt
    + (if fCode t.fmt = 12 then e / 8 * 4 else e * elemHalves (fCode t.fmt) / 2)
/-- Bytes that reading an element takes. -/
def Tile.elemB (t : Tile) : Nat := if fCode t.fmt = 12 then 4 else elemHalves (fCode t.fmt) / 2

/-! ## Conversion of elements (R62–R64, R245) -/

/-- A fault of an element or an application (R255, R256): the sub-cause, the body index, whether it is the routine's, and a
DVA where the access was a global one. -/
structure EFault where
  sub  : BitVec 8
  body : Nat
  rtn  : Bool
  dva  : Option Nat
  deriving DecidableEq, Repr

/-- The environment in which a command's operations run (R67). -/
structure CmdEnv where
  env : REnv
  te  : BitVec 5
  rtn : Bool
  deriving DecidableEq, Repr

/-- Bits of a value with the flags of what made it. -/
abbrev Bits := Nat × BitVec 6

/-- An enabled exception among the flags of an operation faults (R76, R255). -/
def CmdEnv.check (v : CmdEnv) (body : Nat) (r : FRes) : Except EFault Bits :=
  if r.2.extractLsb' 1 5 &&& v.te = 0 then .ok r else .error ⟨0x0D, body, v.rtn, none⟩

/-- The bits that stand for the element at slot `i` of a `q4x` group in a `q4x` image: its code, with its payload where it
is an outlier. [DEDUCED: log 36] -/
def q4Image (g i : Nat) : Nat :=
  if ((q4Elems g).getD i (.fin false 0 0, false)).1 = .fin false 0 0 then 0
  else if nbits g (4 * i + 3) (4 * i) = 8 then g / 2 ^ (4 * i) % 2 ^ 12
  else nbits g (4 * i + 3) (4 * i)

/-- An element that was read (raw bits; for a scaled row the header above bit 32), at place `e` of its line, in the operand
format `op`; 15 asks for the element's own bits (R62, R245). -/
def elemIn (f : BitVec 7) (scale : W32) (e : Nat) (w : Word) (op : Nat) (v : REnv) : FRes :=
  let c := fCode f
  let raw := w.toNat % 2 ^ (8 * (if c = 12 then 4 else elemHalves c / 2))
  if op = 15 || c = 15 then (if c = 12 then nbits raw (4 * (e % 8) + 3) (4 * (e % 8)) else raw, 0)
  else
    let q := (q4Elems raw).getD (e % 8) (.fin false 0 0, false)
    let x := if c = 12 then q.1 else decodeV c raw
    let nv := fIf (c = 12 && q.2) fNV
    if scaled f then
      let s := if fMode f = 1 then scale.toNat else nbits w.toNat 63 32
      let p := (fMul 5 rne x (decodeF 5 s)).1
      if op = 5 then (p, nv) else let r := convertV false op v (decodeF 5 p); (r.1, r.2 ||| nv)
    else if op = c then (if c = 12 then q4Image raw (e % 8) else raw, nv)
    else let r := convertV (isIntFmt c) op v x; (r.1, r.2 ||| nv)

/-- Whether reading an element of a bank in an operand format is a rounding (R69, R245). -/
def inRounds (f : BitVec 7) (op : Nat) : Bool :=
  if op = 15 || isRaw f then false else if scaled f then canRound 5 op else canRound (fCode f) op
/-- Whether writing a value of a format into a bank is a rounding (R64, R69, R245). -/
def outRounds (f : BitVec 7) (op : Nat) : Bool :=
  if op = 15 || isRaw f then false else if scaled f then true else canRound op (fCode f)

/-- The exact quotient of a value by a finite scale other than zero, to a precision beyond which no rounding sees, in a bank's
format (R64); of a source of an integer format too, it goes into an integer bank as a floating-point value does (Table 3.6).
[DESIGN CHOICE: log 108] -/
def quotIn (code : Nat) (v : REnv) (x s : FVal) : FRes :=
  match x, s with
  | .fin s1 m1 e1, .fin s2 m2 e2 =>
    let (q, e) := quot m1 m2
    convertV false code v (.fin (s1 != s2) q (e + e1 - e2))
  | .inf a, y => convertV false code v (.inf (a != y.sign))
  | x, _ => convertV false code v x

/-- A value of a format as an element of a bank whose scale, where it has one, is `s` (R64, R245). -/
def elemOut (f : BitVec 7) (s : W32) (op : Nat) (bits : Nat) (v : REnv) : FRes :=
  let c := fCode f
  let v := { v with bank := nbit f.toNat 6 }
  if op = 15 || c = 15 then (bits, 0)
  else if scaled f then
    match decodeF 5 s.toNat with
    | .fin sg m e =>
      if m = 0 then (if fmtKind c = .float then defaultNaN c else 0, fNV)
      else quotIn c v (decodeV op bits) (.fin sg m e)
    | _ => (if fmtKind c = .float then defaultNaN c else 0, fNV)
  else if op = c then (if c = 12 then bits % 16 else bits, 0)
  else convertV (isIntFmt op) c v (decodeV op bits)

/-! ## Routines (R237–R241) -/

/-- `len` of a header, plus 1 (Table 9.3). -/
def rtnLen (h : W32) : Nat := nbits h.toNat 31 27 + 1
/-- The routine that a header and a body describe (Table 9.3). -/
def mkRoutine (h : W32) (body : List W32) : Routine :=
  ⟨h.extractLsb' 25 2, h.extractLsb' 21 4, h.extractLsb' 17 4, h.getLsbD 16, h.getLsbD 15, h.getLsbD 14, h.getLsbD 13, body⟩

/-- The lowest-numbered reason among 1–4 that a header breaks; 0 for none (R241). -/
def headerReason (h : W32) : Nat :=
  let r := mkRoutine h []
  if r.assoc = 3 || nbits h.toNat 12 0 != 0 then 1
  else if 13 ≤ r.inF.toNat || 13 ≤ r.outF.toNat then 2
  else if !(r.ma || r.pp || r.ce || r.ve) || (r.ma && 8 < rtnLen h) || (r.pp && 16 < rtnLen h) then 3
  else if r.assoc != 0 && r.inF != r.outF then 4
  else 0

/-- A body word lies in the lane subset (Table 9.4): its major and its function code. -/
def laneCode (w : W32) : Bool :=
  let m := majorOf w
  let f := funcOf w % 128
  if w.getLsbD 31 then false
  else if m = 0x00 then !(0x0D ≤ f && f ≤ 0x10) && laneAssigned w
  else if 0x01 ≤ m ∧ m ≤ 0x0A then laneAssigned w
  else if m = 0x0D ∨ m = 0x0F ∨ m = 0x15 ∨ m = 0x17 then laneAssigned w
  else if m = 0x14 then f != 3 && f != 4 && laneAssigned w
  else false
where
  /-- The function code is assigned: the word decodes once its other fields are cleared of reserved bits. -/
  laneAssigned (w : W32) : Bool := match decode32 0 w with | .error (.illegal ..) => false | _ => true

/-- A field names a lane register (R238). -/
def laneReg (v : BitVec 5) : Bool := decide (v.toNat ≤ 7) || v.toNat = 31
/-- The fields of a body word name lane registers and lane predicates (R238). -/
def laneFields (w : W32) : Bool :=
  let (d, a, b) := regFields w
  let m := majorOf w
  (!d || laneReg (w.extractLsb' 19 5)) && (!a || laneReg (w.extractLsb' 14 5)) && (!b || laneReg (w.extractLsb' 9 5))
    && (m != 0x0D || decide ((w.extractLsb' 19 5).toNat ≤ 7))
    && (m != 0x0F || decide ((w.extractLsb' 1 5).toNat ≤ 7))
    && (m != 0x15 || laneReg (w.extractLsb' 4 5))

/-- The lowest-numbered reason among 5–7 that a body word breaks; 0 for none (R241). -/
def bodyReason (w : W32) : Nat :=
  if !laneCode w then 5
  else if !laneFields w then 6
  else if w.getLsbD 0 then 7
  else match decode32 0 w with | .ok _ => 0 | .error _ => 7

/-- What a routine image breaks (R241): the `tinfo` of its rejection. -/
def rtnBad (h : W32) (body : List W32) : Option Word :=
  let info := fun (reason idx : Nat) (w : W32) => BitVec.ofNat 64 (reason * 2 ^ 40 + idx * 2 ^ 32 + w.toNat)
  if headerReason h ≠ 0 then some (info (headerReason h) 0xFF h)
  else match body.findIdx? fun w => bodyReason w ≠ 0 with
    | some i => let w := body.getD i 0; some (info (bodyReason w) i w)
    | none => none

/-- A lane: a context that only a body's words touch. The arithmetic modifier of the command applies to its floating-point
instructions (R239). -/
def laneState (v : CmdEnv) (l r : Word) (i : Nat) (c : Word) (st : Word) (g : BitVec 2) : State :=
  let x := (((Vector.replicate 24 (0 : Word)).set 0 l).set 1 r).set 2 (BitVec.ofNat 64 i) |>.set 3 c
  { State.reset with
    ctxs := [(0, { Context.init with x := x, mode := BitVec.ofNat 64 (v.env.rnd + 8 * v.te.toNat), rngst := st, gpos := g })] }

/-- The modifier that a body word runs under (R239). -/
def laneGrp (v : CmdEnv) (w : W32) : Grp :=
  if 0x14 ≤ majorOf w then { Grp.none with arith := v.env.pfx, sat := BitVec.ofNat 2 v.env.sat } else Grp.none

/-- Runs body words in order on a lane, from word `j` (R239). -/
def runLane (v : CmdEnv) : List W32 → Nat → State → Except EFault State
  | [], _, s => .ok s
  | w :: ws, j, s =>
    match decode32 0 w with
    | .error _ => .error ⟨0x0D, j, true, none⟩
    | .ok i =>
      match (frameBody i).run { s with grp := laneGrp v w } with
      | .ok _ t => runLane v ws (j + 1) t
      | .error _ _ => .error ⟨0x0D, j, true, none⟩

/-- Body words that draw a random value (R239). -/
def wordDraws (w : W32) : Nat :=
  let m := majorOf w
  let f := funcOf w
  if m = 0x15 then 1
  else if m = 0x14 then (if f % 128 ≤ 2 then 1 else 0)
  else if m = 0x17 then (if canRound (f / 16) (f % 16) then 1 else 0)
  else 0

/-! ## Operators (R83, R242, R243) -/

/-- Format in which an operator takes its operands. -/
def Oper.inF : Oper → Nat | .routine _ r => r.inF.toNat | .builtin _ w => w.toNat
/-- Format of an operator's results. -/
def Oper.outF : Oper → Nat | .routine _ r => r.outF.toNat | .builtin _ w => w.toNat
/-- An operator's handle. -/
def Oper.handle : Oper → Nat | .routine h _ => h.toNat | .builtin h _ => h.toNat
/-- Class of an operator (Tables 9.3, 9.6). -/
def Oper.cls : Oper → Nat
  | .routine _ r => r.assoc.toNat
  | .builtin h _ => if h.toNat ≤ 248 then 2 else if h.toNat = 249 then 0 else 1
/-- Random values of one application (R239, Table 9.11). -/
def Oper.draws : Oper → Nat
  | .routine _ r => r.body.foldl (fun n w => n + wordDraws w) 0
  | .builtin h w =>
    if (h.toNat = 240 || h.toNat = 241 || h.toNat = 249) && fmtKind w.toNat = .float then 1 else 0

/-- Where `x` ranks below `y` in a format (R83, Table 3.9). -/
def ranksBelow (code x y : Nat) : Bool :=
  match fmtKind code with
  | .int sg => if sg then toInt (fmtBits code) x < toInt (fmtBits code) y else x < y
  | _ => (decodeV code x).below (decodeV code y)

/-- The choice of min (`lower`) and max: a tie gives the left operand (R83). -/
def pickRank (code : Nat) (lower : Bool) (l r : Nat) : Nat :=
  if (if lower then ranksBelow code r l else ranksBelow code l r) then r else l

/-- A built-in integer operator under the command's saturation (R77, R242). -/
def intOper (sk : Nat) (f : Int → Int → Int) (l r : Nat) : FRes :=
  let z := fun (v : Nat) => opSat false sk (BitVec.ofNat 64 v)
  let (v, fl) := saturate false sk (f (z l) (z r))
  (v.toNat, fl)

/-- A built-in operator on bits in its working format (Table 9.6). -/
def builtinOp (h w : Nat) (v : CmdEnv) (l r : Nat) (c : Word) : FRes :=
  let fl := fmtKind w = .float
  let dec := decodeF w
  let sk := if v.env.pfx then v.env.sat else 0
  match h with
  | 240 => if fl then fAdd w v.env (dec l) (dec r) else intOper sk (· + ·) l r
  | 241 => if fl then fMul w v.env (dec l) (dec r) else intOper sk (· * ·) l r
  | 242 => (pickRank w true l r, 0)
  | 243 => (pickRank w false l r, 0)
  | 246 => (l &&& r, 0)
  | 247 => (l ||| r, 0)
  | 248 => (l ^^^ r, 0)
  | 249 =>
    if fl then fFma w v.env (dec r) (dec (c.toNat % 2 ^ fmtBits w)) (dec l)
    else ((l + r * c.toNat) % 2 ^ 64, 0)
  | 250 => (l, 0)
  | _ => (r, 0)

/-- One application of an operator to bits, with the formats of the two operands' images (R239). -/
def Oper.apply (o : Oper) (v : CmdEnv) (lf rf : Nat) (l r i : Nat) (c : Word) (st : Word) (g : BitVec 2) :
    Except EFault Bits :=
  match o with
  | .builtin h w =>
    let rho := if v.env.rnd = 6 then (draw st g).1 else 0
    { v with rtn := true }.check 0 (builtinOp h.toNat w.toNat { v with env := { v.env with rho := rho } } l r c)
  | .routine _ q =>
    match runLane v q.body 0 (laneState v (image lf l) (image rf r) i c st g) with
    | .error e => .error e
    | .ok t => .ok (((t.ctx 0).reg 0).toNat % 2 ^ fmtBits q.outF.toNat, (t.ctx 0).flags)

/-! ## Evaluation in order (R246) -/

/-- The random values still to come, and the operations evaluated so far. -/
structure Ev where
  st : Word
  g  : BitVec 2
  n  : Nat
  deriving DecidableEq, Repr

/-- A value, or the first fault in evaluation order on which it depends. -/
abbrev EVal := Except (Nat × EFault) Bits

/-- The evaluation of a command's operations. -/
abbrev EvM := StateM Ev

/-- One operation that uses `k` random values whatever becomes of it (R69, R245). -/
def evOp (v : CmdEnv) (k : Nat) (f : REnv → Word → BitVec 2 → Except EFault Bits) : EvM EVal := do
  let e ← get
  let rho := if v.env.rnd = 6 && k != 0 then (draw e.st e.g).1 else 0
  let (st, g) := if v.env.rnd = 6 then drawMany k e.st e.g else (e.st, e.g)
  set ({ st := st, g := g, n := e.n + 1 } : Ev)
  return match f { v.env with rho := rho } e.st e.g with
    | .ok r => .ok r
    | .error x => .error (e.n, x)

/-- The earlier of two faults in evaluation order. -/
def firstFault (x y : Nat × EFault) : Nat × EFault := if y.1 < x.1 then y else x

/-- An element that was read, converted into the operand format (R245); a poisoned one faults. -/
def evIn (v : CmdEnv) (t : Tile) (e : Nat) (w : Option Word) (op : Nat) : EvM EVal :=
  evOp v (if inRounds t.fmt op then 1 else 0) fun r _ _ =>
    match w with
    | none => .error ⟨0x13, 0xFF, false, none⟩
    | some w => v.check 0xFF (elemIn t.fmt t.scale e w op r)

/-- An operation on two values; its flags are with those of its operands, and the first of their faults passes on. -/
def evTwo (v : CmdEnv) (k : Nat) (l r : EVal) (f : REnv → Word → BitVec 2 → Nat → Nat → Except EFault Bits) : EvM EVal := do
  let z ← evOp v k fun e st g =>
    match l, r with
    | .ok a, .ok b =>
      match f e st g a.1 b.1 with
      | .ok x => .ok (x.1, x.2 ||| a.2 ||| b.2)
      | .error e => .error e
    | _, _ => .ok (0, 0)
  return match l, r with
    | .error x, .error y => .error (firstFault x y)
    | .error x, _ => .error x
    | _, .error y => .error y
    | _, _ => z

/-- One application to values (R239). -/
def evApp (v : CmdEnv) (o : Oper) (lf rf : Nat) (l r : EVal) (i : Nat) (c : Word) : EvM EVal :=
  evTwo v o.draws l r fun _ st g a b => o.apply v lf rf a b i c st g

/-- A value with its flags as an element of a bank whose scale, where it has one, is `s` (R64, R245). -/
def storeElem (v : CmdEnv) (f : BitVec 7) (s : W32) (op : Nat) (a : Bits) (r : REnv) : Except EFault Bits :=
  match v.check 0xFE (elemOut f s op a.1 r) with
  | .ok y => .ok (y.1, y.2 ||| a.2)
  | .error e => .error e

/-- A result converted into a bank (R64, R245). -/
def evOut (v : CmdEnv) (t : Tile) (op : Nat) (x : EVal) : EvM EVal := do
  let z ← evOp v (if outRounds t.fmt op then 1 else 0) fun r _ _ =>
    match x with
    | .error _ => .ok (0, 0)
    | .ok a => storeElem v t.fmt t.scale op a r
  return match x with
    | .error y => .error y
    | .ok _ => z

/-- The random value reserved for a result that is converted into a bank as it is written (R64, R69). -/
def evLate (v : CmdEnv) (t : Tile) (op : Nat) : EvM Nat := do
  let z ← evOp v (if outRounds t.fmt op then 1 else 0) fun r _ _ => .ok (r.rho, 0)
  return match z with
    | .ok a => a.1
    | .error _ => 0

/-- Elements of a bank are scaled by the header of their row (R63). -/
def rowScaled (f : BitVec 7) : Bool := scaled f && fMode f = 2
/-- A result in an operand format is converted as its row is written: its bank is scaled by row, and its bits are not stored as they are (R64,
R250–R252). -/
def converts (f : BitVec 7) (op : Nat) : Bool := rowScaled f && op != 15

end Sys2Proof.Machine
end

