-- ==== Sys2Proof/Machine/Engine.lean ====
section
/-! DEFINITION. Engines and their queues: how a command issues (R231, R232), begins (R233, R260, R285), reads its sources and
lands its outputs (R235, R236), ends (R234), and how its faults are delivered (R255–R257). -/

namespace Sys2Proof.Machine

open Sys2Proof.Config

/-! ## Issue (R232) -/

/-- An engine command's own checks begin: a migrant issues none (R185), and a plain access of the context comes first (Table
2.10). The fields d, a and b name no register of 24–30 (R232). -/
def engFields (t : T64) : M Unit := do
  noMigrant
  settled
  let bad := fun (r : Reg) => 24 ≤ r.toNat && r.toNat ≤ 30
  raiseIf (bad t.d) 0x02 t.d.toNat
  raiseIf (bad t.a) 0x02 t.a.toNat
  raiseIf (bad t.b) 0x02 t.b.toNat

/-- The constant register of a command: 0–23, or 31, which reads zero (R244). -/
def engConst (t : T64) : M Word := do
  let c : Reg := t.f.extractLsb' 0 5
  raiseIf (24 ≤ c.toNat && c.toNat ≤ 30) 0x02 c.toNat
  readReg c

/-- `tinfo` of a fault of a tile descriptor (Table 4.10): operand 0 d, 1 a, 2 b. -/
def tileInfo (operand : Nat) (r : Reg) : Nat := 2 * 2 ^ 62 + operand * 2 ^ 5 + r.toNat
/-- Raises reserved-field for a tile operand where a condition holds. -/
def badTile (p : Bool) (operand : Nat) (r : Reg) : M Unit := raiseIf p 0x02 (tileInfo operand r)

/-- The tile that a descriptor names, checked (R104). -/
def useTile (v : Word) (operand : Nat) (r : Reg) (dest : Bool) : M Tile := do
  let s ← get
  let t := tileAt s (tileCid (mbaCid s.cur) v) v
  badTile (24 ≤ tileCore v && tileCore v ≤ 30 || tileBad t v dest) operand r
  return t

/-- The engine's mask bit in a routine's header (R242). -/
def maskBit (e : Eng) (r : Routine) : Bool :=
  match e with | .vector => r.ve | .copy => r.ce | .pyramid => r.pp | .matrix => r.ma | _ => false

/-- A built-in operator runs on an engine in a working format (Table 9.6, R267, R273). -/
def builtinOk (e : Eng) (h w : Nat) : Bool :=
  let bits := h = 246 || h = 247 || h = 248
  let idx := h = 244 || h = 245
  240 ≤ h && h ≤ 251 && (!bits || w ≤ 1) && (!idx || e = .vector)
    && match e with
       | .vector | .copy => true
       | .matrix | .pyramid => !bits && w = 5
       | _ => false

/-- The operator that a handle binds (R242): none where it is invalid on the engine. -/
def findOper (s : State) (part : Nat) (e : Eng) (h : BitVec 8) (w : Nat) : Option Oper :=
  if 240 ≤ h.toNat then (if builtinOk e h.toNat w then some (.builtin h (BitVec.ofNat 4 w)) else none)
  else match tget none (s.part part).routines h.toNat with
    | some r => if maskBit e r then some (.routine h r) else none
    | none => none

/-- Binds a handle (R242). -/
def bindOper (e : Eng) (h : BitVec 8) (w : Nat) : M Oper := do
  let s ← get
  match findOper s s.me.part.toNat e h w with
  | some o => return o
  | none => raise 0x02 h.toNat

/-- A command that allows no handle names none (R242). [DEDUCED: log 90] -/
def noHandle (t : T64) : M Unit := raiseIf (t.h != 0) 0x02 t.h.toNat

/-- A command before it enters its queue. -/
def blankCmd (op : Op) (t : T64) : Cmd :=
  { op := op, oper := none, dt := none, at_ := none, bt := none, dts := [], av := 0, bv := 0, cv := 0, issuer := 0, gen := 0,
    seq := 0, cm := t.cm, fe := t.fe, sw := t.spec.getLsbD 20, rnd := 1, sat := 0, pfx := false, te := 0, nf := false,
    words := 0, grid := 0, cancelled := false, inst := 0, cls := 0, prog := Prog.init 0 0 }

/-- A tile of activations fits an issued shape (R265, R266). -/
def streamFits (x : Nat × Bool) (a : Tile) : Bool := x.1 != 0 && a.cols = if x.2 then 2 * x.1 else x.1

/-- A stream that enters its core's queue fits the shape that the active plane will have when it runs (R265). -/
def Cmd.fits (s : State) (cid : Nat) (c : Cmd) : Bool :=
  match c.op, c.at_ with
  | .mxstrm .., some a => streamFits (s.core cid).mx.issuedA a
  | _, _ => true

/-- A matrix command that uses the grid (R260). -/
def Cmd.onGrid (c : Cmd) : Bool := match c.op with | .mxstrm .. | .mxdrain .. => true | _ => false

/-- Changes the matrix state of a core. -/
def State.modMx (s : State) (cid : Nat) (f : Mx → Mx) : State := s.modCore cid fun k => { k with mx := f k.mx }

/-- What else a matrix command does as it enters its queue (R259, R260, R265): it counts towards the holder's term; one that uses the grid takes
its place in the quad's order; a weight load and an exchange leave the issued shapes of the planes. -/
def enterMatrix (s : State) (cid : Nat) (c : Cmd) : State :=
  let q := quadBase cid
  let s := countCommand (if c.onGrid then s.modLease q fun l => { l with grid := l.grid + 1 } else s) q
  match c.op, c.at_ with
  | .mxldst sp, some a => s.modMx cid fun x => { x with issuedS := (a.rows, sp) }
  | .mxswap, _ => s.modMx cid fun x => { x with issuedA := x.issuedS, issuedS := x.issuedA }
  | _, _ => s

/-- A command enters its engine's queue under the next number (R232, R233). -/
def pushCmd (s : State) (cid : Nat) (e : Eng) (c : Cmd) : State :=
  let c := { c with seq := (s.eng cid e).next.toNat, grid := if e = .matrix then (s.lease (quadBase cid)).grid else 0 }
  let s := s.modEng cid e fun q => { q with queue := q.queue ++ [c], next := q.next + 1 }
  if e = .matrix then enterMatrix s cid c else s

/-- A tile with its bank's format and scale as they stand now (R45). -/
def Tile.rebind (s : State) (t : Tile) : Tile := { t with fmt := (bankFmt s t.cid t.bank).1, scale := (bankFmt s t.cid t.bank).2 }

/-- An operator as it stands when its command enters a queue: the routine table's entry, and a built-in's working format (R232, R242, R243). -/
def Oper.rebind (s : State) (part : Nat) (e : Eng) (src : Option Tile) : Oper → Oper
  | .routine h r => .routine h ((tget none (s.part part).routines h.toNat).getD r)
  | .builtin h w => .builtin h (match e, src with
    | .vector, some t | .copy, some t => BitVec.ofNat 4 (workFmt t.fmt)
    | _, _ => w)

/-- A command that has waited for room binds the formats and scales of its banks and its routine as it enters (R232). -/
def Cmd.rebind (s : State) (e : Eng) (c : Cmd) : Cmd :=
  let f := Tile.rebind s
  let src := (c.at_.or c.dt).map f
  { c with dt := c.dt.map f, at_ := c.at_.map f, bt := c.bt.map f, dts := c.dts.map f,
           oper := c.oper.map (Oper.rebind s (s.ctx c.issuer).part.toNat e src) }

/-- A waiting command may enter a queue that has room: a matrix command does so under its context's term (R259, R260). -/
def mayEnter (s : State) (cid : Nat) (e : Eng) (x : Entering) : Bool :=
  decide ((s.eng cid e).queue.length < engDepth (engNum e))
    && (e != .matrix
      || ((s.lease (quadBase cid)).holder = some x.who && decide ((s.lease (quadBase cid)).used < termCommands)))

/-- A command that has passed its checks takes its effective mode and the rest of R67, reserves its random values (R73) and its class (R414), and
enters its engine's queue; where the queue is full, or others that may enter wait for it, its context waits (R231, R232). [DEDUCED: log 38] -/
def enqueue (e : Eng) (c : Cmd) (draws : Nat) : M Unit := do
  let s ← get
  let m := s.me
  let cid := mbaCid s.cur
  let r := effRnd s.grp m.mode
  let (st, g) := drawMany (if r = 6 then draws else 0) m.rngst m.gpos
  let c := { c with
    issuer := s.cur, gen := m.gen, rnd := BitVec.ofNat 3 r, sat := s.grp.sat, pfx := s.grp.arith, te := m.te,
    nf := s.grp.arith && s.grp.nf, words := s.grp.instr, cls := m.qcls, prog := Prog.init m.rngst m.gpos }
  let t := s.modMe fun m => { m with rngst := st, gpos := g }
  if decide (engDepth (engNum e) ≤ (s.eng cid e).queue.length) || (s.eng cid e).enter.any (mayEnter s cid e) then do
    set (noteWait (t.modEng cid e fun q => { q with enter := q.enter ++ [⟨s.cur, some (s.nextPc 8), c, s.grp.pfxs⟩] }) s.cur .engineQueue)
    throw .hold
  else set (pushCmd t cid e c)

/-- A waiting command enters its queue, and its context goes on (R52, R231). A stream that waited while its context's term passed, and that no
longer fits the issued shape, raises reserved-field instead (R265). [DEDUCED: log 120] -/
def enterCmd (s : State) (cid : Nat) (e : Eng) (x : Entering) : State :=
  let c := x.cmd.rebind s e
  if c.fits s cid then
    let t := pushCmd s cid e c
    match x.npc with
    | some pc => (resumed t x.who).modCtx x.who fun c => { c with via := c.pc, pc := pc }
    | none => t
  else
    takeTrapOf s x.who ⟨⟨0x02, BitVec.ofNat 64 (tileInfo 1 (c.words.extractLsb' 14 5))⟩, (s.ctx x.who).pc, c.words, x.pfxs⟩

/-- The commands that wait for room in a queue and may enter it do so, in the order in which they came (R51, R231); one that lost its term in the
meantime leaves the way to those of the next holder (R259). -/
def admitCmds (cid : Nat) (e : Eng) : (fuel : Nat) → State → State
  | 0, s => s
  | n + 1, s =>
    match (s.eng cid e).enter.find? (mayEnter s cid e) with
    | none => s
    | some x => admitCmds cid e n (enterCmd (s.modEng cid e fun q => { q with enter := q.enter.erase x }) cid e x)

/-! ## The command that an engine runs (R233, R285) -/

/-- A command's deadline (R285). -/
def Cmd.deadline (c : Cmd) : Option Nat := match c.op with | .armed _ _ _ _ _ _ _ _ _ d => d | _ => none

/-- The place in the queue of the command with the earliest deadline: a command without one comes after every command that
has one, and equal ones run in queue order (R285). -/
def earliest (l : List Cmd) : Option Nat :=
  match (l.filterMap Cmd.deadline).min? with
  | some d => l.findIdx? fun c => c.deadline = some d
  | none => if l.isEmpty then none else some 0

/-- The place of the command that an engine runs, or runs next. -/
def currentIdx (e : Eng) (l : List Cmd) : Option Nat :=
  match l.findIdx? fun c => c.prog.began with
  | some i => some i
  | none => if e = .link then earliest l else if l.isEmpty then none else some 0

/-- The command that an engine of a core runs, or runs next. -/
def currentCmd (s : State) (cid : Nat) (e : Eng) : Option (Nat × Cmd) :=
  match currentIdx e (s.eng cid e).queue with
  | some i => ((s.eng cid e).queue[i]?).map fun c => (i, c)
  | none => none

/-- A core's engine with the command at a place replaced. -/
def setCmd (s : State) (cid : Nat) (e : Eng) (i : Nat) (c : Cmd) : State :=
  s.modEng cid e fun q => { q with queue := setAt q.queue i c }

/-- The grid of a core's quad is free for a command: every command that entered the quad's order before it has completed
(R260). -/
def gridTurn (s : State) (cid : Nat) (c : Cmd) : Bool :=
  !c.onGrid || !((upFrom 0 4).any fun k =>
    (s.eng (quadCore cid k) .matrix).queue.any fun d => d.onGrid && !d.cancelled && decide (d.grid < c.grid))

/-- The environment of a command's operations (R67). Where no random values are reserved, on the pyramid port (R278) and in the
decoding of weights and activations, stochastic rounding reads as RNE. [DEDUCED: log 37] -/
def Cmd.env (c : Cmd) (e : Eng) : CmdEnv :=
  let plain := e = .pyramid || match c.op with | .mxldst _ | .mxstrm .. => true | _ => false
  ⟨⟨if plain && c.rnd = 6 then 1 else c.rnd.toNat, c.pfx, c.sat.toNat, false, 0⟩, c.te, c.oper.isSome⟩

/-! ## Faults (R255, R256) -/

/-- Cause and `tinfo` of a command's fault at an output (Table 9.12). -/
def faultInfo (e : Eng) (c : Cmd) (outx : Nat) (f : EFault) : BitVec 8 × Word :=
  if f.rtn then
    let h := match c.oper with | some o => o.handle | none => 0
    (0x0E, BitVec.ofNat 64 (outx % 2 ^ 20 * 2 ^ 32 + h * 2 ^ 24 + f.body % 256 * 2 ^ 16 + outx % 2 ^ 16))
  else
    (0x0F, BitVec.ofNat 64 (f.sub.toNat * 2 ^ 56 + engNum e * 2 ^ 53
      + match f.dva with | some a => 2 ^ 52 + a % 2 ^ 48 | none => outx % 2 ^ 20))

/-! ## Sources (R235) -/

/-- A read of a source: where, how many bytes, the header of its row where it is scaled by one, and whether `sw` makes it wait. -/
structure Src where
  loc : Nat
  n   : Nat
  hdr : Option Nat
  sw  : Bool
  deriving DecidableEq, Repr

/-- The read of the element at place `e` of line `l` of a tile. -/
def Tile.src (t : Tile) (l e : Nat) : Src :=
  ⟨t.elemLoc l e, t.elemB, if rowScaled t.fmt then some (t.lineLoc l) else none, true⟩

/-- The granules of a read. -/
def Src.grans (r : Src) : List Nat := (match r.hdr with | some h => [h / 16] | none => []) ++ [r.loc / 16]

/-- An engine's wait at a granule, where it has one. -/
def engWait (s : State) (cid : Nat) (e : Eng) (g : Nat) (empty : Bool) : Option FeWaiter :=
  s.feq.find? fun w => w.g = g && w.kind = (if empty then .engEmpty cid e else .engFull cid e)

/-- The wait of an engine joins those of a granule (R173, R235). -/
def joinEng (s : State) (cid : Nat) (e : Eng) (g : Nat) (empty : Bool) : State :=
  serve { s with feq := s.feq ++ [FeWaiter.mk g (if empty then .engEmpty cid e else .engFull cid e) [(16 * g, 16, .plain)] 0 0 0 0] } g

/-- An engine's wait at a granule ends. -/
def leaveEng (s : State) (cid : Nat) (e : Eng) (g : Nat) (empty : Bool) : State :=
  match engWait s cid e g empty with
  | some w => { s with feq := s.feq.erase w }
  | none => s

/-- A source granule is full, or the engine waits for that (R235). -/
def wantFull (s : State) (cid : Nat) (e : Eng) (g : Nat) : State × Bool :=
  match engWait s cid e g false with
  | some w => if w.who = 1 then (leaveEng s cid e g false, true) else (s, false)
  | none => if s.isEmpty g then (joinEng s cid e g false, false) else (s, true)

/-- The engine's claim on an empty destination granule: it holds it, or waits for it (R235). -/
def wantEmpty (s : State) (cid : Nat) (e : Eng) (g : Nat) : State × Bool :=
  match engWait s cid e g true with
  | some w => (s, w.who = 1)
  | none =>
    let t := joinEng s cid e g true
    (t, match engWait t cid e g true with | some w => w.who = 1 | none => false)

/-- The word that a read finds; none where it is poisoned. -/
def Src.value (s : State) (r : Src) : Option Word :=
  if s.poisoned r.loc r.n || (match r.hdr with | some h => s.poisoned h 4 | none => false) then none
  else some (BitVec.ofNat 64 (s.rd r.loc r.n + match r.hdr with | some h => s.rd h 4 * 2 ^ 32 | none => 0))

/-- One read of a command's sources: it waits for its granules under `sw`, and for its bank. -/
def readSrc (s : State) (cid : Nat) (e : Eng) (i : Nat) (c : Cmd) (r : Src) (ecc : Ecc) : State :=
  match (if c.sw && r.sw then r.grans.find? fun g => !c.prog.waited.elem g else none) with
  | some g =>
    match wantFull s cid e g with
    | (t, false) => t
    | (t, true) => setCmd t cid e i { c with prog := { c.prog with waited := c.prog.waited ++ [g] } }
  | none =>
    match asleep s (r.loc :: r.hdr.toList) with
    | some (k, b) => startExit s k b
    | none =>
      let s := applyEcc (touch s r.loc) r.loc ecc
      setCmd s cid e i { c with prog := { c.prog with reads := c.prog.reads ++ [r.value s] } }

/-! ## Outputs (R235, R245, R255) -/

/-- The pieces of an element at place `e` of line `l`. For `q4x`, the slots of the last group beyond the line's last element
are written 0x0 with it (R60). -/
def elemPieces (t : Tile) (l e bits : Nat) : List Piece :=
  if fCode t.fmt = 12 then
    let slot := fun (k v : Nat) =>
      Piece.mk (t.lineLoc l + hdrBytes t.fmt + k / 2) (some (k % 2 = 1)) .plain [BitVec.ofNat 8 (v % 16)]
    let n := t.lineLen
    slot e bits :: (if e / 8 = (n - 1) / 8 then (upFrom n (cdiv n 8 * 8 - n)).map fun k => slot k 0 else [])
  else [Piece.mk (t.elemLoc l e) none .plain (leBytes t.elemB bits)]

/-- The aligned 8-byte word of an entry. -/
def OutEnt.word (o : OutEnt) : Nat := match o.pieces with | p :: _ => p.loc / 8 | [] => 0

/-- An output joins the entry of its word: the last one, or with `deep` any one. -/
def addEnt (deep : Bool) (o : OutEnt) : List OutEnt → List OutEnt
  | [] => [o]
  | p :: l =>
    if p.word = o.word && (deep || l.isEmpty) then
      ⟨p.outs ++ o.outs, p.pieces ++ o.pieces, p.flags ||| o.flags, p.vals ++ o.vals⟩ :: l
    else p :: addEnt deep o l

/-- An evaluated output: its index, its place in its tile, and its value; or, where it is converted as its row is written, the value to be
converted, with its format and the random value reserved for that (R64). -/
structure OutVal where
  outx : Nat
  l    : Nat
  e    : Nat
  v    : EVal
  late : Option (Nat × Nat)
  deriving Repr

/-- The entry of one output of a tile whose value has come to bits. -/
def OutVal.entry (t : Tile) (o : OutVal) (b : Bits) : OutEnt :=
  match o.late with
  | none => ⟨[o.outx], elemPieces t o.l o.e b.1, b.2, []⟩
  | some (op, rho) => ⟨[o.outx], elemPieces t o.l o.e 0, 0, [⟨t, o.outx, o.l, o.e, op, b.1, b.2, rho⟩]⟩

/-- The outputs before the first faulting one, grouped by word, and that fault (R255). -/
def gather (t : Tile) : List OutVal → List OutEnt → List OutEnt × Option (Nat × EFault)
  | [], acc => (acc, none)
  | o :: l, acc =>
    match o.v with
    | .ok b => gather t l (addEnt t.cmaj (o.entry t b) acc)
    | .error x => (acc, some (o.outx, x.2))

/-- An output converted with the header of its row as it stands (R64); a poisoned header faults (R255). -/
def LateOut.convert (s : State) (v : CmdEnv) (o : LateOut) : Except EFault Bits :=
  let a := o.tile.lineLoc o.l
  if s.poisoned a 4 then .error ⟨0x13, 0xFE, false, none⟩
  else storeElem v o.tile.fmt (BitVec.ofNat 32 (s.rd a 4)) o.op (o.bits, o.flags) { v.env with rho := o.rho }

/-- The first output of a list whose conversion faults. -/
def lateFault (s : State) (v : CmdEnv) (l : List LateOut) : Option (Nat × EFault) :=
  leastBy (·.1) (l.filterMap fun o => match o.convert s v with | .error x => some (o.outx, x) | .ok _ => none)

/-- The outputs of an entry before an index; none where there is none. -/
def OutEnt.before (x : Nat) (o : OutEnt) : Option OutEnt :=
  let l := o.vals.filter fun q => decide (q.outx < x)
  if l.isEmpty then none
  else some { o with outs := o.outs.filter (decide <| · < x), pieces := l.flatMap fun q => elemPieces q.tile q.l q.e 0, vals := l }

/-- An entry with its late outputs converted. -/
def OutEnt.converted (s : State) (v : CmdEnv) (o : OutEnt) : OutEnt :=
  o.vals.foldl (fun r q => match q.convert s v with
    | .ok b => { r with pieces := r.pieces ++ elemPieces q.tile q.l q.e b.1, flags := r.flags ||| b.2 }
    | .error _ => r) (if o.vals.isEmpty then o else { o with pieces := [] })

/-- What an engine writes as it comes to an entry (R64): the entry, unless its outputs all lie behind a fault, with its outputs converted under the
headers of their rows; the entries behind it; and the fault that ends the command. A word of a column-major tile holds elements of several rows:
there, every output that is left is judged. [DEDUCED: log 119] -/
def settle (s : State) (v : CmdEnv) (o : OutEnt) (rest : List OutEnt) : Option OutEnt × List OutEnt × Option (Nat × EFault) :=
  let all := match o.vals with | q :: _ => q.tile.cmaj | [] => false
  match lateFault s v (if all then (o :: rest).flatMap (·.vals) else o.vals) with
  | none => (some (o.converted s v), rest, none)
  | some (x, f) => ((o.before x).map (·.converted s v), rest.filterMap (·.before x), some (x, f))

/-- Writes a piece, from the engine of a core. -/
def Piece.write (s : State) (cid : Nat) (p : Piece) : State :=
  match p.half with
  | some hi =>
    let old := (memGet s.mem p.loc).toNat
    let v := (p.data.headD 0).toNat % 16
    { s with mem := memPut s.mem p.loc (BitVec.ofNat 8 (if hi then v * 16 + old % 16 else old / 16 * 16 + v)) }
  | none => writeAt (Writer.ofCore cid) [(p.loc, p.data.length, p.page)] p.data s

/-- Half bytes that pieces write. -/
def halves (l : List Piece) : Nat := l.foldl (fun n p => n + if p.half.isSome then 1 else 2 * p.data.length) 0

/-- The effect of an entry on memory: a word wholly written loses its poison (R165). -/
def OutEnt.write (s : State) (cid : Nat) (o : OutEnt) : State :=
  let s := o.pieces.foldl (fun s p => p.write (touch s p.loc) cid) s
  if halves o.pieces = 16 then s.clearPoison (8 * o.word) 8 else s

/-- A granule that pieces touch, in a scratchpad. -/
def OutEnt.gran (o : OutEnt) : Option Nat :=
  match o.pieces with | p :: _ => if isSpad p.loc then some (p.loc / 16) else none | [] => none

/-- What becomes of the granules that a command has begun to write: those in which nothing more is to be written are marked full under `fe` 00 and
10 (R235). [DEDUCED: log 34] -/
def landed (s : State) (cid : Nat) (e : Eng) (fe : BitVec 2) (l : List Nat) (rest : List OutEnt) : State × List Nat :=
  let more := fun g => rest.any fun p => p.gran = some g
  ((l.filter (!more ·)).foldl (fun s g => if fe = 1 then s else feMark (leaveEng s cid e g true) g true) s, l.filter more)

/-- A claim on a granule in which nothing has been written is given up: the next waiter is served (R173). -/
def unclaim (s : State) (cid : Nat) (e : Eng) (g : Nat) : State := serve (leaveEng s cid e g true) g

/-- Clears the accumulators behind outputs of a draining command (R267). -/
def clearAcc (s : State) (cid : Nat) (c : Cmd) (outs : List Nat) : State :=
  match c.op, c.dt with
  | .mxdrain arow acol _ true, some d =>
    s.modCore cid fun k => { k with mx := { k.mx with
      acc := outs.foldl (fun t q => tset t ((arow + q / d.cols) * 256 + acol + q % d.cols) 0) k.mx.acc } }
  | _, _ => s

/-- An engine's access to global memory waits for one token for each 64 bytes that it comes to (R412). [DEDUCED: log 103] -/
def payLine (s : State) (cid : Nat) (e : Eng) (c : Cmd) (loc : Nat) : Except State (State × Cmd) :=
  if !isHbm loc || c.prog.charged = some (loc / 64) then .ok (s, c)
  else match budget s (.eng cid e) cid (s.ctx c.issuer).part.toNat c.cls.toNat loc 64 with
    | .ok t => .ok (t, { c with prog := { c.prog with charged := some (loc / 64) } })
    | .error t => .error t

/-- Units of each child of a prolong into a tile (R280). -/
def prolRows (d : Tile) : Nat := if d.cmaj then 1 else d.rows

/-- A fault that shows as an output is written ends its command; of a prolong it ends its child (R280), and the fault of the first child that had
one stays. -/
def Cmd.cut (c : Cmd) (e : Eng) (o : OutEnt) (x : Nat × EFault) : Cmd :=
  let f := faultInfo e c x.1 x.2
  match c.op, c.dts, o.vals with
  | .prol .., d :: _, q :: _ =>
    let k := (c.dts.findIdx? (· = q.tile)).getD 0
    let p := { c.prog with unit := (k + 1) * prolRows d }
    { c with prog := if p.fault.isSome && p.keep.any fun w => decide (w.toNat < k) then p
      else { p with fault := some f, keep := [BitVec.ofNat 64 k] } }
  | _, _, _ => { c with prog := { c.prog with fault := some f } }

/-- The first entry of a command's outputs lands, or a fault that shows as its row is written ends the command before it (R64, R235, R255). -/
def landEnt (s : State) (cid : Nat) (e : Eng) (i : Nat) (c : Cmd) (o : OutEnt) (rest : List OutEnt) : State :=
  let (own, rest, bad) := settle s (c.env e) o rest
  let c := match bad with | some x => c.cut e o x | none => c
  let had := c.prog.partly
  let begun : List Nat := match own, o.gran with | some _, some g => if had.elem g then had else had ++ [g] | _, _ => had
  let t := match own with | some w => clearAcc (w.write s cid) cid c w.outs | none => s
  let t := match o.gran with | some g => (if c.fe = (2 : BitVec 2) && !begun.elem g then unclaim t cid e g else t) | none => t
  let (t, partly) := landed t cid e c.fe begun rest
  let flags := match own with | some w => w.flags | none => 0
  setCmd t cid e i { c with prog := { c.prog with buf := rest, partly := partly, flags := c.prog.flags ||| flags } }

/-- The first entry of a command's outputs is written, where its granule is claimed, its bank awake and its token there. -/
def writeEnt (s : State) (cid : Nat) (e : Eng) (i : Nat) (c : Cmd) (o : OutEnt) (rest : List OutEnt) : State :=
  match (match o.gran with | some g => if c.fe = 2 then wantEmpty s cid e g else (s, true) | none => (s, true)) with
  | (t, false) => t
  | (t, true) =>
    match asleep t (o.pieces.map (·.loc)) with
    | some (k, b) => startExit t k b
    | none =>
      match (match o.pieces with | p :: _ => payLine t cid e c p.loc | [] => .ok (t, c)) with
      | .error t => t
      | .ok (t, c) => landEnt t cid e i c o rest

/-! ## Completion and delivery (R234, R257) -/

/-- The end of a command: fault bit and cause. -/
def Cmd.ending (c : Cmd) : Bool × BitVec 8 :=
  if c.cancelled && !c.prog.began then (true, 0xFE)
  else match c.prog.fault with
    | some (k, _) => (true, k)
    | none => (false, 0)

/-- The completion word of a command (type 0x01, Table 8.2). -/
def Cmd.doneWord (c : Cmd) (e : Eng) : Word :=
  hwWord 1 (engNum e * 2 ^ 48 + c.ending.2.toNat * 2 ^ 40 + (if c.ending.1 then 2 ^ 32 else 0) + c.seq % 2 ^ 32)

/-- A command of a context that waits behind a faulted one is cancelled (R224, R255). -/
def Cmd.cancelIf (m : Nat) (c : Cmd) : Cmd := if c.issuer = m && !c.prog.began then { c with cancelled := true } else c

/-- The fault of a command reaches the context that issued it (R257); with one pending already, it is recorded in the status
register only. The causes from 0xF0 up raise no trap (R420). [DEDUCED: log 40] -/
def signal (s : State) (cid : Nat) (c : Cmd) (e : Eng) : State :=
  let word := if c.cm then some (c.doneWord e) else none
  let post := fun s : State => match word with | some w => postAs s (.engine cid e) cid c.issuer w 0 | none => s
  match (if c.cancelled && !c.prog.began then none else c.prog.fault) with
  | some (k, ti) =>
    if (s.ctx c.issuer).pend.isSome || 0xF0 ≤ k.toNat then post s
    else s.modCtx c.issuer fun m => { m with pend := some ⟨⟨k, ti⟩, c.words, word, .engine cid e⟩ }
  | none => post s

/-- An engine of a core has still to post the completion word of the command that it ran before: the word waits for room (R195), or for its context
to take the trap (R257). Until then the engine does nothing (R233). -/
def owes (s : State) (cid : Nat) (e : Eng) : Bool :=
  hwBusy s (.engine cid e)
    || s.ctxs.any fun x => match x.2.pend with | some f => f.by_ = .engine cid e && f.done.isSome | none => false

/-- A command that has finished, or that was cancelled before it began, completes in one step (R234): status, flags,
completion word or signal; the commands of its context behind it are cancelled where it faulted. An issuer that has ended
since gets nothing (R195). -/
def completeCmd (cid : Nat) (e : Eng) (s : State) : State :=
  match currentCmd s cid e with
  | none => s
  | some (i, c) =>
    if !(c.prog.done || (c.cancelled && !c.prog.began)) then s
    else if owes s cid e || isolated s cid then s
    else
      let alive := (s.ctx c.issuer).gen = c.gen
      let faulted := c.prog.fault.isSome
      let s := { s with bwait := s.bwait.filter (·.who != Asks.eng cid e) }.modEng cid e fun q =>
        let l := dropAt q.queue i
        { q with
          queue := if faulted then l.map (Cmd.cancelIf c.issuer) else l,
          last := BitVec.ofNat 32 c.seq, fault := c.ending.1, cause := c.ending.2 }
      if alive then
        let s := if c.nf then s else orFlags s c.issuer c.prog.flags
        signal s cid c e
      else s
/-- The step of `ENGINE_COMMAND_COMPLETION`. -/
def execEngineCommandCompletion (cid : Nat) (eng : Eng) (s : State) : Out :=
  runEvent (fun s => if isolated s cid then s else admitCmds cid eng (engDepth (engNum eng)) (completeCmd cid eng s)) s

/-- A context takes the trap of its faulted command at a group boundary: it runs, at home, and no load or atomic holds it; an instruction stalled
there is abandoned. Then the completion word is posted (R257, R186). -/
def deliverFault (m : Nat) (s : State) : State :=
  let c := s.ctx m
  match c.pend with
  | none => s
  | some f =>
    if c.run = .running && c.away.isNone && (c.full || !(c.out.any Acc.holds)) then
      let s := letGo (s.modCtx m fun c => { c with pend := none }) m
      let s := takeTrapOf s m ⟨f.t, (s.ctx m).pc, f.cmd, 0⟩
      match f.done with
      | some w => postAs s f.by_ (mbaCid m) m w 0
      | none => s
    else s
/-- The step of `ENGINE_FAULT_DELIVERY`. -/
def execEngineFaultDelivery (m : Nat) (s : State) : Out := runEvent (deliverFault m) s

end Sys2Proof.Machine
end

