-- ==== Sys2Proof/Machine/TileOps.lean ====
section
/-! DEFINITION. The tile instructions (R244–R254) and `rtndef` (R240): their checks at issue, the random values they reserve
(Table 9.11), and what their commands read, compute and write. -/

namespace Sys2Proof.Machine

open Sys2Proof.Config

/-- A named bit of the field f. -/
def fbit (t : T64) (i : Nat) : Bool := t.f.getLsbD i

/-- One where a condition holds. -/
def one? (p : Bool) : Nat := if p then 1 else 0

/-! ## Issue -/

/-- A command with a handle touches no raw bank; the first one of the tiles given raises (R243). -/
def noRaw : List (Tile × Nat × Reg) → M Unit
  | [] => pure ()
  | (t, k, r) :: l => do
    badTile (isRaw t.fmt) k r
    noRaw l

/-- Handles 244 and 245 belong to `fold` alone (Table 9.6). -/
def noIndex (h : BitVec 8) : M Unit := raiseIf (h = 244 || h = 245) 0x02 h.toNat

/-- Applications of a fold or a scan over one sequence (Table 9.11). -/
def applications (scan : Bool) (cls n a : Nat) : Nat :=
  if scan && cls != 0 then
    let c := cdiv n 32
    let k := cdiv n c
    (n - k) + (if 2 ≤ k then k - 2 + a else 0) + (n - c) + a * c
  else n - 1 + a

/-- Values that the output conversions of one sequence use (R245). -/
def seqOutDraws (scan na : Bool) (o : Oper) (d : Tile) (n : Nat) : Nat :=
  let out := one? (outRounds d.fmt o.outF)
  let idx := o.handle = 244 || o.handle = 245
  let bare := o.cls = 0 && na && (scan || n = 1)
  (if scan then n else 1) * out + one? (idx && outRounds d.fmt 1)
    + (if bare then one? (outRounds d.fmt o.inF) else 0) - (if bare then out else 0)

/-- `fold` and `scan` issue (R247, R248). -/
def issueFold (t : T64) (scan : Bool) : M Unit := do
  engFields t
  let ax := fbit t 5
  let na := fbit t 6
  let av ← readReg t.a
  let bv ← if na then pure 0 else readReg t.b
  let dv ← readReg t.d
  let c ← engConst t
  let d ← useTile dv 0 t.d true
  let a ← useTile av 1 t.a false
  if scan then noIndex t.h else pure ()
  let o ← bindOper .vector t.h (workFmt a.fmt)
  noRaw [(d, 0, t.d), (a, 1, t.a)]
  let idx := o.handle = 244 || o.handle = 245
  badTile (if scan then d.rows != a.rows || d.cols != a.cols
    else d.rows != (if ax then 1 else a.rows) || d.cols != (if idx then 2 else 1)) 0 t.d
  raiseIf (idx && !na) 0x02 o.handle
  let n := if ax then a.size else a.cols
  let per := applications scan o.cls n (one? (!na)) * o.draws + n * one? (inRounds a.fmt o.inF) + seqOutDraws scan na o d n
  enqueue .vector { blankCmd (if scan then .scan na else .fold ax na) t with
    oper := some o, dt := some d, at_ := some a, bv := bv, cv := c, av := if ax then 1 else 0 } ((if ax then 1 else a.rows) * per)
/-- The step of `fold` (R247). -/
def execFold (t : T64) (s : State) : Out := runInstr 8 (issueFold t false) s
/-- The step of `scan` (R248). -/
def execScan (t : T64) (s : State) : Out := runInstr 8 (issueFold t true) s

/-- A built-in with two sources takes one working format (R243). -/
def sameWork (o : Oper) (a b : Tile) (r : Reg) : M Unit := badTile (240 ≤ o.handle && workFmt a.fmt != workFmt b.fmt) 2 r

/-- `zip` and `outer` issue (R249). A raw bank is found before the shapes are compared, and sources of two working formats after
that (R243). [DESIGN CHOICE: log 115] -/
def issuePair (t : T64) (outer : Bool) : M Unit := do
  engFields t
  let bc := !outer && fbit t 5
  let av ← readReg t.a
  let bv ← readReg t.b
  let dv ← readReg t.d
  let c ← engConst t
  let d ← useTile dv 0 t.d true
  let a ← useTile av 1 t.a false
  let b ← useTile bv 2 t.b false
  noIndex t.h
  let o ← bindOper .vector t.h (workFmt a.fmt)
  noRaw [(d, 0, t.d), (a, 1, t.a), (b, 2, t.b)]
  if outer then
    badTile (d.rows != a.cols || d.cols != b.cols) 0 t.d
    badTile (a.rows != 1) 1 t.a
    badTile (b.rows != 1) 2 t.b
  else
    badTile (d.rows != a.rows || d.cols != a.cols) 0 t.d
    badTile (b.rows != (if bc then 1 else a.rows) || b.cols != a.cols) 2 t.b
  sameWork o a b t.b
  let per := o.draws + one? (inRounds a.fmt o.inF) + one? (inRounds b.fmt o.inF) + one? (outRounds d.fmt o.outF)
  enqueue .vector { blankCmd (if outer then .outer else .zip bc) t with
    oper := some o, dt := some d, at_ := some a, bt := some b, cv := c } (d.size * per)
/-- The step of `zip` (R249). -/
def execZip (t : T64) (s : State) : Out := runInstr 8 (issuePair t false) s
/-- The step of `outer` (R249). -/
def execOuter (t : T64) (s : State) : Out := runInstr 8 (issuePair t true) s

/-- The scale mode that counts in R250's comparison. -/
def modeKey (f : BitVec 7) : Nat := if scalable (fCode f) then fMode f else 0
/-- Whether `tcopy` copies bytes (R250). [DEDUCED: log 39] -/
def copiesBytes (d a : Tile) : Bool := fCode d.fmt = fCode a.fmt && modeKey d.fmt = modeKey a.fmt
/-- The format in which `tcopy` without a routine reads an element: exactly, or its own bits (R250). Every `q4x` value is an
`e4m3` value. -/
def copyFmt (d a : Tile) : Nat :=
  if copiesBytes d a then 15 else if scaled a.fmt then 5 else if fCode a.fmt = 12 then 8 else fCode a.fmt

/-- `tcopy` issues (R250). -/
def issueTcopy (t : T64) : M Unit := do
  engFields t
  let tr := fbit t 5
  let av ← readReg t.a
  let dv ← readReg t.d
  let c ← engConst t
  let d ← useTile dv 0 t.d true
  let a ← useTile av 1 t.a false
  let shape := badTile (d.rows != a.rows || d.cols != a.cols) 0 t.d
  if tr then
    noIndex t.h
    let o ← bindOper .copy t.h (workFmt a.fmt)
    noRaw [(d, 0, t.d), (a, 1, t.a)]
    shape
    let per := o.draws + one? (inRounds a.fmt o.inF) + one? (outRounds d.fmt o.outF)
    enqueue .copy { blankCmd .tcopy t with oper := some o, dt := some d, at_ := some a, cv := c } (d.size * per)
  else
    noHandle t
    shape
    badTile (isRaw d.fmt != isRaw a.fmt) 0 t.d
    enqueue .copy { blankCmd .tcopy t with dt := some d, at_ := some a, cv := c }
      (d.size * one? (outRounds d.fmt (copyFmt d a)))
/-- The step of `tcopy` (R250). -/
def execTcopy (t : T64) (s : State) : Out := runInstr 8 (issueTcopy t) s

/-- `tfill` issues (R251). -/
def issueTfill (t : T64) : M Unit := do
  engFields t
  let tr := fbit t 5
  let av ← readReg t.a
  let dv ← readReg t.d
  let c ← engConst t
  let d ← useTile dv 0 t.d true
  if tr then
    noIndex t.h
    let o ← bindOper .vector t.h (workFmt d.fmt)
    noRaw [(d, 0, t.d)]
    enqueue .vector { blankCmd .tfill t with oper := some o, dt := some d, av := av, cv := c, sw := false }
      (d.size * (o.draws + one? (outRounds d.fmt o.outF)))
  else
    noHandle t
    raiseIf (fCode d.fmt = 12 && nbits av.toNat 3 0 = 8) 0x02 av.toNat
    enqueue .vector { blankCmd .tfill t with dt := some d, av := av, cv := c, sw := false } 0
/-- The step of `tfill` (R251). -/
def execTfill (t : T64) (s : State) : Out := runInstr 8 (issueTfill t) s

/-- `txp` issues (R252). -/
def issueTxp (t : T64) : M Unit := do
  engFields t
  let av ← readReg t.a
  let dv ← readReg t.d
  let d ← useTile dv 0 t.d true
  let a ← useTile av 1 t.a false
  noHandle t
  badTile (d.rows != a.cols || d.cols != a.rows) 0 t.d
  badTile (fCode d.fmt != fCode a.fmt || fMode d.fmt != fMode a.fmt || fCode a.fmt = 12 || fMode a.fmt = 2) 0 t.d
  enqueue .vector { blankCmd .txp t with dt := some d, at_ := some a } 0
/-- The step of `txp` (R252). -/
def execTxp (t : T64) (s : State) : Out := runInstr 8 (issueTxp t) s

/-- `gld` and `gst` issue (R253). -/
def issueGlobal (t : T64) (store : Bool) : M Unit := do
  engFields t
  let rt := if store then t.a else t.d
  let av ← readReg t.a
  let p ← readReg t.b
  let dv ← readReg t.d
  let (ov, tv) := if store then (dv, av) else (av, dv)
  let x ← useTile tv (if store then 1 else 0) rt (!store)
  noHandle t
  let q := t.f.toNat % 8
  let g := (← me).segd q
  let o := ov.toInt
  let info := memInfo q (if store then 16 else 15) false (ofInt 48 o)
  raiseIf (dSpace g != 2 || !dRight g (if store then rW else rR)) 0x08 info
  raiseIf (o % 16 != 0 || p.toNat % 16 != 0) 0x09 info
  raiseIf (decide (2 ^ 40 ≤ p.toNat)) 0x02 p.toNat
  raiseIf (o < 0 || (dLimit g : Int) < o + ((x.lines - 1) * p.toNat + x.lineB : Nat)) 0x07 info
  enqueue .global { blankCmd (if store then .gst g o.toNat p.toNat else .gld g o.toNat p.toNat) t with
    dt := if store then none else some x, at_ := if store then some x else none, sw := store && t.spec.getLsbD 20 } 0
/-- The step of `gld` (R253). -/
def execGld (t : T64) (s : State) : Out := runInstr 8 (issueGlobal t false) s
/-- The step of `gst` (R253). -/
def execGst (t : T64) (s : State) : Out := runInstr 8 (issueGlobal t true) s

/-! ## `rtndef` (R240, R241) -/

/-- The read of a routine image of `n` words (Table 7.1). -/
def rtnAccess (n : Nat) : BlockAccess := ⟨4 * n, 4, 4, [rR], [0, 1, 2, 3], 19, .read⟩

/-- The words of a block. -/
def wordsOf : (n : Nat) → List Byte → List W32
  | 0, _ => []
  | n + 1, bs => BitVec.ofNat 32 (leVal (bs.take 4)) :: wordsOf n (bs.drop 4)

/-- `rtndef` (R240): every copy of the partition's routine table holds the entry when it completes. -/
def bodyRtndef (t : T64) : M Unit := do
  noMigrant
  privileged
  settled
  let o ← readReg t.a
  let h ← readReg t.b
  raiseIf (decide (239 < h.toNat)) 0x02 h.toNat
  let q := t.f.toNat % 8
  let hb ← readBlock q o.toInt (rtnAccess 1)
  let hdr := BitVec.ofNat 32 (leVal hb)
  let bs ← readBlock q o.toInt (rtnAccess (rtnLen hdr + 1))
  let body := (wordsOf (rtnLen hdr + 1) bs).drop 1
  match rtnBad hdr body with
  | some i => throw (.trap ⟨0x01, i⟩)
  | none =>
    modify fun s => s.modPart s.me.part.toNat fun p =>
      { p with routines := tset p.routines h.toNat (some (mkRoutine hdr body)) }
/-- The step of `rtndef` (R240). -/
def execRtndef (t : T64) (s : State) : Out := runInstr 8 (bodyRtndef t) s

/-! ## Units of work -/

/-- The places of a row of a tile, or of all of it. -/
def places (t : Tile) (whole : Bool) (u : Nat) : List (Nat × Nat) :=
  if whole then (upFrom 0 t.rows).flatMap fun i => (upFrom 0 t.cols).map fun j => (i, j)
  else (upFrom 0 t.cols).map fun j => (u, j)

/-- Two tiles with the same start, shape and layout (R236). [DEDUCED: log 33] -/
def sameRegion (a d : Tile) : Bool :=
  a.cid = d.cid && a.bank = d.bank && a.off = d.off && a.rows = d.rows && a.cols = d.cols && a.stride = d.stride
    && a.pad = d.pad && a.cmaj = d.cmaj

/-- A command whose outputs are all computed from all of its sources at once: a fold of the whole tile; one into a
column-major tile, where a word holds elements of several rows (R235); a transposition in place (R236). -/
def Cmd.whole (c : Cmd) : Bool :=
  let cm := match c.dt with | some d => d.cmaj | none => false
  match c.op with
  | .fold ax _ => ax || cm
  | .scan _ => c.av = 1 || cm
  | .txp => cm || match c.dt, c.at_ with | some d, some a => sameRegion a d | _, _ => false
  | _ => cm

/-- The sequences of a unit of a fold or a scan (R247). -/
def seqsOf (c : Cmd) (a : Tile) (u : Nat) : List (List (Nat × Nat)) :=
  if c.av = 1 then [places a true 0]
  else if c.whole then (upFrom 0 a.rows).map fun i => places a false i
  else [places a false u]

/-- The source of an interior element. -/
def Tile.srcOf (t : Tile) (i j : Int) : Src := let (l, e) := t.at i j; t.src l e

/-- The sources that an output of an elementwise command reads, in order (R246). -/
def pairSrcs (c : Cmd) (p : Nat × Nat) : List (Tile × Nat × Nat) :=
  match c.op, c.at_, c.bt with
  | .zip bc, some a, some b => [(a, p.1, p.2), (b, if bc then 0 else p.1, p.2)]
  | .outer, some a, some b => [(a, 0, p.1), (b, 0, p.2)]
  | .txp, some a, _ => [(a, p.2, p.1)]
  | .tcopy, some a, _ => [(a, p.1, p.2)]
  | _, _, _ => []

/-- A `tcopy` that copies element bytes, which takes no scale of its source (R250). -/
def Cmd.bytewise (c : Cmd) : Bool :=
  match c.op, c.oper, c.dt, c.at_ with
  | .tcopy, none, some d, some a => copiesBytes d a
  | _, _, _, _ => false

/-- The read of an element by a command: of a copy of bytes, without the header of its row (R250). -/
def Cmd.readOf (c : Cmd) (t : Tile) (i j : Int) : Src := if c.bytewise then { t.srcOf i j with hdr := none } else t.srcOf i j

/-- The reads of a unit of a tile command. -/
def tileSrcs (c : Cmd) (u : Nat) : List Src :=
  match c.op, c.dt, c.at_ with
  | .fold .., _, some a | .scan .., _, some a => (seqsOf c a u).flatten.map fun p => a.srcOf p.1 p.2
  | _, some d, _ => (places d c.whole u).flatMap fun p => (pairSrcs c p).map fun x => c.readOf x.1 x.2.1 x.2.2
  | _, _, _ => []

/-- Units of a tile command. -/
def tileUnits (c : Cmd) : Nat :=
  if c.whole then 1
  else match c.op, c.dt, c.at_ with
    | .fold .., _, some a | .scan .., _, some a => a.rows
    | _, some d, _ => d.rows
    | _, _, _ => 0

/-! ## fold and scan (R79, R83, R247, R248) -/

/-- A value with the format of its image. -/
abbrev FmtVal := EVal × Nat
/-- A value with the index of its first element. -/
abbrev IdxVal := EVal × Nat

/-- What an application takes: the environment, the operator and the constant. -/
structure Comb where
  v : CmdEnv
  o : Oper
  c : Word

/-- An application whose operands are both partials or elements of one format. -/
def Comb.app (k : Comb) (l r : EVal) (q : Nat) : EvM EVal := evApp k.v k.o k.o.outF k.o.inF l r q k.c

/-- Left to right over elements from a first value (R79, R247). [DEDUCED: log 35] -/
def foldFrom (k : Comb) : FmtVal → List IdxVal → EvM FmtVal
  | x, [] => pure x
  | x, (y, q) :: l => do
    let z ← evApp k.v k.o x.2 k.o.inF x.1 y q k.c
    foldFrom k (z, k.o.outF) l

/-- Chunks of `c` elements. -/
def chunks {α : Type} (c : Nat) : (fuel : Nat) → List α → List (List α)
  | 0, _ => []
  | _ + 1, [] => []
  | n + 1, l => l.take c :: chunks c n (l.drop c)

/-- One level of the balanced tree (R79). -/
def pairLevel (k : Comb) : List IdxVal → EvM (List IdxVal)
  | (x, i) :: (y, j) :: l => do
    let z ← k.app x y j
    return (z, i) :: (← pairLevel k l)
  | l => pure l

/-- The five levels of the tree over 32 partials (R79). -/
def treeOf (k : Comb) : (n : Nat) → List IdxVal → EvM (List IdxVal)
  | 0, l => pure l
  | n + 1, l => do treeOf k n (← pairLevel k l)

/-- The partial of a chunk with its first index: its first element, and the applications to the others (R247). -/
def chunkFold (k : Comb) : List IdxVal → EvM IdxVal
  | [] => pure (.ok (0, 0), 0)
  | (x, i) :: l => do return ((← foldFrom k (x, k.o.inF) l).1, i)

/-- The result of a sequence (R247); `acc` where there is an accumulator. -/
def foldSeq (k : Comb) (acc : Option EVal) (e : List IdxVal) : EvM FmtVal := do
  if k.o.cls = 0 then
    match acc, e with
    | some x, _ => foldFrom k (x, k.o.inF) e
    | none, (x, _) :: l => foldFrom k (x, k.o.inF) l
    | none, [] => return (.ok (0, 0), k.o.outF)
  else
    let ps ← (chunks (cdiv e.length 32) 32 e).mapM (chunkFold k)
    match ← treeOf k 5 ps with
    | (t, i) :: _ => match acc with
      | some x => do return (← k.app x t i, k.o.outF)
      | none => return (t, k.o.outF)
    | [] => return (.ok (0, 0), k.o.outF)

/-- The sequential scan (R248). -/
def scanFrom (k : Comb) : Option FmtVal → List IdxVal → EvM (List FmtVal)
  | _, [] => pure []
  | none, (x, _) :: l => do return (x, k.o.inF) :: (← scanFrom k (some (x, k.o.inF)) l)
  | some y, (x, q) :: l => do
    let z ← evApp k.v k.o y.2 k.o.inF y.1 x q k.c
    return (z, k.o.outF) :: (← scanFrom k (some (z, k.o.outF)) l)

/-- The values that enter the chunks (E of R248), from the totals of the chunks before them. -/
def entering (k : Comb) : Option EVal → List IdxVal → EvM (List (Option EVal))
  | x, [] => pure [x]
  | none, (t, _) :: l => do return none :: (← entering k (some t) l)
  | some x, (t, i) :: l => do
    let z ← k.app x t i
    return some x :: (← entering k (some z) l)

/-- The outputs of a chunk (R248). -/
def scanOuts (k : Comb) (x : Option EVal) : List IdxVal → EvM (List FmtVal)
  | [] => pure []
  | (p, q) :: l => do
    let z ← match x with | some y => k.app y p q | none => pure p
    return (z, k.o.outF) :: (← scanOuts k x l)

/-- The outputs of a sequence of a scan (R248). -/
def scanSeq (k : Comb) (acc : Option EVal) (e : List IdxVal) : EvM (List FmtVal) := do
  if k.o.cls = 0 then scanFrom k (acc.map fun x => (x, k.o.inF)) e
  else
    let cs := chunks (cdiv e.length 32) 32 e
    let ps ← cs.mapM fun l => do
      let vs ← scanFrom k none l
      return (vs.zip l).map fun (x : FmtVal × IdxVal) => (x.1.1, x.2.2)
    let first := fun (l : List IdxVal) => match l with | (_, q) :: _ => q | [] => 0
    let totals := ps.dropLast.map fun l => (match l.getLast? with | some x => x.1 | none => .ok (0, 0), first l)
    let es ← entering k acc totals
    let outs ← (es.zip ps).mapM fun (x : Option EVal × List IdxVal) => scanOuts k x.1 x.2
    return outs.flatten

/-- The choice with its index of handles 244 and 245 (R83): the first fault of the sequence passes on. -/
def pickSeq (w : Nat) (lower : Bool) : Option IdxVal → List IdxVal → Option IdxVal
  | x, [] => x
  | none, y :: l => pickSeq w lower (some y) l
  | some (.error f, i), (.error g, _) :: l => pickSeq w lower (some (.error (firstFault f g), i)) l
  | some (.error f, i), _ :: l => pickSeq w lower (some (.error f, i)) l
  | some _, (.error g, j) :: l => pickSeq w lower (some (.error g, j)) l
  | some (.ok a, i), (.ok b, j) :: l =>
    pickSeq w lower (some (if (if lower then ranksBelow w b.1 a.1 else ranksBelow w a.1 b.1)
      then (.ok (b.1, a.2 ||| b.2), j) else (.ok (a.1, a.2 ||| b.2), i))) l

/-- The input conversions of a sequence (R246). -/
def seqIns (k : Comb) (a : Tile) : List ((Nat × Nat) × Option Word) → EvM (List IdxVal)
  | [] => pure []
  | (p, w) :: l => do
    let x ← evIn k.v a (a.at p.1 p.2).2 w k.o.inF
    return (x, p.1 * a.cols + p.2) :: (← seqIns k a l)

/-- An output conversion into the place (`i`, `j`) of a tile (R246); into a row-scaled bank it is made as the row is written (R64). -/
def outAt (v : CmdEnv) (d : Tile) (i j : Nat) (x : EVal) (fmt : Nat) : EvM OutVal := do
  let (l, e) := d.at i j
  if converts d.fmt fmt then return ⟨i * d.cols + j, l, e, x, some (fmt, ← evLate v d fmt)⟩
  else return ⟨i * d.cols + j, l, e, ← evOut v d fmt x, none⟩

/-- One sequence of a fold: its outputs are in row `i` of the destination. The index of handles 244 and 245 is converted from
`n64` (R83, R247). [DESIGN CHOICE: log 114] -/
def foldOuts (k : Comb) (acc : Option EVal) (d : Tile) (i : Nat) (e : List IdxVal) : EvM (List OutVal) := do
  if k.o.handle = 244 ∨ k.o.handle = 245 then
    match pickSeq k.o.inF (k.o.handle = 244) none e with
    | none => return []
    | some (x, q) =>
      let y : EVal := match x with | .ok a => .ok (q, a.2) | .error f => .error f
      return [← outAt k.v d i 0 x k.o.inF, ← outAt k.v d i 1 y 1]
  else
    let (x, f) ← foldSeq k acc e
    return [← outAt k.v d i 0 x f]

/-- The outputs of a scan's sequence. -/
def scanOutVals (k : Comb) (acc : Option EVal) (d : Tile) (ps : List (Nat × Nat)) (e : List IdxVal) :
    EvM (List OutVal) := do
  let vs ← scanSeq k acc e
  (ps.zip vs).mapM fun (x : (Nat × Nat) × FmtVal) => outAt k.v d x.1.1 x.1.2 x.2.1 x.2.2

/-- The sequences of a unit in order. -/
def seqsEval (c : Cmd) (k : Comb) (d a : Tile) (scan : Bool) :
    List (List (Nat × Nat)) → List (Option Word) → EvM (List OutVal)
  | [], _ => pure []
  | ps :: l, ws => do
    let e ← seqIns k a (ps.zip ws)
    let na := match c.op with | .fold _ na | .scan na => na | _ => true
    let acc : Option EVal := if na then none else some (.ok (c.bv.toNat % 2 ^ fmtBits k.o.inF, 0))
    let outs ← if scan then scanOutVals k acc d ps e
      else foldOuts k acc d (if c.av = 1 then 0 else match ps with | p :: _ => p.1 | [] => 0) e
    return outs ++ (← seqsEval c k d a scan l (ws.drop ps.length))

/-! ## The elementwise commands (R249–R252) -/

/-- One output of `zip`, `outer`, `tcopy`, `tfill` or `txp`. -/
def elemEval (c : Cmd) (v : CmdEnv) (d : Tile) (p : Nat × Nat) (ws : List (Option Word)) : EvM OutVal := do
  let q := p.1 * d.cols + p.2
  let srcs := (pairSrcs c p).zip ws
  let fin := match c.oper, c.op, c.at_ with
    | some o, _, _ => o.inF
    | none, .tcopy, some a => copyFmt d a
    | _, _, _ => 15
  let xs ← srcs.mapM fun (x : (Tile × Nat × Nat) × Option Word) => evIn v x.1.1 (x.1.1.at x.1.2.1 x.1.2.2).2 x.2 fin
  match c.oper with
  | none =>
    match xs with
    | x :: _ => outAt v d p.1 p.2 x fin
    | [] => outAt v d p.1 p.2 (.ok (c.av.toNat % 2 ^ (4 * elemHalves (fCode d.fmt)), 0)) 15
  | some o =>
    let im := fun (w : Word) => (.ok (w.toNat % 2 ^ fmtBits o.inF, 0) : EVal)
    let (l, r) := match xs with
      | [x, y] => (x, y)
      | [x] => (x, im c.cv)
      | _ => (im c.av, im c.cv)
    let z ← evApp v o o.inF o.inF l r q c.cv
    outAt v d p.1 p.2 z o.outF

/-- The elementwise outputs of a unit. -/
def elemsEval (c : Cmd) (v : CmdEnv) (d : Tile) : List (Nat × Nat) → List (Option Word) → EvM (List OutVal)
  | [], _ => pure []
  | p :: l, ws => do
    let n := (pairSrcs c p).length
    return (← elemEval c v d p (ws.take n)) :: (← elemsEval c v d l (ws.drop n))

/-- A command after the evaluation of a unit's outputs: the entries to write, the fault that ends it, the random values left. -/
def Cmd.evaluated (c : Cmd) (e : Eng) (d : Tile) (ev : EvM (List OutVal)) : Cmd :=
  let (outs, g) := ev.run ⟨c.prog.rng, c.prog.gpos, 0⟩
  let (buf, bad) := gather d outs []
  { c with prog := { c.prog with
      unit := c.prog.unit + 1, reads := [], buf := buf, rng := g.st, gpos := g.g,
      fault := bad.map fun x => faultInfo e c x.1 x.2 } }

/-- A unit of a tile command whose reads are complete. -/
def tileUnit (e : Eng) (c : Cmd) : Cmd :=
  let v := c.env e
  let u := c.prog.unit
  match c.op, c.oper, c.dt, c.at_ with
  | .fold .., some o, some d, some a => c.evaluated e d (seqsEval c ⟨v, o, c.cv⟩ d a false (seqsOf c a u) c.prog.reads)
  | .scan .., some o, some d, some a => c.evaluated e d (seqsEval c ⟨v, o, c.cv⟩ d a true (seqsOf c a u) c.prog.reads)
  | _, _, some d, _ => c.evaluated e d (elemsEval c v d (places d c.whole u) c.prog.reads)
  | _, _, _, _ => { c with prog := { c.prog with unit := u + 1 } }

/-! ## gld and gst (R253) -/

/-- The pieces of `n` bytes from `a` up, none across an aligned 8-byte word. -/
def wordPieces : (fuel a n : Nat) → List (Nat × Nat)
  | 0, _, _ => []
  | f + 1, a, n => if n = 0 then [] else let k := min n (8 - a % 8); (a, k) :: wordPieces f (a + k) (n - k)

/-- The pages that a range of DVAs touches, by their first DVA in the range. -/
def pageStarts (a n : Nat) : List Nat := a :: (upFrom 1 ((a + n - 1) / 4096 - a / 4096)).map fun k => (a / 4096 + k) * 4096

/-- Where each page of a line lies, translated at the port of the engine's cluster (R253): the page's number, where the access is performed
and what the page gives; or the fault; or none while a walk is under way (R394). -/
def linePages (s : State) (cid : Nat) (e : Eng) (c : Cmd) (p : Pte) :
    List Nat → State × Except (Option EFault) (List (Nat × Nat × Page))
  | [] => (s, .ok [])
  | a :: l =>
    let m := s.ctx c.issuer
    match portAccess s (clKey cid) cid e m.part m.sec p a with
    | (t, .wait) => (t, .error none)
    | (t, .fault k) => (t, .error (some ⟨BitVec.ofNat 8 k, 0, false, some a⟩))
    | (t, .at_ home r) =>
      let pa := copyFor cid p home r.repl
      match linePages t cid e c p l with
      | (t, .ok ps) => (t, .ok ((a / 4096, pa / 4096 * 4096, r) :: ps))
      | (t, .error f) => (t, .error f)

/-- The physical address of a DVA in translated pages, and what its page gives. -/
def inPages (ps : List (Nat × Nat × Page)) (a : Nat) : Nat × Page :=
  match ps.find? fun x => x.1 = a / 4096 with
  | some x => (x.2.1 + a % 4096, x.2.2)
  | none => (a, .plain)

/-- The DVA of a line of a global command. -/
def lineDva (g : Desc) (o p u : Nat) : Nat := dBase g + o + u * p

/-- The bytes that reads of pieces of these sizes found, in order. -/
def bytesOf : List Nat → List (Option Word) → List Byte
  | n :: ps, w :: ws => leBytes n (match w with | some v => v.toNat | none => 0) ++ bytesOf ps ws
  | _, _ => []

/-- Entries that write bytes from a location up, word by word. -/
def spread (out : Nat) : List (Nat × Nat) → List Byte → List OutEnt
  | [], _ => []
  | (a, n) :: l, bs => ⟨[out], [Piece.mk a none .plain (bs.take n)], 0, []⟩ :: spread out l (bs.drop n)

/-- A command that a fault ends at output `u`. -/
def Cmd.failed (c : Cmd) (e : Eng) (u : Nat) (f : EFault) : Cmd :=
  { c with prog := { c.prog with fault := some (faultInfo e c u f), reads := [], plan := [] } }

/-- A step of `gld` (R253): the pages of the next line are translated, its words are read, and then it is to be written. -/
def runGld (s : State) (cid i : Nat) (c : Cmd) (g : Desc) (o p : Nat) (d : Tile) (ecc : Ecc) : State :=
  let u := c.prog.unit
  let a := lineDva g o p u
  match c.prog.plan with
  | [] =>
    match linePages s cid .global c .read (pageStarts a d.lineB) with
    | (t, .error none) => t
    | (t, .error (some f)) => setCmd t cid .global i (c.failed .global u f)
    | (t, .ok ps) =>
      let plan := (wordPieces (d.lineB + 1) a d.lineB).map fun x => let y := inPages ps x.1; (y.1, x.2, y.2)
      setCmd t cid .global i { c with prog := { c.prog with plan := plan } }
  | plan =>
    match plan[c.prog.reads.length]? with
    | some (pa, n, page) =>
      match payLine s cid .global c pa with
      | .error t => t
      | .ok (t, c) =>
        let t := applyEcc t pa ecc
        if t.poisoned pa n then
          let off := (plan.take c.prog.reads.length).foldl (fun k x => k + x.2.1) 0
          setCmd t cid .global i (c.failed .global u ⟨0x13, 0, false, some (a + off)⟩)
        else
          setCmd t cid .global i { c with prog := { c.prog with reads := c.prog.reads ++ [some (BitVec.ofNat 64 (t.rdKey page.key pa n))] } }
    | none =>
      let buf := spread u (wordPieces (d.lineB + 1) (d.lineLoc u) d.lineB) (bytesOf (plan.map (·.2.1)) c.prog.reads)
      setCmd s cid .global i { c with prog := { c.prog with unit := u + 1, reads := [], plan := [], buf := buf } }

/-- The reads of a line of a tile as whole bytes. -/
def lineSrcs (a : Tile) (u : Nat) : List Src := (wordPieces (a.lineB + 1) (a.lineLoc u) a.lineB).map fun x => ⟨x.1, x.2, none, true⟩

/-- A line of `gst` whose bytes have been read (R253): its pages are translated, and then it is to be written at the home
copies. -/
def gstLine (s : State) (cid i : Nat) (c : Cmd) (g : Desc) (o p : Nat) (a : Tile) : State :=
  let u := c.prog.unit
  if c.prog.reads.any Option.isNone then setCmd s cid .global i (c.failed .global u ⟨0x13, 0, false, none⟩)
  else
    let dva := lineDva g o p u
    match linePages s cid .global c .write (pageStarts dva a.lineB) with
    | (t, .error none) => t
    | (t, .error (some f)) => setCmd t cid .global i (c.failed .global u f)
    | (t, .ok ps) =>
      let bs := bytesOf ((wordPieces (a.lineB + 1) (a.lineLoc u) a.lineB).map (·.2)) c.prog.reads
      let buf := (spread u (wordPieces (a.lineB + 1) dva a.lineB) bs).map fun x =>
        { x with pieces := x.pieces.map fun y => { y with loc := (inPages ps y.loc).1, page := (inPages ps y.loc).2 } }
      setCmd t cid .global i { c with prog := { c.prog with unit := u + 1, reads := [], buf := buf } }

end Sys2Proof.Machine
end

