-- ==== Sys2Proof/Machine/Link.lean ====
section
/-! DEFINITION. The link engines (R281–R286, R331, R420, R421): puts, armed puts and watches on counter blocks. -/

namespace Sys2Proof.Machine

open Sys2Proof.Config

/-! ## Issue -/

/-- The handles of a put: write, add, min, max (R282). [DEDUCED: log 52] -/
def putHandle (h : BitVec 8) : Bool := h = 0 || h = 240 || h = 242 || h = 243
/-- A counter's DVA: 16-aligned, or all ones for none (R281, R282). -/
def ctrOk (v : Word) : Bool := v = BitVec.allOnes 64 || (v.toNat < 2 ^ 48 && v.toNat % 16 = 0)
/-- The counter that a field names. -/
def ctrOf (v : Word) : Option Nat := if v = BitVec.allOnes 64 then none else some v.toNat

/-- `put` issues (R282): the descriptor, the handle, and then the values of d and b and the raw bank (R232). -/
def bodyPut (t : T64) : M Unit := do
  engFields t
  let av ← readReg t.a
  let bv ← readReg t.b
  let dv ← readReg t.d
  let a ← useTile av 1 t.a false
  raiseIf (!putHandle t.h) 0x02 t.h.toNat
  raiseIf (nbits dv.toNat 63 60 != 0) 0x02 dv.toNat
  raiseIf (!ctrOk bv) 0x02 bv.toNat
  badTile (isRaw a.fmt && t.h != 0) 1 t.a
  enqueue .link { blankCmd (.put dv (ctrOf bv) t.h (t.spec.extractLsb' 0 16) (t.spec.getLsbD 16)) t with at_ := some a } 0
/-- The step of `put` (R282). -/
def execPut (t : T64) (s : State) : Out := runInstr 8 (bodyPut t) s

/-- The read of an arm record (R284). -/
def armAccess : BlockAccess := ⟨64, 16, 16, [rR], [0, 1, 2, 3], 21, .read⟩

/-- The byte offset of the first field of an arm record that breaks Table 10.10. -/
def armBad (bs : List Byte) : Option Nat :=
  let f := fun (o : Nat) => (dword bs o).toNat
  let lineB := nbits (f 8) 15 0
  let h := (dword bs 56).extractLsb' 0 8
  if decide (2 ^ 48 ≤ f 0) || f 0 % 16 != 0 then some 0
  else if lineB = 0 || lineB % 16 != 0 || nbits (f 8) 31 16 = 0 || nbits (f 8) 63 36 != 0
      || (h != 0 && decide (12 < nbits (f 8) 35 32)) then some 8
  else if nbits (f 16) 63 60 != 0 then some 16
  else if !ctrOk (dword bs 24) then some 24
  else if decide (2 ^ 48 ≤ f 32) || f 32 % 16 != 0 then some 32
  else if decide (2 ^ 48 ≤ f 40) then some 40
  else if !putHandle h || nbits (f 56) 63 27 != 0 then some 56
  else none

/-- The armed put that a record describes (Table 10.10). -/
def armOf (num : Nat) (words : Word) (m gen : Nat) (part : BitVec 4) (bs : List Byte) : ArmPut :=
  let f := fun (o : Nat) => (dword bs o).toNat
  let w := dword bs 56
  { num := num, words := words, issuer := m, gen := gen, part := part, src := f 0, lineB := nbits (f 8) 15 0,
    lines := nbits (f 8) 31 16, fmt := (dword bs 8).extractLsb' 32 4, dst := dword bs 16, ctr := ctrOf (dword bs 24),
    local_ := f 32, thresh := f 40,
    deadline := if dword bs 48 = BitVec.allOnes 64 then none else some (f 48),
    h := w.extractLsb' 0 8, tag := w.extractLsb' 8 16, cm := w.getLsbD 24, ln := w.getLsbD 25, rs := w.getLsbD 26 }

/-- The lowest number below `n` that a list does not hold. [DEDUCED: log 50] -/
def freeNum (n : Nat) (l : List Nat) : Option Nat := (upFrom 0 n).find? fun k => !l.elem k

/-- `putarm` (R284). -/
def bodyPutarm (t : T64) : M Unit := do
  noMigrant
  let a ← readReg t.a
  settled
  let bs ← readBlock (t.f.toNat % 8) a.toInt armAccess
  match armBad bs with
  | some o => raise 0x02 o
  | none =>
    let s ← get
    let cid := mbaCid s.cur
    match freeNum 16 ((s.core cid).armput.map (·.num)) with
    | none => writeReg t.d (BitVec.allOnes 64)
    | some n =>
      writeReg t.d (BitVec.ofNat 64 n)
      let x := armOf n s.grp.instr s.cur s.me.gen s.me.part bs
      modify fun u =>
        let t := u.modCore cid fun k => { k with armput := k.armput ++ [x] }
        if x.due t then fireArm cid t x else t
/-- The step of `putarm` (R284). -/
def execPutarm (t : T64) (s : State) : Out := runInstr 8 (bodyPutarm t) s

/-- The access of `cntw` to its counter block (R286). [DEDUCED: log 51] -/
def cntwAccess : Access := ⟨16, 16, [rR], [2], 22, .read⟩

/-- What the page of a spot's first byte gives. -/
def pageOf (p : Spot) : Page := (p.home.headD (0, 0, .plain)).2.2

/-- `cntw` (R286): the watch stands at the channel core that owns the block's home copy, and fires at once where its condition
holds. -/
def bodyCntw (t : T64) : M Unit := do
  noMigrant
  let a ← readReg t.a
  let b ← readReg t.b
  settled
  let p ← checkAccess (t.f.toNat % 8) a.toInt cntwAccess false
  atPiece p
  payBlock [p]
  let s ← get
  let loc := p.home.loc
  if s.poisoned loc 8 then throw (.trap ⟨0x13, p.info⟩)
  else
    let cid := channelCore s.minimal (paChannel s.minimal loc)
    match freeNum 64 ((s.core cid).watches.map (·.num)) with
    | none => writeReg t.d (BitVec.allOnes 64)
    | some n =>
      writeReg t.d (BitVec.ofNat 64 n)
      modify fun u => fireWatches (u.modCore cid fun k =>
        { k with watches := k.watches ++ [⟨n, loc, pageOf p, b.toNat % 2 ^ 48, s.cur⟩] }) loc
/-- The step of `cntw` (R286). -/
def execCntw (t : T64) (s : State) : Out := runInstr 8 (bodyCntw t) s

/-! ## Armed puts (R285) -/

/-- Armed put `n` of a core fires, where it is due (R285). -/
def armedFire (cid n : Nat) (s : State) : State :=
  match (s.core cid).armput.find? (·.num = n) with
  | some a => if a.due s then fireArm cid s a else s
  | none => s
/-- The step of `ARMED_PUT_DEADLINE_FIRE` (R285). -/
def execArmedPutDeadlineFire (cid n : Nat) (s : State) : Out := runEvent (armedFire cid n) s

/-! ## Sending (R282, R331) -/

/-- A put's target and options, and its elements' format. -/
def Cmd.message (c : Cmd) (s : State) (cid : Nat) (short : Bool) (data : List (List Byte)) : Option PutMsg :=
  let m := s.ctx c.issuer
  let msg := fun (dst : Word) ctr h tag ln fmt scale lineB =>
    some (PutMsg.mk (some cid) (nbits dst.toNat 59 48)
      { dev := s.devNum, issuer := c.issuer, part := m.part.toNat, dva := nbits dst.toNat 47 0, ctr := ctr, h := h, tag := tag,
        ln := ln, fmt := fmt, scale := scale, lineB := lineB, data := data } m.sec short false 0 s.pseq)
  match c.op, c.at_ with
  | .put dst ctr h tag ln, some a => msg dst ctr h tag ln (a.fmt &&& 0x3F) a.scale a.lineB
  | .armed _ lineB _ fmt dst ctr h tag ln _, _ => msg dst ctr h tag ln (fmt.setWidth 7) 0 lineB
  | _, _ => none

/-- A command whose lines have been read sends them and waits for their landing; a line that faulted cuts the put short before
it (R255). -/
def sendPut (s : State) (cid i : Nat) (c : Cmd) (data : List (List Byte)) (bad : Option (BitVec 8 × Word)) : State :=
  let c := { c with prog := { c.prog with unit := c.prog.unit + 1, reads := [], plan := [], keep := [], fault := bad } }
  if data.isEmpty then setCmd s cid .link i { c with prog := { c.prog with done := true } }
  else match c.message s cid bad.isSome data with
    | some m => setCmd { s with puts := s.puts ++ [m], pseq := s.pseq + 1 } cid .link i c
    | none => s

/-- Lines of `n` bytes. -/
def linesOf (n : Nat) : (count : Nat) → List Byte → List (List Byte)
  | 0, _ => []
  | k + 1, bs => bs.take n :: linesOf n k (bs.drop n)

/-- The reads of a `put`, line by line. -/
def putSrcs (a : Tile) : List Src := (upFrom 0 a.lines).flatMap (lineSrcs a)

/-- A `put` whose source lines have been read (R282). [DEDUCED: log 47] -/
def putReady (s : State) (cid i : Nat) (c : Cmd) (a : Tile) : State :=
  let ps := (upFrom 0 a.lines).flatMap fun u => wordPieces (a.lineB + 1) (a.lineLoc u) a.lineB
  let bs := bytesOf (ps.map (·.2)) c.prog.reads
  let per := (wordPieces (a.lineB + 1) (a.lineLoc 0) a.lineB).length
  match c.prog.reads.findIdx? Option.isNone with
  | none => sendPut s cid i c (linesOf a.lineB a.lines bs) none
  | some k =>
    let u := k / max per 1
    sendPut s cid i c (linesOf a.lineB u bs) (some (faultInfo .link c u ⟨0x13, 0, false, none⟩))

/-- A step of a fired put (R285): its lines are read from global memory, as a `gld` reads them. -/
def runArmed (s : State) (cid i : Nat) (c : Cmd) (src lineB lines : Nat) (ecc : Ecc) : State :=
  let u := c.prog.keep.length / (lineB / 8)
  let a := src + u * lineB
  let data := linesOf lineB u (c.prog.keep.flatMap fun w => leBytes 8 w.toNat)
  let fail := fun (t : State) (f : EFault) => sendPut t cid i c data (some (faultInfo .link c u f))
  if lines ≤ u then sendPut s cid i c data none
  else match c.prog.plan with
  | [] =>
    match linePages s cid .link c .read (pageStarts a lineB) with
    | (t, .error none) => t
    | (t, .error (some f)) => fail t f
    | (t, .ok ps) =>
      setCmd t cid .link i { c with prog := { c.prog with
        plan := (wordPieces (lineB + 1) a lineB).map fun x => let y := inPages ps x.1; (y.1, x.2, y.2) } }
  | plan =>
    match plan[c.prog.reads.length]? with
    | some (pa, n, page) =>
      match payLine s cid .link c pa with
      | .error t => t
      | .ok (t, c) =>
        let t := applyEcc t pa ecc
        if t.poisoned pa n then fail t ⟨0x13, 0, false, some (a + 8 * c.prog.reads.length)⟩
        else setCmd t cid .link i { c with prog := { c.prog with reads := c.prog.reads ++ [some (BitVec.ofNat 64 (t.rdKey page.key pa n))] } }
    | none =>
      setCmd s cid .link i { c with prog := { c.prog with keep := c.prog.keep ++ c.prog.reads.filterMap id, reads := [], plan := [] } }

/-! ## Landing (R282, R283, R421) -/

/-- The pieces of a put at its destination: line, offset in the line and bytes. A write lands in aligned 8-byte words, a reduce
element by element (for `q4x`, group by group). [DESIGN CHOICE: log 45] -/
def putPieces (p : InPut) : List (Nat × Nat × Nat) :=
  let pitch := 16 * cdiv p.lineB 16
  (upFrom 0 p.data.length).flatMap fun (u : Nat) =>
    if p.h = 0 then
      (wordPieces (p.lineB + 1) (p.dva + u * pitch) p.lineB).map fun x => (u, x.1 - (p.dva + u * pitch), x.2)
    else
      let n := if fCode p.fmt = 12 then 4 else elemHalves (fCode p.fmt) / 2
      (upFrom 0 ((p.lineB - hdrBytes p.fmt) / n)).map fun (k : Nat) => (u, hdrBytes p.fmt + k * n, n)

/-- The DVA of a byte of a line of a put. -/
def putAt (p : InPut) (u off : Nat) : Nat := p.dva + u * (16 * cdiv p.lineB 16) + off

/-- The bytes of a piece after they are combined with what is there (R282, R283): in the working format of the bank, under RNE. [DEDUCED: log 46] -/
def combinePut (p : InPut) (src dst : Nat) (hs hd : Nat) (n : Nat) : List Byte :=
  let c := fCode p.fmt
  let w := workFmt p.fmt
  let v : CmdEnv := ⟨rne, 0, false⟩
  let one := fun (k : Nat) =>
    let x := (elemIn p.fmt p.scale k (BitVec.ofNat 64 (src + hs * 2 ^ 32)) w rne).1
    let y := (elemIn p.fmt p.scale k (BitVec.ofNat 64 (dst + hd * 2 ^ 32)) w rne).1
    let s : W32 := if fMode p.fmt = 2 then BitVec.ofNat 32 hd else p.scale
    (elemOut p.fmt s w (builtinOp p.h.toNat w v y x 0).1 rne).1
  if c = 12 then leBytes 4 ((upFrom 0 8).foldl (fun a k => a + one k % 16 * 2 ^ (4 * k)) 0)
  else leBytes n (one 0)

/-- The physical bytes of a range at a put's destination, or the sub-cause and the DVA of its failure. -/
def putRange (s : State) (m : PutMsg) : List (Nat × Nat) → Except (Nat × Nat) Place
  | [] => .ok []
  | (a, n) :: l =>
    match walkPa s (BitVec.ofNat 4 m.p.part) m.sec .write a with
    | .error k => .error (k, a)
    | .ok (pa, r) => match putRange s m l with
      | .ok ps => .ok ((pa, n, r) :: ps)
      | .error e => .error e

/-- The value of a range of physical pieces: none where one is poisoned. -/
def rangeVal (s : State) (p : Place) : Option (List Byte) := if p.bad s then none else some (p.bytes s)

/-- Who writes a put's lines (R283, R328, R427). -/
def PutMsg.writer (m : PutMsg) : Writer := ⟨none, 0, m.cid, some m.num⟩

/-- A piece of a put lands, or fails with a sub-cause at a DVA. [DESIGN CHOICE: log 53] -/
def landPiece (s : State) (m : PutMsg) (u off n : Nat) : Except (Nat × Nat) State :=
  let p := m.p
  let a := putAt p u off
  let line := p.data.getD u []
  match putRange s m (wordPieces 9 a n) with
  | .error e => .error e
  | .ok ps =>
    if p.h = 0 then .ok (writeAt m.writer ps ((line.drop off).take n) s)
    else
      let hdr := rowScaled p.fmt
      match putRange s m (if hdr then wordPieces 9 ((putAt p u 0)) 4 else []) with
      | .error e => .error e
      | .ok hs =>
        match rangeVal s ps, rangeVal s hs with
        | some d, some h =>
          .ok (writeAt m.writer ps (combinePut p (leVal ((line.drop off).take n)) (leVal d)
            (if hdr then leVal (line.take 4) else 0) (leVal h) n) s)
        | _, _ => .error (0x13, a)

/-- A tag is older than a step (R281). -/
def older (tag step : Nat) : Bool := let d := (step + 2 ^ 16 - tag) % 2 ^ 16; 1 ≤ d && d ≤ 32767

/-- The late notice of a put (Table 21.5). -/
def lateWord (tag : BitVec 16) (step dev : Nat) : Word := hwWord 0x0C (tag.toNat * 2 ^ 32 + step * 2 ^ 16 + dev % 2 ^ 12)

/-- A put's notice reaches its issuer: on this device as a word, on another one through the pod's fabric. -/
def notifyPut (s : State) (m : PutMsg) (w : Word) : State :=
  match m.cid with
  | some cid => postHw s cid m.p.issuer w
  | none => { s with outbox := s.outbox ++ [leBytes 2 m.dev ++ leBytes 4 m.p.issuer ++ leBytes 8 w.toNat] }

/-- A put ends: it leaves the network, and the command that sent it is done, with the fault given (R255, R283). -/
def endPut (s : State) (i : Nat) (m : PutMsg) (bad : Cmd → Option (BitVec 8 × Word)) : State :=
  let s := { s with puts := dropAt s.puts i }
  match m.cid with
  | none => s
  | some cid =>
    match currentCmd s cid .link with
    | some (j, c) => setCmd s cid .link j { c with prog := { c.prog with done := true, fault := (bad c).or c.prog.fault } }
    | none => s

/-- A put fails at its destination (R283): its command faults with the remote DVA. -/
def failPut (s : State) (i : Nat) (m : PutMsg) (sub dva : Nat) : State :=
  endPut s i m fun c => some (faultInfo .link c 0 ⟨BitVec.ofNat 8 sub, 0, false, some dva⟩)

/-- Another piece of a put that was not late lands; after its last piece a put without a counter ends (R283). -/
def landNext (s : State) (i : Nat) (m : PutMsg) : State :=
  match (putPieces m.p)[m.pos]? with
  | none => if m.p.ctr.isNone || m.short then endPut s i m fun _ => none else s
  | some (u, off, n) =>
    match landPiece s m u off n with
    | .error (k, a) => failPut s i m k a
    | .ok t => { t with puts := setAt t.puts i { m with judged := true, pos := m.pos + 1 } }

/-- A reduce put that its counter's step makes late: `late` rises, and with `ln` its issuer is told (R283). -/
def latePut (s : State) (i : Nat) (m : PutMsg) (pa : Nat × Page) (step : Nat) : State :=
  let s := writeAt Writer.outside [(pa.1 + 8, 8, pa.2)] (leBytes 8 (s.rdKey pa.2.key (pa.1 + 8) 8 + 1)) s
  let s := if m.p.ln then notifyPut s m (lateWord m.p.tag step s.devNum) else s
  endPut s i m fun _ => none

/-- A put at this device: judged with its first line, then landed piece by piece (R283, R421). -/
def arriveHere (s : State) (i : Nat) (m : PutMsg) : State :=
  if m.judged || m.p.h = 0 then landNext s i m
  else match m.p.ctr with
    | none => landNext s i m
    | some v =>
      match ctrPa s (BitVec.ofNat 4 m.p.part) m.sec v with
      | .error k => failPut s i m k v
      | .ok pa =>
        let step := nbits (s.rdKey pa.2.key pa.1 8) 63 48
        if older m.p.tag.toNat step then latePut s i m pa step else landNext s i m

/-- What another device answers to a put of this one (R283): only a reduce put with a counter is ever late (R421). -/
def answered (s : State) (i : Nat) (m : PutMsg) (r : Remote) : State :=
  match r with
  | .failed sub dva => failPut s i m sub.toNat dva
  | .late step =>
    if m.p.h = 0 || m.p.ctr.isNone then all
    else
      let s := if m.p.ln then notifyPut s m (lateWord m.p.tag step.toNat m.dev) else s
      endPut s i m fun _ => none
  | .applied => all
where
  /-- Every line has been applied. -/
  all : State :=
    if m.p.ctr.isNone || m.short then endPut s i m fun _ => none
    else { s with puts := setAt s.puts i { m with judged := true, pos := (putPieces m.p).length } }

/-- A put's line reaches its destination (R283): one of this device's puts, or a new one from another device. [DESIGN CHOICE: log 48] -/
def putArrives (r : PutRef) (s : State) : State :=
  match r with
  | .inbound p =>
    let m : PutMsg := ⟨none, p.dev, p, false, false, false, 0, s.pseq⟩
    arriveHere { s with puts := s.puts ++ [m], pseq := s.pseq + 1 } s.puts.length m
  | .own i x =>
    match s.puts[i]? with
    | none => s
    | some m =>
      if m.cid.any (isolated s) then s
      else if m.cid.isNone || m.dev = s.devNum then arriveHere s i m else if m.judged then s else answered s i m x
/-- The step of `PUT_ARRIVAL` (R283). -/
def execPutArrival (p : PutRef) (s : State) : Out := runEvent (putArrives p) s

/-- Every piece of a put has been performed, at every copy of a replicated page too (R283). -/
def landedAll (s : State) (m : PutMsg) : Bool := m.pos = (putPieces m.p).length && !(s.props.any fun p => p.put = some m.num)

/-- A put's lines are all performed: the count of its counter rises by 1 as a release, watches and armed puts that wait for it
fire, and the put ends (R283, R285, R286). On another device that device counts. -/
def incrementPut (i : Nat) (s : State) : State :=
  match s.puts[i]? with
  | none => s
  | some m =>
    match m.p.ctr with
    | none => s
    | some v =>
      if m.short || !landedAll s m || (m.p.h != 0 && !m.judged) || m.cid.any (isolated s) then s
      else if m.cid.isSome && m.dev != s.devNum then endPut s i m fun _ => none
      else match ctrPa s (BitVec.ofNat 4 m.p.part) m.sec v with
        | .error k => failPut s i m k v
        | .ok pa =>
          let w := s.rdKey pa.2.key pa.1 8
          let bs := leBytes 8 (w / 2 ^ 48 * 2 ^ 48 + (w % 2 ^ 48 + 1) % 2 ^ 48)
          endPut (writeAt Writer.outside [(pa.1, 8, pa.2)] bs s) i m fun _ => none
/-- The step of `PUT_COUNTER_INCREMENT` (R283). -/
def execPutCounterIncrement (i : Nat) (s : State) : Out := runEvent (incrementPut i) s

/-- A put that cannot be delivered completes with the fault cause 0xFD (R420). -/
def undeliverable (i : Nat) (s : State) : State :=
  match s.puts[i]? with
  | none => s
  | some m => if m.cid.isNone || m.dev = s.devNum || m.judged then s else endPut s i m fun _ => some (0xFD, 0)
/-- The step of `PUT_UNDELIVERABLE` (R420). -/
def execPutUndeliverable (i : Nat) (s : State) : Out := runEvent (undeliverable i) s

end Sys2Proof.Machine
end

