-- ==== Sys2Proof/Machine/Matrix.lean ====
section
/-! DEFINITION. The matrix array (R260–R268): weight loading, the exchange of planes, streaming and draining. -/

namespace Sys2Proof.Machine

open Sys2Proof.Config

/-! ## Issue -/

/-- A matrix command's first check is the lease (R260), before its fields (R232). -/
def mxFields (t : T64) : M Unit := do
  noMigrant
  needLease
  engFields t

/-- The formats of weights (R263). -/
def weightFmt (f : BitVec 7) : Bool := let c := fCode f; (6 ≤ c && c ≤ 10) || c = 12

/-- `mxldst` issues (R263, R265). -/
def bodyMxldst (t : T64) : M Unit := do
  mxFields t
  let av ← readReg t.a
  let bv ← readReg t.b
  let sp := t.spec.getLsbD 0
  let a ← useTile av 1 t.a false
  let b ← useTile bv 2 t.b false
  noHandle t
  badTile (!weightFmt a.fmt || decide (64 < a.rows) || decide (64 < a.cols) || (sp && a.rows % 2 = 1)) 1 t.a
  badTile (!isRaw b.fmt || b.rows != 1 || decide (b.cols < 32 + if sp then 16 * a.cols else 0)) 2 t.b
  enqueue .matrix { blankCmd (.mxldst sp) t with at_ := some a, bt := some b } 0
/-- The step of `mxldst` (R263). -/
def execMxldst (t : T64) (s : State) : Out := runInstr 8 (bodyMxldst t) s

/-- `mxswap` issues (R265). -/
def bodyMxswap (t : T64) : M Unit := do
  mxFields t
  noHandle t
  enqueue .matrix (blankCmd .mxswap t) 0
/-- The step of `mxswap` (R265). -/
def execMxswap (t : T64) (s : State) : Out := runInstr 8 (bodyMxswap t) s

/-- `mxstrm` issues (R266). -/
def bodyMxstrm (t : T64) : M Unit := do
  mxFields t
  let av ← readReg t.a
  let a ← useTile av 1 t.a false
  noHandle t
  let arow := (t.spec.extractLsb' 0 6).toNat
  let shape := ((← get).core (mbaCid (← get).cur)).mx.issuedA
  badTile (!scalable (fCode a.fmt) || decide (64 < a.rows) || decide (64 < arow + a.rows) || !streamFits shape a) 1 t.a
  enqueue .matrix { blankCmd (.mxstrm arow (t.spec.getLsbD 6)) t with at_ := some a } 0
/-- The step of `mxstrm` (R266). -/
def execMxstrm (t : T64) (s : State) : Out := runInstr 8 (bodyMxstrm t) s

/-- `mxdrain` issues (R267). -/
def bodyMxdrain (t : T64) : M Unit := do
  mxFields t
  let ep := fbit t 5
  let bs := fbit t 6
  let arow := (t.spec.extractLsb' 0 6).toNat
  let acol := (t.spec.extractLsb' 6 8).toNat
  let bv ← if bs then readReg t.b else pure 0
  let dv ← readReg t.d
  let c ← engConst t
  let d ← useTile dv 0 t.d true
  let b ← if bs then some <$> useTile bv 2 t.b false else pure none
  let o ← if ep then some <$> bindOper .matrix t.h 5 else do noHandle t; pure none
  badTile (decide (64 < arow + d.rows) || decide (256 < acol + d.cols)) 0 t.d
  badTile (isRaw d.fmt) 0 t.d
  raiseIf (match o with | some o => o.inF != 5 | none => false) 0x02 t.h.toNat
  badTile (match b with | some b => !ep || b.rows != 1 || b.cols != d.cols || isRaw b.fmt | none => false) 2 t.b
  let per := match o with
    | some o => o.draws + (match b with | some b => one? (inRounds b.fmt o.inF) | none => 0) + one? (outRounds d.fmt o.outF)
    | none => one? (outRounds d.fmt 5)
  enqueue .matrix { blankCmd (.mxdrain arow acol bs (t.spec.getLsbD 14)) t with dt := some d, bt := b, oper := o, cv := c } (d.size * per)
/-- The step of `mxdrain` (R267). -/
def execMxdrain (t : T64) (s : State) : Out := runInstr 8 (bodyMxdrain t) s

/-! ## Running -/

/-- The reads of bytes `lo` up to `lo + n` of a metadata row (Table 10.4). -/
def metaSrcs (b : Tile) (lo n : Nat) : List Src := (upFrom lo n).map fun (j : Nat) => b.srcOf 0 j

/-- Placed columns: how many of the weight tile's columns have a live column (R264). -/
def placed (c : Cmd) : Nat := c.prog.keep.length

/-- The reads of a unit of a matrix command. -/
def mxSrcs (c : Cmd) (u : Nat) : List Src :=
  match c.op, c.at_, c.bt with
  | .mxldst sp, some a, some b =>
    if u = 0 then metaSrcs b 0 32
    else (if sp then metaSrcs b 32 (16 * placed c) else [])
      ++ (upFrom 0 a.rows).flatMap fun (i : Nat) => (upFrom 0 (placed c)).map fun (j : Nat) => a.srcOf i j
  | .mxstrm .., some a, _ => (places a false u).map fun p => a.srcOf p.1 p.2
  | .mxdrain _ _ true _, _, some b =>
    match c.dt with
    | some d => (places d c.whole u).map fun p => b.srcOf 0 p.2
    | none => []
  | _, _, _ => []

/-- Units of a matrix command. -/
def mxUnits (c : Cmd) : Nat :=
  match c.op, c.at_, c.dt with
  | .mxldst _, _, _ => 2
  | .mxswap, _, _ => 1
  | .mxstrm .., some a, _ => a.rows
  | _, _, some d => if c.whole then 1 else d.rows
  | _, _, _ => 0

/-- The bytes that one-byte reads found, as a number; none where one is poisoned. -/
def bytesVal : List (Option Word) → Option Nat
  | [] => some 0
  | none :: _ => none
  | some w :: l => (bytesVal l).map fun v => w.toNat % 256 + 256 * v

/-- The logical columns of the live-column bitmap, ascending (R264). -/
def liveCols (bits : Nat) : List Nat := (upFrom 0 256).filter fun n => nbit bits n

/-- Elements decoded into `f32`, in order, with the first fault and its place (R264, R266). -/
def decodeAll (v : CmdEnv) : List (Tile × Nat × Option Word) → Nat → Except (Nat × EFault) (List W32 × BitVec 6)
  | [], _ => .ok ([], 0)
  | (t, e, w) :: l, n =>
    match ((evIn v t e w 5).run ⟨0, 0, 0⟩).1 with
    | .error x => .error (n, x.2)
    | .ok b =>
      match decodeAll v l (n + 1) with
      | .ok (r, f) => .ok (BitVec.ofNat 32 b.1 :: r, b.2 ||| f)
      | .error x => .error x

/-- The plane that a weight load leaves (R264): its values in rows of `k` placed columns. -/
def loadedPlane (a : Tile) (sp : Bool) (cols : List Nat) (vals : List W32) (idx : List (Option Word)) : Plane :=
  let k := cols.length
  { rows := a.rows, sp := sp, fmt := BitVec.ofNat 4 (fCode a.fmt),
    cols := (cols.zip (upFrom 0 k)).map fun (x : Nat × Nat) =>
      let bits := (bytesVal ((idx.drop (16 * x.2)).take 16)).getD 0
      ⟨x.1, (upFrom 0 a.rows).map fun i => vals.getD (i * k + x.2) 0,
        (upFrom 0 a.rows).map fun i => if sp then nbits bits (2 * i + 1) (2 * i) else 0⟩ }

/-- A command's unit is done. -/
def Cmd.nextUnit (c : Cmd) (f : BitVec 6) : Cmd :=
  { c with prog := { c.prog with unit := c.prog.unit + 1, reads := [], flags := c.prog.flags ||| f } }

/-- A unit of `mxldst` whose reads are complete (R264, R268). -/
def unitMxldst (s : State) (cid i : Nat) (c : Cmd) (sp : Bool) (a : Tile) : State :=
  let fail := fun (out : Nat) (f : EFault) => setCmd s cid .matrix i (c.failed .matrix out f)
  if c.prog.unit = 0 then
    match bytesVal c.prog.reads with
    | none => fail 0 ⟨0x13, 0, false, none⟩
    | some b =>
      setCmd s cid .matrix i
        { c.nextUnit 0 with prog := { (c.nextUnit 0).prog with keep := ((liveCols b).take a.cols).map fun n => BitVec.ofNat 64 n } }
  else
    let k := placed c
    let m := if sp then 16 * k else 0
    let idx := c.prog.reads.take m
    let els := ((places { a with cols := k } true 0).zip (c.prog.reads.drop m)).map fun (x : (Nat × Nat) × Option Word) =>
      (a, (a.at x.1.1 x.1.2).2, x.2)
    if idx.any Option.isNone then fail 0 ⟨0x13, 0, false, none⟩
    else match decodeAll (c.env .matrix) els 0 with
      | .error (n, f) => fail (n / k) f
      | .ok (vals, f) =>
        setCmd (s.modMx cid fun x => { x with shadow := loadedPlane a sp (c.prog.keep.map (·.toNat)) vals idx })
          cid .matrix i (c.nextUnit f)

/-- One accumulation of a stream (R80, R266). [DESIGN CHOICE: log 97] -/
def accStep (w a v : W32) : W32 :=
  BitVec.ofNat 32 (fFma 5 rne (decodeF 5 w.toNat) (decodeF 5 a.toNat) (decodeF 5 v.toNat)).1

/-- A cell of the accumulator plane after a row streamed past a column (R266). -/
def streamCell (sp : Bool) (row : List W32) (m : Nat) (p : PCol) : (s : Nat) → List W32 → W32 → W32
  | _, [], v => v
  | s, w :: ws, v =>
    let k := if sp then 4 * (s / 2) + p.idx.getD s 0 else s
    streamCell sp row m p (s + 1) ws (accStep w ((row[k]?).getD (strayActivation m k)) v)

/-- A row of `mxstrm` whose elements have been read (R266, R268). -/
def unitMxstrm (s : State) (cid i : Nat) (c : Cmd) (arow : Nat) (clr : Bool) (a : Tile) : State :=
  let u := c.prog.unit
  let els := ((places a false u).zip c.prog.reads).map fun (x : (Nat × Nat) × Option Word) => (a, (a.at x.1.1 x.1.2).2, x.2)
  match decodeAll (c.env .matrix) els 0 with
  | .error (_, f) => setCmd s cid .matrix i (c.failed .matrix u f)
  | .ok (row, f) =>
    let m := arow + u
    let s := s.modMx cid fun x => { x with
      acc := x.active.cols.foldl (fun t p =>
        let key := m * 256 + p.n
        tset t key (streamCell x.active.sp row m p 0 p.w (if clr then 0 else tget 0 t key))) x.acc }
    setCmd s cid .matrix i (c.nextUnit f)

/-- One output of `mxdrain` (R267). -/
def drainEval (s : State) (cid : Nat) (c : Cmd) (v : CmdEnv) (d : Tile) (arow acol : Nat) (p : Nat × Nat) (w : Option (Option Word)) :
    EvM OutVal := do
  let q := p.1 * d.cols + p.2
  let l : EVal := .ok ((tget 0 (s.core cid).mx.acc ((arow + p.1) * 256 + acol + p.2)).toNat, 0)
  match c.oper with
  | none => outAt v d p.1 p.2 l 5
  | some o =>
    let r ← match c.bt, w with
      | some b, some w => evIn v b (b.at 0 p.2).2 w 5
      | _, _ => pure (.ok (0, 0))
    outAt v d p.1 p.2 (← evApp v o 5 5 l r q c.cv) o.outF

/-- A unit of `mxdrain` whose reads are complete (R267). -/
def unitMxdrain (s : State) (cid i : Nat) (c : Cmd) (arow acol : Nat) (d : Tile) : State :=
  let ps := places d c.whole c.prog.unit
  let ws := c.prog.reads.map some ++ List.replicate ps.length none
  let ev := (ps.zip ws).mapM fun (x : (Nat × Nat) × Option (Option Word)) =>
    drainEval s cid c (c.env .matrix) d arow acol x.1 x.2
  setCmd s cid .matrix i (c.evaluated .matrix d ev)

/-- A unit of a matrix command whose reads are complete. -/
def mxUnit (s : State) (cid i : Nat) (c : Cmd) : State :=
  match c.op, c.at_, c.dt with
  | .mxldst sp, some a, _ => unitMxldst s cid i c sp a
  | .mxswap, _, _ =>
    setCmd (s.modMx cid fun x => { x with active := x.shadow, shadow := x.active }) cid .matrix i (c.nextUnit 0)
  | .mxstrm arow clr, some a, _ => unitMxstrm s cid i c arow clr a
  | .mxdrain arow acol _ _, _, some d => unitMxdrain s cid i c arow acol d
  | _, _, _ => setCmd s cid .matrix i (c.nextUnit 0)

end Sys2Proof.Machine
end

