-- ==== Sys2Proof/Machine/Pyramid.lean ====
section
/-! DEFINITION. The pyramid port (R269–R280): the fretboard, weight sets, restrict and prolong. -/

namespace Sys2Proof.Machine

open Sys2Proof.Config

/-! ## Issue -/

/-- `lvset MAP` (R269). -/
def bodyLvsetImm (t : T64) : M Unit := do
  noMigrant
  modMe fun c => { c with fretboard := t.w1 }
/-- The step of `lvset MAP`. -/
def execLvsetImm (t : T64) (s : State) : Out := runInstr 8 (bodyLvsetImm t) s

/-- `lvset xA` (R269). -/
def bodyLvsetReg (t : T64) : M Unit := do
  noMigrant
  let v ← readReg t.a
  raiseIf (decide (2 ^ 32 ≤ v.toNat)) 0x02 v.toNat
  modMe fun c => { c with fretboard := v.setWidth 32 }
/-- The step of `lvset xA`. -/
def execLvsetReg (t : T64) (s : State) : Out := runInstr 8 (bodyLvsetReg t) s

/-- `wld` issues (R271). -/
def bodyWld (t : T64) : M Unit := do
  engFields t
  let av ← readReg t.a
  let a ← useTile av 1 t.a false
  noHandle t
  badTile (!((a.rows = 1 && a.cols = 9) || (a.rows = 3 && a.cols = 3)) || fCode a.fmt != 5 || fMode a.fmt != 0) 1 t.a
  enqueue .pyramid { blankCmd (.wld (t.spec.extractLsb' 0 3).toNat) t with at_ := some a } 0
/-- The step of `wld` (R271). -/
def execWld (t : T64) (s : State) : Out := runInstr 8 (bodyWld t) s

/-- The layer to which a fretboard maps a level (R269). -/
def levelLayer (fb : W32) (l : Nat) : Nat := nbits fb.toNat (2 * l + 1) (2 * l)

/-- The levels that a pyramid command names. -/
def levels (t : T64) : Nat × Nat := ((t.spec.extractLsb' 8 4).toNat, (t.spec.extractLsb' 12 4).toNat)
/-- `mask` of a pyramid command. -/
def maskOf (t : T64) : BitVec 4 := t.spec.extractLsb' 4 4
/-- `shx` of a pyramid command. -/
def shxOf (t : T64) : Bool := t.spec.getLsbD 3
/-- A mask fits a shape: for shape X it lies within {0, 1} or {2, 3} (R273). -/
def maskFits (shx : Bool) (m : BitVec 4) : Bool := !shx || m &&& 0xC = 0 || m &&& 3 = 0

/-- The shape relation of a coarse and a fine interior (R273). -/
def shapeFits (shx : Bool) (fine coarse : Tile) : Bool :=
  coarse.cols = cdiv fine.cols 2 && coarse.rows = if shx then fine.rows else cdiv fine.rows 2

/-- The cores that a crossing command reaches: the parent, or the children that the mask names (R272, R280). -/
def reached (cid : Nat) (up : Bool) (mask : BitVec 4) : List Nat :=
  if up then [parentOf cid] else ((upFrom 0 4).filter fun k => mask.getLsbD k).map (childOf cid)

/-- Checks the fretboard's word on the levels; `up` says that a crossing goes to the layer above. The answer says whether the
command crosses (R272, R273, R280). A crossing to a core that does not belong to the issuer's partition fails here (R5, R383).
[DESIGN CHOICE: log 91] -/
def checkLevels (t : T64) (up : Bool) : M Bool := do
  let s ← get
  let cid := mbaCid s.cur
  let (ls, ld) := levels t
  let fb := s.me.fretboard
  let la := s.layer
  let ld' := levelLayer fb ld
  let cross := if up then ld' = la + 1 && la ≤ 2 else ld' + 1 = la
  raiseIf (levelLayer fb ls != la || !(ld' = la || cross)
    || (cross && !((reached cid up (maskOf t)).all (coreIn s s.me.part.toNat)))) 0x02 (16 * ld + ls)
  return cross

/-- `rstr` issues (R273). -/
def bodyRstr (t : T64) : M Unit := do
  engFields t
  let av ← readReg t.a
  let dv ← readReg t.d
  let cross ← checkLevels t true
  let s ← get
  let cid := mbaCid s.cur
  let d := tileAt s (if cross then parentOf cid else cid) dv
  let a := tileAt s cid av
  badTile (24 ≤ tileCore dv && tileCore dv ≤ 30 || tileBad d dv true) 0 t.d
  badTile (24 ≤ tileCore av && tileCore av ≤ 30 || tileBad a av false) 1 t.a
  badTile (tileCore dv != 31) 0 t.d
  badTile (tileCore av != 31 || !a.pad) 1 t.a
  badTile (!shapeFits (shxOf t) a d) 0 t.d
  let mask := maskOf t
  raiseIf (cross && (!mask.getLsbD (cidChild cid) || !maskFits (shxOf t) mask)) 0x02 mask.toNat
  let o ← if fbit t 5 then some <$> bindOper .pyramid t.h 5 else do noHandle t; pure none
  raiseIf (match o with | some o => o.inF != 5 || o.outF != 5 | none => false) 0x02 t.h.toNat
  if o.isSome then noRaw [(d, 0, t.d), (a, 1, t.a)] else pure ()
  let w := (t.spec.extractLsb' 0 3).toNat
  enqueue .pyramid { blankCmd (.rstr w (shxOf t) mask (t.spec.extractLsb' 12 4) cross) t with
    dt := some d, at_ := some a, oper := o } 0
/-- The step of `rstr` (R272). -/
def execRstr (t : T64) (s : State) : Out := runInstr 8 (bodyRstr t) s

/-- `prol` issues (R280). -/
def bodyProl (t : T64) : M Unit := do
  engFields t
  let av ← readReg t.a
  let dv ← readReg t.d
  let cross ← checkLevels t false
  let s ← get
  let cid := mbaCid s.cur
  let mask := maskOf t
  let kids := (upFrom 0 4).filter fun k => mask.getLsbD k
  let ds := if cross then (if kids.isEmpty then [0] else kids).map fun k => tileAt s (childOf cid k) dv else [tileAt s cid dv]
  let a := tileAt s cid av
  badTile (24 ≤ tileCore dv && tileCore dv ≤ 30 || ds.any fun d => tileBad d dv true) 0 t.d
  badTile (24 ≤ tileCore av && tileCore av ≤ 30 || tileBad a av false) 1 t.a
  badTile (tileCore dv != 31) 0 t.d
  badTile (tileCore av != 31 || !a.pad) 1 t.a
  badTile (ds.any fun d => !shapeFits (shxOf t) d a) 0 t.d
  raiseIf (cross && (mask = 0 || !maskFits (shxOf t) mask)) 0x02 mask.toNat
  noHandle t
  let w := (t.spec.extractLsb' 0 3).toNat
  enqueue .pyramid { blankCmd (.prol w (shxOf t) mask (t.spec.getLsbD 16) cross) t with at_ := some a, dts := ds } 0
/-- The step of `prol` (R280). -/
def execProl (t : T64) (s : State) : Out := runInstr 8 (bodyProl t) s

/-! ## Reads and units -/

/-- The places of a 3 × 3 stencil in row-major order. -/
def stencil : List (Nat × Nat) := [(0, 0), (0, 1), (0, 2), (1, 0), (1, 1), (1, 2), (2, 0), (2, 1), (2, 2)]

/-- The fine elements of a coarse element (R274). -/
def fineOf (shx : Bool) (p : Nat × Nat) : List (Int × Int) :=
  stencil.map fun rs => ((if shx then 1 else 2) * (p.1 : Int) + rs.1 - 1, 2 * (p.2 : Int) + rs.2 - 1)

/-- The coarse elements that reach a fine element, with their places in the stencil (R280). -/
def coarseOf (shx : Bool) (p : Nat × Nat) : List (Nat × Int × Int) :=
  (stencil.zip (upFrom 0 9)).filterMap fun (x : (Nat × Nat) × Nat) =>
    let m : Int := if shx then 1 else 2
    let y : Int := (p.1 : Int) - x.1.1 + 1
    let z : Int := (p.2 : Int) - x.1.2 + 1
    if y % m = 0 ∧ z % 2 = 0 then some (x.2, y / m, z / 2) else none

/-- The destination, its number and its row (none: all rows) of a unit of a prolong. -/
def prolUnit (c : Cmd) (u : Nat) : Option (Tile × Nat × Option Nat) :=
  match c.dts with
  | [] => none
  | d :: _ =>
    let per := prolRows d
    (c.dts[u / per]?).map fun t => (t, u / per, if d.cmaj then none else some (u % per))

/-- The places of a unit of a prolong. -/
def prolPlaces (d : Tile) (r : Option Nat) : List (Nat × Nat) :=
  match r with | some r => places d false r | none => places d true 0

/-- Units of a pyramid command. -/
def pyUnits (c : Cmd) : Nat :=
  match c.op, c.dt, c.dts with
  | .wld _, _, _ => 1
  | .rstr _ _ _ _ cross, some d, _ => if d.cmaj && !cross then 1 else d.rows
  | .prol .., _, d :: l => (l.length + 1) * prolRows d
  | _, _, _ => 0

/-- The coarse places of a unit of a restrict. -/
def rstrPlaces (d : Tile) (cross : Bool) (u : Nat) : List (Nat × Nat) := places d (d.cmaj && !cross) u

/-- The reads of a unit of a pyramid command. [DEDUCED: log 42] -/
def pySrcs (c : Cmd) (u : Nat) : List Src :=
  match c.op, c.at_, c.dt with
  | .wld _, some a, _ => (places a true 0).map fun p => a.srcOf p.1 p.2
  | .rstr _ shx _ _ cross, some a, some d =>
    (rstrPlaces d cross u).flatMap fun p => (fineOf shx p).map fun x => a.srcOf x.1 x.2
  | .prol _ shx _ add _, some a, _ =>
    match prolUnit c u with
    | none => []
    | some (d, _, r) => (prolPlaces d r).flatMap fun p =>
      ((coarseOf shx p).map fun x => a.srcOf x.2.1 x.2.2) ++ if add then [{ d.srcOf p.1 p.2 with sw := false }] else []
  | _, _, _ => []

/-! ## Evaluation -/

/-- A weight of a core's set (R271). -/
def weight (s : State) (cid w k : Nat) : W32 := tget 0 (s.core cid).wset (9 * w + k)

/-- The environment of the port's own sums: RNE, with the command's overflow policy and trap enables (R66, R75, R76, R81). -/
def CmdEnv.sums (v : CmdEnv) : CmdEnv := { v with env := { v.env with rnd := 1 }, rtn := false }
/-- `w × x + p` in `f32` under RNE (R81, R274, R280). -/
def fmaVal (v : CmdEnv) (w : W32) (x p : EVal) : EvM EVal :=
  evTwo v.sums 0 x p fun e _ _ a b => v.sums.check 0 (fFma 5 e (decodeF 5 w.toNat) (decodeF 5 a) (decodeF 5 b))
/-- `x + p` in `f32` under RNE (R276, R280). -/
def addVal (v : CmdEnv) (x p : EVal) : EvM EVal :=
  evTwo v.sums 0 x p fun e _ _ a b => v.sums.check 0 (fAdd 5 e (decodeF 5 a) (decodeF 5 b))

/-- A partial of a restrict, from its first value (R274). -/
def partialFrom (v : CmdEnv) (o : Option Oper) (w : Nat → W32) (a : Tile) : Nat → EVal → List ((Int × Int) × Option Word) → EvM EVal
  | _, p, [] => pure p
  | k, p, (x, r) :: l => do
    let x ← evIn v a (a.at x.1 x.2).2 r 5
    match o with
    | none => do partialFrom v o w a (k + 1) (← fmaVal v (w k) x p) l
    | some f => do partialFrom v o w a (k + 1) (← evApp v f 5 5 p x k ((w k).setWidth 64)) l

/-- The partials of coarse elements (R274). -/
def partials (v : CmdEnv) (o : Option Oper) (w : Nat → W32) (a : Tile) (shx : Bool) :
    List (Nat × Nat) → List (Option Word) → EvM (List EVal)
  | [], _ => pure []
  | p :: l, ws => do
    let x ← partialFrom v o w a 0 (.ok (0, 0)) ((fineOf shx p).zip ws)
    return x :: (← partials v o w a shx l (ws.drop 9))

/-- The values before the first faulting one, with their flags, and that fault's place. -/
def okPrefix : List EVal → Nat → List Word × BitVec 6 × Option (Nat × EFault)
  | [], _ => ([], 0, none)
  | .ok b :: l, n => let (r, f, x) := okPrefix l (n + 1); (BitVec.ofNat 64 b.1 :: r, f ||| b.2, x)
  | .error x :: _, n => ([], 0, some (n, x.2))

/-- A unit of a restrict whose reads are complete: a folded one writes its partials (R277); a crossing one keeps what it has read for its
instance, whose governing participant's mode its partials take (R278), and reads nothing behind a poisoned word (R255). [DEDUCED: log 121] -/
def unitRstr (s : State) (cid i : Nat) (c : Cmd) (wset : Nat) (shx cross : Bool) (a d : Tile) : State :=
  let u := c.prog.unit
  if cross then
    let p := c.prog
    setCmd s cid .pyramid i { c with prog := { p with
      unit := if p.reads.any Option.isNone then d.rows else u + 1, reads := [], words := p.words ++ p.reads } }
  else
    let v := c.env .pyramid
    let ps := rstrPlaces d cross u
    let ev : EvM (List OutVal) := do
      let xs ← partials v c.oper (weight s cid wset) a shx ps c.prog.reads
      (ps.zip xs).mapM fun (x : (Nat × Nat) × EVal) => outAt v d x.1.1 x.1.2 x.2 5
    setCmd s cid .pyramid i (c.evaluated .pyramid d ev)

/-- The value of a fine element before it is written (R280). -/
def fineFrom (v : CmdEnv) (w : Nat → W32) (a : Tile) : EVal → List ((Nat × Int × Int) × Option Word) → EvM EVal
  | p, [] => pure p
  | p, (x, r) :: l => do
    let c ← evIn v a (a.at x.2.1 x.2.2).2 r 5
    fineFrom v w a (← fmaVal v (w x.1) c p) l

/-- The outputs of a prolong (R280). -/
def fineOuts (v : CmdEnv) (w : Nat → W32) (a d : Tile) (shx add : Bool) :
    List (Nat × Nat) → List (Option Word) → EvM (List OutVal)
  | [], _ => pure []
  | p :: l, ws => do
    let cs := coarseOf shx p
    let x ← fineFrom v w a (.ok (0, 0)) (cs.zip ws)
    let n := cs.length
    let x ← if add then do
        let old ← evIn v d (d.at p.1 p.2).2 (ws.getD n none) 5
        addVal v old x
      else pure x
    let y ← outAt v d p.1 p.2 x 5
    return y :: (← fineOuts v w a d shx add l (ws.drop (n + if add then 1 else 0)))

/-- A unit of a prolong whose reads are complete: a fault ends its child, and the next child follows (R280). -/
def unitProl (s : State) (cid i : Nat) (c : Cmd) (wset : Nat) (shx add : Bool) (a : Tile) : State :=
  let u := c.prog.unit
  match prolUnit c u with
  | none => setCmd s cid .pyramid i (c.nextUnit 0)
  | some (d, k, r) =>
    let ev := fineOuts (c.env .pyramid) (weight s cid wset) a d shx add (prolPlaces d r) c.prog.reads
    let c' := c.evaluated .pyramid d ev
    let bad := c'.prog.fault.isSome
    setCmd s cid .pyramid i { c' with prog := { c'.prog with
      unit := if bad then (k + 1) * prolRows d else u + 1, fault := c.prog.fault.or c'.prog.fault,
      keep := if bad && c.prog.fault.isNone then [BitVec.ofNat 64 k] else c.prog.keep } }

/-- `wld` has read its nine weights (R271). -/
def unitWld (s : State) (cid i : Nat) (c : Cmd) (wset : Nat) (a : Tile) : State :=
  let els := ((places a true 0).zip c.prog.reads).map fun (x : (Nat × Nat) × Option Word) => (a, (a.at x.1.1 x.1.2).2, x.2)
  match decodeAll (c.env .pyramid) els 0 with
  | .error (_, f) => setCmd s cid .pyramid i (c.failed .pyramid 0 f)
  | .ok (ws, f) =>
    let s := s.modCore cid fun k => { k with
      wset := (ws.zip (upFrom 0 9)).foldl (fun t (x : W32 × Nat) => tset t (9 * wset + x.2) x.1) k.wset }
    setCmd s cid .pyramid i (c.nextUnit f)

/-- A unit of a pyramid command whose reads are complete. -/
def pyUnit (s : State) (cid i : Nat) (c : Cmd) : State :=
  match c.op, c.at_, c.dt with
  | .wld w, some a, _ => unitWld s cid i c w a
  | .rstr w shx _ _ cross, some a, some d => unitRstr s cid i c w shx cross a d
  | .prol w shx _ add _, some a, _ => unitProl s cid i c w shx add a
  | _, _, _ => setCmd s cid .pyramid i (c.nextUnit 0)

/-! ## Restrict instances (R275, R276, R279) -/

/-- The slot of a crossing restrict at its parent (R275). -/
def slotKey (cid : Nat) (shx : Bool) : Nat := 4 * parentOf cid + if shx then 1 + cidChild cid / 2 else 0

/-- A slot of a parent. -/
def State.rslot (s : State) (k : Nat) : RInst := tget RInst.init s.rinst k
/-- Replaces a slot of a parent. -/
def State.setRslot (s : State) (k : Nat) (r : RInst) : State := { s with rinst := tset s.rinst k r }

/-- The fault of a participant that disagrees (R275). -/
def disagree (c : Cmd) : BitVec 8 × Word := faultInfo .pyramid { c with oper := none } 0 ⟨0x02, 0, false, none⟩

/-- A participant brings what it has read to its instance (R275). Its next one waits until the current instance has been written; one
whose own count is behind the slot's is one that the written instance did not name. [DEDUCED: log 41] -/
def joinInstance (s : State) (cid i : Nat) (c : Cmd) (shx : Bool) (rows : Nat) : State :=
  let key := slotKey cid shx
  let r := s.rslot key
  let k := cidChild cid
  let n := r.cnt.getD k 0
  if r.num < n then s
  else
    let s := s.setRslot key { r with
      cnt := setAt r.cnt k (n + 1),
      parts := if n = r.num then r.parts ++ [⟨k, cid, c, []⟩] else r.parts }
    let p := { c.prog with unit := rows + 1 }
    setCmd s cid .pyramid i { c with prog :=
      if n = r.num then p else { p with fault := p.fault.or (some (disagree c)), done := true } }

/-- Mask, level and shape that a participant brought. -/
def Part.terms (p : Part) : Nat × Nat × Nat × Nat :=
  match p.cmd.op, p.cmd.dt with
  | .rstr _ _ m l _, some d => (m.toNat, l.toNat, d.rows, d.cols)
  | _, _ => (0, 0, 0, 0)

/-- A participant governs by its own mask: its child index is the lowest there. -/
def Part.governs (p : Part) : Bool := (upFrom 0 4).find? (fun k => nbit p.terms.1 k) = some p.child

/-- The governing participant of an instance whose named participants are all present (R275). -/
def governing (r : RInst) : Option Part :=
  match ((r.parts.filter Part.governs).map (·.child)).min? with
  | none => none
  | some k =>
    match r.parts.find? (·.child = k) with
    | none => none
    | some g => if (upFrom 0 4).all fun j => !nbit g.terms.1 j || r.parts.any (·.child = j) then some g else none

/-- A participant's partials count in an instance (R275). -/
def Part.agrees (g p : Part) : Bool := p.terms = g.terms && nbit g.terms.1 p.child

/-- Changes the command that a core's pyramid port runs. -/
def modPort (s : State) (cid : Nat) (f : Cmd → Cmd) : State :=
  match currentCmd s cid .pyramid with
  | some (i, c) => setCmd s cid .pyramid i (f c)
  | none => s

/-- A participant delivers its partials, under the rounding mode of the governing one (R274, R278): those before its first fault, which with its flags
is its command's (R279). One that disagrees delivers none (R275). -/
def Part.deliver (s : State) (g p : Part) : Part :=
  match p.cmd.op, p.cmd.at_, p.cmd.dt with
  | .rstr w shx _ _ _, some a, some d =>
    if !g.agrees p then p
    else
      let own := p.cmd.env .pyramid
      let v := { own with env := { own.env with rnd := (g.cmd.env .pyramid).env.rnd } }
      let q := p.cmd.prog
      let ps := (places d true 0).take (q.words.length / 9)
      let (r, f, bad) := okPrefix ((partials v p.cmd.oper (weight s p.cid w) a shx ps q.words).run ⟨0, 0, 0⟩).1 0
      { p with parts := r.map (·.setWidth 32), cmd := { p.cmd with prog := { q with
          flags := q.flags ||| f, fault := bad.map fun x => faultInfo .pyramid p.cmd x.1 x.2 } } }
  | _, _, _ => p

/-- A coarse element's combination, from the first present partial on (R276). -/
def combineFrom (v : CmdEnv) (o : Option Oper) : EVal → List (Nat × EVal) → EvM EVal
  | t, [] => pure t
  | t, (k, p) :: l => do
    match o with
    | none => do combineFrom v o (← addVal v t p) l
    | some f => do combineFrom v o (← evApp v f 5 5 t p k 0) l

/-- The outputs of an instance, element by element; one with no partial is left out (R276). -/
def combineOuts (v : CmdEnv) (o : Option Oper) (d : Tile) (ps : List Part) : List (Nat × Nat) → EvM (List OutVal)
  | [] => pure []
  | p :: l => do
    let e := p.1 * d.cols + p.2
    let xs := ps.filterMap fun q => (q.parts[e]?).map fun (w : W32) => (q.child, (.ok (w.toNat, 0) : EVal))
    match xs with
    | [] => combineOuts v o d ps l
    | (_, t) :: ys => do
      let z ← combineFrom v o t ys
      let y ← outAt v d p.1 p.2 z 5
      return y :: (← combineOuts v o d ps l)

/-- The combination of an instance whose partials are delivered: its outputs are to be written by the governing participant's command, which from now
on shows how that goes (R276). -/
def combineRestrict (s : State) (key : Nat) (r : RInst) (g : Part) : State :=
  match g.cmd.dt with
  | none => s
  | some d =>
    let all := r.parts.map (Part.deliver s g)
    let ps := (upFrom 0 4).flatMap fun k => all.filter fun p => p.child = k && g.agrees p
    let outs := ((combineOuts (g.cmd.env .pyramid) g.cmd.oper d ps (places d true 0)).run ⟨0, 0, 0⟩).1
    let (buf, bad) := gather d outs []
    let s := s.setRslot key { r with parts := all, gov := some g.child, fault := bad.map fun x => faultInfo .pyramid g.cmd x.1 x.2 }
    modPort s g.cid fun c => { c with prog := { c.prog with buf := buf } }

/-- A participant's command ends with its instance (R275, R276, R279): its own fault comes first, otherwise that of the combination, or of a
conversion that was made as a row was written (`w`: the governing participant's command then). -/
def endPart (g : Part) (r : RInst) (w : Prog) (s : State) (p : Part) : State :=
  modPort s p.cid fun c =>
    let q := p.cmd.prog
    if g.agrees p then
      { c with prog := { c.prog with done := true, fault := q.fault.or (w.fault.or r.fault), flags := q.flags ||| w.flags } }
    else { c with prog := { c.prog with done := true, fault := q.fault.or (some (disagree c)), flags := q.flags } }

/-- The parent's port combines an instance when every named participant has come, and ends it when the outputs have been written
(R276). -/
def restrictCombine (parent slot : Nat) (s : State) : State :=
  let key := 4 * parent + slot
  let r := s.rslot key
  match r.gov with
  | none => match governing r with
    | some g => combineRestrict s key r g
    | none => s
  | some k =>
    match r.parts.find? (·.child = k) with
    | none => s
    | some g =>
      match currentCmd s g.cid .pyramid with
      | some (_, c) =>
        if !c.prog.buf.isEmpty then s
        else r.parts.foldl (endPart g r c.prog) (s.setRslot key { RInst.init with num := r.num + 1, cnt := r.cnt })
      | none => s
/-- The step of `RESTRICT_COMBINE`. -/
def execRestrictCombine (parent slot : Nat) (s : State) : Out := runEvent (restrictCombine parent slot) s

end Sys2Proof.Machine
end

