-- ==== Sys2Proof/Machine/EngRun.lean ====
section
/-! DEFINITION. `ENGINE_COMMAND_RUN`: one step of the command that an engine runs (R233, R235). A command is a sequence of such
steps: it begins, waits for a granule, reads a source, computes a unit of outputs, writes an aligned word of them, or finishes. -/

namespace Sys2Proof.Machine

/-- The reads of a command's unit. -/
def Cmd.srcs (c : Cmd) (e : Eng) (u : Nat) : List Src :=
  match e with
  | .matrix => mxSrcs c u
  | .pyramid => pySrcs c u
  | _ => tileSrcs c u
/-- Units of a command. -/
def Cmd.units (c : Cmd) (e : Eng) : Nat :=
  match e with
  | .matrix => mxUnits c
  | .pyramid => pyUnits c
  | .global => match c.dt.or c.at_ with | some t => t.lines | none => 0
  | _ => tileUnits c
/-- A unit of a command whose reads are complete. -/
def runUnit (s : State) (cid : Nat) (e : Eng) (i : Nat) (c : Cmd) : State :=
  match e with
  | .matrix => mxUnit s cid i c
  | .pyramid => pyUnit s cid i c
  | _ => setCmd s cid e i (tileUnit e c)

/-- The next read of a unit, or its evaluation. -/
def readOrRun (s : State) (cid : Nat) (e : Eng) (i : Nat) (c : Cmd) (srcs : List Src) (ecc : Ecc) (run : State → State) : State :=
  match srcs[c.prog.reads.length]? with
  | some r => readSrc s cid e i c r ecc
  | none => run s

/-- A step of a unit of a command. -/
def stepUnit (s : State) (cid : Nat) (e : Eng) (i : Nat) (c : Cmd) (ecc : Ecc) : State :=
  match c.op, c.dt, c.at_ with
  | .gld g o p, some d, _ => runGld s cid i c g o p d ecc
  | .gst g o p, _, some a => readOrRun s cid e i c (lineSrcs a c.prog.unit) ecc fun s => gstLine s cid i c g o p a
  | _, _, _ => readOrRun s cid e i c (c.srcs e c.prog.unit) ecc fun s => runUnit s cid e i c

/-- A command's work is over. -/
def finish (s : State) (cid : Nat) (e : Eng) (i : Nat) (c : Cmd) : State :=
  setCmd s cid e i { c with prog := { c.prog with done := true } }

/-- A step of a command that has begun and has nothing to write. A put waits for its landing (R283), a crossing restrict for its
instance (R275). A fault ends any other command after what comes before it has been written (R255); a prolong goes on with its
next child (R280). -/
def runIdle (s : State) (cid : Nat) (e : Eng) (i : Nat) (c : Cmd) (ecc : Ecc) : State :=
  let u := c.prog.unit
  match c.op, c.at_, c.dt with
  | .put .., some a, _ =>
    if 0 < u then s else readOrRun s cid e i c (putSrcs a) ecc fun s => putReady s cid i c a
  | .armed src lineB lines _ _ _ _ _ _ _, _, _ => if 0 < u then s else runArmed s cid i c src lineB lines ecc
  | .rstr _ shx _ _ true, _, some d =>
    if d.rows < u then s
    else if u = d.rows then joinInstance s cid i c shx d.rows
    else stepUnit s cid e i c ecc
  | .prol .., _, _ => if c.units e ≤ u then finish s cid e i c else stepUnit s cid e i c ecc
  | _, _, _ => if c.prog.fault.isSome || decide (c.units e ≤ u) then finish s cid e i c else stepUnit s cid e i c ecc

/-- A step of the command that an engine of a core runs, or its beginning, once the word of the command before it has been posted (R233).
[DESIGN CHOICE: log 32] -/
def runEngine (cid : Nat) (e : Eng) (ecc : Ecc) (s : State) : State :=
  match currentCmd s cid e with
  | none => s
  | some (i, c) =>
    if c.prog.done || (c.cancelled && !c.prog.began) || isolated s cid || owes s cid e then s
    else if !c.prog.began then
      if gridTurn s cid c then setCmd s cid e i { c with prog := { c.prog with began := true } } else s
    else match c.prog.buf with
      | o :: rest => writeEnt s cid e i c o rest
      | [] => runIdle s cid e i c ecc
/-- The step of `ENGINE_COMMAND_RUN`. -/
def execEngineCommandRun (cid : Nat) (eng : Eng) (e : Ecc) (s : State) : Out := runEvent (runEngine cid eng e) s

end Sys2Proof.Machine
end

