-- ==== Sys2Proof/Machine/Task.lean ====
section
/-! DEFINITION. Dependence counters (R210, R211, R296) and edge reversal (R212–R214, R288, R289, R300–R303). -/

namespace Sys2Proof.Machine

open Sys2Proof.Config

/-! ## Task references and counters -/

/-- The CID of a task reference (R210). -/
def refCid (v : Word) : Nat := nbits v.toNat 37 22
/-- The offset of a task reference (R210). -/
def refOff (v : Word) : Nat := nbits v.toNat 21 0
/-- A task reference is valid (R210). -/
def refOk (minimal : Bool) (v : Word) : Bool :=
  v.toNat < 2 ^ 38 && cidValid minimal (refCid v) && refOff v % 8 = 0 && refOff v < spadSize (cidLayer (refCid v))

/-- Checks a task reference (R210). -/
def checkRef (v : Word) : M Unit := do raiseIf (!refOk (← get).minimal v) 0x02 v.toNat

/-- A counter word: its count, and whether a decrement met zero (R210). -/
def counterWord (count : Nat) (under : Bool) : Nat := count % 2 ^ 32 + if under then 2 ^ 63 else 0

/-- A counter operation goes out on the message network, in its place in send order (R410). -/
def putCop (s : State) (o : COp) : State := { s with cops := s.cops ++ [{ o with n := s.mseq }], mseq := s.mseq + 1 }

/-- A counter operation that would go to a core is lost: its cluster is under reset (R415). -/
def copLost (s : State) (m cid : Nat) : State := postHw s (mbaCid m) m (resetNotice (16 * cid))

/-- Sends a counter operation over the message network: a release (R211, R411). One for a cluster under reset is lost and
its sender told (R415). -/
def sendCounter (v : Word) (k : COpKind) : M Unit := do
  released
  let s ← get
  if s.downAt (refCid v) then
    set (copLost s s.cur (refCid v))
  else
    stallIf (decide (64 ≤ creditsUsed s (mbaCid s.cur) (refCid v))) .counterFull
    set (bowMark (putCop s ⟨s.cur, refCid v, refOff v, k, s.me.bowgrp, 0⟩) s.cur)

/-- `tkdec` (R211). -/
def bodyTkdec (a : Reg) : M Unit := do
  noMigrant
  let v ← readReg a
  checkRef v
  sendCounter v .dec
/-- The step of `tkdec`. -/
def execTkdec (a : Reg) (s : State) : Out := runInstr 4 (bodyTkdec a) s

/-- `tkset` (R211). -/
def bodyTkset (a b : Reg) : M Unit := do
  noMigrant
  let v ← readReg a
  let n ← readReg b
  checkRef v
  raiseIf (decide (2 ^ 32 ≤ n.toNat)) 0x02 n.toNat
  sendCounter v (.set (n.setWidth 32))
/-- The step of `tkset`. -/
def execTkset (a b : Reg) (s : State) : Out := runInstr 4 (bodyTkset a b) s

/-- An armed task of a core, by its counter's offset (R288). -/
def armedAt (s : State) (cid off : Nat) : Option Armed := (s.core cid).armed.find? (·.off = off)

/-- Posts a counter's run entry; while context 0 is not started it is kept, one per counter (R292, R296, Table 8.2). -/
def runEntry (s : State) (cid off : Nat) : State :=
  let w := hwWord 4 (off + if (armedAt s cid off).isSome then 2 ^ 24 else 0)
  if (s.ctx (16 * cid)).run = .unspawned then
    s.modCore cid fun k => { k with runents := (k.runents.filter fun v => v.toNat % 2 ^ 22 != off) ++ [w] }
  else postAs s (.counters cid) cid (16 * cid) w 0

/-- Where entry `e` of a task's edge list lies (Table 10.12). -/
def entryLoc (cid off e : Nat) : Nat := spadLoc cid (off + 48 + 16 * e)
/-- The tile number of an entry (Table 10.12). -/
def entryTile (s : State) (cid off e : Nat) : Nat := s.rd (entryLoc cid off e) 4
/-- The rank of an entry's neighbour (Table 10.12). -/
def entryRank (s : State) (cid off e : Nat) : Nat := s.rd (entryLoc cid off e + 4) 4
/-- The second word of an entry (Table 10.12). -/
def entryWord (s : State) (cid off e : Nat) : Nat := s.rd (entryLoc cid off e + 8) 8
/-- A tile points towards its task (Table 10.12). -/
def entryTowards (s : State) (cid off e : Nat) : Bool := nbit (entryWord s cid off e) 63
/-- Turns a tile in a task's list. -/
def turn (s : State) (cid off e : Nat) (towards : Bool) : State :=
  s.wr (entryLoc cid off e + 8) 8 (entryWord s cid off e % 2 ^ 63 + if towards then 2 ^ 63 else 0)

/-- A flip of a tile reaches its other endpoint, where that task is armed (R212, R303). Where it meets poison in the list it is discarded and
counted, as an update is (R181, R423). -/
def flipArrives (s : State) (cid off : Nat) (tile : W32) : State :=
  match armedAt s cid off with
  | none => s
  | some t =>
    match (upFrom 0 t.n).find? fun e => s.poisoned (entryLoc cid off e) 8 || entryTile s cid off e = tile.toNat with
    | some e => if s.poisoned (entryLoc cid off e) 16 then countDisc s (clKey cid) else turn s cid off e true
    | none => s

/-- A decrement at a counter's bank (R211). [DEDUCED: log 43] -/
def decCounter (s : State) (cid off : Nat) : State :=
  let loc := spadLoc cid off
  let w := s.rd loc 8
  let count := nbits w 31 0
  if count = 0 then s.wr loc 8 (counterWord 0 true)
  else
    let s := s.wr loc 8 (counterWord (count - 1) (nbit w 63))
    if count = 1 then runEntry s cid off else s

/-- A set at a counter's bank (R211). -/
def setCounter (s : State) (cid off n : Nat) : State :=
  let s := s.wr (spadLoc cid off) 8 (counterWord n false)
  if n = 0 then runEntry s cid off else s

/-- Effect of a counter operation at its bank (R211, R212, R296). A decrement of a poisoned word is discarded and counted. -/
def counterEffect (s : State) (o : COp) : State :=
  match o.kind with
  | .set n => setCounter s o.cid o.off n.toNat
  | .dec =>
    if s.poisoned (spadLoc o.cid o.off) 8 then countDisc s (clKey o.cid) else decCounter s o.cid o.off
  | .flip t =>
    let s := flipArrives s o.cid o.off t
    if s.poisoned (spadLoc o.cid o.off) 8 then countDisc s (clKey o.cid) else decCounter s o.cid o.off

/-- An earlier operation comes first: one on the same counter, an earlier flip of the same `erflip`, or an earlier message of the sender to
the core (R211, R212, R410). -/
def copWaits (s : State) (i : Nat) (o : COp) : Bool :=
  earlierMsg s o.src o.cid o.n
    || (s.cops.take i).any fun p => p.src = o.src && ((p.cid = o.cid && p.off = o.off)
      || match p.kind, o.kind with | .flip _, .flip _ => true | _, _ => false)

/-- The bytes of a core that a counter operation touches: the counter, and of a flip the record of the task that is armed there. -/
def COp.span (s : State) (o : COp) : List Nat :=
  let loc := spadLoc o.cid o.off
  match o.kind, armedAt s o.cid o.off with
  | .flip _, some t => [loc, loc + 47 + 16 * t.n]
  | _, _ => [loc]

/-- The dispatcher's `tkset` of a launch has been applied (R370). -/
def noteCounted (s : State) (o : COp) : State :=
  if o.src < 2 ^ 20 then s
  else { s with store := s.store.map fun l => if l.seq = o.src - 2 ^ 20 then { l with counted := true } else l }

/-- A counter operation in flight is applied at its bank (R211, R296), where no earlier one comes first, its sender is not contained (R427), the
bank's hardware has no run entry to post (R195) and the bank is awake (R426). One for a cluster under reset is lost, and its sender told (R415);
the dispatcher's waits for the cluster's return. -/
def applyCounter (i : Nat) (s : State) : State :=
  match s.cops[i]? with
  | none => s
  | some o =>
    if copWaits s i o || hwBusy s (.counters o.cid) || (decide (o.src < 2 ^ 20) && isolated s (mbaCid o.src)) then s
    else if s.downAt o.cid then
      if o.src < 2 ^ 20 then copLost { s with cops := dropAt s.cops i } o.src o.cid else s
    else match asleep s (o.span s) with
      | some (c, b) => startExit s c b
      | none => noteCounted (counterEffect ((o.span s).foldl touch { s with cops := dropAt s.cops i }) o) o
/-- The step of `COUNTER_OPERATION_APPLY`. -/
def execCounterOperationApply (i : Nat) (s : State) : Out := runEvent (applyCounter i) s

/-! ## Edge reversal -/

/-- The armed task of the issuing core that a reference names (R212). -/
def armedTask (v : Word) : M Armed := do
  let s ← get
  checkRef v
  match if refCid v = mbaCid s.cur then armedAt s (refCid v) (refOff v) else none with
  | some t => return t
  | none => raise 0x02 v.toNat

/-- A context has engine commands that have not completed (R212). -/
def commandsOf (s : State) (m : Nat) : Bool :=
  (s.core (mbaCid m)).eng.toList.any fun e => e.queue.any (·.issuer = m) || e.enter.any (·.who = m)

/-- The counter of the other endpoint of a tile; none where the entry's reference breaks R210, and then that tile turns and no decrement is sent for
it. [DESIGN CHOICE: log 107] -/
def flipTarget (s : State) (cid off e : Nat) : Option Word :=
  let w := BitVec.ofNat 64 (entryWord s cid off e % 2 ^ 38)
  if refOk s.minimal w then some w else none

/-- The network accepts the decrements of a task's flips: for each core that they go to there are credits for all of them (R212, R411). -/
def flipsAccepted (s : State) (m cid off n : Nat) : Bool :=
  let ts := (upFrom 0 n).filterMap (flipTarget s cid off)
  ts.all fun w => s.downAt (refCid w)
    || decide (creditsUsed s (mbaCid m) (refCid w) + (ts.filter fun v => refCid v = refCid w).length ≤ 64)

/-- The flips of a task's tiles in ascending tile number, sent as releases (R212): a decrement for a cluster under reset is lost, and the
sender told (R415). -/
def sendFlips (s : State) (m cid off : Nat) : (left e : Nat) → State
  | 0, _ => s
  | n + 1, e =>
    let s' := turn s cid off e false
    let s := match flipTarget s cid off e with
      | some w =>
        if s.downAt (refCid w) then copLost s' m (refCid w)
        else putCop s' ⟨m, refCid w, refOff w, .flip (BitVec.ofNat 32 (entryTile s cid off e)), (s.ctx m).bowgrp, 0⟩
      | none => s'
    sendFlips s m cid off n (e + 1)

/-- The offset of the first poisoned word of an edge list (R423). [DEDUCED: log 44] -/
def poisonedOff (s : State) (cid off n : Nat) : Option Nat :=
  ((upFrom 0 n).map fun i => off + 8 * i).find? fun o => s.poisoned (spadLoc cid o) 8

/-- Raises poison where words of an edge list are poisoned (R423). -/
def cleanList (cid off n : Nat) : M Unit := do
  match poisonedOff (← get) cid off n with
  | some o => raise 0x13 o
  | none => pure ()

/-- `erflip`, and with `pass` `erpass` (R212, R213). -/
def flip (a : Reg) (pass : Bool) : M Unit := do
  noMigrant
  let v ← readReg a
  let t ← armedTask v
  let loc := spadLoc (refCid v) t.off
  awake [loc, loc + 47 + 16 * t.n]
  let s ← get
  let w := s.rd loc 8
  raiseIf (s.poisoned loc 8) 0x13 t.off
  raiseIf (nbits w 31 0 != 0) 0x12 (nbits w 31 0)
  stallIf (!s.me.out.isEmpty) .fence
  stallIf (!pass && commandsOf s s.cur) .fence
  cleanList (refCid v) (t.off + 48) (2 * t.n)
  stallIf (!flipsAccepted s s.cur (refCid v) t.off t.n) .fence
  let s := sendFlips (bowMark (touch (touch s loc) (loc + 47 + 16 * t.n)) s.cur) s.cur (refCid v) t.off t.n 0
  set (s.wr loc 8 (counterWord t.n (nbit w 63)))

/-- The step of `erflip` (R212). -/
def execErflip (a : Reg) (s : State) : Out := runInstr 4 (flip a false) s
/-- The step of `erpass` (R213). -/
def execErpass (a : Reg) (s : State) : Out := runInstr 4 (flip a true) s

/-- `erori` (R214). -/
def bodyErori (d a b : Reg) : M Unit := do
  noMigrant
  let v ← readReg a
  let e ← readReg b
  let t ← armedTask v
  raiseIf (decide (t.n ≤ e.toNat)) 0x02 e.toNat
  let loc := entryLoc (refCid v) t.off e.toNat
  awake [loc, loc + 15]
  cleanList (refCid v) (t.off + 56 + 16 * e.toNat) 1
  let s ← get
  set (touch s (loc + 8))
  modMe fun c => c.setK d.toNat (entryTowards s (refCid v) t.off e.toNat)
/-- The step of `erori`. -/
def execErori (d a b : Reg) (s : State) : Out := runInstr 4 (bodyErori d a b) s

/-- The first reason and entry at which an edge list fails (R289). -/
def edgeFault (s : State) (cid off rank : Nat) : (left e : Nat) → Option Nat
  | 0, _ => none
  | n + 1, e =>
    let r := entryRank s cid off e
    let towards := entryTowards s cid off e
    if (towards && decide (rank < r)) || (!towards && decide (r < rank)) then some (2 ^ 8 + e)
    else if r = rank then some (2 * 2 ^ 8 + e)
    else if e ≠ 0 && decide (entryTile s cid off e ≤ entryTile s cid off (e - 1)) then some (3 * 2 ^ 8 + e)
    else edgeFault s cid off rank n (e + 1)

/-- `erarm` (R288, R289): its reads follow the context's earlier accesses. -/
def bodyErarm (t : T64) : M Unit := do
  noMigrant
  let v ← readReg t.a
  checkRef v
  let s ← get
  let cid := mbaCid s.cur
  let off := refOff v
  let size := spadSize (cidLayer cid)
  raiseIf (refCid v != cid || decide (size < off + 48)) 0x02 v.toNat
  stallIf (!s.me.out.isEmpty) .access
  awake [spadLoc cid off, spadLoc cid (off + 40)]
  let h := s.rd (spadLoc cid (off + 40)) 8
  let n := nbits h 4 0
  raiseIf (decide (size < off + 48 + 16 * n)) 0x02 v.toNat
  awake [spadLoc cid (off + 47 + 16 * n)]
  cleanList cid (off + 40) (if 16 < n then 1 else 1 + 2 * n)
  if n = 0 then modify fun s => s.modCore cid fun k => { k with armed := k.armed.filter (·.off != off) }
  else
    raiseIf (decide (16 < n)) 0x12 (4 * 2 ^ 8)
    raiseIf (armedAt s cid off).isSome 0x12 (5 * 2 ^ 8)
    raiseIf (decide (64 ≤ (s.core cid).armed.length)) 0x12 (6 * 2 ^ 8)
    match edgeFault s cid off (nbits h 63 32) n 0 with
    | some e => raise 0x12 e
    | none =>
      let away := ((upFrom 0 n).filter fun e => !entryTowards s cid off e).length
      let s := s.modCore cid fun k => { k with armed := k.armed ++ [⟨off, n⟩] }
      set (setCounter (touch (touch s (spadLoc cid off)) (spadLoc cid (off + 47 + 16 * n))) cid off away)
/-- The step of `erarm`. -/
def execErarm (t : T64) (s : State) : Out := runInstr 8 (bodyErarm t) s

end Sys2Proof.Machine
end

