-- ==== Sys2Proof/Machine/Launch.lean ====
section
/-! DEFINITION. Launches (chapter 19; R287): records, admission, emission, the walk of an item, the front door and the host's
rings and windows (R366–R385, R416–R418). -/

namespace Sys2Proof.Machine

open Sys2Proof.Config

/-! ## Records (R367, R368) -/

/-- Word `i` of a record. -/
def lrec (r : List Word) (i : Nat) : Nat := (r.getD i 0).toNat

/-- The words of a record's bytes. -/
def recOf (bs : List Byte) : List Word := (upFrom 0 8).map fun i => dword bs (8 * i)

/-- The core that a record's hint names (Table 19.2). -/
def hintCid (r : List Word) : Nat := mkCid (nbits (lrec r 0) 9 8) (nbits (lrec r 0) 15 10) (nbits (lrec r 0) 20 16)

/-- A record is invalid for a partition, where `sec` permits the secure world (R368). -/
def recBad (s : State) (p : Nat) (sec : Bool) (r : List Word) : Bool :=
  let c := lrec r 0
  let ctr := r.getD 6 0
  nbits c 63 39 != 0 || nbits c 31 21 != 0 || decide (2 ^ 48 ≤ lrec r 1) || decide (2 ^ 32 ≤ lrec r 3) || lrec r 7 != 0
    || lrec r 1 % 4 != 0 || lrec r 3 = 0
    || !cidValid s.minimal (hintCid r) || !coreIn s p (hintCid r)
    || (nbit c 6 && !sec)
    || !(ctr = BitVec.allOnes 64 || (refOk s.minimal ctr && coreIn s p (refCid ctr)))

/-- The launch that a record describes (R367, R370). -/
def launchOf (seq : Nat) (lnum : BitVec 16) (p : Nat) (pool : Bool) (r : List Word) : Launch :=
  let c := r.getD 0 0
  { seq := seq, lnum := lnum, part := BitVec.ofNat 4 p, cls := c.extractLsb' 4 2, sec := c.getLsbD 6, chn := c.getLsbD 7,
    hint := hintCid r, radius := nbits c.toNat 38 32, entry := r.getD 1 0, arg := r.getD 2 0, items := lrec r 3,
    deadline := if r.getD 4 0 = BitVec.allOnes 64 then none else some (lrec r 4), seed := r.getD 5 0, ctr := r.getD 6 0,
    nextI := 0, back := [], posted := 0, pool := pool, counted := r.getD 6 0 = BitVec.allOnes 64 }

/-! ## Admission (R369, R370) -/

/-- Entries of a partition, reserved or of the shared pool. -/
def entries (s : State) (p : Nat) (pool : Bool) : Nat := (s.store.filter fun l => l.part.toNat = p && l.pool = pool).length

/-- The kind of entry that a record of a class takes: none where the store is full for it (R369). -/
def admission (s : State) (p : Nat) (cls : Nat) : Option Bool :=
  if cls = 0 && decide (entries s p false < 192) then some false
  else if decide (entries s p false < 176) then some false
  else if decide ((s.store.filter (·.pool)).length < 1024) && decide (entries s p true < (s.part p).shcap) then some true
  else none

/-- The sender that stands for the dispatcher's `tkset` of a launch. -/
def launchSrc (seq : Nat) : Nat := 2 ^ 20 + seq

/-- A launch is admitted: its numbers, its entry, and the set of its completion counter (R370). -/
def admitLaunch (s : State) (p : Nat) (pool : Bool) (r : List Word) : State :=
  let l := launchOf s.lseq (s.part p).lnum p pool r
  let s := { s with store := s.store ++ [l], lseq := s.lseq + 1 }.modPart p fun q => { q with lnum := q.lnum + 1 }
  if l.ctr = BitVec.allOnes 64 then s
  else putCop s ⟨launchSrc l.seq, refCid l.ctr, refOff l.ctr, .set (BitVec.ofNat 32 l.items), 0, 0⟩

/-- A record arrives at the dispatcher: 0 admitted, 1 the store is full for it, 2 invalid (R368, R369). [DEDUCED: log 54] -/
def offer (s : State) (p : Nat) (sec : Bool) (r : List Word) : Nat × State :=
  if recBad s p sec r then (2, s)
  else match admission s p (nbits (lrec r 0) 5 4) with
    | none => (1, s)
    | some pool => (0, admitLaunch s p pool r)

/-- The read of a launch record (R287). -/
def lnchAccess : BlockAccess := ⟨64, 16, 16, [rR], [0, 1, 2, 3], 20, .read⟩

/-- `lnch` (R287): a send and a release, answered in the same step. [DEDUCED: log 55] -/
def bodyLnch (t : T64) : M Unit := do
  noMigrant
  let a ← readReg t.a
  settled
  let bs ← readBlock (t.f.toNat % 8) a.toInt lnchAccess
  released
  let s ← get
  let p := s.me.part.toNat
  let k := (offer s p s.me.sec (recOf bs)).1
  writeReg t.d (BitVec.ofNat 64 k)
  modify fun u =>
    let u := bowMark (offer u p s.me.sec (recOf bs)).2 u.cur
    if k = 1 && t.w1.getLsbD 0 then { u with spaceq := u.spaceq ++ [⟨BitVec.ofNat 4 p, u.cur, t.w1.extractLsb' 8 8⟩] } else u
/-- The step of `lnch` (R287). -/
def execLnch (t : T64) (s : State) : Out := runInstr 8 (bodyLnch t) s

/-! ## Emission (R372) -/

/-- A launch can emit: it has an unemitted item, and its completion counter has been set (R370). -/
def Launch.ready (l : Launch) : Bool :=
  (!l.back.isEmpty || decide (l.nextI < l.items)) && l.counted

/-- The order of choice: class, deadline (none last), admission sequence. -/
def Launch.before (a b : Launch) : Bool :=
  let late := fun (x y : Option Nat) => match x, y with
    | some i, some j => decide (i < j)
    | some _, none => true
    | none, _ => false
  if a.cls != b.cls then decide (a.cls.toNat < b.cls.toNat)
  else if late a.deadline b.deadline then true
  else if late b.deadline a.deadline then false
  else decide (a.seq < b.seq)

/-- The first launch in the order of choice. -/
def bestLaunch : List Launch → Option Launch
  | [] => none
  | l :: ls => match bestLaunch ls with
    | some b => if b.before l then some b else some l
    | none => some l

/-- The launch that a slot of the frame chooses (R372). -/
def chooseLaunch (s : State) (slot : Nat) : Option Launch :=
  let l := s.store.filter Launch.ready
  match (upFrom 0 16).find? fun p => nbit (s.part p).c0slots slot with
  | some p => (bestLaunch (l.filter fun x => x.part.toNat = p && x.cls = 0)).or (bestLaunch l)
  | none => bestLaunch l

/-- A launch without its lowest-numbered unemitted item, and that item's index. -/
def Launch.take (l : Launch) : Nat × Launch :=
  match l.back with
  | i :: r => (i, { l with back := r })
  | [] => (l.nextI, { l with nextI := l.nextI + 1 })

/-- Cores of a layer at a distance from a core, in ascending CID. -/
def ring (minimal : Bool) (c d : Nat) : List Nat := (layerCores minimal (cidLayer c)).filter fun x => hops c x = d

/-- The cores that the items of a launch visit (R373). -/
def walkCores (s : State) (l : Launch) : List Nat :=
  ((upFrom 0 (l.radius + 1)).flatMap (ring s.minimal l.hint)).filter (walkOk s l.part.toNat l.sec l.chn)

/-- An item of a launch as it is emitted, with the walk that it keeps (R385). -/
def itemOf (s : State) (l : Launch) (i : Nat) : Item :=
  { seq := l.seq, lnum := l.lnum, item := i, cls := l.cls, sec := l.sec, part := l.part, entry := l.entry, arg := l.arg,
    seed := l.seed, ctr := l.ctr, hint := l.hint, walk := walkCores s l, pos := 0, n := s.mseq }

/-- The emission slot that runs now: slots begin every four cycles of the crown die's clock (R372). -/
def slotNow (s : State) : Nat := s.cycles 3 / 4

/-- An emission slot: one item of the chosen launch sets out (R372). A slot that has emitted is over. -/
def emit (s : State) : State :=
  if slotNow s < s.eslot || hwBusy s .dispatcher then s
  else match chooseLaunch s (slotNow s % 64) with
    | none => s
    | some l =>
      let (i, l') := l.take
      { s with eslot := slotNow s + 1, store := s.store.map fun x => if x.seq = l.seq then l' else x,
               items := s.items ++ [itemOf s l i], mseq := s.mseq + 1 }
/-- The step of `EMISSION_SLOT`. -/
def execEmissionSlot (s : State) : Out := runEvent emit s

/-! ## The walk (R373–R375) -/

/-- An item returns to its launch's entry as unemitted (R375, R376). -/
def returnItem (s : State) (it : Item) : State :=
  { s with store := s.store.map fun l => if l.seq = it.seq then { l with back := nins l.back it.item } else l }

/-- An item whose walk is over enters the overflow queue of its hint core; a full one sends it back (R373, R375). -/
def queueItem (s : State) (it : Item) : State :=
  if 64 ≤ (s.core it.hint).ovf.length then returnItem s it
  else takeQueued (s.modCore it.hint fun k => { k with ovf := k.ovf ++ [it] }) it.hint

/-- A core has considered an item in this cycle that comes after an item in the order of admission sequence and item index (R374). -/
def outOfTurn (s : State) (cid : Nat) (it : Item) : Bool :=
  let (t, q, i) := (s.core cid).considered
  t = s.cycles (cidLayer cid) && (decide (it.seq < q) || (it.seq = q && decide (it.item < i)))

/-- An item reaches the next core of its walk, which takes it or passes it on (R293, R373), in the order of R374 within a cycle; one that comes out
of that order reaches the core in a later cycle, and one of the same sender behind what that sent to the core before (R410). A core whose queue holds
an item takes none that arrives (R375). [DEDUCED: log 56] -/
def itemArrives (i : Nat) (s : State) : State :=
  match s.items[i]? with
  | none => s
  | some it =>
    let t := { s with items := dropAt s.items i }
    if earlierMsg s it.leg.1 it.leg.2 it.n then s
    else match it.walk[it.pos]? with
    | none => queueItem t it
    | some cid =>
      let on := fun (s : State) => s.modCore cid fun k => { k with considered := (s.cycles (cidLayer cid), it.seq, it.item) }
      if outOfTurn s cid it then s
      else if (s.core cid).ovf.isEmpty && coreTakes s cid it then takeItem (on t) cid it
      else on (sendItem s i { it with pos := it.pos + 1 })
/-- The step of `WORK_ITEM_ARRIVAL`. -/
def execWorkItemArrival (i : Nat) (s : State) : Out := runEvent (itemArrives i) s

/-! ## Front door (R379, R380) -/

/-- What becomes of a record at a front-door port: one of class 0 beyond `c0rate` is discarded and counted, so is an invalid one,
and one that finds the store full. -/
def frontRecord (p : Nat) (sec : Bool) (s : State) (r : List Word) : State :=
  let q := s.part p
  let zero := nbits (lrec r 0) 5 4 = 0
  if recBad s p sec r then s.modPart p fun q => { q with ninv := (q.ninv + 1) % 2 ^ 64 }
  else if zero && decide (q.c0rate % 2 ^ 16 ≤ q.c0seen) then s.modPart p fun q => { q with nrate := (q.nrate + 1) % 2 ^ 64 }
  else match offer s p sec r with
    | (0, s) => if zero then s.modPart p fun q => { q with c0seen := q.c0seen + 1 } else s
    | _ => s.modPart p fun q => { q with nfull := (q.nfull + 1) % 2 ^ 64 }

/-- A launch frame's header and length are good (R380). -/
def frameGood (fr : Frame) : Bool :=
  let n := (fr.payload.getD 1 0).toNat
  fr.payload.getD 0 0 = 1 && decide (1 ≤ n) && decide (n ≤ 140) && ((fr.payload.take 16).drop 2).all (· = 0)
    && fr.len = 16 + 64 * n && decide (fr.len ≤ fr.payload.length)

/-- A window of the class-0 rate begins (R379, Table 19.6): one per µs of global time. -/
def rateWindow (s : State) : State :=
  if s.gtime / 1000 ≤ s.rwindow then s
  else { s with rwindow := s.gtime / 1000, parts := s.parts.map fun (x : Nat × Partition) => (x.1, { x.2 with c0seen := 0 }) }
/-- The step of `C0RATE_WINDOW_START`. -/
def execC0rateWindowStart (s : State) : Out := runEvent rateWindow s

/-- The records of a frame in the order in which a port hands them on: those of class 0, which it keeps in a queue of their own, first (R379). -/
def drained (l : List (List Word)) : List (List Word) :=
  let zero := fun (r : List Word) => nbits (lrec r 0) 5 4 = 0
  l.filter zero ++ l.filter fun r => !zero r

/-- Bytes of a frame: two addresses and the EtherType, the tag, the payload with its padding, and the check sequence (IEEE 802.3; R380). [DEDUCED: log
59] -/
def frameBytes (fr : Frame) : Nat := 14 + (if fr.vlan.isSome then 4 else 0) + fr.payload.length + 4

/-- A frame arrives at a front-door port (R380). One whose check sequence fails, or that is longer than 9,216 bytes, is not
accepted by the link. [DEDUCED: log 59] -/
def frontDoor (fr : Frame) (s : State) : State :=
  if 2 ≤ fr.port || !fr.fcsGood || decide (9216 < frameBytes fr) then s
  else
    let drop := { s with fdrops := s.fdrops + 1 }
    match fr.vlan with
    | none => drop
    | some id =>
      let e := tget 0 s.vlans id.toNat
      if fr.etherType != 0x88B5 || !e.getLsbD 4 || !frameGood fr then drop
      else
        let n := (fr.payload.getD 1 0).toNat
        (drained ((upFrom 0 n).map fun k => recOf (fr.payload.drop (16 + 64 * k)))).foldl
          (frontRecord (e.extractLsb' 0 4).toNat (e.getLsbD 5)) (rateWindow s)
/-- The step of `FRONT_DOOR_FRAME`. -/
def execFrontDoorFrame (fr : Frame) (s : State) : Out := runEvent (frontDoor fr) s

/-! ## The host (R381, R416–R418) -/

/-- A partition's ring. -/
def Partition.ring (q : Partition) (secure : Bool) : Ring := if secure then q.ring1 else q.ring0
/-- Changes a partition's ring. -/
def Partition.modRing (q : Partition) (secure : Bool) (f : Ring → Ring) : Partition :=
  if secure then { q with ring1 := f q.ring1 } else { q with ring0 := f q.ring0 }
/-- A ring is enabled: k is 6 to 16 (Table 21.6). -/
def Ring.on (r : Ring) : Bool := decide (nbits r.ctl.toNat 3 0 ≤ 10)
/-- Records of a ring. [DEDUCED: log 57] -/
def Ring.size (r : Ring) : Nat := 2 ^ (nbits r.ctl.toNat 3 0 + 6)
/-- A ring holds a record that has not been fetched. -/
def Ring.pending (r : Ring) : Bool := r.on && r.head.toNat % r.size != r.tail.toNat % r.size

/-- A host link is up. -/
def State.linkUp (s : State) (link : Nat) : Bool := match link with | 0 => s.link0 | 1 => s.link1 | _ => false

/-- A host write to a ring's tail register (R381, R417): one to the secure ring counts only from the secure world. -/
def doorbell (p : Nat) (secure : Bool) (link : Nat) (world : Bool) (tail : W32) (s : State) : State :=
  if !s.linkUp link || decide (16 ≤ p) || (secure && !world) then s
  else s.modPart p fun q => q.modRing secure fun r => { r with tail := tail, link := link }
/-- The step of `HOST_DOORBELL`. -/
def execHostDoorbell (part : Nat) (secure : Bool) (link : Nat) (world : Bool) (tail : W32) (s : State) : Out :=
  runEvent (doorbell part secure link world tail) s

/-- The dispatcher fetches the next record of a ring: it admits it, skips it as invalid, or stops there (R381). -/
def ringFetch (p : Nat) (secure : Bool) (r : List Word) (s : State) : State :=
  let q := (s.part p).ring secure
  if !q.pending || !(s.link0 || s.link1) || decide (16 ≤ p) then s
  else
    let next := fun (t : State) => t.modPart p fun x => x.modRing secure fun g =>
      { g with head := BitVec.ofNat 32 ((g.head.toNat + 1) % g.size) }
    match offer s p secure r with
    | (0, t) => next t
    | (1, _) => s
    | _ => next (s.modPart p fun x => { x with ninv := (x.ninv + 1) % 2 ^ 64 })
/-- The step of `HOST_RING_FETCH`. -/
def execHostRingFetch (part : Nat) (secure : Bool) (rec : List Word) (s : State) : Out := runEvent (ringFetch part secure rec) s

/-- A host write to BAR0 of a virtual function (Table 21.6, R418). The registers of the secure ring, and 1 in `wsel`, are accepted
from the secure world alone; a read-only register keeps its value. -/
def bar0Write (p link : Nat) (world : Bool) (off : Nat) (v : Word) (s : State) : State :=
  if !s.linkUp link || decide (16 ≤ p) then s
  else
    let ring := fun (secure : Bool) (f : Ring → Ring) => if secure && !world then s else s.modPart p fun q => q.modRing secure f
    let base := fun (r : Ring) => { r with base := v &&& ~~~0xFFF }
    let ctl := fun (r : Ring) => { r with ctl := v.setWidth 32 &&& 0xF }
    match off with
    | 0x000 => ring false base
    | 0x008 => ring false ctl
    | 0x014 => doorbell p false link world (v.setWidth 32) s
    | 0x020 => ring true base
    | 0x028 => ring true ctl
    | 0x034 => doorbell p true link world (v.setWidth 32) s
    | 0x040 => s.modPart p fun q => { q with win := BitVec.ofNat 64 (nbits v.toNat 47 30 * 2 ^ 30) }
    | 0x048 => if v.getLsbD 0 && !world then s else s.modPart p fun q => { q with wsel := v.getLsbD 0 }
    | _ => s
/-- The step of `HOST_BAR0_WRITE`. -/
def execHostBar0Write (part link : Nat) (world : Bool) (off : Nat) (v : Word) (s : State) : Out :=
  runEvent (bar0Write part link world off v) s

/-- A PCI Express link goes down or returns: registers and rings stay, and a ring whose latest doorbell came over the lost link
is fetched over the other (R418). -/
def linkChange (link : Nat) (up : Bool) (s : State) : State :=
  let s := match link with | 0 => { s with link0 := up } | 1 => { s with link1 := up } | _ => s
  let move := fun (r : Ring) => if !up && r.link = link && s.linkUp (1 - link) then { r with link := 1 - link } else r
  { s with parts := s.parts.map fun (x : Nat × Partition) => (x.1, { x.2 with ring0 := move x.2.ring0, ring1 := move x.2.ring1 }) }
/-- The step of `HOST_LINK_STATE_CHANGE`. -/
def execHostLinkStateChange (link : Nat) (up : Bool) (s : State) : Out := runEvent (linkChange link up) s

/-- A host access through BAR2: a plain 8-byte access to the partition's memory, translated by its tables in the world of
`wsel` (R417). Data that is read leaves for the host; an access that no page allows has no effect. [DEDUCED: log 58] -/
def bar2 (p off : Nat) (wr : Option Word) (s : State) : State :=
  if decide (2 ^ 30 ≤ off) || off % 8 != 0 || decide (16 ≤ p) || !(s.link0 || s.link1) then s
  else
    let q := s.part p
    match walkPa s (BitVec.ofNat 4 p) q.wsel (if wr.isSome then .write else .read) (q.win.toNat + off) with
    | .error _ => s
    | .ok (pa, page) =>
      match wr with
      | some v => writeAt Writer.outside [(pa, 8, page)] (leBytes 8 v.toNat) s
      | none => if s.poisoned pa 8 then s else { s with outbox := s.outbox ++ [s.keyBytes page.key pa 8] }
/-- The step of `BAR2_HOST_ACCESS`. -/
def execBar2HostAccess (part off : Nat) (wr : Option Word) (s : State) : Out := runEvent (bar2 part off wr) s

end Sys2Proof.Machine
end

