-- ==== Sys2Proof/Machine/Service.lean ====
section
/-! DEFINITION. What the device does beside its programs: walks and fills (R85, R388, R393–R396), retention (R426), scrubbing
(R424), budget windows (R412), the watchdog and the debugger (R401–R403), link retries (R419), the slot allocators (R409), and
the registers that firmware writes (R169, R322, R385, R392, R412, R425, R426). -/

namespace Sys2Proof.Machine

open Sys2Proof.Config

/-! ## Walks and fills (R388, R393–R396) -/

/-- The address of the last entry that a walk reads, from the table at `pa` of level `l − 1` down. -/
def lastEntry (s : State) (dva : Nat) : (l pa : Nat) → Nat
  | 0, pa => pa
  | l + 1, pa =>
    let a := pa + 8 * nbits dva (20 + 9 * l) (12 + 9 * l)
    let e := s.rd a 8
    if s.poisoned a 8 || !nbit e 0 || pteBad s.hbm l e || pteLeaf e then a else lastEntry s dva l (ptePa e)

/-- What an error code finds in the last read of a walk from a table (R422). [DEDUCED: log 60] -/
def walkEcc (s : State) (root dva : Nat) (e : Ecc) : State :=
  if s.hbm < root * 4096 + 4096 then s else applyEcc s (lastEntry s dva 4 (root * 4096)) e

/-- The number under which a requester's translations stand in its micro-TLB. -/
def Asker.tag : Asker → Nat | .ctx _ tag _ => tag | .eng _ => 0

/-- The fill that answers a requester of walk `v` (R391, R395), with the range of keys of that walk (R392). -/
def walkFill (r : WalkEnd) (v w : Walk) : Fill :=
  let none_ := fun (c : BitVec 8) => Fill.mk w.cid w.who ⟨w.part, w.who.tag, w.dva, 12, 0, false, v.keylo, v.keyhi⟩ (some c)
  match r with
  | .leaf l b => ⟨w.cid, w.who, ⟨w.part, w.who.tag, w.dva / 2 ^ b * 2 ^ b, b, l, true, v.keylo, v.keyhi⟩, none⟩
  | .absent => none_ 0x0A
  | .poison => none_ 0x13

/-- A port's walk ends; every request that has joined it is served by it, and walkers go on to what waits for them (R394). -/
def walkEnds (i : Nat) (e : Ecc) (s : State) : State :=
  match s.walks[i]? with
  | none => s
  | some v =>
    let same := fun (w : Walk) => w.busy && w.part = v.part && w.cl = v.cl && w.dva / 4096 = v.dva / 4096
    match s.walks.filter same with
    | [] => s
    | w :: l =>
      let s := walkEcc s w.root w.dva e
      let r := walkFrom s w.root w.dva
      let s := match r with
        | .leaf l b => portFill s w.cl ⟨w.part, 0, w.dva / 2 ^ b * 2 ^ b, b, l, false, w.keylo, w.keyhi⟩
        | _ => s
      goOnWalking { s with fills := s.fills ++ (w :: l).map (walkFill r w) } (s.walks.filter fun v => !same v)
/-- The step of `PAGE_WALK`. -/
def execPageWalk (i : Nat) (e : Ecc) (s : State) : Out := runEvent (walkEnds i e) s

/-- A fill reaches a core's micro-TLB, and the context that waits for it may go on, or takes the trap of a walk that found no leaf
(R391, R393, R396). -/
def fillArrives (m : Nat) (s : State) : State :=
  match s.fills.find? (·.who.isCtx m) with
  | none => s
  | some f =>
    let s := { s with fills := s.fills.erase f }
    match f.bad, f.who with
    | some c, .ctx _ _ ht => takeTrapOf s m { ht with t := { ht.t with cause := c } }
    | _, _ => s.modCore f.cid fun k => { k with utlb := tlbPut 8 k.utlb f.ent }
/-- The step of `MICRO_TLB_FILL`. -/
def execMicroTlbFill (m : Nat) (s : State) : Out := runEvent (fillArrives m) s

/-- Lines that an instruction cache of 16 KiB holds (Table 1.1). -/
def icacheLines : Nat := 256

/-- What an instruction cache keeps when a line comes: the fill may displace a line, and displaces one where the cache is full, but not
the line just before, with which a group may lie in both (R9, R101). [DESIGN CHOICE: log 92] -/
def makeRoom (cid line tick : Nat) (ic : Tbl (Option (BitVec 512))) : Tbl (Option (BitVec 512)) :=
  let others := (ic.map (·.1)).filter fun l => l + 1 != line
  let v := icacheVictim cid line tick
  match others[if ic.length < icacheLines then v else v % others.length]? with
  | some l => ic.filter fun x => x.1 != l
  | none => ic

/-- A line of code reaches an instruction cache, and the fetches that wait there may go on (R51, R85). [DESIGN CHOICE: log 92] -/
def lineArrives (cid line : Nat) (s : State) : State :=
  if !(s.core cid).icreq.elem line then s
  else s.modCore cid fun k => { k with
    ic := tset (makeRoom cid line s.tick k.ic) line (some (codeLine s cid line)), icreq := ndel k.icreq line }
/-- The step of `ICACHE_LINE_FILL`. -/
def execIcacheLineFill (cid line : Nat) (s : State) : Out := runEvent (lineArrives cid line) s

/-! ## Retention and scrubbing (R424, R426) -/

/-- Idle cycles before a bank enters retention (Table 22.5). -/
def Core.idleCycles (k : Core) : Nat := max 4096 k.retIdle.toNat

/-- A bank may enter retention (R426). -/
def mayRetain (s : State) (cid b : Nat) : Bool :=
  let k := s.core cid
  k.retEn && decide (b < 15) && (s.bank cid b).ret = .active
    && decide ((s.bank cid b).last + k.idleCycles ≤ s.cycles (cidLayer cid))
    && !(s.feq.any fun w => isSpad (16 * w.g) && locCid (16 * w.g) = cid && locBank (16 * w.g) = b)

/-- An idle bank enters retention. [DESIGN CHOICE: log 69] -/
def retain (cid b : Nat) (s : State) : State :=
  if mayRetain s cid b then s.setBank cid b { s.bank cid b with ret := .retained } else s
/-- The step of `RETENTION_ENTRY`. -/
def execRetentionEntry (cid bank : Nat) (s : State) : Out := runEvent (retain cid bank) s

/-- A bank has left retention. -/
def retentionOver (cid b : Nat) (s : State) : State :=
  match (s.bank cid b).ret with
  | .exiting t =>
    if t ≤ s.cycles (cidLayer cid) then s.setBank cid b ⟨.active, s.cycles (cidLayer cid)⟩ else s
  | _ => s
/-- The step of `RETENTION_EXIT_COMPLETE`. -/
def execRetentionExitComplete (cid bank : Nat) (s : State) : Out := runEvent (retentionOver cid bank) s

/-- A word that the scrubber reads (R424). -/
def scrubbed (s : State) (word : Nat) : Bool :=
  let loc := 8 * word
  if isHbm loc then decide (loc < s.hbm)
  else isSpad loc && cidValid s.minimal (locCid loc) && decide (locOff loc < spadSize (cidLayer (locCid loc)))
/-- The scrubber reads a word: no access, no write in coherence order (R424). -/
def scrub (word : Nat) (e : Ecc) (s : State) : State := if scrubbed s word then applyEcc s (8 * word) e else s

/-- Parity finds an error in a line of an instruction cache, and the core fetches the line again (R422). -/
def lineParity (cid line : Nat) (s : State) : State :=
  if (tget none (s.core cid).ic line).isNone then s
  else countCor (s.modCore cid fun k => { k with ic := tset k.ic line none, icreq := nins k.icreq line }) (clKey cid)

/-- Parity finds an error in an entry of a micro-TLB, which is dropped and walked again when it is needed (R422). -/
def microParity (cid i : Nat) (s : State) : State :=
  if (s.core cid).utlb.length ≤ i then s
  else countCor (s.modCore cid fun k => { k with utlb := dropAt k.utlb i }) (clKey cid)

/-- Parity finds an error in an entry of a port's TLB, which is dropped and walked again when it is needed (R422). -/
def portParity (k i : Nat) (s : State) : State :=
  if (s.cluster k).ptlb.length ≤ i then s else countCor (s.modCluster k fun c => { c with ptlb := dropAt c.ptlb i }) k

/-! ## Budgets and links (R412, R419) -/

/-- The step of `BUDGET_WINDOW_START`. -/
def execBudgetWindowStart (s : State) : Out := runEvent budgetWindow s

/-- A Skaolo flit that failed its CRC is sent again; programs see nothing of it (R419). -/
def flitRetry (link : Nat) (s : State) : State :=
  if 16 ≤ link then s else { s with retries := tset s.retries link (tget 0 s.retries link + 1) }
/-- The step of `LINK_FLIT_RETRY`. -/
def execLinkFlitRetry (link : Nat) (s : State) : Out := runEvent (flitRetry link) s

/-! ## The watchdog (R401) -/

/-- The stall clock of a context that runs: its wait's code, the tick at which it began, and the limit that counts for it. A home context is held away
by its migrant (R392, R401). [DEDUCED: log 62] -/
def stallClock (c : Context) : Option (Nat × Nat × Nat) :=
  match c.away with
  | some a => some (5, a.since, a.lim)
  | none => match c.wait with
    | some w => (waitCode w.kind).map fun k => (k, w.since, w.lim)
    | none => none

/-- Ticks of a microsecond. -/
def tickPerUs : Nat := 100 * tickPer10ns

/-- A context's stall clock has reached the limit (R401, R403): the code and the clock in µs. -/
def overdue (s : State) (m : Nat) : Option (Nat × Nat) :=
  let c := s.ctx m
  if c.run != .running || (s.part c.part.toNat).frozen.isSome then none
  else match stallClock c with
    | some (k, t, lim) => if lim != 0 && decide (lim * tickPerUs ≤ s.tick - t) then some (k, (s.tick - t) / tickPerUs) else none
    | none => none

/-- A context takes watchdog (R401), at the instruction that it abandons. One whose thread is away is recalled, and takes the trap at home. -/
def watchdog (m : Nat) (s : State) : State :=
  match overdue s m with
  | none => s
  | some (k, us) =>
    let t : Trap := ⟨0x17, BitVec.ofNat 64 (us % 2 ^ 32 * 2 ^ 32 + k)⟩
    if (s.ctx m).away.isSome then
      (recallIt s m).modCtx m fun c => { c with away := c.away.map fun a =>
        { a with trap := a.trap.or (some ⟨t, c.pc, (wordsAt s m).1, (wordsAt s m).2⟩) } }
    else trapAt (letGo s m) m t
/-- The step of `WATCHDOG`. -/
def execWatchdog (m : Nat) (s : State) : Out := runEvent (watchdog m) s

/-! ## The debugger (R402, R403) -/

/-- A debugger halts a context of a partition to which it is attached: it stops as R204 says, and then holds the halted state, also where it had
stopped already, or has taken a trap on the way (R402). -/
def debugHalt (m : Nat) (s : State) : State :=
  let p := (s.ctx m).part.toNat
  if !mbaValid s.minimal m || !(s.part p).dbg || (s.ctx m).run = .unspawned then s
  else
    match stopStep s m byDebugger (.halted none) with
    | (t, false) => t
    | (t, true) => match (t.ctx m).run with
      | .stopped w => freeze (t.modCtx m fun c => { c with run := .halted (some w) }) p
      | _ => freeze t p
/-- The step of `DEBUG_HALT`. -/
def execDebugHalt (m : Nat) (s : State) : Out := runEvent (debugHalt m) s

/-- A debugger resumes a halted context at the PC where it stopped, with the frame that it wrote, where there is one, installed
as by `load` (R402); it runs unblocked again (R304). One that had stopped already is stopped again. A frame that `load` would reject is not installed.
[DEDUCED: log 63] -/
def debugResume (m : Nat) (frame : List Byte) (s : State) : State :=
  match (s.ctx m).run with
  | .halted was =>
    if frame.isEmpty then
      let go := fun (r : Run) => thaw ((resumed s m).modCtx m fun c => { c with run := r }) (s.ctx m).part.toNat
      match was with
      | some w => go (.stopped w)
      | none => bowMark (go .running) m
    else if frame.length != 512 || (frameFault s (cidLayer (mbaCid m)) frame).isSome then s
    else loadFrame s m frame true
  | _ => s
/-- The step of `DEBUG_RESUME`. -/
def execDebugResume (m : Nat) (frame : List Byte) (s : State) : Out := runEvent (debugResume m frame) s

/-! ## The slot allocators (R407, R409) -/

/-- The slot table of a die. -/
def State.slotTab (s : State) (die : Nat) : SlotTab := tget SlotTab.init s.slots die

/-- A choice of positions, the last one first, with the sum of the squares of the distances between them. -/
abbrev Spread := Nat × List Nat

/-- The best choices that end in each open position, with one more position each. -/
def pickMore (open_ : List Nat) (l : List Spread) : List Spread :=
  open_.filterMap fun q => leastBy (·.1) (l.filterMap fun (x : Spread) => match x.2 with
    | p :: _ => if p < q then some (x.1 + (q - p) * (q - p), q :: x.2) else none
    | [] => none)

/-- The best choice of `n + 1` open positions of a frame of 64 of which `a` is the first. -/
def pickFrom (open_ : List Nat) (n a : Nat) : Option Spread :=
  leastBy (·.1) (((upFrom 0 n).foldl (fun l _ => pickMore open_ l) [(0, [a])]).map fun (x : Spread) =>
    let gap := a + 64 - x.2.headD a
    (x.1 + gap * gap, x.2))

/-- The `n` open positions of a frame that lie as evenly as may be: those whose distances have the least squares in all (R409). [DEDUCED: log 64] -/
def evenly (open_ : List Nat) (n : Nat) : List Nat :=
  match n with
  | 0 => []
  | k + 1 => ((leastBy (·.1) (open_.filterMap (pickFrom open_ k))).map (·.2)).getD []

/-- A frame of slots that gives a partition `n` of the positions that others do not own, as evenly as may be (R409). -/
def spreadSlots (own : List (Option Nat)) (p n : Nat) : List (Option Nat) :=
  let open_ := (upFrom 0 64).filter fun i => match own.getD i none with | some q => q = p | none => true
  let pick := evenly open_ n
  (upFrom 0 64).map fun i => match own.getD i none with
    | some q => if q = p then (if pick.elem i then some p else none) else some q
    | none => if pick.elem i then some p else none

/-- The layer whose clock counts the frames of a die. -/
def dieLayer (die : Nat) : Nat := if die < 4 then 0 else if die = 4 then 1 else 3
/-- The number of the frame of 64 cycles that a die is in. -/
def frameNow (s : State) (die : Nat) : Nat := s.cycles (dieLayer die) / 64

/-- Firmware asks a die's allocator for `n` slots of every port for a partition: granted where there is room, for the next frame
boundary, or refused (R409). -/
def slotRequest (die p n : Nat) (s : State) : State :=
  let t := s.slotTab die
  let own := match t.next with | some x => x.1 | none => t.own
  let others := (own.filter fun o => match o with | some q => q != p | none => false).length
  if decide (6 ≤ die) || decide (16 ≤ p) || decide (64 < others + n) then s
  else { s with slots := tset s.slots die { t with next := some (spreadSlots own p n, (t.next.map (·.2)).getD (frameNow s die)) } }
/-- The step of `SLOT_ALLOCATOR_REQUEST`. -/
def execSlotAllocatorRequest (die part n : Nat) (s : State) : Out := runEvent (slotRequest die part n) s

/-- The tables of a die change together as a frame of 64 cycles begins: the first that begins after the request, which comes within 2 µs (R407, R409).
[DEDUCED: log 64] [DESIGN CHOICE: log 65] -/
def slotSwitch (die : Nat) (s : State) : State :=
  match (s.slotTab die).next with
  | some (x, n) =>
    if s.cycles (dieLayer die) % 64 = 0 && decide (n < frameNow s die) then { s with slots := tset s.slots die ⟨x, none⟩ } else s
  | none => s
/-- The step of `SLOT_TABLE_SWITCH`. -/
def execSlotTableSwitch (die : Nat) (s : State) : Out := runEvent (slotSwitch die) s

/-! ## Firmware's registers -/

/-- A partition is quiescent (R364): no context of it other than contexts 0 is spawned, and no migrant of it is hosted. -/
def quiescent (s : State) (p : Nat) : Bool :=
  !(s.ctxs.any fun x => x.2.part.toNat = p && (x.2.away.isSome || (mbaCtx x.1 != 0 && x.2.run != .unspawned)))

/-- A partition exists: there are 16, and in minimal mode one (R433). -/
def partExists (s : State) (p : Nat) : Bool := decide (p < 16) && (!s.minimal || p = 0)

/-- Firmware writes `compat` in a quiescent partition (R322). Turned on, the store buffers are empty, and the stores issued from then on are held;
turned off, the stores held are first performed. [DEDUCED: log 67] -/
def compatWrite (p : Nat) (v : Bool) (s : State) : State :=
  if !quiescent s p || !partExists s p then s
  else s.modPart p fun q =>
    if v then { q with compat := true, drain := false, cseq := if q.compat then q.cseq else s.aseq }
    else if q.compat && storesHeld s p then { q with drain := true }
    else { q with compat := false }
/-- The step of `COMPAT_WRITE`. -/
def execCompatWrite (part : Nat) (v : Bool) (s : State) : Out := runEvent (compatWrite part v) s

/-- A core's retention register is written (Table 22.5). -/
def retctlWrite (s : State) (cid v : Nat) : State :=
  s.modCore cid fun k => { k with retEn := nbit v 0, retIdle := BitVec.ofNat 32 (nbits v 39 8) }

/-- Every core takes what it can from its overflow queue, where contexts of it may have become eligible (R375). -/
def takeEverywhere (s : State) : State :=
  (s.cores.filter fun x => !x.2.ovf.isEmpty).foldl (fun s x => takeQueued s x.1) s

/-- What runs is in the world of its core's block as the registers now state it, and the supervisor contexts run with `sup` = 1 (R383–R385). -/
def reworld (s : State) : State :=
  { s with ctxs := s.ctxs.map fun (m, c) =>
    (m, if c.run = .unspawned then c else { c with sec := worldOf s (mbaCid m) c.sec, sup := c.sup || isSupervisor s m }) }

/-- Firmware writes a register over the service path; bits beyond its width are ignored. [DEDUCED: log 68] -/
def firmwareWrite (r : FwReg) (v : Nat) (s : State) : State :=
  let w32 := BitVec.ofNat 32 v
  let part := fun (p : Nat) (f : Partition → Partition) => if partExists s p then s.modPart p f else s
  match r with
  | .cols p => takeEverywhere (reworld (part p fun q => { q with cols := v % if s.minimal then 2 else 2 ^ 16 }))
  | .ucores p => takeEverywhere (reworld (part p fun q => { q with ucores := v % 2 ^ 120 }))
  | .secmask p => takeEverywhere (reworld (part p fun q => { q with secmask := v % 2 ^ 200 }))
  | .c0core p => takeEverywhere (part p fun q => { q with c0core := v % 2 ^ 1920 })
  | .c0slots p => part p fun q => { q with c0slots := v % 2 ^ 64 }
  | .c0rate p => part p fun q => { q with c0rate := v % 2 ^ 16 }
  | .shcap p => part p fun q => { q with shcap := v % 2 ^ 11 }
  | .ringBase p sec => part p fun q => q.modRing sec fun g => { g with base := BitVec.ofNat 64 v }
  | .ringCtl p sec => part p fun q => q.modRing sec fun g => { g with ctl := w32 &&& 0xF }
  | .ringHead p sec => part p fun q => q.modRing sec fun g => { g with head := w32 }
  | .ringTail p sec => part p fun q => q.modRing sec fun g => { g with tail := w32 }
  | .clearNinv p => part p fun q => { q with ninv := 0 }
  | .clearNfull p => part p fun q => { q with nfull := 0 }
  | .clearNrate p => part p fun q => { q with nrate := 0 }
  | .ptroot p => part p fun q => { q with ptroot := v % 2 ^ 28 }
  | .keylo p => part p fun q => { q with keylo := v % 2 ^ 13 }
  | .keyhi p => part p fun q => { q with keyhi := v % 2 ^ 13 }
  | .wdlim p => part p fun q => { q with wdlim := v % 2 ^ 32 }
  | .budget site p cls =>
    let k := budgetKey (siteNum site) p cls
    if !partExists s p || decide (4 ≤ cls) then s
    else { s with budgets := tset s.budgets k { tget Budget.init s.budgets k with tok := v % 2 ^ 13, spill := nbit v 16 } }
  | .retctl cid => if cidValid s.minimal cid then retctlWrite s cid v else s
  | .vlan id => if 4096 ≤ id then s else { s with vlans := tset s.vlans id (BitVec.ofNat 6 v) }
  | .errcnt layer cl => s.modCluster (64 * layer + cl) fun c => { c with disc := 0, unc := 0, cor := 0 }
  | .segEntry cid q =>
    if cidValid s.minimal cid && decide (q < 16) then s.wr (spadLoc cid (segEntryOff cid q)) 16 v else s
  | .sigPolicy p => part p fun q => { q with sigReq := nbit v 0 }
  | .trustedKey p i => part p fun q => { q with keys := tset q.keys i v }
  | .debugger p => part p fun q => { q with dbg := nbit v 0 }
/-- The step of `FIRMWARE_REGISTER_WRITE`. -/
def execFirmwareRegisterWrite (r : FwReg) (v : Nat) (s : State) : Out := runEvent (firmwareWrite r v) s

/-! ## Context 0 (R292) -/

/-- The frame with which firmware starts context 0 of a core (R292): the entry of the loaded image's monitor unit, or where there is none the
PC that firmware gives, the descriptors at selectors 0–7, no queues linked, and `sup` = 0. [DEDUCED: log 93] [DESIGN CHOICE: log 99] -/
def monitorContext (s : State) (cid pc : Nat) (c : Context) : Context :=
  let m := 16 * cid
  let p := (ownerPart s cid).getD 0
  { c with
    run := .running, pc := BitVec.ofNat 64 (((s.part p).mentry.map BitVec.toNat).getD pc % 2 ^ 48 / 4 * 4), via := BitVec.allOnes 64,
    x := Vector.replicate 24 0, k := 0, flags := 0, mode := 1, jobseed := 0, rngst := 1, gpos := 0,
    seg := Vector.ofFn fun i : Fin 8 => tableDesc s cid i, sel := 0x76543210,
    qlink := 0, msgdst := 0, bowgrp := 0, tcause := 0, tinfo := 0, tpc := 0,
    sec := blockSecure s p cid, sup := false, part := BitVec.ofNat 4 p, ctxid := BitVec.ofNat 8 (m % 16),
    fretboard := (s.part p).mfret, frame := none, wait := none, rcv := none }

/-- Partition firmware runs (Table 22.8). [DEDUCED: log 66] -/
def firmwareUp (s : State) : Bool := s.boot.phase = 0x07 || s.boot.phase = 0x0F

/-- Firmware starts context 0 of a core, where nothing runs in it: run entries kept for it are posted, and its core may take
items (R270, R292, R363). -/
def startContext0 (cid pc : Nat) (s : State) : State :=
  if !firmwareUp s || !cidValid s.minimal cid || (s.ctx (16 * cid)).run != .unspawned then s
  else monitorStarted (s.modCtx (16 * cid) (monitorContext s cid pc)) cid
/-- The step of `CONTEXT0_START`. -/
def execContext0Start (cid pc : Nat) (s : State) : Out := runEvent (startContext0 cid pc) s

end Sys2Proof.Machine
end

