-- ==== Sys2Proof/Machine/Image.lean ====
section
/-! DEFINITION. The Wyrin object format and the load operation (chapter 18; R352–R365), and the measurement logs (R437). -/

namespace Sys2Proof.Machine

open Sys2Proof.Config

/-! ## Measurement logs (R437) -/

/-- Bytes as a digest: 32 of them. -/
def digest32 (bs : List Byte) : List Byte := (bs ++ List.replicate 32 0).take 32

/-- An entry is appended to a log and to its chain (R437). -/
def MLog.append (g : MLog) (type time : Nat) (digest : List Byte) : MLog :=
  let d := digest32 digest
  { entries := g.entries ++ [leBytes 8 (type % 16) ++ leBytes 8 time ++ d ++ List.replicate 16 0],
    chain := sha256 (g.chain ++ d) }

/-! ## The file (R352–R355) -/

/-- A little-endian field of a file. -/
def fld (f : List Byte) (o n : Nat) : Nat := leVal ((f.drop o).take n)

/-- A section table entry (Table 18.2) with its contents. -/
structure Section where
  name  : Nat
  kind  : Nat
  unit  : Nat
  foff  : Nat
  fsize : Nat
  loff  : Nat
  msize : Nat
  info  : Nat
  align : Nat
  data  : List Byte
  deriving DecidableEq, Repr

/-- Section `i` of a file. -/
def sectionAt (f : List Byte) (i : Nat) : Section :=
  let o := fld f 16 8 + 48 * i
  { name := fld f o 4, kind := fld f (o + 4) 2, unit := fld f (o + 6) 2, foff := fld f (o + 8) 8, fsize := fld f (o + 16) 8,
    loff := fld f (o + 24) 8, msize := fld f (o + 32) 8, info := fld f (o + 40) 4, align := fld f (o + 44) 4,
    data := (f.drop (fld f (o + 8) 8)).take (fld f (o + 16) 8) }

/-- The sections of a file. -/
def sectionsOf (f : List Byte) : List Section := (upFrom 0 (fld f 12 4)).map (sectionAt f)

/-- A unit table entry (R354). -/
structure WUnit where
  mask   : Nat
  levels : Bool
  entry  : Word
  fret   : W32
  ok     : Bool
  deriving DecidableEq, Repr

/-- The units of a file. -/
def unitsOf (secs : List Section) : List WUnit :=
  (secs.filter (·.kind = 7)).flatMap fun s => (upFrom 0 (s.fsize / 32)).map fun i =>
    let w := fld s.data (32 * i + 4) 4
    let fret := fld s.data (32 * i + 16) 4
    ⟨w % 16, nbit w 4, BitVec.ofNat 64 (fld s.data (32 * i + 8) 8), BitVec.ofNat 32 fret,
      decide (w < 32) && (nbit w 4 || fret = 0) && fld s.data (32 * i + 20) 12 = 0⟩

/-- A section's bytes that are placed: a bank image without its head; zero beyond the file's bytes. -/
def Section.placed (s : Section) : List Byte :=
  let h := if s.kind = 4 then 16 else 0
  s.data.drop h ++ List.replicate (s.msize - s.fsize) 0

/-- The routine images of a routine section: handle, header, body (R354); none where one does not fit. -/
def routineImages : (fuel : Nat) → List Byte → Option (List (Nat × W32 × List W32))
  | 0, bs => if bs.isEmpty then some [] else none
  | n + 1, bs =>
    if bs.isEmpty then some []
    else
      let hdr := BitVec.ofNat 32 (fld bs 4 4)
      let k := 8 + 4 * rtnLen hdr
      if bs.length < k then none
      else (routineImages n (bs.drop k)).map fun l =>
        (fld bs 0 4, hdr, (upFrom 0 (rtnLen hdr)).map fun i => BitVec.ofNat 32 (fld bs (8 + 4 * i) 4)) :: l

/-- The graphs of an edge-reversal section fill it: heads, each followed by its task entries and its edge entries (R354). -/
def graphsFill : (fuel : Nat) → List Byte → Bool
  | 0, bs => bs.isEmpty
  | n + 1, bs =>
    let k := 16 + 16 * fld bs 0 4 + 16 * fld bs 4 4
    bs.isEmpty || (decide (k ≤ bs.length) && graphsFill n (bs.drop k))

/-- A symbol table entry's fields hold in an executable image (R355, R357). -/
def symbolOk (f : List Byte) (o : Nat) : Bool :=
  let sec := fld f (o + 4) 2
  (sec = 0xFFFF || sec = 0xFFFE || decide (sec < fld f 12 4)) && decide (fld f (o + 6) 1 ≤ 1) && decide (fld f (o + 7) 1 ≤ 3)
    && fld f (o + 16) 8 = 0

/-- A section's own fields hold (R353, R354). -/
def Section.ok (size units : Nat) (s : Section) : Bool :=
  s.kind != 0 && s.kind != 10 && decide (s.kind ≤ 11) && decide (s.foff + s.fsize ≤ size) && decide (s.fsize ≤ s.msize)
    && [4, 8, 16, 32, 64, 128, 256, 512, 1024, 2048, 4096].elem s.align && s.loff % s.align = 0
    && (s.unit = 0xFFFF || decide (s.unit < units))
    && (if s.kind = 4 then decide (s.info < 2 ^ 11) else if s.kind = 5 then decide (s.info < 16) else s.info = 0)
    && (s.kind != 7 || s.loff = 0)
    && match s.kind with
       | 4 => decide (16 ≤ s.fsize) && fld s.data 4 12 = 0
       | 5 => s.fsize % 16 = 0 && (upFrom 0 (s.fsize / 16)).all fun i => decide (fld s.data (16 * i + 8) 8 < 2)
       | 6 => match routineImages (s.fsize / 12 + 1) s.data with
         | some l => l.all fun (x : Nat × W32 × List W32) => decide (x.1 ≤ 239)
         | none => false
       | 7 => s.fsize % 32 = 0
       | 8 => graphsFill (s.fsize / 16 + 1) s.data
       | 9 => s.fsize % 40 = 0 && (upFrom 0 (s.fsize / 40)).all fun i => decide (fld s.data (40 * i) 4 < 8)
       | 11 => s.fsize % 64 = 0
       | _ => true

/-- The file is valid under R352–R357 as an executable image. [DESIGN CHOICE: log 70] -/
def fileOk (f : List Byte) : Bool :=
  let n := f.length
  let secs := sectionsOf f
  let units := unitsOf secs
  let flags := fld f 8 4
  decide (64 ≤ n) && fld f 0 4 = 0x31464F57 && fld f 4 2 = 1 && fld f 6 2 = 2 && nbits flags 15 1 = 0
    && decide (fld f 16 8 + 48 * fld f 12 4 ≤ n) && decide (fld f 24 8 + 24 * fld f 32 4 ≤ n)
    && fld f 36 4 = 0 && decide (fld f 40 8 ≤ n) && decide (fld f 48 8 ≤ n)
    && (if nbit flags 0 then fld f 56 8 + 7896 = n else fld f 56 8 = 0)
    && secs.all (Section.ok n units.length) && units.all (·.ok) && decide ((secs.filter (·.kind = 7)).length ≤ 1)
    && (nbits flags 31 16 = 0xFFFF || decide (nbits flags 31 16 < units.length))
    && (upFrom 0 (fld f 32 4)).all fun i => symbolOk f (fld f 24 8 + 24 * i)

/-! ## Signatures (R365) -/

/-- The bytes that the digest covers. -/
def signedBytes (f : List Byte) : List Byte := if nbit (fld f 8 4) 0 then f.take (fld f 56 8) else f

/-- The signature rule of a partition holds for a file: the key is the one that the partition trusts under the block's index. -/
def signatureOk (req : Bool) (keys : Tbl Nat) (f : List Byte) : Bool :=
  if nbit (fld f 8 4) 0 then
    let b := f.drop (fld f 56 8)
    let d := sha256 (signedBytes f)
    fld b 0 4 = 1 && (b.drop 8).take 32 = d && match keys.find? (·.1 = fld b 4 4) with
      | some k => signatureValid k.2 d ((b.drop 40).take 7856)
      | none => false
  else !req

/-! ## Placement (R358–R363) -/

/-- One write of a load. -/
inductive LoadWrite where
  | bytes (loc : Nat) (bs : List Byte) (key : Option Nat)
  | bankFmt (cid b : Nat) (f : BitVec 7) (scl : W32)
  | grans (loc n : Nat) (full : Bool)
  | weights (cid set : Nat) (ws : List W32)
  | routine (h : Nat) (r : Routine)
  deriving DecidableEq, Repr

/-- The cores of a partition, in ascending CID. -/
def partCores (s : State) (p : Nat) : List Nat :=
  ((upFrom 0 4).flatMap (layerCores s.minimal)).filter (coreIn s p)

/-- The unit of a section: 0xFFFF stands for none (R353). -/
def unitNo (units : List WUnit) (u : Nat) : Option WUnit := if u = 0xFFFF then none else units[u]?
/-- The layer mask of a section's unit (R354). -/
def maskAt (units : List WUnit) (u : Nat) : Nat := match unitNo units u with | some w => w.mask | none => 0

/-- A descriptor of the partition segment table, as the partition's first core on a layer holds it, or, where the partition has none there, its
first core (R169). [DEDUCED: log 72] -/
def partDesc (s : State) (p : Nat) (layer : Option Nat) (q : Nat) : Option Desc :=
  let l := partCores s p
  ((l.find? fun c => layer = some (cidLayer c)).or l.head?).map fun c => tableDesc s c q

/-- Bytes of a section fit a segment of a space. -/
def fitsSeg (d : Desc) (space : Nat) (s : Section) : Bool :=
  dSpace d = space && decide (s.loff + s.msize ≤ dLimit d)

/-- Code that a section places in the code space of every layer that its unit names (R358): none where it leaves its segment. [DEDUCED: log 71] -/
def placeCode (s : State) (p : Nat) (units : List WUnit) (x : Section) : Option (List LoadWrite) :=
  ((upFrom 0 4).filter fun l => nbit (maskAt units x.unit) l).foldr (fun l r =>
    match r, partDesc s p (some l) 0 with
    | some ps, some d => if fitsSeg d 3 x then some (.bytes (codeLoc l (dBase d + x.loff)) x.placed none :: ps) else none
    | _, _ => none) (some [])

/-- The pieces of bytes at a DVA, by pages: every copy of a replicated page is written (R358). -/
def placeDva (s : State) (p : BitVec 4) : (fuel dva : Nat) → List Byte → Option (List LoadWrite)
  | 0, _, bs => if bs.isEmpty then some [] else none
  | n + 1, dva, bs =>
    if bs.isEmpty then some []
    else
      let k := 4096 - dva % 4096
      match walk s p dva, placeDva s p n (dva + k) (bs.drop k) with
      | .leaf l b, some ps =>
        let e : TlbEnt := ⟨p, 0, dva / 2 ^ b * 2 ^ b, b, l, false, 0, 0⟩
        let pa := leafPa e dva
        some ((pa :: if leafRepl e then otherCopies pa else []).map (fun a => LoadWrite.bytes a (bs.take k) (leafPage e).key) ++ ps)
      | _, _ => none

/-- Data that a section places in `s4` or `s5`. -/
def placeData (s : State) (p : Nat) (q : Nat) (x : Section) : Option (List LoadWrite) :=
  match partDesc s p none q with
  | some d => if fitsSeg d 2 x then placeDva s (BitVec.ofNat 4 p) (x.msize / 4096 + 2) (dBase d + x.loff) x.placed else none
  | none => none

/-- A bank image or full-empty range stays in its bank on a layer, and out of the reserved area of bank 15 (R359). -/
def fitsBank (x : Section) (layer : Nat) : Bool :=
  let z := bankSize layer
  if x.kind = 4 then
    decide (x.loff + (x.msize - 16) ≤ z) && !(x.info % 16 = 15 && decide (16 < x.msize) && decide (z - 1280 < x.loff + (x.msize - 16)))
  else (upFrom 0 (x.fsize / 16)).all fun i => decide (fld x.data (16 * i) 4 + fld x.data (16 * i + 4) 4 ≤ z)

/-- What a unit places in bank `b` of a core (R359). -/
def placeBank (secs : List Section) (u cid b : Nat) : List LoadWrite :=
  let loc := fun (o : Nat) => spadLoc cid (b * bankSize (cidLayer cid) + o)
  let own := secs.filter fun x => x.unit = u && x.info % 16 = b
  (own.filter (·.kind = 4)).flatMap (fun x =>
      [.bankFmt cid b (BitVec.ofNat 7 (nbits x.info 10 4)) (BitVec.ofNat 32 (fld x.data 0 4)), .bytes (loc x.loff) x.placed none])
    ++ [.grans (loc 0) (bankSize (cidLayer cid)) true]
    ++ (own.filter (·.kind = 5)).flatMap fun x => (upFrom 0 (x.fsize / 16)).map fun i =>
        .grans (loc (fld x.data (16 * i) 4)) (fld x.data (16 * i + 4) 4) (fld x.data (16 * i + 8) 8 = 1)

/-- Bank images and ranges of a core, in unit order (R359). -/
def placeBanks (secs : List Section) (units : List WUnit) (cid : Nat) : List LoadWrite :=
  (upFrom 0 units.length).flatMap fun u =>
    if nbit (maskAt units u) (cidLayer cid) then
      (secs.filter fun x => x.kind = 4 && x.unit = u).foldl (fun (l : List Nat) x =>
        if l.elem (x.info % 16) then l else l ++ [x.info % 16]) [] |>.flatMap (placeBank secs u cid)
    else []

/-- Weight sets of a core (R362). -/
def placeWeights (secs : List Section) (units : List WUnit) (cid : Nat) : List LoadWrite :=
  (secs.filter fun x => x.kind = 9 && nbit (maskAt units x.unit) (cidLayer cid)).flatMap fun x =>
    (upFrom 0 (x.fsize / 40)).map fun i =>
      .weights cid (fld x.data (40 * i) 4) ((upFrom 0 9).map fun j => BitVec.ofNat 32 (fld x.data (40 * i + 4 + 4 * j) 4))

/-- Bank images and ranges stay in their banks on every layer on which they have a core of the partition (R359). -/
def banksOk (s : State) (p : Nat) (secs : List Section) (units : List WUnit) : Bool :=
  secs.all fun x => (x.kind != 4 && x.kind != 5)
    || (upFrom 0 4).all fun l => !nbit (maskAt units x.unit) l || !((partCores s p).any fun c => cidLayer c = l) || fitsBank x l

/-- What a load places in code and data (step 3 of R364): none where a placement leaves its segment or bank. -/
def placements (s : State) (p : Nat) (f : List Byte) : Option (List LoadWrite) :=
  let secs := sectionsOf f
  let units := unitsOf secs
  if !banksOk s p secs units then none
  else secs.foldr (fun x r =>
    match r, (match x.kind with
      | 1 => placeCode s p units x
      | 2 | 8 | 11 => placeData s p 4 x
      | 3 => placeData s p 5 x
      | _ => some []) with
    | some ps, some qs => some (qs ++ ps)
    | _, _ => none) (some [])

/-- The routines of a file in order, up to the first that R241 rejects, and that one's `tinfo` (R361). [DEDUCED: log 73] -/
def placeRoutines : List (Nat × W32 × List W32) → List LoadWrite × Option Word
  | [] => ([], none)
  | (h, hdr, body) :: l =>
    match rtnBad hdr body with
    | some i => ([], some i)
    | none => let (ps, x) := placeRoutines l; (.routine h (mkRoutine hdr body) :: ps, x)

/-- The routines of a file. -/
def routinesOf (secs : List Section) : List (Nat × W32 × List W32) :=
  (secs.filter (·.kind = 6)).flatMap fun x => (routineImages (x.fsize / 12 + 1) x.data).getD []

/-- Granules that a range touches. -/
def granulesOf (loc n : Nat) : List Nat := if n = 0 then [] else upFrom (loc / 16) ((loc + n - 1) / 16 + 1 - loc / 16)

/-- Granules of a range change their state, and what waits for it is served (R173). -/
def markRange (s : State) (loc n : Nat) (full : Bool) : State := (granulesOf loc n).foldl (fun s g => feMark s g full) s

/-- The 64-bit words that a range touches, by location ÷ 8. -/
def blockWords (loc n : Nat) : List Nat := if n = 0 then [] else upFrom (loc / 8) ((loc + n - 1) / 8 + 1 - loc / 8)

/-- What stands undefined after a load that ended with status 6 (R364): byte `k` of it. -/
def undefinedAt (s : State) (k : Nat) : Nat := (undefinedByte s.loads k).toNat
/-- An undefined word. -/
def undefinedWord (s : State) (k : Nat) : W32 :=
  BitVec.ofNat 32 (undefinedAt s k + 2 ^ 8 * undefinedAt s (k + 1) + 2 ^ 16 * undefinedAt s (k + 2) + 2 ^ 24 * undefinedAt s (k + 3))
/-- An undefined routine: none, or whatever header and body stand in the table. -/
def undefinedRoutine (s : State) (h : Nat) : Option Routine :=
  let k := 2 ^ 63 + 256 * h
  let hdr := undefinedWord s k
  if undefinedAt s (k + 4) % 2 = 0 then none
  else some (mkRoutine hdr ((upFrom 0 (rtnLen hdr)).map fun i => undefinedWord s (k + 8 + 4 * i)))

/-- Whether each word that a write of such a load covers is poisoned is undefined too (R364, R422, R423). -/
def undefinedPoison (s : State) (loc n : Nat) : State :=
  let one := fun (l : List Nat) (w : Nat) => if undefinedAt s (2 ^ 66 + w) % 2 = 1 then nins l w else ndel l w
  { s with poison := (blockWords loc n).foldl one s.poison }

/-- A write of a load takes place; where an error ended the load, what it writes is undefined (R364). -/
def LoadWrite.apply (p : Nat) (err : Bool) (s : State) (x : LoadWrite) : State :=
  match x with
  | .bytes loc bs key =>
    if err then undefinedPoison (s.putKeyed key loc ((upFrom loc bs.length).map (undefinedByte s.loads))) loc bs.length
    else (s.putKeyed key loc bs).clearPoison loc bs.length
  | .bankFmt cid b f v =>
    let k := 2 ^ 60 + 8 * (16 * cid + b)
    s.modCore cid fun c => { c with
      fmt := c.fmt.setIfInBounds b (if err then BitVec.ofNat 7 (undefinedAt s k) else f),
      bscl := c.bscl.setIfInBounds b (if err then undefinedWord s (k + 4) else v) }
  | .grans loc n full =>
    if err then (granulesOf loc n).foldl (fun s g => feMark s g (undefinedAt s (2 ^ 61 + g) % 2 = 1)) s else markRange s loc n full
  | .weights cid set ws =>
    s.modCore cid fun c => { c with wset := (ws.zip (upFrom 0 9)).foldl (fun t (y : W32 × Nat) =>
      tset t (9 * set + y.2) (if err then undefinedWord s (2 ^ 62 + 4 * (128 * cid + 9 * set + y.2)) else y.1)) c.wset }
  | .routine h r =>
    s.modPart p fun q => { q with routines := tset q.routines h (if err then undefinedRoutine s h else some r) }

/-- Applies the writes of a load in order. -/
def applyAll (p : Nat) (err : Bool) (ps : List LoadWrite) (s : State) : State := ps.foldl (LoadWrite.apply p err) s

/-- The monitor unit of an image (Table 18.1). -/
def monitorUnit (f : List Byte) : Option WUnit := unitNo (unitsOf (sectionsOf f)) (nbits (fld f 8 4) 31 16)

/-- The fretboard with which contexts 0 start (R363). -/
def monitorFret (f : List Byte) : W32 :=
  match monitorUnit f with
  | some u => if u.levels then u.fret else 0
  | none => 0

/-- The status of a load, its low 32 bits included (Table 18.5). -/
def loadStatus (code low : Nat) : BitVec 64 := BitVec.ofNat 64 (code * 2 ^ 32 + low % 2 ^ 32)

/-- Firmware loads an image into a quiescent partition (R364). An error during placement leaves what the load would have written undefined: bytes,
bank formats and scales, the state of each granule, weights, routines, what the monitor starts with, and whether cached code is dropped. -/
def imageLoad (p : Nat) (f : List Byte) (err : Bool) (s : State) : State :=
  let q := s.part p
  let done := fun (s : State) (code low : Nat) => s.modPart p fun q => { q with status := loadStatus code low }
  if !partExists s p then s
  else if !quiescent s p then done s 3 0
  else if decide (64 ≤ f.length) && !signatureOk q.sigReq q.keys f then done s 2 0
  else if !fileOk f then done s 1 0
  else match placements s p f with
    | none => done s 4 0
    | some code =>
      let secs := sectionsOf f
      let units := unitsOf secs
      let cores := partCores s p
      let (rs, bad) := placeRoutines (routinesOf secs)
      let all := code ++ cores.flatMap (placeBanks secs units) ++ cores.flatMap (placeWeights secs units) ++ rs
      let s := applyAll p err all s
      let s := s.modPart p fun q => { q with log := q.log.append 3 s.gtime (sha256 (signedBytes f)) }
      let s := s.modPart p fun q =>
        if err then { q with image := [], mfret := undefinedWord s (2 ^ 64), mentry := some (undefinedWord s (2 ^ 64 + 8) ++ undefinedWord s (2 ^ 64 + 4)) }
        else { q with image := f, mfret := monitorFret f, mentry := (monitorUnit f).map (·.entry) }
      let s := { s with cores := s.cores.map fun (x : Nat × Core) =>
        (x.1, if cores.elem x.1 && !(err && undefinedAt s (2 ^ 65 + x.1) % 2 = 0) then { x.2 with ic := [] } else x.2) }
      if err then done { s with loads := s.loads + 1 } 6 0
      else match bad with
        | some i => done s 5 i.toNat
        | none => done s 0 0
/-- The step of `IMAGE_LOAD`. -/
def execImageLoad (part : Nat) (image : List Byte) (err : Bool) (s : State) : Out := runEvent (imageLoad part image err) s

end Sys2Proof.Machine
end

