-- ==== Sys2Proof/Machine/Msg.lean ====
section
/-! DEFINITION. Messages between contexts: `recvt`, `mbcnt`, `send`, the arrival of words (R30–R32, R194–R197), the mute
(R218, R219) and the bow (R215–R217, R304–R306). -/

namespace Sys2Proof.Machine

open Sys2Proof.Config

/-! ## Mailboxes (R195–R197) -/

/-- `recvt` ends with the word that it pops, or with zero where its time is over (R196). -/
def endRecvt (d : Reg) (late : Bool) : M Unit := do
  let v ← if late then pure 0 else popMbx
  modMe fun c => { c with rcv := none }.setK 30 late
  writeReg d v

/-- `recvt` (R196). A waiting one has read its limit once; what it read from a queue is taken when it completes (R29). -/
def bodyRecvt (d a : Reg) : M Unit := do
  noMigrant
  let s0 ← get
  match s0.me.rcv with
  | some r =>
    modify fun s => takePops s s.cur
    endRecvt d (r.expired || (← me).mbx.isEmpty)
  | none =>
    let l ← readReg a
    let s ← get
    let now := s.cycles s.layer
    if !s.me.mbx.isEmpty || l = 0 then endRecvt d s.me.mbx.isEmpty
    else
      checkDest d
      postpone s0 [(a, l)]
      modify fun s => noteWait (s.modMe fun c => { c with rcv := some ⟨now + l.toNat, d, false⟩ }) s.cur .emptyRead
      throw .hold
/-- The step of `recvt`. -/
def execRecvt (d a : Reg) (s : State) : Out := runInstr 4 (bodyRecvt d a) s

/-- The cycle that a waiting `recvt` names as its last is over with the mailbox empty (R196): it has completed in that cycle, k30 says so, and zero
is written, or waits until its destination takes it. The context is no longer blocked (R217). -/
def recvtExpires (m : Nat) (s : State) : State :=
  let c := s.ctx m
  match c.rcv with
  | some r =>
    if c.run = .running && blockedRead s m && decide (r.stop < s.cycles (cidLayer (mbaCid m))) then
      match deliver ((takePops s m).modCtx m fun c => { c with rcv := none }.setK 30 true) m r.d 0 with
      | some t => bowMark ((resumedAfter t m 4).modCtx m fun c => { c with cyc := r.stop }) m
      | none => bowMark (noteWait (s.modCtx m fun c => { c with rcv := some { r with expired := true } }) m .fullWrite) m
    else s
  | none => s
/-- The step of `RECVT_TIMEOUT`. -/
def execRecvtTimeout (m : Nat) (s : State) : Out := runEvent (recvtExpires m) s

/-- `mbcnt` (R197). -/
def bodyMbcnt (d : Reg) : M Unit := do
  noMigrant
  writeReg d (BitVec.ofNat 64 (← me).mbx.length)
/-- The step of `mbcnt`. -/
def execMbcnt (d : Reg) (s : State) : Out := runInstr 4 (bodyMbcnt d) s

/-- `send` (R197). -/
def bodySend (a b : Reg) : M Unit := do
  noMigrant
  let m ← readReg a
  let v ← readReg b
  sendWord m v
/-- The step of `send`. -/
def execSend (a b : Reg) (s : State) : Out := runInstr 4 (bodySend a b) s

/-- The oldest word from `src` to `dst` reaches the destination core's ingress buffer, behind what its sender sent to that core before, and the
mailbox admits what it can (R195, R410, R411). A word for a cluster under reset is lost, and its sender told (R415). -/
def wordArrives (src dst : Nat) (s : State) : State :=
  match s.net.find? fun w => w.src = src && w.dst = dst with
  | none => s
  | some w =>
    if earlierMsg s src (mbaCid dst) w.n then s
    else
      let s := { s with net := s.net.erase w }
      if s.downAt (mbaCid dst) then
        if w.hw then s else postHw s (mbaCid src) src (resetNotice dst)
      else admitAll dst { s with ingress := s.ingress ++ [w] }
/-- The step of `MAILBOX_WORD_ARRIVAL`. -/
def execMailboxWordArrival (src dst : Nat) (s : State) : Out := runEvent (wordArrives src dst) s

/-- The oldest word on its way to a neighbour queue reaches it (R30); the queues of a cluster under reset take none. -/
def portWordArrives (cid : Nat) (dir : Dir) (s : State) : State :=
  match s.pnet.find? fun w => w.cid = cid && w.dir = dir with
  | none => s
  | some w =>
    let s := { s with pnet := s.pnet.erase w }
    if s.downAt cid then s
    else s.modCore cid fun k => k.setPortq dir { k.portq dir with q := (k.portq dir).q ++ [(w.v, none)] }
/-- The step of `PORT_WORD_ARRIVAL`. -/
def execPortWordArrival (cid : Nat) (dir : Dir) (s : State) : Out := runEvent (portWordArrives cid dir) s

/-- The oldest word or mute from one context reaches the `qin` of another (R31, R218). -/
def qinWordArrives (src dst : Nat) (s : State) : State :=
  match s.qnet.find? fun w => w.src = src && w.dst = dst with
  | none => s
  | some w => { s with qnet := s.qnet.erase w }.modCtx dst fun c => { c with qin := c.qin ++ [w.e] }
/-- The step of `QIN_WORD_ARRIVAL`. -/
def execQinWordArrival (src dst : Nat) (s : State) : Out := runEvent (qinWordArrives src dst) s

/-! ## The mute (R218, R219) -/

/-- The mute of a stopped context goes into its `qout` stream, where it has one, and its notice goes out (R218); none where
the mute waits for room. -/
def muteOutOf (s : State) (m : Nat) : Option State :=
  if qlinkOk s m then (placeMute s m).map fun t => muteNotice t m else some (muteNotice s m)

/-- `mutesend` (R218). -/
def bodyMutesend (a : Reg) : M Unit := do
  noMigrant
  privileged
  let s0 ← get
  let v ← readReg a
  let m := v.toNat
  let s ← get
  raiseIf (!mbaValid s.minimal m) 0x02 m
  raiseIf (!s.me.sup && clKey (mbaCid m) != clKey (mbaCid s.cur)) 0x06 s.grp.instr.toNat
  raiseIf (decide ((s.ctx m).run = .unspawned)) 0x02 m
  if m = s.cur then
    stallIf (!s.me.out.isEmpty) .access
    let t := (s.goto (s.nextPc 4) s.me.pc).modMe fun c => { c with run := .stopped .mute }
    set (((muteOutOf t m).filter fun _ => t.me.muteOut.isEmpty).getD (t.modMe fun c => { c with muteOut := c.muteOut ++ [m] }))
  else
    match stopStep s m s.cur (.stopped .mute) with
    | (_, false) => waitStop s0 m (.stopped .mute)
    | (t, true) =>
      match (muteOutOf t m).filter fun _ => (t.ctx m).muteOut.isEmpty with
      | some t => set (t.goto (s.nextPc 4) s.me.pc)
      | none =>
        postpone s0 [(a, v)]
        modify fun s =>
          noteWait ((stopStep s m s.cur (.stopped .mute)).1.modCtx m fun c => { c with muteOut := c.muteOut ++ [s.cur] }) s.cur .muteRoom
        throw .hold
/-- The step of `mutesend`. -/
def execMutesend (a : Reg) (s : State) : Out := runWhole (bodyMutesend a) s

/-- The oldest mute that waits for room in a context's `qout` is placed once there is room (R218, R219): a forwarding role then
stops, and the `mutesend` that waits for a stopped role completes. -/
def mutePlaced (m : Nat) (s : State) : State :=
  let c := s.ctx m
  match c.muteOut with
  | [] => s
  | w :: rest =>
    if w = m && c.forwards m then (forwardMute s m).getD s
    else match muteOutOf s m with
      | none => s
      | some t =>
        let t := t.modCtx m fun c => { c with muteOut := rest }
        if w = m then t else resumedAfter (takePops t w) w 4
/-- The step of `MUTE_PLACEMENT`. -/
def execMutePlacement (m : Nat) (s : State) : Out := runEvent (mutePlaced m) s

/-! ## The bow (R215–R217, R304–R306) -/

/-- A member context of a group, whose home is a core, runs and is not blocked in a read (R217). -/
def activeOn (s : State) (cid g : Nat) : Bool :=
  s.ctxs.any fun (m, c) =>
    mbaCid m = cid && c.bowgrp.getLsbD g && c.run = .running && !blockedRead s m

/-- An application message that member contexts of a group on a core sent has not been delivered (R217). -/
def undelivered (s : State) (cid g : Nat) : Bool :=
  let own := fun (src : Nat) (grp : BitVec 16) => mbaCid src = cid && grp.getLsbD g
  s.net.any (fun w => own w.src w.grp) || s.ingress.any (fun w => own w.src w.grp)
    || s.pnet.any (fun w => own w.src w.grp) || s.qnet.any (fun w => own w.src w.grp)
    || s.cops.any (fun o => own o.src o.grp)

/-- The bow verdict (Table 8.2). -/
def verdict (s : State) (t : Token) (marked : Bool) : State :=
  postAs s (.bow (mbaCid t.start)) (mbaCid t.start) t.start
    (hwWord 9 (t.scope * 2 ^ 8 + t.grp * 2 ^ 4 + if marked then 1 else 0)) 0

/-- `bowstart` (R216). -/
def bodyBowstart (d a b : Reg) : M Unit := do
  noMigrant
  let c ← readReg a
  let g ← readReg b
  raiseIf (decide (c.toNat < 1) || decide (6 < c.toNat)) 0x02 c.toNat
  raiseIf (decide (15 < g.toNat)) 0x02 g.toNat
  let s ← get
  let sc := scopeNorm c.toNat s.cur
  let i := scopeInst sc s.cur
  if s.tokens.any fun t => t.grp = g.toNat && scopeNorm t.scope t.start = sc && t.inst = i then writeReg d 1
  else
    writeReg d 0
    let cores := scopeCores s.minimal sc s.cur
    let cid := mbaCid s.cur
    let ring := cores.filter (cid < ·) ++ cores.filter (· < cid) ++ [cid]
    modify fun s => { s with tokens := s.tokens ++ [Token.mk g.toNat c.toNat i s.cur ring false] }
/-- The step of `bowstart`. -/
def execBowstart (d a b : Reg) (s : State) : Out := runInstr 4 (bodyBowstart d a b) s

/-- A token leaves the core that holds it, once the core's messages have been delivered: it is marked where the core was
active since it last left, and goes on; back at the starter's core it gives its verdict (R217, R304). [DEDUCED: log 84] -/
def passToken (i : Nat) (s : State) : State :=
  match s.tokens[i]? with
  | none => s
  | some t =>
    match t.ring with
    | [] => s
    | cid :: rest =>
      if undelivered s cid t.grp || hwBusy s (.bow cid) then s
      else
        let act := activeOn s cid t.grp
        let marked := t.marked || (s.core cid).bow.getLsbD t.grp || act
        let bit := 1#16 <<< t.grp
        let s := s.modCore cid fun k => { k with bow := if act then k.bow ||| bit else k.bow &&& ~~~bit }
        if rest.isEmpty then verdict { s with tokens := dropAt s.tokens i } t marked
        else { s with tokens := setAt s.tokens i { t with ring := rest, marked := marked } }
/-- The step of `BOW_TOKEN_PASS`. -/
def execBowTokenPass (i : Nat) (s : State) : Out := runEvent (passToken i) s

end Sys2Proof.Machine
end

