-- ==== Sys2Proof/Machine/Reset.lean ====
section
/-! DEFINITION. Containment and reset (R415, R427–R429, with R189, R306, R376), start-up (R430–R434), throttling (R435, R436) and
attestation (R437, R438). -/

namespace Sys2Proof.Machine

open Sys2Proof.Config

/-! ## What a reset ends outside the region (R189, R428) -/

/-- The trap of an operation that a reset ends (R189, R428). -/
def poisonAt (info pc instr pfxs : Word) : HomeTrap := ⟨⟨0x13, info⟩, pc, instr, pfxs⟩

/-- A thread of an outside context is lost with its host (R189): its home takes poison, with the registers that it left with. -/
def loseMigrant (r : Nat → Bool) (s : State) (m : Nat) : State :=
  let c := s.ctx m
  match c.away with
  | none => s
  | some a =>
    let there := match a.phase with | .hosted _ | .queued => r a.host | _ => false
    if !there || r (mbaCid m) then s
    else
      let l := a.left
      let s := (giveBack s m).modCtx m fun c => { c with
        pc := l.pc, x := l.x, k := l.k, flags := l.flags, seg := l.seg, sel := l.sel, gpos := l.gpos, rngst := l.rngst, mode := l.mode,
        away := none, out := [], late := none, frame := none }
      takeTrapHome s m (poisonAt (BitVec.ofNat 64 (memInfo 0 12 false a.host)) l.pc 0 0) false

/-- A location is held by a core of the region: in a bank of it, or in a channel that it owns (R175). -/
def locIn (r : Nat → Bool) (minimal : Bool) (loc : Nat) : Bool := (isSpad loc || isHbm loc) && r (ownerOfLoc minimal loc)

/-- An access is outstanding at a core of the region. -/
def Acc.inRegion (r : Nat → Bool) (minimal : Bool) (a : Acc) : Bool := a.at_.ends.any (locIn r minimal)

/-- The accesses that an outside context has outstanding in the region end unperformed: a relaxed one as late poison, the plain
one as a precise trap (R428). -/
def endAccesses (r : Nat → Bool) (s : State) (m : Nat) : State :=
  let c := s.ctx m
  if r (s.hereOf m) || r (mbaCid m) then s
  else
    let gone := c.out.filter (Acc.inRegion r s.minimal)
    let s := s.modCtx m fun c => { c with
      out := c.out.filter fun a => !a.inRegion r s.minimal,
      late := match gone.find? (·.rlx) with | some a => some a.info | none => c.late }
    match gone.find? fun a => !a.rlx with
    | some a => takeTrapOf s m (poisonAt a.info a.ipc a.instr a.pfxs)
    | none => s

/-- A full-empty wait of an outside context at a granule of the region ends as poison (R428). -/
def endWaiter (r : Nat → Bool) (s : State) (w : FeWaiter) : State :=
  let loc := 16 * w.g
  if !(isSpad loc && r (locCid loc)) then s
  else match w.kind with
    | .engEmpty .. | .engFull .. => { s with feq := s.feq.erase w }
    | _ => if r (mbaCid w.who) then s else takeTrapOf s w.who (poisonAt w.info (s.ctx w.who).pc w.instr 0)

/-- The tiles of a command. -/
def Cmd.tiles (c : Cmd) : List Tile := c.dt.toList ++ c.at_.toList ++ c.bt.toList ++ c.dts

/-- The locations that a running command is about to read or to write. -/
def Cmd.ahead (c : Cmd) : List Nat := c.prog.plan.map (·.1) ++ c.prog.buf.flatMap fun o => o.pieces.map (·.loc)

/-- A running command works at a core of the region: at a tile there, or at a channel that a core there owns (R428). -/
def Cmd.worksIn (r : Nat → Bool) (minimal : Bool) (c : Cmd) : Bool :=
  c.prog.began && (c.tiles.any (fun t => r t.cid) || c.ahead.any (locIn r minimal))

/-- A command that runs, ended by a reset: engine-fault with sub 0x13 (R428). [DEDUCED: log 76] -/
def Cmd.ended (c : Cmd) (e : Eng) : Cmd :=
  let x := match c.prog.buf with | o :: _ => o.outs.headD 0 | [] => c.prog.unit * (match c.dt with | some d => d.cols | none => 1)
  { c with prog := { c.prog with
      buf := [], done := true, fault := c.prog.fault.or (some (faultInfo e { c with oper := none } x ⟨0x13, 0, false, none⟩)) } }

/-- The commands of an outside core's engines that work at cores of the region end (R428). -/
def endCommands (r : Nat → Bool) (s : State) (cid : Nat) : State :=
  if r cid then s
  else [Eng.vector, .copy, .global, .matrix, .pyramid, .link].foldl (fun s e =>
    match currentCmd s cid e with
    | some (i, c) =>
      if c.worksIn r s.minimal then
        setCmd (if e = .link then { s with puts := s.puts.filter (·.cid != some cid) } else s) cid e i (c.ended e)
      else s
    | none => s) s

/-- Where a DVA of a put lies that is still to land on this device, if the region holds it. -/
def putIn (r : Nat → Bool) (s : State) (m : PutMsg) (dva : Nat) : Bool :=
  match walkPa s (BitVec.ofNat 4 m.p.part) m.sec .write dva with
  | .ok x => locIn r s.minimal x.1
  | .error _ => false

/-- The first DVA that an outside put has outstanding in the region: of a piece that is still to land, or of its counter. -/
def putOutstanding (r : Nat → Bool) (s : State) (m : PutMsg) : Option Nat :=
  if m.cid.any r || (m.cid.isSome && m.dev != s.devNum) then none
  else (((putPieces m.p).drop m.pos).map (fun x => putAt m.p x.1 x.2.1) ++ m.p.ctr.toList).find? (putIn r s m)

/-- The puts of outside link engines that are still to land in the region end (R428). -/
def endPuts (r : Nat → Bool) (s : State) : State :=
  s.puts.foldl (fun s m => match putOutstanding r s m, s.puts.findIdx? (·.num = m.num) with
    | some a, some i => endPut s i m fun c => some (faultInfo .link c 0 ⟨0x13, 0, false, some a⟩)
    | _, _ => s) s

/-- Delegated requests that wait for a server of the region are refused, for the reset disables it (R310, R428): their requesters take
delegation-disabled, and their credits return (R411, R415). -/
def refuseRequests (r : Nat → Bool) (s : State) : State :=
  (s.dreqs.filter fun q => r q.owner).foldl
    (fun s q => if r (mbaCid q.req.from_) then s else trapAt s q.req.from_ ⟨0x16, BitVec.ofNat 64 q.owner⟩)
    { s with dreqs := s.dreqs.filter fun q => !r q.owner }

/-- The items in the overflow queues of the region return to their entries (R376), and so do those that a core took and of which no word has been
posted (R377). -/
def returnItems (r : Nat → Bool) (s : State) : State :=
  let own := (s.cores.filter fun x => r x.1).flatMap fun x => x.2.ovf
  let kept := (s.held.filter fun h => r (mbaCid h.w.dst)).filterMap (·.item)
  (own ++ kept).foldl returnItem { s with cores := s.cores.map fun (x : Nat × Core) => (x.1, if r x.1 then { x.2 with ovf := [] } else x.2) }

/-- A restrict instance with a parent or a participant in the region ends; its other participants fault (R428). -/
def endInstance (r : Nat → Bool) (s : State) (x : Nat × RInst) : State :=
  let parent := x.1 / 4
  if !r parent && !((upFrom 0 4).any fun k => r (childOf parent k)) then s
  else (x.2.parts.filter fun p => !r p.cid).foldl (fun s p => modPort s p.cid fun c => c.ended .pyramid)
    { s with rinst := s.rinst.filter fun y => y.1 != x.1 }

/-! ## The region itself (R415, R428) -/

/-- A context of the region after the reset: unspawned, with nothing of what it held. It is not halted any more (R403). -/
def resetContext (s : State) (m : Nat) : State :=
  let old := s.ctx m
  let host := s.hereOf m
  let s := leaveAllBars (withdraw s m) m
  let s := match old.away with | some a => s.modCore a.host fun k => { k with arrq := k.arrq.erase m } | none => s
  let s := thaw (s.setCtx m { Context.fresh m with gen := old.gen + 1 }) old.part.toNat
  if host = mbaCid m then s else freed s host

/-- Words for the region that their senders' contexts believed sent, requests in its delegation queues among them: one notice each (R415). [DEDUCED:
log 81] -/
def lostWords (r : Nat → Bool) (s : State) : List (Nat × Nat) :=
  let out := fun (src : Nat) => !r (mbaCid src)
  (s.net.filter fun w => !w.hw && r (mbaCid w.dst) && out w.src).map (fun w => (w.src, w.dst))
    ++ (s.ingress.filter fun w => !w.hw && r (mbaCid w.dst) && out w.src).map (fun w => (w.src, w.dst))
    ++ (s.ctxs.filter fun x => r (mbaCid x.1)).flatMap (fun x =>
        (x.2.mbx.filter fun w => !w.hw && out w.src).map fun w => (w.src, x.1))
    ++ (s.cores.filter fun x => r x.1).flatMap (fun x => (x.2.dlg.queue.filter fun q => out q.from_).map fun q => (q.from_, hwMba x.1))
    ++ (s.cops.filter fun o => r o.cid && decide (o.src < 2 ^ 20) && out o.src).map fun o => (o.src, 16 * o.cid)

/-- A bow token at, or on its way to, a core of the region is lost; a marked verdict goes to its starter (R306). -/
def loseTokens (r : Nat → Bool) (s : State) : State :=
  let lost := fun (t : Token) => match t.ring with | c :: _ => r c | [] => false
  let s' := (s.tokens.filter fun t => lost t && !r (mbaCid t.start)).foldl (fun s t => verdict s t true) s
  { s' with tokens := s'.tokens.filter fun t => !lost t }

/-- What the networks and the memory system hold for the region is gone, and what cores of the region had yet to write outside of it (R415,
R427, R428). The counter operations of the dispatcher wait until the region is back (R370). -/
def clearNets (r : Nat → Bool) (s : State) : State :=
  let mem := fun (loc : Nat) => isSpad loc && r (locCid loc)
  goOnWalking { s with
    net := s.net.filter fun w => !r (mbaCid w.dst)
    ingress := s.ingress.filter fun w => !r (mbaCid w.dst)
    pnet := s.pnet.filter fun w => !r w.cid
    qnet := s.qnet.filter fun w => !r (mbaCid w.dst)
    held := s.held.filter fun h => !r (mbaCid h.w.dst) && (h.by_ = .dispatcher || !r (mbaCid h.w.src))
    cops := s.cops.filter fun o => decide (2 ^ 20 ≤ o.src) || !(r o.cid || r (mbaCid o.src))
    reds := s.reds.filter fun u => !(r u.owner || r u.by_)
    props := s.props.filter fun p => !p.by_.any r
    dreqs := s.dreqs.filter fun q => !r (mbaCid q.req.from_)
    feq := s.feq.filter fun w => !mem (16 * w.g)
    puts := s.puts.filter fun p => match p.cid with | some c => !r c | none => true
    fills := s.fills.filter fun f => !r f.cid
    spaceq := s.spaceq.filter fun w => !r (mbaCid w.who)
    mem := s.mem.filter fun x => !mem x.1
    poison := s.poison.filter fun w => !mem (8 * w)
    empties := s.empties.filter fun g => !mem (16 * g)
    leases := s.leases.filter fun x => !r x.1 } (s.walks.filter fun w => !r w.cid)

/-- A core after the reset: as at start-up, with what firmware wrote of its retention register (R428). [DEDUCED: log 75] -/
def resetCore (k : Core) : Core := { Core.init with retEn := k.retEn, retIdle := k.retIdle, down := k.down }

/-- A region of cores is reset (R428): what is outside of it and outstanding in it ends, what it held is gone, and the items of
its overflow queues return (R376). [DEDUCED: log 81] -/
def resetRegion (r : Nat → Bool) (s : State) : State :=
  let notices := lostWords r s
  let ms := s.ctxs.map (·.1)
  let s := ms.foldl (loseMigrant r) s
  let s := ms.foldl (endAccesses r) s
  let s := s.feq.foldl (endWaiter r) s
  let s := (s.cores.map (·.1)).foldl (endCommands r) s
  let s := endPuts r s
  let s := s.rinst.foldl (endInstance r) s
  let s := returnItems r (refuseRequests r s)
  let s := (ms.filter fun m => r (mbaCid m)).foldl resetContext s
  let s := clearNets r (loseTokens r s)
  let s := { s with cores := s.cores.map fun (x : Nat × Core) => (x.1, if r x.1 then resetCore x.2 else x.2) }
  let s := releaseHeld ((upFrom 0 16).foldl settleDrain s)
  notices.foldl (fun s (x : Nat × Nat) => postHw s (mbaCid x.1) x.1 (resetNotice x.2)) s

/-- The cores of a cluster. -/
def inCluster (key : Nat) (cid : Nat) : Bool := clKey cid = key

/-- The dies on which a cluster of a layer lies (R13, R409). -/
def clusterDie (key : Nat) : Nat := dieOf (clusterCore (key / 64) (key % 64) 0)

/-- The partitions to which cores of a cluster belong: on layers 2 and 3 there may be several (R382, R383). -/
def clusterParts (s : State) (key : Nat) : List Nat :=
  (upFrom 0 16).filter fun p => (upFrom 0 24).any fun i => ownerPart s (clusterCore (key / 64) (key % 64) i) = some p

/-- The slots that a partition owns on a die return to its allocator as free (R415). -/
def freeSlots (s : State) (die p : Nat) : State :=
  let drop := fun (l : List (Option Nat)) => l.map fun o => if o = some p then none else o
  let t := s.slotTab die
  { s with slots := tset s.slots die ⟨drop t.own, t.next.map fun x => (drop x.1, x.2)⟩ }

/-- The cores for which the engines of a cluster have packets partly injected: each engine's outputs under way, and the puts that have not wholly
landed on this device (R415). [DEDUCED: log 74] -/
def injecting (s : State) (key : Nat) : List Nat :=
  ((s.cores.filter fun x => clKey x.1 = key).flatMap (fun x =>
      [Eng.vector, .copy, .global, .matrix, .pyramid].filterMap fun e => match currentCmd s x.1 e with
        | some (_, c) => match c.prog.buf.flatMap (·.pieces) with
          | p :: _ => some (ownerOfLoc s.minimal p.loc)
          | [] => none
        | none => none)
    ++ (s.puts.filter fun m => m.cid.any (fun c => clKey c = key) && m.dev = s.devNum && decide (m.pos < (putPieces m.p).length)).filterMap fun m =>
        match walkPa s (BitVec.ofNat 4 m.p.part) m.sec .write m.p.dva with
        | .ok x => some (ownerOfLoc s.minimal x.1)
        | .error _ => none).filter fun c => clKey c != key

/-- A cluster is out of service: nothing of it is performed outside (R427). Each packet that one of its engines was injecting is
closed with poison, and dropped and counted at the die that receives it (R415). [DEDUCED: log 74] -/
def isolate (s : State) (key : Nat) : State :=
  if (s.cluster key).down then s
  else (injecting s key).foldl (fun s c => { s with drops := tset s.drops (dieOf c) (tget 0 s.drops (dieOf c) + 1) })
    (s.modCluster key fun c => { c with down := true })

/-- The clusters of a column (R382). -/
def columnClusters (k : Nat) : List Nat :=
  let x := k % 4
  let y := k / 4
  (64 + k) :: [2 * x + 8 * (2 * y), 2 * x + 1 + 8 * (2 * y), 2 * x + 8 * (2 * y + 1), 2 * x + 1 + 8 * (2 * y + 1)]

/-- The clusters of a partition's columns (R382). [DEDUCED: log 82] -/
def partClusters (s : State) (p : Nat) : List Nat :=
  (upFrom 0 16).filter (fun k => nbit (s.part p).cols k) |>.flatMap columnClusters

/-! ## Start-up (R430–R434) -/

/-- The device with nothing running: as after power-on, but for time, what the controller keeps, what has left the device, and
the device's place in its pod. [DESIGN CHOICE: log 78] -/
def cold (s : State) : State :=
  { State.reset with
    tick := s.tick, boot := { s.boot with phase := 0, cause := 0, unit := 0, thr := false },
    clk := #v[⟨0, s.tick, 27⟩, ⟨0, s.tick, 34⟩, ⟨0, s.tick, 41⟩, ⟨0, s.tick, 48⟩],
    window := s.gtime / 1000, rwindow := s.gtime / 1000, devNum := s.devNum, outbox := s.outbox }

/-- A start is under way (R430). -/
def starting (b : Boot) : Bool := b.phase != 0 && b.phase != 0x0F && b.cause = 0

/-- The next start is made in minimal mode (R432). -/
def nextMinimal (b : Boot) : Bool := decide (3 ≤ b.fails)

/-- A start fails (R430, R432). -/
def startFails (phase cause : BitVec 8) (unit : BitVec 7) (s : State) : State :=
  let t := cold s
  let b := s.boot
  let n := b.minFails + 1
  { t with boot := { t.boot with
      phase := phase, cause := cause, unit := unit,
      fails := if b.minimal then b.fails else min 3 (b.fails + 1),
      minFails := if b.minimal then n else b.minFails, held := b.minimal && decide (3 ≤ n) } }

/-- The logs of a start (R437): the device's firmware, entry into minimal mode, and the firmware of each partition (phase
0x07). [DESIGN CHOICE: log 79] -/
def startLogs (s : State) : State :=
  let log := MLog.init.append 1 s.gtime (startDigest 1 0)
  let ps := if s.minimal then [0] else upFrom 0 16
  ps.foldl (fun s p => s.modPart p fun q => { q with log := MLog.init.append 2 s.gtime (startDigest 2 p) })
    { s with dlog := if s.minimal then log.append 4 s.gtime (startDigest 4 0) else log }

/-- The phases before phase 0x0F (Table 22.8). -/
def phases : List (BitVec 8) := [1, 2, 3, 4, 5, 6, 7]

/-- A start runs phases in order up to one, and writes the code of each as it begins (R430). -/
def runPhases (last : BitVec 8) (s : State) : State :=
  (phases.filter fun p => decide (s.boot.phase < p) && decide (p ≤ last)).foldl
    (fun s p => { s with boot := { s.boot with phase := p, cause := 0, unit := 0 } }) s

/-- The clusters of layers 2 and 3. -/
def crownClusters : List Nat := [128, 129, 130, 131, 192]
/-- Every cluster. -/
def allClusters : List Nat := upFrom 0 64 ++ upFrom 64 16 ++ crownClusters

/-- The working physical cores of a cluster, of its 26 (R10, R431). -/
def working (bad : List (Nat × Nat)) (key : Nat) : List Nat := (upFrom 0 26).filter fun i => !bad.elem (key, i)
/-- A cluster has 24 working cores (R431). -/
def enough (bad : List (Nat × Nat)) (key : Nat) : Bool := decide (24 ≤ (working bad key).length)

/-- What the discovery flood finds (R431, R433): each logical cluster with the physical one that serves as it, and the column of a minimal start; or
the die of a cluster with too few working cores. [DESIGN CHOICE: log 12] -/
def flood (minimal : Bool) (column : Nat) (bad : List (Nat × Nat)) : Except Nat (List (Nat × Nat) × Nat) :=
  let need := if minimal then crownClusters else allClusters
  match need.find? fun k => !enough bad k with
  | some k => .error (clusterDie k)
  | none =>
    if minimal then
      match (upFrom 0 16).find? fun k => decide (column % 16 ≤ k) && (columnClusters k).all (enough bad) with
      | some c => .ok ((columnClusters 0).zip (columnClusters c) ++ need.map fun k => (k, k), c)
      | none => .error (((columnClusters 15).find? fun k => !enough bad k).map clusterDie |>.getD 3)
    else .ok (need.map fun k => (k, k), column % 16)

/-- The flood records the map: the first 24 working cores of each physical cluster serve as the logical cluster, in physical order (R431). -/
def mapCores (bad : List (Nat × Nat)) (l : List (Nat × Nat)) (s : State) : State :=
  (l.filter fun x => (working bad x.2).take 24 != List.range 24).foldl
    (fun s (x : Nat × Nat) => s.modCluster x.1 fun c => { c with phys := (working bad x.2).take 24 }) s

/-- A start reaches phase 0x0F (R430, R432, R433): in minimal mode partition 0 owns the one column. -/
def startRuns (column : Nat) (s : State) : State :=
  let t := cold s
  let b := s.boot
  let t := { t with boot := { t.boot with
      phase := 0x0F, fails := if b.minimal then b.fails else 0, minFails := if b.minimal then 0 else b.minFails,
      column := column % 16 } }
  let t := startLogs t
  if b.minimal then t.modPart 0 fun q => { q with cols := 1 } else t

/-- A `unit` code names a part that a cause names (Table 22.12). The timeout's cause is written by `START_TIMEOUT`. -/
def unitOk (cause : BitVec 8) (unit : BitVec 7) : Bool :=
  let k := unit.toNat / 16
  let n := unit.toNat % 16
  match cause.toNat with
  | 0x01 | 0x02 | 0x03 | 0x09 => unit = 0
  | 0x04 | 0x05 => k = 5 && decide (n ≤ 7)
  | 0x06 => k = 1 && decide (n ≤ 5)
  | 0x07 => k = 4 && decide (n ≤ 4)
  | 0x08 => k = 2 && decide (n ≤ 7)
  | _ => false

/-- A start has not reached phase 0x0F within 30 s (R430). -/
def startLate (s : State) : Bool := starting s.boot && decide (s.boot.began + 30 * 10 ^ 6 * tickPerUs ≤ s.tick)

/-- The controller begins a start, where none is under way (R430, R432). -/
def beginStart (s : State) : State :=
  if starting s.boot then s
  else let t := cold s; { t with boot := { t.boot with minimal := nextMinimal s.boot, began := s.tick } }

/-- The controller starts the device, or goes on with the start that it has begun, through its phases in order (R430, R431); while it holds the
device after three failed minimal starts it makes none (R432). An outcome that no start has (a phase gone back to, a cause or a part that
Tables 22.8, 22.10 and 22.12 do not list) changes nothing. [DESIGN CHOICE: log 12] -/
def startDevice (o : StartOutcome) (s : State) : State :=
  let t := beginStart s
  if s.boot.held || startLate s then s
  else match o with
    | .running c bad =>
      match flood t.boot.minimal c bad with
      | .ok (l, c) => mapCores bad l (startRuns c (runPhases 7 t))
      | .error die => if t.boot.phase ≤ 4 then startFails 4 6 (BitVec.ofNat 7 (16 + die)) (runPhases 4 t) else s
    | .failed phase cause unit =>
      if phases.elem phase && decide (t.boot.phase ≤ phase) && unitOk cause unit then startFails phase cause unit (runPhases phase t) else s
    | .unfinished phase => if phases.elem phase && decide (t.boot.phase < phase) then runPhases phase t else s
/-- The step of `DEVICE_START`. -/
def execDeviceStart (o : StartOutcome) (s : State) : Out := runEvent (startDevice o) s

/-- A start that has not reached phase 0x0F within 30 s fails (R430, Table 22.10). -/
def startTimesOut (s : State) : State :=
  if startLate s then startFails s.boot.phase 0x0A 0 s else s
/-- The step of `START_TIMEOUT`. -/
def execStartTimeout (s : State) : Out := runEvent startTimesOut s

/-- The boot status register (Table 22.9). -/
def bootStatus (b : Boot) : Nat :=
  b.phase.toNat + b.cause.toNat * 2 ^ 8 + b.unit.toNat * 2 ^ 16 + b.fails % 4 * 2 ^ 23
    + (if b.minimal then 2 ^ 25 else 0) + (if b.thr then 2 ^ 26 else 0)

/-- A host write of 1 to `bootctl` clears both counts and starts the device again in full mode (R432). -/
def bootctl (v : W32) (s : State) : State :=
  if v.getLsbD 0 then
    let t := cold s
    { t with boot := { t.boot with phase := 1, fails := 0, minFails := 0, minimal := false, held := false, began := s.tick } }
  else s
/-- The offset of the boot status register in the vendor-specific extended capability (R434). -/
def bootStatusOff : Nat := 0x08

/-- An access to physical function 0 (R432), or firmware's read: the boot status register leaves for who reads it (R434). [DEDUCED: log 122] -/
def pfAccess (a : PfAccess) (s : State) : State :=
  let answer : State := { s with outbox := s.outbox ++ [leBytes 4 (bootStatus s.boot)] }
  match a with
  | .bootctl v => bootctl v s
  | .config off => if off = bootStatusOff && (s.link0 || s.link1) then answer else s
  | .firmware => answer
/-- The step of `BOOTCTL_WRITE`. -/
def execBootctlWrite (a : PfAccess) (s : State) : Out := runEvent (pfAccess a) s

/-- Power is removed and restored: the failed-start count stays, the count of failed minimal starts is 0 (R432). -/
def powerCycle (s : State) : State :=
  let t := cold s
  { t with boot := { t.boot with minFails := 0, held := false, minimal := nextMinimal s.boot, began := 0 } }
/-- The step of `POWER_CYCLE`. -/
def execPowerCycle (s : State) : Out := runEvent powerCycle s

/-! ## Throttling (R435, R436) -/

/-- The base clock goes on at another rate from its last boundary. [DEDUCED: log 80] -/
def setBaseRate (s : State) (rate : Nat) : State :=
  let c := s.clk.getD 0 ⟨0, 0, 27⟩
  let n := (s.tick - c.at_) / period c.rate
  { s with clk := s.clk.setIfInBounds 0 ⟨c.cyc + n, c.at_ + n * period c.rate, rate⟩ }

/-- A step of the base clock, down to 1.8 GHz at most or back up to 2.7 GHz; `thr` says that it is below (R435, R436). -/
def throttle (down : Bool) (s : State) : State :=
  let r := (s.clk.getD 0 ⟨0, 0, 27⟩).rate
  let r' := if down then (if 18 < r then r - 1 else r) else (if r < 27 then r + 1 else r)
  let t := if r' = r then s else setBaseRate s r'
  { t with boot := { t.boot with thr := decide (r' < 27) } }
/-- The step of `THROTTLE_STEP`. -/
def execThrottleStep (down : Bool) (s : State) : Out := runEvent (throttle down) s

/-! ## Attestation (R438) -/

/-- An attestation report without its signature (Table 22.11). -/
def reportBody (s : State) (p : Nat) (nonce : List Byte) : List Byte :=
  let one := decide (p < 16)
  let q := s.part p
  leBytes 4 1 ++ leBytes 4 (if one then p else 2 ^ 32 - 1) ++ digest32 nonce ++ leBytes 8 s.gtime ++ leBytes 4 (bootStatus s.boot)
    ++ leBytes 4 s.dlog.entries.length ++ digest32 s.dlog.chain
    ++ leBytes 4 (if one then q.log.entries.length else 0) ++ leBytes 4 0 ++ digest32 (if one then q.log.chain else [])

/-- A report leaves the device, signed by its identity key (R438). -/
def report (p : Nat) (nonce : List Byte) (s : State) : State :=
  let b := reportBody s p nonce
  { s with outbox := s.outbox ++ [b ++ (identitySign (sha256 b) ++ List.replicate 7856 0).take 7856] }
/-- The step of `ATTESTATION_REPORT`. -/
def execAttestationReport (part : Nat) (nonce : List Byte) (s : State) : Out := runEvent (report part nonce) s

/-! ## Containment, reset and return (R427–R429) -/

/-- A partition is contained: its clusters and its upper cores. -/
def holdPart (s : State) (p : Nat) : State :=
  if 16 ≤ p then s else ((partClusters s p).foldl isolate s).modPart p fun q => { q with held := true }

/-- A fault is contained at the smallest level whose trigger it meets; a failed reset escalates (R427, Table 22.6). At device level
everything ends, and a full start follows. -/
def contain (t : Trigger) (s : State) : State :=
  match t with
  | .clusterError l c => isolate (countUnc s (64 * l + c)) (64 * l + c)
  | .flitRetries l c => isolate s (64 * l + c)
  | .clusterResetFailed l c => (clusterParts s (64 * l + c)).foldl holdPart s
  | .partitionState p | .routineCopy p => holdPart s p
  | .partitionResetFailed _ | .dispatcherState | .clocks | .verticalLinks => cold s
/-- The step of `CONTAINMENT`. -/
def execContainment (t : Trigger) (s : State) : Out := runEvent (contain t) s

/-- What the error code finds when the scrubber or a guard reads a structure (R422, R424): a word of memory; a granule's three copies, of which one
is corrected; a line of an instruction cache or an entry of a translation buffer, which is fetched or walked again; a queue, a mailbox or a
context's registers, and a flit, whose errors beyond correction contain their cluster. -/
def patrol (at_ : Guarded) (e : Ecc) (s : State) : State :=
  match at_, e with
  | .word w, e => scrub w e s
  | _, .clean => s
  | .granule g, .corrected => if scrubbed s (2 * g) && isSpad (16 * g) then countCor s (locCluster s (16 * g)) else s
  | .granule _, .uncorrectable => s
  | .icacheLine cid line, _ => lineParity cid line s
  | .microTlb cid i, _ => microParity cid i s
  | .portTlb l c i, _ => portParity (64 * l + c) i s
  | .queues l c, .corrected => countCor s (64 * l + c)
  | .queues l c, .uncorrectable => contain (.clusterError l c) s
  | .flit l c, .corrected => countCor s (64 * l + c)
  | .flit l c, .uncorrectable => contain (.flitRetries l c) s
/-- The step of `PATROL_SCRUB`. -/
def execPatrolScrub (at_ : Guarded) (e : Ecc) (s : State) : Out := runEvent (patrol at_ e) s

/-- A contained cluster is reset (R428). -/
def resetCluster (layer cl : Nat) (s : State) : State :=
  let key := 64 * layer + cl
  if !(s.cluster key).down then s
  else
    let s := (resetRegion (inCluster key) s).modCluster key fun c => { c with ptlb := [] }
    (clusterParts s key).foldl (fun s p => freeSlots s (clusterDie key) p) s
/-- The step of `CLUSTER_RESET`. -/
def execClusterReset (layer cl : Nat) (s : State) : Out := runEvent (resetCluster layer cl) s

/-- Firmware copies the partition segment table into a core from another core of the partition (R428). -/
def restoreSegments (s : State) (p cid : Nat) : State :=
  match (partCores s p).find? fun c => c != cid && clKey c != clKey cid with
  | some c => (upFrom 0 16).foldl (fun s q => s.wr (spadLoc cid (segEntryOff cid q)) 16 (tableDesc s c q).toNat) s
  | none => s

/-- What the loaded image places on a core is placed again (R359, R362, R428). -/
def restoreCore (s : State) (cid : Nat) : State :=
  match ownerPart s cid with
  | none => s
  | some p =>
    let s := restoreSegments s p cid
    let f := (s.part p).image
    let secs := sectionsOf f
    let units := unitsOf secs
    if fileOk f then applyAll p false (placeBanks secs units cid ++ placeWeights secs units cid) s else s

/-- Firmware brings a reset cluster back, or the cores of it that a reset of their partition took out of service (R429): the image's contents and the segment table on its cores, contexts 0 started, and the mark
that ends the notices (R428). Its slots are asked for by requests of their own (R409). [DEDUCED: log 77] -/
def returnCluster (layer cl pc : Nat) (s : State) : State :=
  let key := 64 * layer + cl
  let cores := (layerCores s.minimal layer).filter fun c => inCluster key c && s.downAt c
  if cores.isEmpty then s
  else
    let s := cores.foldl restoreCore s
    let s := (cores.filter fun c => (ownerPart s c).isSome).foldl (fun s c => startContext0 c pc s) s
    (cores.foldl (fun s c => s.modCore c fun k => { k with down := false }) s).modCluster key fun c => { c with down := false }
/-- The step of `CLUSTER_RETURN`. -/
def execClusterReturn (layer cl pc : Nat) (s : State) : Out := runEvent (returnCluster layer cl pc) s

/-- The dies on which a partition has cores. -/
def partDies (s : State) (p : Nat) : List Nat :=
  ((partClusters s p).map clusterDie ++ ((upperCores s.minimal).filter (coreIn s p)).map dieOf).eraseDups

/-- Every port's translations of a partition are dropped, and all of its own clusters' (R397, R429). -/
def dropPorts (s : State) (p : Nat) : State :=
  let own := partClusters s p
  { s with clusters := s.clusters.map fun (x : Nat × Cluster) =>
      (x.1, { x.2 with ptlb := if own.elem x.1 then [] else x.2.ptlb.filter fun e => e.part.toNat != p }) }

/-- A partition is reset: every cluster and upper core of it, and its pending launches are discarded with what was sent for them (R429). Its clusters and
upper cores stay out of service until firmware returns them. -/
def resetPartition (p : Nat) (s : State) : State :=
  if 16 ≤ p then s
  else
    let s := (partClusters s p).foldl isolate s
    let s := ((upperCores s.minimal).filter (coreIn s p)).foldl (fun s c => s.modCore c fun k => { k with down := true }) s
    let s := dropPorts (resetRegion (coreIn s p) s) p
    let s := (partDies s p).foldl (fun s d => freeSlots s d p) s
    let gone := (s.store.filter fun l => l.part.toNat = p).map fun l => launchSrc l.seq
    { s with
      cops := s.cops.filter fun o => !gone.elem o.src
      store := s.store.filter fun l => l.part.toNat != p, items := s.items.filter fun i => i.part.toNat != p,
      spaceq := s.spaceq.filter fun w => w.part.toNat != p }.modPart p fun q => { q with held := false }
/-- The step of `PARTITION_RESET`. -/
def execPartitionReset (part : Nat) (s : State) : Out := runEvent (resetPartition part) s

end Sys2Proof.Machine
end

