-- ==== Sys2Proof/Machine/Sys.lean ====
section
/-! DEFINITION. Fences (R202), the generator and the flags (R220–R222), engine status and cancellation (R223, R224), and
translation buffers (R227). -/

namespace Sys2Proof.Machine

open Sys2Proof.Config

/-! ## Fences (R202) -/

/-- The scope of a fence: that of a scope prefix, else its own (R99, R202). -/
def fenceScope (s : State) (scope : BitVec 3) : Nat := (match s.grp.scope with | some x => x | none => scope).toNat

/-- `fence.rel` and `fence.full` (R202). A full fence's last condition holds by the way the model issues accesses: none
issues while its context waits here. -/
def fenceRel (scope : BitVec 3) : M Unit := do
  let s ← get
  stallIf (!s.fenceDone (fenceScope s scope)) .fence
/-- `fence.acq`: every earlier load has returned its data (R202). -/
def fenceAcq : M Unit := do
  let c ← me
  stallIf (c.out.any fun a => match a.kind with | .store _ => false | _ => true) .fence

/-- The step of `fence.full` (R202). -/
def execFenceFull (scope : BitVec 3) (_x : Bool) (s : State) : Out := runInstr 4 (fenceRel scope) s
/-- The step of `fence.acq` (R202). -/
def execFenceAcq (_scope : BitVec 3) (_x : Bool) (s : State) : Out := runInstr 4 fenceAcq s
/-- The step of `fence.rel` (R202). -/
def execFenceRel (scope : BitVec 3) (_x : Bool) (s : State) : Out := runInstr 4 (fenceRel scope) s

/-! ## Generator and flags (R220–R222) -/

/-- `rnd` (R220). -/
def bodyRnd (d : Reg) : M Unit := do
  fields [d]
  let st := rngStep (← me).rngst
  writeReg d (st * rngMul)
  modMe fun c => { c with rngst := st, gpos := 0 }
/-- The step of `rnd`. -/
def execRnd (d : Reg) (s : State) : Out := runInstr 4 (bodyRnd d) s

/-- `rngseed`: a migrant seeds with the identity of its home (R221). -/
def bodyRngseed (a : Reg) : M Unit := do
  fields [a]
  let v ← readReg a
  let s ← get
  modMe fun c => { c with
    rngst := rngSeed (v ^^^ BitVec.ofNat 64 (16 * mbaCid s.cur) ^^^ BitVec.ofNat 64 (c.ctxid.toNat % 16)), gpos := 0 }
/-- The step of `rngseed`. -/
def execRngseed (a : Reg) (s : State) : Out := runInstr 4 (bodyRngseed a) s

/-- `flget` (R222). -/
def bodyFlget (d : Reg) : M Unit := do
  fields [d]
  writeReg d ((← me).flags.setWidth 64)
/-- The step of `flget`. -/
def execFlget (d : Reg) (s : State) : Out := runInstr 4 (bodyFlget d) s

/-- `flclr` (R222). In a cycle in which an engine sets flags, the clear comes first (R75). -/
def bodyFlclr (a : Reg) : M Unit := do
  fields [a]
  let v ← readReg a
  let s ← get
  modMe fun c => { c with flags := c.flags &&& ~~~(v.setWidth 6) ||| (s.flagOr s.cur).all }
/-- The step of `flclr`. -/
def execFlclr (a : Reg) (s : State) : Out := runInstr 4 (bodyFlclr a) s

/-- `fltree` (R46, R222). [DEDUCED: log 19] -/
def bodyFltree (d : Reg) : M Unit := do
  fields [d]
  let s ← get
  if clusterSupervisor s.cur then writeReg d (srValue s 0x060) else denied
/-- The step of `fltree`. -/
def execFltree (d : Reg) (s : State) : Out := runInstr 4 (bodyFltree d) s

/-! ## Engines (R223, R224) -/

/-- The engine that a register names, where the layer has it (R223, R224). -/
def engArg (a : Reg) : M (Option Eng) := do
  let v ← readReg a
  raiseIf (decide (5 < v.toNat)) 0x02 v.toNat
  let s ← get
  return (engOf v.toNat).filter (engPresent s.layer)

/-- `engst` (R223). -/
def bodyEngst (d a : Reg) : M Unit := do
  noMigrant
  let e ← engArg a
  let s ← get
  writeReg d (match e with | some e => (s.eng s.here e).status | none => 0)
/-- The step of `engst`. -/
def execEngst (d a : Reg) (s : State) : Out := runInstr 4 (bodyEngst d a) s

/-- A command of a context that can still be cancelled (R224). -/
def Cmd.cancellable (m : Nat) (c : Cmd) : Bool := c.issuer = m && !c.prog.began && !c.cancelled

/-- `engcancel` (R224); on engine 5 it also disarms the context's armed puts (R285). -/
def bodyEngcancel (d a : Reg) : M Unit := do
  noMigrant
  match ← engArg a with
  | none => writeReg d 0
  | some e =>
    let s ← get
    let can := Cmd.cancellable s.cur
    let mine := fun (a : ArmPut) => e = .link && a.issuer = s.cur
    let t := s.modEng s.here e fun g => { g with queue := g.queue.map fun c => if can c then { c with cancelled := true } else c }
    set (t.modCore s.here fun k => { k with armput := k.armput.filter fun a => !mine a })
    writeReg d (BitVec.ofNat 64 (((s.eng s.here e).queue.filter can).length + ((s.core s.here).armput.filter mine).length))
/-- The step of `engcancel`. -/
def execEngcancel (d a : Reg) (s : State) : Out := runInstr 4 (bodyEngcancel d a) s

/-! ## Translation buffers (R227) -/

/-- The clusters whose ports and micro-TLBs a scope code names (R227): the key test. On layers 1–3 scopes below die name
none, and die reads as layer (R22). -/
def tlbCluster (cid scope key : Nat) : Bool :=
  if scope < 2 then false
  else if scope < 4 then cidLayer cid = 0 && key = clKey cid
  else if scope = 4 && cidLayer cid = 0 then
    decide (key < 64) && baseDie (clusterCore 0 key 0) = baseDie cid
  else decide (key < 64)

/-- The cores whose micro-TLBs a scope code names (R227). -/
def tlbCore (cid scope c : Nat) : Bool := (scope < 2 && cidLayer cid = 0 && c = cid) || tlbCluster cid scope (clKey c)

/-- A core whose micro-TLB keeps what is not `gone`. -/
def Core.dropTlb (k : Core) (gone : TlbEnt → Bool) : Core := { k with utlb := k.utlb.filter fun e => !gone e }
/-- A cluster whose port keeps what is not `gone`. -/
def Cluster.dropTlb (l : Cluster) (gone : TlbEnt → Bool) : Cluster := { l with ptlb := l.ptlb.filter fun e => !gone e }

/-- Drops translations and waits for the walks and fills in flight for them (R227). -/
def tlbDrop (scope : Nat) (hit : TlbEnt → Bool) (near : Nat → Bool) : M Unit := do
  let s ← get
  let p := s.me.part
  let cid := s.here
  let gone := fun e : TlbEnt => e.part = p && hit e
  stallIf (s.walks.any (fun w => w.part = p && near w.dva && tlbCore cid scope w.cid)
    || s.fills.any fun f => f.ent.part = p && near f.ent.dva && tlbCore cid scope f.cid) .fence
  set { s with
    cores := s.cores.map fun (x : Nat × Core) => (x.1, if tlbCore cid scope x.1 then x.2.dropTlb gone else x.2),
    clusters := s.clusters.map fun (x : Nat × Cluster) =>
      (x.1, if tlbCluster cid scope x.1 then x.2.dropTlb gone else x.2) }

/-- Supervisor mode only (R193, R227). -/
def supervisorOnly : M Unit := do
  let s ← get
  raiseIf (!s.me.sup) 0x06 s.grp.instr.toNat

/-- `tlbinv` (R227). A walk in flight is for the DVA where it may end in a leaf that covers it: one within 1 GiB. -/
def bodyTlbinv (a b : Reg) : M Unit := do
  fields [a, b]
  supervisorOnly
  let v ← readReg a
  let sc ← readReg b
  raiseIf (decide (7 < sc.toNat)) 0x02 sc.toNat
  tlbDrop sc.toNat (fun e => e.covers v.toNat) fun d => d / 2 ^ 30 = v.toNat / 2 ^ 30
/-- The step of `tlbinv`. -/
def execTlbinv (a b : Reg) (s : State) : Out := runInstr 4 (bodyTlbinv a b) s

/-- `tlbinvall` (R227). -/
def bodyTlbinvall (a : Reg) : M Unit := do
  fields [a]
  supervisorOnly
  let sc ← readReg a
  raiseIf (decide (7 < sc.toNat)) 0x02 sc.toNat
  tlbDrop sc.toNat (fun _ => true) fun _ => true
/-- The step of `tlbinvall`. -/
def execTlbinvall (a : Reg) (s : State) : Out := runInstr 4 (bodyTlbinvall a) s

end Sys2Proof.Machine
end

