-- ==== Sys2Proof/Machine/Dispatch.lean ====
section
/-! DEFINITION. The meaning of every step of the machine: one arm per constructor of `Instr`. -/

namespace Sys2Proof.Machine

def exec (i : Instr) (s : State) : Host.Outcome State Fault Refusal :=
  match i with
  | .add d a b w x => Sys2Proof.Machine.execAdd d a b w x s
  | .sub d a b w x => Sys2Proof.Machine.execSub d a b w x s
  | .and d a b w x => Sys2Proof.Machine.execAnd d a b w x s
  | .or d a b w x => Sys2Proof.Machine.execOr d a b w x s
  | .xor d a b w x => Sys2Proof.Machine.execXor d a b w x s
  | .andn d a b w x => Sys2Proof.Machine.execAndn d a b w x s
  | .shl d a b w x => Sys2Proof.Machine.execShl d a b w x s
  | .shr d a b w x => Sys2Proof.Machine.execShr d a b w x s
  | .sar d a b w x => Sys2Proof.Machine.execSar d a b w x s
  | .rol d a b w x => Sys2Proof.Machine.execRol d a b w x s
  | .mul d a b w x => Sys2Proof.Machine.execMul d a b w x s
  | .mulh d a b w x => Sys2Proof.Machine.execMulh d a b w x s
  | .mulhu d a b w x => Sys2Proof.Machine.execMulhu d a b w x s
  | .div d a b w x => Sys2Proof.Machine.execDiv d a b w x s
  | .divu d a b w x => Sys2Proof.Machine.execDivu d a b w x s
  | .rem d a b w x => Sys2Proof.Machine.execRem d a b w x s
  | .remu d a b w x => Sys2Proof.Machine.execRemu d a b w x s
  | .min d a b w x => Sys2Proof.Machine.execMin d a b w x s
  | .max d a b w x => Sys2Proof.Machine.execMax d a b w x s
  | .minu d a b w x => Sys2Proof.Machine.execMinu d a b w x s
  | .maxu d a b w x => Sys2Proof.Machine.execMaxu d a b w x s
  | .slt d a b w x => Sys2Proof.Machine.execSlt d a b w x s
  | .sltu d a b w x => Sys2Proof.Machine.execSltu d a b w x s
  | .clmul d a b x => Sys2Proof.Machine.execClmul d a b x s
  | .clmulh d a b x => Sys2Proof.Machine.execClmulh d a b x s
  | .clz d a w x => Sys2Proof.Machine.execClz d a w x s
  | .ctz d a w x => Sys2Proof.Machine.execCtz d a w x s
  | .popc d a w x => Sys2Proof.Machine.execPopc d a w x s
  | .brev d a w x => Sys2Proof.Machine.execBrev d a w x s
  | .bswap d a w x => Sys2Proof.Machine.execBswap d a w x s
  | .sxb d a w x => Sys2Proof.Machine.execSxb d a w x s
  | .sxh d a w x => Sys2Proof.Machine.execSxh d a w x s
  | .sxw d a x => Sys2Proof.Machine.execSxw d a x s
  | .zxb d a w x => Sys2Proof.Machine.execZxb d a w x s
  | .zxh d a w x => Sys2Proof.Machine.execZxh d a w x s
  | .zxw d a x => Sys2Proof.Machine.execZxw d a x s
  | .abs d a w x => Sys2Proof.Machine.execAbs d a w x s
  | .neg d a w x => Sys2Proof.Machine.execNeg d a w x s
  | .addi d a imm x => Sys2Proof.Machine.execAddi d a imm x s
  | .andi d a imm x => Sys2Proof.Machine.execAndi d a imm x s
  | .ori d a imm x => Sys2Proof.Machine.execOri d a imm x s
  | .xori d a imm x => Sys2Proof.Machine.execXori d a imm x s
  | .shli d a imm x => Sys2Proof.Machine.execShli d a imm x s
  | .shri d a imm x => Sys2Proof.Machine.execShri d a imm x s
  | .sari d a imm x => Sys2Proof.Machine.execSari d a imm x s
  | .muli d a imm x => Sys2Proof.Machine.execMuli d a imm x s
  | .slti d a imm x => Sys2Proof.Machine.execSlti d a imm x s
  | .sltiu d a imm x => Sys2Proof.Machine.execSltiu d a imm x s
  | .li d imm => Sys2Proof.Machine.execLi d imm s
  | .lis d imm => Sys2Proof.Machine.execLis d imm s
  | .lix d imm => Sys2Proof.Machine.execLix d imm s
  | .cmpEq k a b w comb => Sys2Proof.Machine.execCmpEq k a b w comb s
  | .cmpNe k a b w comb => Sys2Proof.Machine.execCmpNe k a b w comb s
  | .cmpLt k a b w comb => Sys2Proof.Machine.execCmpLt k a b w comb s
  | .cmpGe k a b w comb => Sys2Proof.Machine.execCmpGe k a b w comb s
  | .cmpLtu k a b w comb => Sys2Proof.Machine.execCmpLtu k a b w comb s
  | .cmpGeu k a b w comb => Sys2Proof.Machine.execCmpGeu k a b w comb s
  | .cmpiEq k a imm => Sys2Proof.Machine.execCmpiEq k a imm s
  | .cmpiNe k a imm => Sys2Proof.Machine.execCmpiNe k a imm s
  | .cmpiLt k a imm => Sys2Proof.Machine.execCmpiLt k a imm s
  | .cmpiGe k a imm => Sys2Proof.Machine.execCmpiGe k a imm s
  | .cmpiLtu k a imm => Sys2Proof.Machine.execCmpiLtu k a imm s
  | .cmpiGeu k a imm => Sys2Proof.Machine.execCmpiGeu k a imm s
  | .sel d a b inv kb => Sys2Proof.Machine.execSel d a b inv kb s
  | .kget d => Sys2Proof.Machine.execKget d s
  | .kset a => Sys2Proof.Machine.execKset a s
  | .kand d a b => Sys2Proof.Machine.execKand d a b s
  | .kor d a b => Sys2Proof.Machine.execKor d a b s
  | .kxor d a b => Sys2Proof.Machine.execKxor d a b s
  | .knot d a => Sys2Proof.Machine.execKnot d a s
  | .srg d sr => Sys2Proof.Machine.execSrg d sr s
  | .srs d sr => Sys2Proof.Machine.execSrs d sr s
  | .srx d sr => Sys2Proof.Machine.execSrx d sr s
  | .fadd d a b dbl x => Sys2Proof.Machine.execFadd d a b dbl x s
  | .fsub d a b dbl x => Sys2Proof.Machine.execFsub d a b dbl x s
  | .fmul d a b dbl x => Sys2Proof.Machine.execFmul d a b dbl x s
  | .fdiv d a b dbl x => Sys2Proof.Machine.execFdiv d a b dbl x s
  | .fsqrt d a dbl x => Sys2Proof.Machine.execFsqrt d a dbl x s
  | .fmin d a b dbl x => Sys2Proof.Machine.execFmin d a b dbl x s
  | .fmax d a b dbl x => Sys2Proof.Machine.execFmax d a b dbl x s
  | .fabs d a dbl x => Sys2Proof.Machine.execFabs d a dbl x s
  | .fneg d a dbl x => Sys2Proof.Machine.execFneg d a dbl x s
  | .fsgnj d a b dbl x => Sys2Proof.Machine.execFsgnj d a b dbl x s
  | .fclass d a dbl x => Sys2Proof.Machine.execFclass d a dbl x s
  | .frcpa d a dbl x => Sys2Proof.Machine.execFrcpa d a dbl x s
  | .frsqa d a dbl x => Sys2Proof.Machine.execFrsqa d a dbl x s
  | .fexp2a d a dbl x => Sys2Proof.Machine.execFexp2a d a dbl x s
  | .flog2a d a dbl x => Sys2Proof.Machine.execFlog2a d a dbl x s
  | .fma d a b c dbl x => Sys2Proof.Machine.execFma d a b c dbl x s
  | .fms d a b c dbl x => Sys2Proof.Machine.execFms d a b c dbl x s
  | .fnma d a b c dbl x => Sys2Proof.Machine.execFnma d a b c dbl x s
  | .fnms d a b c dbl x => Sys2Proof.Machine.execFnms d a b c dbl x s
  | .fcmpEq k a b dbl x => Sys2Proof.Machine.execFcmpEq k a b dbl x s
  | .fcmpLt k a b dbl x => Sys2Proof.Machine.execFcmpLt k a b dbl x s
  | .fcmpLe k a b dbl x => Sys2Proof.Machine.execFcmpLe k a b dbl x s
  | .fcmpUn k a b dbl x => Sys2Proof.Machine.execFcmpUn k a b dbl x s
  | .fcmpEqs k a b dbl x => Sys2Proof.Machine.execFcmpEqs k a b dbl x s
  | .fcvt d a src dst x => Sys2Proof.Machine.execFcvt d a src dst x s
  | .ldb d a seg off x => Sys2Proof.Machine.execLdb d a seg off x s
  | .ldbu d a seg off x => Sys2Proof.Machine.execLdbu d a seg off x s
  | .ldh d a seg off x => Sys2Proof.Machine.execLdh d a seg off x s
  | .ldhu d a seg off x => Sys2Proof.Machine.execLdhu d a seg off x s
  | .ldw d a seg off x => Sys2Proof.Machine.execLdw d a seg off x s
  | .ldwu d a seg off x => Sys2Proof.Machine.execLdwu d a seg off x s
  | .ldd d a seg off x => Sys2Proof.Machine.execLdd d a seg off x s
  | .stb d a seg off x => Sys2Proof.Machine.execStb d a seg off x s
  | .sth d a seg off x => Sys2Proof.Machine.execSth d a seg off x s
  | .stw d a seg off x => Sys2Proof.Machine.execStw d a seg off x s
  | .std d a seg off x => Sys2Proof.Machine.execStd d a seg off x s
  | .ldfk d a seg off => Sys2Proof.Machine.execLdfk d a seg off s
  | .ldfc d a seg off => Sys2Proof.Machine.execLdfc d a seg off s
  | .stfe d a seg off => Sys2Proof.Machine.execStfe d a seg off s
  | .stfs d a seg off => Sys2Proof.Machine.execStfs d a seg off s
  | .feset a seg off => Sys2Proof.Machine.execFeset a seg off s
  | .feclr a seg off => Sys2Proof.Machine.execFeclr a seg off s
  | .feget d a seg off => Sys2Proof.Machine.execFeget d a seg off s
  | .lea d a seg off => Sys2Proof.Machine.execLea d a seg off s
  | .segld d a => Sys2Proof.Machine.execSegld d a s
  | .segget d a b => Sys2Proof.Machine.execSegget d a b s
  | .segchk d a b => Sys2Proof.Machine.execSegchk d a b s
  | .amoSwap d a b seg x => Sys2Proof.Machine.execAmoSwap d a b seg x s
  | .amoAdd d a b seg x => Sys2Proof.Machine.execAmoAdd d a b seg x s
  | .amoAnd d a b seg x => Sys2Proof.Machine.execAmoAnd d a b seg x s
  | .amoOr d a b seg x => Sys2Proof.Machine.execAmoOr d a b seg x s
  | .amoXor d a b seg x => Sys2Proof.Machine.execAmoXor d a b seg x s
  | .amoMin d a b seg x => Sys2Proof.Machine.execAmoMin d a b seg x s
  | .amoMax d a b seg x => Sys2Proof.Machine.execAmoMax d a b seg x s
  | .amoMinu d a b seg x => Sys2Proof.Machine.execAmoMinu d a b seg x s
  | .amoMaxu d a b seg x => Sys2Proof.Machine.execAmoMaxu d a b seg x s
  | .amoFaddS d a b seg x => Sys2Proof.Machine.execAmoFaddS d a b seg x s
  | .amoFaddD d a b seg x => Sys2Proof.Machine.execAmoFaddD d a b seg x s
  | .amoFminS d a b seg x => Sys2Proof.Machine.execAmoFminS d a b seg x s
  | .amoFmaxS d a b seg x => Sys2Proof.Machine.execAmoFmaxS d a b seg x s
  | .cas d a b seg x => Sys2Proof.Machine.execCas d a b seg x s
  | .redSwap a b seg x => Sys2Proof.Machine.execRedSwap a b seg x s
  | .redAdd a b seg x => Sys2Proof.Machine.execRedAdd a b seg x s
  | .redAnd a b seg x => Sys2Proof.Machine.execRedAnd a b seg x s
  | .redOr a b seg x => Sys2Proof.Machine.execRedOr a b seg x s
  | .redXor a b seg x => Sys2Proof.Machine.execRedXor a b seg x s
  | .redMin a b seg x => Sys2Proof.Machine.execRedMin a b seg x s
  | .redMax a b seg x => Sys2Proof.Machine.execRedMax a b seg x s
  | .redMinu a b seg x => Sys2Proof.Machine.execRedMinu a b seg x s
  | .redMaxu a b seg x => Sys2Proof.Machine.execRedMaxu a b seg x s
  | .redFaddS a b seg x => Sys2Proof.Machine.execRedFaddS a b seg x s
  | .redFaddD a b seg x => Sys2Proof.Machine.execRedFaddD a b seg x s
  | .redFminS a b seg x => Sys2Proof.Machine.execRedFminS a b seg x s
  | .redFmaxS a b seg x => Sys2Proof.Machine.execRedFmaxS a b seg x s
  | .mig a b => Sys2Proof.Machine.execMig a b s
  | .home => Sys2Proof.Machine.execHome s
  | .dlg t => Sys2Proof.Machine.execDlg t s
  | .dlgret => Sys2Proof.Machine.execDlgret s
  | .beq a b disp => Sys2Proof.Machine.execBeq a b disp s
  | .bne a b disp => Sys2Proof.Machine.execBne a b disp s
  | .blt a b disp => Sys2Proof.Machine.execBlt a b disp s
  | .bge a b disp => Sys2Proof.Machine.execBge a b disp s
  | .bltu a b disp => Sys2Proof.Machine.execBltu a b disp s
  | .bgeu a b disp => Sys2Proof.Machine.execBgeu a b disp s
  | .bk k disp => Sys2Proof.Machine.execBk k disp s
  | .bkn k disp => Sys2Proof.Machine.execBkn k disp s
  | .j disp => Sys2Proof.Machine.execJ disp s
  | .call disp => Sys2Proof.Machine.execCall disp s
  | .calll imm => Sys2Proof.Machine.execCalll imm s
  | .jr a => Sys2Proof.Machine.execJr a s
  | .jalr d a => Sys2Proof.Machine.execJalr d a s
  | .ret => Sys2Proof.Machine.execRet s
  | .rep n sd sa sb c => Sys2Proof.Machine.execRep n sd sa sb c s
  | .trap imm => Sys2Proof.Machine.execTrap imm s
  | .nop => Sys2Proof.Machine.execNop s
  | .eret a b => Sys2Proof.Machine.execEret a b s
  | .brk => Sys2Proof.Machine.execBrk s
  | .ifl => Sys2Proof.Machine.execIfl s
  | .halt => Sys2Proof.Machine.execHalt s
  | .recvt d a => Sys2Proof.Machine.execRecvt d a s
  | .mbcnt d => Sys2Proof.Machine.execMbcnt d s
  | .send a b => Sys2Proof.Machine.execSend a b s
  | .barArrive a scope => Sys2Proof.Machine.execBarArrive a scope s
  | .barInit a b scope => Sys2Proof.Machine.execBarInit a b scope s
  | .barLeave a scope => Sys2Proof.Machine.execBarLeave a scope s
  | .fenceFull scope x => Sys2Proof.Machine.execFenceFull scope x s
  | .fenceAcq scope x => Sys2Proof.Machine.execFenceAcq scope x s
  | .fenceRel scope x => Sys2Proof.Machine.execFenceRel scope x s
  | .spawn d a b => Sys2Proof.Machine.execSpawn d a b s
  | .reap d a => Sys2Proof.Machine.execReap d a s
  | .exit => Sys2Proof.Machine.execExit s
  | .save d a b => Sys2Proof.Machine.execSave d a b s
  | .load d a b => Sys2Proof.Machine.execLoad d a b s
  | .tkdec a => Sys2Proof.Machine.execTkdec a s
  | .tkset a b => Sys2Proof.Machine.execTkset a b s
  | .erflip a => Sys2Proof.Machine.execErflip a s
  | .erpass a => Sys2Proof.Machine.execErpass a s
  | .erori d a b => Sys2Proof.Machine.execErori d a b s
  | .erarm t => Sys2Proof.Machine.execErarm t s
  | .bowstart d a b => Sys2Proof.Machine.execBowstart d a b s
  | .mutesend a => Sys2Proof.Machine.execMutesend a s
  | .rnd d => Sys2Proof.Machine.execRnd d s
  | .rngseed a => Sys2Proof.Machine.execRngseed a s
  | .flget d => Sys2Proof.Machine.execFlget d s
  | .flclr a => Sys2Proof.Machine.execFlclr a s
  | .fltree d => Sys2Proof.Machine.execFltree d s
  | .engst d a => Sys2Proof.Machine.execEngst d a s
  | .engcancel d a => Sys2Proof.Machine.execEngcancel d a s
  | .mxlease d => Sys2Proof.Machine.execMxlease d s
  | .mxrel => Sys2Proof.Machine.execMxrel s
  | .tlbinv a b => Sys2Proof.Machine.execTlbinv a b s
  | .tlbinvall a => Sys2Proof.Machine.execTlbinvall a s
  | .fold t => Sys2Proof.Machine.execFold t s
  | .scan t => Sys2Proof.Machine.execScan t s
  | .zip t => Sys2Proof.Machine.execZip t s
  | .outer t => Sys2Proof.Machine.execOuter t s
  | .tcopy t => Sys2Proof.Machine.execTcopy t s
  | .tfill t => Sys2Proof.Machine.execTfill t s
  | .txp t => Sys2Proof.Machine.execTxp t s
  | .gld t => Sys2Proof.Machine.execGld t s
  | .gst t => Sys2Proof.Machine.execGst t s
  | .rtndef t => Sys2Proof.Machine.execRtndef t s
  | .mxldst t => Sys2Proof.Machine.execMxldst t s
  | .mxswap t => Sys2Proof.Machine.execMxswap t s
  | .mxstrm t => Sys2Proof.Machine.execMxstrm t s
  | .mxdrain t => Sys2Proof.Machine.execMxdrain t s
  | .lvsetImm t => Sys2Proof.Machine.execLvsetImm t s
  | .lvsetReg t => Sys2Proof.Machine.execLvsetReg t s
  | .wld t => Sys2Proof.Machine.execWld t s
  | .rstr t => Sys2Proof.Machine.execRstr t s
  | .prol t => Sys2Proof.Machine.execProl t s
  | .put t => Sys2Proof.Machine.execPut t s
  | .putarm t => Sys2Proof.Machine.execPutarm t s
  | .cntw t => Sys2Proof.Machine.execCntw t s
  | .lnch t => Sys2Proof.Machine.execLnch t s
  | .dlgctlEnable d => Sys2Proof.Machine.execDlgctlEnable d s
  | .dlgctlDisable d => Sys2Proof.Machine.execDlgctlDisable d s
  | .remoteUpdateApply n e => Sys2Proof.Machine.execRemoteUpdateApply n e s
  | .migrantArrival m => Sys2Proof.Machine.execMigrantArrival m s
  | .migrantHomeArrival m => Sys2Proof.Machine.execMigrantHomeArrival m s
  | .delegationAccept cid => Sys2Proof.Machine.execDelegationAccept cid s
  | .delegationStart cid => Sys2Proof.Machine.execDelegationStart cid s
  | .repeatFrameStep => Sys2Proof.Machine.execRepeatFrameStep s
  | .latePoison m => Sys2Proof.Machine.execLatePoison m s
  | .engineFaultDelivery m => Sys2Proof.Machine.execEngineFaultDelivery m s
  | .recvtTimeout m => Sys2Proof.Machine.execRecvtTimeout m s
  | .mailboxWordArrival src dst => Sys2Proof.Machine.execMailboxWordArrival src dst s
  | .portWordArrival cid dir => Sys2Proof.Machine.execPortWordArrival cid dir s
  | .qinWordArrival src dst => Sys2Proof.Machine.execQinWordArrival src dst s
  | .counterOperationApply n => Sys2Proof.Machine.execCounterOperationApply n s
  | .bowTokenPass n => Sys2Proof.Machine.execBowTokenPass n s
  | .mutePlacement m => Sys2Proof.Machine.execMutePlacement m s
  | .leaseTermTimeout quad => Sys2Proof.Machine.execLeaseTermTimeout quad s
  | .engineCommandRun cid eng e => Sys2Proof.Machine.execEngineCommandRun cid eng e s
  | .engineCommandCompletion cid eng => Sys2Proof.Machine.execEngineCommandCompletion cid eng s
  | .restrictCombine parent slot => Sys2Proof.Machine.execRestrictCombine parent slot s
  | .putArrival p => Sys2Proof.Machine.execPutArrival p s
  | .putCounterIncrement n => Sys2Proof.Machine.execPutCounterIncrement n s
  | .armedPutDeadlineFire cid n => Sys2Proof.Machine.execArmedPutDeadlineFire cid n s
  | .putUndeliverable n => Sys2Proof.Machine.execPutUndeliverable n s
  | .linkFlitRetry link => Sys2Proof.Machine.execLinkFlitRetry link s
  | .memoryAccessPerform m n e => Sys2Proof.Machine.execMemoryAccessPerform m n e s
  | .pageWalk n e => Sys2Proof.Machine.execPageWalk n e s
  | .icacheLineFill cid line => Sys2Proof.Machine.execIcacheLineFill cid line s
  | .retentionEntry cid bank => Sys2Proof.Machine.execRetentionEntry cid bank s
  | .retentionExitComplete cid bank => Sys2Proof.Machine.execRetentionExitComplete cid bank s
  | .patrolScrub at_ e => Sys2Proof.Machine.execPatrolScrub at_ e s
  | .watchdog m => Sys2Proof.Machine.execWatchdog m s
  | .budgetWindowStart => Sys2Proof.Machine.execBudgetWindowStart s
  | .emissionSlot => Sys2Proof.Machine.execEmissionSlot s
  | .workItemArrival n => Sys2Proof.Machine.execWorkItemArrival n s
  | .frontDoorFrame fr => Sys2Proof.Machine.execFrontDoorFrame fr s
  | .hostDoorbell part secure link world tail => Sys2Proof.Machine.execHostDoorbell part secure link world tail s
  | .hostRingFetch part secure rec => Sys2Proof.Machine.execHostRingFetch part secure rec s
  | .bar2HostAccess part off wr => Sys2Proof.Machine.execBar2HostAccess part off wr s
  | .slotAllocatorRequest die part n => Sys2Proof.Machine.execSlotAllocatorRequest die part n s
  | .slotTableSwitch die => Sys2Proof.Machine.execSlotTableSwitch die s
  | .compatWrite part v => Sys2Proof.Machine.execCompatWrite part v s
  | .firmwareRegisterWrite r v => Sys2Proof.Machine.execFirmwareRegisterWrite r v s
  | .imageLoad part image err => Sys2Proof.Machine.execImageLoad part image err s
  | .context0Start cid pc => Sys2Proof.Machine.execContext0Start cid pc s
  | .debugHalt m => Sys2Proof.Machine.execDebugHalt m s
  | .debugResume m frame => Sys2Proof.Machine.execDebugResume m frame s
  | .containment t => Sys2Proof.Machine.execContainment t s
  | .clusterReset layer cl => Sys2Proof.Machine.execClusterReset layer cl s
  | .clusterReturn layer cl pc => Sys2Proof.Machine.execClusterReturn layer cl pc s
  | .partitionReset part => Sys2Proof.Machine.execPartitionReset part s
  | .deviceStart o => Sys2Proof.Machine.execDeviceStart o s
  | .startTimeout => Sys2Proof.Machine.execStartTimeout s
  | .bootctlWrite a => Sys2Proof.Machine.execBootctlWrite a s
  | .throttleStep down => Sys2Proof.Machine.execThrottleStep down s
  | .attestationReport part nonce => Sys2Proof.Machine.execAttestationReport part nonce s
  | .illegalEncoding f => Sys2Proof.Machine.execIllegalEncoding f s
  | .microTlbFill m => Sys2Proof.Machine.execMicroTlbFill m s
  | .hostBar0Write part link world off v => Sys2Proof.Machine.execHostBar0Write part link world off v s
  | .hostLinkStateChange link up => Sys2Proof.Machine.execHostLinkStateChange link up s
  | .powerCycle => Sys2Proof.Machine.execPowerCycle s
  | .c0rateWindowStart => Sys2Proof.Machine.execC0rateWindowStart s

end Sys2Proof.Machine
end

