-- ==== Sys2Proof/Machine/Slot.lean ====
section
/-! DEFINITION. What a context does in its slot (R50, R51, R84–R98): a thread that may issue finishes what is pending at its
group boundary, or fetches, checks and executes its next group. -/

namespace Sys2Proof.Machine

open Sys2Proof.Config

/-- A waiting context may be tried again (R51): what passive waits wait for completes them; a read of an empty queue is tried when more lies
there for it than when it was tried last, and a missed translation when no walk and no fill for it is under way. -/
def retryable (s : State) (m : Nat) (w : Wait) : Bool :=
  match w.kind with
  | .fullEmpty | .delegation | .serverIdle | .muteRoom | .engineQueue => false
  | .emptyRead | .emptyQin | .emptyPort _ => decide (w.seen < waitSeen s m w.kind)
  | .tlb => !s.walks.any (·.who.isCtx m) && !s.fills.any (·.who.isCtx m)
  | _ => true

/-- The thread of a context is where it can issue: at home, or hosted, not recalled and with no trap to take at home (R183, R186, R188). -/
def present (c : Context) : Bool :=
  match c.away with
  | none => true
  | some a => match a.phase with | .hosted _ => !a.recallIt && a.trap.isNone | _ => false

/-- A context of the mesh uses its slot (Table 2.10): it runs, its core is not contained, nobody stops it, no plain load or atomic of it is outstanding, no access
of it waits for a bank in retention (R426), its partition does not wait for the stores that its cores hold (R322), and what it waits for may have
come. -/
def ready (s : State) (m : Nat) : Bool :=
  let c := s.ctx m
  mbaValid s.minimal m && c.run = .running && present c && !isolated s (s.hereOf m) && c.stopReq.isNone && !c.forwards m && !c.out.any Acc.holds
    && !(c.out.any fun a => (asleep s a.at_.ends).isSome) && !(s.part c.part.toNat).drain
    && match c.wait with | some w => retryable s m w | none => true

/-- The state in which a context's slot begins. -/
def beginSlot (s : State) (m : Nat) : State :=
  { s with cur := m, grp := Grp.none }.modCtx m fun c => { c with cyc := s.cycles (cidLayer (s.hereOf m)) }

/-- A context waits in a read of a queue (R217). -/
def reading (s : State) (m : Nat) : Bool := match (s.ctx m).wait with | some w => w.kind.isRead | none => false

/-- A member of a bow group has been active, unless it was blocked in a read before its slot and still is (R217, R304). -/
def noteBow (s t : State) (m : Nat) : State := if reading s m && blockedRead t m then t else bowMark t m

/-- The group at the current context's PC is fetched, checked and executed (R35, R95–R98, Table 4.8). -/
def issueGroup (s : State) : Out :=
  match fetchGroup s s.cur with
  | .miss l => .next (stopped (.line l) s s)
  | .fault c o pfxs w0 =>
    .next (takeTrap ⟨BitVec.ofNat 8 c, BitVec.ofNat 64 (memInfo 0 14 false o)⟩ { s with grp := grpOf pfxs w0 0 })
  | .group pfxs w0 w1 cross =>
    let t := { s with grp := grpOf pfxs w0 w1 }
    match decodeGroup s.layer s.me.via pfxs w0 w1 cross with
    | .ok i => exec i t
    | .illegal f => execIllegalEncoding f t
    | .orphan c ti => .next (takeTrap ⟨BitVec.ofNat 8 c, ti⟩ t)

/-- What the current context does in its slot. An engine's fault waits for a thread that is away, which runs on (R257). -/
def slotBody (s : State) : Out :=
  let c := s.me
  if c.late.isSome then execLatePoison s.cur s
  else if c.pend.isSome && c.away.isNone then execEngineFaultDelivery s.cur s
  else if c.iters ≠ 0 then execRepeatFrameStep s
  else issueGroup s

/-- The slot of a context: a context that cannot use it loses it (R50, R51). [DESIGN CHOICE: log 7] -/
def slot (m : Nat) (s : State) : Out :=
  if !mbaValid s.minimal m then .fault (.absentAgent m)
  else if !ready s m then .next s
  else
    match slotBody (beginSlot s m) with
    | .next t => .next (noteBow s t m)
    | .fault f => .fault f
    | .refused r => .refused r

end Sys2Proof.Machine
end

