-- ==== Sys2Proof/Machine/Schedule.lean ====
section
/-! DEFINITION. The model's schedule: what the device does next where nothing was asked for. Everything that can happen at once
happens first, in a fixed order; then a waiting instruction for which what it waits for has come completes, in the same cycle (R52); then the
context whose issue slot comes next issues (R50); where nothing can happen before a time that something waits for, time passes. The spec leaves
the durations of all this open. What falls due by a clock has no such freedom: it happens in its cycle also where the agenda asks for a slot. -/

namespace Sys2Proof.Machine

open Sys2Proof.Config

/-! ## What happens by itself -/

/-- Work item `a` comes before `b` at a core that both reach in one cycle (R374). -/
def Item.before (a b : Item) : Bool := decide (a.seq < b.seq) || (a.seq = b.seq && decide (a.item < b.item))

/-- The places of a list's items in the order of R374. -/
def itemOrder (l : List Item) : List Nat :=
  (upFrom 0 l.length).foldl (fun r i => match l[i]? with
    | some it =>
      let p := fun (j : Nat) => match l[j]? with | some x => x.before it | none => false
      r.filter p ++ [i] ++ r.filter fun j => !p j
    | none => r) []

/-- A barrier phase that waited for members on other devices, or for its words' room, completes (R21, R195, R200). -/
def execBarrierPhase (key : Nat) (s : State) : Out := runEvent (fun s => completeBar s key) s

/-- The hardware words that waited for room are posted (R195). -/
def execHeldWords (s : State) : Out := runEvent releaseHeld s

/-- The events of the networks and of memory. -/
def netEvents (s : State) : List (State → Out) :=
  s.net.map (fun w => execMailboxWordArrival w.src w.dst)
    ++ s.pnet.map (fun w => execPortWordArrival w.cid w.dir)
    ++ s.qnet.map (fun w => execQinWordArrival w.src w.dst)
    ++ (upFrom 0 s.cops.length).map execCounterOperationApply
    ++ (upFrom 0 s.reds.length).map (fun i => execRemoteUpdateApply i .clean)
    ++ (upFrom 0 s.walks.length).map (fun i => execPageWalk i .clean)
    ++ s.dreqs.map (fun r => execDelegationAccept r.owner)
    ++ (upFrom 0 s.tokens.length).map execBowTokenPass
    ++ (upFrom 0 s.puts.length).flatMap (fun i => match s.puts[i]? with
        | some m => (if m.cid.isNone || m.dev = s.devNum then [execPutArrival (.own i .applied)] else []) ++ [execPutCounterIncrement i]
        | none => [])
    ++ s.rinst.map (fun (x : Nat × RInst) => execRestrictCombine (x.1 / 4) (x.1 % 4))
    ++ (itemOrder s.items).map execWorkItemArrival
    ++ if s.held.isEmpty then [] else [execHeldWords]

/-- The events of the device that fall due by a clock: emission slots, the change of slot tables and the barriers. -/
def netTimed (s : State) : List (State → Out) :=
  (if s.store.isEmpty then [] else [execEmissionSlot])
    ++ ((s.slots.filter fun x => x.2.next.isSome).map fun (x : Nat × SlotTab) => execSlotTableSwitch x.1)
    ++ (s.bars.filter fun x => !x.2.arrived.isEmpty).map fun (x : Nat × Bar) => execBarrierPhase x.1

/-- The events of a context. -/
def contextEvents (s : State) (m : Nat) (c : Context) : List (State → Out) :=
  (upFrom 0 c.out.length).map (fun i => execMemoryAccessPerform m i .clean)
    ++ (if s.feq.any fun w => w.who = m then [execMemoryAccessPerform m (c.out.length + s.props.length) .clean] else [])
    ++ (if c.pend.isSome then [execEngineFaultDelivery m] else [])
    ++ (if c.away.isSome then [execMigrantArrival m, execMigrantHomeArrival m] else [])
    ++ (if c.muteOut.isEmpty then [] else [execMutePlacement m])
    ++ if c.stopReq = some byDebugger then [execDebugHalt m] else []

/-- The events of a context that fall due by a clock. -/
def contextTimed (m : Nat) (c : Context) : List (State → Out) :=
  (if c.rcv.isSome then [execRecvtTimeout m] else []) ++ if (stallClock c).isSome then [execWatchdog m] else []

/-- The events of a core. -/
def coreEvents (cid : Nat) (k : Core) : List (State → Out) :=
  k.icreq.map (execIcacheLineFill cid)
    ++ [Eng.vector, .copy, .global, .matrix, .pyramid, .link].flatMap (fun e =>
        let q := k.eng.getD (engNum e) EngSt.init
        if q.queue.isEmpty && q.enter.isEmpty then []
        else [execEngineCommandCompletion cid e, execEngineCommandRun cid e .clean])
    ++ if k.dlg.en then [execDelegationStart cid] else []

/-- The events of a core that fall due by a clock. -/
def coreTimed (cid : Nat) (k : Core) : List (State → Out) :=
  k.armput.map (fun a => execArmedPutDeadlineFire cid a.num)
    ++ k.bank.map (fun (x : Nat × BankSt) => execRetentionExitComplete cid x.1)
    ++ if k.retEn then (upFrom 0 15).map (execRetentionEntry cid) else []

/-- The events of the device's clocks. -/
def clockEvents (s : State) : List (State → Out) :=
  s.leases.map (fun (x : Nat × Lease) => execLeaseTermTimeout x.1)
    ++ (if s.budgets.isEmpty && s.served.isEmpty then [] else [execBudgetWindowStart])
    ++ (if s.parts.any fun x => x.2.c0seen != 0 then [execC0rateWindowStart] else [])
    ++ if starting s.boot then [execStartTimeout] else []

/-- A store to a replicated page reaches its copies though its context has nothing else outstanding. -/
def copyEvents (s : State) : List (State → Out) :=
  (upFrom 0 s.props.length).map fun i => fun s => runEvent (fun s => propagateAt s i) s

/-- Everything that falls due by a clock. -/
def timedEvents (s : State) : List (State → Out) :=
  netTimed s ++ s.ctxs.flatMap (fun (x : Nat × Context) => contextTimed x.1 x.2)
    ++ s.cores.flatMap (fun (x : Nat × Core) => coreTimed x.1 x.2) ++ clockEvents s

/-- Everything that may happen by itself, in the order in which the model tries it. -/
def allEvents (s : State) : List (State → Out) :=
  netEvents s ++ s.ctxs.flatMap (fun (x : Nat × Context) => contextEvents s x.1 x.2)
    ++ s.cores.flatMap (fun (x : Nat × Core) => coreEvents x.1 x.2) ++ copyEvents s ++ timedEvents s

/-- The first event that changes the state. -/
def firstEvent (s : State) : List (State → Out) → Option State
  | [] => none
  | f :: l => match f s with
    | .next t => if t = s then firstEvent s l else some t
    | _ => firstEvent s l

/-! ## Slots (R50) -/

/-- The tick at which cycle `k` of a layer's clock begins. -/
def tickOfCycle (s : State) (l k : Nat) : Nat :=
  let c := s.clk.getD l ⟨0, 0, 1⟩
  c.at_ + (k - c.cyc) * period c.rate

/-- The least number not below `k` that is `r` modulo `n`. -/
def alignUp (k n r : Nat) : Nat := if k % n ≤ r then k - k % n + r else k - k % n + n + r

/-- The tick of the next issue slot of a context on the core where its thread runs (R50): context n of a core with C contexts has
the cycles that are n modulo C. -/
def nextSlot (s : State) (m : Nat) : Nat :=
  let c := s.ctx m
  let (cid, n) := match c.hosted with | some (h, n) => (h, n) | none => (mbaCid m, mbaCtx m)
  let l := cidLayer cid
  let now := s.cycles l
  let from_ := if tickOfCycle s l now < s.tick then now + 1 else now
  tickOfCycle s l (alignUp (max from_ (if now < c.cyc then now else c.cyc + 1)) (contexts l) n)

/-- A context that stalled is tried again only after something has happened. -/
def awakeCtx (s : State) (c : Context) : Bool := match c.wait with | some w => w.epoch != s.epoch | none => true

/-- A translation that a context waits for has come (R393). The model lets it arrive as the slot begins that uses it: fills for
the other contexts of the core cannot replace it before. [DESIGN CHOICE: log 61] -/
def filled (s : State) (m : Nat) : Bool := s.fills.any fun f => f.who.isCtx m

/-- A waiting context for which something may have come: its instruction is tried in the cycle in which it came (R52). -/
def nextWaiting (s : State) : Option Nat :=
  (s.ctxs.find? fun x => filled s x.1 || (x.2.wait.isSome && awakeCtx s x.2 && ready s x.1)).map (·.1)

/-- The context whose slot comes next, and its tick. -/
def nextContext (s : State) : Option (Nat × Nat) :=
  (s.ctxs.filter fun x => x.2.wait.isNone && ready s x.1).foldl (fun r (x : Nat × Context) =>
    let t := nextSlot s x.1
    match r with
    | some (u, n) => if t < u then some (t, x.1) else some (u, n)
    | none => some (t, x.1)) none

/-! ## Time -/

/-- The ticks at which a wait of a context ends by time. -/
def contextTimes (s : State) (m : Nat) (c : Context) : List Nat :=
  (match c.rcv with | some r => [tickOfCycle s (cidLayer (mbaCid m)) (r.stop + 1)] | none => [])
    ++ (if (s.part c.part.toNat).frozen.isSome || c.run != .running then []
        else match stallClock c with | some (_, t, lim) => if lim = 0 then [] else [t + lim * tickPerUs] | none => [])

/-- The ticks at which something of a core falls due. -/
def coreTimes (s : State) (cid : Nat) (k : Core) : List Nat :=
  let l := cidLayer cid
  k.bank.filterMap (fun (x : Nat × BankSt) => match x.2.ret with | .exiting t => some (tickOfCycle s l t) | _ => none)
    ++ k.armput.filterMap (fun a => a.deadline.map tickOfNs)
    ++ if k.retEn then (upFrom 0 15).filterMap fun b =>
        if (s.bank cid b).ret = .active then some (tickOfCycle s l ((s.bank cid b).last + k.idleCycles)) else none
      else []

/-- The ticks at which an item that came out of turn may reach the next core of its walk (R374). -/
def itemTimes (s : State) : List Nat :=
  s.items.filterMap fun it => match it.walk[it.pos]? with
    | some cid => if outOfTurn s cid it then some (tickOfCycle s (cidLayer cid) (s.cycles (cidLayer cid) + 1)) else none
    | none => none

/-- The ticks at which a slot table that was asked for takes over: those at which a frame begins (R409). -/
def slotTimes (s : State) : List Nat :=
  (s.slots.filter fun x => x.2.next.isSome).map fun (x : Nat × SlotTab) => tickOfCycle s (dieLayer x.1) (64 * (frameNow s x.1 + 1))

/-- The ticks at which the members of pod barriers on other devices have arrived (R200). -/
def barTimes (s : State) : List Nat :=
  s.bars.filterMap fun (x : Nat × Bar) =>
    if barPod x.1 && !x.2.arrived.isEmpty then some (x.2.began + peersArrive (x.1 % 64) x.2.phase.toNat x.2.began) else none

/-- The ticks that something waits for. -/
def dueTimes (s : State) : List Nat :=
  let us := (s.gtime / 1000 + 1) * tickPerUs
  s.ctxs.flatMap (fun (x : Nat × Context) => contextTimes s x.1 x.2)
    ++ s.cores.flatMap (fun (x : Nat × Core) => coreTimes s x.1 x.2)
    ++ s.leases.filterMap (fun (x : Nat × Lease) => if x.2.holder.isSome then some (tickOfCycle s 0 (x.2.began + termCycles)) else none)
    ++ itemTimes s ++ slotTimes s ++ barTimes s
    ++ (if s.store.any Launch.ready then [tickOfCycle s 3 (4 * max s.eslot (slotNow s + 1))] else [])
    ++ (if s.served.isEmpty && s.bwait.isEmpty && !(s.parts.any fun x => x.2.c0seen != 0) then [] else [us])
    ++ if starting s.boot then [s.boot.began + 30 * 10 ^ 6 * tickPerUs] else []

/-- The next time, later than now, that something waits for. -/
def nextDue (s : State) : Option Nat := ((dueTimes s).filter (s.tick < ·)).min?

/-! ## A step's bookkeeping -/

/-- Something has happened. -/
def happened (s : State) : State := { s with epoch := s.epoch + 1 }

/-- After a slot: a slot that ended in a stall has changed nothing that others wait for. -/
def afterSlot (m : Nat) (s : State) : State :=
  match (s.ctx m).wait with
  | some w => if w.epoch = s.epoch then s else happened s
  | none => happened s

/-- An outcome with its next state changed. -/
def onNext (f : State → State) : Out → Out
  | .next s => .next (f s)
  | .fault e => .fault e
  | .refused r => .refused r

/-- A slot of a context, asked for or come. -/
def slotStep (m : Nat) (s : State) : Out := onNext (afterSlot m) (slot m s)

/-- An event that was asked for. -/
def eventStep (i : Instr) (s : State) : Out := onNext happened (exec i s)

/-- A waiting instruction is tried again; a translation that it waits for arrives first. -/
def takeTurn (m : Nat) (s : State) : Out := if filled s m then onNext happened (execMicroTlbFill m s) else slotStep m s

/-- What comes before time may pass: the first of these events that changes anything, else an instruction for which what it waits for has come
(R52). -/
def atOnce (l : List (State → Out)) (s : State) : Option Out :=
  match firstEvent s l with
  | some t => some (.next (happened t))
  | none => (nextWaiting s).map fun m => takeTurn m s

/-- Time goes on to tick `t`, at which `f` follows, or to an earlier one at which something falls due. -/
def atTick (t : Nat) (f : State → Out) (s : State) : Out :=
  match nextDue s with
  | some d => if d < t then .next { s with tick := d } else f { s with tick := max s.tick t }
  | none => f { s with tick := max s.tick t }

/-- What the device does by itself. [DESIGN CHOICE: log 2] -/
def idleStep (s : State) : Out :=
  match atOnce (allEvents s) s with
  | some o => o
  | none =>
    match nextContext s, nextDue s with
    | some (t, m), _ => atTick t (slotStep m) s
    | none, some d => .next { s with tick := d }
    | none, none => .next s

/-- The slot of a context can come at once: its cycle begins now, or the context waits and is tried again (R50, R52). -/
def slotNear (s : State) (m : Nat) : Bool := !mbaValid s.minimal m || (s.ctx m).wait.isSome || decide (nextSlot s m ≤ s.tick)

/-- The agenda asks for a context's next slot, and for `r` after it (R50). Until its cycle comes what falls due by a clock happens, what waits
for it goes on, and every other context that can issue has its slots. [DEDUCED: log 104] -/
def slotAsked (m : Nat) (r : List Agenda) (s : State) : Out :=
  let own := fun (t : State) => slotStep m { t with agenda := r }
  if slotNear s m then own s
  else match atOnce (timedEvents s) s with
    | some o => o
    | none =>
      match nextContext s with
      | some (u, n) => if u < nextSlot s m then atTick u (slotStep n) s else atTick (nextSlot s m) own s
      | none => atTick (nextSlot s m) own s

/-! ## A program placed for its first step -/

/-- A segment descriptor of all of the code space, which permits fetching alone. -/
def codeDesc : Desc := BitVec.ofNat 128 ((2 ^ 48 - 1) * 2 ^ 80 + 2 ^ 10 + 3)

/-- A context that stands at PC 0 of that segment with nothing pending. -/
def atStart (c : Context) : Context :=
  { (c.setFrame 0 0) with
    run := .running, pc := 0, via := BitVec.allOnes 64, seg := c.seg.setIfInBounds 0 codeDesc, frame := none, out := [],
    fwd := [], pops := [], notice := none, late := none, pend := none, wait := none, rcv := none, away := none, stopReq := none, muteOut := [],
    cyc := 0 }

/-- A word of code at address 0 of the code space of the current context's layer, and in the instruction cache of its core; the
context stands there, and the cycle of its next slot begins. -/
def placeCodeWord (s : State) (w : Nat) : State :=
  let cid := mbaCid s.cur
  let s := s.modMe atStart
  let s := s.putBytes (codeLoc (cidLayer cid) 0) (leBytes 64 w)
  let s := s.modCore cid fun k => { k with ic := tset k.ic 0 (some (BitVec.ofNat 512 w)), icreq := ndel k.icreq 0, down := false }
  let s := s.modCluster (clKey cid) fun c => { c with down := false }
  { s with
    tick := max s.tick (nextSlot s s.cur), agenda := [.slot s.cur],
    parts := s.parts.map fun (x : Nat × Partition) => (x.1, { x.2 with held := false, drain := false }) }

end Sys2Proof.Machine
end

