-- ==== Sys2Proof/Machine/Step.lean ====
section
/-! DEFINITION. One step of the device: what the agenda asks for, or what the device does by itself. -/

namespace Sys2Proof.Machine

/-- One step. -/
def step (s : State) : Host.Outcome State Fault Refusal :=
  match s.agenda with
  | .slot m :: r => slotAsked m r s
  | .ev i :: r => eventStep i { s with agenda := r }
  | [] => idleStep s

/-- The state in which the next step fetches and runs the instruction whose bits are `w`, numbered as the opcode table numbers
them. [DESIGN CHOICE: log 3] -/
def State.withFetchWord (s : State) (nbits w : Nat) : State := placeCodeWord s (w % 2 ^ min nbits 64)

end Sys2Proof.Machine
end

