-- ==== Sys2Proof/Laws/Decode.lean ====
section
/-! SUPPORT. The fields of the instruction formats: what an extraction from an encoded word gives. -/

namespace Sys2Proof.Laws

theorem ext_hi {m n : Nat} (a : BitVec m) (b : BitVec n) (lo k : Nat) (h : n ≤ lo) :
    (a ++ b).extractLsb' lo k = a.extractLsb' (lo - n) k := BitVec.extractLsb'_append_eq_of_le h
theorem ext_lo {m n : Nat} (a : BitVec m) (b : BitVec n) (lo k : Nat) (h : lo + k ≤ n) :
    (a ++ b).extractLsb' lo k = b.extractLsb' lo k := BitVec.extractLsb'_append_eq_of_add_le h
theorem get_hi {m n : Nat} (a : BitVec m) (b : BitVec n) (i : Nat) (h : n ≤ i) :
    (a ++ b).getLsbD i = a.getLsbD (i - n) := by
  rw [BitVec.getLsbD_append]; simp; omega
theorem get_lo {m n : Nat} (a : BitVec m) (b : BitVec n) (i : Nat) (h : i < n) :
    (a ++ b).getLsbD i = b.getLsbD i := by
  rw [BitVec.getLsbD_append]; simp [h]
theorem ofBool_ext (x : Bool) : (BitVec.ofBool x).extractLsb' 0 1 = BitVec.ofBool x := by cases x <;> rfl
theorem ofBool_get (x : Bool) : (BitVec.ofBool x).getLsbD 0 = x := by cases x <;> rfl
theorem ext_get {n : Nat} (w : BitVec n) (lo k i : Nat) (h : i < k) : (w.extractLsb' lo k).getLsbD i = w.getLsbD (lo + i) := by
  simp [h]

@[simp] theorem fmtRR_24_8 (m : BitVec 8) (d : BitVec 5) (a : BitVec 5) (b : BitVec 5) (f : BitVec 8) (x : Bool) : (fmtRR m d a b f x).extractLsb' 24 8 = m := by
  refine (ext_hi _ _ _ _ (by decide)).trans ?_
  refine (ext_hi _ _ _ _ (by decide)).trans ?_
  refine (ext_hi _ _ _ _ (by decide)).trans ?_
  refine (ext_hi _ _ _ _ (by decide)).trans ?_
  refine (ext_hi _ _ _ _ (by decide)).trans ?_
  exact BitVec.extractLsb'_eq_self

@[simp] theorem fmtRR_19_5 (m : BitVec 8) (d : BitVec 5) (a : BitVec 5) (b : BitVec 5) (f : BitVec 8) (x : Bool) : (fmtRR m d a b f x).extractLsb' 19 5 = d := by
  refine (ext_hi _ _ _ _ (by decide)).trans ?_
  refine (ext_hi _ _ _ _ (by decide)).trans ?_
  refine (ext_hi _ _ _ _ (by decide)).trans ?_
  refine (ext_hi _ _ _ _ (by decide)).trans ?_
  refine (ext_lo _ _ _ _ (by decide)).trans ?_
  exact BitVec.extractLsb'_eq_self

@[simp] theorem fmtRR_14_5 (m : BitVec 8) (d : BitVec 5) (a : BitVec 5) (b : BitVec 5) (f : BitVec 8) (x : Bool) : (fmtRR m d a b f x).extractLsb' 14 5 = a := by
  refine (ext_hi _ _ _ _ (by decide)).trans ?_
  refine (ext_hi _ _ _ _ (by decide)).trans ?_
  refine (ext_hi _ _ _ _ (by decide)).trans ?_
  refine (ext_lo _ _ _ _ (by decide)).trans ?_
  exact BitVec.extractLsb'_eq_self

@[simp] theorem fmtRR_9_5 (m : BitVec 8) (d : BitVec 5) (a : BitVec 5) (b : BitVec 5) (f : BitVec 8) (x : Bool) : (fmtRR m d a b f x).extractLsb' 9 5 = b := by
  refine (ext_hi _ _ _ _ (by decide)).trans ?_
  refine (ext_hi _ _ _ _ (by decide)).trans ?_
  refine (ext_lo _ _ _ _ (by decide)).trans ?_
  exact BitVec.extractLsb'_eq_self

@[simp] theorem fmtRR_1_8 (m : BitVec 8) (d : BitVec 5) (a : BitVec 5) (b : BitVec 5) (f : BitVec 8) (x : Bool) : (fmtRR m d a b f x).extractLsb' 1 8 = f := by
  refine (ext_hi _ _ _ _ (by decide)).trans ?_
  refine (ext_lo _ _ _ _ (by decide)).trans ?_
  exact BitVec.extractLsb'_eq_self

@[simp] theorem fmtRR_0_1 (m : BitVec 8) (d : BitVec 5) (a : BitVec 5) (b : BitVec 5) (f : BitVec 8) (x : Bool) : (fmtRR m d a b f x).extractLsb' 0 1 = BitVec.ofBool x := by
  refine (ext_lo _ _ _ _ (by decide)).trans ?_
  exact ofBool_ext _

@[simp] theorem fmtRR_bit0 (m : BitVec 8) (d : BitVec 5) (a : BitVec 5) (b : BitVec 5) (f : BitVec 8) (x : Bool) : (fmtRR m d a b f x).getLsbD 0 = x := by
  refine (get_lo _ _ _ (by decide)).trans ?_
  exact ofBool_get _

@[simp] theorem fmtRR_top (m : BitVec 8) (d : BitVec 5) (a : BitVec 5) (b : BitVec 5) (f : BitVec 8) (x : Bool) : (fmtRR m d a b f x).extractLsb' 30 2 = (m).extractLsb' 6 2 := by
  refine (ext_hi _ _ _ _ (by decide)).trans ?_
  refine (ext_hi _ _ _ _ (by decide)).trans ?_
  refine (ext_hi _ _ _ _ (by decide)).trans ?_
  refine (ext_hi _ _ _ _ (by decide)).trans ?_
  refine (ext_hi _ _ _ _ (by decide)).trans ?_
  rfl

@[simp] theorem fmtRR_m6 (m : BitVec 8) (d : BitVec 5) (a : BitVec 5) (b : BitVec 5) (f : BitVec 8) (x : Bool) : (fmtRR m d a b f x).extractLsb' 24 6 = (m).extractLsb' 0 6 := by
  refine (ext_hi _ _ _ _ (by decide)).trans ?_
  refine (ext_hi _ _ _ _ (by decide)).trans ?_
  refine (ext_hi _ _ _ _ (by decide)).trans ?_
  refine (ext_hi _ _ _ _ (by decide)).trans ?_
  refine (ext_hi _ _ _ _ (by decide)).trans ?_
  rfl

@[simp] theorem fmtRI_24_8 (m : BitVec 8) (d : BitVec 5) (a : BitVec 5) (imm : BitVec 13) (x : Bool) : (fmtRI m d a imm x).extractLsb' 24 8 = m := by
  refine (ext_hi _ _ _ _ (by decide)).trans ?_
  refine (ext_hi _ _ _ _ (by decide)).trans ?_
  refine (ext_hi _ _ _ _ (by decide)).trans ?_
  refine (ext_hi _ _ _ _ (by decide)).trans ?_
  exact BitVec.extractLsb'_eq_self

@[simp] theorem fmtRI_19_5 (m : BitVec 8) (d : BitVec 5) (a : BitVec 5) (imm : BitVec 13) (x : Bool) : (fmtRI m d a imm x).extractLsb' 19 5 = d := by
  refine (ext_hi _ _ _ _ (by decide)).trans ?_
  refine (ext_hi _ _ _ _ (by decide)).trans ?_
  refine (ext_hi _ _ _ _ (by decide)).trans ?_
  refine (ext_lo _ _ _ _ (by decide)).trans ?_
  exact BitVec.extractLsb'_eq_self

@[simp] theorem fmtRI_14_5 (m : BitVec 8) (d : BitVec 5) (a : BitVec 5) (imm : BitVec 13) (x : Bool) : (fmtRI m d a imm x).extractLsb' 14 5 = a := by
  refine (ext_hi _ _ _ _ (by decide)).trans ?_
  refine (ext_hi _ _ _ _ (by decide)).trans ?_
  refine (ext_lo _ _ _ _ (by decide)).trans ?_
  exact BitVec.extractLsb'_eq_self

@[simp] theorem fmtRI_1_13 (m : BitVec 8) (d : BitVec 5) (a : BitVec 5) (imm : BitVec 13) (x : Bool) : (fmtRI m d a imm x).extractLsb' 1 13 = imm := by
  refine (ext_hi _ _ _ _ (by decide)).trans ?_
  refine (ext_lo _ _ _ _ (by decide)).trans ?_
  exact BitVec.extractLsb'_eq_self

@[simp] theorem fmtRI_0_1 (m : BitVec 8) (d : BitVec 5) (a : BitVec 5) (imm : BitVec 13) (x : Bool) : (fmtRI m d a imm x).extractLsb' 0 1 = BitVec.ofBool x := by
  refine (ext_lo _ _ _ _ (by decide)).trans ?_
  exact ofBool_ext _

@[simp] theorem fmtRI_bit0 (m : BitVec 8) (d : BitVec 5) (a : BitVec 5) (imm : BitVec 13) (x : Bool) : (fmtRI m d a imm x).getLsbD 0 = x := by
  refine (get_lo _ _ _ (by decide)).trans ?_
  exact ofBool_get _

@[simp] theorem fmtRI_top (m : BitVec 8) (d : BitVec 5) (a : BitVec 5) (imm : BitVec 13) (x : Bool) : (fmtRI m d a imm x).extractLsb' 30 2 = (m).extractLsb' 6 2 := by
  refine (ext_hi _ _ _ _ (by decide)).trans ?_
  refine (ext_hi _ _ _ _ (by decide)).trans ?_
  refine (ext_hi _ _ _ _ (by decide)).trans ?_
  refine (ext_hi _ _ _ _ (by decide)).trans ?_
  rfl

@[simp] theorem fmtRI_m6 (m : BitVec 8) (d : BitVec 5) (a : BitVec 5) (imm : BitVec 13) (x : Bool) : (fmtRI m d a imm x).extractLsb' 24 6 = (m).extractLsb' 0 6 := by
  refine (ext_hi _ _ _ _ (by decide)).trans ?_
  refine (ext_hi _ _ _ _ (by decide)).trans ?_
  refine (ext_hi _ _ _ _ (by decide)).trans ?_
  refine (ext_hi _ _ _ _ (by decide)).trans ?_
  rfl

@[simp] theorem fmtLI_24_8 (m : BitVec 8) (d : BitVec 5) (imm : BitVec 19) : (fmtLI m d imm).extractLsb' 24 8 = m := by
  refine (ext_hi _ _ _ _ (by decide)).trans ?_
  refine (ext_hi _ _ _ _ (by decide)).trans ?_
  exact BitVec.extractLsb'_eq_self

@[simp] theorem fmtLI_19_5 (m : BitVec 8) (d : BitVec 5) (imm : BitVec 19) : (fmtLI m d imm).extractLsb' 19 5 = d := by
  refine (ext_hi _ _ _ _ (by decide)).trans ?_
  refine (ext_lo _ _ _ _ (by decide)).trans ?_
  exact BitVec.extractLsb'_eq_self

@[simp] theorem fmtLI_0_19 (m : BitVec 8) (d : BitVec 5) (imm : BitVec 19) : (fmtLI m d imm).extractLsb' 0 19 = imm := by
  refine (ext_lo _ _ _ _ (by decide)).trans ?_
  exact BitVec.extractLsb'_eq_self

@[simp] theorem fmtLI_top (m : BitVec 8) (d : BitVec 5) (imm : BitVec 19) : (fmtLI m d imm).extractLsb' 30 2 = (m).extractLsb' 6 2 := by
  refine (ext_hi _ _ _ _ (by decide)).trans ?_
  refine (ext_hi _ _ _ _ (by decide)).trans ?_
  rfl

@[simp] theorem fmtLI_m6 (m : BitVec 8) (d : BitVec 5) (imm : BitVec 19) : (fmtLI m d imm).extractLsb' 24 6 = (m).extractLsb' 0 6 := by
  refine (ext_hi _ _ _ _ (by decide)).trans ?_
  refine (ext_hi _ _ _ _ (by decide)).trans ?_
  rfl

@[simp] theorem fmtCI_24_8 (m : BitVec 8) (k : BitVec 5) (a : BitVec 5) (cond : BitVec 3) (imm : BitVec 10) (x : Bool) : (fmtCI m k a cond imm x).extractLsb' 24 8 = m := by
  refine (ext_hi _ _ _ _ (by decide)).trans ?_
  refine (ext_hi _ _ _ _ (by decide)).trans ?_
  refine (ext_hi _ _ _ _ (by decide)).trans ?_
  refine (ext_hi _ _ _ _ (by decide)).trans ?_
  refine (ext_hi _ _ _ _ (by decide)).trans ?_
  exact BitVec.extractLsb'_eq_self

@[simp] theorem fmtCI_19_5 (m : BitVec 8) (k : BitVec 5) (a : BitVec 5) (cond : BitVec 3) (imm : BitVec 10) (x : Bool) : (fmtCI m k a cond imm x).extractLsb' 19 5 = k := by
  refine (ext_hi _ _ _ _ (by decide)).trans ?_
  refine (ext_hi _ _ _ _ (by decide)).trans ?_
  refine (ext_hi _ _ _ _ (by decide)).trans ?_
  refine (ext_hi _ _ _ _ (by decide)).trans ?_
  refine (ext_lo _ _ _ _ (by decide)).trans ?_
  exact BitVec.extractLsb'_eq_self

@[simp] theorem fmtCI_14_5 (m : BitVec 8) (k : BitVec 5) (a : BitVec 5) (cond : BitVec 3) (imm : BitVec 10) (x : Bool) : (fmtCI m k a cond imm x).extractLsb' 14 5 = a := by
  refine (ext_hi _ _ _ _ (by decide)).trans ?_
  refine (ext_hi _ _ _ _ (by decide)).trans ?_
  refine (ext_hi _ _ _ _ (by decide)).trans ?_
  refine (ext_lo _ _ _ _ (by decide)).trans ?_
  exact BitVec.extractLsb'_eq_self

@[simp] theorem fmtCI_11_3 (m : BitVec 8) (k : BitVec 5) (a : BitVec 5) (cond : BitVec 3) (imm : BitVec 10) (x : Bool) : (fmtCI m k a cond imm x).extractLsb' 11 3 = cond := by
  refine (ext_hi _ _ _ _ (by decide)).trans ?_
  refine (ext_hi _ _ _ _ (by decide)).trans ?_
  refine (ext_lo _ _ _ _ (by decide)).trans ?_
  exact BitVec.extractLsb'_eq_self

@[simp] theorem fmtCI_1_10 (m : BitVec 8) (k : BitVec 5) (a : BitVec 5) (cond : BitVec 3) (imm : BitVec 10) (x : Bool) : (fmtCI m k a cond imm x).extractLsb' 1 10 = imm := by
  refine (ext_hi _ _ _ _ (by decide)).trans ?_
  refine (ext_lo _ _ _ _ (by decide)).trans ?_
  exact BitVec.extractLsb'_eq_self

@[simp] theorem fmtCI_0_1 (m : BitVec 8) (k : BitVec 5) (a : BitVec 5) (cond : BitVec 3) (imm : BitVec 10) (x : Bool) : (fmtCI m k a cond imm x).extractLsb' 0 1 = BitVec.ofBool x := by
  refine (ext_lo _ _ _ _ (by decide)).trans ?_
  exact ofBool_ext _

@[simp] theorem fmtCI_bit0 (m : BitVec 8) (k : BitVec 5) (a : BitVec 5) (cond : BitVec 3) (imm : BitVec 10) (x : Bool) : (fmtCI m k a cond imm x).getLsbD 0 = x := by
  refine (get_lo _ _ _ (by decide)).trans ?_
  exact ofBool_get _

@[simp] theorem fmtCI_top (m : BitVec 8) (k : BitVec 5) (a : BitVec 5) (cond : BitVec 3) (imm : BitVec 10) (x : Bool) : (fmtCI m k a cond imm x).extractLsb' 30 2 = (m).extractLsb' 6 2 := by
  refine (ext_hi _ _ _ _ (by decide)).trans ?_
  refine (ext_hi _ _ _ _ (by decide)).trans ?_
  refine (ext_hi _ _ _ _ (by decide)).trans ?_
  refine (ext_hi _ _ _ _ (by decide)).trans ?_
  refine (ext_hi _ _ _ _ (by decide)).trans ?_
  rfl

@[simp] theorem fmtCI_m6 (m : BitVec 8) (k : BitVec 5) (a : BitVec 5) (cond : BitVec 3) (imm : BitVec 10) (x : Bool) : (fmtCI m k a cond imm x).extractLsb' 24 6 = (m).extractLsb' 0 6 := by
  refine (ext_hi _ _ _ _ (by decide)).trans ?_
  refine (ext_hi _ _ _ _ (by decide)).trans ?_
  refine (ext_hi _ _ _ _ (by decide)).trans ?_
  refine (ext_hi _ _ _ _ (by decide)).trans ?_
  refine (ext_hi _ _ _ _ (by decide)).trans ?_
  rfl

@[simp] theorem fmtF4_24_8 (m : BitVec 8) (d : BitVec 5) (a : BitVec 5) (b : BitVec 5) (c : BitVec 5) (op : BitVec 3) (x : Bool) : (fmtF4 m d a b c op x).extractLsb' 24 8 = m := by
  refine (ext_hi _ _ _ _ (by decide)).trans ?_
  refine (ext_hi _ _ _ _ (by decide)).trans ?_
  refine (ext_hi _ _ _ _ (by decide)).trans ?_
  refine (ext_hi _ _ _ _ (by decide)).trans ?_
  refine (ext_hi _ _ _ _ (by decide)).trans ?_
  refine (ext_hi _ _ _ _ (by decide)).trans ?_
  exact BitVec.extractLsb'_eq_self

@[simp] theorem fmtF4_19_5 (m : BitVec 8) (d : BitVec 5) (a : BitVec 5) (b : BitVec 5) (c : BitVec 5) (op : BitVec 3) (x : Bool) : (fmtF4 m d a b c op x).extractLsb' 19 5 = d := by
  refine (ext_hi _ _ _ _ (by decide)).trans ?_
  refine (ext_hi _ _ _ _ (by decide)).trans ?_
  refine (ext_hi _ _ _ _ (by decide)).trans ?_
  refine (ext_hi _ _ _ _ (by decide)).trans ?_
  refine (ext_hi _ _ _ _ (by decide)).trans ?_
  refine (ext_lo _ _ _ _ (by decide)).trans ?_
  exact BitVec.extractLsb'_eq_self

@[simp] theorem fmtF4_14_5 (m : BitVec 8) (d : BitVec 5) (a : BitVec 5) (b : BitVec 5) (c : BitVec 5) (op : BitVec 3) (x : Bool) : (fmtF4 m d a b c op x).extractLsb' 14 5 = a := by
  refine (ext_hi _ _ _ _ (by decide)).trans ?_
  refine (ext_hi _ _ _ _ (by decide)).trans ?_
  refine (ext_hi _ _ _ _ (by decide)).trans ?_
  refine (ext_hi _ _ _ _ (by decide)).trans ?_
  refine (ext_lo _ _ _ _ (by decide)).trans ?_
  exact BitVec.extractLsb'_eq_self

@[simp] theorem fmtF4_9_5 (m : BitVec 8) (d : BitVec 5) (a : BitVec 5) (b : BitVec 5) (c : BitVec 5) (op : BitVec 3) (x : Bool) : (fmtF4 m d a b c op x).extractLsb' 9 5 = b := by
  refine (ext_hi _ _ _ _ (by decide)).trans ?_
  refine (ext_hi _ _ _ _ (by decide)).trans ?_
  refine (ext_hi _ _ _ _ (by decide)).trans ?_
  refine (ext_lo _ _ _ _ (by decide)).trans ?_
  exact BitVec.extractLsb'_eq_self

@[simp] theorem fmtF4_4_5 (m : BitVec 8) (d : BitVec 5) (a : BitVec 5) (b : BitVec 5) (c : BitVec 5) (op : BitVec 3) (x : Bool) : (fmtF4 m d a b c op x).extractLsb' 4 5 = c := by
  refine (ext_hi _ _ _ _ (by decide)).trans ?_
  refine (ext_hi _ _ _ _ (by decide)).trans ?_
  refine (ext_lo _ _ _ _ (by decide)).trans ?_
  exact BitVec.extractLsb'_eq_self

@[simp] theorem fmtF4_1_3 (m : BitVec 8) (d : BitVec 5) (a : BitVec 5) (b : BitVec 5) (c : BitVec 5) (op : BitVec 3) (x : Bool) : (fmtF4 m d a b c op x).extractLsb' 1 3 = op := by
  refine (ext_hi _ _ _ _ (by decide)).trans ?_
  refine (ext_lo _ _ _ _ (by decide)).trans ?_
  exact BitVec.extractLsb'_eq_self

@[simp] theorem fmtF4_0_1 (m : BitVec 8) (d : BitVec 5) (a : BitVec 5) (b : BitVec 5) (c : BitVec 5) (op : BitVec 3) (x : Bool) : (fmtF4 m d a b c op x).extractLsb' 0 1 = BitVec.ofBool x := by
  refine (ext_lo _ _ _ _ (by decide)).trans ?_
  exact ofBool_ext _

@[simp] theorem fmtF4_bit0 (m : BitVec 8) (d : BitVec 5) (a : BitVec 5) (b : BitVec 5) (c : BitVec 5) (op : BitVec 3) (x : Bool) : (fmtF4 m d a b c op x).getLsbD 0 = x := by
  refine (get_lo _ _ _ (by decide)).trans ?_
  exact ofBool_get _

@[simp] theorem fmtF4_top (m : BitVec 8) (d : BitVec 5) (a : BitVec 5) (b : BitVec 5) (c : BitVec 5) (op : BitVec 3) (x : Bool) : (fmtF4 m d a b c op x).extractLsb' 30 2 = (m).extractLsb' 6 2 := by
  refine (ext_hi _ _ _ _ (by decide)).trans ?_
  refine (ext_hi _ _ _ _ (by decide)).trans ?_
  refine (ext_hi _ _ _ _ (by decide)).trans ?_
  refine (ext_hi _ _ _ _ (by decide)).trans ?_
  refine (ext_hi _ _ _ _ (by decide)).trans ?_
  refine (ext_hi _ _ _ _ (by decide)).trans ?_
  rfl

@[simp] theorem fmtF4_m6 (m : BitVec 8) (d : BitVec 5) (a : BitVec 5) (b : BitVec 5) (c : BitVec 5) (op : BitVec 3) (x : Bool) : (fmtF4 m d a b c op x).extractLsb' 24 6 = (m).extractLsb' 0 6 := by
  refine (ext_hi _ _ _ _ (by decide)).trans ?_
  refine (ext_hi _ _ _ _ (by decide)).trans ?_
  refine (ext_hi _ _ _ _ (by decide)).trans ?_
  refine (ext_hi _ _ _ _ (by decide)).trans ?_
  refine (ext_hi _ _ _ _ (by decide)).trans ?_
  refine (ext_hi _ _ _ _ (by decide)).trans ?_
  rfl

@[simp] theorem fmtMEM_24_8 (m : BitVec 8) (d : BitVec 5) (a : BitVec 5) (seg : BitVec 3) (off : BitVec 10) (x : Bool) : (fmtMEM m d a seg off x).extractLsb' 24 8 = m := by
  refine (ext_hi _ _ _ _ (by decide)).trans ?_
  refine (ext_hi _ _ _ _ (by decide)).trans ?_
  refine (ext_hi _ _ _ _ (by decide)).trans ?_
  refine (ext_hi _ _ _ _ (by decide)).trans ?_
  refine (ext_hi _ _ _ _ (by decide)).trans ?_
  exact BitVec.extractLsb'_eq_self

@[simp] theorem fmtMEM_19_5 (m : BitVec 8) (d : BitVec 5) (a : BitVec 5) (seg : BitVec 3) (off : BitVec 10) (x : Bool) : (fmtMEM m d a seg off x).extractLsb' 19 5 = d := by
  refine (ext_hi _ _ _ _ (by decide)).trans ?_
  refine (ext_hi _ _ _ _ (by decide)).trans ?_
  refine (ext_hi _ _ _ _ (by decide)).trans ?_
  refine (ext_hi _ _ _ _ (by decide)).trans ?_
  refine (ext_lo _ _ _ _ (by decide)).trans ?_
  exact BitVec.extractLsb'_eq_self

@[simp] theorem fmtMEM_14_5 (m : BitVec 8) (d : BitVec 5) (a : BitVec 5) (seg : BitVec 3) (off : BitVec 10) (x : Bool) : (fmtMEM m d a seg off x).extractLsb' 14 5 = a := by
  refine (ext_hi _ _ _ _ (by decide)).trans ?_
  refine (ext_hi _ _ _ _ (by decide)).trans ?_
  refine (ext_hi _ _ _ _ (by decide)).trans ?_
  refine (ext_lo _ _ _ _ (by decide)).trans ?_
  exact BitVec.extractLsb'_eq_self

@[simp] theorem fmtMEM_11_3 (m : BitVec 8) (d : BitVec 5) (a : BitVec 5) (seg : BitVec 3) (off : BitVec 10) (x : Bool) : (fmtMEM m d a seg off x).extractLsb' 11 3 = seg := by
  refine (ext_hi _ _ _ _ (by decide)).trans ?_
  refine (ext_hi _ _ _ _ (by decide)).trans ?_
  refine (ext_lo _ _ _ _ (by decide)).trans ?_
  exact BitVec.extractLsb'_eq_self

@[simp] theorem fmtMEM_1_10 (m : BitVec 8) (d : BitVec 5) (a : BitVec 5) (seg : BitVec 3) (off : BitVec 10) (x : Bool) : (fmtMEM m d a seg off x).extractLsb' 1 10 = off := by
  refine (ext_hi _ _ _ _ (by decide)).trans ?_
  refine (ext_lo _ _ _ _ (by decide)).trans ?_
  exact BitVec.extractLsb'_eq_self

@[simp] theorem fmtMEM_0_1 (m : BitVec 8) (d : BitVec 5) (a : BitVec 5) (seg : BitVec 3) (off : BitVec 10) (x : Bool) : (fmtMEM m d a seg off x).extractLsb' 0 1 = BitVec.ofBool x := by
  refine (ext_lo _ _ _ _ (by decide)).trans ?_
  exact ofBool_ext _

@[simp] theorem fmtMEM_bit0 (m : BitVec 8) (d : BitVec 5) (a : BitVec 5) (seg : BitVec 3) (off : BitVec 10) (x : Bool) : (fmtMEM m d a seg off x).getLsbD 0 = x := by
  refine (get_lo _ _ _ (by decide)).trans ?_
  exact ofBool_get _

@[simp] theorem fmtMEM_top (m : BitVec 8) (d : BitVec 5) (a : BitVec 5) (seg : BitVec 3) (off : BitVec 10) (x : Bool) : (fmtMEM m d a seg off x).extractLsb' 30 2 = (m).extractLsb' 6 2 := by
  refine (ext_hi _ _ _ _ (by decide)).trans ?_
  refine (ext_hi _ _ _ _ (by decide)).trans ?_
  refine (ext_hi _ _ _ _ (by decide)).trans ?_
  refine (ext_hi _ _ _ _ (by decide)).trans ?_
  refine (ext_hi _ _ _ _ (by decide)).trans ?_
  rfl

@[simp] theorem fmtMEM_m6 (m : BitVec 8) (d : BitVec 5) (a : BitVec 5) (seg : BitVec 3) (off : BitVec 10) (x : Bool) : (fmtMEM m d a seg off x).extractLsb' 24 6 = (m).extractLsb' 0 6 := by
  refine (ext_hi _ _ _ _ (by decide)).trans ?_
  refine (ext_hi _ _ _ _ (by decide)).trans ?_
  refine (ext_hi _ _ _ _ (by decide)).trans ?_
  refine (ext_hi _ _ _ _ (by decide)).trans ?_
  refine (ext_hi _ _ _ _ (by decide)).trans ?_
  rfl

@[simp] theorem fmtAMO_24_8 (m : BitVec 8) (d : BitVec 5) (a : BitVec 5) (b : BitVec 5) (seg : BitVec 3) (op : BitVec 5) (x : Bool) : (fmtAMO m d a b seg op x).extractLsb' 24 8 = m := by
  refine (ext_hi _ _ _ _ (by decide)).trans ?_
  refine (ext_hi _ _ _ _ (by decide)).trans ?_
  refine (ext_hi _ _ _ _ (by decide)).trans ?_
  refine (ext_hi _ _ _ _ (by decide)).trans ?_
  refine (ext_hi _ _ _ _ (by decide)).trans ?_
  refine (ext_hi _ _ _ _ (by decide)).trans ?_
  exact BitVec.extractLsb'_eq_self

@[simp] theorem fmtAMO_19_5 (m : BitVec 8) (d : BitVec 5) (a : BitVec 5) (b : BitVec 5) (seg : BitVec 3) (op : BitVec 5) (x : Bool) : (fmtAMO m d a b seg op x).extractLsb' 19 5 = d := by
  refine (ext_hi _ _ _ _ (by decide)).trans ?_
  refine (ext_hi _ _ _ _ (by decide)).trans ?_
  refine (ext_hi _ _ _ _ (by decide)).trans ?_
  refine (ext_hi _ _ _ _ (by decide)).trans ?_
  refine (ext_hi _ _ _ _ (by decide)).trans ?_
  refine (ext_lo _ _ _ _ (by decide)).trans ?_
  exact BitVec.extractLsb'_eq_self

@[simp] theorem fmtAMO_14_5 (m : BitVec 8) (d : BitVec 5) (a : BitVec 5) (b : BitVec 5) (seg : BitVec 3) (op : BitVec 5) (x : Bool) : (fmtAMO m d a b seg op x).extractLsb' 14 5 = a := by
  refine (ext_hi _ _ _ _ (by decide)).trans ?_
  refine (ext_hi _ _ _ _ (by decide)).trans ?_
  refine (ext_hi _ _ _ _ (by decide)).trans ?_
  refine (ext_hi _ _ _ _ (by decide)).trans ?_
  refine (ext_lo _ _ _ _ (by decide)).trans ?_
  exact BitVec.extractLsb'_eq_self

@[simp] theorem fmtAMO_9_5 (m : BitVec 8) (d : BitVec 5) (a : BitVec 5) (b : BitVec 5) (seg : BitVec 3) (op : BitVec 5) (x : Bool) : (fmtAMO m d a b seg op x).extractLsb' 9 5 = b := by
  refine (ext_hi _ _ _ _ (by decide)).trans ?_
  refine (ext_hi _ _ _ _ (by decide)).trans ?_
  refine (ext_hi _ _ _ _ (by decide)).trans ?_
  refine (ext_lo _ _ _ _ (by decide)).trans ?_
  exact BitVec.extractLsb'_eq_self

@[simp] theorem fmtAMO_6_3 (m : BitVec 8) (d : BitVec 5) (a : BitVec 5) (b : BitVec 5) (seg : BitVec 3) (op : BitVec 5) (x : Bool) : (fmtAMO m d a b seg op x).extractLsb' 6 3 = seg := by
  refine (ext_hi _ _ _ _ (by decide)).trans ?_
  refine (ext_hi _ _ _ _ (by decide)).trans ?_
  refine (ext_lo _ _ _ _ (by decide)).trans ?_
  exact BitVec.extractLsb'_eq_self

@[simp] theorem fmtAMO_1_5 (m : BitVec 8) (d : BitVec 5) (a : BitVec 5) (b : BitVec 5) (seg : BitVec 3) (op : BitVec 5) (x : Bool) : (fmtAMO m d a b seg op x).extractLsb' 1 5 = op := by
  refine (ext_hi _ _ _ _ (by decide)).trans ?_
  refine (ext_lo _ _ _ _ (by decide)).trans ?_
  exact BitVec.extractLsb'_eq_self

@[simp] theorem fmtAMO_0_1 (m : BitVec 8) (d : BitVec 5) (a : BitVec 5) (b : BitVec 5) (seg : BitVec 3) (op : BitVec 5) (x : Bool) : (fmtAMO m d a b seg op x).extractLsb' 0 1 = BitVec.ofBool x := by
  refine (ext_lo _ _ _ _ (by decide)).trans ?_
  exact ofBool_ext _

@[simp] theorem fmtAMO_bit0 (m : BitVec 8) (d : BitVec 5) (a : BitVec 5) (b : BitVec 5) (seg : BitVec 3) (op : BitVec 5) (x : Bool) : (fmtAMO m d a b seg op x).getLsbD 0 = x := by
  refine (get_lo _ _ _ (by decide)).trans ?_
  exact ofBool_get _

@[simp] theorem fmtAMO_top (m : BitVec 8) (d : BitVec 5) (a : BitVec 5) (b : BitVec 5) (seg : BitVec 3) (op : BitVec 5) (x : Bool) : (fmtAMO m d a b seg op x).extractLsb' 30 2 = (m).extractLsb' 6 2 := by
  refine (ext_hi _ _ _ _ (by decide)).trans ?_
  refine (ext_hi _ _ _ _ (by decide)).trans ?_
  refine (ext_hi _ _ _ _ (by decide)).trans ?_
  refine (ext_hi _ _ _ _ (by decide)).trans ?_
  refine (ext_hi _ _ _ _ (by decide)).trans ?_
  refine (ext_hi _ _ _ _ (by decide)).trans ?_
  rfl

@[simp] theorem fmtAMO_m6 (m : BitVec 8) (d : BitVec 5) (a : BitVec 5) (b : BitVec 5) (seg : BitVec 3) (op : BitVec 5) (x : Bool) : (fmtAMO m d a b seg op x).extractLsb' 24 6 = (m).extractLsb' 0 6 := by
  refine (ext_hi _ _ _ _ (by decide)).trans ?_
  refine (ext_hi _ _ _ _ (by decide)).trans ?_
  refine (ext_hi _ _ _ _ (by decide)).trans ?_
  refine (ext_hi _ _ _ _ (by decide)).trans ?_
  refine (ext_hi _ _ _ _ (by decide)).trans ?_
  refine (ext_hi _ _ _ _ (by decide)).trans ?_
  rfl

@[simp] theorem fmtSR_24_8 (m : BitVec 8) (d : BitVec 5) (sr : BitVec 10) (op : BitVec 8) (x : Bool) : (fmtSR m d sr op x).extractLsb' 24 8 = m := by
  refine (ext_hi _ _ _ _ (by decide)).trans ?_
  refine (ext_hi _ _ _ _ (by decide)).trans ?_
  refine (ext_hi _ _ _ _ (by decide)).trans ?_
  refine (ext_hi _ _ _ _ (by decide)).trans ?_
  exact BitVec.extractLsb'_eq_self

@[simp] theorem fmtSR_19_5 (m : BitVec 8) (d : BitVec 5) (sr : BitVec 10) (op : BitVec 8) (x : Bool) : (fmtSR m d sr op x).extractLsb' 19 5 = d := by
  refine (ext_hi _ _ _ _ (by decide)).trans ?_
  refine (ext_hi _ _ _ _ (by decide)).trans ?_
  refine (ext_hi _ _ _ _ (by decide)).trans ?_
  refine (ext_lo _ _ _ _ (by decide)).trans ?_
  exact BitVec.extractLsb'_eq_self

@[simp] theorem fmtSR_9_10 (m : BitVec 8) (d : BitVec 5) (sr : BitVec 10) (op : BitVec 8) (x : Bool) : (fmtSR m d sr op x).extractLsb' 9 10 = sr := by
  refine (ext_hi _ _ _ _ (by decide)).trans ?_
  refine (ext_hi _ _ _ _ (by decide)).trans ?_
  refine (ext_lo _ _ _ _ (by decide)).trans ?_
  exact BitVec.extractLsb'_eq_self

@[simp] theorem fmtSR_1_8 (m : BitVec 8) (d : BitVec 5) (sr : BitVec 10) (op : BitVec 8) (x : Bool) : (fmtSR m d sr op x).extractLsb' 1 8 = op := by
  refine (ext_hi _ _ _ _ (by decide)).trans ?_
  refine (ext_lo _ _ _ _ (by decide)).trans ?_
  exact BitVec.extractLsb'_eq_self

@[simp] theorem fmtSR_0_1 (m : BitVec 8) (d : BitVec 5) (sr : BitVec 10) (op : BitVec 8) (x : Bool) : (fmtSR m d sr op x).extractLsb' 0 1 = BitVec.ofBool x := by
  refine (ext_lo _ _ _ _ (by decide)).trans ?_
  exact ofBool_ext _

@[simp] theorem fmtSR_bit0 (m : BitVec 8) (d : BitVec 5) (sr : BitVec 10) (op : BitVec 8) (x : Bool) : (fmtSR m d sr op x).getLsbD 0 = x := by
  refine (get_lo _ _ _ (by decide)).trans ?_
  exact ofBool_get _

@[simp] theorem fmtSR_top (m : BitVec 8) (d : BitVec 5) (sr : BitVec 10) (op : BitVec 8) (x : Bool) : (fmtSR m d sr op x).extractLsb' 30 2 = (m).extractLsb' 6 2 := by
  refine (ext_hi _ _ _ _ (by decide)).trans ?_
  refine (ext_hi _ _ _ _ (by decide)).trans ?_
  refine (ext_hi _ _ _ _ (by decide)).trans ?_
  refine (ext_hi _ _ _ _ (by decide)).trans ?_
  rfl

@[simp] theorem fmtSR_m6 (m : BitVec 8) (d : BitVec 5) (sr : BitVec 10) (op : BitVec 8) (x : Bool) : (fmtSR m d sr op x).extractLsb' 24 6 = (m).extractLsb' 0 6 := by
  refine (ext_hi _ _ _ _ (by decide)).trans ?_
  refine (ext_hi _ _ _ _ (by decide)).trans ?_
  refine (ext_hi _ _ _ _ (by decide)).trans ?_
  refine (ext_hi _ _ _ _ (by decide)).trans ?_
  rfl

@[simp] theorem fmtBR_24_8 (m : BitVec 8) (a : BitVec 5) (b : BitVec 5) (disp : BitVec 14) : (fmtBR m a b disp).extractLsb' 24 8 = m := by
  refine (ext_hi _ _ _ _ (by decide)).trans ?_
  refine (ext_hi _ _ _ _ (by decide)).trans ?_
  refine (ext_hi _ _ _ _ (by decide)).trans ?_
  exact BitVec.extractLsb'_eq_self

@[simp] theorem fmtBR_19_5 (m : BitVec 8) (a : BitVec 5) (b : BitVec 5) (disp : BitVec 14) : (fmtBR m a b disp).extractLsb' 19 5 = a := by
  refine (ext_hi _ _ _ _ (by decide)).trans ?_
  refine (ext_hi _ _ _ _ (by decide)).trans ?_
  refine (ext_lo _ _ _ _ (by decide)).trans ?_
  exact BitVec.extractLsb'_eq_self

@[simp] theorem fmtBR_14_5 (m : BitVec 8) (a : BitVec 5) (b : BitVec 5) (disp : BitVec 14) : (fmtBR m a b disp).extractLsb' 14 5 = b := by
  refine (ext_hi _ _ _ _ (by decide)).trans ?_
  refine (ext_lo _ _ _ _ (by decide)).trans ?_
  exact BitVec.extractLsb'_eq_self

@[simp] theorem fmtBR_0_14 (m : BitVec 8) (a : BitVec 5) (b : BitVec 5) (disp : BitVec 14) : (fmtBR m a b disp).extractLsb' 0 14 = disp := by
  refine (ext_lo _ _ _ _ (by decide)).trans ?_
  exact BitVec.extractLsb'_eq_self

@[simp] theorem fmtBR_top (m : BitVec 8) (a : BitVec 5) (b : BitVec 5) (disp : BitVec 14) : (fmtBR m a b disp).extractLsb' 30 2 = (m).extractLsb' 6 2 := by
  refine (ext_hi _ _ _ _ (by decide)).trans ?_
  refine (ext_hi _ _ _ _ (by decide)).trans ?_
  refine (ext_hi _ _ _ _ (by decide)).trans ?_
  rfl

@[simp] theorem fmtBR_m6 (m : BitVec 8) (a : BitVec 5) (b : BitVec 5) (disp : BitVec 14) : (fmtBR m a b disp).extractLsb' 24 6 = (m).extractLsb' 0 6 := by
  refine (ext_hi _ _ _ _ (by decide)).trans ?_
  refine (ext_hi _ _ _ _ (by decide)).trans ?_
  refine (ext_hi _ _ _ _ (by decide)).trans ?_
  rfl

@[simp] theorem fmtBK_24_8 (m : BitVec 8) (k : BitVec 5) (disp : BitVec 19) : (fmtBK m k disp).extractLsb' 24 8 = m := by
  refine (ext_hi _ _ _ _ (by decide)).trans ?_
  refine (ext_hi _ _ _ _ (by decide)).trans ?_
  exact BitVec.extractLsb'_eq_self

@[simp] theorem fmtBK_19_5 (m : BitVec 8) (k : BitVec 5) (disp : BitVec 19) : (fmtBK m k disp).extractLsb' 19 5 = k := by
  refine (ext_hi _ _ _ _ (by decide)).trans ?_
  refine (ext_lo _ _ _ _ (by decide)).trans ?_
  exact BitVec.extractLsb'_eq_self

@[simp] theorem fmtBK_0_19 (m : BitVec 8) (k : BitVec 5) (disp : BitVec 19) : (fmtBK m k disp).extractLsb' 0 19 = disp := by
  refine (ext_lo _ _ _ _ (by decide)).trans ?_
  exact BitVec.extractLsb'_eq_self

@[simp] theorem fmtBK_top (m : BitVec 8) (k : BitVec 5) (disp : BitVec 19) : (fmtBK m k disp).extractLsb' 30 2 = (m).extractLsb' 6 2 := by
  refine (ext_hi _ _ _ _ (by decide)).trans ?_
  refine (ext_hi _ _ _ _ (by decide)).trans ?_
  rfl

@[simp] theorem fmtBK_m6 (m : BitVec 8) (k : BitVec 5) (disp : BitVec 19) : (fmtBK m k disp).extractLsb' 24 6 = (m).extractLsb' 0 6 := by
  refine (ext_hi _ _ _ _ (by decide)).trans ?_
  refine (ext_hi _ _ _ _ (by decide)).trans ?_
  rfl

@[simp] theorem fmtJ_24_8 (m : BitVec 8) (disp : BitVec 24) : (fmtJ m disp).extractLsb' 24 8 = m := by
  refine (ext_hi _ _ _ _ (by decide)).trans ?_
  exact BitVec.extractLsb'_eq_self

@[simp] theorem fmtJ_0_24 (m : BitVec 8) (disp : BitVec 24) : (fmtJ m disp).extractLsb' 0 24 = disp := by
  refine (ext_lo _ _ _ _ (by decide)).trans ?_
  exact BitVec.extractLsb'_eq_self

@[simp] theorem fmtJ_top (m : BitVec 8) (disp : BitVec 24) : (fmtJ m disp).extractLsb' 30 2 = (m).extractLsb' 6 2 := by
  refine (ext_hi _ _ _ _ (by decide)).trans ?_
  rfl

@[simp] theorem fmtJ_m6 (m : BitVec 8) (disp : BitVec 24) : (fmtJ m disp).extractLsb' 24 6 = (m).extractLsb' 0 6 := by
  refine (ext_hi _ _ _ _ (by decide)).trans ?_
  rfl

@[simp] theorem fmtREP_24_8 (m : BitVec 8) (n : BitVec 4) (sd : BitVec 2) (sa : BitVec 2) (sb : BitVec 2) (c : BitVec 5) : (fmtREP m n sd sa sb c).extractLsb' 24 8 = m := by
  refine (ext_hi _ _ _ _ (by decide)).trans ?_
  refine (ext_hi _ _ _ _ (by decide)).trans ?_
  refine (ext_hi _ _ _ _ (by decide)).trans ?_
  refine (ext_hi _ _ _ _ (by decide)).trans ?_
  refine (ext_hi _ _ _ _ (by decide)).trans ?_
  refine (ext_hi _ _ _ _ (by decide)).trans ?_
  exact BitVec.extractLsb'_eq_self

@[simp] theorem fmtREP_20_4 (m : BitVec 8) (n : BitVec 4) (sd : BitVec 2) (sa : BitVec 2) (sb : BitVec 2) (c : BitVec 5) : (fmtREP m n sd sa sb c).extractLsb' 20 4 = n := by
  refine (ext_hi _ _ _ _ (by decide)).trans ?_
  refine (ext_hi _ _ _ _ (by decide)).trans ?_
  refine (ext_hi _ _ _ _ (by decide)).trans ?_
  refine (ext_hi _ _ _ _ (by decide)).trans ?_
  refine (ext_hi _ _ _ _ (by decide)).trans ?_
  refine (ext_lo _ _ _ _ (by decide)).trans ?_
  exact BitVec.extractLsb'_eq_self

@[simp] theorem fmtREP_18_2 (m : BitVec 8) (n : BitVec 4) (sd : BitVec 2) (sa : BitVec 2) (sb : BitVec 2) (c : BitVec 5) : (fmtREP m n sd sa sb c).extractLsb' 18 2 = sd := by
  refine (ext_hi _ _ _ _ (by decide)).trans ?_
  refine (ext_hi _ _ _ _ (by decide)).trans ?_
  refine (ext_hi _ _ _ _ (by decide)).trans ?_
  refine (ext_hi _ _ _ _ (by decide)).trans ?_
  refine (ext_lo _ _ _ _ (by decide)).trans ?_
  exact BitVec.extractLsb'_eq_self

@[simp] theorem fmtREP_16_2 (m : BitVec 8) (n : BitVec 4) (sd : BitVec 2) (sa : BitVec 2) (sb : BitVec 2) (c : BitVec 5) : (fmtREP m n sd sa sb c).extractLsb' 16 2 = sa := by
  refine (ext_hi _ _ _ _ (by decide)).trans ?_
  refine (ext_hi _ _ _ _ (by decide)).trans ?_
  refine (ext_hi _ _ _ _ (by decide)).trans ?_
  refine (ext_lo _ _ _ _ (by decide)).trans ?_
  exact BitVec.extractLsb'_eq_self

@[simp] theorem fmtREP_14_2 (m : BitVec 8) (n : BitVec 4) (sd : BitVec 2) (sa : BitVec 2) (sb : BitVec 2) (c : BitVec 5) : (fmtREP m n sd sa sb c).extractLsb' 14 2 = sb := by
  refine (ext_hi _ _ _ _ (by decide)).trans ?_
  refine (ext_hi _ _ _ _ (by decide)).trans ?_
  refine (ext_lo _ _ _ _ (by decide)).trans ?_
  exact BitVec.extractLsb'_eq_self

@[simp] theorem fmtREP_9_5 (m : BitVec 8) (n : BitVec 4) (sd : BitVec 2) (sa : BitVec 2) (sb : BitVec 2) (c : BitVec 5) : (fmtREP m n sd sa sb c).extractLsb' 9 5 = c := by
  refine (ext_hi _ _ _ _ (by decide)).trans ?_
  refine (ext_lo _ _ _ _ (by decide)).trans ?_
  exact BitVec.extractLsb'_eq_self

@[simp] theorem fmtREP_0_9 (m : BitVec 8) (n : BitVec 4) (sd : BitVec 2) (sa : BitVec 2) (sb : BitVec 2) (c : BitVec 5) : (fmtREP m n sd sa sb c).extractLsb' 0 9 = 0#9 := by
  refine (ext_lo _ _ _ _ (by decide)).trans ?_
  decide

@[simp] theorem fmtREP_top (m : BitVec 8) (n : BitVec 4) (sd : BitVec 2) (sa : BitVec 2) (sb : BitVec 2) (c : BitVec 5) : (fmtREP m n sd sa sb c).extractLsb' 30 2 = (m).extractLsb' 6 2 := by
  refine (ext_hi _ _ _ _ (by decide)).trans ?_
  refine (ext_hi _ _ _ _ (by decide)).trans ?_
  refine (ext_hi _ _ _ _ (by decide)).trans ?_
  refine (ext_hi _ _ _ _ (by decide)).trans ?_
  refine (ext_hi _ _ _ _ (by decide)).trans ?_
  refine (ext_hi _ _ _ _ (by decide)).trans ?_
  rfl

@[simp] theorem fmtREP_m6 (m : BitVec 8) (n : BitVec 4) (sd : BitVec 2) (sa : BitVec 2) (sb : BitVec 2) (c : BitVec 5) : (fmtREP m n sd sa sb c).extractLsb' 24 6 = (m).extractLsb' 0 6 := by
  refine (ext_hi _ _ _ _ (by decide)).trans ?_
  refine (ext_hi _ _ _ _ (by decide)).trans ?_
  refine (ext_hi _ _ _ _ (by decide)).trans ?_
  refine (ext_hi _ _ _ _ (by decide)).trans ?_
  refine (ext_hi _ _ _ _ (by decide)).trans ?_
  refine (ext_hi _ _ _ _ (by decide)).trans ?_
  rfl

@[simp] theorem fmtTrap_24_8 (imm : BitVec 16) : (fmtTrap imm).extractLsb' 24 8 = 0x4C#8 := by
  refine (ext_hi _ _ _ _ (by decide)).trans ?_
  refine (ext_hi _ _ _ _ (by decide)).trans ?_
  refine (ext_hi _ _ _ _ (by decide)).trans ?_
  decide

@[simp] theorem fmtTrap_19_5 (imm : BitVec 16) : (fmtTrap imm).extractLsb' 19 5 = 0#5 := by
  refine (ext_hi _ _ _ _ (by decide)).trans ?_
  refine (ext_hi _ _ _ _ (by decide)).trans ?_
  refine (ext_lo _ _ _ _ (by decide)).trans ?_
  decide

@[simp] theorem fmtTrap_3_16 (imm : BitVec 16) : (fmtTrap imm).extractLsb' 3 16 = imm := by
  refine (ext_hi _ _ _ _ (by decide)).trans ?_
  refine (ext_lo _ _ _ _ (by decide)).trans ?_
  exact BitVec.extractLsb'_eq_self

@[simp] theorem fmtTrap_0_3 (imm : BitVec 16) : (fmtTrap imm).extractLsb' 0 3 = 0#3 := by
  refine (ext_lo _ _ _ _ (by decide)).trans ?_
  decide

@[simp] theorem fmtTrap_top (imm : BitVec 16) : (fmtTrap imm).extractLsb' 30 2 = (0x4C#8).extractLsb' 6 2 := by
  refine (ext_hi _ _ _ _ (by decide)).trans ?_
  refine (ext_hi _ _ _ _ (by decide)).trans ?_
  refine (ext_hi _ _ _ _ (by decide)).trans ?_
  rfl

@[simp] theorem fmtTrap_m6 (imm : BitVec 16) : (fmtTrap imm).extractLsb' 24 6 = (0x4C#8).extractLsb' 0 6 := by
  refine (ext_hi _ _ _ _ (by decide)).trans ?_
  refine (ext_hi _ _ _ _ (by decide)).trans ?_
  refine (ext_hi _ _ _ _ (by decide)).trans ?_
  rfl

@[simp] theorem fmtI64_24_8 (m : BitVec 8) (d : BitVec 5) (hi : BitVec 19) : (fmtI64 m d hi).extractLsb' 24 8 = m := by
  refine (ext_hi _ _ _ _ (by decide)).trans ?_
  refine (ext_hi _ _ _ _ (by decide)).trans ?_
  exact BitVec.extractLsb'_eq_self

@[simp] theorem fmtI64_19_5 (m : BitVec 8) (d : BitVec 5) (hi : BitVec 19) : (fmtI64 m d hi).extractLsb' 19 5 = d := by
  refine (ext_hi _ _ _ _ (by decide)).trans ?_
  refine (ext_lo _ _ _ _ (by decide)).trans ?_
  exact BitVec.extractLsb'_eq_self

@[simp] theorem fmtI64_0_19 (m : BitVec 8) (d : BitVec 5) (hi : BitVec 19) : (fmtI64 m d hi).extractLsb' 0 19 = hi := by
  refine (ext_lo _ _ _ _ (by decide)).trans ?_
  exact BitVec.extractLsb'_eq_self

@[simp] theorem fmtI64_top (m : BitVec 8) (d : BitVec 5) (hi : BitVec 19) : (fmtI64 m d hi).extractLsb' 30 2 = (m).extractLsb' 6 2 := by
  refine (ext_hi _ _ _ _ (by decide)).trans ?_
  refine (ext_hi _ _ _ _ (by decide)).trans ?_
  rfl

@[simp] theorem fmtI64_m6 (m : BitVec 8) (d : BitVec 5) (hi : BitVec 19) : (fmtI64 m d hi).extractLsb' 24 6 = (m).extractLsb' 0 6 := by
  refine (ext_hi _ _ _ _ (by decide)).trans ?_
  refine (ext_hi _ _ _ _ (by decide)).trans ?_
  rfl

@[simp] theorem fW_7_1 (w : Bool) (c : BitVec 7) : (fW w c).extractLsb' 7 1 = BitVec.ofBool w := by
  refine (ext_hi _ _ _ _ (by decide)).trans ?_
  exact ofBool_ext _

@[simp] theorem fW_bit7 (w : Bool) (c : BitVec 7) : (fW w c).getLsbD 7 = w := by
  refine (get_hi _ _ _ (by decide)).trans ?_
  exact ofBool_get _

@[simp] theorem fW_0_7 (w : Bool) (c : BitVec 7) : (fW w c).extractLsb' 0 7 = c := by
  refine (ext_lo _ _ _ _ (by decide)).trans ?_
  exact BitVec.extractLsb'_eq_self

@[simp] theorem fCmp_7_1 (w : Bool) (comb : BitVec 2) (cond : BitVec 3) : (fCmp w comb cond).extractLsb' 7 1 = BitVec.ofBool w := by
  refine (ext_hi _ _ _ _ (by decide)).trans ?_
  refine (ext_hi _ _ _ _ (by decide)).trans ?_
  refine (ext_hi _ _ _ _ (by decide)).trans ?_
  exact ofBool_ext _

@[simp] theorem fCmp_bit7 (w : Bool) (comb : BitVec 2) (cond : BitVec 3) : (fCmp w comb cond).getLsbD 7 = w := by
  refine (get_hi _ _ _ (by decide)).trans ?_
  refine (get_hi _ _ _ (by decide)).trans ?_
  refine (get_hi _ _ _ (by decide)).trans ?_
  exact ofBool_get _

@[simp] theorem fCmp_5_2 (w : Bool) (comb : BitVec 2) (cond : BitVec 3) : (fCmp w comb cond).extractLsb' 5 2 = 0#2 := by
  refine (ext_hi _ _ _ _ (by decide)).trans ?_
  refine (ext_hi _ _ _ _ (by decide)).trans ?_
  refine (ext_lo _ _ _ _ (by decide)).trans ?_
  decide

@[simp] theorem fCmp_3_2 (w : Bool) (comb : BitVec 2) (cond : BitVec 3) : (fCmp w comb cond).extractLsb' 3 2 = comb := by
  refine (ext_hi _ _ _ _ (by decide)).trans ?_
  refine (ext_lo _ _ _ _ (by decide)).trans ?_
  exact BitVec.extractLsb'_eq_self

@[simp] theorem fCmp_0_3 (w : Bool) (comb : BitVec 2) (cond : BitVec 3) : (fCmp w comb cond).extractLsb' 0 3 = cond := by
  refine (ext_lo _ _ _ _ (by decide)).trans ?_
  exact BitVec.extractLsb'_eq_self

@[simp] theorem fSel_6_2 (inv : Bool) (kb : BitVec 5) : (fSel inv kb).extractLsb' 6 2 = 0#2 := by
  refine (ext_hi _ _ _ _ (by decide)).trans ?_
  refine (ext_hi _ _ _ _ (by decide)).trans ?_
  decide

@[simp] theorem fSel_5_1 (inv : Bool) (kb : BitVec 5) : (fSel inv kb).extractLsb' 5 1 = BitVec.ofBool inv := by
  refine (ext_hi _ _ _ _ (by decide)).trans ?_
  refine (ext_lo _ _ _ _ (by decide)).trans ?_
  exact ofBool_ext _

@[simp] theorem fSel_bit5 (inv : Bool) (kb : BitVec 5) : (fSel inv kb).getLsbD 5 = inv := by
  refine (get_hi _ _ _ (by decide)).trans ?_
  refine (get_lo _ _ _ (by decide)).trans ?_
  exact ofBool_get _

@[simp] theorem fSel_0_5 (inv : Bool) (kb : BitVec 5) : (fSel inv kb).extractLsb' 0 5 = kb := by
  refine (ext_lo _ _ _ _ (by decide)).trans ?_
  exact BitVec.extractLsb'_eq_self

@[simp] theorem fCvt_4_4 (src : BitVec 4) (dst : BitVec 4) : (fCvt src dst).extractLsb' 4 4 = src := by
  refine (ext_hi _ _ _ _ (by decide)).trans ?_
  exact BitVec.extractLsb'_eq_self

@[simp] theorem fCvt_0_4 (src : BitVec 4) (dst : BitVec 4) : (fCvt src dst).extractLsb' 0 4 = dst := by
  refine (ext_lo _ _ _ _ (by decide)).trans ?_
  exact BitVec.extractLsb'_eq_self

@[simp] theorem fScope_7_1 (scope : BitVec 3) (fn : BitVec 4) : (fScope scope fn).extractLsb' 7 1 = 0#1 := by
  refine (ext_hi _ _ _ _ (by decide)).trans ?_
  refine (ext_hi _ _ _ _ (by decide)).trans ?_
  decide

@[simp] theorem fScope_4_3 (scope : BitVec 3) (fn : BitVec 4) : (fScope scope fn).extractLsb' 4 3 = scope := by
  refine (ext_hi _ _ _ _ (by decide)).trans ?_
  refine (ext_lo _ _ _ _ (by decide)).trans ?_
  exact BitVec.extractLsb'_eq_self

@[simp] theorem fScope_0_4 (scope : BitVec 3) (fn : BitVec 4) : (fScope scope fn).extractLsb' 0 4 = fn := by
  refine (ext_lo _ _ _ _ (by decide)).trans ?_
  exact BitVec.extractLsb'_eq_self

@[simp] theorem opP_2_1 (p : Bool) (c : BitVec 2) : (opP p c).extractLsb' 2 1 = BitVec.ofBool p := by
  refine (ext_hi _ _ _ _ (by decide)).trans ?_
  exact ofBool_ext _

@[simp] theorem opP_bit2 (p : Bool) (c : BitVec 2) : (opP p c).getLsbD 2 = p := by
  refine (get_hi _ _ _ (by decide)).trans ?_
  exact ofBool_get _

@[simp] theorem opP_0_2 (p : Bool) (c : BitVec 2) : (opP p c).extractLsb' 0 2 = c := by
  refine (ext_lo _ _ _ _ (by decide)).trans ?_
  exact BitVec.extractLsb'_eq_self

@[simp] theorem offTag_8_2 (op : BitVec 2) (off : BitVec 8) : (offTag op off).extractLsb' 8 2 = op := by
  refine (ext_hi _ _ _ _ (by decide)).trans ?_
  exact BitVec.extractLsb'_eq_self

@[simp] theorem offTag_0_8 (op : BitVec 2) (off : BitVec 8) : (offTag op off).extractLsb' 0 8 = off := by
  refine (ext_lo _ _ _ _ (by decide)).trans ?_
  exact BitVec.extractLsb'_eq_self

@[simp] theorem fmtRR_f0_7 (m : BitVec 8) (d a b : BitVec 5) (f : BitVec 8) (x : Bool) : (fmtRR m d a b f x).extractLsb' 1 7 = f.extractLsb' 0 7 := by
  refine (ext_hi _ _ _ _ (by decide)).trans ?_
  exact ext_lo _ _ _ _ (by decide)

@[simp] theorem fmtRR_f0_3 (m : BitVec 8) (d a b : BitVec 5) (f : BitVec 8) (x : Bool) : (fmtRR m d a b f x).extractLsb' 1 3 = f.extractLsb' 0 3 := by
  refine (ext_hi _ _ _ _ (by decide)).trans ?_
  exact ext_lo _ _ _ _ (by decide)

@[simp] theorem fmtRR_f3_2 (m : BitVec 8) (d a b : BitVec 5) (f : BitVec 8) (x : Bool) : (fmtRR m d a b f x).extractLsb' 4 2 = f.extractLsb' 3 2 := by
  refine (ext_hi _ _ _ _ (by decide)).trans ?_
  exact ext_lo _ _ _ _ (by decide)

@[simp] theorem fmtRR_f5_2 (m : BitVec 8) (d a b : BitVec 5) (f : BitVec 8) (x : Bool) : (fmtRR m d a b f x).extractLsb' 6 2 = f.extractLsb' 5 2 := by
  refine (ext_hi _ _ _ _ (by decide)).trans ?_
  exact ext_lo _ _ _ _ (by decide)

@[simp] theorem fmtRR_f0_5 (m : BitVec 8) (d a b : BitVec 5) (f : BitVec 8) (x : Bool) : (fmtRR m d a b f x).extractLsb' 1 5 = f.extractLsb' 0 5 := by
  refine (ext_hi _ _ _ _ (by decide)).trans ?_
  exact ext_lo _ _ _ _ (by decide)

@[simp] theorem fmtRR_f6_2 (m : BitVec 8) (d a b : BitVec 5) (f : BitVec 8) (x : Bool) : (fmtRR m d a b f x).extractLsb' 7 2 = f.extractLsb' 6 2 := by
  refine (ext_hi _ _ _ _ (by decide)).trans ?_
  exact ext_lo _ _ _ _ (by decide)

@[simp] theorem fmtRR_f3_4 (m : BitVec 8) (d a b : BitVec 5) (f : BitVec 8) (x : Bool) : (fmtRR m d a b f x).extractLsb' 4 4 = f.extractLsb' 3 4 := by
  refine (ext_hi _ _ _ _ (by decide)).trans ?_
  exact ext_lo _ _ _ _ (by decide)

@[simp] theorem fmtRR_f4_4 (m : BitVec 8) (d a b : BitVec 5) (f : BitVec 8) (x : Bool) : (fmtRR m d a b f x).extractLsb' 5 4 = f.extractLsb' 4 4 := by
  refine (ext_hi _ _ _ _ (by decide)).trans ?_
  exact ext_lo _ _ _ _ (by decide)

@[simp] theorem fmtRR_f0_4 (m : BitVec 8) (d a b : BitVec 5) (f : BitVec 8) (x : Bool) : (fmtRR m d a b f x).extractLsb' 1 4 = f.extractLsb' 0 4 := by
  refine (ext_hi _ _ _ _ (by decide)).trans ?_
  exact ext_lo _ _ _ _ (by decide)

@[simp] theorem fmtRR_f4_3 (m : BitVec 8) (d a b : BitVec 5) (f : BitVec 8) (x : Bool) : (fmtRR m d a b f x).extractLsb' 5 3 = f.extractLsb' 4 3 := by
  refine (ext_hi _ _ _ _ (by decide)).trans ?_
  exact ext_lo _ _ _ _ (by decide)

@[simp] theorem fmtRR_f7_1 (m : BitVec 8) (d a b : BitVec 5) (f : BitVec 8) (x : Bool) : (fmtRR m d a b f x).extractLsb' 8 1 = f.extractLsb' 7 1 := by
  refine (ext_hi _ _ _ _ (by decide)).trans ?_
  exact ext_lo _ _ _ _ (by decide)

@[simp] theorem fmtRR_f3_1 (m : BitVec 8) (d a b : BitVec 5) (f : BitVec 8) (x : Bool) : (fmtRR m d a b f x).extractLsb' 4 1 = f.extractLsb' 3 1 := by
  refine (ext_hi _ _ _ _ (by decide)).trans ?_
  exact ext_lo _ _ _ _ (by decide)

@[simp] theorem fmtRR_fb7 (m : BitVec 8) (d a b : BitVec 5) (f : BitVec 8) (x : Bool) : (fmtRR m d a b f x).getLsbD 8 = f.getLsbD 7 := by
  refine (get_hi _ _ _ (by decide)).trans ?_
  exact get_lo _ _ _ (by decide)

@[simp] theorem fmtRR_fb5 (m : BitVec 8) (d a b : BitVec 5) (f : BitVec 8) (x : Bool) : (fmtRR m d a b f x).getLsbD 6 = f.getLsbD 5 := by
  refine (get_hi _ _ _ (by decide)).trans ?_
  exact get_lo _ _ _ (by decide)

@[simp] theorem fmtRR_fb0 (m : BitVec 8) (d a b : BitVec 5) (f : BitVec 8) (x : Bool) : (fmtRR m d a b f x).getLsbD 1 = f.getLsbD 0 := by
  refine (get_hi _ _ _ (by decide)).trans ?_
  exact get_lo _ _ _ (by decide)

@[simp] theorem fmtRR_fb1 (m : BitVec 8) (d a b : BitVec 5) (f : BitVec 8) (x : Bool) : (fmtRR m d a b f x).getLsbD 2 = f.getLsbD 1 := by
  refine (get_hi _ _ _ (by decide)).trans ?_
  exact get_lo _ _ _ (by decide)

@[simp] theorem fmtRR_fb2 (m : BitVec 8) (d a b : BitVec 5) (f : BitVec 8) (x : Bool) : (fmtRR m d a b f x).getLsbD 3 = f.getLsbD 2 := by
  refine (get_hi _ _ _ (by decide)).trans ?_
  exact get_lo _ _ _ (by decide)

@[simp] theorem fmtRR_fb3 (m : BitVec 8) (d a b : BitVec 5) (f : BitVec 8) (x : Bool) : (fmtRR m d a b f x).getLsbD 4 = f.getLsbD 3 := by
  refine (get_hi _ _ _ (by decide)).trans ?_
  exact get_lo _ _ _ (by decide)

@[simp] theorem fmtRR_fb4 (m : BitVec 8) (d a b : BitVec 5) (f : BitVec 8) (x : Bool) : (fmtRR m d a b f x).getLsbD 5 = f.getLsbD 4 := by
  refine (get_hi _ _ _ (by decide)).trans ?_
  exact get_lo _ _ _ (by decide)

@[simp] theorem fmtRR_fb6 (m : BitVec 8) (d a b : BitVec 5) (f : BitVec 8) (x : Bool) : (fmtRR m d a b f x).getLsbD 7 = f.getLsbD 6 := by
  refine (get_hi _ _ _ (by decide)).trans ?_
  exact get_lo _ _ _ (by decide)

@[simp] theorem fmtRR_d3 (m : BitVec 8) (d a b : BitVec 5) (f : BitVec 8) (x : Bool) : (fmtRR m d a b f x).extractLsb' 22 2 = d.extractLsb' 3 2 := by
  refine (ext_hi _ _ _ _ (by decide)).trans ?_
  refine (ext_hi _ _ _ _ (by decide)).trans ?_
  refine (ext_hi _ _ _ _ (by decide)).trans ?_
  refine (ext_hi _ _ _ _ (by decide)).trans ?_
  exact ext_lo _ _ _ _ (by decide)

@[simp] theorem fmtRR_a3 (m : BitVec 8) (d a b : BitVec 5) (f : BitVec 8) (x : Bool) : (fmtRR m d a b f x).extractLsb' 17 2 = a.extractLsb' 3 2 := by
  refine (ext_hi _ _ _ _ (by decide)).trans ?_
  refine (ext_hi _ _ _ _ (by decide)).trans ?_
  refine (ext_hi _ _ _ _ (by decide)).trans ?_
  exact ext_lo _ _ _ _ (by decide)

@[simp] theorem fmtRR_b3 (m : BitVec 8) (d a b : BitVec 5) (f : BitVec 8) (x : Bool) : (fmtRR m d a b f x).extractLsb' 12 2 = b.extractLsb' 3 2 := by
  refine (ext_hi _ _ _ _ (by decide)).trans ?_
  refine (ext_hi _ _ _ _ (by decide)).trans ?_
  exact ext_lo _ _ _ _ (by decide)

@[simp] theorem fmtRR_b1 (m : BitVec 8) (d a b : BitVec 5) (f : BitVec 8) (x : Bool) : (fmtRR m d a b f x).extractLsb' 10 4 = b.extractLsb' 1 4 := by
  refine (ext_hi _ _ _ _ (by decide)).trans ?_
  refine (ext_hi _ _ _ _ (by decide)).trans ?_
  exact ext_lo _ _ _ _ (by decide)

@[simp] theorem fmtRI_imm6 (m : BitVec 8) (d a : BitVec 5) (imm : BitVec 13) (x : Bool) : (fmtRI m d a imm x).extractLsb' 7 7 = imm.extractLsb' 6 7 := by
  refine (ext_hi _ _ _ _ (by decide)).trans ?_
  exact ext_lo _ _ _ _ (by decide)

@[simp] theorem fmtF4_op2 (m : BitVec 8) (d a b c : BitVec 5) (op : BitVec 3) (x : Bool) : (fmtF4 m d a b c op x).extractLsb' 1 2 = op.extractLsb' 0 2 := by
  refine (ext_hi _ _ _ _ (by decide)).trans ?_
  exact ext_lo _ _ _ _ (by decide)

@[simp] theorem fmtF4_op_2 (m : BitVec 8) (d a b c : BitVec 5) (op : BitVec 3) (x : Bool) : (fmtF4 m d a b c op x).getLsbD 3 = op.getLsbD 2 := by
  refine (get_hi _ _ _ (by decide)).trans ?_
  exact get_lo _ _ _ (by decide)

@[simp] theorem fmtMEM_o8 (m : BitVec 8) (d a : BitVec 5) (seg : BitVec 3) (off : BitVec 10) (x : Bool) : (fmtMEM m d a seg off x).extractLsb' 1 8 = off.extractLsb' 0 8 := by
  refine (ext_hi _ _ _ _ (by decide)).trans ?_
  exact ext_lo _ _ _ _ (by decide)

@[simp] theorem fmtMEM_o8_2 (m : BitVec 8) (d a : BitVec 5) (seg : BitVec 3) (off : BitVec 10) (x : Bool) : (fmtMEM m d a seg off x).extractLsb' 9 2 = off.extractLsb' 8 2 := by
  refine (ext_hi _ _ _ _ (by decide)).trans ?_
  exact ext_lo _ _ _ _ (by decide)

@[simp] theorem fmtT64_eq (m : BitVec 8) (d a b : BitVec 5) (f : BitVec 8) (x : Bool) : fmtT64 m d a b f x = fmtRR m d a b f x := rfl

@[simp] theorem fmtI64_lo (m : BitVec 8) (d : BitVec 5) (hi : BitVec 19) : (fmtI64 m d hi).extractLsb' 0 19 = hi := fmtI64_0_19 m d hi

end Sys2Proof.Laws
end

