-- ==== Sys2Proof/Laws/PerInstr.lean ====
section
/-! SUPPORT. For every instruction: the words that stand for it decode to it, with every field at every value. -/

namespace Sys2Proof.Laws

theorem and_or_zero {n : Nat} {w p q : BitVec n} (hp : w &&& p = 0) (hq : w &&& q = 0) : w &&& (p ||| q) = 0 := by
  rw [BitVec.and_or_distrib_left, hp, hq]; exact BitVec.zero_or

/-- A field of zeros under a mask that selects from that field. -/
theorem and_field {w p : W32} (lo k : Nat) (hp : p = (p.extractLsb' lo k).setWidth 32 <<< lo)
    (h : w.extractLsb' lo k &&& p.extractLsb' lo k = 0) : w &&& p = 0 := by
  apply BitVec.eq_of_getLsbD_eq
  intro i hi
  rw [BitVec.getLsbD_and]
  by_cases hl : lo ≤ i ∧ i < lo + k
  · have h0 := congrArg (·.getLsbD (i - lo)) h
    have e : lo + (i - lo) = i := by omega
    have e2 : i - lo < k := by omega
    simp only [BitVec.getLsbD_and, BitVec.getLsbD_extractLsb', e, e2, decide_true, Bool.true_and] at h0
    rw [h0]; simp
  · have : p.getLsbD i = false := by
      rw [hp]
      simp only [BitVec.getLsbD_shiftLeft, BitVec.getLsbD_setWidth, BitVec.getLsbD_extractLsb', hi]
      by_cases h1 : i < lo
      · simp [h1]
      · have : ¬ (i - lo < k) := by omega
        simp [this]
    rw [this]; simp

theorem mF_ext (k : BitVec 8) : (mF k).extractLsb' 1 8 = k := by
  simp only [mF]
  apply BitVec.eq_of_getLsbD_eq
  intro i hi
  have : 1 + i < 32 := by omega
  simp [hi, this, show 1 + i - 1 = i by omega]
theorem t64_F {m d a b f x} (k : BitVec 8) (h : f &&& k = 0) : fmtRR m d a b f x &&& mF k = 0 :=
  and_field 1 8 (by rw [mF_ext]; rfl) (by rw [fmtRR_1_8, mF_ext, h])
theorem t64_D {m a b f x} : fmtRR m 0 a b f x &&& mD = 0 :=
  and_field 19 5 (by decide) (by rw [fmtRR_19_5]; exact BitVec.zero_and)
theorem t64_A {m d b f x} : fmtRR m d 0 b f x &&& mA = 0 :=
  and_field 14 5 (by decide) (by rw [fmtRR_14_5]; exact BitVec.zero_and)
theorem t64_B {m d a f x} : fmtRR m d a 0 f x &&& mB = 0 :=
  and_field 9 5 (by decide) (by rw [fmtRR_9_5]; exact BitVec.zero_and)
theorem t64_X {m d a b f} : fmtRR m d a b f false &&& 1 = 0 :=
  and_field 0 1 (by decide) (by rw [fmtRR_0_1]; rfl)
theorem w_fe {w : W32} (h : w.extractLsb' 21 2 = 0) : w &&& 0x00600000 = 0 :=
  and_field 21 2 (by decide) (by rw [h]; exact BitVec.zero_and)

/-- The mask of an engine command's second word meets nothing. -/
theorem engMask_zero {w m : W32} {fe0 : Bool} (hm : w &&& m = 0)
    (hf : fe0 = true → w.extractLsb' 21 2 = 0) (hf' : w.extractLsb' 21 2 ≠ 3) : w &&& engMask w m fe0 = 0 := by
  unfold engMask
  refine and_or_zero hm ?_
  · cases fe0 with
    | true => exact w_fe (hf rfl)
    | false =>
      rw [Bool.false_or, show (w.extractLsb' 21 2 == 3) = false from beq_false_of_ne hf']
      exact BitVec.and_zero

theorem chk_ok {n : Nat} {bad : W32} {i : Instr} (h : bad = 0) : chk n bad i = .ok i := if_pos h
theorem chk64_ok {n : Nat} {w0 w1 m0 m1 : W32} {i : Instr} (h0 : w0 &&& m0 = 0) (h1 : w1 &&& m1 = 0) :
    chk64 n w0 w1 m0 m1 i = .ok i := by
  unfold chk64
  rw [if_neg (by rw [h0]; decide), if_neg (by rw [h1]; decide)]

theorem top_of {w : W32} {m : BitVec 8} (hm : w.extractLsb' 24 8 = m) : w.extractLsb' 30 2 = m.extractLsb' 6 2 := by
  rw [← hm]; ext i hi; simp [show i + 6 < 8 by omega, Nat.add_comm]

theorem low_zero {n k : Nat} {v : BitVec n} {lo : Nat} (h : v.toNat < 2 ^ lo) : v.extractLsb' lo k = 0 := by
  apply BitVec.eq_of_toNat_eq
  rw [BitVec.extractLsb'_toNat, Nat.shiftRight_eq_div_pow, Nat.div_eq_of_lt h]
  rfl

@[simp] theorem fW_0_3 (w : Bool) (c : BitVec 7) : (fW w c).extractLsb' 0 3 = c.extractLsb' 0 3 := ext_lo _ _ _ _ (by decide)
@[simp] theorem fW_3_4 (w : Bool) (c : BitVec 7) : (fW w c).extractLsb' 3 4 = c.extractLsb' 3 4 := ext_lo _ _ _ _ (by decide)
@[simp] theorem fScope_0_3 (s : BitVec 3) (c : BitVec 4) : (fScope s c).extractLsb' 0 3 = c.extractLsb' 0 3 :=
  ext_lo _ _ _ _ (by decide)
@[simp] theorem fScope_3_1 (s : BitVec 3) (c : BitVec 4) : (fScope s c).extractLsb' 3 1 = c.extractLsb' 3 1 :=
  ext_lo _ _ _ _ (by decide)
@[simp] theorem fmtREP_1_8 (m : BitVec 8) (n : BitVec 4) (sd sa sb : BitVec 2) (c : BitVec 5) :
    (fmtREP m n sd sa sb c).extractLsb' 1 8 = 0 := (ext_lo _ _ _ _ (by decide)).trans rfl
@[simp] theorem fmtREP_0_1 (m : BitVec 8) (n : BitVec 4) (sd sa sb : BitVec 2) (c : BitVec 5) :
    (fmtREP m n sd sa sb c).extractLsb' 0 1 = 0 := (ext_lo _ _ _ _ (by decide)).trans rfl
@[simp] theorem fmtTrap_1_2 (imm : BitVec 16) : (fmtTrap imm).extractLsb' 1 2 = 0 := (ext_lo _ _ _ _ (by decide)).trans rfl
@[simp] theorem fmtTrap_0_1 (imm : BitVec 16) : (fmtTrap imm).extractLsb' 0 1 = 0 := (ext_lo _ _ _ _ (by decide)).trans rfl
theorem halves (v : BitVec 51) : v.extractLsb' 32 19 ++ v.extractLsb' 0 32 = v := by
  ext i hi
  rw [BitVec.getElem_append]
  split
  · simp; exact BitVec.getLsbD_eq_getElem (by omega)
  · simp [Nat.add_sub_cancel' (Nat.le_of_not_lt ‹_›)]; exact BitVec.getLsbD_eq_getElem (by omega)
theorem bit_of_and {f k : BitVec 8} (h : f &&& k = 0) (i : Nat) (hk : k.getLsbD i = true) : f.getLsbD i = false := by
  have := congrArg (·.getLsbD i) h
  simpa [hk] using this
theorem low7 {f : BitVec 8} (h : f &&& 0xFF = 0) : f &&& 0xFE = 0 := by
  have e : f = 0 := by rw [← h]; exact (BitVec.and_allOnes (x := f)).symm
  rw [e]; rfl

/-- Majors below 0x80 that some instruction has (Table 5.1). -/
def majors32 (m : Nat) : Bool :=
  m ≤ 0x11 || (0x14 ≤ m && m ≤ 0x17) || (0x20 ≤ m && m ≤ 0x31) || (0x34 ≤ m && m ≤ 0x37)
    || (0x40 ≤ m && m ≤ 0x4D) || (0x50 ≤ m && m ≤ 0x5D)

end Sys2Proof.Laws

namespace Sys2Proof.Laws.RoundTrip

/-- The words of a well-formed instruction have the length that their first word tells, their major is assigned on base
cores, and on every layer whose cores have that major they decode to the instruction (R84, R86, R87, R90, R92). -/
def Statement (i : Instr) : Prop :=
  i.wf = true →
    (encode i).length = (if isWide ((encode i).getD 0 0) then 2 else 1) ∧ majorAssigned 0 ((encode i).getD 0 0) = true ∧
    ∀ layer n w1, majorAssigned layer ((encode i).getD 0 0) = true →
      decode layer n ((encode i).getD 0 0) ((encode i).getD 1 w1) = .ok i

theorem narrow {i : Instr} {w : W32} {m : BitVec 8} (he : encode i = [w]) (hm : w.extractLsb' 24 8 = m)
    (h2 : m.extractLsb' 6 2 ≠ 3) (h3 : m.extractLsb' 6 2 ≠ 2) (ha : majors32 m.toNat = true)
    (hd : i.wf = true → ∀ n, decode32 n w = .ok i) : Statement i := by
  intro hw
  have hwide : isWide w = false := by rw [isWide, top_of hm]; exact beq_false_of_ne h2
  have hpfx : isPfx w = false := by rw [isPfx, top_of hm]; exact beq_false_of_ne h3
  rw [he]
  refine ⟨by simp [hwide], ?_, fun l n w1 _ => ?_⟩
  · simp only [majorAssigned, List.getD_cons_zero, hwide, hm]; exact ha
  · simp [decode, hwide, hpfx, hd hw n]

theorem wide {i : Instr} {w0 w1 : W32} {m : BitVec 8} (he : encode i = [w0, w1]) (hm : w0.extractLsb' 24 8 = m)
    (h2 : m.extractLsb' 6 2 = 3) (ha : (m.extractLsb' 0 6).toNat ≤ 0x1A && (m.extractLsb' 0 6).toNat != 0x07)
    (hd : i.wf = true → ∀ l n, (l != 0 && baseOnly (w0.extractLsb' 24 6).toNat) = false → decode64 l n w0 w1 = .ok i) :
    Statement i := by
  intro hw
  have hwide : isWide w0 = true := by rw [isWide, top_of hm, h2]; rfl
  have h6 : w0.extractLsb' 24 6 = m.extractLsb' 0 6 := by
    rw [← hm]; ext i hi; simp [show i < 8 by omega]
  rw [he]
  refine ⟨by simp [hwide], ?_, fun l n w h => ?_⟩
  · simp only [majorAssigned, List.getD_cons_zero, hwide, h6, if_true]
    simpa using ha
  · simp only [majorAssigned, List.getD_cons_zero, hwide, if_true, Bool.and_eq_true, Bool.not_eq_true'] at h
    simp only [decode, List.getD_cons_zero, List.getD_cons_succ, hwide, if_true]
    exact hd hw l n h.2

theorem add (d a b w x) : Statement (.add d a b w x) := by
  refine narrow rfl (fmtRR_24_8 ..) (by decide) (by decide) rfl fun _ n => ?_
  rw [decode32, fmtRR_24_8]
  show decodeInt n _ = _
  rw [decodeInt, fmtRR_f0_7, fW_0_7]
  show Except.ok (Instr.add _ _ _ _ _) = _
  simp only [fmtRR_19_5, fmtRR_14_5, fmtRR_9_5, fmtRR_fb7, fW_bit7, fmtRR_bit0]
theorem sub (d a b w x) : Statement (.sub d a b w x) := by
  refine narrow rfl (fmtRR_24_8 ..) (by decide) (by decide) rfl fun _ n => ?_
  rw [decode32, fmtRR_24_8]
  show decodeInt n _ = _
  rw [decodeInt, fmtRR_f0_7, fW_0_7]
  show Except.ok (Instr.sub _ _ _ _ _) = _
  simp only [fmtRR_19_5, fmtRR_14_5, fmtRR_9_5, fmtRR_fb7, fW_bit7, fmtRR_bit0]
theorem and (d a b w x) : Statement (.and d a b w x) := by
  refine narrow rfl (fmtRR_24_8 ..) (by decide) (by decide) rfl fun _ n => ?_
  rw [decode32, fmtRR_24_8]
  show decodeInt n _ = _
  rw [decodeInt, fmtRR_f0_7, fW_0_7]
  show Except.ok (Instr.and _ _ _ _ _) = _
  simp only [fmtRR_19_5, fmtRR_14_5, fmtRR_9_5, fmtRR_fb7, fW_bit7, fmtRR_bit0]
theorem or (d a b w x) : Statement (.or d a b w x) := by
  refine narrow rfl (fmtRR_24_8 ..) (by decide) (by decide) rfl fun _ n => ?_
  rw [decode32, fmtRR_24_8]
  show decodeInt n _ = _
  rw [decodeInt, fmtRR_f0_7, fW_0_7]
  show Except.ok (Instr.or _ _ _ _ _) = _
  simp only [fmtRR_19_5, fmtRR_14_5, fmtRR_9_5, fmtRR_fb7, fW_bit7, fmtRR_bit0]
theorem xor (d a b w x) : Statement (.xor d a b w x) := by
  refine narrow rfl (fmtRR_24_8 ..) (by decide) (by decide) rfl fun _ n => ?_
  rw [decode32, fmtRR_24_8]
  show decodeInt n _ = _
  rw [decodeInt, fmtRR_f0_7, fW_0_7]
  show Except.ok (Instr.xor _ _ _ _ _) = _
  simp only [fmtRR_19_5, fmtRR_14_5, fmtRR_9_5, fmtRR_fb7, fW_bit7, fmtRR_bit0]
theorem andn (d a b w x) : Statement (.andn d a b w x) := by
  refine narrow rfl (fmtRR_24_8 ..) (by decide) (by decide) rfl fun _ n => ?_
  rw [decode32, fmtRR_24_8]
  show decodeInt n _ = _
  rw [decodeInt, fmtRR_f0_7, fW_0_7]
  show Except.ok (Instr.andn _ _ _ _ _) = _
  simp only [fmtRR_19_5, fmtRR_14_5, fmtRR_9_5, fmtRR_fb7, fW_bit7, fmtRR_bit0]
theorem shl (d a b w x) : Statement (.shl d a b w x) := by
  refine narrow rfl (fmtRR_24_8 ..) (by decide) (by decide) rfl fun _ n => ?_
  rw [decode32, fmtRR_24_8]
  show decodeInt n _ = _
  rw [decodeInt, fmtRR_f0_7, fW_0_7]
  show Except.ok (Instr.shl _ _ _ _ _) = _
  simp only [fmtRR_19_5, fmtRR_14_5, fmtRR_9_5, fmtRR_fb7, fW_bit7, fmtRR_bit0]
theorem shr (d a b w x) : Statement (.shr d a b w x) := by
  refine narrow rfl (fmtRR_24_8 ..) (by decide) (by decide) rfl fun _ n => ?_
  rw [decode32, fmtRR_24_8]
  show decodeInt n _ = _
  rw [decodeInt, fmtRR_f0_7, fW_0_7]
  show Except.ok (Instr.shr _ _ _ _ _) = _
  simp only [fmtRR_19_5, fmtRR_14_5, fmtRR_9_5, fmtRR_fb7, fW_bit7, fmtRR_bit0]
theorem sar (d a b w x) : Statement (.sar d a b w x) := by
  refine narrow rfl (fmtRR_24_8 ..) (by decide) (by decide) rfl fun _ n => ?_
  rw [decode32, fmtRR_24_8]
  show decodeInt n _ = _
  rw [decodeInt, fmtRR_f0_7, fW_0_7]
  show Except.ok (Instr.sar _ _ _ _ _) = _
  simp only [fmtRR_19_5, fmtRR_14_5, fmtRR_9_5, fmtRR_fb7, fW_bit7, fmtRR_bit0]
theorem rol (d a b w x) : Statement (.rol d a b w x) := by
  refine narrow rfl (fmtRR_24_8 ..) (by decide) (by decide) rfl fun _ n => ?_
  rw [decode32, fmtRR_24_8]
  show decodeInt n _ = _
  rw [decodeInt, fmtRR_f0_7, fW_0_7]
  show Except.ok (Instr.rol _ _ _ _ _) = _
  simp only [fmtRR_19_5, fmtRR_14_5, fmtRR_9_5, fmtRR_fb7, fW_bit7, fmtRR_bit0]
theorem mul (d a b w x) : Statement (.mul d a b w x) := by
  refine narrow rfl (fmtRR_24_8 ..) (by decide) (by decide) rfl fun _ n => ?_
  rw [decode32, fmtRR_24_8]
  show decodeInt n _ = _
  rw [decodeInt, fmtRR_f0_7, fW_0_7]
  show Except.ok (Instr.mul _ _ _ _ _) = _
  simp only [fmtRR_19_5, fmtRR_14_5, fmtRR_9_5, fmtRR_fb7, fW_bit7, fmtRR_bit0]
theorem mulh (d a b w x) : Statement (.mulh d a b w x) := by
  refine narrow rfl (fmtRR_24_8 ..) (by decide) (by decide) rfl fun _ n => ?_
  rw [decode32, fmtRR_24_8]
  show decodeInt n _ = _
  rw [decodeInt, fmtRR_f0_7, fW_0_7]
  show Except.ok (Instr.mulh _ _ _ _ _) = _
  simp only [fmtRR_19_5, fmtRR_14_5, fmtRR_9_5, fmtRR_fb7, fW_bit7, fmtRR_bit0]
theorem mulhu (d a b w x) : Statement (.mulhu d a b w x) := by
  refine narrow rfl (fmtRR_24_8 ..) (by decide) (by decide) rfl fun _ n => ?_
  rw [decode32, fmtRR_24_8]
  show decodeInt n _ = _
  rw [decodeInt, fmtRR_f0_7, fW_0_7]
  show Except.ok (Instr.mulhu _ _ _ _ _) = _
  simp only [fmtRR_19_5, fmtRR_14_5, fmtRR_9_5, fmtRR_fb7, fW_bit7, fmtRR_bit0]
theorem div (d a b w x) : Statement (.div d a b w x) := by
  refine narrow rfl (fmtRR_24_8 ..) (by decide) (by decide) rfl fun _ n => ?_
  rw [decode32, fmtRR_24_8]
  show decodeInt n _ = _
  rw [decodeInt, fmtRR_f0_7, fW_0_7]
  show Except.ok (Instr.div _ _ _ _ _) = _
  simp only [fmtRR_19_5, fmtRR_14_5, fmtRR_9_5, fmtRR_fb7, fW_bit7, fmtRR_bit0]
theorem divu (d a b w x) : Statement (.divu d a b w x) := by
  refine narrow rfl (fmtRR_24_8 ..) (by decide) (by decide) rfl fun _ n => ?_
  rw [decode32, fmtRR_24_8]
  show decodeInt n _ = _
  rw [decodeInt, fmtRR_f0_7, fW_0_7]
  show Except.ok (Instr.divu _ _ _ _ _) = _
  simp only [fmtRR_19_5, fmtRR_14_5, fmtRR_9_5, fmtRR_fb7, fW_bit7, fmtRR_bit0]
theorem rem (d a b w x) : Statement (.rem d a b w x) := by
  refine narrow rfl (fmtRR_24_8 ..) (by decide) (by decide) rfl fun _ n => ?_
  rw [decode32, fmtRR_24_8]
  show decodeInt n _ = _
  rw [decodeInt, fmtRR_f0_7, fW_0_7]
  show Except.ok (Instr.rem _ _ _ _ _) = _
  simp only [fmtRR_19_5, fmtRR_14_5, fmtRR_9_5, fmtRR_fb7, fW_bit7, fmtRR_bit0]
theorem remu (d a b w x) : Statement (.remu d a b w x) := by
  refine narrow rfl (fmtRR_24_8 ..) (by decide) (by decide) rfl fun _ n => ?_
  rw [decode32, fmtRR_24_8]
  show decodeInt n _ = _
  rw [decodeInt, fmtRR_f0_7, fW_0_7]
  show Except.ok (Instr.remu _ _ _ _ _) = _
  simp only [fmtRR_19_5, fmtRR_14_5, fmtRR_9_5, fmtRR_fb7, fW_bit7, fmtRR_bit0]
theorem min (d a b w x) : Statement (.min d a b w x) := by
  refine narrow rfl (fmtRR_24_8 ..) (by decide) (by decide) rfl fun _ n => ?_
  rw [decode32, fmtRR_24_8]
  show decodeInt n _ = _
  rw [decodeInt, fmtRR_f0_7, fW_0_7]
  show Except.ok (Instr.min _ _ _ _ _) = _
  simp only [fmtRR_19_5, fmtRR_14_5, fmtRR_9_5, fmtRR_fb7, fW_bit7, fmtRR_bit0]
theorem max (d a b w x) : Statement (.max d a b w x) := by
  refine narrow rfl (fmtRR_24_8 ..) (by decide) (by decide) rfl fun _ n => ?_
  rw [decode32, fmtRR_24_8]
  show decodeInt n _ = _
  rw [decodeInt, fmtRR_f0_7, fW_0_7]
  show Except.ok (Instr.max _ _ _ _ _) = _
  simp only [fmtRR_19_5, fmtRR_14_5, fmtRR_9_5, fmtRR_fb7, fW_bit7, fmtRR_bit0]
theorem minu (d a b w x) : Statement (.minu d a b w x) := by
  refine narrow rfl (fmtRR_24_8 ..) (by decide) (by decide) rfl fun _ n => ?_
  rw [decode32, fmtRR_24_8]
  show decodeInt n _ = _
  rw [decodeInt, fmtRR_f0_7, fW_0_7]
  show Except.ok (Instr.minu _ _ _ _ _) = _
  simp only [fmtRR_19_5, fmtRR_14_5, fmtRR_9_5, fmtRR_fb7, fW_bit7, fmtRR_bit0]
theorem maxu (d a b w x) : Statement (.maxu d a b w x) := by
  refine narrow rfl (fmtRR_24_8 ..) (by decide) (by decide) rfl fun _ n => ?_
  rw [decode32, fmtRR_24_8]
  show decodeInt n _ = _
  rw [decodeInt, fmtRR_f0_7, fW_0_7]
  show Except.ok (Instr.maxu _ _ _ _ _) = _
  simp only [fmtRR_19_5, fmtRR_14_5, fmtRR_9_5, fmtRR_fb7, fW_bit7, fmtRR_bit0]
theorem slt (d a b w x) : Statement (.slt d a b w x) := by
  refine narrow rfl (fmtRR_24_8 ..) (by decide) (by decide) rfl fun _ n => ?_
  rw [decode32, fmtRR_24_8]
  show decodeInt n _ = _
  rw [decodeInt, fmtRR_f0_7, fW_0_7]
  show Except.ok (Instr.slt _ _ _ _ _) = _
  simp only [fmtRR_19_5, fmtRR_14_5, fmtRR_9_5, fmtRR_fb7, fW_bit7, fmtRR_bit0]
theorem sltu (d a b w x) : Statement (.sltu d a b w x) := by
  refine narrow rfl (fmtRR_24_8 ..) (by decide) (by decide) rfl fun _ n => ?_
  rw [decode32, fmtRR_24_8]
  show decodeInt n _ = _
  rw [decodeInt, fmtRR_f0_7, fW_0_7]
  show Except.ok (Instr.sltu _ _ _ _ _) = _
  simp only [fmtRR_19_5, fmtRR_14_5, fmtRR_9_5, fmtRR_fb7, fW_bit7, fmtRR_bit0]
theorem clmul (d a b x) : Statement (.clmul d a b x) := by
  refine narrow rfl (fmtRR_24_8 ..) (by decide) (by decide) rfl fun _ n => ?_
  rw [decode32, fmtRR_24_8]
  show decodeInt n _ = _
  rw [decodeInt, fmtRR_f0_7, fW_0_7]
  show chk n _ (.clmul _ _ _ _) = _
  simp only [fieldBits, fmtRR_f7_1, fW_7_1, fmtRR_19_5, fmtRR_14_5, fmtRR_9_5, fmtRR_bit0]
  exact chk_ok (by rfl)
theorem clmulh (d a b x) : Statement (.clmulh d a b x) := by
  refine narrow rfl (fmtRR_24_8 ..) (by decide) (by decide) rfl fun _ n => ?_
  rw [decode32, fmtRR_24_8]
  show decodeInt n _ = _
  rw [decodeInt, fmtRR_f0_7, fW_0_7]
  show chk n _ (.clmulh _ _ _ _) = _
  simp only [fieldBits, fmtRR_f7_1, fW_7_1, fmtRR_19_5, fmtRR_14_5, fmtRR_9_5, fmtRR_bit0]
  exact chk_ok (by rfl)
theorem clz (d a w x) : Statement (.clz d a w x) := by
  refine narrow rfl (fmtRR_24_8 ..) (by decide) (by decide) rfl fun _ n => ?_
  rw [decode32, fmtRR_24_8]
  show decodeInt n _ = _
  rw [decodeInt, fmtRR_f0_7, fW_0_7]
  show chk n _ (.clz _ _ _ _) = _
  simp only [fieldBits, fmtRR_9_5, fmtRR_19_5, fmtRR_14_5, fmtRR_fb7, fW_bit7, fmtRR_bit0]
  exact chk_ok (by rfl)
theorem ctz (d a w x) : Statement (.ctz d a w x) := by
  refine narrow rfl (fmtRR_24_8 ..) (by decide) (by decide) rfl fun _ n => ?_
  rw [decode32, fmtRR_24_8]
  show decodeInt n _ = _
  rw [decodeInt, fmtRR_f0_7, fW_0_7]
  show chk n _ (.ctz _ _ _ _) = _
  simp only [fieldBits, fmtRR_9_5, fmtRR_19_5, fmtRR_14_5, fmtRR_fb7, fW_bit7, fmtRR_bit0]
  exact chk_ok (by rfl)
theorem popc (d a w x) : Statement (.popc d a w x) := by
  refine narrow rfl (fmtRR_24_8 ..) (by decide) (by decide) rfl fun _ n => ?_
  rw [decode32, fmtRR_24_8]
  show decodeInt n _ = _
  rw [decodeInt, fmtRR_f0_7, fW_0_7]
  show chk n _ (.popc _ _ _ _) = _
  simp only [fieldBits, fmtRR_9_5, fmtRR_19_5, fmtRR_14_5, fmtRR_fb7, fW_bit7, fmtRR_bit0]
  exact chk_ok (by rfl)
theorem brev (d a w x) : Statement (.brev d a w x) := by
  refine narrow rfl (fmtRR_24_8 ..) (by decide) (by decide) rfl fun _ n => ?_
  rw [decode32, fmtRR_24_8]
  show decodeInt n _ = _
  rw [decodeInt, fmtRR_f0_7, fW_0_7]
  show chk n _ (.brev _ _ _ _) = _
  simp only [fieldBits, fmtRR_9_5, fmtRR_19_5, fmtRR_14_5, fmtRR_fb7, fW_bit7, fmtRR_bit0]
  exact chk_ok (by rfl)
theorem bswap (d a w x) : Statement (.bswap d a w x) := by
  refine narrow rfl (fmtRR_24_8 ..) (by decide) (by decide) rfl fun _ n => ?_
  rw [decode32, fmtRR_24_8]
  show decodeInt n _ = _
  rw [decodeInt, fmtRR_f0_7, fW_0_7]
  show chk n _ (.bswap _ _ _ _) = _
  simp only [fieldBits, fmtRR_9_5, fmtRR_19_5, fmtRR_14_5, fmtRR_fb7, fW_bit7, fmtRR_bit0]
  exact chk_ok (by rfl)
theorem sxb (d a w x) : Statement (.sxb d a w x) := by
  refine narrow rfl (fmtRR_24_8 ..) (by decide) (by decide) rfl fun _ n => ?_
  rw [decode32, fmtRR_24_8]
  show decodeInt n _ = _
  rw [decodeInt, fmtRR_f0_7, fW_0_7]
  show chk n _ (.sxb _ _ _ _) = _
  simp only [fieldBits, fmtRR_9_5, fmtRR_19_5, fmtRR_14_5, fmtRR_fb7, fW_bit7, fmtRR_bit0]
  exact chk_ok (by rfl)
theorem sxh (d a w x) : Statement (.sxh d a w x) := by
  refine narrow rfl (fmtRR_24_8 ..) (by decide) (by decide) rfl fun _ n => ?_
  rw [decode32, fmtRR_24_8]
  show decodeInt n _ = _
  rw [decodeInt, fmtRR_f0_7, fW_0_7]
  show chk n _ (.sxh _ _ _ _) = _
  simp only [fieldBits, fmtRR_9_5, fmtRR_19_5, fmtRR_14_5, fmtRR_fb7, fW_bit7, fmtRR_bit0]
  exact chk_ok (by rfl)
theorem sxw (d a x) : Statement (.sxw d a x) := by
  refine narrow rfl (fmtRR_24_8 ..) (by decide) (by decide) rfl fun _ n => ?_
  rw [decode32, fmtRR_24_8]
  show decodeInt n _ = _
  rw [decodeInt, fmtRR_f0_7, fW_0_7]
  show chk n _ (.sxw _ _ _) = _
  simp only [fieldBits, fmtRR_9_5, fmtRR_f7_1, fW_7_1, fmtRR_19_5, fmtRR_14_5, fmtRR_bit0]
  exact chk_ok (by rfl)
theorem zxb (d a w x) : Statement (.zxb d a w x) := by
  refine narrow rfl (fmtRR_24_8 ..) (by decide) (by decide) rfl fun _ n => ?_
  rw [decode32, fmtRR_24_8]
  show decodeInt n _ = _
  rw [decodeInt, fmtRR_f0_7, fW_0_7]
  show chk n _ (.zxb _ _ _ _) = _
  simp only [fieldBits, fmtRR_9_5, fmtRR_19_5, fmtRR_14_5, fmtRR_fb7, fW_bit7, fmtRR_bit0]
  exact chk_ok (by rfl)
theorem zxh (d a w x) : Statement (.zxh d a w x) := by
  refine narrow rfl (fmtRR_24_8 ..) (by decide) (by decide) rfl fun _ n => ?_
  rw [decode32, fmtRR_24_8]
  show decodeInt n _ = _
  rw [decodeInt, fmtRR_f0_7, fW_0_7]
  show chk n _ (.zxh _ _ _ _) = _
  simp only [fieldBits, fmtRR_9_5, fmtRR_19_5, fmtRR_14_5, fmtRR_fb7, fW_bit7, fmtRR_bit0]
  exact chk_ok (by rfl)
theorem zxw (d a x) : Statement (.zxw d a x) := by
  refine narrow rfl (fmtRR_24_8 ..) (by decide) (by decide) rfl fun _ n => ?_
  rw [decode32, fmtRR_24_8]
  show decodeInt n _ = _
  rw [decodeInt, fmtRR_f0_7, fW_0_7]
  show chk n _ (.zxw _ _ _) = _
  simp only [fieldBits, fmtRR_9_5, fmtRR_f7_1, fW_7_1, fmtRR_19_5, fmtRR_14_5, fmtRR_bit0]
  exact chk_ok (by rfl)
theorem abs (d a w x) : Statement (.abs d a w x) := by
  refine narrow rfl (fmtRR_24_8 ..) (by decide) (by decide) rfl fun _ n => ?_
  rw [decode32, fmtRR_24_8]
  show decodeInt n _ = _
  rw [decodeInt, fmtRR_f0_7, fW_0_7]
  show chk n _ (.abs _ _ _ _) = _
  simp only [fieldBits, fmtRR_9_5, fmtRR_19_5, fmtRR_14_5, fmtRR_fb7, fW_bit7, fmtRR_bit0]
  exact chk_ok (by rfl)
theorem neg (d a w x) : Statement (.neg d a w x) := by
  refine narrow rfl (fmtRR_24_8 ..) (by decide) (by decide) rfl fun _ n => ?_
  rw [decode32, fmtRR_24_8]
  show decodeInt n _ = _
  rw [decodeInt, fmtRR_f0_7, fW_0_7]
  show chk n _ (.neg _ _ _ _) = _
  simp only [fieldBits, fmtRR_9_5, fmtRR_19_5, fmtRR_14_5, fmtRR_fb7, fW_bit7, fmtRR_bit0]
  exact chk_ok (by rfl)
theorem addi (d a imm x) : Statement (.addi d a imm x) := by
  refine narrow rfl (fmtRI_24_8 ..) (by decide) (by decide) rfl fun _ n => ?_
  rw [decode32, fmtRI_24_8]
  show Except.ok (Instr.addi _ _ _ _) = _
  simp only [fmtRI_19_5, fmtRI_14_5, fmtRI_1_13, fmtRI_bit0]
theorem andi (d a imm x) : Statement (.andi d a imm x) := by
  refine narrow rfl (fmtRI_24_8 ..) (by decide) (by decide) rfl fun _ n => ?_
  rw [decode32, fmtRI_24_8]
  show Except.ok (Instr.andi _ _ _ _) = _
  simp only [fmtRI_19_5, fmtRI_14_5, fmtRI_1_13, fmtRI_bit0]
theorem ori (d a imm x) : Statement (.ori d a imm x) := by
  refine narrow rfl (fmtRI_24_8 ..) (by decide) (by decide) rfl fun _ n => ?_
  rw [decode32, fmtRI_24_8]
  show Except.ok (Instr.ori _ _ _ _) = _
  simp only [fmtRI_19_5, fmtRI_14_5, fmtRI_1_13, fmtRI_bit0]
theorem xori (d a imm x) : Statement (.xori d a imm x) := by
  refine narrow rfl (fmtRI_24_8 ..) (by decide) (by decide) rfl fun _ n => ?_
  rw [decode32, fmtRI_24_8]
  show Except.ok (Instr.xori _ _ _ _) = _
  simp only [fmtRI_19_5, fmtRI_14_5, fmtRI_1_13, fmtRI_bit0]
theorem shli (d a imm x) : Statement (.shli d a imm x) := by
  refine narrow rfl (fmtRI_24_8 ..) (by decide) (by decide) rfl fun hw n => ?_
  rw [decode32, fmtRI_24_8]
  show chk n _ (.shli _ _ _ _) = _
  simp only [fieldBits, fmtRI_imm6, fmtRI_19_5, fmtRI_14_5, fmtRI_1_13, fmtRI_bit0, low_zero (lo := 6) (of_decide_eq_true hw)]
  exact chk_ok (by rfl)
theorem shri (d a imm x) : Statement (.shri d a imm x) := by
  refine narrow rfl (fmtRI_24_8 ..) (by decide) (by decide) rfl fun hw n => ?_
  rw [decode32, fmtRI_24_8]
  show chk n _ (.shri _ _ _ _) = _
  simp only [fieldBits, fmtRI_imm6, fmtRI_19_5, fmtRI_14_5, fmtRI_1_13, fmtRI_bit0, low_zero (lo := 6) (of_decide_eq_true hw)]
  exact chk_ok (by rfl)
theorem sari (d a imm x) : Statement (.sari d a imm x) := by
  refine narrow rfl (fmtRI_24_8 ..) (by decide) (by decide) rfl fun hw n => ?_
  rw [decode32, fmtRI_24_8]
  show chk n _ (.sari _ _ _ _) = _
  simp only [fieldBits, fmtRI_imm6, fmtRI_19_5, fmtRI_14_5, fmtRI_1_13, fmtRI_bit0, low_zero (lo := 6) (of_decide_eq_true hw)]
  exact chk_ok (by rfl)
theorem muli (d a imm x) : Statement (.muli d a imm x) := by
  refine narrow rfl (fmtRI_24_8 ..) (by decide) (by decide) rfl fun _ n => ?_
  rw [decode32, fmtRI_24_8]
  show Except.ok (Instr.muli _ _ _ _) = _
  simp only [fmtRI_19_5, fmtRI_14_5, fmtRI_1_13, fmtRI_bit0]
theorem slti (d a imm x) : Statement (.slti d a imm x) := by
  refine narrow rfl (fmtRI_24_8 ..) (by decide) (by decide) rfl fun _ n => ?_
  rw [decode32, fmtRI_24_8]
  show Except.ok (Instr.slti _ _ _ _) = _
  simp only [fmtRI_19_5, fmtRI_14_5, fmtRI_1_13, fmtRI_bit0]
theorem sltiu (d a imm x) : Statement (.sltiu d a imm x) := by
  refine narrow rfl (fmtRI_24_8 ..) (by decide) (by decide) rfl fun _ n => ?_
  rw [decode32, fmtRI_24_8]
  show Except.ok (Instr.sltiu _ _ _ _) = _
  simp only [fmtRI_19_5, fmtRI_14_5, fmtRI_1_13, fmtRI_bit0]
theorem li (d imm) : Statement (.li d imm) := by
  refine narrow rfl (fmtLI_24_8 ..) (by decide) (by decide) rfl fun _ n => ?_
  rw [decode32, fmtLI_24_8]
  show Except.ok (Instr.li _ _) = _
  simp only [fmtLI_19_5, fmtLI_0_19]
theorem lis (d imm) : Statement (.lis d imm) := by
  refine narrow rfl (fmtLI_24_8 ..) (by decide) (by decide) rfl fun _ n => ?_
  rw [decode32, fmtLI_24_8]
  show Except.ok (Instr.lis _ _) = _
  simp only [fmtLI_19_5, fmtLI_0_19]
theorem lix (d imm) : Statement (.lix d imm) := by
  refine wide rfl (fmtI64_24_8 ..) (by decide) (by decide) fun _ l n h => ?_
  rw [decode64, h, if_neg Bool.false_ne_true, fmtI64_m6]
  show Except.ok (Instr.lix (t64Of _ _).d _) = _
  rw [t64Of, fmtI64_19_5, fmtI64_0_19, halves]
theorem cmpEq (k a b w comb) : Statement (.cmpEq k a b w comb) := by
  refine narrow rfl (fmtRR_24_8 ..) (by decide) (by decide) rfl fun _ n => ?_
  rw [decode32, fmtRR_24_8]
  show decodeCmp n _ = _
  rw [decodeCmp, fmtRR_f0_3, fCmp_0_3]
  show chk n _ (.cmpEq _ _ _ _ _) = _
  simp only [fieldBits, fmtRR_f5_2, fCmp_5_2, fmtRR_0_1, fmtRR_19_5, fmtRR_14_5, fmtRR_9_5, fmtRR_fb7, fCmp_bit7, fmtRR_f3_2, fCmp_3_2]
  exact chk_ok (by rfl)
theorem cmpNe (k a b w comb) : Statement (.cmpNe k a b w comb) := by
  refine narrow rfl (fmtRR_24_8 ..) (by decide) (by decide) rfl fun _ n => ?_
  rw [decode32, fmtRR_24_8]
  show decodeCmp n _ = _
  rw [decodeCmp, fmtRR_f0_3, fCmp_0_3]
  show chk n _ (.cmpNe _ _ _ _ _) = _
  simp only [fieldBits, fmtRR_f5_2, fCmp_5_2, fmtRR_0_1, fmtRR_19_5, fmtRR_14_5, fmtRR_9_5, fmtRR_fb7, fCmp_bit7, fmtRR_f3_2, fCmp_3_2]
  exact chk_ok (by rfl)
theorem cmpLt (k a b w comb) : Statement (.cmpLt k a b w comb) := by
  refine narrow rfl (fmtRR_24_8 ..) (by decide) (by decide) rfl fun _ n => ?_
  rw [decode32, fmtRR_24_8]
  show decodeCmp n _ = _
  rw [decodeCmp, fmtRR_f0_3, fCmp_0_3]
  show chk n _ (.cmpLt _ _ _ _ _) = _
  simp only [fieldBits, fmtRR_f5_2, fCmp_5_2, fmtRR_0_1, fmtRR_19_5, fmtRR_14_5, fmtRR_9_5, fmtRR_fb7, fCmp_bit7, fmtRR_f3_2, fCmp_3_2]
  exact chk_ok (by rfl)
theorem cmpGe (k a b w comb) : Statement (.cmpGe k a b w comb) := by
  refine narrow rfl (fmtRR_24_8 ..) (by decide) (by decide) rfl fun _ n => ?_
  rw [decode32, fmtRR_24_8]
  show decodeCmp n _ = _
  rw [decodeCmp, fmtRR_f0_3, fCmp_0_3]
  show chk n _ (.cmpGe _ _ _ _ _) = _
  simp only [fieldBits, fmtRR_f5_2, fCmp_5_2, fmtRR_0_1, fmtRR_19_5, fmtRR_14_5, fmtRR_9_5, fmtRR_fb7, fCmp_bit7, fmtRR_f3_2, fCmp_3_2]
  exact chk_ok (by rfl)
theorem cmpLtu (k a b w comb) : Statement (.cmpLtu k a b w comb) := by
  refine narrow rfl (fmtRR_24_8 ..) (by decide) (by decide) rfl fun _ n => ?_
  rw [decode32, fmtRR_24_8]
  show decodeCmp n _ = _
  rw [decodeCmp, fmtRR_f0_3, fCmp_0_3]
  show chk n _ (.cmpLtu _ _ _ _ _) = _
  simp only [fieldBits, fmtRR_f5_2, fCmp_5_2, fmtRR_0_1, fmtRR_19_5, fmtRR_14_5, fmtRR_9_5, fmtRR_fb7, fCmp_bit7, fmtRR_f3_2, fCmp_3_2]
  exact chk_ok (by rfl)
theorem cmpGeu (k a b w comb) : Statement (.cmpGeu k a b w comb) := by
  refine narrow rfl (fmtRR_24_8 ..) (by decide) (by decide) rfl fun _ n => ?_
  rw [decode32, fmtRR_24_8]
  show decodeCmp n _ = _
  rw [decodeCmp, fmtRR_f0_3, fCmp_0_3]
  show chk n _ (.cmpGeu _ _ _ _ _) = _
  simp only [fieldBits, fmtRR_f5_2, fCmp_5_2, fmtRR_0_1, fmtRR_19_5, fmtRR_14_5, fmtRR_9_5, fmtRR_fb7, fCmp_bit7, fmtRR_f3_2, fCmp_3_2]
  exact chk_ok (by rfl)
theorem cmpiEq (k a imm) : Statement (.cmpiEq k a imm) := by
  refine narrow rfl (fmtCI_24_8 ..) (by decide) (by decide) rfl fun _ n => ?_
  rw [decode32, fmtCI_24_8]
  show decodeCmpi n _ = _
  rw [decodeCmpi, fmtCI_11_3]
  show chk n _ (.cmpiEq _ _ _) = _
  simp only [fieldBits, fmtCI_0_1, fmtCI_19_5, fmtCI_14_5, fmtCI_1_10]
  exact chk_ok (by rfl)
theorem cmpiNe (k a imm) : Statement (.cmpiNe k a imm) := by
  refine narrow rfl (fmtCI_24_8 ..) (by decide) (by decide) rfl fun _ n => ?_
  rw [decode32, fmtCI_24_8]
  show decodeCmpi n _ = _
  rw [decodeCmpi, fmtCI_11_3]
  show chk n _ (.cmpiNe _ _ _) = _
  simp only [fieldBits, fmtCI_0_1, fmtCI_19_5, fmtCI_14_5, fmtCI_1_10]
  exact chk_ok (by rfl)
theorem cmpiLt (k a imm) : Statement (.cmpiLt k a imm) := by
  refine narrow rfl (fmtCI_24_8 ..) (by decide) (by decide) rfl fun _ n => ?_
  rw [decode32, fmtCI_24_8]
  show decodeCmpi n _ = _
  rw [decodeCmpi, fmtCI_11_3]
  show chk n _ (.cmpiLt _ _ _) = _
  simp only [fieldBits, fmtCI_0_1, fmtCI_19_5, fmtCI_14_5, fmtCI_1_10]
  exact chk_ok (by rfl)
theorem cmpiGe (k a imm) : Statement (.cmpiGe k a imm) := by
  refine narrow rfl (fmtCI_24_8 ..) (by decide) (by decide) rfl fun _ n => ?_
  rw [decode32, fmtCI_24_8]
  show decodeCmpi n _ = _
  rw [decodeCmpi, fmtCI_11_3]
  show chk n _ (.cmpiGe _ _ _) = _
  simp only [fieldBits, fmtCI_0_1, fmtCI_19_5, fmtCI_14_5, fmtCI_1_10]
  exact chk_ok (by rfl)
theorem cmpiLtu (k a imm) : Statement (.cmpiLtu k a imm) := by
  refine narrow rfl (fmtCI_24_8 ..) (by decide) (by decide) rfl fun _ n => ?_
  rw [decode32, fmtCI_24_8]
  show decodeCmpi n _ = _
  rw [decodeCmpi, fmtCI_11_3]
  show chk n _ (.cmpiLtu _ _ _) = _
  simp only [fieldBits, fmtCI_0_1, fmtCI_19_5, fmtCI_14_5, fmtCI_1_10]
  exact chk_ok (by rfl)
theorem cmpiGeu (k a imm) : Statement (.cmpiGeu k a imm) := by
  refine narrow rfl (fmtCI_24_8 ..) (by decide) (by decide) rfl fun _ n => ?_
  rw [decode32, fmtCI_24_8]
  show decodeCmpi n _ = _
  rw [decodeCmpi, fmtCI_11_3]
  show chk n _ (.cmpiGeu _ _ _) = _
  simp only [fieldBits, fmtCI_0_1, fmtCI_19_5, fmtCI_14_5, fmtCI_1_10]
  exact chk_ok (by rfl)
theorem sel (d a b inv kb) : Statement (.sel d a b inv kb) := by
  refine narrow rfl (fmtRR_24_8 ..) (by decide) (by decide) rfl fun _ n => ?_
  rw [decode32, fmtRR_24_8]
  show chk n _ (.sel _ _ _ _ _) = _
  simp only [fieldBits, fmtRR_f6_2, fSel_6_2, fmtRR_0_1, fmtRR_19_5, fmtRR_14_5, fmtRR_9_5, fmtRR_fb5, fSel_bit5, fmtRR_f0_5, fSel_0_5]
  exact chk_ok (by rfl)
theorem kget (d) : Statement (.kget d) := by
  refine narrow rfl (fmtRR_24_8 ..) (by decide) (by decide) rfl fun _ n => ?_
  rw [decode32, fmtRR_24_8]
  show decodeKop n _ = _
  rw [decodeKop, fmtRR_1_8]
  show chk n _ (.kget _) = _
  simp only [fieldBits, fmtRR_14_5, fmtRR_9_5, fmtRR_0_1, fmtRR_19_5]
  exact chk_ok (by rfl)
theorem kset (a) : Statement (.kset a) := by
  refine narrow rfl (fmtRR_24_8 ..) (by decide) (by decide) rfl fun _ n => ?_
  rw [decode32, fmtRR_24_8]
  show decodeKop n _ = _
  rw [decodeKop, fmtRR_1_8]
  show chk n _ (.kset _) = _
  simp only [fieldBits, fmtRR_19_5, fmtRR_9_5, fmtRR_0_1, fmtRR_14_5]
  exact chk_ok (by rfl)
theorem kand (d a b) : Statement (.kand d a b) := by
  refine narrow rfl (fmtRR_24_8 ..) (by decide) (by decide) rfl fun _ n => ?_
  rw [decode32, fmtRR_24_8]
  show decodeKop n _ = _
  rw [decodeKop, fmtRR_1_8]
  show chk n _ (.kand _ _ _) = _
  simp only [fieldBits, fmtRR_0_1, fmtRR_19_5, fmtRR_14_5, fmtRR_9_5]
  exact chk_ok (by rfl)
theorem kor (d a b) : Statement (.kor d a b) := by
  refine narrow rfl (fmtRR_24_8 ..) (by decide) (by decide) rfl fun _ n => ?_
  rw [decode32, fmtRR_24_8]
  show decodeKop n _ = _
  rw [decodeKop, fmtRR_1_8]
  show chk n _ (.kor _ _ _) = _
  simp only [fieldBits, fmtRR_0_1, fmtRR_19_5, fmtRR_14_5, fmtRR_9_5]
  exact chk_ok (by rfl)
theorem kxor (d a b) : Statement (.kxor d a b) := by
  refine narrow rfl (fmtRR_24_8 ..) (by decide) (by decide) rfl fun _ n => ?_
  rw [decode32, fmtRR_24_8]
  show decodeKop n _ = _
  rw [decodeKop, fmtRR_1_8]
  show chk n _ (.kxor _ _ _) = _
  simp only [fieldBits, fmtRR_0_1, fmtRR_19_5, fmtRR_14_5, fmtRR_9_5]
  exact chk_ok (by rfl)
theorem knot (d a) : Statement (.knot d a) := by
  refine narrow rfl (fmtRR_24_8 ..) (by decide) (by decide) rfl fun _ n => ?_
  rw [decode32, fmtRR_24_8]
  show decodeKop n _ = _
  rw [decodeKop, fmtRR_1_8]
  show chk n _ (.knot _ _) = _
  simp only [fieldBits, fmtRR_9_5, fmtRR_0_1, fmtRR_19_5, fmtRR_14_5]
  exact chk_ok (by rfl)
theorem srg (d sr) : Statement (.srg d sr) := by
  refine narrow rfl (fmtSR_24_8 ..) (by decide) (by decide) rfl fun _ n => ?_
  rw [decode32, fmtSR_24_8]
  show decodeSrop n _ = _
  rw [decodeSrop, fmtSR_1_8]
  show chk n _ (.srg _ _) = _
  simp only [fieldBits, fmtSR_0_1, fmtSR_19_5, fmtSR_9_10]
  exact chk_ok (by rfl)
theorem srs (d sr) : Statement (.srs d sr) := by
  refine narrow rfl (fmtSR_24_8 ..) (by decide) (by decide) rfl fun _ n => ?_
  rw [decode32, fmtSR_24_8]
  show decodeSrop n _ = _
  rw [decodeSrop, fmtSR_1_8]
  show chk n _ (.srs _ _) = _
  simp only [fieldBits, fmtSR_0_1, fmtSR_19_5, fmtSR_9_10]
  exact chk_ok (by rfl)
theorem srx (d sr) : Statement (.srx d sr) := by
  refine narrow rfl (fmtSR_24_8 ..) (by decide) (by decide) rfl fun _ n => ?_
  rw [decode32, fmtSR_24_8]
  show decodeSrop n _ = _
  rw [decodeSrop, fmtSR_1_8]
  show chk n _ (.srx _ _) = _
  simp only [fieldBits, fmtSR_0_1, fmtSR_19_5, fmtSR_9_10]
  exact chk_ok (by rfl)
theorem fadd (d a b dbl x) : Statement (.fadd d a b dbl x) := by
  refine narrow rfl (fmtRR_24_8 ..) (by decide) (by decide) rfl fun _ n => ?_
  rw [decode32, fmtRR_24_8]
  show decodeFp n _ = _
  rw [decodeFp, fmtRR_f0_7, fW_0_7]
  show Except.ok (Instr.fadd _ _ _ _ _) = _
  simp only [fmtRR_19_5, fmtRR_14_5, fmtRR_9_5, fmtRR_fb7, fW_bit7, fmtRR_bit0]
theorem fsub (d a b dbl x) : Statement (.fsub d a b dbl x) := by
  refine narrow rfl (fmtRR_24_8 ..) (by decide) (by decide) rfl fun _ n => ?_
  rw [decode32, fmtRR_24_8]
  show decodeFp n _ = _
  rw [decodeFp, fmtRR_f0_7, fW_0_7]
  show Except.ok (Instr.fsub _ _ _ _ _) = _
  simp only [fmtRR_19_5, fmtRR_14_5, fmtRR_9_5, fmtRR_fb7, fW_bit7, fmtRR_bit0]
theorem fmul (d a b dbl x) : Statement (.fmul d a b dbl x) := by
  refine narrow rfl (fmtRR_24_8 ..) (by decide) (by decide) rfl fun _ n => ?_
  rw [decode32, fmtRR_24_8]
  show decodeFp n _ = _
  rw [decodeFp, fmtRR_f0_7, fW_0_7]
  show Except.ok (Instr.fmul _ _ _ _ _) = _
  simp only [fmtRR_19_5, fmtRR_14_5, fmtRR_9_5, fmtRR_fb7, fW_bit7, fmtRR_bit0]
theorem fdiv (d a b dbl x) : Statement (.fdiv d a b dbl x) := by
  refine narrow rfl (fmtRR_24_8 ..) (by decide) (by decide) rfl fun _ n => ?_
  rw [decode32, fmtRR_24_8]
  show decodeFp n _ = _
  rw [decodeFp, fmtRR_f0_7, fW_0_7]
  show Except.ok (Instr.fdiv _ _ _ _ _) = _
  simp only [fmtRR_19_5, fmtRR_14_5, fmtRR_9_5, fmtRR_fb7, fW_bit7, fmtRR_bit0]
theorem fsqrt (d a dbl x) : Statement (.fsqrt d a dbl x) := by
  refine narrow rfl (fmtRR_24_8 ..) (by decide) (by decide) rfl fun _ n => ?_
  rw [decode32, fmtRR_24_8]
  show decodeFp n _ = _
  rw [decodeFp, fmtRR_f0_7, fW_0_7]
  show chk n _ (.fsqrt _ _ _ _) = _
  simp only [fieldBits, fmtRR_9_5, fmtRR_19_5, fmtRR_14_5, fmtRR_fb7, fW_bit7, fmtRR_bit0]
  exact chk_ok (by rfl)
theorem fmin (d a b dbl x) : Statement (.fmin d a b dbl x) := by
  refine narrow rfl (fmtRR_24_8 ..) (by decide) (by decide) rfl fun _ n => ?_
  rw [decode32, fmtRR_24_8]
  show decodeFp n _ = _
  rw [decodeFp, fmtRR_f0_7, fW_0_7]
  show Except.ok (Instr.fmin _ _ _ _ _) = _
  simp only [fmtRR_19_5, fmtRR_14_5, fmtRR_9_5, fmtRR_fb7, fW_bit7, fmtRR_bit0]
theorem fmax (d a b dbl x) : Statement (.fmax d a b dbl x) := by
  refine narrow rfl (fmtRR_24_8 ..) (by decide) (by decide) rfl fun _ n => ?_
  rw [decode32, fmtRR_24_8]
  show decodeFp n _ = _
  rw [decodeFp, fmtRR_f0_7, fW_0_7]
  show Except.ok (Instr.fmax _ _ _ _ _) = _
  simp only [fmtRR_19_5, fmtRR_14_5, fmtRR_9_5, fmtRR_fb7, fW_bit7, fmtRR_bit0]
theorem fabs (d a dbl x) : Statement (.fabs d a dbl x) := by
  refine narrow rfl (fmtRR_24_8 ..) (by decide) (by decide) rfl fun _ n => ?_
  rw [decode32, fmtRR_24_8]
  show decodeFp n _ = _
  rw [decodeFp, fmtRR_f0_7, fW_0_7]
  show chk n _ (.fabs _ _ _ _) = _
  simp only [fieldBits, fmtRR_9_5, fmtRR_19_5, fmtRR_14_5, fmtRR_fb7, fW_bit7, fmtRR_bit0]
  exact chk_ok (by rfl)
theorem fneg (d a dbl x) : Statement (.fneg d a dbl x) := by
  refine narrow rfl (fmtRR_24_8 ..) (by decide) (by decide) rfl fun _ n => ?_
  rw [decode32, fmtRR_24_8]
  show decodeFp n _ = _
  rw [decodeFp, fmtRR_f0_7, fW_0_7]
  show chk n _ (.fneg _ _ _ _) = _
  simp only [fieldBits, fmtRR_9_5, fmtRR_19_5, fmtRR_14_5, fmtRR_fb7, fW_bit7, fmtRR_bit0]
  exact chk_ok (by rfl)
theorem fsgnj (d a b dbl x) : Statement (.fsgnj d a b dbl x) := by
  refine narrow rfl (fmtRR_24_8 ..) (by decide) (by decide) rfl fun _ n => ?_
  rw [decode32, fmtRR_24_8]
  show decodeFp n _ = _
  rw [decodeFp, fmtRR_f0_7, fW_0_7]
  show Except.ok (Instr.fsgnj _ _ _ _ _) = _
  simp only [fmtRR_19_5, fmtRR_14_5, fmtRR_9_5, fmtRR_fb7, fW_bit7, fmtRR_bit0]
theorem fclass (d a dbl x) : Statement (.fclass d a dbl x) := by
  refine narrow rfl (fmtRR_24_8 ..) (by decide) (by decide) rfl fun _ n => ?_
  rw [decode32, fmtRR_24_8]
  show decodeFp n _ = _
  rw [decodeFp, fmtRR_f0_7, fW_0_7]
  show chk n _ (.fclass _ _ _ _) = _
  simp only [fieldBits, fmtRR_9_5, fmtRR_19_5, fmtRR_14_5, fmtRR_fb7, fW_bit7, fmtRR_bit0]
  exact chk_ok (by rfl)
theorem frcpa (d a dbl x) : Statement (.frcpa d a dbl x) := by
  refine narrow rfl (fmtRR_24_8 ..) (by decide) (by decide) rfl fun _ n => ?_
  rw [decode32, fmtRR_24_8]
  show decodeFp n _ = _
  rw [decodeFp, fmtRR_f0_7, fW_0_7]
  show chk n _ (.frcpa _ _ _ _) = _
  simp only [fieldBits, fmtRR_9_5, fmtRR_19_5, fmtRR_14_5, fmtRR_fb7, fW_bit7, fmtRR_bit0]
  exact chk_ok (by rfl)
theorem frsqa (d a dbl x) : Statement (.frsqa d a dbl x) := by
  refine narrow rfl (fmtRR_24_8 ..) (by decide) (by decide) rfl fun _ n => ?_
  rw [decode32, fmtRR_24_8]
  show decodeFp n _ = _
  rw [decodeFp, fmtRR_f0_7, fW_0_7]
  show chk n _ (.frsqa _ _ _ _) = _
  simp only [fieldBits, fmtRR_9_5, fmtRR_19_5, fmtRR_14_5, fmtRR_fb7, fW_bit7, fmtRR_bit0]
  exact chk_ok (by rfl)
theorem fexp2a (d a dbl x) : Statement (.fexp2a d a dbl x) := by
  refine narrow rfl (fmtRR_24_8 ..) (by decide) (by decide) rfl fun _ n => ?_
  rw [decode32, fmtRR_24_8]
  show decodeFp n _ = _
  rw [decodeFp, fmtRR_f0_7, fW_0_7]
  show chk n _ (.fexp2a _ _ _ _) = _
  simp only [fieldBits, fmtRR_9_5, fmtRR_19_5, fmtRR_14_5, fmtRR_fb7, fW_bit7, fmtRR_bit0]
  exact chk_ok (by rfl)
theorem flog2a (d a dbl x) : Statement (.flog2a d a dbl x) := by
  refine narrow rfl (fmtRR_24_8 ..) (by decide) (by decide) rfl fun _ n => ?_
  rw [decode32, fmtRR_24_8]
  show decodeFp n _ = _
  rw [decodeFp, fmtRR_f0_7, fW_0_7]
  show chk n _ (.flog2a _ _ _ _) = _
  simp only [fieldBits, fmtRR_9_5, fmtRR_19_5, fmtRR_14_5, fmtRR_fb7, fW_bit7, fmtRR_bit0]
  exact chk_ok (by rfl)
theorem fma (d a b c dbl x) : Statement (.fma d a b c dbl x) := by
  refine narrow rfl (fmtF4_24_8 ..) (by decide) (by decide) rfl fun _ n => ?_
  rw [decode32, fmtF4_24_8]
  show decodeFma n _ = _
  rw [decodeFma, fmtF4_op2, opP_0_2]
  show Except.ok (Instr.fma _ _ _ _ _ _) = _
  simp only [fmtF4_19_5, fmtF4_14_5, fmtF4_9_5, fmtF4_4_5, fmtF4_op_2, opP_bit2, fmtF4_bit0]
theorem fms (d a b c dbl x) : Statement (.fms d a b c dbl x) := by
  refine narrow rfl (fmtF4_24_8 ..) (by decide) (by decide) rfl fun _ n => ?_
  rw [decode32, fmtF4_24_8]
  show decodeFma n _ = _
  rw [decodeFma, fmtF4_op2, opP_0_2]
  show Except.ok (Instr.fms _ _ _ _ _ _) = _
  simp only [fmtF4_19_5, fmtF4_14_5, fmtF4_9_5, fmtF4_4_5, fmtF4_op_2, opP_bit2, fmtF4_bit0]
theorem fnma (d a b c dbl x) : Statement (.fnma d a b c dbl x) := by
  refine narrow rfl (fmtF4_24_8 ..) (by decide) (by decide) rfl fun _ n => ?_
  rw [decode32, fmtF4_24_8]
  show decodeFma n _ = _
  rw [decodeFma, fmtF4_op2, opP_0_2]
  show Except.ok (Instr.fnma _ _ _ _ _ _) = _
  simp only [fmtF4_19_5, fmtF4_14_5, fmtF4_9_5, fmtF4_4_5, fmtF4_op_2, opP_bit2, fmtF4_bit0]
theorem fnms (d a b c dbl x) : Statement (.fnms d a b c dbl x) := by
  refine narrow rfl (fmtF4_24_8 ..) (by decide) (by decide) rfl fun _ n => ?_
  rw [decode32, fmtF4_24_8]
  show decodeFma n _ = _
  rw [decodeFma, fmtF4_op2, opP_0_2]
  show Except.ok (Instr.fnms _ _ _ _ _ _) = _
  simp only [fmtF4_19_5, fmtF4_14_5, fmtF4_9_5, fmtF4_4_5, fmtF4_op_2, opP_bit2, fmtF4_bit0]
theorem fcmpEq (k a b dbl x) : Statement (.fcmpEq k a b dbl x) := by
  refine narrow rfl (fmtRR_24_8 ..) (by decide) (by decide) rfl fun _ n => ?_
  rw [decode32, fmtRR_24_8]
  show decodeFcmp n _ = _
  rw [decodeFcmp, fmtRR_f0_3, fW_0_3]
  show chk n _ (.fcmpEq _ _ _ _ _) = _
  simp only [fieldBits, fmtRR_f3_4, fW_3_4, fmtRR_19_5, fmtRR_14_5, fmtRR_9_5, fmtRR_fb7, fW_bit7, fmtRR_bit0]
  exact chk_ok (by rfl)
theorem fcmpLt (k a b dbl x) : Statement (.fcmpLt k a b dbl x) := by
  refine narrow rfl (fmtRR_24_8 ..) (by decide) (by decide) rfl fun _ n => ?_
  rw [decode32, fmtRR_24_8]
  show decodeFcmp n _ = _
  rw [decodeFcmp, fmtRR_f0_3, fW_0_3]
  show chk n _ (.fcmpLt _ _ _ _ _) = _
  simp only [fieldBits, fmtRR_f3_4, fW_3_4, fmtRR_19_5, fmtRR_14_5, fmtRR_9_5, fmtRR_fb7, fW_bit7, fmtRR_bit0]
  exact chk_ok (by rfl)
theorem fcmpLe (k a b dbl x) : Statement (.fcmpLe k a b dbl x) := by
  refine narrow rfl (fmtRR_24_8 ..) (by decide) (by decide) rfl fun _ n => ?_
  rw [decode32, fmtRR_24_8]
  show decodeFcmp n _ = _
  rw [decodeFcmp, fmtRR_f0_3, fW_0_3]
  show chk n _ (.fcmpLe _ _ _ _ _) = _
  simp only [fieldBits, fmtRR_f3_4, fW_3_4, fmtRR_19_5, fmtRR_14_5, fmtRR_9_5, fmtRR_fb7, fW_bit7, fmtRR_bit0]
  exact chk_ok (by rfl)
theorem fcmpUn (k a b dbl x) : Statement (.fcmpUn k a b dbl x) := by
  refine narrow rfl (fmtRR_24_8 ..) (by decide) (by decide) rfl fun _ n => ?_
  rw [decode32, fmtRR_24_8]
  show decodeFcmp n _ = _
  rw [decodeFcmp, fmtRR_f0_3, fW_0_3]
  show chk n _ (.fcmpUn _ _ _ _ _) = _
  simp only [fieldBits, fmtRR_f3_4, fW_3_4, fmtRR_19_5, fmtRR_14_5, fmtRR_9_5, fmtRR_fb7, fW_bit7, fmtRR_bit0]
  exact chk_ok (by rfl)
theorem fcmpEqs (k a b dbl x) : Statement (.fcmpEqs k a b dbl x) := by
  refine narrow rfl (fmtRR_24_8 ..) (by decide) (by decide) rfl fun _ n => ?_
  rw [decode32, fmtRR_24_8]
  show decodeFcmp n _ = _
  rw [decodeFcmp, fmtRR_f0_3, fW_0_3]
  show chk n _ (.fcmpEqs _ _ _ _ _) = _
  simp only [fieldBits, fmtRR_f3_4, fW_3_4, fmtRR_19_5, fmtRR_14_5, fmtRR_9_5, fmtRR_fb7, fW_bit7, fmtRR_bit0]
  exact chk_ok (by rfl)
theorem fcvt (d a src dst x) : Statement (.fcvt d a src dst x) := by
  refine narrow rfl (fmtRR_24_8 ..) (by decide) (by decide) rfl fun hw n => ?_
  rw [decode32, fmtRR_24_8]
  show (if 13 ≤ ((fmtRR ..).extractLsb' 5 4).toNat ∨ 13 ≤ ((fmtRR ..).extractLsb' 1 4).toNat then _ else chk n _ (.fcvt _ _ _ _ _)) = _
  have h : src.toNat < 13 ∧ dst.toNat < 13 := by simpa [Instr.wf] using hw
  rw [if_neg (by rw [fmtRR_f4_4, fCvt_4_4, fmtRR_f0_4, fCvt_0_4]; omega)]
  simp only [fieldBits, fmtRR_9_5, fmtRR_19_5, fmtRR_14_5, fmtRR_f4_4, fCvt_4_4, fmtRR_f0_4, fCvt_0_4, fmtRR_bit0]
  exact chk_ok (by rfl)
theorem ldb (d a seg off x) : Statement (.ldb d a seg off x) := by
  refine narrow rfl (fmtMEM_24_8 ..) (by decide) (by decide) rfl fun _ n => ?_
  rw [decode32, fmtMEM_24_8]
  show Except.ok (Instr.ldb _ _ _ _ _) = _
  simp only [fmtMEM_19_5, fmtMEM_14_5, fmtMEM_11_3, fmtMEM_1_10, fmtMEM_bit0]
theorem ldbu (d a seg off x) : Statement (.ldbu d a seg off x) := by
  refine narrow rfl (fmtMEM_24_8 ..) (by decide) (by decide) rfl fun _ n => ?_
  rw [decode32, fmtMEM_24_8]
  show Except.ok (Instr.ldbu _ _ _ _ _) = _
  simp only [fmtMEM_19_5, fmtMEM_14_5, fmtMEM_11_3, fmtMEM_1_10, fmtMEM_bit0]
theorem ldh (d a seg off x) : Statement (.ldh d a seg off x) := by
  refine narrow rfl (fmtMEM_24_8 ..) (by decide) (by decide) rfl fun _ n => ?_
  rw [decode32, fmtMEM_24_8]
  show Except.ok (Instr.ldh _ _ _ _ _) = _
  simp only [fmtMEM_19_5, fmtMEM_14_5, fmtMEM_11_3, fmtMEM_1_10, fmtMEM_bit0]
theorem ldhu (d a seg off x) : Statement (.ldhu d a seg off x) := by
  refine narrow rfl (fmtMEM_24_8 ..) (by decide) (by decide) rfl fun _ n => ?_
  rw [decode32, fmtMEM_24_8]
  show Except.ok (Instr.ldhu _ _ _ _ _) = _
  simp only [fmtMEM_19_5, fmtMEM_14_5, fmtMEM_11_3, fmtMEM_1_10, fmtMEM_bit0]
theorem ldw (d a seg off x) : Statement (.ldw d a seg off x) := by
  refine narrow rfl (fmtMEM_24_8 ..) (by decide) (by decide) rfl fun _ n => ?_
  rw [decode32, fmtMEM_24_8]
  show Except.ok (Instr.ldw _ _ _ _ _) = _
  simp only [fmtMEM_19_5, fmtMEM_14_5, fmtMEM_11_3, fmtMEM_1_10, fmtMEM_bit0]
theorem ldwu (d a seg off x) : Statement (.ldwu d a seg off x) := by
  refine narrow rfl (fmtMEM_24_8 ..) (by decide) (by decide) rfl fun _ n => ?_
  rw [decode32, fmtMEM_24_8]
  show Except.ok (Instr.ldwu _ _ _ _ _) = _
  simp only [fmtMEM_19_5, fmtMEM_14_5, fmtMEM_11_3, fmtMEM_1_10, fmtMEM_bit0]
theorem ldd (d a seg off x) : Statement (.ldd d a seg off x) := by
  refine narrow rfl (fmtMEM_24_8 ..) (by decide) (by decide) rfl fun _ n => ?_
  rw [decode32, fmtMEM_24_8]
  show Except.ok (Instr.ldd _ _ _ _ _) = _
  simp only [fmtMEM_19_5, fmtMEM_14_5, fmtMEM_11_3, fmtMEM_1_10, fmtMEM_bit0]
theorem stb (d a seg off x) : Statement (.stb d a seg off x) := by
  refine narrow rfl (fmtMEM_24_8 ..) (by decide) (by decide) rfl fun _ n => ?_
  rw [decode32, fmtMEM_24_8]
  show Except.ok (Instr.stb _ _ _ _ _) = _
  simp only [fmtMEM_19_5, fmtMEM_14_5, fmtMEM_11_3, fmtMEM_1_10, fmtMEM_bit0]
theorem sth (d a seg off x) : Statement (.sth d a seg off x) := by
  refine narrow rfl (fmtMEM_24_8 ..) (by decide) (by decide) rfl fun _ n => ?_
  rw [decode32, fmtMEM_24_8]
  show Except.ok (Instr.sth _ _ _ _ _) = _
  simp only [fmtMEM_19_5, fmtMEM_14_5, fmtMEM_11_3, fmtMEM_1_10, fmtMEM_bit0]
theorem stw (d a seg off x) : Statement (.stw d a seg off x) := by
  refine narrow rfl (fmtMEM_24_8 ..) (by decide) (by decide) rfl fun _ n => ?_
  rw [decode32, fmtMEM_24_8]
  show Except.ok (Instr.stw _ _ _ _ _) = _
  simp only [fmtMEM_19_5, fmtMEM_14_5, fmtMEM_11_3, fmtMEM_1_10, fmtMEM_bit0]
theorem std (d a seg off x) : Statement (.std d a seg off x) := by
  refine narrow rfl (fmtMEM_24_8 ..) (by decide) (by decide) rfl fun _ n => ?_
  rw [decode32, fmtMEM_24_8]
  show Except.ok (Instr.std _ _ _ _ _) = _
  simp only [fmtMEM_19_5, fmtMEM_14_5, fmtMEM_11_3, fmtMEM_1_10, fmtMEM_bit0]
theorem ldfk (d a seg off) : Statement (.ldfk d a seg off) := by
  refine narrow rfl (fmtMEM_24_8 ..) (by decide) (by decide) rfl fun _ n => ?_
  rw [decode32, fmtMEM_24_8]
  show chk n _ (.ldfk _ _ _ _) = _
  simp only [fieldBits, fmtMEM_0_1, fmtMEM_19_5, fmtMEM_14_5, fmtMEM_11_3, fmtMEM_1_10]
  exact chk_ok (by rfl)
theorem ldfc (d a seg off) : Statement (.ldfc d a seg off) := by
  refine narrow rfl (fmtMEM_24_8 ..) (by decide) (by decide) rfl fun _ n => ?_
  rw [decode32, fmtMEM_24_8]
  show chk n _ (.ldfc _ _ _ _) = _
  simp only [fieldBits, fmtMEM_0_1, fmtMEM_19_5, fmtMEM_14_5, fmtMEM_11_3, fmtMEM_1_10]
  exact chk_ok (by rfl)
theorem stfe (d a seg off) : Statement (.stfe d a seg off) := by
  refine narrow rfl (fmtMEM_24_8 ..) (by decide) (by decide) rfl fun _ n => ?_
  rw [decode32, fmtMEM_24_8]
  show chk n _ (.stfe _ _ _ _) = _
  simp only [fieldBits, fmtMEM_0_1, fmtMEM_19_5, fmtMEM_14_5, fmtMEM_11_3, fmtMEM_1_10]
  exact chk_ok (by rfl)
theorem stfs (d a seg off) : Statement (.stfs d a seg off) := by
  refine narrow rfl (fmtMEM_24_8 ..) (by decide) (by decide) rfl fun _ n => ?_
  rw [decode32, fmtMEM_24_8]
  show chk n _ (.stfs _ _ _ _) = _
  simp only [fieldBits, fmtMEM_0_1, fmtMEM_19_5, fmtMEM_14_5, fmtMEM_11_3, fmtMEM_1_10]
  exact chk_ok (by rfl)
theorem feset (a seg off) : Statement (.feset a seg off) := by
  refine narrow rfl (fmtMEM_24_8 ..) (by decide) (by decide) rfl fun _ n => ?_
  rw [decode32, fmtMEM_24_8]
  show decodeFetag n _ = _
  rw [decodeFetag, fmtMEM_o8_2, offTag_8_2]
  show chk n _ (.feset _ _ _) = _
  simp only [fieldBits, fmtMEM_19_5, fmtMEM_0_1, fmtMEM_14_5, fmtMEM_11_3, fmtMEM_o8, offTag_0_8]
  exact chk_ok (by rfl)
theorem feclr (a seg off) : Statement (.feclr a seg off) := by
  refine narrow rfl (fmtMEM_24_8 ..) (by decide) (by decide) rfl fun _ n => ?_
  rw [decode32, fmtMEM_24_8]
  show decodeFetag n _ = _
  rw [decodeFetag, fmtMEM_o8_2, offTag_8_2]
  show chk n _ (.feclr _ _ _) = _
  simp only [fieldBits, fmtMEM_19_5, fmtMEM_0_1, fmtMEM_14_5, fmtMEM_11_3, fmtMEM_o8, offTag_0_8]
  exact chk_ok (by rfl)
theorem feget (d a seg off) : Statement (.feget d a seg off) := by
  refine narrow rfl (fmtMEM_24_8 ..) (by decide) (by decide) rfl fun _ n => ?_
  rw [decode32, fmtMEM_24_8]
  show decodeFetag n _ = _
  rw [decodeFetag, fmtMEM_o8_2, offTag_8_2]
  show chk n _ (.feget _ _ _ _) = _
  simp only [fieldBits, fmtMEM_0_1, fmtMEM_19_5, fmtMEM_14_5, fmtMEM_11_3, fmtMEM_o8, offTag_0_8]
  exact chk_ok (by rfl)
theorem lea (d a seg off) : Statement (.lea d a seg off) := by
  refine narrow rfl (fmtMEM_24_8 ..) (by decide) (by decide) rfl fun _ n => ?_
  rw [decode32, fmtMEM_24_8]
  show chk n _ (.lea _ _ _ _) = _
  simp only [fieldBits, fmtMEM_0_1, fmtMEM_19_5, fmtMEM_14_5, fmtMEM_11_3, fmtMEM_1_10]
  exact chk_ok (by rfl)
theorem segld (d a) : Statement (.segld d a) := by
  refine narrow rfl (fmtRR_24_8 ..) (by decide) (by decide) rfl fun hw n => ?_
  rw [decode32, fmtRR_24_8]
  show decodeSegop n _ = _
  rw [decodeSegop, fmtRR_1_8]
  show chk n _ (.segld _ _) = _
  simp only [fieldBits, fmtRR_9_5, fmtRR_0_1, fmtRR_d3, fmtRR_19_5, fmtRR_14_5, low_zero (lo := 3) (of_decide_eq_true hw)]
  exact chk_ok (by rfl)
theorem segget (d a b) : Statement (.segget d a b) := by
  refine narrow rfl (fmtRR_24_8 ..) (by decide) (by decide) rfl fun hw n => ?_
  rw [decode32, fmtRR_24_8]
  show decodeSegop n _ = _
  rw [decodeSegop, fmtRR_1_8]
  show chk n _ (.segget _ _ _) = _
  have h : a.toNat < 2 ^ 3 ∧ b.toNat < 2 ^ 1 := by simpa [Instr.wf] using hw
  simp only [fieldBits, fmtRR_0_1, fmtRR_a3, fmtRR_b1, fmtRR_19_5, fmtRR_14_5, fmtRR_9_5, low_zero (lo := 3) h.1, low_zero (lo := 1) h.2]
  exact chk_ok (by rfl)
theorem segchk (d a b) : Statement (.segchk d a b) := by
  refine narrow rfl (fmtRR_24_8 ..) (by decide) (by decide) rfl fun hw n => ?_
  rw [decode32, fmtRR_24_8]
  show decodeSegop n _ = _
  rw [decodeSegop, fmtRR_1_8]
  show chk n _ (.segchk _ _ _) = _
  simp only [fieldBits, fmtRR_0_1, fmtRR_a3, fmtRR_19_5, fmtRR_14_5, fmtRR_9_5, low_zero (lo := 3) (of_decide_eq_true hw)]
  exact chk_ok (by rfl)
theorem amoSwap (d a b seg x) : Statement (.amoSwap d a b seg x) := by
  refine narrow rfl (fmtAMO_24_8 ..) (by decide) (by decide) rfl fun _ n => ?_
  rw [decode32, fmtAMO_24_8]
  show decodeAmo n _ = _
  rw [decodeAmo, fmtAMO_1_5]
  show Except.ok (Instr.amoSwap _ _ _ _ _) = _
  simp only [fmtAMO_19_5, fmtAMO_14_5, fmtAMO_9_5, fmtAMO_6_3, fmtAMO_bit0]
theorem amoAdd (d a b seg x) : Statement (.amoAdd d a b seg x) := by
  refine narrow rfl (fmtAMO_24_8 ..) (by decide) (by decide) rfl fun _ n => ?_
  rw [decode32, fmtAMO_24_8]
  show decodeAmo n _ = _
  rw [decodeAmo, fmtAMO_1_5]
  show Except.ok (Instr.amoAdd _ _ _ _ _) = _
  simp only [fmtAMO_19_5, fmtAMO_14_5, fmtAMO_9_5, fmtAMO_6_3, fmtAMO_bit0]
theorem amoAnd (d a b seg x) : Statement (.amoAnd d a b seg x) := by
  refine narrow rfl (fmtAMO_24_8 ..) (by decide) (by decide) rfl fun _ n => ?_
  rw [decode32, fmtAMO_24_8]
  show decodeAmo n _ = _
  rw [decodeAmo, fmtAMO_1_5]
  show Except.ok (Instr.amoAnd _ _ _ _ _) = _
  simp only [fmtAMO_19_5, fmtAMO_14_5, fmtAMO_9_5, fmtAMO_6_3, fmtAMO_bit0]
theorem amoOr (d a b seg x) : Statement (.amoOr d a b seg x) := by
  refine narrow rfl (fmtAMO_24_8 ..) (by decide) (by decide) rfl fun _ n => ?_
  rw [decode32, fmtAMO_24_8]
  show decodeAmo n _ = _
  rw [decodeAmo, fmtAMO_1_5]
  show Except.ok (Instr.amoOr _ _ _ _ _) = _
  simp only [fmtAMO_19_5, fmtAMO_14_5, fmtAMO_9_5, fmtAMO_6_3, fmtAMO_bit0]
theorem amoXor (d a b seg x) : Statement (.amoXor d a b seg x) := by
  refine narrow rfl (fmtAMO_24_8 ..) (by decide) (by decide) rfl fun _ n => ?_
  rw [decode32, fmtAMO_24_8]
  show decodeAmo n _ = _
  rw [decodeAmo, fmtAMO_1_5]
  show Except.ok (Instr.amoXor _ _ _ _ _) = _
  simp only [fmtAMO_19_5, fmtAMO_14_5, fmtAMO_9_5, fmtAMO_6_3, fmtAMO_bit0]
theorem amoMin (d a b seg x) : Statement (.amoMin d a b seg x) := by
  refine narrow rfl (fmtAMO_24_8 ..) (by decide) (by decide) rfl fun _ n => ?_
  rw [decode32, fmtAMO_24_8]
  show decodeAmo n _ = _
  rw [decodeAmo, fmtAMO_1_5]
  show Except.ok (Instr.amoMin _ _ _ _ _) = _
  simp only [fmtAMO_19_5, fmtAMO_14_5, fmtAMO_9_5, fmtAMO_6_3, fmtAMO_bit0]
theorem amoMax (d a b seg x) : Statement (.amoMax d a b seg x) := by
  refine narrow rfl (fmtAMO_24_8 ..) (by decide) (by decide) rfl fun _ n => ?_
  rw [decode32, fmtAMO_24_8]
  show decodeAmo n _ = _
  rw [decodeAmo, fmtAMO_1_5]
  show Except.ok (Instr.amoMax _ _ _ _ _) = _
  simp only [fmtAMO_19_5, fmtAMO_14_5, fmtAMO_9_5, fmtAMO_6_3, fmtAMO_bit0]
theorem amoMinu (d a b seg x) : Statement (.amoMinu d a b seg x) := by
  refine narrow rfl (fmtAMO_24_8 ..) (by decide) (by decide) rfl fun _ n => ?_
  rw [decode32, fmtAMO_24_8]
  show decodeAmo n _ = _
  rw [decodeAmo, fmtAMO_1_5]
  show Except.ok (Instr.amoMinu _ _ _ _ _) = _
  simp only [fmtAMO_19_5, fmtAMO_14_5, fmtAMO_9_5, fmtAMO_6_3, fmtAMO_bit0]
theorem amoMaxu (d a b seg x) : Statement (.amoMaxu d a b seg x) := by
  refine narrow rfl (fmtAMO_24_8 ..) (by decide) (by decide) rfl fun _ n => ?_
  rw [decode32, fmtAMO_24_8]
  show decodeAmo n _ = _
  rw [decodeAmo, fmtAMO_1_5]
  show Except.ok (Instr.amoMaxu _ _ _ _ _) = _
  simp only [fmtAMO_19_5, fmtAMO_14_5, fmtAMO_9_5, fmtAMO_6_3, fmtAMO_bit0]
theorem amoFaddS (d a b seg x) : Statement (.amoFaddS d a b seg x) := by
  refine narrow rfl (fmtAMO_24_8 ..) (by decide) (by decide) rfl fun _ n => ?_
  rw [decode32, fmtAMO_24_8]
  show decodeAmo n _ = _
  rw [decodeAmo, fmtAMO_1_5]
  show Except.ok (Instr.amoFaddS _ _ _ _ _) = _
  simp only [fmtAMO_19_5, fmtAMO_14_5, fmtAMO_9_5, fmtAMO_6_3, fmtAMO_bit0]
theorem amoFaddD (d a b seg x) : Statement (.amoFaddD d a b seg x) := by
  refine narrow rfl (fmtAMO_24_8 ..) (by decide) (by decide) rfl fun _ n => ?_
  rw [decode32, fmtAMO_24_8]
  show decodeAmo n _ = _
  rw [decodeAmo, fmtAMO_1_5]
  show Except.ok (Instr.amoFaddD _ _ _ _ _) = _
  simp only [fmtAMO_19_5, fmtAMO_14_5, fmtAMO_9_5, fmtAMO_6_3, fmtAMO_bit0]
theorem amoFminS (d a b seg x) : Statement (.amoFminS d a b seg x) := by
  refine narrow rfl (fmtAMO_24_8 ..) (by decide) (by decide) rfl fun _ n => ?_
  rw [decode32, fmtAMO_24_8]
  show decodeAmo n _ = _
  rw [decodeAmo, fmtAMO_1_5]
  show Except.ok (Instr.amoFminS _ _ _ _ _) = _
  simp only [fmtAMO_19_5, fmtAMO_14_5, fmtAMO_9_5, fmtAMO_6_3, fmtAMO_bit0]
theorem amoFmaxS (d a b seg x) : Statement (.amoFmaxS d a b seg x) := by
  refine narrow rfl (fmtAMO_24_8 ..) (by decide) (by decide) rfl fun _ n => ?_
  rw [decode32, fmtAMO_24_8]
  show decodeAmo n _ = _
  rw [decodeAmo, fmtAMO_1_5]
  show Except.ok (Instr.amoFmaxS _ _ _ _ _) = _
  simp only [fmtAMO_19_5, fmtAMO_14_5, fmtAMO_9_5, fmtAMO_6_3, fmtAMO_bit0]
theorem cas (d a b seg x) : Statement (.cas d a b seg x) := by
  refine narrow rfl (fmtAMO_24_8 ..) (by decide) (by decide) rfl fun _ n => ?_
  rw [decode32, fmtAMO_24_8]
  show chk n _ (.cas _ _ _ _ _) = _
  simp only [fieldBits, fmtAMO_1_5, fmtAMO_19_5, fmtAMO_14_5, fmtAMO_9_5, fmtAMO_6_3, fmtAMO_bit0]
  exact chk_ok (by rfl)
theorem redSwap (a b seg x) : Statement (.redSwap a b seg x) := by
  refine narrow rfl (fmtAMO_24_8 ..) (by decide) (by decide) rfl fun _ n => ?_
  rw [decode32, fmtAMO_24_8]
  show decodeRed n _ = _
  rw [decodeRed, fmtAMO_1_5]
  show chk n _ (.redSwap _ _ _ _) = _
  simp only [fieldBits, fmtAMO_19_5, fmtAMO_14_5, fmtAMO_9_5, fmtAMO_6_3, fmtAMO_bit0]
  exact chk_ok (by rfl)
theorem redAdd (a b seg x) : Statement (.redAdd a b seg x) := by
  refine narrow rfl (fmtAMO_24_8 ..) (by decide) (by decide) rfl fun _ n => ?_
  rw [decode32, fmtAMO_24_8]
  show decodeRed n _ = _
  rw [decodeRed, fmtAMO_1_5]
  show chk n _ (.redAdd _ _ _ _) = _
  simp only [fieldBits, fmtAMO_19_5, fmtAMO_14_5, fmtAMO_9_5, fmtAMO_6_3, fmtAMO_bit0]
  exact chk_ok (by rfl)
theorem redAnd (a b seg x) : Statement (.redAnd a b seg x) := by
  refine narrow rfl (fmtAMO_24_8 ..) (by decide) (by decide) rfl fun _ n => ?_
  rw [decode32, fmtAMO_24_8]
  show decodeRed n _ = _
  rw [decodeRed, fmtAMO_1_5]
  show chk n _ (.redAnd _ _ _ _) = _
  simp only [fieldBits, fmtAMO_19_5, fmtAMO_14_5, fmtAMO_9_5, fmtAMO_6_3, fmtAMO_bit0]
  exact chk_ok (by rfl)
theorem redOr (a b seg x) : Statement (.redOr a b seg x) := by
  refine narrow rfl (fmtAMO_24_8 ..) (by decide) (by decide) rfl fun _ n => ?_
  rw [decode32, fmtAMO_24_8]
  show decodeRed n _ = _
  rw [decodeRed, fmtAMO_1_5]
  show chk n _ (.redOr _ _ _ _) = _
  simp only [fieldBits, fmtAMO_19_5, fmtAMO_14_5, fmtAMO_9_5, fmtAMO_6_3, fmtAMO_bit0]
  exact chk_ok (by rfl)
theorem redXor (a b seg x) : Statement (.redXor a b seg x) := by
  refine narrow rfl (fmtAMO_24_8 ..) (by decide) (by decide) rfl fun _ n => ?_
  rw [decode32, fmtAMO_24_8]
  show decodeRed n _ = _
  rw [decodeRed, fmtAMO_1_5]
  show chk n _ (.redXor _ _ _ _) = _
  simp only [fieldBits, fmtAMO_19_5, fmtAMO_14_5, fmtAMO_9_5, fmtAMO_6_3, fmtAMO_bit0]
  exact chk_ok (by rfl)
theorem redMin (a b seg x) : Statement (.redMin a b seg x) := by
  refine narrow rfl (fmtAMO_24_8 ..) (by decide) (by decide) rfl fun _ n => ?_
  rw [decode32, fmtAMO_24_8]
  show decodeRed n _ = _
  rw [decodeRed, fmtAMO_1_5]
  show chk n _ (.redMin _ _ _ _) = _
  simp only [fieldBits, fmtAMO_19_5, fmtAMO_14_5, fmtAMO_9_5, fmtAMO_6_3, fmtAMO_bit0]
  exact chk_ok (by rfl)
theorem redMax (a b seg x) : Statement (.redMax a b seg x) := by
  refine narrow rfl (fmtAMO_24_8 ..) (by decide) (by decide) rfl fun _ n => ?_
  rw [decode32, fmtAMO_24_8]
  show decodeRed n _ = _
  rw [decodeRed, fmtAMO_1_5]
  show chk n _ (.redMax _ _ _ _) = _
  simp only [fieldBits, fmtAMO_19_5, fmtAMO_14_5, fmtAMO_9_5, fmtAMO_6_3, fmtAMO_bit0]
  exact chk_ok (by rfl)
theorem redMinu (a b seg x) : Statement (.redMinu a b seg x) := by
  refine narrow rfl (fmtAMO_24_8 ..) (by decide) (by decide) rfl fun _ n => ?_
  rw [decode32, fmtAMO_24_8]
  show decodeRed n _ = _
  rw [decodeRed, fmtAMO_1_5]
  show chk n _ (.redMinu _ _ _ _) = _
  simp only [fieldBits, fmtAMO_19_5, fmtAMO_14_5, fmtAMO_9_5, fmtAMO_6_3, fmtAMO_bit0]
  exact chk_ok (by rfl)
theorem redMaxu (a b seg x) : Statement (.redMaxu a b seg x) := by
  refine narrow rfl (fmtAMO_24_8 ..) (by decide) (by decide) rfl fun _ n => ?_
  rw [decode32, fmtAMO_24_8]
  show decodeRed n _ = _
  rw [decodeRed, fmtAMO_1_5]
  show chk n _ (.redMaxu _ _ _ _) = _
  simp only [fieldBits, fmtAMO_19_5, fmtAMO_14_5, fmtAMO_9_5, fmtAMO_6_3, fmtAMO_bit0]
  exact chk_ok (by rfl)
theorem redFaddS (a b seg x) : Statement (.redFaddS a b seg x) := by
  refine narrow rfl (fmtAMO_24_8 ..) (by decide) (by decide) rfl fun _ n => ?_
  rw [decode32, fmtAMO_24_8]
  show decodeRed n _ = _
  rw [decodeRed, fmtAMO_1_5]
  show chk n _ (.redFaddS _ _ _ _) = _
  simp only [fieldBits, fmtAMO_19_5, fmtAMO_14_5, fmtAMO_9_5, fmtAMO_6_3, fmtAMO_bit0]
  exact chk_ok (by rfl)
theorem redFaddD (a b seg x) : Statement (.redFaddD a b seg x) := by
  refine narrow rfl (fmtAMO_24_8 ..) (by decide) (by decide) rfl fun _ n => ?_
  rw [decode32, fmtAMO_24_8]
  show decodeRed n _ = _
  rw [decodeRed, fmtAMO_1_5]
  show chk n _ (.redFaddD _ _ _ _) = _
  simp only [fieldBits, fmtAMO_19_5, fmtAMO_14_5, fmtAMO_9_5, fmtAMO_6_3, fmtAMO_bit0]
  exact chk_ok (by rfl)
theorem redFminS (a b seg x) : Statement (.redFminS a b seg x) := by
  refine narrow rfl (fmtAMO_24_8 ..) (by decide) (by decide) rfl fun _ n => ?_
  rw [decode32, fmtAMO_24_8]
  show decodeRed n _ = _
  rw [decodeRed, fmtAMO_1_5]
  show chk n _ (.redFminS _ _ _ _) = _
  simp only [fieldBits, fmtAMO_19_5, fmtAMO_14_5, fmtAMO_9_5, fmtAMO_6_3, fmtAMO_bit0]
  exact chk_ok (by rfl)
theorem redFmaxS (a b seg x) : Statement (.redFmaxS a b seg x) := by
  refine narrow rfl (fmtAMO_24_8 ..) (by decide) (by decide) rfl fun _ n => ?_
  rw [decode32, fmtAMO_24_8]
  show decodeRed n _ = _
  rw [decodeRed, fmtAMO_1_5]
  show chk n _ (.redFmaxS _ _ _ _) = _
  simp only [fieldBits, fmtAMO_19_5, fmtAMO_14_5, fmtAMO_9_5, fmtAMO_6_3, fmtAMO_bit0]
  exact chk_ok (by rfl)
theorem mig (a b) : Statement (.mig a b) := by
  refine narrow rfl (fmtRR_24_8 ..) (by decide) (by decide) rfl fun hw n => ?_
  rw [decode32, fmtRR_24_8]
  show decodeMigop n _ = _
  rw [decodeMigop, fmtRR_1_8]
  show chk n _ (.mig _ _) = _
  simp only [fieldBits, fmtRR_19_5, fmtRR_0_1, fmtRR_b3, fmtRR_14_5, fmtRR_9_5, low_zero (lo := 3) (of_decide_eq_true hw)]
  exact chk_ok (by rfl)
theorem home : Statement (.home) := narrow rfl rfl (by decide) (by decide) rfl fun _ _ => rfl
theorem dlg (t) : Statement (.dlg t) := by
  obtain ⟨d, a, b, f, x, w1⟩ := t
  refine wide rfl (fmtRR_24_8 ..) (by decide) (by decide) fun hw l n h => ?_
  have hw : x = false ∧ d = 0 ∧ b = 0 ∧ f &&& 0xF8 = 0 ∧ w1 &&& 3 = 0 := by
    simpa [Instr.wf, T64.noX, T64.noD, T64.noA, T64.noB, T64.noF, T64.noW, T64.feOk, T64.fe0, T64.h, T64.fe, and_assoc] using hw
  obtain ⟨hx, hd, hb, hf, hw1⟩ := hw
  subst hx
  subst hd
  subst hb
  rw [decode64, h, if_neg Bool.false_ne_true, fmtT64_eq, fmtRR_m6]
  show chk64 n _ _ _ _ (.dlg (t64Of _ _)) = _
  rw [chk64_ok (and_or_zero (and_or_zero (and_or_zero t64_X t64_D) t64_B) (t64_F _ hf)) hw1]
  rw [t64Of, fmtRR_19_5, fmtRR_14_5, fmtRR_9_5, fmtRR_1_8, fmtRR_bit0]
theorem dlgret : Statement (.dlgret) := narrow rfl rfl (by decide) (by decide) rfl fun _ _ => rfl
theorem beq (a b disp) : Statement (.beq a b disp) := by
  refine narrow rfl (fmtBR_24_8 ..) (by decide) (by decide) rfl fun _ n => ?_
  rw [decode32, fmtBR_24_8]
  show Except.ok (Instr.beq _ _ _) = _
  simp only [fmtBR_19_5, fmtBR_14_5, fmtBR_0_14]
theorem bne (a b disp) : Statement (.bne a b disp) := by
  refine narrow rfl (fmtBR_24_8 ..) (by decide) (by decide) rfl fun _ n => ?_
  rw [decode32, fmtBR_24_8]
  show Except.ok (Instr.bne _ _ _) = _
  simp only [fmtBR_19_5, fmtBR_14_5, fmtBR_0_14]
theorem blt (a b disp) : Statement (.blt a b disp) := by
  refine narrow rfl (fmtBR_24_8 ..) (by decide) (by decide) rfl fun _ n => ?_
  rw [decode32, fmtBR_24_8]
  show Except.ok (Instr.blt _ _ _) = _
  simp only [fmtBR_19_5, fmtBR_14_5, fmtBR_0_14]
theorem bge (a b disp) : Statement (.bge a b disp) := by
  refine narrow rfl (fmtBR_24_8 ..) (by decide) (by decide) rfl fun _ n => ?_
  rw [decode32, fmtBR_24_8]
  show Except.ok (Instr.bge _ _ _) = _
  simp only [fmtBR_19_5, fmtBR_14_5, fmtBR_0_14]
theorem bltu (a b disp) : Statement (.bltu a b disp) := by
  refine narrow rfl (fmtBR_24_8 ..) (by decide) (by decide) rfl fun _ n => ?_
  rw [decode32, fmtBR_24_8]
  show Except.ok (Instr.bltu _ _ _) = _
  simp only [fmtBR_19_5, fmtBR_14_5, fmtBR_0_14]
theorem bgeu (a b disp) : Statement (.bgeu a b disp) := by
  refine narrow rfl (fmtBR_24_8 ..) (by decide) (by decide) rfl fun _ n => ?_
  rw [decode32, fmtBR_24_8]
  show Except.ok (Instr.bgeu _ _ _) = _
  simp only [fmtBR_19_5, fmtBR_14_5, fmtBR_0_14]
theorem bk (k disp) : Statement (.bk k disp) := by
  refine narrow rfl (fmtBK_24_8 ..) (by decide) (by decide) rfl fun _ n => ?_
  rw [decode32, fmtBK_24_8]
  show Except.ok (Instr.bk _ _) = _
  simp only [fmtBK_19_5, fmtBK_0_19]
theorem bkn (k disp) : Statement (.bkn k disp) := by
  refine narrow rfl (fmtBK_24_8 ..) (by decide) (by decide) rfl fun _ n => ?_
  rw [decode32, fmtBK_24_8]
  show Except.ok (Instr.bkn _ _) = _
  simp only [fmtBK_19_5, fmtBK_0_19]
theorem j (disp) : Statement (.j disp) := by
  refine narrow rfl (fmtJ_24_8 ..) (by decide) (by decide) rfl fun _ n => ?_
  rw [decode32, fmtJ_24_8]
  show Except.ok (Instr.j _) = _
  simp only [fmtJ_0_24]
theorem call (disp) : Statement (.call disp) := by
  refine narrow rfl (fmtJ_24_8 ..) (by decide) (by decide) rfl fun _ n => ?_
  rw [decode32, fmtJ_24_8]
  show Except.ok (Instr.call _) = _
  simp only [fmtJ_0_24]
theorem calll (imm) : Statement (.calll imm) := by
  refine wide rfl (fmtI64_24_8 ..) (by decide) (by decide) fun _ l n h => ?_
  rw [decode64, h, if_neg Bool.false_ne_true, fmtI64_m6]
  show chk n _ (.calll _) = _
  rw [fmtI64_0_19, halves, fieldBits, fmtI64_19_5]
  exact chk_ok (by rfl)
theorem jr (a) : Statement (.jr a) := by
  refine narrow rfl (fmtRR_24_8 ..) (by decide) (by decide) rfl fun _ n => ?_
  rw [decode32, fmtRR_24_8]
  show decodeJump n _ = _
  rw [decodeJump, fmtRR_1_8]
  show chk n _ (.jr _) = _
  simp only [fieldBits, fmtRR_19_5, fmtRR_9_5, fmtRR_0_1, fmtRR_14_5]
  exact chk_ok (by rfl)
theorem jalr (d a) : Statement (.jalr d a) := by
  refine narrow rfl (fmtRR_24_8 ..) (by decide) (by decide) rfl fun _ n => ?_
  rw [decode32, fmtRR_24_8]
  show decodeJump n _ = _
  rw [decodeJump, fmtRR_1_8]
  show chk n _ (.jalr _ _) = _
  simp only [fieldBits, fmtRR_9_5, fmtRR_0_1, fmtRR_19_5, fmtRR_14_5]
  exact chk_ok (by rfl)
theorem ret : Statement (.ret) := narrow rfl rfl (by decide) (by decide) rfl fun _ _ => rfl
theorem rep (n sd sa sb c) : Statement (.rep n sd sa sb c) := by
  refine narrow rfl (fmtREP_24_8 ..) (by decide) (by decide) rfl fun _ n => ?_
  rw [decode32, fmtREP_24_8]
  show chk n _ (.rep _ _ _ _ _) = _
  simp only [fieldBits, fmtREP_1_8, fmtREP_0_1, fmtREP_20_4, fmtREP_18_2, fmtREP_16_2, fmtREP_14_2, fmtREP_9_5]
  exact chk_ok (by rfl)
theorem trap (imm) : Statement (.trap imm) := by
  refine narrow rfl (fmtTrap_24_8 ..) (by decide) (by decide) rfl fun _ n => ?_
  rw [decode32, fmtTrap_24_8]
  show chk n _ (.trap _) = _
  simp only [fieldBits, fmtTrap_19_5, fmtTrap_1_2, fmtTrap_0_1, fmtTrap_3_16]
  exact chk_ok (by rfl)
theorem nop : Statement (.nop) := narrow rfl rfl (by decide) (by decide) rfl fun _ _ => rfl
theorem eret (a b) : Statement (.eret a b) := by
  refine narrow rfl (fmtRR_24_8 ..) (by decide) (by decide) rfl fun _ n => ?_
  rw [decode32, fmtRR_24_8]
  show decodeSys n _ = _
  rw [decodeSys, fmtRR_1_8]
  show chk n _ (.eret _ _) = _
  simp only [fieldBits, fmtRR_19_5, fmtRR_0_1, fmtRR_14_5, fmtRR_9_5]
  exact chk_ok (by rfl)
theorem brk : Statement (.brk) := narrow rfl rfl (by decide) (by decide) rfl fun _ _ => rfl
theorem ifl : Statement (.ifl) := narrow rfl rfl (by decide) (by decide) rfl fun _ _ => rfl
theorem halt : Statement (.halt) := narrow rfl rfl (by decide) (by decide) rfl fun _ _ => rfl
theorem recvt (d a) : Statement (.recvt d a) := by
  refine narrow rfl (fmtRR_24_8 ..) (by decide) (by decide) rfl fun _ n => ?_
  rw [decode32, fmtRR_24_8]
  show decodeMsg n _ = _
  rw [decodeMsg, fmtRR_1_8]
  show chk n _ (.recvt _ _) = _
  simp only [fieldBits, fmtRR_9_5, fmtRR_0_1, fmtRR_19_5, fmtRR_14_5]
  exact chk_ok (by rfl)
theorem mbcnt (d) : Statement (.mbcnt d) := by
  refine narrow rfl (fmtRR_24_8 ..) (by decide) (by decide) rfl fun _ n => ?_
  rw [decode32, fmtRR_24_8]
  show decodeMsg n _ = _
  rw [decodeMsg, fmtRR_1_8]
  show chk n _ (.mbcnt _) = _
  simp only [fieldBits, fmtRR_14_5, fmtRR_9_5, fmtRR_0_1, fmtRR_19_5]
  exact chk_ok (by rfl)
theorem send (a b) : Statement (.send a b) := by
  refine narrow rfl (fmtRR_24_8 ..) (by decide) (by decide) rfl fun _ n => ?_
  rw [decode32, fmtRR_24_8]
  show decodeMsg n _ = _
  rw [decodeMsg, fmtRR_1_8]
  show chk n _ (.send _ _) = _
  simp only [fieldBits, fmtRR_19_5, fmtRR_0_1, fmtRR_14_5, fmtRR_9_5]
  exact chk_ok (by rfl)
theorem barArrive (a scope) : Statement (.barArrive a scope) := by
  refine narrow rfl (fmtRR_24_8 ..) (by decide) (by decide) rfl fun _ n => ?_
  rw [decode32, fmtRR_24_8]
  show decodeBar n _ = _
  rw [decodeBar, fmtRR_f0_4, fScope_0_4]
  show chk n _ (.barArrive _ _) = _
  simp only [fieldBits, fmtRR_19_5, fmtRR_9_5, fmtRR_f7_1, fScope_7_1, fmtRR_0_1, fmtRR_14_5, fmtRR_f4_3, fScope_4_3]
  exact chk_ok (by rfl)
theorem barInit (a b scope) : Statement (.barInit a b scope) := by
  refine narrow rfl (fmtRR_24_8 ..) (by decide) (by decide) rfl fun _ n => ?_
  rw [decode32, fmtRR_24_8]
  show decodeBar n _ = _
  rw [decodeBar, fmtRR_f0_4, fScope_0_4]
  show chk n _ (.barInit _ _ _) = _
  simp only [fieldBits, fmtRR_19_5, fmtRR_f7_1, fScope_7_1, fmtRR_0_1, fmtRR_14_5, fmtRR_9_5, fmtRR_f4_3, fScope_4_3]
  exact chk_ok (by rfl)
theorem barLeave (a scope) : Statement (.barLeave a scope) := by
  refine narrow rfl (fmtRR_24_8 ..) (by decide) (by decide) rfl fun _ n => ?_
  rw [decode32, fmtRR_24_8]
  show decodeBar n _ = _
  rw [decodeBar, fmtRR_f0_4, fScope_0_4]
  show chk n _ (.barLeave _ _) = _
  simp only [fieldBits, fmtRR_19_5, fmtRR_9_5, fmtRR_f7_1, fScope_7_1, fmtRR_0_1, fmtRR_14_5, fmtRR_f4_3, fScope_4_3]
  exact chk_ok (by rfl)
theorem fenceFull (scope x) : Statement (.fenceFull scope x) := by
  refine narrow rfl (fmtRR_24_8 ..) (by decide) (by decide) rfl fun _ n => ?_
  rw [decode32, fmtRR_24_8]
  show decodeFence n _ = _
  rw [decodeFence, fmtRR_f0_3, fScope_0_3]
  show chk n _ (.fenceFull _ _) = _
  simp only [fieldBits, fmtRR_19_5, fmtRR_14_5, fmtRR_9_5, fmtRR_f7_1, fScope_7_1, fmtRR_f3_1, fScope_3_1, fmtRR_f4_3, fScope_4_3, fmtRR_bit0]
  exact chk_ok (by rfl)
theorem fenceAcq (scope x) : Statement (.fenceAcq scope x) := by
  refine narrow rfl (fmtRR_24_8 ..) (by decide) (by decide) rfl fun _ n => ?_
  rw [decode32, fmtRR_24_8]
  show decodeFence n _ = _
  rw [decodeFence, fmtRR_f0_3, fScope_0_3]
  show chk n _ (.fenceAcq _ _) = _
  simp only [fieldBits, fmtRR_19_5, fmtRR_14_5, fmtRR_9_5, fmtRR_f7_1, fScope_7_1, fmtRR_f3_1, fScope_3_1, fmtRR_f4_3, fScope_4_3, fmtRR_bit0]
  exact chk_ok (by rfl)
theorem fenceRel (scope x) : Statement (.fenceRel scope x) := by
  refine narrow rfl (fmtRR_24_8 ..) (by decide) (by decide) rfl fun _ n => ?_
  rw [decode32, fmtRR_24_8]
  show decodeFence n _ = _
  rw [decodeFence, fmtRR_f0_3, fScope_0_3]
  show chk n _ (.fenceRel _ _) = _
  simp only [fieldBits, fmtRR_19_5, fmtRR_14_5, fmtRR_9_5, fmtRR_f7_1, fScope_7_1, fmtRR_f3_1, fScope_3_1, fmtRR_f4_3, fScope_4_3, fmtRR_bit0]
  exact chk_ok (by rfl)
theorem spawn (d a b) : Statement (.spawn d a b) := by
  refine narrow rfl (fmtRR_24_8 ..) (by decide) (by decide) rfl fun _ n => ?_
  rw [decode32, fmtRR_24_8]
  show decodeCtx n _ = _
  rw [decodeCtx, fmtRR_1_8]
  show chk n _ (.spawn _ _ _) = _
  simp only [fieldBits, fmtRR_0_1, fmtRR_19_5, fmtRR_14_5, fmtRR_9_5]
  exact chk_ok (by rfl)
theorem reap (d a) : Statement (.reap d a) := by
  refine narrow rfl (fmtRR_24_8 ..) (by decide) (by decide) rfl fun _ n => ?_
  rw [decode32, fmtRR_24_8]
  show decodeCtx n _ = _
  rw [decodeCtx, fmtRR_1_8]
  show chk n _ (.reap _ _) = _
  simp only [fieldBits, fmtRR_9_5, fmtRR_0_1, fmtRR_19_5, fmtRR_14_5]
  exact chk_ok (by rfl)
theorem exit : Statement (.exit) := narrow rfl rfl (by decide) (by decide) rfl fun _ _ => rfl
theorem save (d a b) : Statement (.save d a b) := by
  refine narrow rfl (fmtRR_24_8 ..) (by decide) (by decide) rfl fun hw n => ?_
  rw [decode32, fmtRR_24_8]
  show decodeCtx n _ = _
  rw [decodeCtx, fmtRR_1_8]
  show chk n _ (.save _ _ _) = _
  simp only [fieldBits, fmtRR_0_1, fmtRR_d3, fmtRR_19_5, fmtRR_14_5, fmtRR_9_5, low_zero (lo := 3) (of_decide_eq_true hw)]
  exact chk_ok (by rfl)
theorem load (d a b) : Statement (.load d a b) := by
  refine narrow rfl (fmtRR_24_8 ..) (by decide) (by decide) rfl fun hw n => ?_
  rw [decode32, fmtRR_24_8]
  show decodeCtx n _ = _
  rw [decodeCtx, fmtRR_1_8]
  show chk n _ (.load _ _ _) = _
  simp only [fieldBits, fmtRR_0_1, fmtRR_d3, fmtRR_19_5, fmtRR_14_5, fmtRR_9_5, low_zero (lo := 3) (of_decide_eq_true hw)]
  exact chk_ok (by rfl)
theorem tkdec (a) : Statement (.tkdec a) := by
  refine narrow rfl (fmtRR_24_8 ..) (by decide) (by decide) rfl fun _ n => ?_
  rw [decode32, fmtRR_24_8]
  show decodeTask n _ = _
  rw [decodeTask, fmtRR_1_8]
  show chk n _ (.tkdec _) = _
  simp only [fieldBits, fmtRR_19_5, fmtRR_9_5, fmtRR_0_1, fmtRR_14_5]
  exact chk_ok (by rfl)
theorem tkset (a b) : Statement (.tkset a b) := by
  refine narrow rfl (fmtRR_24_8 ..) (by decide) (by decide) rfl fun _ n => ?_
  rw [decode32, fmtRR_24_8]
  show decodeTask n _ = _
  rw [decodeTask, fmtRR_1_8]
  show chk n _ (.tkset _ _) = _
  simp only [fieldBits, fmtRR_19_5, fmtRR_0_1, fmtRR_14_5, fmtRR_9_5]
  exact chk_ok (by rfl)
theorem erflip (a) : Statement (.erflip a) := by
  refine narrow rfl (fmtRR_24_8 ..) (by decide) (by decide) rfl fun _ n => ?_
  rw [decode32, fmtRR_24_8]
  show decodeEr n _ = _
  rw [decodeEr, fmtRR_1_8]
  show chk n _ (.erflip _) = _
  simp only [fieldBits, fmtRR_19_5, fmtRR_9_5, fmtRR_0_1, fmtRR_14_5]
  exact chk_ok (by rfl)
theorem erpass (a) : Statement (.erpass a) := by
  refine narrow rfl (fmtRR_24_8 ..) (by decide) (by decide) rfl fun _ n => ?_
  rw [decode32, fmtRR_24_8]
  show decodeEr n _ = _
  rw [decodeEr, fmtRR_1_8]
  show chk n _ (.erpass _) = _
  simp only [fieldBits, fmtRR_19_5, fmtRR_9_5, fmtRR_0_1, fmtRR_14_5]
  exact chk_ok (by rfl)
theorem erori (d a b) : Statement (.erori d a b) := by
  refine narrow rfl (fmtRR_24_8 ..) (by decide) (by decide) rfl fun _ n => ?_
  rw [decode32, fmtRR_24_8]
  show decodeEr n _ = _
  rw [decodeEr, fmtRR_1_8]
  show chk n _ (.erori _ _ _) = _
  simp only [fieldBits, fmtRR_0_1, fmtRR_19_5, fmtRR_14_5, fmtRR_9_5]
  exact chk_ok (by rfl)
theorem erarm (t) : Statement (.erarm t) := by
  obtain ⟨d, a, b, f, x, w1⟩ := t
  refine wide rfl (fmtRR_24_8 ..) (by decide) (by decide) fun hw l n h => ?_
  have hw : x = false ∧ d = 0 ∧ b = 0 ∧ f &&& 0xFF = 0 ∧ w1 &&& 0xFFFFFFFF = 0 := by
    simpa [Instr.wf, T64.noX, T64.noD, T64.noA, T64.noB, T64.noF, T64.noW, T64.feOk, T64.fe0, T64.h, T64.fe, and_assoc] using hw
  obtain ⟨hx, hd, hb, hf, hw1⟩ := hw
  subst hx
  subst hd
  subst hb
  rw [decode64, h, if_neg Bool.false_ne_true, fmtT64_eq, fmtRR_m6]
  show chk64 n _ _ _ _ (.erarm (t64Of _ _)) = _
  rw [chk64_ok (and_or_zero (and_or_zero (and_or_zero t64_X t64_D) t64_B) (t64_F _ hf)) hw1]
  rw [t64Of, fmtRR_19_5, fmtRR_14_5, fmtRR_9_5, fmtRR_1_8, fmtRR_bit0]
theorem bowstart (d a b) : Statement (.bowstart d a b) := by
  refine narrow rfl (fmtRR_24_8 ..) (by decide) (by decide) rfl fun _ n => ?_
  rw [decode32, fmtRR_24_8]
  show (if (fmtRR ..).extractLsb' 1 8 = 0 then chk n _ (.bowstart _ _ _) else _) = _
  rw [if_pos (fmtRR_1_8 ..)]
  simp only [fieldBits, fmtRR_0_1, fmtRR_19_5, fmtRR_14_5, fmtRR_9_5]
  exact chk_ok (by rfl)
theorem mutesend (a) : Statement (.mutesend a) := by
  refine narrow rfl (fmtRR_24_8 ..) (by decide) (by decide) rfl fun _ n => ?_
  rw [decode32, fmtRR_24_8]
  show (if (fmtRR ..).extractLsb' 1 8 = 0 then chk n _ (.mutesend _) else _) = _
  rw [if_pos (fmtRR_1_8 ..)]
  simp only [fieldBits, fmtRR_19_5, fmtRR_9_5, fmtRR_0_1, fmtRR_14_5]
  exact chk_ok (by rfl)
theorem rnd (d) : Statement (.rnd d) := by
  refine narrow rfl (fmtRR_24_8 ..) (by decide) (by decide) rfl fun _ n => ?_
  rw [decode32, fmtRR_24_8]
  show decodeRng n _ = _
  rw [decodeRng, fmtRR_1_8]
  show chk n _ (.rnd _) = _
  simp only [fieldBits, fmtRR_14_5, fmtRR_9_5, fmtRR_0_1, fmtRR_19_5]
  exact chk_ok (by rfl)
theorem rngseed (a) : Statement (.rngseed a) := by
  refine narrow rfl (fmtRR_24_8 ..) (by decide) (by decide) rfl fun _ n => ?_
  rw [decode32, fmtRR_24_8]
  show decodeRng n _ = _
  rw [decodeRng, fmtRR_1_8]
  show chk n _ (.rngseed _) = _
  simp only [fieldBits, fmtRR_19_5, fmtRR_9_5, fmtRR_0_1, fmtRR_14_5]
  exact chk_ok (by rfl)
theorem flget (d) : Statement (.flget d) := by
  refine narrow rfl (fmtRR_24_8 ..) (by decide) (by decide) rfl fun _ n => ?_
  rw [decode32, fmtRR_24_8]
  show decodeFlg n _ = _
  rw [decodeFlg, fmtRR_1_8]
  show chk n _ (.flget _) = _
  simp only [fieldBits, fmtRR_14_5, fmtRR_9_5, fmtRR_0_1, fmtRR_19_5]
  exact chk_ok (by rfl)
theorem flclr (a) : Statement (.flclr a) := by
  refine narrow rfl (fmtRR_24_8 ..) (by decide) (by decide) rfl fun _ n => ?_
  rw [decode32, fmtRR_24_8]
  show decodeFlg n _ = _
  rw [decodeFlg, fmtRR_1_8]
  show chk n _ (.flclr _) = _
  simp only [fieldBits, fmtRR_19_5, fmtRR_9_5, fmtRR_0_1, fmtRR_14_5]
  exact chk_ok (by rfl)
theorem fltree (d) : Statement (.fltree d) := by
  refine narrow rfl (fmtRR_24_8 ..) (by decide) (by decide) rfl fun _ n => ?_
  rw [decode32, fmtRR_24_8]
  show decodeFlg n _ = _
  rw [decodeFlg, fmtRR_1_8]
  show chk n _ (.fltree _) = _
  simp only [fieldBits, fmtRR_14_5, fmtRR_9_5, fmtRR_0_1, fmtRR_19_5]
  exact chk_ok (by rfl)
theorem engst (d a) : Statement (.engst d a) := by
  refine narrow rfl (fmtRR_24_8 ..) (by decide) (by decide) rfl fun _ n => ?_
  rw [decode32, fmtRR_24_8]
  show decodeEng n _ = _
  rw [decodeEng, fmtRR_1_8]
  show chk n _ (.engst _ _) = _
  simp only [fieldBits, fmtRR_9_5, fmtRR_0_1, fmtRR_19_5, fmtRR_14_5]
  exact chk_ok (by rfl)
theorem engcancel (d a) : Statement (.engcancel d a) := by
  refine narrow rfl (fmtRR_24_8 ..) (by decide) (by decide) rfl fun _ n => ?_
  rw [decode32, fmtRR_24_8]
  show decodeEng n _ = _
  rw [decodeEng, fmtRR_1_8]
  show chk n _ (.engcancel _ _) = _
  simp only [fieldBits, fmtRR_9_5, fmtRR_0_1, fmtRR_19_5, fmtRR_14_5]
  exact chk_ok (by rfl)
theorem mxlease (d) : Statement (.mxlease d) := by
  refine narrow rfl (fmtRR_24_8 ..) (by decide) (by decide) rfl fun _ n => ?_
  rw [decode32, fmtRR_24_8]
  show decodeCapo n _ = _
  rw [decodeCapo, fmtRR_1_8]
  show chk n _ (.mxlease _) = _
  simp only [fieldBits, fmtRR_14_5, fmtRR_9_5, fmtRR_0_1, fmtRR_19_5]
  exact chk_ok (by rfl)
theorem mxrel : Statement (.mxrel) := narrow rfl rfl (by decide) (by decide) rfl fun _ _ => rfl
theorem tlbinv (a b) : Statement (.tlbinv a b) := by
  refine narrow rfl (fmtRR_24_8 ..) (by decide) (by decide) rfl fun _ n => ?_
  rw [decode32, fmtRR_24_8]
  show decodeTlb n _ = _
  rw [decodeTlb, fmtRR_1_8]
  show chk n _ (.tlbinv _ _) = _
  simp only [fieldBits, fmtRR_19_5, fmtRR_0_1, fmtRR_14_5, fmtRR_9_5]
  exact chk_ok (by rfl)
theorem tlbinvall (a) : Statement (.tlbinvall a) := by
  refine narrow rfl (fmtRR_24_8 ..) (by decide) (by decide) rfl fun _ n => ?_
  rw [decode32, fmtRR_24_8]
  show decodeTlb n _ = _
  rw [decodeTlb, fmtRR_1_8]
  show chk n _ (.tlbinvall _) = _
  simp only [fieldBits, fmtRR_19_5, fmtRR_9_5, fmtRR_0_1, fmtRR_14_5]
  exact chk_ok (by rfl)
theorem fold (t) : Statement (.fold t) := by
  obtain ⟨d, a, b, f, x, w1⟩ := t
  refine wide rfl (fmtRR_24_8 ..) (by decide) (by decide) fun hw l n h => ?_
  have hw : f &&& 0x80 = 0 ∧ w1.extractLsb' 21 2 ≠ 3 ∧ w1 &&& 0xFFFFF = 0 ∧ (f.getLsbD 6 = false ∨ b = 0) := by
    simpa [Instr.wf, T64.noX, T64.noD, T64.noA, T64.noB, T64.noF, T64.noW, T64.feOk, T64.fe0, T64.h, T64.fe, and_assoc] using hw
  obtain ⟨hf, hfe, hw1, hb⟩ := hw
  rw [decode64, h, if_neg Bool.false_ne_true, fmtT64_eq, fmtRR_m6]
  show chk64 n _ _ _ _ (.fold (t64Of _ _)) = _
  have hb7 : fmtRR 0xC8 d a b f x &&& (if (fmtRR 0xC8 d a b f x).getLsbD 7 then mB else 0) = 0 := by
    rw [fmtRR_fb6]
    rcases hb with h6 | rfl
    · rw [h6]; exact BitVec.and_zero
    · split
      · exact t64_B
      · exact BitVec.and_zero
  rw [chk64_ok (and_or_zero (t64_F _ hf) hb7) (engMask_zero hw1 (fun e => absurd e Bool.false_ne_true) hfe)]
  rw [t64Of, fmtRR_19_5, fmtRR_14_5, fmtRR_9_5, fmtRR_1_8, fmtRR_bit0]
theorem scan (t) : Statement (.scan t) := by
  obtain ⟨d, a, b, f, x, w1⟩ := t
  refine wide rfl (fmtRR_24_8 ..) (by decide) (by decide) fun hw l n h => ?_
  have hw : f &&& 0x80 = 0 ∧ w1.extractLsb' 21 2 ≠ 3 ∧ w1 &&& 0xFFFFF = 0 ∧ (f.getLsbD 6 = false ∨ b = 0) := by
    simpa [Instr.wf, T64.noX, T64.noD, T64.noA, T64.noB, T64.noF, T64.noW, T64.feOk, T64.fe0, T64.h, T64.fe, and_assoc] using hw
  obtain ⟨hf, hfe, hw1, hb⟩ := hw
  rw [decode64, h, if_neg Bool.false_ne_true, fmtT64_eq, fmtRR_m6]
  show chk64 n _ _ _ _ (.scan (t64Of _ _)) = _
  have hb7 : fmtRR 0xC9 d a b f x &&& (if (fmtRR 0xC9 d a b f x).getLsbD 7 then mB else 0) = 0 := by
    rw [fmtRR_fb6]
    rcases hb with h6 | rfl
    · rw [h6]; exact BitVec.and_zero
    · split
      · exact t64_B
      · exact BitVec.and_zero
  rw [chk64_ok (and_or_zero (t64_F _ hf) hb7) (engMask_zero hw1 (fun e => absurd e Bool.false_ne_true) hfe)]
  rw [t64Of, fmtRR_19_5, fmtRR_14_5, fmtRR_9_5, fmtRR_1_8, fmtRR_bit0]
theorem zip (t) : Statement (.zip t) := by
  obtain ⟨d, a, b, f, x, w1⟩ := t
  refine wide rfl (fmtRR_24_8 ..) (by decide) (by decide) fun hw l n h => ?_
  have hw : f &&& 0xC0 = 0 ∧ w1.extractLsb' 21 2 ≠ 3 ∧ w1 &&& 0xFFFFF = 0 := by
    simpa [Instr.wf, T64.noX, T64.noD, T64.noA, T64.noB, T64.noF, T64.noW, T64.feOk, T64.fe0, T64.h, T64.fe, and_assoc] using hw
  obtain ⟨hf, hfe, hw1⟩ := hw
  rw [decode64, h, if_neg Bool.false_ne_true, fmtT64_eq, fmtRR_m6]
  show chk64 n _ _ _ _ (.zip (t64Of _ _)) = _
  rw [chk64_ok (t64_F _ hf) (engMask_zero hw1 (fun e => absurd e Bool.false_ne_true) hfe)]
  rw [t64Of, fmtRR_19_5, fmtRR_14_5, fmtRR_9_5, fmtRR_1_8, fmtRR_bit0]
theorem outer (t) : Statement (.outer t) := by
  obtain ⟨d, a, b, f, x, w1⟩ := t
  refine wide rfl (fmtRR_24_8 ..) (by decide) (by decide) fun hw l n h => ?_
  have hw : f &&& 0xE0 = 0 ∧ w1.extractLsb' 21 2 ≠ 3 ∧ w1 &&& 0xFFFFF = 0 := by
    simpa [Instr.wf, T64.noX, T64.noD, T64.noA, T64.noB, T64.noF, T64.noW, T64.feOk, T64.fe0, T64.h, T64.fe, and_assoc] using hw
  obtain ⟨hf, hfe, hw1⟩ := hw
  rw [decode64, h, if_neg Bool.false_ne_true, fmtT64_eq, fmtRR_m6]
  show chk64 n _ _ _ _ (.outer (t64Of _ _)) = _
  rw [chk64_ok (t64_F _ hf) (engMask_zero hw1 (fun e => absurd e Bool.false_ne_true) hfe)]
  rw [t64Of, fmtRR_19_5, fmtRR_14_5, fmtRR_9_5, fmtRR_1_8, fmtRR_bit0]
theorem tcopy (t) : Statement (.tcopy t) := by
  obtain ⟨d, a, b, f, x, w1⟩ := t
  refine wide rfl (fmtRR_24_8 ..) (by decide) (by decide) fun hw l n h => ?_
  have hw : b = 0 ∧ f &&& 0xC0 = 0 ∧ w1.extractLsb' 21 2 ≠ 3 ∧ w1 &&& 0xFFFFF = 0 := by
    simpa [Instr.wf, T64.noX, T64.noD, T64.noA, T64.noB, T64.noF, T64.noW, T64.feOk, T64.fe0, T64.h, T64.fe, and_assoc] using hw
  obtain ⟨hb, hf, hfe, hw1⟩ := hw
  subst hb
  rw [decode64, h, if_neg Bool.false_ne_true, fmtT64_eq, fmtRR_m6]
  show chk64 n _ _ _ _ (.tcopy (t64Of _ _)) = _
  rw [chk64_ok (and_or_zero t64_B (t64_F _ hf)) (engMask_zero hw1 (fun e => absurd e Bool.false_ne_true) hfe)]
  rw [t64Of, fmtRR_19_5, fmtRR_14_5, fmtRR_9_5, fmtRR_1_8, fmtRR_bit0]
theorem tfill (t) : Statement (.tfill t) := by
  obtain ⟨d, a, b, f, x, w1⟩ := t
  refine wide rfl (fmtRR_24_8 ..) (by decide) (by decide) fun hw l n h => ?_
  have hw : b = 0 ∧ f &&& 0xC0 = 0 ∧ w1.extractLsb' 21 2 ≠ 3 ∧ w1 &&& 0x1FFFFF = 0 := by
    simpa [Instr.wf, T64.noX, T64.noD, T64.noA, T64.noB, T64.noF, T64.noW, T64.feOk, T64.fe0, T64.h, T64.fe, and_assoc] using hw
  obtain ⟨hb, hf, hfe, hw1⟩ := hw
  subst hb
  rw [decode64, h, if_neg Bool.false_ne_true, fmtT64_eq, fmtRR_m6]
  show chk64 n _ _ _ _ (.tfill (t64Of _ _)) = _
  rw [chk64_ok (and_or_zero t64_B (t64_F _ hf)) (engMask_zero hw1 (fun e => absurd e Bool.false_ne_true) hfe)]
  rw [t64Of, fmtRR_19_5, fmtRR_14_5, fmtRR_9_5, fmtRR_1_8, fmtRR_bit0]
theorem txp (t) : Statement (.txp t) := by
  obtain ⟨d, a, b, f, x, w1⟩ := t
  refine wide rfl (fmtRR_24_8 ..) (by decide) (by decide) fun hw l n h => ?_
  have hw : x = false ∧ b = 0 ∧ f &&& 0xFF = 0 ∧ w1.extractLsb' 21 2 ≠ 3 ∧ w1 &&& 0xFFFFF = 0 := by
    simpa [Instr.wf, T64.noX, T64.noD, T64.noA, T64.noB, T64.noF, T64.noW, T64.feOk, T64.fe0, T64.h, T64.fe, and_assoc] using hw
  obtain ⟨hx, hb, hf, hfe, hw1⟩ := hw
  subst hx
  subst hb
  rw [decode64, h, if_neg Bool.false_ne_true, fmtT64_eq, fmtRR_m6]
  show chk64 n _ _ _ _ (.txp (t64Of _ _)) = _
  rw [chk64_ok (and_or_zero (and_or_zero t64_X t64_B) (t64_F _ hf)) (engMask_zero hw1 (fun e => absurd e Bool.false_ne_true) hfe)]
  rw [t64Of, fmtRR_19_5, fmtRR_14_5, fmtRR_9_5, fmtRR_1_8, fmtRR_bit0]
theorem gld (t) : Statement (.gld t) := by
  obtain ⟨d, a, b, f, x, w1⟩ := t
  refine wide rfl (fmtRR_24_8 ..) (by decide) (by decide) fun hw l n h => ?_
  have hw : x = false ∧ f &&& 0xF8 = 0 ∧ w1.extractLsb' 21 2 ≠ 3 ∧ w1 &&& 0x1FFFFF = 0 := by
    simpa [Instr.wf, T64.noX, T64.noD, T64.noA, T64.noB, T64.noF, T64.noW, T64.feOk, T64.fe0, T64.h, T64.fe, and_assoc] using hw
  obtain ⟨hx, hf, hfe, hw1⟩ := hw
  subst hx
  rw [decode64, h, if_neg Bool.false_ne_true, fmtT64_eq, fmtRR_m6]
  show chk64 n _ _ _ _ (.gld (t64Of _ _)) = _
  rw [chk64_ok (and_or_zero t64_X (t64_F _ hf)) (engMask_zero hw1 (fun e => absurd e Bool.false_ne_true) hfe)]
  rw [t64Of, fmtRR_19_5, fmtRR_14_5, fmtRR_9_5, fmtRR_1_8, fmtRR_bit0]
theorem gst (t) : Statement (.gst t) := by
  obtain ⟨d, a, b, f, x, w1⟩ := t
  refine wide rfl (fmtRR_24_8 ..) (by decide) (by decide) fun hw l n h => ?_
  have hw : x = false ∧ f &&& 0xF8 = 0 ∧ w1.extractLsb' 21 2 = 0 ∧ w1 &&& 0xFFFFF = 0 := by
    simpa [Instr.wf, T64.noX, T64.noD, T64.noA, T64.noB, T64.noF, T64.noW, T64.feOk, T64.fe0, T64.h, T64.fe, and_assoc] using hw
  obtain ⟨hx, hf, hfe, hw1⟩ := hw
  subst hx
  rw [decode64, h, if_neg Bool.false_ne_true, fmtT64_eq, fmtRR_m6]
  show chk64 n _ _ _ _ (.gst (t64Of _ _)) = _
  rw [chk64_ok (and_or_zero t64_X (t64_F _ hf)) (engMask_zero hw1 (fun _ => hfe) (by rw [hfe]; decide))]
  rw [t64Of, fmtRR_19_5, fmtRR_14_5, fmtRR_9_5, fmtRR_1_8, fmtRR_bit0]
theorem rtndef (t) : Statement (.rtndef t) := by
  obtain ⟨d, a, b, f, x, w1⟩ := t
  refine wide rfl (fmtRR_24_8 ..) (by decide) (by decide) fun hw l n h => ?_
  have hw : x = false ∧ d = 0 ∧ f &&& 0xF8 = 0 ∧ w1 &&& 0xFFFFFFFF = 0 := by
    simpa [Instr.wf, T64.noX, T64.noD, T64.noA, T64.noB, T64.noF, T64.noW, T64.feOk, T64.fe0, T64.h, T64.fe, and_assoc] using hw
  obtain ⟨hx, hd, hf, hw1⟩ := hw
  subst hx
  subst hd
  rw [decode64, h, if_neg Bool.false_ne_true, fmtT64_eq, fmtRR_m6]
  show chk64 n _ _ _ _ (.rtndef (t64Of _ _)) = _
  rw [chk64_ok (and_or_zero (and_or_zero t64_X t64_D) (t64_F _ hf)) hw1]
  rw [t64Of, fmtRR_19_5, fmtRR_14_5, fmtRR_9_5, fmtRR_1_8, fmtRR_bit0]
theorem mxldst (t) : Statement (.mxldst t) := by
  obtain ⟨d, a, b, f, x, w1⟩ := t
  refine wide rfl (fmtRR_24_8 ..) (by decide) (by decide) fun hw l n h => ?_
  have hw : x = false ∧ d = 0 ∧ f &&& 0xFF = 0 ∧ w1.extractLsb' 21 2 = 0 ∧ w1 &&& 0xFFFFE = 0 := by
    simpa [Instr.wf, T64.noX, T64.noD, T64.noA, T64.noB, T64.noF, T64.noW, T64.feOk, T64.fe0, T64.h, T64.fe, and_assoc] using hw
  obtain ⟨hx, hd, hf, hfe, hw1⟩ := hw
  subst hx
  subst hd
  rw [decode64, h, if_neg Bool.false_ne_true, fmtT64_eq, fmtRR_m6]
  show chk64 n _ _ _ _ (.mxldst (t64Of _ _)) = _
  rw [chk64_ok (and_or_zero (and_or_zero t64_X t64_D) (t64_F _ hf)) (engMask_zero hw1 (fun _ => hfe) (by rw [hfe]; decide))]
  rw [t64Of, fmtRR_19_5, fmtRR_14_5, fmtRR_9_5, fmtRR_1_8, fmtRR_bit0]
theorem mxswap (t) : Statement (.mxswap t) := by
  obtain ⟨d, a, b, f, x, w1⟩ := t
  refine wide rfl (fmtRR_24_8 ..) (by decide) (by decide) fun hw l n h => ?_
  have hw : x = false ∧ d = 0 ∧ a = 0 ∧ b = 0 ∧ f &&& 0xFF = 0 ∧ w1.extractLsb' 21 2 = 0 ∧ w1 &&& 0x1FFFFF = 0 := by
    simpa [Instr.wf, T64.noX, T64.noD, T64.noA, T64.noB, T64.noF, T64.noW, T64.feOk, T64.fe0, T64.h, T64.fe, and_assoc] using hw
  obtain ⟨hx, hd, ha, hb, hf, hfe, hw1⟩ := hw
  subst hx
  subst hd
  subst ha
  subst hb
  rw [decode64, h, if_neg Bool.false_ne_true, fmtT64_eq, fmtRR_m6]
  show chk64 n _ _ _ _ (.mxswap (t64Of _ _)) = _
  rw [chk64_ok (and_or_zero (and_or_zero (and_or_zero (and_or_zero t64_X t64_D) t64_A) t64_B) (t64_F _ hf)) (engMask_zero hw1 (fun _ => hfe) (by rw [hfe]; decide))]
  rw [t64Of, fmtRR_19_5, fmtRR_14_5, fmtRR_9_5, fmtRR_1_8, fmtRR_bit0]
theorem mxstrm (t) : Statement (.mxstrm t) := by
  obtain ⟨d, a, b, f, x, w1⟩ := t
  refine wide rfl (fmtRR_24_8 ..) (by decide) (by decide) fun hw l n h => ?_
  have hw : x = false ∧ d = 0 ∧ b = 0 ∧ f &&& 0xFF = 0 ∧ w1.extractLsb' 21 2 = 0 ∧ w1 &&& 0xFFF80 = 0 := by
    simpa [Instr.wf, T64.noX, T64.noD, T64.noA, T64.noB, T64.noF, T64.noW, T64.feOk, T64.fe0, T64.h, T64.fe, and_assoc] using hw
  obtain ⟨hx, hd, hb, hf, hfe, hw1⟩ := hw
  subst hx
  subst hd
  subst hb
  rw [decode64, h, if_neg Bool.false_ne_true, fmtT64_eq, fmtRR_m6]
  show chk64 n _ _ _ _ (.mxstrm (t64Of _ _)) = _
  rw [chk64_ok (and_or_zero (and_or_zero (and_or_zero t64_X t64_D) t64_B) (t64_F _ hf)) (engMask_zero hw1 (fun _ => hfe) (by rw [hfe]; decide))]
  rw [t64Of, fmtRR_19_5, fmtRR_14_5, fmtRR_9_5, fmtRR_1_8, fmtRR_bit0]
theorem mxdrain (t) : Statement (.mxdrain t) := by
  obtain ⟨d, a, b, f, x, w1⟩ := t
  refine wide rfl (fmtRR_24_8 ..) (by decide) (by decide) fun hw l n h => ?_
  have hw : a = 0 ∧ f &&& 0x80 = 0 ∧ w1.extractLsb' 21 2 ≠ 3 ∧ w1 &&& 0xF8000 = 0 := by
    simpa [Instr.wf, T64.noX, T64.noD, T64.noA, T64.noB, T64.noF, T64.noW, T64.feOk, T64.fe0, T64.h, T64.fe, and_assoc] using hw
  obtain ⟨ha, hf, hfe, hw1⟩ := hw
  subst ha
  rw [decode64, h, if_neg Bool.false_ne_true, fmtT64_eq, fmtRR_m6]
  show chk64 n _ _ _ _ (.mxdrain (t64Of _ _)) = _
  rw [chk64_ok (and_or_zero t64_A (t64_F _ hf)) (engMask_zero hw1 (fun e => absurd e Bool.false_ne_true) hfe)]
  rw [t64Of, fmtRR_19_5, fmtRR_14_5, fmtRR_9_5, fmtRR_1_8, fmtRR_bit0]
theorem lvsetImm (t) : Statement (.lvsetImm t) := by
  obtain ⟨d, a, b, f, x, w1⟩ := t
  refine wide rfl (fmtRR_24_8 ..) (by decide) (by decide) fun hw l n h => ?_
  have hw : x = false ∧ d = 0 ∧ a = 0 ∧ b = 0 ∧ f &&& 0xFF = 0 := by
    simpa [Instr.wf, T64.noX, T64.noD, T64.noA, T64.noB, T64.noF, T64.noW, T64.feOk, T64.fe0, T64.h, T64.fe, and_assoc] using hw
  obtain ⟨hx, hd, ha, hb, hf⟩ := hw
  subst hx
  subst hd
  subst ha
  subst hb
  rw [decode64, h, if_neg Bool.false_ne_true, fmtT64_eq, fmtRR_m6]
  show (if (fmtRR ..).getLsbD 1 then chk64 n _ _ _ _ (.lvsetReg (t64Of _ _)) else chk64 n _ _ _ _ (.lvsetImm (t64Of _ _))) = _
  rw [fmtRR_fb0]
  rw [if_neg (by rw [bit_of_and hf 0 (by decide)]; decide)]
  rw [chk64_ok (and_or_zero (and_or_zero (and_or_zero (and_or_zero t64_X t64_D) t64_A) t64_B) (t64_F _ (low7 hf))) (show w1 &&& 0 = 0 from BitVec.and_zero)]
  rw [t64Of, fmtRR_19_5, fmtRR_14_5, fmtRR_9_5, fmtRR_1_8, fmtRR_bit0]
theorem lvsetReg (t) : Statement (.lvsetReg t) := by
  obtain ⟨d, a, b, f, x, w1⟩ := t
  refine wide rfl (fmtRR_24_8 ..) (by decide) (by decide) fun hw l n h => ?_
  have hw : x = false ∧ d = 0 ∧ b = 0 ∧ f = 1 ∧ w1 &&& 0xFFFFFFFF = 0 := by
    simpa [Instr.wf, T64.noX, T64.noD, T64.noA, T64.noB, T64.noF, T64.noW, T64.feOk, T64.fe0, T64.h, T64.fe, and_assoc] using hw
  obtain ⟨hx, hd, hb, hf, hw1⟩ := hw
  subst hx
  subst hd
  subst hb
  subst hf
  rw [decode64, h, if_neg Bool.false_ne_true, fmtT64_eq, fmtRR_m6]
  show (if (fmtRR ..).getLsbD 1 then chk64 n _ _ _ _ (.lvsetReg (t64Of _ _)) else chk64 n _ _ _ _ (.lvsetImm (t64Of _ _))) = _
  rw [fmtRR_fb0]
  rw [if_pos (show (1 : BitVec 8).getLsbD 0 = true by decide)]
  rw [chk64_ok (and_or_zero (and_or_zero (and_or_zero t64_X t64_D) t64_B) (t64_F _ (show (1 : BitVec 8) &&& 0xFE = 0 by decide))) hw1]
  rw [t64Of, fmtRR_19_5, fmtRR_14_5, fmtRR_9_5, fmtRR_1_8, fmtRR_bit0]
theorem wld (t) : Statement (.wld t) := by
  obtain ⟨d, a, b, f, x, w1⟩ := t
  refine wide rfl (fmtRR_24_8 ..) (by decide) (by decide) fun hw l n h => ?_
  have hw : x = false ∧ d = 0 ∧ b = 0 ∧ f &&& 0xFF = 0 ∧ w1.extractLsb' 21 2 = 0 ∧ w1 &&& 0xFFFF8 = 0 := by
    simpa [Instr.wf, T64.noX, T64.noD, T64.noA, T64.noB, T64.noF, T64.noW, T64.feOk, T64.fe0, T64.h, T64.fe, and_assoc] using hw
  obtain ⟨hx, hd, hb, hf, hfe, hw1⟩ := hw
  subst hx
  subst hd
  subst hb
  rw [decode64, h, if_neg Bool.false_ne_true, fmtT64_eq, fmtRR_m6]
  show chk64 n _ _ _ _ (.wld (t64Of _ _)) = _
  rw [chk64_ok (and_or_zero (and_or_zero (and_or_zero t64_X t64_D) t64_B) (t64_F _ hf)) (engMask_zero hw1 (fun _ => hfe) (by rw [hfe]; decide))]
  rw [t64Of, fmtRR_19_5, fmtRR_14_5, fmtRR_9_5, fmtRR_1_8, fmtRR_bit0]
theorem rstr (t) : Statement (.rstr t) := by
  obtain ⟨d, a, b, f, x, w1⟩ := t
  refine wide rfl (fmtRR_24_8 ..) (by decide) (by decide) fun hw l n h => ?_
  have hw : b = 0 ∧ f &&& 0xDF = 0 ∧ w1.extractLsb' 21 2 ≠ 3 ∧ w1 &&& 0xF0000 = 0 := by
    simpa [Instr.wf, T64.noX, T64.noD, T64.noA, T64.noB, T64.noF, T64.noW, T64.feOk, T64.fe0, T64.h, T64.fe, and_assoc] using hw
  obtain ⟨hb, hf, hfe, hw1⟩ := hw
  subst hb
  rw [decode64, h, if_neg Bool.false_ne_true, fmtT64_eq, fmtRR_m6]
  show chk64 n _ _ _ _ (.rstr (t64Of _ _)) = _
  rw [chk64_ok (and_or_zero t64_B (t64_F _ hf)) (engMask_zero hw1 (fun e => absurd e Bool.false_ne_true) hfe)]
  rw [t64Of, fmtRR_19_5, fmtRR_14_5, fmtRR_9_5, fmtRR_1_8, fmtRR_bit0]
theorem prol (t) : Statement (.prol t) := by
  obtain ⟨d, a, b, f, x, w1⟩ := t
  refine wide rfl (fmtRR_24_8 ..) (by decide) (by decide) fun hw l n h => ?_
  have hw : b = 0 ∧ f &&& 0xFF = 0 ∧ w1.extractLsb' 21 2 ≠ 3 ∧ w1 &&& 0xE0000 = 0 := by
    simpa [Instr.wf, T64.noX, T64.noD, T64.noA, T64.noB, T64.noF, T64.noW, T64.feOk, T64.fe0, T64.h, T64.fe, and_assoc] using hw
  obtain ⟨hb, hf, hfe, hw1⟩ := hw
  subst hb
  rw [decode64, h, if_neg Bool.false_ne_true, fmtT64_eq, fmtRR_m6]
  show chk64 n _ _ _ _ (.prol (t64Of _ _)) = _
  rw [chk64_ok (and_or_zero t64_B (t64_F _ hf)) (engMask_zero hw1 (fun e => absurd e Bool.false_ne_true) hfe)]
  rw [t64Of, fmtRR_19_5, fmtRR_14_5, fmtRR_9_5, fmtRR_1_8, fmtRR_bit0]
theorem put (t) : Statement (.put t) := by
  obtain ⟨d, a, b, f, x, w1⟩ := t
  refine wide rfl (fmtRR_24_8 ..) (by decide) (by decide) fun hw l n h => ?_
  have hw : x = false ∧ f &&& 0xFF = 0 ∧ w1.extractLsb' 21 2 = 0 ∧ w1 &&& 0xE0000 = 0 := by
    simpa [Instr.wf, T64.noX, T64.noD, T64.noA, T64.noB, T64.noF, T64.noW, T64.feOk, T64.fe0, T64.h, T64.fe, and_assoc] using hw
  obtain ⟨hx, hf, hfe, hw1⟩ := hw
  subst hx
  rw [decode64, h, if_neg Bool.false_ne_true, fmtT64_eq, fmtRR_m6]
  show chk64 n _ _ _ _ (.put (t64Of _ _)) = _
  rw [chk64_ok (and_or_zero t64_X (t64_F _ hf)) (engMask_zero hw1 (fun _ => hfe) (by rw [hfe]; decide))]
  rw [t64Of, fmtRR_19_5, fmtRR_14_5, fmtRR_9_5, fmtRR_1_8, fmtRR_bit0]
theorem putarm (t) : Statement (.putarm t) := by
  obtain ⟨d, a, b, f, x, w1⟩ := t
  refine wide rfl (fmtRR_24_8 ..) (by decide) (by decide) fun hw l n h => ?_
  have hw : x = false ∧ b = 0 ∧ f &&& 0xF8 = 0 ∧ w1 &&& 0xFFFFFFFF = 0 := by
    simpa [Instr.wf, T64.noX, T64.noD, T64.noA, T64.noB, T64.noF, T64.noW, T64.feOk, T64.fe0, T64.h, T64.fe, and_assoc] using hw
  obtain ⟨hx, hb, hf, hw1⟩ := hw
  subst hx
  subst hb
  rw [decode64, h, if_neg Bool.false_ne_true, fmtT64_eq, fmtRR_m6]
  show chk64 n _ _ _ _ (.putarm (t64Of _ _)) = _
  rw [chk64_ok (and_or_zero (and_or_zero t64_X t64_B) (t64_F _ hf)) hw1]
  rw [t64Of, fmtRR_19_5, fmtRR_14_5, fmtRR_9_5, fmtRR_1_8, fmtRR_bit0]
theorem cntw (t) : Statement (.cntw t) := by
  obtain ⟨d, a, b, f, x, w1⟩ := t
  refine wide rfl (fmtRR_24_8 ..) (by decide) (by decide) fun hw l n h => ?_
  have hw : x = false ∧ f &&& 0xF8 = 0 ∧ w1 &&& 0xFFFFFFFF = 0 := by
    simpa [Instr.wf, T64.noX, T64.noD, T64.noA, T64.noB, T64.noF, T64.noW, T64.feOk, T64.fe0, T64.h, T64.fe, and_assoc] using hw
  obtain ⟨hx, hf, hw1⟩ := hw
  subst hx
  rw [decode64, h, if_neg Bool.false_ne_true, fmtT64_eq, fmtRR_m6]
  show chk64 n _ _ _ _ (.cntw (t64Of _ _)) = _
  rw [chk64_ok (and_or_zero t64_X (t64_F _ hf)) hw1]
  rw [t64Of, fmtRR_19_5, fmtRR_14_5, fmtRR_9_5, fmtRR_1_8, fmtRR_bit0]
theorem lnch (t) : Statement (.lnch t) := by
  obtain ⟨d, a, b, f, x, w1⟩ := t
  refine wide rfl (fmtRR_24_8 ..) (by decide) (by decide) fun hw l n h => ?_
  have hw : x = false ∧ b = 0 ∧ f &&& 0xF8 = 0 ∧ w1 &&& 0xFFFF00FE = 0 := by
    simpa [Instr.wf, T64.noX, T64.noD, T64.noA, T64.noB, T64.noF, T64.noW, T64.feOk, T64.fe0, T64.h, T64.fe, and_assoc] using hw
  obtain ⟨hx, hb, hf, hw1⟩ := hw
  subst hx
  subst hb
  rw [decode64, h, if_neg Bool.false_ne_true, fmtT64_eq, fmtRR_m6]
  show chk64 n _ _ _ _ (.lnch (t64Of _ _)) = _
  rw [chk64_ok (and_or_zero (and_or_zero t64_X t64_B) (t64_F _ hf)) hw1]
  rw [t64Of, fmtRR_19_5, fmtRR_14_5, fmtRR_9_5, fmtRR_1_8, fmtRR_bit0]
theorem dlgctlEnable (d) : Statement (.dlgctlEnable d) := fun h => absurd h Bool.false_ne_true
theorem dlgctlDisable (d) : Statement (.dlgctlDisable d) := fun h => absurd h Bool.false_ne_true
theorem remoteUpdateApply (n e) : Statement (.remoteUpdateApply n e) := fun h => absurd h Bool.false_ne_true
theorem migrantArrival (m) : Statement (.migrantArrival m) := fun h => absurd h Bool.false_ne_true
theorem migrantHomeArrival (m) : Statement (.migrantHomeArrival m) := fun h => absurd h Bool.false_ne_true
theorem delegationAccept (cid) : Statement (.delegationAccept cid) := fun h => absurd h Bool.false_ne_true
theorem delegationStart (cid) : Statement (.delegationStart cid) := fun h => absurd h Bool.false_ne_true
theorem repeatFrameStep : Statement (.repeatFrameStep) := fun h => absurd h Bool.false_ne_true
theorem latePoison (m) : Statement (.latePoison m) := fun h => absurd h Bool.false_ne_true
theorem engineFaultDelivery (m) : Statement (.engineFaultDelivery m) := fun h => absurd h Bool.false_ne_true
theorem recvtTimeout (m) : Statement (.recvtTimeout m) := fun h => absurd h Bool.false_ne_true
theorem mailboxWordArrival (src dst) : Statement (.mailboxWordArrival src dst) := fun h => absurd h Bool.false_ne_true
theorem portWordArrival (cid dir) : Statement (.portWordArrival cid dir) := fun h => absurd h Bool.false_ne_true
theorem qinWordArrival (src dst) : Statement (.qinWordArrival src dst) := fun h => absurd h Bool.false_ne_true
theorem counterOperationApply (n) : Statement (.counterOperationApply n) := fun h => absurd h Bool.false_ne_true
theorem bowTokenPass (n) : Statement (.bowTokenPass n) := fun h => absurd h Bool.false_ne_true
theorem mutePlacement (m) : Statement (.mutePlacement m) := fun h => absurd h Bool.false_ne_true
theorem leaseTermTimeout (quad) : Statement (.leaseTermTimeout quad) := fun h => absurd h Bool.false_ne_true
theorem engineCommandRun (cid eng e) : Statement (.engineCommandRun cid eng e) := fun h => absurd h Bool.false_ne_true
theorem engineCommandCompletion (cid eng) : Statement (.engineCommandCompletion cid eng) := fun h => absurd h Bool.false_ne_true
theorem restrictCombine (parent slot) : Statement (.restrictCombine parent slot) := fun h => absurd h Bool.false_ne_true
theorem putArrival (p) : Statement (.putArrival p) := fun h => absurd h Bool.false_ne_true
theorem putCounterIncrement (n) : Statement (.putCounterIncrement n) := fun h => absurd h Bool.false_ne_true
theorem armedPutDeadlineFire (cid n) : Statement (.armedPutDeadlineFire cid n) := fun h => absurd h Bool.false_ne_true
theorem putUndeliverable (n) : Statement (.putUndeliverable n) := fun h => absurd h Bool.false_ne_true
theorem linkFlitRetry (link) : Statement (.linkFlitRetry link) := fun h => absurd h Bool.false_ne_true
theorem memoryAccessPerform (m n e) : Statement (.memoryAccessPerform m n e) := fun h => absurd h Bool.false_ne_true
theorem pageWalk (n e) : Statement (.pageWalk n e) := fun h => absurd h Bool.false_ne_true
theorem icacheLineFill (cid line) : Statement (.icacheLineFill cid line) := fun h => absurd h Bool.false_ne_true
theorem retentionEntry (cid bank) : Statement (.retentionEntry cid bank) := fun h => absurd h Bool.false_ne_true
theorem retentionExitComplete (cid bank) : Statement (.retentionExitComplete cid bank) := fun h => absurd h Bool.false_ne_true
theorem patrolScrub (word e) : Statement (.patrolScrub word e) := fun h => absurd h Bool.false_ne_true
theorem watchdog (m) : Statement (.watchdog m) := fun h => absurd h Bool.false_ne_true
theorem budgetWindowStart : Statement (.budgetWindowStart) := fun h => absurd h Bool.false_ne_true
theorem emissionSlot : Statement (.emissionSlot) := fun h => absurd h Bool.false_ne_true
theorem workItemArrival (n) : Statement (.workItemArrival n) := fun h => absurd h Bool.false_ne_true
theorem frontDoorFrame (fr) : Statement (.frontDoorFrame fr) := fun h => absurd h Bool.false_ne_true
theorem hostDoorbell (part secure link world tail) : Statement (.hostDoorbell part secure link world tail) := fun h => absurd h Bool.false_ne_true
theorem hostRingFetch (part secure rec) : Statement (.hostRingFetch part secure rec) := fun h => absurd h Bool.false_ne_true
theorem bar2HostAccess (part off wr) : Statement (.bar2HostAccess part off wr) := fun h => absurd h Bool.false_ne_true
theorem slotAllocatorRequest (die part n) : Statement (.slotAllocatorRequest die part n) := fun h => absurd h Bool.false_ne_true
theorem slotTableSwitch (die) : Statement (.slotTableSwitch die) := fun h => absurd h Bool.false_ne_true
theorem compatWrite (part v) : Statement (.compatWrite part v) := fun h => absurd h Bool.false_ne_true
theorem firmwareRegisterWrite (r v) : Statement (.firmwareRegisterWrite r v) := fun h => absurd h Bool.false_ne_true
theorem imageLoad (part image err) : Statement (.imageLoad part image err) := fun h => absurd h Bool.false_ne_true
theorem context0Start (cid pc) : Statement (.context0Start cid pc) := fun h => absurd h Bool.false_ne_true
theorem debugHalt (m) : Statement (.debugHalt m) := fun h => absurd h Bool.false_ne_true
theorem debugResume (m frame) : Statement (.debugResume m frame) := fun h => absurd h Bool.false_ne_true
theorem containment (t) : Statement (.containment t) := fun h => absurd h Bool.false_ne_true
theorem clusterReset (layer cl) : Statement (.clusterReset layer cl) := fun h => absurd h Bool.false_ne_true
theorem clusterReturn (layer cl pc) : Statement (.clusterReturn layer cl pc) := fun h => absurd h Bool.false_ne_true
theorem partitionReset (part) : Statement (.partitionReset part) := fun h => absurd h Bool.false_ne_true
theorem deviceStart (o) : Statement (.deviceStart o) := fun h => absurd h Bool.false_ne_true
theorem startTimeout : Statement (.startTimeout) := fun h => absurd h Bool.false_ne_true
theorem bootctlWrite (v) : Statement (.bootctlWrite v) := fun h => absurd h Bool.false_ne_true
theorem throttleStep (down) : Statement (.throttleStep down) := fun h => absurd h Bool.false_ne_true
theorem attestationReport (part nonce) : Statement (.attestationReport part nonce) := fun h => absurd h Bool.false_ne_true
theorem illegalEncoding (f) : Statement (.illegalEncoding f) := fun h => absurd h Bool.false_ne_true
theorem microTlbFill (m) : Statement (.microTlbFill m) := fun h => absurd h Bool.false_ne_true
theorem hostBar0Write (part link world off v) : Statement (.hostBar0Write part link world off v) := fun h => absurd h Bool.false_ne_true
theorem hostLinkStateChange (link up) : Statement (.hostLinkStateChange link up) := fun h => absurd h Bool.false_ne_true
theorem powerCycle : Statement (.powerCycle) := fun h => absurd h Bool.false_ne_true
theorem c0rateWindowStart : Statement (.c0rateWindowStart) := fun h => absurd h Bool.false_ne_true

end Sys2Proof.Laws.RoundTrip
end

