-- ==== Sys2Proof/Certificates/Slice0/Obligations.lean ====
section
/-! DEFINITION. The statements about the model, one per rule or group of rules of the spec. The definitions that they share come
first, under `Sys2Proof.Spec`: results are written there over bit vectors, from the spec's tables, independently of the
model's own arithmetic. A hypothesis `readReg r s = .ok x s1` says that register field `r` reads `x` under Table 2.1 (any of its 32
numbers: a port, `qin` and `mbx` are popped); what a read and a write of a field do is stated by the obligations about `readReg` and
`writeReg`. -/

namespace Sys2Proof.Spec

open Sys2Proof.Machine

/-- A migrant names only general registers and `zr` (R33). -/
def FieldsOk (s : State) (rs : List Reg) : Prop := s.me.migrant = true → ∀ r ∈ rs, r.toNat < 24 ∨ r.toNat = 31

/-- The state in which the current context goes on behind the group that it executed in `s`, whose instruction has `len` bytes
and whose effect left `t` (R95, R98): each word before the instruction is 4 bytes. -/
def after (len : Nat) (s t : State) : State :=
  t.modMe fun c => { c with pc := s.me.pc + BitVec.ofNat 64 (4 * s.grp.n + len), via := s.me.pc, wait := none }

/-- The same with flags added to the sticky flags, unless the group's `nf` field keeps them out (R43, R75). -/
def withFlags (s : State) (f : BitVec 6) (t : State) : State :=
  if s.grp.arith && s.grp.nf then t else t.modMe fun c => { c with flags := c.flags ||| f }

/-- The saturation field in effect: 00 without an arithmetic modifier (R126). -/
def satField (s : State) : Nat := if s.grp.arith then s.grp.sat.toNat else 0

/-- A function of two `n`-bit values at the width of an INT instruction: 32 bits under W, sign-extended (R126). -/
def at2 (w : Bool) (f : (n : Nat) → BitVec n → BitVec n → BitVec n) (x y : Word) : Word :=
  if w then (f 32 (x.setWidth 32) (y.setWidth 32)).signExtend 64 else f 64 x y

/-- A function of one `n`-bit value at the width of an INT instruction (R126). -/
def at1 (w : Bool) (f : (n : Nat) → BitVec n → BitVec n) (x : Word) : Word :=
  if w then (f 32 (x.setWidth 32)).signExtend 64 else f 64 x

/-- The carry-less product: the XOR of B << i over every i with A[i] = 1 (R127). -/
def clProduct (x y : Word) : BitVec 128 :=
  (List.range 64).foldl (fun p i => if x.getLsbD i then p ^^^ (y.setWidth 128 <<< i) else p) 0

/-- The two-operand INT functions whose result does not depend on a saturation field of 00 (Table 6.2, R127). -/
def bin : Instr → Option (Reg × Reg × Reg × (Word → Word → Word))
  | .add d a b w _ => some (d, a, b, at2 w fun _ x y => x + y)
  | .sub d a b w _ => some (d, a, b, at2 w fun _ x y => x - y)
  | .and d a b w _ => some (d, a, b, at2 w fun _ x y => x &&& y)
  | .or d a b w _ => some (d, a, b, at2 w fun _ x y => x ||| y)
  | .xor d a b w _ => some (d, a, b, at2 w fun _ x y => x ^^^ y)
  | .andn d a b w _ => some (d, a, b, at2 w fun _ x y => x &&& ~~~y)
  | .shl d a b w _ => some (d, a, b, at2 w fun n x y => x <<< (y.toNat % n))
  | .shr d a b w _ => some (d, a, b, at2 w fun n x y => x >>> (y.toNat % n))
  | .sar d a b w _ => some (d, a, b, at2 w fun n x y => x.sshiftRight (y.toNat % n))
  | .rol d a b w _ => some (d, a, b, at2 w fun n x y => x.rotateLeft (y.toNat % n))
  | .mul d a b w _ => some (d, a, b, at2 w fun _ x y => x * y)
  | .mulh d a b w _ => some (d, a, b, at2 w fun n x y => (x.signExtend (2 * n) * y.signExtend (2 * n)).extractLsb' n n)
  | .mulhu d a b w _ => some (d, a, b, at2 w fun n x y => (x.setWidth (2 * n) * y.setWidth (2 * n)).extractLsb' n n)
  | .min d a b w _ => some (d, a, b, at2 w fun _ x y => if x.slt y then x else y)
  | .max d a b w _ => some (d, a, b, at2 w fun _ x y => if x.slt y then y else x)
  | .minu d a b w _ => some (d, a, b, at2 w fun _ x y => if x.ult y then x else y)
  | .maxu d a b w _ => some (d, a, b, at2 w fun _ x y => if x.ult y then y else x)
  | .slt d a b w _ => some (d, a, b, at2 w fun _ x y => if x.slt y then 1 else 0)
  | .sltu d a b w _ => some (d, a, b, at2 w fun _ x y => if x.ult y then 1 else 0)
  | .clmul d a b _ => some (d, a, b, fun x y => (clProduct x y).extractLsb' 0 64)
  | .clmulh d a b _ => some (d, a, b, fun x y => (clProduct x y).extractLsb' 64 64)
  | _ => none

/-- The one-operand INT functions under a saturation field of 00 (Table 6.2). -/
def una : Instr → Option (Reg × Reg × (Word → Word))
  | .clz d a w _ => some (d, a, at1 w fun n x => BitVec.ofNat n (((List.range n).find? fun i => x.getLsbD (n - 1 - i)).getD n))
  | .ctz d a w _ => some (d, a, at1 w fun n x => BitVec.ofNat n (((List.range n).find? fun i => x.getLsbD i).getD n))
  | .popc d a w _ => some (d, a, at1 w fun n x => BitVec.ofNat n ((List.range n).filter fun i => x.getLsbD i).length)
  | .brev d a w _ => some (d, a, at1 w fun n x => BitVec.ofFnLE fun i : Fin n => x.getLsbD (n - 1 - i))
  | .bswap d a w _ =>
    some (d, a, at1 w fun n x => BitVec.ofFnLE fun i : Fin n => x.getLsbD (8 * (n / 8 - 1 - i / 8) + i % 8))
  | .sxb d a w _ => some (d, a, at1 w fun n x => (x.setWidth 8).signExtend n)
  | .sxh d a w _ => some (d, a, at1 w fun n x => (x.setWidth 16).signExtend n)
  | .sxw d a _ => some (d, a, fun x => (x.setWidth 32).signExtend 64)
  | .zxb d a w _ => some (d, a, at1 w fun n x => (x.setWidth 8).setWidth n)
  | .zxh d a w _ => some (d, a, at1 w fun n x => (x.setWidth 16).setWidth n)
  | .zxw d a _ => some (d, a, fun x => (x.setWidth 32).setWidth 64)
  | .abs d a w _ => some (d, a, at1 w fun _ x => if x.msb then -x else x)
  | .neg d a w _ => some (d, a, at1 w fun _ x => -x)
  | _ => none

/-- An RI instruction as a function of its operand and its immediate under a saturation field of 00 (Table 6.4), with its
13-bit immediate; the shifts take theirs as an amount. -/
def immForm : Instr → Option (Reg × Reg × BitVec 13 × (Word → Word → Word))
  | .addi d a imm _ => some (d, a, imm, fun x y => x + y)
  | .andi d a imm _ => some (d, a, imm, fun x y => x &&& y)
  | .ori d a imm _ => some (d, a, imm, fun x y => x ||| y)
  | .xori d a imm _ => some (d, a, imm, fun x y => x ^^^ y)
  | .muli d a imm _ => some (d, a, imm, fun x y => x * y)
  | .slti d a imm _ => some (d, a, imm, fun x y => if x.slt y then 1 else 0)
  | .sltiu d a imm _ => some (d, a, imm, fun x y => if x.ult y then 1 else 0)
  | _ => none

/-- A shift by an immediate under a saturation field of 00 (Table 6.4). -/
def immShift : Instr → Option (Reg × Reg × BitVec 13 × (Word → Nat → Word))
  | .shli d a imm _ => some (d, a, imm, fun x k => x <<< k)
  | .shri d a imm _ => some (d, a, imm, fun x k => x >>> k)
  | .sari d a imm _ => some (d, a, imm, fun x k => x.sshiftRight k)
  | _ => none

/-- The immediate of an RI group: 13 bits sign-extended, or the 40 bits of an extension and the immediate (R99, R129). -/
def immValue (g : Grp) (imm : BitVec 13) : Word :=
  match g.ext with
  | some e => (e ++ imm).signExtend 64
  | none => imm.signExtend 64

/-- An exact result under `sat=s` or `sat=u` (R77): its value within the range of the format, and whether SAT is set. -/
def clamp (signed : Bool) (w : Bool) (e : Int) : Word × BitVec 6 :=
  let n := if w then 32 else 64
  let lo : Int := if signed then -2 ^ (n - 1) else 0
  let hi : Int := if signed then 2 ^ (n - 1) - 1 else 2 ^ n - 1
  let r := if e < lo then lo else if hi < e then hi else e
  (if w then (BitVec.ofInt 32 r).signExtend 64 else BitVec.ofInt 64 r, if e < lo ∨ hi < e then 1 else 0)

/-- An operand of a saturating function as an integer: signed under `sat=s`, unsigned under `sat=u` (R126). -/
def operand (signed w : Bool) (x : Word) : Int :=
  if w then (if signed then (x.setWidth 32).toInt else (x.setWidth 32).toNat) else (if signed then x.toInt else x.toNat)

/-- The saturating two-operand functions: their exact results from the operands as integers (Table 6.2); the amount of a shift
is the low bits of B. -/
def satBinary : Instr → Option (Reg × Reg × Reg × Bool × (Int → Int → Word → Int))
  | .add d a b w _ => some (d, a, b, w, fun x y _ => x + y)
  | .sub d a b w _ => some (d, a, b, w, fun x y _ => x - y)
  | .mul d a b w _ => some (d, a, b, w, fun x y _ => x * y)
  | .shl d a b w _ => some (d, a, b, w, fun x _ b => x * 2 ^ (if w then (b.setWidth 5).toNat else (b.setWidth 6).toNat))
  | _ => none

/-- Two states that differ at most in the model's count of steps and in what cores note of bow groups (R217). -/
def SameDevice (u t : State) : Prop :=
  { u with epoch := t.epoch, cores := t.cores } = t ∧ ∀ c, { u.core c with bow := (t.core c).bow } = t.core c

/-- Nothing is pending at a context's group boundary: no late poison, no engine fault, no repeat frame. -/
def NothingPending (c : Context) : Prop := c.late = none ∧ c.pend = none ∧ c.iters = 0

end Sys2Proof.Spec

open Sys2Proof Sys2Proof.Machine Sys2Proof.Spec

/-! ## Integer instructions -/

/-- Every two-operand INT function but division writes the result of Table 6.2, wrapped to its width, where no saturation is
asked for (R126, R127). -/
def Sys2Proof.Spec.IntTwoOperandResults : Prop :=
  ∀ (i : Instr) (d a b : Reg) (f : Word → Word → Word), bin i = some (d, a, b, f) →
    ∀ (s s1 s2 s3 : State) (x y : Word), satField s = 0 → FieldsOk s [d, a, b] →
      readReg a s = .ok x s1 → readReg b s1 = .ok y s2 → writeReg d (f x y) s2 = .ok () s3 →
      exec i s = .next (after 4 s s3)

/-- Every one-operand INT function writes the result of Table 6.2, where no saturation is asked for (R126). -/
def Sys2Proof.Spec.IntOneOperandResults : Prop :=
  ∀ (i : Instr) (d a : Reg) (f : Word → Word), una i = some (d, a, f) →
    ∀ (s s1 s2 : State) (x : Word), satField s = 0 → FieldsOk s [d, a] →
      readReg a s = .ok x s1 → writeReg d (f x) s1 = .ok () s2 → exec i s = .next (after 4 s s2)

/-- `add`, `sub`, `mul` and `shl` under `sat=s` and `sat=u` clamp the exact result and set SAT where they replace it (R77, R126);
so do `abs`, `neg`, `addi`, `muli` and `shli`. -/
def Sys2Proof.Spec.IntSaturatingResults : Prop :=
  (∀ (i : Instr) (d a b : Reg) (w : Bool) (f : Int → Int → Word → Int), satBinary i = some (d, a, b, w, f) →
    ∀ (s s1 s2 s3 : State) (x y : Word) (sg : Bool), satField s = (if sg then 1 else 2) → FieldsOk s [d, a, b] →
      readReg a s = .ok x s1 → readReg b s1 = .ok y s2 →
      writeReg d (clamp sg w (f (operand sg w x) (operand sg w y) y)).1 s2 = .ok () s3 →
      exec i s = .next (after 4 s (withFlags s (clamp sg w (f (operand sg w x) (operand sg w y) y)).2 s3))) ∧
  (∀ (d a : Reg) (w x' : Bool) (s s1 s2 : State) (x : Word) (sg : Bool), satField s = (if sg then 1 else 2) → FieldsOk s [d, a] →
    readReg a s = .ok x s1 →
    (writeReg d (clamp sg w |operand sg w x|).1 s1 = .ok () s2 →
      exec (.abs d a w x') s = .next (after 4 s (withFlags s (clamp sg w |operand sg w x|).2 s2))) ∧
    (writeReg d (clamp sg w (-operand sg w x)).1 s1 = .ok () s2 →
      exec (.neg d a w x') s = .next (after 4 s (withFlags s (clamp sg w (-operand sg w x)).2 s2)))) ∧
  (∀ (d a : Reg) (imm : BitVec 13) (x' : Bool) (s s1 s2 : State) (x : Word) (sg : Bool), satField s = (if sg then 1 else 2) →
    FieldsOk s [d, a] → readReg a s = .ok x s1 →
    (writeReg d (clamp sg false (operand sg false x + operand sg false (immValue s.grp imm))).1 s1 = .ok () s2 →
      exec (.addi d a imm x') s =
        .next (after 4 s (withFlags s (clamp sg false (operand sg false x + operand sg false (immValue s.grp imm))).2 s2))) ∧
    (writeReg d (clamp sg false (operand sg false x * operand sg false (immValue s.grp imm))).1 s1 = .ok () s2 →
      exec (.muli d a imm x') s =
        .next (after 4 s (withFlags s (clamp sg false (operand sg false x * operand sg false (immValue s.grp imm))).2 s2))) ∧
    (imm.toNat < 64 → writeReg d (clamp sg false (operand sg false x * 2 ^ imm.toNat)).1 s1 = .ok () s2 →
      exec (.shli d a imm x') s =
        .next (after 4 s (withFlags s (clamp sg false (operand sg false x * 2 ^ imm.toNat)).2 s2))))

/-- The statements above together. -/
def Obligations.IntResults : Prop := IntTwoOperandResults ∧ IntOneOperandResults ∧ IntSaturatingResults

/-- An RI instruction acts as its INT function with B replaced by the immediate (R129); a shift takes imm13 itself. -/
def Sys2Proof.Spec.ImmediateResults : Prop :=
  (∀ (i : Instr) (d a : Reg) (imm : BitVec 13) (f : Word → Word → Word), immForm i = some (d, a, imm, f) →
    ∀ (s s1 s2 : State) (x : Word), satField s = 0 → FieldsOk s [d, a] →
      readReg a s = .ok x s1 → writeReg d (f x (immValue s.grp imm)) s1 = .ok () s2 → exec i s = .next (after 4 s s2)) ∧
  (∀ (i : Instr) (d a : Reg) (imm : BitVec 13) (f : Word → Nat → Word), immShift i = some (d, a, imm, f) →
    ∀ (s s1 s2 : State) (x : Word), satField s = 0 → imm.toNat < 64 → FieldsOk s [d, a] →
      readReg a s = .ok x s1 → writeReg d (f x imm.toNat) s1 = .ok () s2 → exec i s = .next (after 4 s s2)) ∧
  (∀ (i : Instr) (d a : Reg) (imm : BitVec 13) (f : Word → Nat → Word), immShift i = some (d, a, imm, f) →
    ∀ (s : State), 64 ≤ imm.toNat → FieldsOk s [d, a] →
      exec i s = .next (takeTrap ⟨0x02, BitVec.ofNat 64 (2 ^ 62 + s.grp.n * 2 ^ 32 + imm.toNat / 64 * 2 ^ 7)⟩ s))

/-- Division truncates toward zero and the remainder has the sign of the dividend; a zero divisor traps under `mode.IDZ` and
otherwise sets DZ and gives Table 6.3 (R128). The trap comes whatever the destination is, also an edge port or `qin`: that order of the checks is
the model's reading (log 18, DEDUCED). -/
def Obligations.DivisionResults : Prop :=
  ∀ (d a b : Reg) (w x' : Bool) (s s1 s2 s3 : State) (x y : Word), FieldsOk s [d, a, b] →
    readReg a s = .ok x s1 → readReg b s1 = .ok y s2 →
    ((if w then y.setWidth 32 = 0 else y = 0) → s2.me.mode.getLsbD 8 = true →
      exec (.div d a b w x') s = .next (takeTrap ⟨0x0C, 0⟩ s) ∧ exec (.divu d a b w x') s = .next (takeTrap ⟨0x0C, 0⟩ s) ∧
      exec (.rem d a b w x') s = .next (takeTrap ⟨0x0C, 0⟩ s) ∧ exec (.remu d a b w x') s = .next (takeTrap ⟨0x0C, 0⟩ s)) ∧
    ((if w then y.setWidth 32 = 0 else y = 0) → s2.me.mode.getLsbD 8 = false →
      (writeReg d (-1) s2 = .ok () s3 → exec (.div d a b w x') s = .next (after 4 s (withFlags s 0b010000 s3))
        ∧ exec (.divu d a b w x') s = .next (after 4 s (withFlags s 0b010000 s3))) ∧
      (writeReg d (at1 w (fun _ x => x) x) s2 = .ok () s3 →
        exec (.rem d a b w x') s = .next (after 4 s (withFlags s 0b010000 s3)) ∧
        exec (.remu d a b w x') s = .next (after 4 s (withFlags s 0b010000 s3)))) ∧
    (¬(if w then y.setWidth 32 = 0 else y = 0) →
      (satField s = 0 → writeReg d (at2 w (fun _ x y => x.sdiv y) x y) s2 = .ok () s3 →
        exec (.div d a b w x') s = .next (after 4 s s3)) ∧
      (satField s = 1 → writeReg d (clamp true w ((operand true w x).tdiv (operand true w y))).1 s2 = .ok () s3 →
        exec (.div d a b w x') s =
          .next (after 4 s (withFlags s (clamp true w ((operand true w x).tdiv (operand true w y))).2 s3))) ∧
      (satField s = 2 → writeReg d (at2 w (fun _ x y => x.udiv y) x y) s2 = .ok () s3 →
        exec (.div d a b w x') s = .next (after 4 s s3)) ∧
      (writeReg d (at2 w (fun _ x y => x.udiv y) x y) s2 = .ok () s3 → exec (.divu d a b w x') s = .next (after 4 s s3)) ∧
      (writeReg d (at2 w (fun _ x y => x.srem y) x y) s2 = .ok () s3 → exec (.rem d a b w x') s = .next (after 4 s s3)) ∧
      (writeReg d (at2 w (fun _ x y => x.umod y) x y) s2 = .ok () s3 → exec (.remu d a b w x') s = .next (after 4 s s3)))

/-- `li` and `lix` write their sign-extended immediates; `lis` shifts 19 bits in, and only from a general register or `zr`
(R130–R132). -/
def Sys2Proof.Spec.ConstantResults : Prop :=
  (∀ (d : Reg) (imm : BitVec 19) (s s1 : State), FieldsOk s [d] → writeReg d (imm.signExtend 64) s = .ok () s1 →
    exec (.li d imm) s = .next (after 4 s s1)) ∧
  (∀ (d : Reg) (imm : BitVec 51) (s s1 : State), FieldsOk s [d] → writeReg d (imm.signExtend 64) s = .ok () s1 →
    exec (.lix d imm) s = .next (after 8 s s1)) ∧
  (∀ (d : Reg) (imm : BitVec 19) (s s1 s2 : State) (x : Word), FieldsOk s [d] → d.toNat < 24 ∨ d.toNat = 31 →
    readReg d s = .ok x s1 → writeReg d (x <<< 19 ||| imm.setWidth 64) s1 = .ok () s2 →
    exec (.lis d imm) s = .next (after 4 s s2)) ∧
  (∀ (d : Reg) (imm : BitVec 19) (s : State), FieldsOk s [d] → 24 ≤ d.toNat → d.toNat ≤ 30 →
    exec (.lis d imm) s = .next (takeTrap ⟨0x02, d.setWidth 64⟩ s))

/-- The statements above together. -/
def Obligations.ImmediateAndConstantResults : Prop := ImmediateResults ∧ ConstantResults

/-! ## Registers -/

namespace Sys2Proof.Spec

/-- The neighbour port that a register number names (Table 2.1). -/
def portDir (r : Nat) : Option Dir :=
  if r = 24 then some .north else if r = 25 then some .east else if r = 26 then some .south else if r = 27 then some .west
  else none

/-- The mailbox word that the hardware or a context sent, after a pop: k31 tells which (R32). -/
def markK31 (k : W32) (hw : Bool) : W32 := if hw then k ||| 0x80000000 else k &&& 0x7FFFFFFF

end Sys2Proof.Spec

/-- A register field reads as Table 2.1 says (R27–R32): general registers and `zr`; ports, `qin` and `mbx` pop their oldest word or
wait; `qout` and a port at the mesh edge raise reserved-field with the register's number. -/
def Obligations.RegisterReads : Prop :=
  ∀ (r : Reg) (s : State),
    (r.toNat < 24 → s.me.awaits r.toNat = false → readReg r s = .ok (s.me.reg r.toNat) s) ∧
    (r.toNat < 24 → s.me.awaits r.toNat = true → readReg r s = .error (.wait .access) s) ∧
    (r.toNat = 31 → readReg r s = .ok 0 s) ∧
    (r.toNat = 29 → readReg r s = .error (.trap ⟨0x02, 29⟩) s) ∧
    (∀ d, portDir r.toNat = some d → neighbour s.minimal (mbaCid s.cur) d = none →
      readReg r s = .error (.trap ⟨0x02, r.setWidth 64⟩) s) ∧
    (∀ d n w q, portDir r.toNat = some d → neighbour s.minimal (mbaCid s.cur) d = some n →
      (s.core (mbaCid s.cur)).portq d = ⟨(w, none) :: q, []⟩ →
      readReg r s = .ok w (s.modCore (mbaCid s.cur) fun k => k.setPortq d ⟨q, []⟩)) ∧
    (∀ d n b, portDir r.toNat = some d → neighbour s.minimal (mbaCid s.cur) d = some n →
      (s.core (mbaCid s.cur)).portq d = ⟨[], b⟩ → readReg r s = .error (.port d) s) ∧
    (∀ m v q, r.toNat = 28 → s.me.qin = .word m v :: q → readReg r s = .ok v (s.modMe fun c => { c with qin := q })) ∧
    (r.toNat = 28 → s.me.qin = [] → readReg r s = .error (.wait .emptyQin) s) ∧
    (∀ w q, r.toNat = 30 → s.me.mbx = w :: q → ∃ t, readReg r s = .ok w.v t ∧ t.me.k = markK31 s.me.k w.hw ∧
      (t.me.mbx = q ∨ ∃ u ∈ s.ingress, u.dst = s.cur ∧ t.me.mbx = q ++ [⟨u.src, u.hw, u.v, u.five⟩])) ∧
    (r.toNat = 30 → s.me.mbx = [] → readReg r s = .error (.wait .emptyRead) s)

/-- Writing a register field does what Table 2.1 says (R27–R32): general registers and `zr`; a port sends to the neighbour, `qout`
downstream, `mbx` to `msgdst`; `qin` and an edge port raise reserved-field. Sends wait while an earlier access of the context is outstanding
(R315) and for room; a word for a cluster under reset is lost, and its sender told (R415). -/
def Obligations.RegisterWrites : Prop :=
  ∀ (r : Reg) (v : Word) (s : State),
    (r.toNat < 24 → s.me.awaits r.toNat = false → writeReg r v s = .ok () (s.modMe fun c => c.setReg r.toNat v)) ∧
    (r.toNat < 24 → s.me.awaits r.toNat = true → writeReg r v s = .error (.wait .access) s) ∧
    (r.toNat = 31 → writeReg r v s = .ok () s) ∧
    (r.toNat = 28 → writeReg r v s = .error (.trap ⟨0x02, 28⟩) s) ∧
    (∀ d, portDir r.toNat = some d → neighbour s.minimal (mbaCid s.cur) d = none →
      writeReg r v s = .error (.trap ⟨0x02, r.setWidth 64⟩) s) ∧
    (∀ d n, portDir r.toNat = some d → neighbour s.minimal (mbaCid s.cur) d = some n → s.me.out = [] →
      (if ((s.core n).portq (opposite d)).q.length + (s.pnet.filter fun w => w.cid = n && w.dir = opposite d).length < 8 then
        ∃ t, writeReg r v s = .ok () t ∧ t.pnet = s.pnet ++ [⟨n, opposite d, s.cur, v, s.me.bowgrp⟩] ∧ t.ctxs = s.ctxs
      else writeReg r v s = .error (.wait .fullWrite) s)) ∧
    (r.toNat = 29 → qlinkOk s s.cur = false → writeReg r v s = .error (.trap ⟨0x02, s.me.qlink⟩) s) ∧
    (∀ d n, portDir r.toNat = some d → neighbour s.minimal (mbaCid s.cur) d = some n → s.me.out ≠ [] →
      writeReg r v s = .error (.wait .access) s) ∧
    (r.toNat = 29 → qlinkOk s s.cur = true → s.me.out ≠ [] → writeReg r v s = .error (.wait .access) s) ∧
    (r.toNat = 29 → qlinkOk s s.cur = true → s.me.out = [] →
      (if qoutUsed s s.cur (s.me.qlink.setWidth 20).toNat < 16 then
        ∃ t, writeReg r v s = .ok () t ∧
          t.qnet = s.qnet ++ [⟨s.cur, (s.me.qlink.setWidth 20).toNat, .word s.cur v, s.me.bowgrp⟩] ∧ t.ctxs = s.ctxs
      else writeReg r v s = .error (.wait .fullWrite) s)) ∧
    (r.toNat = 30 → mbaValid s.minimal s.me.msgdst.toNat = false → writeReg r v s = .error (.trap ⟨0x02, s.me.msgdst⟩) s) ∧
    (r.toNat = 30 → mbaValid s.minimal s.me.msgdst.toNat = true → s.me.out ≠ [] → writeReg r v s = .error (.wait .access) s) ∧
    (r.toNat = 30 → mbaValid s.minimal s.me.msgdst.toNat = true → s.me.out = [] →
      ((s.cluster (clKey (mbaCid s.me.msgdst.toNat))).down = true ∨ (s.core (mbaCid s.me.msgdst.toNat)).down = true) →
      ∃ t, writeReg r v s = .ok () t ∧ t = postHw s (mbaCid s.cur) s.cur
        (BitVec.ofNat 64 (0x0D * 2 ^ 56 + 2 ^ 32 + mbaCid s.me.msgdst.toNat * 2 ^ 16 + mbaCtx s.me.msgdst.toNat)) ∧ t.ctxs = s.ctxs) ∧
    (r.toNat = 30 → mbaValid s.minimal s.me.msgdst.toNat = true → s.me.out = [] →
      (s.cluster (clKey (mbaCid s.me.msgdst.toNat))).down = false → (s.core (mbaCid s.me.msgdst.toNat)).down = false →
      (if creditsUsed s (mbaCid s.cur) (mbaCid s.me.msgdst.toNat) < 64 then
        ∃ t, writeReg r v s = .ok () t ∧ t.net = s.net ++ [⟨s.cur, s.me.msgdst.toNat, false, v, 0, s.me.bowgrp, s.mseq, false⟩] ∧ t.ctxs = s.ctxs
      else writeReg r v s = .error (.wait .sendFull) s))

/-- What a register field's read and write leave alone (R28, R29): all of memory; every other context whole; and of the current one everything
but the queue that is read, with k31 and the mailbox's rotation where the mailbox is, or the register that is written. -/
def Obligations.RegisterTrafficFrame : Prop :=
  (∀ (r : Reg) (s t : State) (v : Word), readReg r s = .ok v t →
    (∀ a, memGet t.mem a = memGet s.mem a) ∧ t.poison = s.poison ∧ t.empties = s.empties ∧ t.parts = s.parts ∧ t.cur = s.cur ∧
    t.grp = s.grp ∧ t.tick = s.tick ∧ t.clk = s.clk ∧ (∀ m, m ≠ s.cur → t.ctx m = s.ctx m) ∧
    t.me = { s.me with k := t.me.k, mbx := t.me.mbx, rot := t.me.rot, rcv := t.me.rcv, qin := t.me.qin } ∧
    (∀ i < 31, t.me.k.getLsbD i = s.me.k.getLsbD i) ∧
    (r.toNat ≠ 30 → t.me.k = s.me.k ∧ t.me.mbx = s.me.mbx ∧ t.me.rot = s.me.rot ∧ t.me.rcv = s.me.rcv) ∧
    (r.toNat ≠ 28 → t.me.qin = s.me.qin)) ∧
  (∀ (r : Reg) (v : Word) (s t : State), writeReg r v s = .ok () t →
    (∀ a, memGet t.mem a = memGet s.mem a) ∧ t.poison = s.poison ∧ t.empties = s.empties ∧ t.parts = s.parts ∧ t.cur = s.cur ∧
    t.grp = s.grp ∧ t.tick = s.tick ∧ t.clk = s.clk ∧ (∀ m, m ≠ s.cur → t.ctx m = s.ctx m) ∧ t.me = { s.me with x := t.me.x } ∧
    ∀ n < 24, n ≠ r.toNat → t.me.reg n = s.me.reg n)

/-! ## Compare, select and predicates -/

namespace Sys2Proof.Spec

/-- A relation of two values at a width (R133). -/
def rel (w : Bool) (f : (n : Nat) → BitVec n → BitVec n → Bool) (x y : Word) : Bool :=
  if w then f 32 (x.setWidth 32) (y.setWidth 32) else f 64 x y

/-- `cmp` by condition: the predicate bit, the operands, the combine field and the relation (Table 5.3, R133). -/
def cmpForm : Instr → Option (BitVec 5 × Reg × Reg × BitVec 2 × (Word → Word → Bool))
  | .cmpEq k a b w comb => some (k, a, b, comb, rel w fun _ x y => x == y)
  | .cmpNe k a b w comb => some (k, a, b, comb, rel w fun _ x y => x != y)
  | .cmpLt k a b w comb => some (k, a, b, comb, rel w fun _ x y => x.slt y)
  | .cmpGe k a b w comb => some (k, a, b, comb, rel w fun _ x y => !x.slt y)
  | .cmpLtu k a b w comb => some (k, a, b, comb, rel w fun _ x y => x.ult y)
  | .cmpGeu k a b w comb => some (k, a, b, comb, rel w fun _ x y => !x.ult y)
  | _ => none

/-- `cmpi` by condition (R134). -/
def cmpiForm : Instr → Option (BitVec 5 × Reg × BitVec 10 × (Word → Word → Bool))
  | .cmpiEq k a imm => some (k, a, imm, fun x y => x == y)
  | .cmpiNe k a imm => some (k, a, imm, fun x y => x != y)
  | .cmpiLt k a imm => some (k, a, imm, fun x y => x.slt y)
  | .cmpiGe k a imm => some (k, a, imm, fun x y => !x.slt y)
  | .cmpiLtu k a imm => some (k, a, imm, fun x y => x.ult y)
  | .cmpiGeu k a imm => some (k, a, imm, fun x y => !x.ult y)
  | _ => none

/-- The predicate word with one bit written. -/
def putBit (k : W32) (i : BitVec 5) (b : Bool) : W32 := if b then k ||| (1#32 <<< i.toNat) else k &&& ~~~(1#32 <<< i.toNat)

/-- A state whose current context has bit `i` of `k` written. -/
def putK (s : State) (i : BitVec 5) (b : Bool) : State := s.modMe fun c => { c with k := putBit c.k i b }

/-- The combine field of `cmp`: set, and, or, xor (R133). -/
def combined (comb : BitVec 2) (old c : Bool) : Bool :=
  if comb = 0 then c else if comb = 1 then old && c else if comb = 2 then old || c else xor old c

end Sys2Proof.Spec

/-- `cmp` updates predicate bit k[d] as its combine field states, and `cmpi` sets it to the comparison; no other bit of `k`
changes (R133, R134). -/
def Sys2Proof.Spec.CompareResults : Prop :=
  (∀ i k a b comb f, cmpForm i = some (k, a, b, comb, f) →
    ∀ (s s1 s2 : State) (x y : Word), FieldsOk s [a, b] → readReg a s = .ok x s1 → readReg b s1 = .ok y s2 →
      exec i s = .next (after 4 s (putK s2 k (combined comb (s2.me.k.getLsbD k.toNat) (f x y))))) ∧
  (∀ i k a imm f, cmpiForm i = some (k, a, imm, f) →
    ∀ (s s1 : State) (x : Word), FieldsOk s [a] → readReg a s = .ok x s1 →
      exec i s = .next (after 4 s (putK s1 k (f x (imm.signExtend 64)))))

/-- `sel` reads both operands and writes one of them, and the KOP instructions act on `k` as Table 6.7 states (R135, R136). -/
def Sys2Proof.Spec.SelectAndPredicateResults : Prop :=
  (∀ (d a b : Reg) (inv : Bool) (kb : BitVec 5) (s s1 s2 s3 : State) (x y : Word), FieldsOk s [d, a, b] →
    readReg a s = .ok x s1 → readReg b s1 = .ok y s2 →
    writeReg d (if xor (s2.me.k.getLsbD kb.toNat) inv then x else y) s2 = .ok () s3 →
    exec (.sel d a b inv kb) s = .next (after 4 s s3)) ∧
  (∀ (d : Reg) (s s1 : State), FieldsOk s [d] → writeReg d (s.me.k.setWidth 64) s = .ok () s1 →
    exec (.kget d) s = .next (after 4 s s1)) ∧
  (∀ (a : Reg) (s s1 : State) (x : Word), FieldsOk s [a] → readReg a s = .ok x s1 →
    exec (.kset a) s = .next (after 4 s (s1.modMe fun c => { c with k := x.setWidth 32 }))) ∧
  (∀ (d a b : BitVec 5) (s : State), let p := fun i : BitVec 5 => s.me.k.getLsbD i.toNat
    exec (.kand d a b) s = .next (after 4 s (putK s d (p a && p b))) ∧
    exec (.kor d a b) s = .next (after 4 s (putK s d (p a || p b))) ∧
    exec (.kxor d a b) s = .next (after 4 s (putK s d (xor (p a) (p b)))) ∧
    exec (.knot d a) s = .next (after 4 s (putK s d (!p a))))

/-- The statements above together. -/
def Obligations.ComparesSelectsAndPredicates : Prop := CompareResults ∧ SelectAndPredicateResults

/-! ## Special registers -/

namespace Sys2Proof.Spec

/-- The special registers that every context may read, with what each holds for the current context (Table 2.5, R41–R47); the core
is the one where the thread runs. -/
def readable (s : State) : List (BitVec 10 × Word) :=
  let c := s.me
  let k := s.core s.here
  [(0x000, c.mode), (0x001, c.flags.setWidth 64), (0x004, (c.ctxid.setWidth 4).setWidth 64), (0x005, BitVec.ofNat 64 s.here),
   (0x006, BitVec.ofNat 64 (cidLayer s.here)), (0x007, (BitVec.ofBool c.sec ++ c.part).setWidth 64), (0x008, c.msgdst),
   (0x009, BitVec.ofNat 64 s.gtime), (0x00A, BitVec.ofNat 64 (s.cycles (cidLayer s.here))), (0x00B, c.jobseed), (0x00C, c.rngst),
   (0x030, c.fretboard.setWidth 64), (0x050, c.tcause.setWidth 64), (0x051, c.tinfo), (0x052, c.tpc),
   (0x070, if (s.part c.part.toNat).compat then 1 else 0), (0x080, c.qlink), (0x081, c.bowgrp.setWidth 64),
   (0x082, BitVec.ofNat 64 (k.dlg.en.toNat + 2 * k.dlg.cur.isSome.toNat + 256 * k.dlg.queue.length)), (0x083, c.qcls.setWidth 64)]
  ++ (List.range 16).map (fun n => (BitVec.ofNat 10 (0x010 + n), (k.fmt.getD n 0).setWidth 64))
  ++ (List.range 16).map (fun n => (BitVec.ofNat 10 (0x020 + n), (k.bscl.getD n 0).setWidth 64))
  ++ (List.range 6).map (fun n => (BitVec.ofNat 10 (0x040 + n),
      let e := k.eng.getD n EngSt.init
      (0#16 ++ e.cause ++ 0#7 ++ BitVec.ofBool e.fault ++ e.last : Word)))

/-- A context is the cluster supervisor context: context 0 of the core with cluster core index 0 (R46). -/
def ofCluster (s : State) : Prop := mbaCtx s.cur = 0 ∧ cidCci (mbaCid s.cur) = 0

/-- What engines set in the current context's flags in the present cycle of the core where its thread runs (R75, R138): all of it, and what of it
was clear before. -/
def setNow (s : State) : BitVec 6 × BitVec 6 :=
  match s.me.ored with
  | some o => if o.cyc = s.cycles (cidLayer s.here) then (o.all, o.new) else (0, 0)
  | none => (0, 0)

/-- What a valid write of the current context's own special register leaves of it (Table 2.5, R42–R46, R217, Table 2.8): flags that engines set in
the same cycle stay set (R75). -/
def written (s : State) (n : BitVec 10) (v : Word) : Option Context :=
  let c := s.me
  if n = 0x000 then
    if v.setWidth 3 = 0 ∨ v.setWidth 3 = 7 then none
    else some { c with mode := c.mode.extractLsb' 9 55 ++ v.setWidth 9 }
  else if n = 0x001 then if v.extractLsb' 6 58 = 0 then some { c with flags := v.setWidth 6 ||| (setNow s).1 } else none
  else if n = 0x008 then some { c with msgdst := v }
  else if n = 0x00C then if v = 0 then none else some { c with rngst := v, gpos := 0 }
  else if n = 0x080 then
    if v.extractLsb' 21 43 = 0 ∧ (v.getLsbD 20 = false ∨ mbaValid s.minimal (v.setWidth 20).toNat = true) then some { c with qlink := v }
    else none
  else if n = 0x081 then if v.extractLsb' 16 48 = 0 then some { c with bowgrp := v.setWidth 16 } else none
  else none

/-- Numbers of the special registers that a context has for itself and may write whatever its mode. -/
def ownWritable (n : BitVec 10) : Prop := n = 0x000 ∨ n = 0x001 ∨ n = 0x008 ∨ n = 0x00C ∨ n = 0x080 ∨ n = 0x081

/-- The numbers that the tables of special registers give (Tables 2.5, 8.5, 11.6, 21.4, 22.2). -/
def listed (n : BitVec 10) : Prop :=
  n ∈ ([0x000, 0x001, 0x004, 0x005, 0x006, 0x007, 0x008, 0x009, 0x00A, 0x00B, 0x00C, 0x030, 0x050, 0x051, 0x052, 0x060, 0x070,
    0x080, 0x081, 0x082, 0x083, 0x084] : List (BitVec 10)) ∨ (0x010 ≤ n ∧ n ≤ 0x02F) ∨ (0x040 ≤ n ∧ n ≤ 0x045)

/-- The registers of a core or a cluster that no context writes (Table 2.5, 22.2). -/
def readOnlyThere (n : BitVec 10) : Prop :=
  n = 0x005 ∨ n = 0x006 ∨ n = 0x00A ∨ (0x040 ≤ n ∧ n ≤ 0x045) ∨ n = 0x060 ∨ n = 0x084

/-- The registers of a context, a partition or the device that a context may read and never writes (Table 2.5): a write raises privileged (R41). -/
def readOnly (n : BitVec 10) : Prop :=
  n = 0x004 ∨ n = 0x007 ∨ n = 0x009 ∨ n = 0x00B ∨ n = 0x030 ∨ n = 0x050 ∨ n = 0x051 ∨ n = 0x052 ∨ n = 0x070

end Sys2Proof.Spec

/-- `srg` writes what the special register holds (R41, R137): what every context reads, and what the cluster supervisor context reads of its
cluster: the union of the flags of the cluster's contexts, bit by bit (R46), and the error counts (Table 22.3). -/
def Obligations.SpecialRegisterReads : Prop :=
  ∀ (d : Reg) (s s1 : State), FieldsOk s [d] →
    (∀ (n : BitVec 10) (v : Word), (n, v) ∈ readable s → writeReg d v s = .ok () s1 → exec (.srg d n) s = .next (after 4 s s1)) ∧
    (ofCluster s → ∀ f : BitVec 6,
      (∀ i, f.getLsbD i = true ↔ ∃ x ∈ s.ctxs, clKey (mbaCid x.1) = clKey (mbaCid s.cur) ∧ x.2.flags.getLsbD i = true) →
      writeReg d (f.setWidth 64) s = .ok () s1 → exec (.srg d 0x060) s = .next (after 4 s s1)) ∧
    (ofCluster s →
      let k := s.cluster (clKey s.here)
      writeReg d (BitVec.ofNat 16 k.disc ++ BitVec.ofNat 16 k.unc ++ BitVec.ofNat 32 k.cor) s = .ok () s1 →
      exec (.srg d 0x084) s = .next (after 4 s s1))

/-- `srs` and `srx` write a context's own special registers; an invalid value raises reserved-field with the number and leaves the
register as it was (R41, R42, R44, R137). `srx` of `flags` reads them as they were before what engines set in the same cycle (R138). That `srx` judges the register field d first is the model's choice (log 95). -/
def Sys2Proof.Spec.SpecialRegisterWrites : Prop :=
  ∀ (d : Reg) (n : BitVec 10) (s s1 : State) (v : Word), ownWritable n → FieldsOk s [d] → readReg d s = .ok v s1 →
    (∀ c, written s1 n v = some c → exec (.srs d n) s = .next (after 4 s (s1.setCtx s1.cur c))) ∧
    (written s1 n v = none →
      exec (.srs d n) s = .next (takeTrap ⟨0x02, 0xC000000000000000 ||| n.setWidth 64⟩ s) ∧
      ((d.toNat < 24 ∨ d.toNat = 31) → exec (.srx d n) s = .next (takeTrap ⟨0x02, 0xC000000000000000 ||| n.setWidth 64⟩ s))) ∧
    (∀ c old s2, written s1 n v = some c → (d.toNat < 24 ∨ d.toNat = 31) →
      (if n = 0x001 then old = (s.me.flags &&& ~~~(setNow s).2).setWidth 64 else (n, old) ∈ readable s) →
      writeReg d old (s1.setCtx s1.cur c) = .ok () s2 → exec (.srx d n) s = .next (after 4 s s2)) ∧
    (24 ≤ d.toNat → d.toNat ≤ 30 → exec (.srx d n) s = .next (takeTrap ⟨0x02, d.setWidth 64⟩ s))

/-- A context at home writes the formats and scales of its core's banks: [6:0] of `fmtN` where the format code is not 0xD or 0xE and the
scale mode is not 0b11, which raise reserved-field, and [31:0] of `bsclN` (Table 2.5, R45). Context 0 and the supervisor context write
`qcls`, whose bits above 1 must be zero; any other context may not (Table 21.4). `srx` writes the same and hands over the old value (R137). -/
def Sys2Proof.Spec.BankRegisterWrites : Prop :=
  (∀ (d : Reg) (s s1 s2 : State) (v : Word), FieldsOk s [d] → readReg d s = .ok v s1 →
    ((s.me.sup = true ∨ mbaCtx s.cur = 0) →
      let t := s1.modMe fun c => { c with qcls := v.setWidth 2 }
      (v.toNat < 4 → exec (.srs d 0x083) s = .next (after 4 s t)) ∧
      (v.toNat < 4 → (d.toNat < 24 ∨ d.toNat = 31) → writeReg d (s.me.qcls.setWidth 64) t = .ok () s2 →
        exec (.srx d 0x083) s = .next (after 4 s s2)) ∧
      (4 ≤ v.toNat → exec (.srs d 0x083) s = .next (takeTrap ⟨0x02, 0xC000000000000083⟩ s))) ∧
    (s.me.sup = false → mbaCtx s.cur ≠ 0 → exec (.srs d 0x083) s = .next (takeTrap ⟨0x06, s.grp.instr⟩ s) ∧
      ((d.toNat < 24 ∨ d.toNat = 31) → exec (.srx d 0x083) s = .next (takeTrap ⟨0x06, s.grp.instr⟩ s)))) ∧
  (∀ (d : Reg) (n : Fin 16) (s s1 s2 : State) (v : Word), s.me.migrant = false → (d.toNat < 24 ∨ d.toNat = 31) → readReg d s = .ok v s1 →
    let bad := v.setWidth 4 = 0xD ∨ v.setWidth 4 = 0xE ∨ v.extractLsb' 4 2 = 3
    let fmt := s1.modCore s1.here fun k => { k with fmt := k.fmt.setIfInBounds n (v.setWidth 7) }
    let bscl := s1.modCore s1.here fun k => { k with bscl := k.bscl.setIfInBounds n (v.setWidth 32) }
    (bad → exec (.srx d (BitVec.ofNat 10 (0x010 + n))) s = .next (takeTrap ⟨0x02, BitVec.ofNat 64 (3 * 2 ^ 62 + 0x010 + n)⟩ s)) ∧
    (¬bad → writeReg d (((s.core s.here).fmt.getD n 0).setWidth 64) fmt = .ok () s2 →
      exec (.srx d (BitVec.ofNat 10 (0x010 + n))) s = .next (after 4 s s2)) ∧
    (writeReg d (((s.core s.here).bscl.getD n 0).setWidth 64) bscl = .ok () s2 →
      exec (.srx d (BitVec.ofNat 10 (0x020 + n))) s = .next (after 4 s s2))) ∧
  ∀ (d : Reg) (n : Fin 16) (s s1 : State) (v : Word), s.me.migrant = false → readReg d s = .ok v s1 →
    ((v.setWidth 4 = 0xD ∨ v.setWidth 4 = 0xE ∨ v.extractLsb' 4 2 = 3) →
      exec (.srs d (BitVec.ofNat 10 (0x010 + n))) s = .next (takeTrap ⟨0x02, BitVec.ofNat 64 (3 * 2 ^ 62 + 0x010 + n)⟩ s)) ∧
    (¬(v.setWidth 4 = 0xD ∨ v.setWidth 4 = 0xE ∨ v.extractLsb' 4 2 = 3) →
      exec (.srs d (BitVec.ofNat 10 (0x010 + n))) s =
        .next (after 4 s (s1.modCore s1.here fun k => { k with fmt := k.fmt.setIfInBounds n (v.setWidth 7) }))) ∧
    exec (.srs d (BitVec.ofNat 10 (0x020 + n))) s =
      .next (after 4 s (s1.modCore s1.here fun k => { k with bscl := k.bscl.setIfInBounds n (v.setWidth 32) }))

/-- A special-register number outside the tables raises illegal-encoding, a write of a read-only register and a read of `fltree` or `errcnt`
from another context than the cluster supervisor raise privileged, and none of them writes a register (R41, R46, Table 22.2). A migrant writes no
register of a core or a cluster (Table 7.11). That number and access are judged before the source is read is log 20 (log 19 for `fltree`); that
a migrant's migrant-restriction comes before the access check of a write, log 96. -/
def Sys2Proof.Spec.SpecialRegisterAccess : Prop :=
  (∀ (d : Reg) (n : BitVec 10) (s : State), FieldsOk s [d] → ¬listed n →
    exec (.srg d n) s = .next (takeTrap ⟨0x01, BitVec.ofNat 64 (s.grp.n * 2 ^ 32 + n.toNat * 16 + 3)⟩ s) ∧
    exec (.srs d n) s = .next (takeTrap ⟨0x01, BitVec.ofNat 64 (s.grp.n * 2 ^ 32 + n.toNat * 16 + 3)⟩ s) ∧
    ((d.toNat < 24 ∨ d.toNat = 31) →
      exec (.srx d n) s = .next (takeTrap ⟨0x01, BitVec.ofNat 64 (s.grp.n * 2 ^ 32 + n.toNat * 16 + 3)⟩ s))) ∧
  (∀ (d : Reg) (n : BitVec 10) (s : State), FieldsOk s [d] → readOnly n →
    exec (.srs d n) s = .next (takeTrap ⟨0x06, s.grp.instr⟩ s) ∧
    ((d.toNat < 24 ∨ d.toNat = 31) → exec (.srx d n) s = .next (takeTrap ⟨0x06, s.grp.instr⟩ s))) ∧
  (∀ (d : Reg) (n : BitVec 10) (s : State), FieldsOk s [d] → readOnlyThere n →
    exec (.srs d n) s = .next (takeTrap ⟨if s.me.migrant then 0x10 else 0x06, s.grp.instr⟩ s) ∧
    ((d.toNat < 24 ∨ d.toNat = 31) → n ≠ 0x060 → n ≠ 0x084 →
      exec (.srx d n) s = .next (takeTrap ⟨if s.me.migrant then 0x10 else 0x06, s.grp.instr⟩ s)) ∧
    ((d.toNat < 24 ∨ d.toNat = 31) → ¬ofCluster s → (n = 0x060 ∨ n = 0x084) →
      exec (.srx d n) s = .next (takeTrap ⟨0x06, s.grp.instr⟩ s))) ∧
  (∀ (d : Reg) (n : BitVec 10) (s : State), s.me.migrant = true → (d.toNat < 24 ∨ d.toNat = 31) →
    ((0x010 ≤ n ∧ n ≤ 0x02F) ∨ n = 0x082) →
    exec (.srs d n) s = .next (takeTrap ⟨0x10, s.grp.instr⟩ s) ∧ exec (.srx d n) s = .next (takeTrap ⟨0x10, s.grp.instr⟩ s)) ∧
  (∀ (d : Reg) (s : State), FieldsOk s [d] →
    (¬ofCluster s →
      exec (.srg d 0x084) s = .next (takeTrap ⟨0x06, s.grp.instr⟩ s) ∧
      exec (.srg d 0x060) s = .next (takeTrap ⟨0x06, s.grp.instr⟩ s) ∧
      exec (.fltree d) s = .next (takeTrap ⟨0x06, s.grp.instr⟩ s)))

/-- The statements above together. -/
def Obligations.SpecialRegisterUpdates : Prop := SpecialRegisterWrites ∧ BankRegisterWrites ∧ SpecialRegisterAccess

/-! ## Branches, jumps, traps and the repeat frame -/

namespace Sys2Proof.Spec

/-- A compare and branch: its operands, its displacement and its condition (R146). -/
def branchForm : Instr → Option (Reg × Reg × BitVec 14 × (Word → Word → Bool))
  | .beq a b disp => some (a, b, disp, fun x y => x == y)
  | .bne a b disp => some (a, b, disp, fun x y => x != y)
  | .blt a b disp => some (a, b, disp, fun x y => x.slt y)
  | .bge a b disp => some (a, b, disp, fun x y => !x.slt y)
  | .bltu a b disp => some (a, b, disp, fun x y => x.ult y)
  | .bgeu a b disp => some (a, b, disp, fun x y => !x.ult y)
  | _ => none

/-- The PC of the instruction's own first word: the group's PC behind its prefixes (R98). -/
def ownPc (s : State) : Word := s.me.pc + BitVec.ofNat 64 (4 * s.grp.n)

/-- A transfer's target passes its checks: below 2^48 and word-aligned (R148). -/
def targetOk (t : Word) : Prop := t.toNat < 2 ^ 48 ∧ t.toNat % 4 = 0

/-- The trap of a target that does not (R148). -/
def targetTrap (t : Word) : Trap := if 2 ^ 48 ≤ t.toNat then ⟨0x07, t⟩ else ⟨0x09, t⟩

/-- The current context goes on at `t`, reached from its group at `via` (R96). -/
def goTo (s : State) (t via : Word) : State := s.modMe fun c => { c with pc := t, via := via, wait := none }

/-- A word's field in iteration `i` of a repeat frame (R154, R155). -/
def staggered (v : BitVec 5) (i : Nat) (step : BitVec 2) : BitVec 5 :=
  if v.toNat < 24 then BitVec.ofNat 5 ((v.toNat + i * step.toNat) % 24) else v

end Sys2Proof.Spec

/-- A branch compares two registers over 64 bits, or tests a predicate bit, and goes to PC + 4 × its displacement or to the next
group; a target out of range or misaligned traps (R146, R148). -/
def Obligations.BranchResults : Prop :=
  (∀ i a b disp f, branchForm i = some (a, b, disp, f) →
    ∀ (s s1 s2 : State) (x y : Word), FieldsOk s [a, b] → readReg a s = .ok x s1 → readReg b s1 = .ok y s2 →
      let t := ownPc s + 4 * disp.signExtend 64
      (f x y = false → exec i s = .next (after 4 s s2)) ∧
      (f x y = true → targetOk t → exec i s = .next (goTo s2 t s.me.pc)) ∧
      (f x y = true → ¬targetOk t → exec i s = .next (takeTrap (targetTrap t) s))) ∧
  (∀ (k : BitVec 5) (disp : BitVec 19) (v : Bool) (s : State),
    let t := ownPc s + 4 * disp.signExtend 64
    let i := if v then Instr.bk k disp else Instr.bkn k disp
    (s.me.k.getLsbD k.toNat ≠ v → exec i s = .next (after 4 s s)) ∧
    (s.me.k.getLsbD k.toNat = v → targetOk t → exec i s = .next (goTo s t s.me.pc)) ∧
    (s.me.k.getLsbD k.toNat = v → ¬targetOk t → exec i s = .next (takeTrap (targetTrap t) s)))

/-- Jumps go to their target once it passes the checks of R148; `call` and `calll` write the following PC to x23 and `jalr` to d, only
then (R147, R148). -/
def Sys2Proof.Spec.JumpResults : Prop :=
  (∀ (disp : BitVec 24) (s s1 : State), let t := ownPc s + 4 * disp.signExtend 64
    (targetOk t → exec (.j disp) s = .next (goTo s t s.me.pc)) ∧
    (targetOk t → writeReg 23 (ownPc s + 4) s = .ok () s1 → exec (.call disp) s = .next (goTo s1 t s.me.pc)) ∧
    (¬targetOk t → exec (.j disp) s = .next (takeTrap (targetTrap t) s) ∧
      exec (.call disp) s = .next (takeTrap (targetTrap t) s))) ∧
  (∀ (imm : BitVec 51) (s s1 : State), let t := ownPc s + 4 * imm.signExtend 64
    (targetOk t → writeReg 23 (ownPc s + 8) s = .ok () s1 → exec (.calll imm) s = .next (goTo s1 t s.me.pc)) ∧
    (¬targetOk t → exec (.calll imm) s = .next (takeTrap (targetTrap t) s))) ∧
  (∀ (a : Reg) (s s1 : State) (t : Word), FieldsOk s [a] → readReg a s = .ok t s1 →
    (targetOk t → exec (.jr a) s = .next (goTo s1 t s.me.pc)) ∧
    (¬targetOk t → exec (.jr a) s = .next (takeTrap (targetTrap t) s))) ∧
  (∀ (d a : Reg) (s s1 s2 : State) (t : Word), FieldsOk s [d, a] → readReg a s = .ok t s1 →
    (targetOk t → writeReg d (ownPc s + 4) s1 = .ok () s2 → exec (.jalr d a) s = .next (goTo s2 t s.me.pc)) ∧
    (¬targetOk t → exec (.jalr d a) s = .next (takeTrap (targetTrap t) s))) ∧
  (∀ (s s1 : State) (t : Word), readReg 23 s = .ok t s1 →
    (targetOk t → exec .ret s = .next (goTo s1 t s.me.pc)) ∧
    (¬targetOk t → exec .ret s = .next (takeTrap (targetTrap t) s)))

/-- `trap` raises trap-instruction with its immediate, `brk` raises breakpoint, `halt` halts the context behind itself where a debugger is
attached to its partition and acts as `brk` elsewhere, `nop` does nothing, and `ifl` empties the core's instruction cache
(R149, R150). A word that does not decode raises what R105 states. -/
def Obligations.SystemInstructionResults : Prop :=
  ∀ (s : State),
    (∀ imm : BitVec 16, exec (.trap imm) s = .next (takeTrap ⟨0x15, imm.setWidth 64⟩ s)) ∧
    exec .brk s = .next (takeTrap ⟨0x14, 0⟩ s) ∧
    exec .nop s = .next (after 4 s s) ∧
    exec .ifl s = .next (after 4 s (s.modCore s.here fun k => { k with ic := [] })) ∧
    ((s.part s.me.part.toNat).dbg = false → exec .halt s = .next (takeTrap ⟨0x14, 0⟩ s)) ∧
    ((s.part s.me.part.toNat).dbg = true → ∃ t, exec .halt s = .next t ∧ t.me.run = .halted none ∧
      t.me.pc = ownPc s + 4 ∧ t.me.x = s.me.x ∧ t.mem = s.mem) ∧
    (∀ i r, exec (.illegalEncoding (.illegal i r)) s = .next (takeTrap ⟨0x01, BitVec.ofNat 64 (i * 2 ^ 32 + r)⟩ s)) ∧
    (∀ i (m : W32), exec (.illegalEncoding (.reserved i m)) s =
      .next (takeTrap ⟨0x02, BitVec.ofNat 64 (2 ^ 62 + i * 2 ^ 32 + m.toNat)⟩ s))

/-- `eret` checks its target and writes `mode`[47:9]: zeros where the repeat count given is 0, else the count and the position; bits [8:0]
stay, and the frame is rebuilt by the next step (R151, R158). -/
def Sys2Proof.Spec.EretResults : Prop :=
  ∀ (a b : Reg) (s s1 s2 : State) (t m : Word), FieldsOk s [a, b] → readReg a s = .ok t s1 → readReg b s1 = .ok m s2 →
    (¬targetOk t → exec (.eret a b) s = .next (takeTrap (targetTrap t) s)) ∧
    (targetOk t → m.extractLsb' 16 32 = 0 → exec (.eret a b) s = .next (goTo
      (s2.modMe fun c => { c with mode := (c.mode.setWidth 9).setWidth 64, frame := none }) t (-1))) ∧
    (targetOk t → m.extractLsb' 16 32 ≠ 0 → exec (.eret a b) s = .next (goTo
      (s2.modMe fun c => { c with
        mode := (m.extractLsb' 16 32 ++ 0#3 ++ m.extractLsb' 9 4 ++ c.mode.setWidth 9).setWidth 64, frame := none }) t (-1)))

/-- The statements above together. -/
def Obligations.JumpsAndReturns : Prop := JumpResults ∧ EretResults

namespace Sys2Proof.Spec

/-- A captured word fails the content check: bit 31, a major above 0x17, or a 1 in bit 0 where the format carries X, which every assigned major up
to 0x17 but `li` and `lis` does (R153, Tables 4.2 and 5.1). -/
def contentFails (w : W32) : Bool :=
  let m := (w.extractLsb' 24 7).toNat
  w.getLsbD 31 || decide (0x17 < m) || (w.getLsbD 0 && m != 0x0B && m != 0x0C && m != 0x12 && m != 0x13)

/-- The field d of a captured word is a general register that the instruction writes, by major and function code (Tables 5.1 and 5.2, R154). -/
def destination (w : W32) : Bool :=
  let m := (w.extractLsb' 24 7).toNat
  let f := (w.extractLsb' 1 8).toNat
  let g := f % 128
  (m = 0x00 && (g ≤ 0x18 || (0x20 ≤ g && g ≤ 0x2C))) || (1 ≤ m && m ≤ 0x0C) || m = 0x0F || (m = 0x10 && f = 0)
    || (m = 0x11 && (f = 0 || f = 2)) || (m = 0x14 && g ≤ 0x0E) || m = 0x15 || (m = 0x17 && f / 16 ≤ 0xC && f % 16 ≤ 0xC)

/-- A captured word writes the count register `c` in some iteration below `n` under a stagger `sd` of its destination (R154). -/
def hitsCount (w : W32) (sd : BitVec 2) (c : Reg) (n : Nat) : Prop :=
  destination w = true ∧ (w.extractLsb' 19 5).toNat < 24 ∧ ∃ i < n, ((w.extractLsb' 19 5).toNat + i * sd.toNat) % 24 = c.toNat

/-- The word at offset `o` of the code segment passes the fetch checks of R35: the X right and the limit. -/
def codeOk (s : State) (o : Nat) : Prop :=
  let d : Desc := s.me.seg.getD 0 0
  d.getLsbD 10 = true ∧ o + 4 ≤ (d.extractLsb' 80 48).toNat

/-- It does, and the core's instruction cache holds `w` there. -/
def codeWord (s : State) (o : Nat) (w : W32) : Prop :=
  codeOk s o ∧ icWord s s.here (((s.me.seg.getD 0 0 : Desc).extractLsb' 32 48).toNat + o) = .ok w

/-- The fetch fault of a word of a window: `tpc` is the word's address, and `tinfo` names it with kind 14 (R153, R230). -/
def codeTrap (s : State) (o : Nat) : State :=
  let cause := if (s.me.seg.getD 0 0 : Desc).getLsbD 10 then 0x07 else 0x08
  takeTrapOf s s.cur ⟨⟨cause, BitVec.ofNat 64 (14 * 2 ^ 56 + o % 2 ^ 48)⟩, BitVec.ofNat 64 o, s.grp.instr, s.grp.pfxs⟩

/-- The frame of the `rep` at offset `rpc`, of a length n + 1 and with the words that the core fetches behind it (R152, R153). -/
def frameAt (s : State) (rpc : Nat) (n : BitVec 4) (f : RFrame) : Prop :=
  f.rpc = BitVec.ofNat 64 rpc ∧ f.words.length = n.toNat + 1 ∧ ∀ j ≤ n.toNat, codeWord s (rpc + 4 + 4 * j) (f.words.getD j 0)

/-- Where the `rep` word of a context that resumes inside a frame lies: at PC − 4 × (`fpos` + 1) (R158). -/
def repPlace (s : State) : Nat := (s.me.pc.toNat + 2 ^ 48 - 4 * (s.me.fpos + 1)) % 2 ^ 48

/-- The frame that a context stands in: the one it has captured, or, where it has just resumed, the one that the core fetches again, whose checks
it passes, with the value of the count register as its number of iterations (R155, R158). -/
def inFrame (s : State) (f : RFrame) : Prop :=
  s.me.frame = some f ∨
  (s.me.frame = none ∧ ∃ w n, codeWord s (repPlace s) w ∧ decode32 0 w = .ok (.rep n f.sd f.sa f.sb f.c) ∧ frameAt s (repPlace s) n f ∧
    s.me.fpos ≤ n.toNat ∧ f.c.toNat < 24 ∧ s.me.awaits f.c.toNat = false ∧ f.words.any contentFails = false ∧
    f.n = (s.me.reg f.c.toNat).toNat ∧ s.me.iters ≤ f.n)

end Sys2Proof.Spec

/-- `rep` reads its count from a general register or `zr` and captures the window of n + 1 words behind it; N = 0 passes the window, and
otherwise `mode` holds N and position 0 and the frame runs (R152, R153, R155). A fetch fault names the failing word's address; the first word that
fails the content check, whatever N is, and otherwise the first that writes the count register in some iteration, raise frame-content with the
word's index (R153, R154). That N is judged before the window is fetched is the model's choice (log 101). -/
def Sys2Proof.Spec.RepCaptures : Prop :=
  ∀ (n : BitVec 4) (sd sa sb : BitVec 2) (c : Reg) (s : State) (v : Word),
    (24 ≤ c.toNat → c.toNat ≤ 30 → s.me.migrant = false →
      exec (.rep n sd sa sb c) s = .next (takeTrap ⟨0x02, c.setWidth 64⟩ s)) ∧
    ((c.toNat < 24 ∨ c.toNat = 31) → readReg c s = .ok v s →
      (2 ^ 32 ≤ v.toNat → exec (.rep n sd sa sb c) s = .next (takeTrap ⟨0x02, v⟩ s)) ∧
      (v.toNat < 2 ^ 32 → ∀ j ≤ n.toNat, (∀ i < j, ∃ w, codeWord s (s.me.pc.toNat + 4 + 4 * i) w) →
        ¬codeOk s (s.me.pc.toNat + 4 + 4 * j) → exec (.rep n sd sa sb c) s = .next (codeTrap s (s.me.pc.toNat + 4 + 4 * j))) ∧
      (v.toNat < 2 ^ 32 → ∀ f, frameAt s s.me.pc.toNat n f → f.sd = sd → f.sa = sa → f.sb = sb → f.c = c → f.n = v.toNat →
        (∀ i ≤ n.toNat, contentFails (f.words.getD i 0) = true → (∀ k < i, contentFails (f.words.getD k 0) = false) →
          exec (.rep n sd sa sb c) s = .next (takeTrap ⟨0x05, BitVec.ofNat 64 i⟩ s)) ∧
        (f.words.any contentFails = false →
          (∀ i ≤ n.toNat, hitsCount (f.words.getD i 0) sd c v.toNat → (∀ k < i, ¬hitsCount (f.words.getD k 0) sd c v.toNat) →
            exec (.rep n sd sa sb c) s = .next (takeTrap ⟨0x05, BitVec.ofNat 64 i⟩ s)) ∧
          ((∀ w ∈ f.words, ¬hitsCount w sd c v.toNat) →
            (v = 0 → exec (.rep n sd sa sb c) s = .next (goTo s (s.me.pc + BitVec.ofNat 64 (4 * (n.toNat + 2))) s.me.pc)) ∧
            (v ≠ 0 → exec (.rep n sd sa sb c) s = .next (goTo (s.modMe fun c => { c with
              mode := ((v.setWidth 32) ++ 0#3 ++ 0#4 ++ c.mode.setWidth 9).setWidth 64, frame := some f })
              (s.me.pc + 4) s.me.pc))))))

/-- A context that resumes inside a frame has it rebuilt: where the word at PC − 4 × (`fpos` + 1) is no `rep`, `fpos` exceeds its n, a word of the
window fails the content check, or x[c] is smaller than `iters`, frame-content is raised with `tinfo` = `fpos`; a word that cannot be fetched raises
its fetch fault (R153, R158). That a `rep` that names register 24 to 30 or has a 1 in its bits [8:0] is no `rep` here is log 109, and that its place is
taken modulo 2^48 log 110 (DESIGN CHOICE). -/
def Sys2Proof.Spec.FramesRebuilt : Prop :=
  ∀ (s : State) (w : W32), s.me.iters ≠ 0 → s.me.frame = none →
    let g := { s with grp := { Grp.none with instr := (wordsAt s s.cur).1 } }
    let fails := exec .repeatFrameStep s = .next (takeTrap ⟨0x05, BitVec.ofNat 64 s.me.fpos⟩ g)
    (¬codeOk s (repPlace s) → exec .repeatFrameStep s = .next (codeTrap g (repPlace s))) ∧
    (codeWord s (repPlace s) w →
      ((∀ n sd sa sb c, decode32 0 w ≠ .ok (.rep n sd sa sb c)) → fails) ∧
      (∀ n sd sa sb c, decode32 0 w = .ok (.rep n sd sa sb c) →
        (∀ j ≤ n.toNat, (∀ i < j, ∃ x, codeWord s (repPlace s + 4 + 4 * i) x) → ¬codeOk s (repPlace s + 4 + 4 * j) →
          exec .repeatFrameStep s = .next (codeTrap g (repPlace s + 4 + 4 * j))) ∧
        (∀ f, frameAt s (repPlace s) n f →
          (n.toNat < s.me.fpos → fails) ∧ (24 ≤ c.toNat → fails) ∧ (f.words.any contentFails = true → fails) ∧
          (c.toNat < 24 → s.me.awaits c.toNat = false → (s.me.reg c.toNat).toNat < s.me.iters → fails))))

/-- A step of a frame executes word j of iteration i = N − `iters` with its general-register fields staggered, N being what x[c] held at the `rep` or
where the context resumed, and moves the position on: to
the next word, to the next iteration, or past the window with `mode`[47:9] zero (R154, R155, R158). The words execute as the same
instructions do outside a frame. -/
def Sys2Proof.Spec.RepeatFrameSteps : Prop :=
  (∀ (s s1 : State) (f : RFrame) (ins : Instr), s.me.iters ≠ 0 → inFrame s f →
    decode32 0 (stagger f (f.words.getD s.me.fpos 0) (f.n - s.me.iters)) = .ok ins →
    frameBody ins { s with grp := { Grp.none with instr := recWord (f.words.getD s.me.fpos 0) 0 } } = .ok () s1 →
    let pos := fun (it fp : Nat) (c : Context) =>
      ((BitVec.ofNat 32 it ++ 0#3 ++ BitVec.ofNat 4 fp ++ c.mode.setWidth 9).setWidth 64 : Word)
    (s.me.fpos + 1 < f.words.length → exec .repeatFrameStep s = .next (goTo
      (s1.modMe fun c => { c with mode := pos s.me.iters (s.me.fpos + 1) c, frame := some f })
      (f.rpc + BitVec.ofNat 64 (4 * (s.me.fpos + 2))) f.rpc)) ∧
    (f.words.length ≤ s.me.fpos + 1 → 1 < s.me.iters → exec .repeatFrameStep s = .next (goTo
      (s1.modMe fun c => { c with mode := pos (s.me.iters - 1) 0 c, frame := some f }) (f.rpc + 4) f.rpc)) ∧
    (f.words.length ≤ s.me.fpos + 1 → s.me.iters = 1 → exec .repeatFrameStep s = .next (goTo
      (s1.modMe fun c => { c with mode := pos 0 0 c, frame := none })
      (f.rpc + BitVec.ofNat 64 (4 * (f.words.length + 1))) f.rpc))) ∧
  (∀ (f : RFrame) (w : W32) (i : Nat), contentFails w = false →
    ((stagger f w i).extractLsb' 24 8 = w.extractLsb' 24 8) ∧ ((stagger f w i).extractLsb' 0 9 = w.extractLsb' 0 9) ∧
    (stagger f w i).extractLsb' 19 5 =
      (if (regFields w).1 then staggered (w.extractLsb' 19 5) i f.sd else w.extractLsb' 19 5) ∧
    (stagger f w i).extractLsb' 14 5 =
      (if (regFields w).2.1 then staggered (w.extractLsb' 14 5) i f.sa else w.extractLsb' 14 5) ∧
    (stagger f w i).extractLsb' 9 5 =
      (if (regFields w).2.2 then staggered (w.extractLsb' 9 5) i f.sb else w.extractLsb' 9 5)) ∧
  (∀ (w : W32) (ins : Instr) (s : State), contentFails w = false → decode32 0 w = .ok ins →
    exec ins s = runInstr 4 (frameBody ins) s)

/-- The statements above together. -/
def Obligations.RepeatFrames : Prop := RepCaptures ∧ FramesRebuilt ∧ RepeatFrameSteps

/-! ## Floating-point instructions -/

namespace Sys2Proof.Spec

/-- Reads of register fields in order (R29). -/
def readAll : List Reg → State → Option (List Word × State)
  | [], s => some ([], s)
  | r :: rs, s =>
    match readReg r s with
    | .ok v t => (readAll rs t).map fun x => (v :: x.1, x.2)
    | .error .. => none

/-- Width, fraction width and exponent width of a scalar format (Table 3.2). -/
def fw (dbl : Bool) : Nat := if dbl then 64 else 32
/-- Fraction width. -/
def ft (dbl : Bool) : Nat := if dbl then 52 else 23
/-- The bits of infinity without a sign. -/
def infMag (dbl : Bool) : Nat := if dbl then 0x7FF0000000000000 else 0x7F800000

/-- The magnitude bits of an operand, and its sign (R55). -/
def fmag (dbl : Bool) (x : Word) : Nat := x.toNat % 2 ^ (fw dbl - 1)
/-- The sign bit of an operand. -/
def fneg (dbl : Bool) (x : Word) : Bool := x.getLsbD (fw dbl - 1)
/-- An operand is a NaN. -/
def fnan (dbl : Bool) (x : Word) : Bool := infMag dbl < fmag dbl x
/-- An operand is a signalling NaN (R58). -/
def fsnan (dbl : Bool) (x : Word) : Bool := fnan dbl x && !x.getLsbD (ft dbl - 1)
/-- The place of an operand that is not a NaN in the order of values, where −0 = +0. -/
def fkey (dbl : Bool) (x : Word) : Int := if fneg dbl x then -(fmag dbl x : Int) else fmag dbl x
/-- An operand whole in the image of its format (R55). -/
def fimg (dbl : Bool) (x : Word) : Word := if dbl then x else (x.setWidth 32).setWidth 64
/-- A result with the magnitude of one operand and a given sign. -/
def fwith (dbl : Bool) (x : Word) (s : Bool) : Word := BitVec.ofNat 64 (fmag dbl x + if s then 2 ^ (fw dbl - 1) else 0)
/-- A NaN operand quieted (R58). -/
def fquiet (dbl : Bool) (x : Word) : Word := fimg dbl x ||| BitVec.ofNat 64 (2 ^ (ft dbl - 1))

/-- The functions of Table 6.8 that only look at bits, of the operands in order: the result and its flags. -/
def fpBitForm : Instr → Option (Reg × List Reg × (List Word → Word × BitVec 6))
  | .fabs d a dbl _ => some (d, [a], fun xs => (fwith dbl (xs.headD 0) false, 0))
  | .fneg d a dbl _ => some (d, [a], fun xs => (fwith dbl (xs.headD 0) !(fneg dbl (xs.headD 0)), 0))
  | .fsgnj d a b dbl _ => some (d, [a, b], fun xs => (fwith dbl (xs.headD 0) (fneg dbl (xs.getD 1 0)), 0))
  | .fclass d a dbl _ => some (d, [a], fun xs =>
      let x := xs.headD 0
      let m := fmag dbl x
      let n := fneg dbl x
      let bit := if m = infMag dbl then (if n then 0 else 7) else if infMag dbl < m then (if fsnan dbl x then 8 else 9)
        else if m = 0 then (if n then 3 else 4) else if m < 2 ^ ft dbl then (if n then 2 else 5) else (if n then 1 else 6)
      (BitVec.ofNat 64 (2 ^ bit), 0))
  | .fmin d a b dbl _ => some (d, [a, b], fun xs => minMax dbl false (xs.headD 0) (xs.getD 1 0))
  | .fmax d a b dbl _ => some (d, [a, b], fun xs => minMax dbl true (xs.headD 0) (xs.getD 1 0))
  | _ => none
where
  /-- minimumNumber and maximumNumber, −0 below +0 (R140). -/
  minMax (dbl hi : Bool) (x y : Word) : Word × BitVec 6 :=
    let nv := if fsnan dbl x || fsnan dbl y then 0b100000 else 0
    let less := fkey dbl x < fkey dbl y ∨ (fkey dbl x = fkey dbl y ∧ fneg dbl x = true ∧ fneg dbl y = false)
    if fnan dbl x && fnan dbl y then (fquiet dbl x, nv)
    else if fnan dbl x then (fimg dbl y, nv)
    else if fnan dbl y then (fimg dbl x, nv)
    else (fimg dbl (if less then (if hi then y else x) else (if hi then x else y)), 0)

/-- `fcmp` by condition: predicate bit, operands, and what it gives with its flag (Table 6.11). -/
def fcmpForm : Instr → Option (BitVec 5 × Reg × Reg × (Word → Word → Bool × BitVec 6))
  | .fcmpEq k a b dbl _ => some (k, a, b, fun x y => (num dbl x y && fkey dbl x == fkey dbl y, sig dbl x y))
  | .fcmpLt k a b dbl _ => some (k, a, b, fun x y => (num dbl x y && decide (fkey dbl x < fkey dbl y), any dbl x y))
  | .fcmpLe k a b dbl _ => some (k, a, b, fun x y => (num dbl x y && decide (fkey dbl x ≤ fkey dbl y), any dbl x y))
  | .fcmpUn k a b dbl _ => some (k, a, b, fun x y => (!num dbl x y, sig dbl x y))
  | .fcmpEqs k a b dbl _ => some (k, a, b, fun x y => (num dbl x y && fkey dbl x == fkey dbl y, any dbl x y))
  | _ => none
where
  /-- Neither operand is a NaN. -/
  num (dbl : Bool) (x y : Word) : Bool := !fnan dbl x && !fnan dbl y
  /-- NV for a signalling NaN. -/
  sig (dbl : Bool) (x y : Word) : BitVec 6 := if fsnan dbl x || fsnan dbl y then 0b100000 else 0
  /-- NV for any NaN. -/
  any (dbl : Bool) (x y : Word) : BitVec 6 := if num dbl x y then 0 else 0b100000

/-- The exceptions in a flag set that the context has enabled in `mode.TE` (R76). -/
def trapping (s : State) (f : BitVec 6) : Prop := f.extractLsb' 1 5 &&& s.me.mode.extractLsb' 3 5 ≠ 0

/-- The effective rounding mode (R67). -/
def roundMode (s : State) : Nat :=
  if s.grp.arith ∧ s.grp.rnd ≠ 0 then s.grp.rnd.toNat else (s.me.mode.setWidth 3).toNat

/-- The next state of the generator (R70). -/
def xorshift (v : Word) : Word :=
  let a := v ^^^ (v >>> 12)
  let b := a ^^^ (a <<< 25)
  b ^^^ (b >>> 27)

/-- One 16-bit value drawn, with the state in which it has been drawn (R70, R72). -/
def drawn (s : State) : Nat × State :=
  let v := if s.me.gpos = 0 then xorshift s.me.rngst else s.me.rngst
  (((v * 0x2545F4914F6CDD1D).extractLsb' (16 * s.me.gpos.toNat) 16).toNat,
   s.modMe fun c => { c with rngst := v, gpos := c.gpos + 1 })

/-- What decides a rounding of an instruction, and the state after the drawing that RSR asks for (R66, R67, R69, R73). -/
def roundingOf (s : State) (draws : Bool) : REnv × State :=
  if roundMode s = 6 ∧ draws = true then (⟨6, s.grp.arith, s.grp.sat.toNat, false, (drawn s).1⟩, (drawn s).2)
  else (⟨roundMode s, s.grp.arith, s.grp.sat.toNat, false, 0⟩, s)

/-- The bits that the image of a format takes in a register (Table 3.1). -/
def imageBits : Nat → Nat
  | 0 => 64 | 1 => 64 | 2 => 32 | 3 => 32 | 4 => 64 | 5 => 32 | 6 => 16 | 7 => 16 | 12 => 32 | _ => 8

/-- The register that a result of a format is written as: `i32` and `i8` sign-extended, the others with zeros above (Table 3.1). -/
def regImage (code r : Nat) : Word :=
  if code = 2 then (BitVec.ofNat 32 r).signExtend 64 else if code = 10 then (BitVec.ofNat 8 r).signExtend 64
  else BitVec.ofNat 64 (r % 2 ^ imageBits code)

/-- The destinations into which a conversion from a format is a rounding: some value of the source lies strictly between two adjacent values of them,
and the formats differ (R69). -/
def canRoundInto : Nat → List Nat
  | 0 => [4, 5, 6, 7, 8, 9] | 1 => [4, 5, 6, 7, 8, 9] | 2 => [5, 6, 7, 8, 9] | 3 => [5, 6, 7, 8, 9]
  | 4 => [0, 1, 2, 3, 5, 6, 7, 8, 9, 10, 11, 12] | 5 => [0, 1, 2, 3, 6, 7, 8, 9, 10, 11, 12] | 6 => [0, 1, 2, 3, 7, 8, 9, 10, 11, 12]
  | 7 => [0, 1, 2, 3, 6, 8, 9, 10, 11, 12] | 8 => [0, 1, 2, 3, 9, 10, 11, 12] | 9 => [0, 1, 2, 3, 8, 10, 11, 12]
  | 10 => [8, 9] | 11 => [8, 9] | 12 => [0, 1, 2, 3, 9, 10, 11] | _ => []

/-- The arithmetic instructions: destination, operands in the order they are read, the format of operands and result, whether a
random value is drawn, and the function of the operand values (Table 6.8, R69, R142, R143, R145). -/
def fpForm : Instr → Option (Reg × List Reg × Nat × Nat × Bool × (REnv → List Nat → FRes))
  | .fadd d a b dbl _ => some (d, [a, b], fc dbl, fc dbl, true, two fun v x y => fAdd (fc dbl) v (decodeF (fc dbl) x) (decodeF (fc dbl) y))
  | .fsub d a b dbl _ => some (d, [a, b], fc dbl, fc dbl, true, two fun v x y => fSub (fc dbl) v (decodeF (fc dbl) x) (decodeF (fc dbl) y))
  | .fmul d a b dbl _ => some (d, [a, b], fc dbl, fc dbl, true, two fun v x y => fMul (fc dbl) v (decodeF (fc dbl) x) (decodeF (fc dbl) y))
  | .fdiv d a b dbl _ => some (d, [a, b], fc dbl, fc dbl, true, two fun v x y => fDiv (fc dbl) v (decodeF (fc dbl) x) (decodeF (fc dbl) y))
  | .fsqrt d a dbl _ => some (d, [a], fc dbl, fc dbl, true, one fun v x => fSqrt (fc dbl) v (decodeF (fc dbl) x))
  | .frcpa d a dbl _ => some (d, [a], fc dbl, fc dbl, false, one fun v x => fRcpa (fc dbl) v (decodeF (fc dbl) x))
  | .frsqa d a dbl _ => some (d, [a], fc dbl, fc dbl, false, one fun v x => fRsqa (fc dbl) v (decodeF (fc dbl) x))
  | .fexp2a d a dbl _ => some (d, [a], fc dbl, fc dbl, false, one fun v x => fExp2a (fc dbl) v (decodeF (fc dbl) x))
  | .flog2a d a dbl _ => some (d, [a], fc dbl, fc dbl, false, one fun v x => fLog2a (fc dbl) v (decodeF (fc dbl) x))
  | .fma d a b c dbl _ => some (d, [a, b, c], fc dbl, fc dbl, true, three (fc dbl) false false)
  | .fms d a b c dbl _ => some (d, [a, b, c], fc dbl, fc dbl, true, three (fc dbl) false true)
  | .fnma d a b c dbl _ => some (d, [a, b, c], fc dbl, fc dbl, true, three (fc dbl) true true)
  | .fnms d a b c dbl _ => some (d, [a, b, c], fc dbl, fc dbl, true, three (fc dbl) true false)
  | .fcvt d a src dst _ =>
    if src.toNat ≤ 12 ∧ dst.toNat ≤ 12 then
      some (d, [a], src.toNat, dst.toNat, (canRoundInto src.toNat).elem dst.toNat, one fun v x => fConvert src.toNat dst.toNat v x)
    else none
  | _ => none
where
  /-- The format code of a scalar instruction (Table 3.1). -/
  fc (dbl : Bool) : Nat := if dbl then 4 else 5
  /-- A function of one operand. -/
  one (f : REnv → Nat → FRes) : REnv → List Nat → FRes := fun v xs => f v (xs.headD 0)
  /-- A function of two operands. -/
  two (f : REnv → Nat → Nat → FRes) : REnv → List Nat → FRes := fun v xs => f v (xs.headD 0) (xs.getD 1 0)
  /-- ±(A × B) ± C: a NaN operand keeps its sign (R58, R143). -/
  three (k : Nat) (np nc : Bool) : REnv → List Nat → FRes := fun v xs =>
    let flip := fun (p : Bool) (z : FVal) => if p && !z.isNaN then z.negate else z
    fFma k v (flip np (decodeF k (xs.headD 0))) (decodeF k (xs.getD 1 0)) (flip nc (decodeF k (xs.getD 2 0)))

/-- `±m' × 2^e'` is `±num ÷ den × 2^e` rounded under a mode (Table 3.7, R69 with its 16 random bits), where the result's spacing is 2^e'. -/
def RoundsTo (rnd rho : Nat) (sign : Bool) (num den : Nat) (e : Int) (m' : Nat) (e' : Int) : Prop :=
  let lo := min e e'
  let x : Int := num * 2 ^ (e - lo).toNat
  let y : Int := den * (m' * 2 ^ (e' - lo).toNat)
  let u : Int := den * 2 ^ (e' - lo).toNat
  (rnd = 1 → 2 * |x - y| ≤ u ∧ (2 * |x - y| = u → m' % 2 = 0)) ∧
  (rnd = 2 → y ≤ x ∧ x < y + u) ∧
  (rnd = 3 → if sign then y ≤ x ∧ x < y + u else y - u < x ∧ x ≤ y) ∧
  (rnd = 4 → if sign then y - u < x ∧ x ≤ y else y ≤ x ∧ x < y + u) ∧
  (rnd = 5 → 2 * |x - y| ≤ u ∧ (2 * |x - y| = u → x < y)) ∧
  (rnd = 6 → (m' : Int) = x / u + if 2 ^ 16 ≤ x % u * 2 ^ 16 / u + rho then 1 else 0)

/-- `num ÷ den × 2^e` is `m' × 2^e'`. -/
def Equals (num den : Nat) (e : Int) (m' : Nat) (e' : Int) : Prop :=
  num * 2 ^ (e - min e e').toNat = den * (m' * 2 ^ (e' - min e e').toNat)

/-- `num ÷ den × 2^e` lies in the binade of 2^k. -/
def Leading (num den : Nat) (e k : Int) : Prop :=
  den * 2 ^ (k - min e k).toNat ≤ num * 2 ^ (e - min e k).toNat ∧ num * 2 ^ (e - min e k).toNat < 2 * (den * 2 ^ (k - min e k).toNat)

/-- Widths of exponent and fraction, bias, and largest finite value of a floating-point format (Table 3.2). -/
def params : Nat → Nat × Nat × Int × Nat × Int
  | 4 => (11, 52, 1023, 2 ^ 53 - 1, 971)
  | 5 => (8, 23, 127, 2 ^ 24 - 1, 104)
  | 6 => (5, 10, 15, 65504, 0)
  | 7 => (8, 7, 127, 2 ^ 8 - 1, 120)
  | 8 => (4, 3, 7, 448, 0)
  | _ => (5, 2, 15, 57344, 0)

/-- The sign bit of a format. -/
def sgnOf (code : Nat) (s : Bool) : Nat := if s then 2 ^ ((params code).1 + (params code).2.1) else 0
/-- The bits of infinity. -/
def infOf (code : Nat) (s : Bool) : Nat := sgnOf code s + (2 ^ (params code).1 - 1) * 2 ^ (params code).2.1
/-- The bits of the largest finite value (Table 3.2). -/
def maxOf (code : Nat) (s : Bool) : Nat := if code = 8 then sgnOf 8 s + 0x7E else infOf code s - 1

/-- The result of an overflow (Tables 3.6 and 3.8), under the policy of R66. -/
def overflow (code : Nat) (v : REnv) (s : Bool) : Nat :=
  if (v.pfx = true ∧ (v.sat = 1 ∨ v.sat = 2)) ∨ v.bank = true ∨ (code = 8 ∧ v.pfx = false) then maxOf code s
  else if code = 8 then sgnOf 8 s + 0x7F
  else if v.rnd = 2 ∨ (v.rnd = 3 ∧ s = true) ∨ (v.rnd = 4 ∧ s = false) then maxOf code s
  else infOf code s

/-- The bits `r` of a format read as `±m × 2^e` with the fraction at the place that `e` gives it: a carry out of the fraction raises the exponent. -/
def ReadsAs (code : Nat) (s : Bool) (m : Nat) (e : Int) (r : Nat) : Prop :=
  r < 2 ^ ((params code).1 + (params code).2.1 + 1) ∧
  decodeF code r = if m = 2 ^ ((params code).2.1 + 1) then .fin s (2 ^ (params code).2.1) (e + 1) else .fin s m e

/-- The result `r` and the flags `f` of `±num ÷ den × 2^e` rounded once into a format: where the magnitude rounded with an unbounded exponent
exceeds the largest finite value, the overflow result with OF and NX; otherwise `r` reads as the value rounded to the unit in the last place that the
binade of the exact value gives, or to the subnormal step; NX says whether that differs (or whether the value given was itself `cut`), and UF whether it
is then tiny after rounding (R59, R65, R66, R68, R69). -/
def Rounded (code : Nat) (v : REnv) (s : Bool) (num den : Nat) (e : Int) (cut : Prop) (r : Nat) (f : BitVec 6) : Prop :=
  let (_, t, bias, maxM, maxE) := params code
  ∃ k m1, Leading num den e k ∧ RoundsTo v.rnd v.rho s num den e m1 (k - t) ∧
    let big := maxM * 2 ^ (maxE - min maxE (k - t)).toNat < m1 * 2 ^ (k - t - min maxE (k - t)).toNat
    (big → r = overflow code v s ∧ f = 0b001010) ∧
    (¬big → ∃ m', RoundsTo v.rnd v.rho s num den e m' (max k (1 - bias) - t) ∧ ReadsAs code s m' (max k (1 - bias) - t) r ∧
      ((f.getLsbD 1 = true) ↔ (cut ∨ ¬Equals num den e m' (max k (1 - bias) - t))) ∧
      ((f.getLsbD 2 = true) ↔ (k < 1 - bias ∧ m1 < 2 ^ (1 - bias - k + t).toNat ∧ f.getLsbD 1 = true)) ∧
      f &&& 0b111001 = 0)

end Sys2Proof.Spec

/-- `fabs`, `fneg` and `fsgnj` change the sign bit alone, `fclass` gives the bit of Table 6.9, and `fmin` and `fmax` the operand that
R140 names; NV of a signalling NaN traps where it is enabled, and nothing is written then (R76, R139–R141). -/
def Sys2Proof.Spec.FpBitResults : Prop :=
  ∀ i d rs f, fpBitForm i = some (d, rs, f) →
    ∀ (s s1 s2 : State) (xs : List Word), FieldsOk s (d :: rs) → readAll rs s = some (xs, s1) →
      (trapping s1 (f xs).2 → exec i s = .next (takeTrap ⟨0x0D, BitVec.ofNat 64 ((f xs).2.toNat / 2)⟩ s)) ∧
      (¬trapping s1 (f xs).2 → writeReg d (f xs).1 s1 = .ok () s2 → exec i s = .next (after 4 s (withFlags s (f xs).2 s2)))

/-- `fcmp` writes its predicate bit and NV as Table 6.11 states; an enabled NV traps and leaves `k` unchanged (R144). -/
def Sys2Proof.Spec.FpCompareResults : Prop :=
  ∀ i k a b f, fcmpForm i = some (k, a, b, f) →
    ∀ (s s1 s2 : State) (x y : Word), FieldsOk s [a, b] → readReg a s = .ok x s1 → readReg b s1 = .ok y s2 →
      (trapping s2 (f x y).2 → exec i s = .next (takeTrap ⟨0x0D, BitVec.ofNat 64 ((f x y).2.toNat / 2)⟩ s)) ∧
      (¬trapping s2 (f x y).2 → exec i s = .next (after 4 s (withFlags s (f x y).2 (putK s2 k (f x y).1))))

/-- The statements above together. -/
def Obligations.FpBitAndCompareResults : Prop := FpBitResults ∧ FpCompareResults

/-- A rounding instruction reads its operands in order, draws where RSR asks for it, and either traps on an enabled exception, with
neither d nor `flags` written, or writes its result's image and adds its flags (R54, R55, R69, R73, R75, R76, R139, R142, R143, R145). A `q4x` group
converted into `q4x` draws nothing, and its slot 0 is rounded with ρ = 0 under RSR (log 123, DESIGN CHOICE). What the value
functions give is the subject of `FpRoundingAndSpecialOperands`. -/
def Obligations.FpArithmeticResults : Prop :=
  ∀ i d rs src dst draws f, fpForm i = some (d, rs, src, dst, draws, f) →
    ∀ (s s1 s2 : State) (xs : List Word), FieldsOk s (d :: rs) → readAll rs s = some (xs, s1) →
      let r := f (roundingOf s1 draws).1 (xs.map fun x => x.toNat % 2 ^ imageBits src)
      (trapping s1 r.2 → exec i s = .next (takeTrap ⟨0x0D, BitVec.ofNat 64 (r.2.toNat / 2)⟩ s)) ∧
      (¬trapping s1 r.2 → writeReg d (regImage dst r.1) (roundingOf s1 draws).2 = .ok () s2 →
        exec i s = .next (after 4 s (withFlags s r.2 s2)))

/-- Finite operands: the bits of a format read as R57 and R58 state; the sum, the product and the quotient are the exact values rounded once
under the effective mode, RSR with its random bits among them, with the overflow result, NX and UF as R59 and R66 state; the difference is the sum
with the second sign turned, and an exact zero has the sign that Table 6.8 gives it (R66, R68, R69, R139, Tables 3.2, 3.6, 3.7, 3.8). -/
def Sys2Proof.Spec.FpExactlyRounded : Prop :=
  (∀ (code x : Nat) (s : Bool), 4 ≤ code → code ≤ 9 → x < 2 ^ ((params code).1 + (params code).2.1) →
    let (eb, t, bias, _, _) := params code
    let e := x / 2 ^ t
    let fr := x % 2 ^ t
    decodeF code (sgnOf code s + x) =
      if e = 2 ^ eb - 1 ∧ (code = 8 → fr = 7) then
        (if fr = 0 then .inf s else .nan s (decide (code = 8 ∨ 2 ^ (t - 1) ≤ fr)) (fr * 2 ^ (52 - t)))
      else if e = 0 then .fin s fr (1 - bias - t) else .fin s (2 ^ t + fr) (e - bias - t)) ∧
  ∀ (code : Nat) (v : REnv), 4 ≤ code → code ≤ 9 → 1 ≤ v.rnd → v.rnd ≤ 6 → v.rho < 2 ^ 16 →
    (∀ (s : Bool) (m : Nat) (e : Int), m ≠ 0 →
      Rounded code v s m 1 e False (roundRes code v s m e).1 (roundRes code v s m e).2) ∧
    (∀ (s : Bool) (e : Int), roundRes code v s 0 e = (sgnOf code s, 0)) ∧
    (∀ (s1 s2 : Bool) (m1 m2 : Nat) (e1 e2 : Int),
      fMul code v (.fin s1 m1 e1) (.fin s2 m2 e2) = roundRes code v (s1 != s2) (m1 * m2) (e1 + e2)) ∧
    (∀ (s1 s2 : Bool) (m1 m2 : Nat) (e1 e2 : Int) (t : Int),
      (m1 * 2 ^ (e1 - min e1 e2).toNat : Int) * (if s1 then -1 else 1) + (m2 * 2 ^ (e2 - min e1 e2).toNat : Int) * (if s2 then -1 else 1)
        = t →
      (t ≠ 0 → fAdd code v (.fin s1 m1 e1) (.fin s2 m2 e2) = roundRes code v (decide (t < 0)) t.natAbs (min e1 e2)) ∧
      (t ≠ 0 → fSub code v (.fin s1 m1 e1) (.fin (!s2) m2 e2) = roundRes code v (decide (t < 0)) t.natAbs (min e1 e2)) ∧
      (t = 0 → fAdd code v (.fin s1 m1 e1) (.fin s2 m2 e2) = (sgnOf code (if m1 = 0 ∧ s1 = s2 then s1 else decide (v.rnd = 4)), 0)) ∧
      (t = 0 → fSub code v (.fin s1 m1 e1) (.fin (!s2) m2 e2) = (sgnOf code (if m1 = 0 ∧ s1 = s2 then s1 else decide (v.rnd = 4)), 0))) ∧
    (∀ (s1 s2 : Bool) (m2 : Nat) (e1 e2 : Int), m2 ≠ 0 → fDiv code v (.fin s1 0 e1) (.fin s2 m2 e2) = (sgnOf code (s1 != s2), 0)) ∧
    (∀ (s1 s2 : Bool) (m1 m2 : Nat) (e1 e2 : Int), m1 ≠ 0 → m2 ≠ 0 → m1 < 2 ^ 53 → m2 < 2 ^ 53 →
      let r := fDiv code v (.fin s1 m1 e1) (.fin s2 m2 e2)
      Rounded code v (s1 != s2) m1 m2 (e1 - e2) False r.1 r.2)

/-- NaN operands, infinities and zeros: the first NaN operand is the result, quieted, with NV where any operand is signalling; ∞ − ∞,
0 × ∞, ∞ ÷ ∞, 0 ÷ 0 and the root of a negative number give the default NaN and NV; a nonzero number ÷ 0 gives ∞ and DZ; infinity with any other
operand gives infinity, or zero as a divisor, with the sign of the operation; an exact zero sum is −0 only under rounding down or of two negative
zeros (R58, R139, Table 6.8). -/
def Sys2Proof.Spec.FpSpecialOperands : Prop :=
  ∀ (code : Nat) (v : REnv) (x y : FVal), code = 4 ∨ code = 5 →
    let nan := (defaultNaN code, (0b100000 : BitVec 6))
    (∀ s q f, x = .nan s q f → ∀ g, g = fAdd ∨ g = fSub ∨ g = fMul ∨ g = fDiv →
      g code v x y = (nanBits code s f, if !q || y.isSNaN then 0b100000 else 0)) ∧
    (∀ s q f, x.isNaN = false → y = .nan s q f → ∀ g, g = fAdd ∨ g = fSub ∨ g = fMul ∨ g = fDiv →
      g code v x y = (nanBits code s f, if q then 0 else 0b100000)) ∧
    (∀ s, fAdd code v (.inf s) (.inf !s) = nan ∧ fSub code v (.inf s) (.inf s) = nan) ∧
    (∀ s t e, fMul code v (.fin s 0 e) (.inf t) = nan ∧ fMul code v (.inf t) (.fin s 0 e) = nan) ∧
    (∀ s t e e', fDiv code v (.inf s) (.inf t) = nan ∧ fDiv code v (.fin s 0 e) (.fin t 0 e') = nan) ∧
    (∀ s m t e e', m ≠ 0 → fDiv code v (.fin s m e) (.fin t 0 e') = (infBits code (s != t), 0b010000)) ∧
    (∀ s t m e, fAdd code v (.inf s) (.fin t m e) = (infOf code s, 0) ∧ fAdd code v (.fin t m e) (.inf s) = (infOf code s, 0) ∧
      fAdd code v (.inf s) (.inf s) = (infOf code s, 0) ∧ fSub code v (.inf s) (.fin t m e) = (infOf code s, 0) ∧
      fSub code v (.fin t m e) (.inf s) = (infOf code !s, 0) ∧ fSub code v (.inf s) (.inf !s) = (infOf code s, 0)) ∧
    (∀ s t m e, m ≠ 0 → fMul code v (.inf s) (.fin t m e) = (infOf code (s != t), 0) ∧
      fMul code v (.fin t m e) (.inf s) = (infOf code (s != t), 0) ∧ fMul code v (.inf s) (.inf t) = (infOf code (s != t), 0)) ∧
    (∀ s t m e, fDiv code v (.inf s) (.fin t m e) = (infOf code (s != t), 0) ∧ fDiv code v (.fin t m e) (.inf s) = (sgnOf code (s != t), 0)) ∧
    (∀ m e, m ≠ 0 → fSqrt code v (.fin true m e) = nan) ∧ fSqrt code v (.inf true) = nan ∧
    (∀ s m e, m ≠ 0 → fAdd code v (.fin s m e) (.fin (!s) m e) = (if v.rnd = 4 then signBit code true else 0, 0)) ∧
    (∀ s e e', fAdd code v (.fin s 0 e) (.fin s 0 e') = (signBit code s, 0))

/-- The statements above together. -/
def Obligations.FpRoundingAndSpecialOperands : Prop := FpExactlyRounded ∧ FpSpecialOperands

/-! ## Memory instructions -/

namespace Sys2Proof.Spec

/-- The fields of a segment descriptor (Table 2.2). -/
def segBase (d : Desc) : Nat := (d.extractLsb' 32 48).toNat
/-- `limit`. -/
def segLimit (d : Desc) : Nat := (d.extractLsb' 80 48).toNat
/-- `space`. -/
def segSpace (d : Desc) : Nat := (d.extractLsb' 0 2).toNat

/-- `tinfo` of a memory trap (Table 7.2). -/
def memTinfo (q : Nat) (kind : Nat) (rlx : Bool) (addr : BitVec 48) : Word :=
  BitVec.ofNat 3 q ++ BitVec.ofNat 5 kind ++ BitVec.ofBool rlx ++ 0#7 ++ addr

/-- Two byte ranges have a byte in common. -/
def Overlap (a n b k : Nat) : Prop := ∃ x, a ≤ x ∧ x < a + n ∧ b ≤ x ∧ x < b + k

/-- Two places have a byte in common. -/
def Meet (p q : Place) : Prop := ∃ x ∈ p, ∃ y ∈ q, Overlap x.1 x.2.1 y.1 y.2.1

/-- The locations of a place's bytes in order: an access takes its ranges one behind the other. -/
def bytesOf (p : Place) : List Nat := p.flatMap fun x => (List.range x.2.1).map (x.1 + ·)

/-- The bytes of a place as an access reads them, each under the key of its range's page (Table 1.5). -/
def readBytes (s : State) (p : Place) : List Byte := p.flatMap fun x => (List.range x.2.1).map fun i => keyGet s.mem s.keyed x.2.2.key (x.1 + i)

/-- The number that the bytes at a place make, the least significant first (R1). -/
def numAt (s : State) (p : Place) : Nat := (readBytes s p).foldr (fun b r => b.toNat + 256 * r) 0

/-- Ranges of a place under different keys lie in different blocks of 16 bytes, as ranges in different pages do. -/
def KeysApart (p : Place) : Prop := ∀ x ∈ p, ∀ y ∈ p, x.2.2.key = y.2.2.key ∨ ¬Overlap (x.1 / 16 * 16) (x.2.1 + x.1 % 16 + 16) y.1 y.2.1

/-- The bytes at a location as a number, the least significant first (R1). -/
def valueAt (s : State) (loc n : Nat) : Nat :=
  (List.range n).foldr (fun i r => (memGet s.mem (loc + i)).toNat + 256 * r) 0

/-- The word at a location. -/
def wordAt (s : State) (loc : Nat) : Word := BitVec.ofNat 64 (valueAt s loc 8)

/-- Some 64-bit word that a range meets is poisoned (R165). -/
def Poisoned (s : State) (loc n : Nat) : Prop := ∃ w ∈ s.poison, Overlap (8 * w) 8 loc n

/-- Some 64-bit word that a place meets is poisoned (R165). -/
def PoisonedAt (s : State) (p : Place) : Prop := ∃ x ∈ p, Poisoned s x.1 x.2.1

/-- Loads: d, a, segment, offset, bytes, signed (Table 7.1, R166). -/
def loadForm : Instr → Option (Reg × Reg × BitVec 3 × BitVec 10 × Nat × Bool)
  | .ldb d a g o _ => some (d, a, g, o, 1, true)
  | .ldbu d a g o _ => some (d, a, g, o, 1, false)
  | .ldh d a g o _ => some (d, a, g, o, 2, true)
  | .ldhu d a g o _ => some (d, a, g, o, 2, false)
  | .ldw d a g o _ => some (d, a, g, o, 4, true)
  | .ldwu d a g o _ => some (d, a, g, o, 4, false)
  | .ldd d a g o _ => some (d, a, g, o, 8, false)
  | _ => none

/-- Stores: d, a, segment, offset, bytes (Table 7.1, R167). -/
def storeForm : Instr → Option (Reg × Reg × BitVec 3 × BitVec 10 × Nat)
  | .stb d a g o _ => some (d, a, g, o, 1)
  | .sth d a g o _ => some (d, a, g, o, 2)
  | .stw d a g o _ => some (d, a, g, o, 4)
  | .std d a g o _ => some (d, a, g, o, 8)
  | _ => none

/-- Atomics: operation, bytes, d, a, b, segment (Table 7.9). -/
def amoForm : Instr → Option (AmoOp × Nat × Reg × Reg × Reg × BitVec 3)
  | .amoSwap d a b g _ => some (.swap, 8, d, a, b, g)
  | .amoAdd d a b g _ => some (.add, 8, d, a, b, g)
  | .amoAnd d a b g _ => some (.and, 8, d, a, b, g)
  | .amoOr d a b g _ => some (.or, 8, d, a, b, g)
  | .amoXor d a b g _ => some (.xor, 8, d, a, b, g)
  | .amoMin d a b g _ => some (.min, 8, d, a, b, g)
  | .amoMax d a b g _ => some (.max, 8, d, a, b, g)
  | .amoMinu d a b g _ => some (.minu, 8, d, a, b, g)
  | .amoMaxu d a b g _ => some (.maxu, 8, d, a, b, g)
  | .amoFaddS d a b g _ => some (.faddS, 4, d, a, b, g)
  | .amoFaddD d a b g _ => some (.faddD, 8, d, a, b, g)
  | .amoFminS d a b g _ => some (.fminS, 4, d, a, b, g)
  | .amoFmaxS d a b g _ => some (.fmaxS, 4, d, a, b, g)
  | _ => none

/-- Remote updates: operation, bytes, a, b, segment (R180). -/
def redForm : Instr → Option (AmoOp × Nat × Reg × Reg × BitVec 3)
  | .redSwap a b g _ => some (.swap, 8, a, b, g)
  | .redAdd a b g _ => some (.add, 8, a, b, g)
  | .redAnd a b g _ => some (.and, 8, a, b, g)
  | .redOr a b g _ => some (.or, 8, a, b, g)
  | .redXor a b g _ => some (.xor, 8, a, b, g)
  | .redMin a b g _ => some (.min, 8, a, b, g)
  | .redMax a b g _ => some (.max, 8, a, b, g)
  | .redMinu a b g _ => some (.minu, 8, a, b, g)
  | .redMaxu a b g _ => some (.maxu, 8, a, b, g)
  | .redFaddS a b g _ => some (.faddS, 4, a, b, g)
  | .redFaddD a b g _ => some (.faddD, 8, a, b, g)
  | .redFminS a b g _ => some (.fminS, 4, a, b, g)
  | .redFmaxS a b g _ => some (.fmaxS, 4, a, b, g)
  | _ => none

/-- The new value of an atomic of the old value M and the operand B (Table 7.9); the 4-byte operations use their low 32 bits. -/
def amoResult (op : AmoOp) (m b : Word) : Word :=
  match op with
  | .swap => b
  | .add => m + b
  | .and => m &&& b
  | .or => m ||| b
  | .xor => m ^^^ b
  | .min => if m.slt b then m else b
  | .max => if m.slt b then b else m
  | .minu => if m.ult b then m else b
  | .maxu => if m.ult b then b else m
  | .faddS => BitVec.ofNat 64 (fAdd 5 rne (decodeF 5 (m.setWidth 32).toNat) (decodeF 5 (b.setWidth 32).toNat)).1
  | .faddD => BitVec.ofNat 64 (fAdd 4 rne (decodeF 4 m.toNat) (decodeF 4 b.toNat)).1
  | .fminS => (fpBitForm.minMax false false m b).1
  | .fmaxS => (fpBitForm.minMax false true m b).1

/-- Nothing of the context is outstanding that its next plain access waits for (Table 2.10). -/
def Settled (s : State) : Prop := ∀ a ∈ s.me.out, a.rlx = true

/-- Nothing of the context is outstanding at all: what a release and an atomic's fence wait for (R202, R315). -/
def Quiet (s : State) : Prop :=
  s.me.out = [] ∧ (∀ u ∈ s.reds, u.src ≠ s.cur) ∧ ∀ p ∈ s.props, p.src ≠ some s.cur

/-- Every earlier access of the context is performed: what a release waits for (R315). -/
def Released (s : State) : Prop := s.me.out = []

/-- Fewer than 8 relaxed accesses are outstanding, and where the context has begun to wait for one of them, the one that was the oldest then is
performed (R163, Table 7.3). -/
def RelaxedRoom (s : State) : Prop :=
  (s.me.out.filter (·.rlx)).length < 8 ∧ ∀ w, s.me.wait = some w → w.kind = .relaxedFull → ∀ a ∈ s.me.out, a.seq ≠ w.seen

/-- No core buffer in Rogil mode holds a sibling's store to a place before an atomic (R321). -/
def SiblingFree (s : State) (p : Place) : Prop :=
  (s.part s.me.part.toNat).compat = false ∨
  ∀ x ∈ s.ctxs, x.1 ≠ s.cur → s.hereOf x.1 = s.here → ∀ a ∈ x.2.out, a.rlx = true ∨ (∀ v, a.kind ≠ .store v) ∨ ¬Meet a.home p

/-- An instruction goes on behind its slot, or waits: the words that it has read from `qin`, `mbx` and ports stay in their queues until it completes,
those of ports marked as read by it (R29). `s` is the state before it read any of `reads`. -/
def postponed (s t : State) (reads : List (Reg × Word)) : State :=
  let l := reads.filter fun x => 24 ≤ x.1.toNat && x.1.toNat ≠ 31
  if l = [] then t
  else
    ((l.foldl claimPort s).modCore t.here fun c => { c with utlb := (t.core t.here).utlb }).modMe fun c => { c with pops := l }

/-- The access stays with the thread where it is: only a migrant, or an atomic, moves to another owner of a global word (R182). -/
def StaysHere (s : State) (loc : Nat) (atomic : Bool) : Prop :=
  isHbmLoc loc = true → ownerOfLoc s.minimal loc ≠ s.here → atomic = false ∧ s.me.migrant = false
where
  /-- A location of the device's physical memory. -/
  isHbmLoc (loc : Nat) : Bool := Config.isHbm loc

/-- The state in which an access of the instruction is outstanding (R163). -/
def issued (s t : State) (kind : AccKind) (p : Spot) (n : Nat) (rlx : Bool) : State :=
  { t with aseq := t.aseq + 1 }.modMe fun c => { c with
    out := c.out ++ [Acc.mk kind p.at_ p.home n rlx p.info s.me.pc t.aseq s.grp.instr s.grp.pfxs] }

/-- No bank of a place is in retention (R426). -/
def Awake (s : State) (p : Place) : Prop := ∀ x ∈ p, sleeping s x.1 = none ∧ sleeping s (x.1 + (x.2.1 - 1)) = none

/-- A granule's word is ready for the context: nothing of its own or of a sibling in Rogil mode stands before it, and its bank is
active (R163, R321, R426). -/
def BankReady (s : State) (p : Spot) : Prop :=
  (∀ a ∈ s.me.out, ¬Meet a.home p.home) ∧ (s.part s.me.part.toNat).compat = false ∧ Awake s p.at_

/-- No put is armed on the device, so that a write fires none (R285). -/
def NoArmedPut (s : State) : Prop := ∀ x ∈ s.cores, x.2.armput = []

/-- No context or engine waits for the granule. -/
def NoWaiter (s : State) (g : Nat) : Prop := ∀ w ∈ s.feq, w.g ≠ g

/-- A state with a granule marked full or empty (R171). -/
def marked (s : State) (g : Nat) (full : Bool) : State :=
  if g ∈ s.empties then (if full then { s with empties := s.empties.erase g } else s)
  else (if full then s else { s with empties := nins s.empties g })

end Sys2Proof.Spec

/-- The checks of an access in their order (R38, R160, Tables 7.1, 7.2): rights and space, limit, alignment, each with the offset in
`tinfo`; what passes is at the descriptor's base + o in the named space: the local scratchpad, the cluster's scratchpads one behind the
other, byte by byte, the code space of the layer, or through the micro-TLB a physical address, page by page; a read of a replicated page
is made at the copy of the core's die (R37, R386, R390). That a poison trap of an access to space 3 names the offset is log 105 (DESIGN CHOICE). -/
def Obligations.AddressChecks : Prop :=
  ∀ (q : Fin 8) (o : Int) (a : Access) (rlx : Bool) (s : State), 0 < a.n → 0 < a.align →
    let d := s.me.segd q
    let bad := fun c => checkAccess q o a rlx s =
      .error (.trap ⟨c, memTinfo q a.kind false (BitVec.ofInt 48 o)⟩) s
    let rights := (∀ r ∈ a.need, d.getLsbD r = true) ∧ segSpace d ∈ a.spaces ∧ (segSpace d = 2 → s.layer = 0)
    let inside := 0 ≤ o ∧ o + a.n ≤ segLimit d
    let addr := segBase d + o.toNat
    (¬rights → bad 0x08) ∧
    (rights → ¬inside → bad 0x07) ∧
    (rights → inside → o % a.align ≠ 0 → bad 0x09) ∧
    (rights → inside → o % a.align = 0 →
      let info := memTinfo q a.kind rlx (BitVec.ofInt 48 o)
      let one := fun (loc : Nat) => checkAccess q o a rlx s = .ok ⟨[(loc, a.n, .plain)], [(loc, a.n, .plain)], info⟩ s
      let tr := fun (x : Nat) (s : State) => translate x a.pte (memTinfo q a.kind false (BitVec.ofNat 48 addr)) s
      let copy := fun (pa : Nat) (r : Page) => if r.repl = true ∧ a.pte = .read then copyPa pa (baseDie s.here) else pa
      let ginfo := memTinfo q a.kind rlx (BitVec.ofNat 48 addr)
      let k := 4096 - addr % 4096
      (segSpace d = 0 → one (Config.spadLoc s.here addr)) ∧
      (segSpace d = 1 → a.n ≤ Config.spadSize s.layer → ∃ p, checkAccess q o a rlx s = .ok ⟨p, p, info⟩ s ∧ (∀ x ∈ p, x.2.2 = .plain) ∧
        bytesOf p = (List.range a.n).map fun i =>
          Config.spadLoc (sibling s.here ((addr + i) / Config.spadSize s.layer)) ((addr + i) % Config.spadSize s.layer)) ∧
      (segSpace d = 3 → one (Config.codeLoc s.layer addr)) ∧
      (segSpace d = 2 → a.n ≤ k → ∀ pa r t, tr addr s = .ok (pa, r) t →
        checkAccess q o a rlx s = .ok ⟨[(copy pa r, a.n, r)], [(pa, a.n, r)], ginfo⟩ t) ∧
      (segSpace d = 2 → k < a.n → ∀ pa1 r1 t1 pa2 r2 t2, tr addr s = .ok (pa1, r1) t1 → tr (addr + k) t1 = .ok (pa2, r2) t2 →
        checkAccess q o a rlx s = .ok ⟨[(copy pa1 r1, k, r1), (copy pa2 r2, a.n - k, r2)], [(pa1, k, r1), (pa2, a.n - k, r2)], ginfo⟩ t2) ∧
      (segSpace d = 2 → ∀ e t, tr addr s = .error e t → checkAccess q o a rlx s = .error e t) ∧
      (segSpace d = 2 → k < a.n → ∀ x t1 e t, tr addr s = .ok x t1 → tr (addr + k) t1 = .error e t → checkAccess q o a rlx s = .error e t))

/-- A load reads its base, makes its checks and is then outstanding; a store reads its base and then its source, and carries the low
bytes of it; a failed check traps with nothing issued (R160, R162, R163, R166, R167). A plain load takes the words that its base has read from
queues when it is performed (R29). -/
def Obligations.LoadStoreIssue : Prop :=
  (∀ i d a g off n sg, loadForm i = some (d, a, g, off, n, sg) →
    ∀ (s s1 s2 : State) (x : Word) (p : Spot), FieldsOk s [d, a] → readReg a s = .ok x s1 → Settled s1 →
      let rlx := s.grp.rlx && (decide (d.toNat < 24) || decide (d.toNat = 31))
      let acc : Access := ⟨n, n, [8], [0, 1, 2, 3], 0, .read⟩
      (rlx = true → RelaxedRoom s1) →
      (∀ t, checkAccess g.toNat (x.toInt + off.toNat * n) acc rlx s1 = .error (.trap t) s2 → exec i s = .next (takeTrap t s)) ∧
      (checkAccess g.toNat (x.toInt + off.toNat * n) acc rlx s1 = .ok p s2 → checkDest d s2 = .ok () s2 →
        StaysHere s2 p.home.loc false →
        exec i s = .next (after 4 s (issued s (if rlx then s2 else postponed s s2 [(a, x)]) (.load sg d) p n rlx)))) ∧
  (∀ i d a g off n, storeForm i = some (d, a, g, off, n) →
    ∀ (s s1 s2 s3 : State) (x v : Word) (p : Spot), FieldsOk s [d, a] → readReg a s = .ok x s1 →
      readReg d s1 = .ok v s2 → Settled s2 → (s.grp.rlx = true → RelaxedRoom s2) →
      let acc : Access := ⟨n, n, [9], [0, 1, 2, 3], 1, .write⟩
      (∀ t, checkAccess g.toNat (x.toInt + off.toNat * n) acc s.grp.rlx s2 = .error (.trap t) s3 → exec i s = .next (takeTrap t s)) ∧
      (checkAccess g.toNat (x.toInt + off.toNat * n) acc s.grp.rlx s2 = .ok p s3 → StaysHere s3 p.home.loc false →
        exec i s = .next (after 4 s (issued s s3 (.store ((v.setWidth (8 * n)).setWidth 64)) p n s.grp.rlx))))

/-- `amo` and `cas` read their registers at issue, wait for what their fence orders, and are then outstanding; `red` sends its update
towards the owner and takes one of 32 credits (R175–R177, R180, R325). A failed check of any of them traps with nothing issued and nothing
popped (R29, R160), but that an atomic whose translation walks first waits for what its fence may order (log 116, DESIGN CHOICE). -/
def Obligations.AtomicIssue : Prop :=
  (∀ i op n d a b g, amoForm i = some (op, n, d, a, b, g) →
    ∀ (s s1 s2 s3 : State) (x v : Word) (p : Spot), FieldsOk s [d, a, b] → readReg a s = .ok x s1 →
      readReg b s1 = .ok v s2 → Settled s2 →
      (∀ t, checkAccess g.toNat x.toInt ⟨n, n, [11], [0, 1, 2], 9, .atomic⟩ false s2 = .error (.trap t) s3 →
        (Quiet s2 ∨ (segBase (s2.me.segd g.toNat) + x.toNat) % 4096 + n ≤ 4096) → exec i s = .next (takeTrap t s)) ∧
      (checkAccess g.toNat x.toInt ⟨n, n, [11], [0, 1, 2], 9, .atomic⟩ false s2 = .ok p s3 →
        checkDest d s3 = .ok () s3 → Quiet s3 → SiblingFree s3 p.home → StaysHere s3 p.home.loc true →
        exec i s = .next (after 4 s (issued s (postponed s s3 [(a, x), (b, v)]) (.amo op v d) p n false)))) ∧
  (∀ (d a b : Reg) (g : BitVec 3) (x' : Bool) (s s1 s2 s3 s4 : State) (x v e : Word) (p : Spot),
      FieldsOk s [d, a, b] → readReg a s = .ok x s1 → readReg b s1 = .ok v s2 → readReg d s2 = .ok e s3 → Settled s3 →
      (∀ t, checkAccess g.toNat x.toInt ⟨8, 8, [11], [0, 1, 2], 10, .atomic⟩ false s3 = .error (.trap t) s4 →
        (Quiet s3 ∨ (segBase (s3.me.segd g.toNat) + x.toNat) % 4096 + 8 ≤ 4096) → exec (.cas d a b g x') s = .next (takeTrap t s)) ∧
      (checkAccess g.toNat x.toInt ⟨8, 8, [11], [0, 1, 2], 10, .atomic⟩ false s3 = .ok p s4 →
        checkDest d s4 = .ok () s4 → Quiet s4 → SiblingFree s4 p.home → StaysHere s4 p.home.loc true →
        exec (.cas d a b g x') s = .next (after 4 s (issued s (postponed s s4 [(a, x), (b, v), (d, e)]) (.cas e v d) p 8 false)))) ∧
  (∀ i op n a b g, redForm i = some (op, n, a, b, g) →
    ∀ (s s1 s2 s3 : State) (x v : Word) (p : Spot), FieldsOk s [a, b] → readReg a s = .ok x s1 → readReg b s1 = .ok v s2 → Settled s2 →
      (∀ t, checkAccess g.toNat x.toInt ⟨n, n, [11], [0, 1, 2], 11, .atomic⟩ false s2 = .error (.trap t) s3 →
        exec i s = .next (takeTrap t s)) ∧
      (checkAccess g.toNat x.toInt ⟨n, n, [11], [0, 1, 2], 11, .atomic⟩ false s2 = .ok p s3 →
        (if (s3.reds.filter fun u => u.src = s3.cur).length < 32 then
          exec i s = .next (after 4 s { s3 with
            reds := s3.reds ++ [Upd.mk s3.cur (ownerOfLoc s3.minimal p.home.loc) p.home n op v s3.aseq s3.here], aseq := s3.aseq + 1 })
        else exec i s = .next (noteWait s s.cur .redCredits))))

/-- An outstanding access is performed at its bank or channel once no earlier one of its context meets its bytes: a load's value reaches
its register in the image of its size; a store changes exactly its bytes, clears the poison of the words that it covers whole and keeps that of the
words that it covers in part (R165), and is on its way to the other copies of a replicated page; an atomic
returns the old value and writes the new one of Table 7.9; `cas` writes only where the old value is the expected one (R163, R164, R166, R167, R176,
R177, R320). Bytes are read under the key of their page; those that lie under another key are free values (log 94). The words that the instruction
read from its `qin` are taken then (R29), and a value for a full port waits with its access (Table 2.10, log 24). A write that fires armed puts is
another statement's. -/
def Sys2Proof.Spec.AccessesPerformed : Prop :=
  ∀ (m i : Nat) (a : Acc) (s b : State), memWf s.mem = true → (s.ctx m).out[i]? = some a → NoArmedPut s →
    (∀ e ∈ (s.ctx m).out.take i, ¬Meet e.home a.home) → (∀ p ∈ s.props, p.src ≠ some m) → (∀ f ∈ (s.ctx m).fwd, ¬Meet f.home a.home) →
    isolated s (s.hereOf m) = false → (s.part (s.ctx m).part.toNat).compat = false → Awake s a.at_ →
    (bytesOf a.at_).length = a.n → (bytesOf a.at_).Nodup →
    budgetPlace (.acc m a.seq) (s.hereOf m) (s.ctx m).part.toNat (s.ctx m).qcls.toNat a.at_ s = .ok b →
    let plain := fun (d : Reg) => d.toNat < 24 ∨ d.toNat = 31
    let old := numAt s a.at_
    let outside := fun (t : State) => ∀ x, x ∉ bytesOf a.at_ → memGet t.mem x = memGet s.mem x
    let gone := fun (t : State) => (t.ctx m).out = (s.ctx m).out.eraseIdx i
    let regs := fun (t : State) (d : Reg) (v : Word) => ∀ r : Nat, r < 24 → (t.ctx m).reg r = if r = d.toNat then v else (s.ctx m).reg r
    ∃ t, exec (.memoryAccessPerform m i .clean) s = .next t ∧
      (∀ sg d, a.kind = .load sg d → plain d → ¬PoisonedAt s a.at_ → t.mem = s.mem ∧ gone t ∧
        (t.ctx m).flags = (s.ctx m).flags ∧ ((s.ctx m).pops = [] → (t.ctx m).k = (s.ctx m).k) ∧
        (∀ src v q, a.rlx = false → (s.ctx m).pops = [(28, v)] → (s.ctx m).qin = .word src v :: q →
          (t.ctx m).qin = q ∧ (t.ctx m).pops = []) ∧
        regs t d (if sg then (BitVec.ofNat (8 * a.n) old).signExtend 64 else BitVec.ofNat 64 old)) ∧
      (∀ sg d dir n, a.kind = .load sg d → ¬PoisonedAt s a.at_ → (s.ctx m).out = [a] → (s.ctx m).pops = [] → portDir d.toNat = some dir →
        neighbour s.minimal (mbaCid m) dir = some n →
        (if ((s.core n).portq (opposite dir)).q.length + (s.pnet.filter fun w => w.cid = n && w.dir = opposite dir).length < 8 then
          t.pnet = s.pnet ++ [⟨n, opposite dir, m,
            if sg then (BitVec.ofNat (8 * a.n) old).signExtend 64 else BitVec.ofNat 64 old, (s.ctx m).bowgrp⟩] ∧ (t.ctx m).out = []
        else t.pnet = s.pnet ∧ t.mem = s.mem ∧ (t.ctx m).out = [a] ∧ ((t.ctx m).wait.map (·.kind)) = some .fullWrite)) ∧
      (∀ v, a.kind = .store v →
        (∀ j, j < a.n → memGet t.mem ((bytesOf a.at_).getD j 0) = BitVec.ofNat 8 (v.toNat / 256 ^ j)) ∧ outside t ∧ gone t ∧
        (t.ctx m).x = (s.ctx m).x ∧ (KeysApart a.at_ → numAt t a.at_ = v.toNat % 256 ^ a.n) ∧
        (∀ w, w ∈ t.poison ↔ w ∈ s.poison ∧ ∀ x ∈ a.at_, ¬(x.1 ≤ 8 * w ∧ 8 * w + 8 ≤ x.1 + x.2.1)) ∧
        (∀ x ∈ a.at_, x.2.2.repl = true → ∀ die < 4, copyPa x.1 die ≠ x.1 →
          ∃ p ∈ t.props, p.src = some m ∧ p.seq = a.seq ∧ p.key = x.2.2.key ∧ p.loc = copyPa x.1 die ∧ p.data.length = x.2.1)) ∧
      (∀ op v d, a.kind = .amo op v d → plain d → a.n = (if op = .faddS ∨ op = .fminS ∨ op = .fmaxS then 4 else 8) →
        ¬PoisonedAt s a.at_ →
        (∀ j, j < a.n → memGet t.mem ((bytesOf a.at_).getD j 0) =
          BitVec.ofNat 8 ((amoResult op (BitVec.ofNat 64 old) v).toNat / 256 ^ j)) ∧ outside t ∧ gone t ∧
        regs t d (BitVec.ofNat 64 old)) ∧
      (∀ e v d, a.kind = .cas e v d → plain d → a.n = 8 → ¬PoisonedAt s a.at_ →
        (∀ j, j < 8 → memGet t.mem ((bytesOf a.at_).getD j 0) =
          if BitVec.ofNat 64 old = e then BitVec.ofNat 8 (v.toNat / 256 ^ j) else memGet s.mem ((bytesOf a.at_).getD j 0)) ∧ outside t ∧
        gone t ∧ regs t d (BitVec.ofNat 64 old)) ∧
      ((∀ v, a.kind ≠ .store v) → PoisonedAt s a.at_ → a.rlx = false → (s.ctx m).away = none →
        t.mem = (takeTrapHome b m ⟨⟨0x13, a.info⟩, a.ipc, a.instr, a.pfxs⟩ false).mem ∧ (t.ctx m).tcause = 0x13 ∧
        (t.ctx m).tinfo = a.info ∧ (t.ctx m).tpc = a.ipc ∧ (t.ctx m).run = .stopped .trap ∧ (t.ctx m).x = (s.ctx m).x ∧
        (t.ctx m).mbx = (s.ctx m).mbx ∧ (t.ctx m).qin = (s.ctx m).qin ∧ (t.ctx m).k = (s.ctx m).k) ∧
      ((∀ v, a.kind ≠ .store v) → PoisonedAt s a.at_ → a.rlx = true → t.mem = s.mem ∧ (t.ctx m).late = some a.info ∧
        (t.ctx m).x = (s.ctx m).x)

/-- In Rogil mode a plain load whose bytes lie wholly in a sibling's buffered store, the youngest that meets them, gets its bytes from there, and the
store stays buffered; one that meets it only in part waits until it is performed, and so does an atomic that was issued later (R321). -/
def Sys2Proof.Spec.StoresForward : Prop :=
  ∀ (m i n : Nat) (a b : Acc) (c : Context) (v : Word) (s : State), (s.ctx m).out[i]? = some a → a.rlx = false → NoArmedPut s →
    (∀ e ∈ (s.ctx m).out.take i, ¬Meet e.home a.home) → isolated s (s.hereOf m) = false → (s.part (s.ctx m).part.toNat).compat = true →
    n ≠ m → (n, c) ∈ s.ctxs → s.hereOf n = s.hereOf m → c.part = (s.ctx m).part → b ∈ c.out → b.kind = .store v → b.rlx = false →
    (s.part c.part.toNat).cseq ≤ b.seq → Meet b.home a.home → (bytesOf b.home).length = b.n → (bytesOf b.home).Nodup → b.n ≤ 8 →
    (bytesOf a.home).length = a.n → a.n ≤ 8 →
    (∀ x ∈ s.ctxs, s.hereOf x.1 = s.hereOf m → ∀ e ∈ x.2.out, (∃ u, e.kind = .store u) → e.rlx = false → Meet e.home a.home →
      e = b ∨ e.seq < b.seq) →
    (∀ sg d, a.kind = .load sg d → d.toNat < 24 → (s.ctx m).pops = [] → (∀ x ∈ bytesOf a.home, x ∈ bytesOf b.home) →
      ∃ t, exec (.memoryAccessPerform m i .clean) s = .next t ∧ t.mem = s.mem ∧ (t.ctx m).out = (s.ctx m).out.eraseIdx i ∧
        (t.ctx n).out = (s.ctx n).out ∧
        let r := (t.ctx m).reg d.toNat
        r = (if sg then (r.setWidth (8 * a.n)).signExtend 64 else (r.setWidth (8 * a.n)).setWidth 64) ∧
        ∀ j < a.n, ∀ k < b.n, (bytesOf b.home).getD k 0 = (bytesOf a.home).getD j 0 → r.extractLsb' (8 * j) 8 = v.extractLsb' (8 * k) 8) ∧
    (∀ sg d, a.kind = .load sg d → (∃ x ∈ bytesOf a.home, x ∉ bytesOf b.home) → exec (.memoryAccessPerform m i .clean) s = .next s) ∧
    ((∃ op u d, a.kind = .amo op u d) ∨ (∃ e u d, a.kind = .cas e u d) → b.seq < a.seq → exec (.memoryAccessPerform m i .clean) s = .next s)

/-- The statements above together. -/
def Obligations.AccessPerformance : Prop := AccessesPerformed ∧ StoresForward

/-- A remote update is applied by its owner after every earlier update of its sender to those bytes and every earlier access of the sender to them:
the bytes become the new value of Table 7.9, no other byte changes, and the credit returns; on a poisoned word it is discarded and counted (R180,
R181, R315). A relaxed load's poison is taken at the context's next group boundary (R165). -/
def Obligations.RemoteUpdateApplied : Prop :=
  (∀ (i : Nat) (u : Upd) (s b : State), memWf s.mem = true → s.reds[i]? = some u → NoArmedPut s →
    (∀ v ∈ s.reds.take i, v.src = u.src → ¬Meet v.at_ u.at_) → (∀ a ∈ (s.ctx u.src).out, a.seq < u.seq → ¬Meet a.home u.at_) →
    isolated s u.by_ = false → Awake s u.at_ → (bytesOf u.at_).length = u.n → (bytesOf u.at_).Nodup →
    budgetPlace (.upd u.src u.seq) u.owner (s.ctx u.src).part.toNat (s.ctx u.src).qcls.toNat u.at_ s = .ok b →
    u.n = (if u.op = .faddS ∨ u.op = .fminS ∨ u.op = .fmaxS then 4 else 8) →
    ∃ t, exec (.remoteUpdateApply i .clean) s = .next t ∧ t.reds = s.reds.eraseIdx i ∧ t.ctxs = s.ctxs ∧
      (∀ x, x ∉ bytesOf u.at_ → memGet t.mem x = memGet s.mem x) ∧
      (¬PoisonedAt s u.at_ → ∀ j, j < u.n → memGet t.mem ((bytesOf u.at_).getD j 0) =
        BitVec.ofNat 8 ((amoResult u.op (BitVec.ofNat 64 (numAt s u.at_)) u.v).toNat / 256 ^ j)) ∧
      (PoisonedAt s u.at_ → t.mem = s.mem ∧ t.poison = s.poison ∧
        (t.cluster (clKey u.owner)).disc = min ((s.cluster (clKey u.owner)).disc + 1) (2 ^ 16 - 1))) ∧
  (∀ (m : Nat) (s : State) (w : Word), (s.ctx m).late = some w → (s.ctx m).run = .running → (s.ctx m).away = none →
    (∀ a ∈ (s.ctx m).out, a.rlx = true ∨ ∃ v, a.kind = .store v) →
    ∃ t, exec (.latePoison m) s = .next t ∧ (t.ctx m).tcause = 0x13 ∧ (t.ctx m).tinfo = w ∧ (t.ctx m).tpc = (s.ctx m).pc ∧
      (t.ctx m).run = .stopped .trap ∧ (t.ctx m).late = none ∧ (t.ctx m).x = (s.ctx m).x)

/-- The full-empty operations act on a word and its granule's bit in one step where nobody waits for the granule; `ldfk` and `ldfc` wait
at an empty granule and `stfe` at a full one; `stfs`, `feset` and `feclr` never wait (R171–R174). What a waiting one has read from queues it pops
only when it completes (R29). -/
def Sys2Proof.Spec.FullEmptyResults : Prop :=
  (∀ (d a : Reg) (g : BitVec 3) (off : BitVec 10) (s s1 s2 s3 : State) (x : Word) (p : Spot) (c : Bool),
    FieldsOk s [d, a] → readReg a s = .ok x s1 → Settled s1 →
    checkAccess g.toNat (x.toInt + off.toNat * 8) ⟨8, 8, [8, 12], [0, 1], if c then 3 else 2, .read⟩ false s1 = .ok p s2 →
    checkDest d s2 = .ok () s2 → BankReady s2 p →
    let loc := p.at_.loc
    let i := if c then Instr.ldfc d a g off else Instr.ldfk d a g off
    (loc / 16 ∉ s2.empties → NoWaiter s2 (loc / 16) → PoisonedAt s2 p.at_ → exec i s = .next (takeTrap ⟨0x13, p.info⟩ s)) ∧
    (loc / 16 ∉ s2.empties → ¬PoisonedAt s2 p.at_ → NoWaiter s2 (loc / 16) →
      writeReg d (BitVec.ofNat 64 (numAt s2 p.at_)) (touchAt s2 p.at_) = .ok () s3 →
      exec i s = .next (after 4 s (if c then marked s3 (loc / 16) false else s3))) ∧
    (loc / 16 ∈ s2.empties → ∃ t, exec i s = .next t ∧ t.mem = s2.mem ∧ t.empties = s2.empties ∧ t.me.pc = s.me.pc ∧
      t.me.x = s2.me.x ∧ (t.me.wait.map (·.kind)) = some .fullEmpty ∧
      (24 ≤ a.toNat → a.toNat ≤ 30 → t.me.pops = [(a, x)] ∧ t.me.qin = s.me.qin ∧ t.me.mbx = s.me.mbx ∧ t.me.k = s.me.k) ∧
      t.feq = s2.feq ++ [⟨loc / 16, if c then .ldfc d else .ldfk d, p.at_, s2.cur, s.me.pc + BitVec.ofNat 64 (4 * s.grp.n + 4), p.info,
        s.grp.instr⟩])) ∧
  (∀ (d a : Reg) (g : BitVec 3) (off : BitVec 10) (s s1 s2 s3 : State) (x v : Word) (p : Spot),
    FieldsOk s [d, a] → readReg a s = .ok x s1 → readReg d s1 = .ok v s2 → Released s2 → BankReady s3 p →
    let loc := p.at_.loc
    let stored := putPlace p.at_ (leBytes 8 v.toNat) (touchAt s3 p.at_)
    (checkAccess g.toNat (x.toInt + off.toNat * 8) ⟨8, 8, [9, 12], [0, 1], 4, .write⟩ false s2 = .ok p s3 →
      (loc / 16 ∈ s3.empties → NoWaiter s3 (loc / 16) →
        exec (.stfe d a g off) s = .next (after 4 s (marked stored (loc / 16) true))) ∧
      (loc / 16 ∉ s3.empties → ∃ t, exec (.stfe d a g off) s = .next t ∧ t.mem = s3.mem ∧ t.empties = s3.empties ∧ t.me.pc = s.me.pc ∧
        (t.me.wait.map (·.kind)) = some .fullEmpty ∧ t.feq.length = s3.feq.length + 1)) ∧
    (checkAccess g.toNat (x.toInt + off.toNat * 8) ⟨8, 8, [9, 12], [0, 1], 5, .write⟩ false s2 = .ok p s3 →
      NoWaiter s3 (loc / 16) →
      exec (.stfs d a g off) s = .next (after 4 s (marked stored (loc / 16) true)))) ∧
  (∀ (d a : Reg) (g : BitVec 3) (off : BitVec 8) (s s1 s2 s3 : State) (x : Word) (p : Spot),
    FieldsOk s [d, a] → Released s → readReg a s = .ok x s1 → BankReady s2 p →
    checkAccess g.toNat (x.toInt + off.toNat * 16) ⟨16, 16, [12], [0, 1], 6, .read⟩ false s1 = .ok p s2 →
    let loc := p.at_.loc
    (NoWaiter s2 (loc / 16) → exec (.feset a g off) s = .next (after 4 s (marked (touchAt s2 p.at_) (loc / 16) true)) ∧
      exec (.feclr a g off) s = .next (after 4 s (marked (touchAt s2 p.at_) (loc / 16) false))) ∧
    (writeReg d (if loc / 16 ∈ s2.empties then 0 else 1) (touchAt s2 p.at_) = .ok () s3 →
      exec (.feget d a g off) s = .next (after 4 s s3)))

/-- A granule that becomes full is handed to the context that waits there: `ldfk` leaves it full and `ldfc` empty, and the waiting context has
the word in its register and stands behind its instruction (R172, R173). That the hand-over is made in the step that changes the granule's state is
the model's reading (log 25, DEDUCED). -/
def Sys2Proof.Spec.FullEmptyHandOver : Prop :=
  ∀ (a : Reg) (g : BitVec 3) (off : BitVec 8) (s s1 s2 : State) (x : Word) (p : Spot) (w : FeWaiter) (d : Reg) (c : Bool),
    FieldsOk s [a] → Released s → s2.empties.Pairwise (· < ·) → readReg a s = .ok x s1 → BankReady s2 p →
    checkAccess g.toNat (x.toInt + off.toNat * 16) ⟨16, 16, [12], [0, 1], 6, .read⟩ false s1 = .ok p s2 →
    let loc := p.at_.loc
    loc / 16 ∈ s2.empties → s2.feq.filter (fun v => v.g = loc / 16) = [w] → w.kind = (if c then .ldfc d else .ldfk d) → d.toNat < 24 →
    w.who ≠ s.cur → ¬PoisonedAt s2 w.at_ →
    ∃ t, exec (.feset a g off) s = .next t ∧ t.mem = s2.mem ∧
      (t.ctx w.who).reg d.toNat = BitVec.ofNat 64 (numAt s2 w.at_) ∧
      (t.ctx w.who).pc = w.npc ∧ (t.ctx w.who).wait = none ∧ (loc / 16 ∈ t.empties ↔ c = true) ∧ w ∉ t.feq ∧
      t.me.pc = s.me.pc + BitVec.ofNat 64 (4 * s.grp.n + 4)

/-- A granule that becomes empty is handed to the `stfe` that waits there, which writes its word and leaves the granule full (R173), in the same step
(log 25, DEDUCED). -/
def Sys2Proof.Spec.FullEmptyStoreHandOver : Prop :=
  ∀ (a : Reg) (g : BitVec 3) (off : BitVec 8) (s s1 s2 : State) (x v : Word) (p : Spot) (w : FeWaiter),
    FieldsOk s [a] → Released s → s2.empties.Pairwise (· < ·) → memWf s2.mem = true → readReg a s = .ok x s1 → BankReady s2 p →
    checkAccess g.toNat (x.toInt + off.toNat * 16) ⟨16, 16, [12], [0, 1], 6, .read⟩ false s1 = .ok p s2 →
    let loc := p.at_.loc
    loc / 16 ∉ s2.empties → s2.feq.filter (fun u => u.g = loc / 16) = [w] → w.kind = .stfe v → w.who ≠ s.cur →
    (bytesOf w.at_).length = 8 → (bytesOf w.at_).Nodup →
    ∃ t, exec (.feclr a g off) s = .next t ∧
      (∀ j < 8, memGet t.mem ((bytesOf w.at_).getD j 0) = BitVec.ofNat 8 (v.toNat / 256 ^ j)) ∧
      (∀ y, y ∉ bytesOf w.at_ → memGet t.mem y = memGet s2.mem y) ∧ (t.ctx w.who).pc = w.npc ∧ (t.ctx w.who).wait = none ∧
      loc / 16 ∉ t.empties ∧ w ∉ t.feq ∧ t.me.pc = s.me.pc + BitVec.ofNat 64 (4 * s.grp.n + 4)

/-- Three contexts wait at an empty granule, with `ldfk`, `ldfc` and `ldfk` or `ldfc` in this order: made full, it is handed to the first and the
second, which empties it, and the third goes on waiting (R173, Table 7.8); all in one step (log 25, DEDUCED). -/
def Sys2Proof.Spec.FullEmptyOrder : Prop :=
  ∀ (a : Reg) (g : BitVec 3) (off : BitVec 8) (s s1 s2 : State) (x : Word) (p : Spot) (u v w : FeWaiter) (d e f : Reg) (c : Bool),
    FieldsOk s [a] → Released s → s2.empties.Pairwise (· < ·) → readReg a s = .ok x s1 → BankReady s2 p →
    checkAccess g.toNat (x.toInt + off.toNat * 16) ⟨16, 16, [12], [0, 1], 6, .read⟩ false s1 = .ok p s2 →
    let loc := p.at_.loc
    loc / 16 ∈ s2.empties → s2.feq.filter (fun y => y.g = loc / 16) = [u, v, w] → u.kind = .ldfk d → v.kind = .ldfc e →
    w.kind = (if c then .ldfc f else .ldfk f) → d.toNat < 24 → e.toNat < 24 → u.who ≠ s.cur → v.who ≠ s.cur → u.who ≠ v.who →
    w.who ≠ s.cur → w.who ≠ u.who → w.who ≠ v.who → ¬PoisonedAt s2 u.at_ → ¬PoisonedAt s2 v.at_ →
    ∃ t, exec (.feset a g off) s = .next t ∧ t.mem = s2.mem ∧ (t.ctx u.who).reg d.toNat = BitVec.ofNat 64 (numAt s2 u.at_) ∧
      (t.ctx v.who).reg e.toNat = BitVec.ofNat 64 (numAt s2 v.at_) ∧ (t.ctx u.who).pc = u.npc ∧ (t.ctx v.who).pc = v.npc ∧
      (t.ctx u.who).wait = none ∧ (t.ctx v.who).wait = none ∧ (t.ctx w.who).pc = (s2.ctx w.who).pc ∧
      (t.ctx w.who).wait = (s2.ctx w.who).wait ∧ t.feq.filter (fun y => y.g = loc / 16) = [w] ∧ loc / 16 ∈ t.empties

/-- The statements above together. -/
def Obligations.FullEmptyInstructions : Prop :=
  FullEmptyResults ∧ FullEmptyHandOver ∧ FullEmptyStoreHandOver ∧ FullEmptyOrder

/-- `lea` writes base + o and needs no right, with 0 ≤ o ≤ limit; `segld` loads the descriptor at a selector of 0–15 from the core's table
where it is valid, and its selector; `segget` writes half of a descriptor; `segchk` writes Table 7.6 (R168–R170, R37). -/
def Obligations.SegmentInstructions : Prop :=
  (∀ (d a : Reg) (g : BitVec 3) (off : BitVec 10) (s s1 s2 : State) (x : Word), FieldsOk s [d, a] → readReg a s = .ok x s1 →
    let o := x.toInt + off.toNat
    let e := s1.me.segd g.toNat
    (o < 0 ∨ segLimit e < o → exec (.lea d a g off) s = .next (takeTrap ⟨0x07, memTinfo g.toNat 7 false (BitVec.ofInt 48 o)⟩ s)) ∧
    (0 ≤ o → o ≤ segLimit e → writeReg d (BitVec.ofInt 64 (segBase e + o)) s1 = .ok () s2 →
      exec (.lea d a g off) s = .next (after 4 s s2))) ∧
  (∀ (d : Fin 8) (a : Reg) (s s1 : State) (q : Word), FieldsOk s [a] → readReg a s = .ok q s1 → Settled s1 →
    let r := BitVec.ofNat 5 d.val
    let loc := Config.spadLoc s1.here (Config.spadSize s1.layer - 256 + 16 * q.toNat)
    let e : Desc := BitVec.ofNat 128 (valueAt s1 loc 16)
    let valid := e.extractLsb' 13 19 = 0 ∧ e.extractLsb' 2 6 = 0 ∧ (e.getLsbD 10 = true → segSpace e = 3) ∧
      segBase e + segLimit e ≤ (if segSpace e = 0 then Config.spadSize s1.layer
        else if segSpace e = 1 then 24 * Config.spadSize s1.layer else 2 ^ 48)
    (15 < q.toNat → exec (.segld r a) s = .next (takeTrap ⟨0x02, q⟩ s)) ∧
    (q.toNat ≤ 15 → (∀ b ∈ s1.me.out, ¬Meet b.home [(loc, 16, .plain)]) → ¬Poisoned s1 loc 16 → ¬valid →
      exec (.segld r a) s = .next (takeTrap ⟨0x02, q⟩ s)) ∧
    (q.toNat ≤ 15 → (∀ b ∈ s1.me.out, ¬Meet b.home [(loc, 16, .plain)]) → ¬Poisoned s1 loc 16 → valid →
      ∃ t, exec (.segld r a) s = .next t ∧ t.me.segd d = e ∧ (t.me.sel.extractLsb' (4 * d) 4).toNat = q.toNat ∧
        t.me.pc = s.me.pc + BitVec.ofNat 64 (4 * s.grp.n + 4) ∧ t.me.x = s1.me.x ∧ t.mem = s1.mem ∧
        (∀ j : Fin 8, j ≠ d → t.me.segd j = s1.me.segd j ∧ t.me.sel.extractLsb' (4 * j) 4 = s1.me.sel.extractLsb' (4 * j) 4))) ∧
  (∀ (d : Reg) (a : Fin 8) (h : Bool) (s s1 : State), FieldsOk s [d] →
    writeReg d (if h then (s.me.segd a).extractLsb' 64 64 else (s.me.segd a).extractLsb' 0 64) s = .ok () s1 →
    exec (.segget d (BitVec.ofNat 5 a.val) (if h then 1 else 0)) s = .next (after 4 s s1)) ∧
  (∀ (d : Reg) (a : Fin 8) (b : Reg) (s s1 s2 : State) (o : Word), FieldsOk s [d, b] → readReg b s = .ok o s1 →
    let e := s1.me.segd a
    let room : Word := if 0 ≤ o.toInt ∧ o.toInt ≤ segLimit e then BitVec.ofInt 64 (segLimit e - o.toInt) else 0
    writeReg d ((0#9 ++ e.extractLsb' 0 2 ++ e.extractLsb' 8 5 ++ 0#48 : Word) ||| room) s1 = .ok () s2 →
    exec (.segchk d (BitVec.ofNat 5 a.val) b) s = .next (after 4 s s2))
/-! ## Taking a trap, migration, delegation -/

namespace Sys2Proof.Spec

/-- The lowest byte of a context's trap record: the records start 1,280 bytes below the end of its core's scratchpad (R228). -/
def recordLoc (m : Nat) : Nat := Config.spadLoc (m / 16) (Config.spadSize (cidLayer (m / 16)) - 1280 + 64 * (m % 16))

/-- Who is told of a trap: the partition supervisor for a trap of context 0 and for privileged and watchdog, otherwise context 0
of the home core (R229). -/
def toldOf (s : State) (m : Nat) (cause : BitVec 8) : Nat :=
  if m % 16 = 0 ∨ cause = 0x06 ∨ cause = 0x17 then supervisorOf s (s.ctx m).part.toNat else 16 * (m / 16)

/-- The trap notice (Tables 8.2, 8.7). -/
def trapNotice (m : Nat) (cause : BitVec 8) : Word := BitVec.ofNat 64 (7 * 2 ^ 56 + m / 16 * 2 ^ 16 + cause.toNat * 2 ^ 8 + m % 16)

/-- A hardware word from the hardware of a core, with its place in send order (R195, R410). -/
def hwWordTo (n cid dst : Nat) (v : Word) : NWord := ⟨16 * cid + 15, dst, true, v, 0, 0, n, false⟩

/-- A hardware word can be posted to a context at once: fewer than 64 wait for it, and no agent holds one back (R195). -/
def CanPost (s : State) (dst : Nat) : Prop :=
  (s.net.filter fun w => w.hw && w.dst = dst).length + (s.ingress.filter fun w => w.hw && w.dst = dst).length < 64 ∧
  ∀ h ∈ s.held, h.w.dst ≠ dst

/-- Who sends under a number: a context or a core's hardware by its MBA, and the dispatcher, which sends for each launch under a number of its own. -/
def sender (src : Nat) : Nat := if src < 2 ^ 20 then src else 16 * dispatcherCid + 15

/-- No message of a sender to a core that it sent before its `n`-th is still on the message network, work items among them (R410). -/
def NoEarlier (s : State) (src cid n : Nat) : Prop :=
  (∀ w ∈ s.net, sender w.src = sender src → w.dst / 16 = cid → n ≤ w.n) ∧ (∀ o ∈ s.cops, sender o.src = sender src → o.cid = cid → n ≤ o.n) ∧
  (∀ r ∈ s.dreqs, sender r.req.from_ = sender src → r.owner = cid → n ≤ r.n) ∧ ∀ it ∈ s.items, it.leg = (sender src, cid) → n ≤ it.n

/-- A core is in service: neither it nor its cluster is between a reset and its return. -/
def Up (s : State) (cid : Nat) : Prop := (s.cluster (clKey cid)).down = false ∧ (s.core cid).down = false

/-- An access as the core that a thread reaches performs it: a load of a replicated page at the copy of that core's die (R164, R390). -/
def onCore (a : Acc) (cid : Nat) : Acc :=
  { a with at_ := match a.kind with
      | .load .. => a.home.map fun x => (if x.2.2.repl then copyPa x.1 (baseDie cid) else x.1, x.2)
      | _ => a.home }

/-- No command of a context waits for room in an engine's queue. -/
def NoneEntering (s : State) (m : Nat) : Prop := ∀ q ∈ (s.core (m / 16)).eng.toList, ∀ x ∈ q.enter, x.who = m → x.npc = none

/-- A context stands in its trap handler's hands, with the record of the trap in its home core's bank 15; the notice goes out once its earlier
accesses have been performed (R48, R228, R229, R315). Everything else that the context holds stays, but for what it waited for; every other context
stays as it was, but that this one no longer stops or mutes it; and no word leaves a port. -/
def TrapTaken (s u : State) (m : Nat) (t : HomeTrap) (returned : Bool) : Prop :=
  let c := s.ctx m
  let loc := recordLoc m
  let d := u.ctx m
  d.run = .stopped .trap ∧ d.pc = t.tpc ∧ d.tcause = t.t.cause ∧ d.tinfo = t.t.tinfo ∧ d.tpc = t.tpc ∧
  d = { c with
    run := .stopped .trap, pc := t.tpc, tcause := t.t.cause, tinfo := t.t.tinfo, tpc := t.tpc, wait := none, rcv := none, pops := [],
    out := d.out, notice := d.notice, rngst := d.rngst, gpos := d.gpos, stopReq := d.stopReq, muteOut := d.muteOut } ∧
  ((∀ a ∈ c.out, a.rlx = true ∨ ∃ v, a.kind = .store v) → d.out = c.out) ∧ (NoneEntering s m → d.rngst = c.rngst ∧ d.gpos = c.gpos) ∧
  (c.stopReq ≠ some m → d.stopReq = c.stopReq) ∧ (m ∉ c.muteOut → d.muteOut = c.muteOut) ∧
  wordAt u loc = BitVec.ofNat 64 (t.t.cause.toNat + 2 ^ 8 * (m % 16) + (if returned then 2 ^ 16 else 0)
    + (if c.mode.extractLsb' 16 32 = 0 then 0 else 2 ^ 17)) ∧
  wordAt u (loc + 8) = t.tpc ∧ wordAt u (loc + 16) = t.t.tinfo ∧ wordAt u (loc + 24) = t.instr ∧
  wordAt u (loc + 32) = t.pfxs ∧ wordAt u (loc + 40) = c.mode ∧ wordAt u (loc + 48) = BitVec.ofNat 64 s.gtime ∧
  wordAt u (loc + 56) = (c.k ++ c.flags.setWidth 32 : Word) ∧
  (∀ x, x < loc ∨ loc + 64 ≤ x → memGet u.mem x = memGet s.mem x) ∧
  (c.out = [] → CanPost s (toldOf s m t.t.cause) →
    u.net = s.net ++ [hwWordTo s.mseq (m / 16) (toldOf s m t.t.cause) (trapNotice m t.t.cause)] ∧ d.notice = none) ∧
  ((∃ a ∈ c.out, a.rlx = true ∨ ∃ v, a.kind = .store v) →
    u.net = s.net ∧ d.notice = some (toldOf s m t.t.cause, trapNotice m t.t.cause)) ∧
  u.empties = s.empties ∧ u.parts = s.parts ∧ u.tick = s.tick ∧
  (∀ n, n ≠ m → u.ctx n = { s.ctx n with
    stopReq := if (s.ctx n).stopReq = some m then none else (s.ctx n).stopReq, muteOut := (s.ctx n).muteOut.filter (· ≠ m) }) ∧
  ∀ cid dir, ((u.core cid).portq dir).q.map (·.1) = ((s.core cid).portq dir).q.map (·.1)

/-- A descriptor of a core's copy of the partition segment table (R169). -/
def tableEntry (s : State) (cid q : Nat) : Desc :=
  BitVec.ofNat 128 (valueAt s (Config.spadLoc cid (Config.spadSize (cidLayer cid) - 256 + 16 * q)) 16)

/-- Segment register `i` as a core reloads it from the context's selectors (R40, R184). -/
def reloaded (s : State) (cid : Nat) (c : Context) (i : Fin 8) : Desc := tableEntry s cid (c.sel.extractLsb' (4 * i.val) 4).toNat

/-- What a thread leaves at home (R189). -/
def leaves (c : Context) : Left := ⟨c.pc, c.x, c.k, c.flags, c.seg, c.sel, c.gpos, c.rngst, c.mode⟩

end Sys2Proof.Spec

/-- A context that is not a migrant takes a trap at once: the record, the three trap registers, the stop at the trapping group, the
notice, and nothing else (R48, R228, R229, Table 8.6). -/
def Sys2Proof.Spec.TrapsAreTaken : Prop :=
  ∀ (s : State) (t : Trap), memWf s.mem = true → s.me.away = none →
    TrapTaken s (takeTrap t s) s.cur ⟨t, s.me.pc, s.grp.instr, s.grp.pfxs⟩ false

/-- A migrant that raises a trap first returns home, once its earlier accesses have been performed, with nothing written there yet; its trap is taken
when it arrives, with `returned` set in the record (R186, R327). -/
def Sys2Proof.Spec.MigrantTraps : Prop :=
  (∀ (s : State) (t : Trap) (a : Away) (n : Nat), s.me.away = some a → a.phase = .hosted n →
    let u := takeTrap t s
    u.me.away = some { a with phase := if s.me.out.isEmpty then .toHome else .hosted n, trap := some ⟨t, s.me.pc, s.grp.instr, s.grp.pfxs⟩ } ∧ u.mem = s.mem ∧
    u.me.x = s.me.x ∧ u.me.tcause = s.me.tcause ∧ u.me.tinfo = s.me.tinfo ∧ u.me.tpc = s.me.tpc ∧ u.net = s.net ∧ u.me.k = s.me.k ∧
    u.me.mode = s.me.mode ∧ u.me.flags = s.me.flags ∧ u.me.seg = s.me.seg ∧ u.me.sel = s.me.sel ∧ u.me.mbx = s.me.mbx ∧ u.me.qin = s.me.qin ∧
    u.me.run = s.me.run ∧ ∀ n, n ≠ s.cur → u.ctx n = { s.ctx n with
      stopReq := if (s.ctx n).stopReq = some s.cur then none else (s.ctx n).stopReq, muteOut := (s.ctx n).muteOut.filter (· ≠ s.cur) }) ∧
  (∀ (m : Nat) (s : State) (a : Away) (n : Nat), (s.ctx m).away = some a → a.phase = .hosted n → a.trap.isSome = true → (s.ctx m).out = [] →
    m ∉ (s.core a.host).arrq →
    ∃ u, exec (.migrantHomeArrival m) s = .next u ∧ (u.ctx m).away = some { a with phase := .toHome } ∧ u.mem = s.mem ∧
      (u.ctx m).x = (s.ctx m).x) ∧
  (∀ (m : Nat) (s : State) (a : Away) (t : HomeTrap), memWf s.mem = true → (s.ctx m).away = some a → a.phase = .toHome → a.trap = some t →
    ∃ u, exec (.migrantHomeArrival m) s = .next u ∧ (u.ctx m).away = none ∧ (u.ctx m).run = .stopped .trap ∧
      (u.ctx m).tcause = t.t.cause ∧ (u.ctx m).tinfo = t.t.tinfo ∧ (u.ctx m).tpc = t.tpc ∧ (u.ctx m).x = (s.ctx m).x ∧
      wordAt u (recordLoc m) = BitVec.ofNat 64 (t.t.cause.toNat + 2 ^ 8 * (m % 16) + 2 ^ 16
        + (if (s.ctx m).mode.extractLsb' 16 32 = 0 then 0 else 2 ^ 17)) ∧
      (∀ x, x < recordLoc m ∨ recordLoc m + 64 ≤ x → memGet u.mem x = memGet s.mem x))

/-- The statements above together. -/
def Obligations.TrapsOfHomeAndMigrant : Prop := TrapsAreTaken ∧ MigrantTraps

/-- `mig`, and an atomic or `cas` on a global word of another core, send the thread to the word's owner, where an access that the move carries is
performed; a migrant's plain and relaxed loads and stores do the same. A migrant that moves on leaves its host for the next one, or for home, and what it
left at home stays there. `home` brings a migrant back and is `nop` elsewhere (R182, R187). -/
def Sys2Proof.Spec.ThreadsMove : Prop :=
  (∀ (a : Reg) (b : Fin 8) (s s1 s2 : State) (x : Word) (p : Spot), FieldsOk s [a] → readReg a s = .ok x s1 →
    Settled s1 → checkAccess b x.toInt ⟨1, 1, [8], [2], 12, .read⟩ false s1 = .ok p s2 →
    let owner := ownerOfLoc s2.minimal p.home.loc
    (owner = s2.here → exec (.mig a (BitVec.ofNat 5 b.val)) s = .next (after 4 s s2)) ∧
    (owner ≠ s2.here → Released s2 → s2.me.away = none → exec (.mig a (BitVec.ofNat 5 b.val)) s = .next (after 4 s
      (s2.modMe fun c => { c with away := some ⟨owner, .toHost, none, false, none, leaves c, c.pc, s2.tick,
        (s2.part c.part.toNat).wdlim⟩ })))) ∧
  (∀ i op n d a b g, amoForm i = some (op, n, d, a, b, g) →
    ∀ (s s1 s2 s3 : State) (x v : Word) (p : Spot), FieldsOk s [d, a, b] → readReg a s = .ok x s1 →
      readReg b s1 = .ok v s2 → Settled s2 →
      checkAccess g.toNat x.toInt ⟨n, n, [11], [0, 1, 2], 9, .atomic⟩ false s2 = .ok p s3 →
      checkDest d s3 = .ok () s3 → Quiet s3 → SiblingFree s3 p.home → Config.isHbm p.home.loc = true →
      ownerOfLoc s3.minimal p.home.loc ≠ s3.here → s3.me.away = none →
      let u := postponed s s3 [(a, x), (b, v)]
      exec i s = .next (after 4 s ({ u with aseq := u.aseq + 1 }.modMe fun c => { c with
        away := some ⟨ownerOfLoc s3.minimal p.home.loc, .toHost,
          some (Acc.mk (.amo op v d) p.at_ p.home n false p.info c.pc s3.aseq s.grp.instr s.grp.pfxs),
          false, none, leaves c, c.pc, u.tick, (u.part c.part.toNat).wdlim⟩ }))) ∧
  (∀ (d a b : Reg) (g : BitVec 3) (x' : Bool) (s s1 s2 s3 s4 : State) (x v e : Word) (p : Spot),
      FieldsOk s [d, a, b] → readReg a s = .ok x s1 → readReg b s1 = .ok v s2 → readReg d s2 = .ok e s3 → Settled s3 →
      checkAccess g.toNat x.toInt ⟨8, 8, [11], [0, 1, 2], 10, .atomic⟩ false s3 = .ok p s4 →
      checkDest d s4 = .ok () s4 → Quiet s4 → SiblingFree s4 p.home → Config.isHbm p.home.loc = true →
      ownerOfLoc s4.minimal p.home.loc ≠ s4.here → s4.me.away = none →
      let u := postponed s s4 [(a, x), (b, v), (d, e)]
      exec (.cas d a b g x') s = .next (after 4 s ({ u with aseq := u.aseq + 1 }.modMe fun c => { c with
        away := some ⟨ownerOfLoc s4.minimal p.home.loc, .toHost,
          some (Acc.mk (.cas e v d) p.at_ p.home 8 false p.info c.pc s4.aseq s.grp.instr s.grp.pfxs),
          false, none, leaves c, c.pc, u.tick, (u.part c.part.toNat).wdlim⟩ }))) ∧
  (∀ (s s1 s2 : State) (x : Word) (p : Spot) (w : Away) (n : Nat), s.me.away = some w → w.phase = .hosted n → s.cur ∉ (s.core w.host).arrq →
    Released s → Config.isHbm p.home.loc = true → ownerOfLoc s2.minimal p.home.loc ≠ s2.here →
    let owner := ownerOfLoc s2.minimal p.home.loc
    let moves := fun (i : Instr) (carry : Option Acc) => ∃ t, exec i s = .next t ∧
      t.me.away = some { w with host := owner, phase := if owner = s.cur / 16 then .toHome else .toHost, carry := carry, mpc := s.me.pc } ∧
      t.me.x = s.me.x ∧ t.me.out = [] ∧ t.me.pc = s.me.pc + BitVec.ofNat 64 (4 * s.grp.n + 4) ∧ t.mem = s.mem
    let acc := fun (kind : AccKind) (n : Nat) (rlx : Bool) => Acc.mk kind p.at_ p.home n rlx p.info s.me.pc s2.aseq s.grp.instr s.grp.pfxs
    (∀ (a : Reg) (b : Fin 8), FieldsOk s [a] → readReg a s = .ok x s1 →
      checkAccess b x.toInt ⟨1, 1, [8], [2], 12, .read⟩ false s1 = .ok p s2 → moves (.mig a (BitVec.ofNat 5 b.val)) none) ∧
    (∀ i d a g off k sg, loadForm i = some (d, a, g, off, k, sg) → FieldsOk s [d, a] → readReg a s = .ok x s1 →
      checkAccess g.toNat (x.toInt + off.toNat * k) ⟨k, k, [8], [0, 1, 2, 3], 0, .read⟩ s.grp.rlx s1 = .ok p s2 →
      moves i (some (acc (.load sg d) k s.grp.rlx))) ∧
    (∀ i d a g off k v, storeForm i = some (d, a, g, off, k) → FieldsOk s [d, a] → readReg a s = .ok x s1 → readReg d s1 = .ok v s1 →
      checkAccess g.toNat (x.toInt + off.toNat * k) ⟨k, k, [9], [0, 1, 2, 3], 1, .write⟩ s.grp.rlx s1 = .ok p s2 →
      moves i (some (acc (.store ((v.setWidth (8 * k)).setWidth 64)) k s.grp.rlx))) ∧
    (∀ i op k d a b g v, amoForm i = some (op, k, d, a, b, g) → FieldsOk s [d, a, b] → readReg a s = .ok x s1 → readReg b s1 = .ok v s1 →
      checkAccess g.toNat x.toInt ⟨k, k, [11], [0, 1, 2], 9, .atomic⟩ false s1 = .ok p s2 → Quiet s2 → SiblingFree s2 p.home →
      moves i (some (acc (.amo op v d) k false)))) ∧
  (∀ s : State, s.me.migrant = false → exec .home s = .next (after 4 s s)) ∧
  (∀ (s : State) (a : Away) (n : Nat), s.me.away = some a → a.phase = .hosted n → Released s →
    s.cur ∉ (s.core a.host).arrq →
    ∃ t, exec .home s = .next t ∧ t.me.pc = s.me.pc + BitVec.ofNat 64 (4 * s.grp.n + 4) ∧ t.me.x = s.me.x ∧ t.mem = s.mem ∧
      (t.me.away.map fun b => b.phase) = some .toHome)

/-- A thread that arrives takes the first of its host's contexts 1–14 that is unspawned, with its segments reloaded from their selectors
there; where none is free it waits in the queue of 16, and where that is full the network holds it. A thread that comes home goes on
there (R182–R184, R187). -/
def Sys2Proof.Spec.ThreadsArrive : Prop :=
  (∀ (m : Nat) (s : State) (a : Away), (s.ctx m).away = some a → a.phase = .toHost → Up s a.host →
    (∀ n, (s.core a.host).arrq = [] → freeHost s a.host = some n →
      ∃ t, exec (.migrantArrival m) s = .next t ∧
        (t.ctx m).away = some { a with phase := .hosted n, carry := none } ∧ (t.ctx m).out = (s.ctx m).out ++ (a.carry.map (onCore · a.host)).toList ∧
        (∀ i : Fin 8, (t.ctx m).segd i = reloaded s a.host (s.ctx m) i) ∧ (t.ctx m).x = (s.ctx m).x ∧ (t.ctx m).pc = (s.ctx m).pc ∧
        (t.core a.host).arrq = [] ∧ t.mem = s.mem) ∧
    ((s.core a.host).arrq.length < 16 → freeHost s a.host = none →
      ∃ t, exec (.migrantArrival m) s = .next t ∧ (t.ctx m).away = some { a with phase := .queued } ∧
        (t.core a.host).arrq = (s.core a.host).arrq ++ [m] ∧ t.mem = s.mem) ∧
    (16 ≤ (s.core a.host).arrq.length → exec (.migrantArrival m) s = .next s)) ∧
  (∀ (m : Nat) (s : State) (a : Away), (s.ctx m).away = some a → a.phase = .toHome → a.trap = none →
    ∃ t, exec (.migrantHomeArrival m) s = .next t ∧ (t.ctx m).away = none ∧ (t.ctx m).x = (s.ctx m).x ∧ (t.ctx m).pc = (s.ctx m).pc ∧
      (t.ctx m).out = (s.ctx m).out ++ (a.carry.map (onCore · (m / 16))).toList ∧ t.mem = s.mem ∧
      (∀ i : Fin 8, (t.ctx m).segd i = reloaded s (m / 16) (s.ctx m) i))

/-- The register fields of the instructions that a migrant may execute. -/
def Sys2Proof.Spec.namesOf : Instr → List Reg
  | .add d a b .. | .sub d a b .. | .and d a b .. | .or d a b .. | .xor d a b .. | .andn d a b .. | .shl d a b .. | .shr d a b ..
  | .sar d a b .. | .rol d a b .. | .mul d a b .. | .mulh d a b .. | .mulhu d a b .. | .div d a b .. | .divu d a b .. | .rem d a b ..
  | .remu d a b .. | .min d a b .. | .max d a b .. | .minu d a b .. | .maxu d a b .. | .slt d a b .. | .sltu d a b .. | .sel d a b ..
  | .fadd d a b .. | .fsub d a b .. | .fmul d a b .. | .fdiv d a b .. | .fmin d a b .. | .fmax d a b .. | .fsgnj d a b ..
  | .amoSwap d a b .. | .amoAdd d a b .. | .amoAnd d a b .. | .amoOr d a b .. | .amoXor d a b .. | .amoMin d a b .. | .amoMax d a b ..
  | .amoMinu d a b .. | .amoMaxu d a b .. | .amoFaddS d a b .. | .amoFaddD d a b .. | .amoFminS d a b .. | .amoFmaxS d a b ..
  | .cas d a b .. => [d, a, b]
  | .clmul d a b .. | .clmulh d a b .. => [d, a, b]
  | .clz d a .. | .ctz d a .. | .popc d a .. | .brev d a .. | .bswap d a .. | .sxb d a .. | .sxh d a .. | .zxb d a .. | .zxh d a ..
  | .abs d a .. | .neg d a .. | .addi d a .. | .andi d a .. | .ori d a .. | .xori d a .. | .shli d a .. | .shri d a .. | .sari d a ..
  | .muli d a .. | .slti d a .. | .sltiu d a .. | .fsqrt d a .. | .fabs d a .. | .fneg d a .. | .fclass d a .. | .frcpa d a ..
  | .frsqa d a .. | .fexp2a d a .. | .flog2a d a .. | .ldfk d a .. | .ldfc d a .. | .stfe d a .. | .stfs d a .. | .feget d a ..
  | .lea d a .. => [d, a]
  | .sxw d a .. | .zxw d a .. => [d, a]
  | .li d .. | .lis d .. | .lix d .. | .srg d .. | .srs d .. | .srx d .. => [d]
  | .cmpEq _ a b .. | .cmpNe _ a b .. | .cmpLt _ a b .. | .cmpGe _ a b .. | .cmpLtu _ a b .. | .cmpGeu _ a b .. | .fcmpEq _ a b ..
  | .fcmpLt _ a b .. | .fcmpLe _ a b .. | .fcmpUn _ a b .. | .fcmpEqs _ a b .. => [a, b]
  | .cmpiEq _ a .. | .cmpiNe _ a .. | .cmpiLt _ a .. | .cmpiGe _ a .. | .cmpiLtu _ a .. | .cmpiGeu _ a .. => [a]
  | .kget d | .rnd d | .flget d | .fltree d => [d]
  | .kset a | .jr a | .rngseed a | .flclr a | .tlbinvall a => [a]
  | .fma d a b c .. | .fms d a b c .. | .fnma d a b c .. | .fnms d a b c .. => [d, a, b, c]
  | .fcvt d a .. | .ldb d a .. | .ldbu d a .. | .ldh d a .. | .ldhu d a .. | .ldw d a .. | .ldwu d a .. | .ldd d a .. | .stb d a ..
  | .sth d a .. | .stw d a .. | .std d a .. => [d, a]
  | .feset a .. | .feclr a .. => [a]
  | .segld _ a => [a]
  | .segget d .. => [d]
  | .segchk d _ b => [d, b]
  | .redSwap a b .. | .redAdd a b .. | .redAnd a b .. | .redOr a b .. | .redXor a b .. | .redMin a b .. | .redMax a b .. | .redMinu a b ..
  | .redMaxu a b .. | .redFaddS a b .. | .redFaddD a b .. | .redFminS a b .. | .redFmaxS a b .. => [a, b]
  | .mig a .. => [a]
  | .beq a b .. | .bne a b .. | .blt a b .. | .bge a b .. | .bltu a b .. | .bgeu a b .. => [a, b]
  | .jalr d a => [d, a]
  | .rep _ _ _ _ c => [c]
  | .eret a b | .tlbinv a b => [a, b]
  | _ => []

/-- The instructions that a migrant may not execute (Table 7.11). -/
def Sys2Proof.Spec.homeOnly : Instr → Bool
  | .recvt .. | .mbcnt .. | .send .. | .barArrive .. | .barInit .. | .barLeave .. | .spawn .. | .reap .. | .save .. | .load .. | .tkdec ..
  | .tkset .. | .erflip .. | .erpass .. | .erori .. | .bowstart .. | .mutesend .. | .engst .. | .engcancel .. | .mxlease .. | .mxrel
  | .dlgret | .dlg .. | .erarm .. | .fold .. | .scan .. | .zip .. | .outer .. | .tcopy .. | .tfill .. | .txp .. | .gld .. | .gst ..
  | .rtndef .. | .mxldst .. | .mxswap .. | .mxstrm .. | .mxdrain .. | .lvsetImm .. | .lvsetReg .. | .wld .. | .rstr .. | .prol .. | .put ..
  | .putarm .. | .cntw .. | .lnch .. => true
  | _ => false

/-- A migrant that executes an instruction of Table 7.11, or one that names a port, `qin`, `qout` or the mailbox in any field, takes migrant-restriction with the
instruction word before it reads or writes anything (R33, R185). -/
def Sys2Proof.Spec.MigrantsAreRestricted : Prop :=
  ∀ (i : Instr) (s : State), s.me.migrant = true → (homeOnly i = true ∨ ∃ r ∈ namesOf i, 24 ≤ r.toNat ∧ r.toNat ≤ 30) →
    exec i s = .next (takeTrap ⟨0x10, s.grp.instr⟩ s)

/-- The statements above together. -/
def Obligations.ThreadsMigrate : Prop := ThreadsMove ∧ ThreadsArrive ∧ MigrantsAreRestricted

/-- `dlg` raises delegation-disabled with the owner where the owner has no enabled server, and otherwise sends its request and waits until it is
accepted, with 64 credits for a pair of cores; a word that its base read from `qin` is popped when it is accepted (R29, R190, R310, R410,
R411). -/
def Sys2Proof.Spec.DelegationRequests : Prop :=
  (∀ (f : T64) (s s1 s2 : State) (x : Word) (p : Spot), s.me.migrant = false → readReg f.a s = .ok x s1 →
    Settled s1 → checkAccess (f.f.setWidth 3).toNat x.toInt ⟨1, 1, [11], [0, 1, 2], 13, .dlg⟩ false s1 = .ok p s2 →
    let owner := ownerOfLoc s2.minimal p.home.loc
    ((s2.core owner).dlg.en = false → exec (.dlg f) s = .next (takeTrap ⟨0x16, BitVec.ofNat 64 owner⟩ s)) ∧
    ((s2.core owner).dlg.en = true → Released s2 → 64 ≤ creditsUsed s2 (mbaCid s2.cur) owner →
      exec (.dlg f) s = .next (noteWait s s.cur .dlgCredit)) ∧
    ((s2.core owner).dlg.en = true → Released s2 → creditsUsed s2 (mbaCid s2.cur) owner < 64 →
      ∃ t, exec (.dlg f) s = .next t ∧
        t.dreqs = s.dreqs ++ [⟨owner, ⟨f.w1, [s.me.reg 0, s.me.reg 1, s.me.reg 2, s.me.reg 3, s.me.reg 4, s.me.reg 5], s.cur⟩, s.mseq⟩] ∧
        (24 ≤ f.a.toNat → f.a.toNat ≤ 30 → t.me.pops = [(f.a, x)] ∧ t.me.qin = s.me.qin ∧ t.me.mbx = s.me.mbx ∧ t.me.k = s.me.k) ∧
        t.me.pc = s.me.pc ∧ t.me.x = s.me.x ∧ t.mem = s.mem ∧ (t.me.wait.map (·.kind)) = some .delegation)) ∧
  (∀ (cid : Nat) (s : State) (r : DReq), s.dreqs.find? (fun r => r.owner = cid) = some r → NoEarlier s r.req.from_ cid r.n → Up s cid →
    ((s.core cid).dlg.en = false → (s.ctx r.req.from_).away = none →
      ∃ t, exec (.delegationAccept cid) s = .next t ∧ (t.ctx r.req.from_).tcause = 0x16 ∧
        (t.ctx r.req.from_).tinfo = BitVec.ofNat 64 cid ∧ (t.ctx r.req.from_).run = .stopped .trap ∧
        (t.ctx r.req.from_).tpc = (s.ctx r.req.from_).pc) ∧
    ((s.core cid).dlg.en = true → (s.core cid).dlg.queue.length < 32 →
      ∃ t, exec (.delegationAccept cid) s = .next t ∧ (t.core cid).dlg.queue = (s.core cid).dlg.queue ++ [r.req] ∧
        t.dreqs = s.dreqs.erase r ∧ (t.ctx r.req.from_).pc = (s.ctx r.req.from_).pc + 8 ∧ (t.ctx r.req.from_).wait = none ∧
        (t.ctx r.req.from_).x = (s.ctx r.req.from_).x ∧ t.mem = s.mem ∧
        (∀ src v q, (s.ctx r.req.from_).pops = [(28, v)] → (s.ctx r.req.from_).qin = .word src v :: q →
          (t.ctx r.req.from_).qin = q ∧ (t.ctx r.req.from_).pops = [])) ∧
    ((s.core cid).dlg.en = true → 32 ≤ (s.core cid).dlg.queue.length → exec (.delegationAccept cid) s = .next s))

/-- The server starts its oldest request's routine with PC and x0–x5 from it and every other register as it was; `dlgret` sends x0 and x1 to the
requester and waits for the next; `dlgctl` enables a server in an unspawned context 15 and disables an idle one (R191, R309). -/
def Sys2Proof.Spec.DelegationServer : Prop :=
  (∀ (cid : Nat) (s : State) (r : Req) (q : List Req), (s.core cid).dlg = ⟨true, none, r :: q⟩ →
    (s.ctx (16 * cid + 15)).run = .running → (s.ctx (16 * cid + 15)).wait.map (·.kind) = some .serverIdle →
    ∃ t, exec (.delegationStart cid) s = .next t ∧ (t.core cid).dlg = ⟨true, some r.from_, q⟩ ∧
      (t.ctx (16 * cid + 15)).pc = r.rpc.setWidth 64 ∧ (t.ctx (16 * cid + 15)).wait = none ∧
      (∀ i : Nat, i < 24 → (t.ctx (16 * cid + 15)).reg i = if i < 6 then r.args.getD i 0 else (s.ctx (16 * cid + 15)).reg i) ∧
      (t.ctx (16 * cid + 15)).k = (s.ctx (16 * cid + 15)).k ∧ (t.ctx (16 * cid + 15)).seg = (s.ctx (16 * cid + 15)).seg ∧ t.mem = s.mem) ∧
  (∀ s : State, s.me.migrant = false →
    let k := s.core (s.cur / 16)
    (¬(s.cur % 16 = 15 ∧ k.dlg.en = true) → exec .dlgret s = .next (takeTrap ⟨0x16, 1⟩ s)) ∧
    (s.cur % 16 = 15 → k.dlg.en = true → k.dlg.cur = none → ∃ t, exec .dlgret s = .next t ∧ t.net = s.net ∧ t.mem = s.mem ∧
      t.me.pc = s.me.pc ∧ t.me.x = s.me.x ∧ t.me.wait.map (·.kind) = some .serverIdle) ∧
    (∀ r, s.cur % 16 = 15 → k.dlg.en = true → k.dlg.cur = some r → Released s → hwWaiting s r < 63 → (∀ h ∈ s.held, h.w.dst ≠ r) →
      ∃ t, exec .dlgret s = .next t ∧
      t.net = s.net ++ [hwWordTo s.mseq (s.cur / 16) r (s.me.reg 0), hwWordTo (s.mseq + 1) (s.cur / 16) r (s.me.reg 1)] ∧ t.mem = s.mem ∧
      (t.core (s.cur / 16)).dlg = { k.dlg with cur := none } ∧ t.me.x = s.me.x ∧ t.me.wait.map (·.kind) = some .serverIdle)) ∧
  (∀ (d : Reg) (s s1 : State) (v : Word), s.me.migrant = false → s.me.sup = true ∨ s.cur % 16 = 0 → cidLayer (s.cur / 16) = 0 →
    s.cur % 16 ≠ 15 → readReg d s = .ok v s1 →
    let k := (s.core (s.cur / 16)).dlg
    let m := 16 * (s.cur / 16) + 15
    ((s1.core (s.cur / 16)).dlg = k) →
    (k.en = false → v.getLsbD 0 = true → (s1.ctx m).run = .unspawned → (∀ x ∈ s1.ctxs, x.2.hosted ≠ some (s.cur / 16, 15)) →
      ∃ t, exec (.dlgctlEnable d) s = .next t ∧ (t.core (s.cur / 16)).dlg = ⟨true, none, []⟩ ∧ (t.ctx m).run = .running ∧
        (t.ctx m).wait.map (·.kind) = some .serverIdle ∧ (t.ctx m).seg = s.me.seg ∧ t.mem = s1.mem ∧
        t.me.pc = s.me.pc + BitVec.ofNat 64 (4 * s.grp.n + 4)) ∧
    (k.en = true → v.getLsbD 0 = false → k.cur = none → k.queue = [] →
      ∃ t, exec (.dlgctlDisable d) s = .next t ∧ (t.core (s.cur / 16)).dlg = ⟨false, none, []⟩ ∧ (t.ctx m).run = .unspawned ∧
        t.mem = s1.mem ∧ t.me.pc = s.me.pc + BitVec.ofNat 64 (4 * s.grp.n + 4)) ∧
    (k.en = true → v.getLsbD 0 = false → k.cur ≠ none ∨ k.queue ≠ [] →
      exec (.dlgctlDisable d) s = .next (takeTrap ⟨0x02, 0xC000000000000082⟩ s)))

/-- The statements above together. -/
def Obligations.DelegationResults : Prop := DelegationRequests ∧ DelegationServer
/-! ## Messages, barriers, fences, contexts -/

namespace Sys2Proof.Spec

/-- The context waits at its instruction for a reason, with its registers, its PC and memory as they were (Table 2.10). -/
def WaitsAt (s t : State) (k : WaitKind) : Prop :=
  t.me.pc = s.me.pc ∧ t.me.x = s.me.x ∧ t.me.k = s.me.k ∧ t.me.flags = s.me.flags ∧ t.mem = s.mem ∧ t.me.wait.map (·.kind) = some k

/-- Cycles of the clock of the layer of a core. -/
def cyclesAt (s : State) (cid : Nat) : Nat := s.cycles (cidLayer cid)

/-- The barrier completion word (Table 8.2). -/
def barrierWord (scope id : Nat) (phase : W32) : Word := BitVec.ofNat 64 (2 * 2 ^ 56 + scope * 2 ^ 48 + id * 2 ^ 32 + phase.toNat)

/-- The exit notice (Table 8.2): reason 0 `exit`, 1 `reap`. -/
def exitWord (m reason : Nat) : Word := BitVec.ofNat 64 (6 * 2 ^ 56 + m / 16 * 2 ^ 16 + reason * 2 ^ 4 + m % 16)

/-- Who receives the notice of a context's end (R205, R206). -/
def exitTo (s : State) (m : Nat) : Nat := if m % 16 = 0 then supervisorOf s (s.ctx m).part.toNat else 16 * (m / 16)

/-- The seed of a generator (R71). -/
def seedOf (t : Word) : Word :=
  let z0 := t + 0x9E3779B97F4A7C15
  let z1 := (z0 ^^^ (z0 >>> 30)) * 0xBF58476D1CE4E5B9
  let z2 := (z1 ^^^ (z1 >>> 27)) * 0x94D049BB133111EB
  let z3 := z2 ^^^ (z2 >>> 31)
  if z3 = 0 then 1 else z3

/-- An instruction that is reserved to context 0 and to supervisor mode may run (R193). -/
def MayRule (s : State) : Prop := s.me.sup = true ∨ s.cur % 16 = 0

/-- A context has nothing outstanding and no thread away: a stop takes it at its group boundary at once (R204). -/
def StopsNow (c : Context) : Prop := c.run = .running ∧ c.out = [] ∧ c.away = none ∧ c.late = none

/-- The double word at a byte offset of a block (R1). -/
def dwordOf (f : List Byte) (off : Nat) : Word := BitVec.ofNat 64 ((List.range 8).foldr (fun i r => (f.getD (off + i) 0).toNat + 256 * r) 0)

/-- The context word (Table 2.3). -/
def ctxWord (c : Context) : Word :=
  c.sel ++ 0#4 ++ c.gpos ++ BitVec.ofBool c.sec ++ BitVec.ofBool c.sup ++ 0#8 ++ c.mode.extractLsb' 0 16

/-- A save frame of a context at a PC (Table 8.4, R207). -/
def FrameOf (c : Context) (pc : Word) (f : List Byte) : Prop :=
  f.length = 512 ∧ dwordOf f 0 = pc ∧ dwordOf f 8 = c.flags.setWidth 32 ++ c.k ∧ (∀ i, i < 24 → dwordOf f (16 + 8 * i) = c.reg i) ∧
  dwordOf f 208 = ctxWord c ∧ dwordOf f 216 = c.rngst ∧ dwordOf f 224 = c.mode ∧ dwordOf f 232 = c.jobseed ∧
  dwordOf f 240 = c.msgdst ∧ dwordOf f 248 = c.qlink ∧ dwordOf f 256 = c.tcause.setWidth 64 ∧ dwordOf f 264 = c.tinfo ∧
  dwordOf f 272 = c.tpc ∧ dwordOf f 280 = (0#32 ++ c.bowgrp ++ 0#3 ++ BitVec.ofBool c.sec ++ c.part ++ c.ctxid : Word) ∧
  (∀ i : Fin 8, dwordOf f (288 + 16 * i) = (c.segd i).extractLsb' 0 64 ∧ dwordOf f (296 + 16 * i) = (c.segd i).extractLsb' 64 64) ∧
  ∀ i, 416 ≤ i → f.getD i 0 = 0

/-- What every loaded frame makes of a context (R209); the `mode` dword counts, not its image in the context word (log 88). -/
def Loaded (c d : Context) (f : List Byte) : Prop :=
  d.run = .running ∧ d.pc = (dwordOf f 0 &&& 0x0000FFFFFFFFFFFC) ∧ d.k = (dwordOf f 8).setWidth 32 ∧ d.flags = (dwordOf f 8).extractLsb' 32 6 ∧
  (∀ i, i < 24 → d.reg i = dwordOf f (16 + 8 * i)) ∧ d.sel = (dwordOf f 208).extractLsb' 32 32 ∧ d.gpos = (dwordOf f 208).extractLsb' 26 2 ∧
  d.rngst = dwordOf f 216 ∧
  d.mode = dwordOf f 224 &&& 0x0000FFFFFFFF1FFF ∧ d.jobseed = dwordOf f 232 ∧ d.msgdst = dwordOf f 240 ∧ d.qlink = dwordOf f 248 ∧
  d.tcause = (dwordOf f 256).setWidth 8 ∧ d.tinfo = dwordOf f 264 ∧ d.tpc = dwordOf f 272 ∧ d.bowgrp = (dwordOf f 280).extractLsb' 16 16 ∧
  (∀ i : Fin 8, d.segd i = dwordOf f (296 + 16 * i) ++ dwordOf f (288 + 16 * i)) ∧ d.fretboard = c.fretboard ∧ d.mbx = c.mbx ∧ d.qin = c.qin ∧
  d.gen = c.gen

/-- A descriptor is valid on a core whose scratchpad has `size` bytes (Table 2.2, R37). -/
def DescOk (size : Nat) (d : Desc) : Prop :=
  d.extractLsb' 13 19 = 0 ∧ d.extractLsb' 2 6 = 0 ∧ (d.getLsbD 10 = true → segSpace d = 3) ∧
  segBase d + segLimit d ≤ (match segSpace d with | 0 => size | 1 => 24 * size | _ => 2 ^ 48)

/-- The fields of a frame by their byte offsets in the order in which checks 2 to 4 of R209 judge them. -/
def frameOrder : List Nat := [288, 304, 320, 336, 352, 368, 384, 400, 224, 248, 216]

/-- The field of a frame at a byte offset fails its check for a core (R16, R37, R44, R209, Tables 2.5, 2.6). -/
def FieldFails (minimal : Bool) (cid : Nat) (f : List Byte) (e : Nat) : Prop :=
  let v := dwordOf f e
  if e = 224 then v.extractLsb' 0 3 = 0 ∨ v.extractLsb' 0 3 = 7
  else if e = 248 then v.extractLsb' 21 43 ≠ 0 ∨ (v.getLsbD 20 = true ∧ mbaValid minimal (v.setWidth 20).toNat = false)
  else if e = 216 then v = 0
  else ¬DescOk (Config.spadSize (cidLayer cid)) (dwordOf f (e + 8) ++ v)

/-- A word goes from the hardware of a core to a context: on the network where there is room for it, and otherwise kept by its poster (R195). -/
def Goes (s u : State) (cid dst : Nat) (v : Word) : Prop :=
  (CanPost s dst → ∃ n, hwWordTo n cid dst v ∈ u.net) ∧
  ((∃ n, hwWordTo n cid dst v ∈ u.net) ∨ ∃ h ∈ u.held, h.w = hwWordTo 0 cid dst v)

end Sys2Proof.Spec

/-- `recvt` takes the mailbox's oldest word and clears k30, or writes 0 and sets k30 once the cycle that its limit names is over with the mailbox empty
(a word that arrives in that cycle counts), and waits until then, with what it has read from queues still there (R29); where its destination is full at the limit it waits for that. `mbcnt` counts the words; `send` checks its
MBA and sends a context word, with 64 credits for a pair of cores (R195–R197, R411). -/
def Obligations.MailboxInstructions : Prop :=
  (∀ (d a : Reg) (s s1 : State) (l : Word), s.me.migrant = false → s.me.rcv = none → readReg a s = .ok l s1 →
    let now := s1.cycles s1.layer
    (∀ v s2 s3, s1.me.mbx ≠ [] → readReg 30 s1 = .ok v s2 →
      writeReg d v (putK (s2.modMe fun c => { c with rcv := none }) 30 false) = .ok () s3 → exec (.recvt d a) s = .next (after 4 s s3)) ∧
    (∀ s3, s1.me.mbx = [] → l = 0 → writeReg d 0 (putK (s1.modMe fun c => { c with rcv := none }) 30 true) = .ok () s3 →
      exec (.recvt d a) s = .next (after 4 s s3)) ∧
    (s1.me.mbx = [] → l ≠ 0 → checkDest d s1 = .ok () s1 →
      ∃ t, exec (.recvt d a) s = .next t ∧ WaitsAt s t .emptyRead ∧ t.me.rcv = some ⟨now + l.toNat, d, false⟩ ∧ t.me.qin = s.me.qin ∧
        t.me.mbx = s.me.mbx)) ∧
  (∀ (d a : Reg) (s : State) (r : Rcv), s.me.migrant = false → s.me.rcv = some r →
    let u := takePops s s.cur
    (∀ v s2 s3, r.expired = false → u.me.mbx ≠ [] → readReg 30 u = .ok v s2 →
      writeReg d v (putK (s2.modMe fun c => { c with rcv := none }) 30 false) = .ok () s3 → exec (.recvt d a) s = .next (after 4 s s3)) ∧
    (∀ s3, r.expired = true → writeReg d 0 (putK (u.modMe fun c => { c with rcv := none }) 30 true) = .ok () s3 →
      exec (.recvt d a) s = .next (after 4 s s3))) ∧
  (∀ (m : Nat) (s : State) (r : Rcv), (s.ctx m).rcv = some r → (s.ctx m).run = .running → (s.ctx m).mbx = [] →
    ((s.ctx m).wait.map (·.kind)) = some .emptyRead →
    (cyclesAt s (m / 16) ≤ r.stop → exec (.recvtTimeout m) s = .next s) ∧
    (r.stop < cyclesAt s (m / 16) → r.d.toNat < 24 → ∃ t, exec (.recvtTimeout m) s = .next t ∧ (t.ctx m).pc = (s.ctx m).pc + 4 ∧
      (t.ctx m).cyc = r.stop ∧
      (∀ i, i < 24 → (t.ctx m).reg i = if i = r.d.toNat then 0 else (s.ctx m).reg i) ∧ (t.ctx m).k = putBit (s.ctx m).k 30 true ∧
      (t.ctx m).wait = none ∧ (t.ctx m).rcv = none ∧ t.mem = s.mem ∧
      (∀ src v q, (s.ctx m).pops = [(28, v)] → (s.ctx m).qin = .word src v :: q → (t.ctx m).qin = q ∧ (t.ctx m).pops = []) ∧
      (t.core (m / 16)).bow = (s.core (m / 16)).bow ||| (s.ctx m).bowgrp) ∧
    (r.stop < cyclesAt s (m / 16) → r.d.toNat = 29 → qlinkOk s m = true → (s.ctx m).out = [] → (s.ctx m).pops = [] →
      16 ≤ qoutUsed s m ((s.ctx m).qlink.setWidth 20).toNat →
      ∃ t, exec (.recvtTimeout m) s = .next t ∧ (t.ctx m).pc = (s.ctx m).pc ∧ (t.ctx m).k = (s.ctx m).k ∧
        (t.ctx m).rcv = some { r with expired := true } ∧ ((t.ctx m).wait.map (·.kind)) = some .fullWrite ∧ t.qnet = s.qnet)) ∧
  (∀ (d : Reg) (s s1 : State), s.me.migrant = false → writeReg d (BitVec.ofNat 64 s.me.mbx.length) s = .ok () s1 →
    exec (.mbcnt d) s = .next (after 4 s s1)) ∧
  (∀ (a b : Reg) (s s1 s2 : State) (m v : Word), s.me.migrant = false → readReg a s = .ok m s1 → readReg b s1 = .ok v s2 →
    (mbaValid s2.minimal m.toNat = false → exec (.send a b) s = .next (takeTrap ⟨0x02, m⟩ s)) ∧
    (mbaValid s2.minimal m.toNat = true → ¬Released s2 → exec (.send a b) s = .next (noteWait s s.cur .access)) ∧
    (mbaValid s2.minimal m.toNat = true → Released s2 → Up s2 (mbaCid m.toNat) →
      (creditsUsed s2 (mbaCid s2.cur) (mbaCid m.toNat) < 64 → ∃ t, exec (.send a b) s = .next t ∧
        t.net = s2.net ++ [⟨s2.cur, m.toNat, false, v, 0, s2.me.bowgrp, s2.mseq, false⟩] ∧ t.me.x = s2.me.x ∧ t.me.msgdst = s2.me.msgdst ∧
        t.mem = s2.mem ∧ t.me.pc = s.me.pc + BitVec.ofNat 64 (4 * s.grp.n + 4)) ∧
      (64 ≤ creditsUsed s2 (mbaCid s2.cur) (mbaCid m.toNat) → ∃ t, exec (.send a b) s = .next t ∧ WaitsAt s t .sendFull ∧ t.net = s.net)))

/-- The messages of one sender to one core arrive in the order in which it sent them. A word that arrives joins its mailbox while that holds fewer
than 16 and nothing waits before it, and otherwise waits in the ingress buffer; a hardware word goes out while fewer than 64 wait for its destination, and is otherwise
kept by the agent that posts it; a word for a neighbour's port or a `qin` joins the end of that queue (R30, R31, R195, R410). -/
def Obligations.WordsArrive : Prop :=
  (∀ (src dst : Nat) (s : State) (w : NWord), s.net.find? (fun w => w.src = src && w.dst = dst) = some w →
    (¬NoEarlier s src (mbaCid dst) w.n → exec (.mailboxWordArrival src dst) s = .next s) ∧
    (NoEarlier s src (mbaCid dst) w.n → Up s (mbaCid dst) → s.held = [] →
      ((s.ctx dst).mbx.length < 16 → (∀ v ∈ s.ingress, v.dst ≠ dst) → (s.ctx dst).rot < 2 ^ 20 →
        ∃ t, exec (.mailboxWordArrival src dst) s = .next t ∧ t.net = s.net.erase w ∧ t.ingress = s.ingress ∧
          (t.ctx dst).mbx = (s.ctx dst).mbx ++ [⟨w.src, w.hw, w.v, w.five⟩] ∧ (t.ctx dst).x = (s.ctx dst).x ∧ t.mem = s.mem) ∧
      (16 ≤ (s.ctx dst).mbx.length → ∃ t, exec (.mailboxWordArrival src dst) s = .next t ∧ t.net = s.net.erase w ∧
        t.ingress = s.ingress ++ [w] ∧ (t.ctx dst).mbx = (s.ctx dst).mbx ∧ t.mem = s.mem)) ∧
    (NoEarlier s src (mbaCid dst) w.n → ¬Up s (mbaCid dst) →
      ∃ t, exec (.mailboxWordArrival src dst) s = .next t ∧ t.ctxs = s.ctxs ∧ t.ingress = s.ingress ∧
        (w.hw = true → t.net = s.net.erase w) ∧
        (w.hw = false → CanPost { s with net := s.net.erase w } src → t.net = s.net.erase w ++ [hwWordTo s.mseq (mbaCid src) src
          (BitVec.ofNat 64 (0x0D * 2 ^ 56 + 2 ^ 32 + dst / 16 * 2 ^ 16 + dst % 16))]))) ∧
  (∀ (s : State) (cid dst : Nat) (v : Word),
    (CanPost s dst → postHw s cid dst v = { s with net := s.net ++ [hwWordTo s.mseq cid dst v], mseq := s.mseq + 1 }) ∧
    (¬CanPost s dst → postHw s cid dst v = { s with held := s.held ++ [⟨.core cid, hwWordTo 0 cid dst v, none⟩] })) ∧
  (∀ (cid : Nat) (dir : Dir) (s : State) (w : PWord), s.pnet.find? (fun w => w.cid = cid && w.dir = dir) = some w →
    ∃ t, exec (.portWordArrival cid dir) s = .next t ∧ t.pnet = s.pnet.erase w ∧ t.ctxs = s.ctxs ∧ t.mem = s.mem ∧
      ((t.core cid).portq dir).q = ((s.core cid).portq dir).q ++ (if (s.cluster (clKey cid)).down ∨ (s.core cid).down then [] else [(w.v, none)]) ∧
      ∀ d, d ≠ dir → (t.core cid).portq d = (s.core cid).portq d) ∧
  (∀ (src dst : Nat) (s : State) (w : QWord), s.qnet.find? (fun w => w.src = src && w.dst = dst) = some w →
    ∃ t, exec (.qinWordArrival src dst) s = .next t ∧ t.qnet = s.qnet.erase w ∧ (t.ctx dst).qin = (s.ctx dst).qin ++ [w.e] ∧
      (t.ctx dst).x = (s.ctx dst).x ∧ t.mem = s.mem)

/-- `bar.init` joins an instance in its phase, `bar.arrive` records an arrival, and the last one completes the phase with a word to every context
that arrived in it; `bar.leave` leaves; each raises reserved-field as R198–R201 state. Members of a pod's barrier on other devices arrive, and stand in a phase, at
ticks that Config leaves open (log 85). A member that repeats `bar.init` raises reserved-field with the number whatever the phase (log 111, DESIGN
CHOICE). -/
def Obligations.BarrierResults : Prop :=
  ∀ (a : Reg) (scope : BitVec 3) (s s1 : State) (id : Word), s.me.migrant = false → s.cur < 2 ^ 20 → readReg a s = .ok id s1 →
    let key := barKey s.cur scope.toNat id.toNat
    let i := s1.bar key
    let all := nins i.arrived s.cur
    let pod := scopeNorm scope.toNat s.cur = 7
    let word := fun (b : Bar) (m n : Nat) => hwWordTo n (m / 16) m (barrierWord (scopeNorm scope.toNat s.cur) id.toNat b.phase)
    let posts := fun (s : State) (b : Bar) => (List.range b.arrived.length).map fun j => word b (b.arrived.getD j 0) (s.mseq + j)
    let complete := fun (s : State) (b : Bar) => { s with net := s.net ++ posts s b, mseq := s.mseq + b.arrived.length }.setBar key
      ⟨b.phase + 1, b.members, [], s.tick⟩
    let elsewhere := fun (s : State) (b : Bar) => pod → b.began + Config.peersArrive id.toNat b.phase.toNat b.began ≤ s.tick
    let room := fun (s : State) (b : Bar) => s.held = [] ∧ b.arrived.Nodup ∧ ∀ m ∈ b.arrived, CanPost s m
    (63 < id.toNat → exec (.barArrive a scope) s = .next (takeTrap ⟨0x02, id⟩ s) ∧ exec (.barLeave a scope) s = .next (takeTrap ⟨0x02, id⟩ s) ∧
      ∀ (b : Reg) (s2 : State) (ph : Word), readReg b s1 = .ok ph s2 → exec (.barInit a b scope) s = .next (takeTrap ⟨0x02, id⟩ s)) ∧
    (id.toNat ≤ 63 →
      (∀ (b : Reg) (s2 : State) (ph : Word), readReg b s1 = .ok ph s2 →
        let j := s2.bar key
        let now := if j.members ≠ [] then some j.phase else if pod then Config.peerPhase id.toNat s2.tick else none
        (s.cur ∈ j.members → exec (.barInit a b scope) s = .next (takeTrap ⟨0x02, id⟩ s)) ∧
        (∀ p, s.cur ∉ j.members → now = some p → p ≠ ph.setWidth 32 →
          exec (.barInit a b scope) s = .next (takeTrap ⟨0x02, p.setWidth 64⟩ s)) ∧
        (s.cur ∉ j.members → now = none ∨ now = some (ph.setWidth 32) →
          exec (.barInit a b scope) s = .next (after 4 s (s2.setBar key
            ⟨ph.setWidth 32, nins j.members s.cur, j.arrived, if j.members = [] then s2.tick else j.began⟩)))) ∧
      (s.cur ∉ i.members ∨ s.cur ∈ i.arrived → exec (.barArrive a scope) s = .next (takeTrap ⟨0x02, id⟩ s)) ∧
      (s.cur ∈ i.members → s.cur ∉ i.arrived → Released s1 →
        let b : Bar := { i with arrived := all }
        let t := s1.setBar key b
        ((∃ m ∈ i.members, m ∉ all) ∨ ¬elsewhere t b → exec (.barArrive a scope) s = .next (after 4 s t)) ∧
        ((∀ m ∈ i.members, m ∈ all) → elsewhere t b → room t b → exec (.barArrive a scope) s = .next (after 4 s (complete t b)))) ∧
      (s.cur ∈ i.members → s.cur ∉ i.arrived → ¬Released s1 → exec (.barArrive a scope) s = .next (noteWait s s.cur .access)) ∧
      (s.cur ∉ i.members → exec (.barLeave a scope) s = .next (takeTrap ⟨0x02, id⟩ s)) ∧
      (s.cur ∈ i.members →
        let b : Bar := { i with members := i.members.erase s.cur }
        let t := s1.setBar key b
        (b.arrived = [] ∨ (∃ m ∈ b.members, m ∉ b.arrived) ∨ ¬elsewhere t b → exec (.barLeave a scope) s = .next (after 4 s t)) ∧
        (b.arrived ≠ [] → (∀ m ∈ b.members, m ∈ b.arrived) → elsewhere t b → room t b →
          exec (.barLeave a scope) s = .next (after 4 s (complete t b)))))

/-- A release or full fence completes when the context's accesses are performed, its updates to owners within the scope are applied and, from device
scope on, its stores are in every copy; an acquire fence when its loads have returned; each waits until then (R202). `rnd`, `rngseed`, `flget`,
`flclr` and `fltree` act on the generator and the flags (R46, R70, R71, R220–R222); a flag that an engine sets in the cycle of a `flclr` stays set
(R75). -/
def Obligations.FencesGeneratorFlags : Prop :=
  (∀ (scope : BitVec 3) (x : Bool) (s : State),
    let sc := (s.grp.scope.getD scope).toNat
    let done := s.me.out = [] ∧ (∀ u ∈ s.reds, u.src = s.cur → coreInScope sc (16 * s.here + s.hereCtx) u.owner = false) ∧
      (sc < 6 ∨ ∀ p ∈ s.props, p.src ≠ some s.cur)
    (done → exec (.fenceRel scope x) s = .next (after 4 s s) ∧ exec (.fenceFull scope x) s = .next (after 4 s s)) ∧
    (¬done → ∃ t, exec (.fenceRel scope x) s = .next t ∧ exec (.fenceFull scope x) s = .next t ∧ WaitsAt s t .fence) ∧
    ((∀ e ∈ s.me.out, ∃ v, e.kind = .store v) → exec (.fenceAcq scope x) s = .next (after 4 s s)) ∧
    ((∃ e ∈ s.me.out, ∀ v, e.kind ≠ .store v) → ∃ t, exec (.fenceAcq scope x) s = .next t ∧ WaitsAt s t .fence)) ∧
  (∀ (d : Reg) (s s1 : State), FieldsOk s [d] →
    (writeReg d (xorshift s.me.rngst * 0x2545F4914F6CDD1D) s = .ok () s1 →
      exec (.rnd d) s = .next (after 4 s (s1.modMe fun c => { c with rngst := xorshift s.me.rngst, gpos := 0 }))) ∧
    (writeReg d (s.me.flags.setWidth 64) s = .ok () s1 → exec (.flget d) s = .next (after 4 s s1)) ∧
    (s.cur % 16 = 0 → cidCci (s.cur / 16) = 0 →
      writeReg d (((s.ctxs.filter fun x => clKey (x.1 / 16) = clKey (s.cur / 16)).foldl (fun f x => f ||| x.2.flags) 0#6).setWidth 64) s
        = .ok () s1 → exec (.fltree d) s = .next (after 4 s s1))) ∧
  (∀ (a : Reg) (s s1 : State) (v : Word), FieldsOk s [a] → readReg a s = .ok v s1 →
    exec (.flclr a) s = .next (after 4 s (s1.modMe fun c => { c with flags := c.flags &&& ~~~(v.setWidth 6) ||| (setNow s1).1 })) ∧
    exec (.rngseed a) s = .next (after 4 s (s1.modMe fun c => { c with
      rngst := seedOf (v ^^^ BitVec.ofNat 64 (16 * (s.cur / 16)) ^^^ (c.ctxid.setWidth 4).setWidth 64), gpos := 0 })))

/-- `spawn` starts an unspawned context of the core with the state of R203; `exit` and `reap` end a context with its notice, and `reap` of an
unspawned one writes 0 and does nothing else; a user context other than context 0 raises privileged first (R193, R203–R206). That the target of
`spawn` is judged before its number is log 112, and that a partition's supervisor context starts with `sup` = 1 log 86 (DESIGN CHOICE). -/
def Obligations.ContextLifecycle : Prop :=
  (∀ (d a b : Reg) (s : State), s.me.migrant = false → ¬MayRule s →
    exec (.spawn d a b) s = .next (takeTrap ⟨0x06, s.grp.instr⟩ s) ∧ exec (.reap d a) s = .next (takeTrap ⟨0x06, s.grp.instr⟩ s)) ∧
  (∀ (d a b : Reg) (s s1 s2 s3 : State) (n t x0 : Word), s.me.migrant = false → MayRule s → readReg a s = .ok n s1 →
    readReg b s1 = .ok t s2 → readReg d s2 = .ok x0 s3 →
    (¬targetOk t → exec (.spawn d a b) s = .next (takeTrap (targetTrap t) s)) ∧
    (targetOk t → n = 0 ∨ Config.contexts (cidLayer (s.cur / 16)) ≤ n.toNat ∨ (s3.ctx (16 * (s.cur / 16) + n.toNat)).run ≠ .unspawned ∨
        (∃ x ∈ s3.ctxs, x.2.hosted = some (s.cur / 16, n.toNat)) →
      exec (.spawn d a b) s = .next (takeTrap ⟨0x02, n⟩ s)) ∧
    (targetOk t → n ≠ 0 → n.toNat < Config.contexts (cidLayer (s.cur / 16)) → (s3.ctx (16 * (s.cur / 16) + n.toNat)).run = .unspawned →
      (∀ x ∈ s3.ctxs, x.2.hosted ≠ some (s.cur / 16, n.toNat)) → 16 * (s.cur / 16) + n.toNat ≠ s.cur →
      ∃ u, exec (.spawn d a b) s = .next u ∧ u.me.pc = s.me.pc + BitVec.ofNat 64 (4 * s.grp.n + 4) ∧ u.me.x = s3.me.x ∧ u.mem = s3.mem ∧
        let c := u.ctx (16 * (s.cur / 16) + n.toNat)
        let w := s3.me
        c.run = .running ∧ c.pc = t ∧ (∀ i, i < 24 → c.reg i = if i = 0 then x0 else 0) ∧ c.k = 0 ∧ c.flags = 0 ∧ c.msgdst = 0 ∧ c.qlink = 0 ∧
        c.bowgrp = 0 ∧ c.tcause = 0 ∧ c.tinfo = 0 ∧ c.tpc = 0 ∧ c.mode = (w.mode.setWidth 9).setWidth 64 ∧ c.seg = w.seg ∧ c.sel = w.sel ∧
        c.jobseed = w.jobseed ∧ c.part = w.part ∧ (c.sup = (w.sup || decide (∃ p, ownerPart s3 (s.cur / 16) = some p ∧ 16 * (s.cur / 16) + n.toNat = supervisorOf s3 p))) ∧ c.sec = w.sec ∧
        c.qcls = w.qcls ∧ c.mbx = (s3.ctx (16 * (s.cur / 16) + n.toNat)).mbx ∧ c.qin = (s3.ctx (16 * (s.cur / 16) + n.toNat)).qin ∧
        c.rngst = seedOf (w.jobseed ^^^ BitVec.ofNat 64 (16 * (s.cur / 16) + n.toNat)) ∧ c.gpos = 0)) ∧
  (∀ s : State, (Released s → ∃ u, exec .exit s = .next u ∧ u.me.run = .unspawned ∧ u.me.gen = s.me.gen + 1 ∧ u.mem = s.mem ∧
      u.me.mbx = [] ∧ ((∀ x ∈ s.bars, s.cur ∉ x.2.members) → (∀ x ∈ s.leases, x.2.holder ≠ some s.cur) → Goes s u (s.cur / 16) (exitTo s s.cur) (exitWord s.cur 0))) ∧
    (¬Released s → ∃ u, exec .exit s = .next u ∧ WaitsAt s u .fence)) ∧
  (∀ (d a : Reg) (s s1 : State) (n : Word), s.me.migrant = false → MayRule s → readReg a s = .ok n s1 →
    let m := 16 * (s.cur / 16) + n.toNat
    (n = 0 ∨ (n.toNat < 2 ^ 20 ∧ Config.contexts (cidLayer (s.cur / 16)) ≤ n.toNat) ∨ (s.me.sup = false ∧ 2 ^ 20 ≤ n.toNat) →
      exec (.reap d a) s = .next (takeTrap ⟨0x02, n⟩ s)) ∧
    (n ≠ 0 → n.toNat < Config.contexts (cidLayer (s.cur / 16)) → (∀ x ∈ s1.ctxs, x.2.hosted ≠ some (s.cur / 16, n.toNat)) → m ≠ s.cur →
      (∀ s2, (s1.ctx m).run = .unspawned → writeReg d 0 s1 = .ok () s2 → exec (.reap d a) s = .next (after 4 s s2)) ∧
      (StopsNow (s1.ctx m) → d.toNat < 24 → s1.me.awaits d.toNat = false →
        ∃ u, exec (.reap d a) s = .next u ∧ (u.ctx m).run = .unspawned ∧ (u.ctx m).gen = (s1.ctx m).gen + 1 ∧ u.mem = s1.mem ∧
          (u.ctx m).mbx = [] ∧
          ((∀ x ∈ s1.bars, m ∉ x.2.members) → (∀ x ∈ s1.leases, x.2.holder ≠ some m) → Goes s1 u (s.cur / 16) (16 * (s.cur / 16)) (exitWord m 1)) ∧
          u.me.pc = s.me.pc + BitVec.ofNat 64 (4 * s.grp.n + 4) ∧
          ∀ i, i < 24 → u.me.reg i = if i = d.toNat then 1 else s1.me.reg i)))

/-- `save` writes the frame of Table 8.4 of the context itself at its next PC, of a stopped one at its own, and of a running one, which it stops,
at the group at which that stops; it waits for the context's own loads. `load` checks the frame in the order of R209, naming the offset of the field that fails,
and installs it. Another context is for context 0 and supervisors; a user's value with bit 20 names none (R193, R207–R209, R400, logs 19, 86, 87, 88, 113, 118). A block of a local
segment lies at base + o. -/
def Obligations.SaveAndLoad : Prop :=
  (∀ (d a b : Reg) (s s1 : State) (v : Word), s.me.migrant = false → readReg a s = .ok v s1 →
    (s.me.sup = false → v.getLsbD 20 = true → exec (.save d a b) s = .next (takeTrap ⟨0x02, v⟩ s) ∧
      exec (.load d a b) s = .next (takeTrap ⟨0x02, v⟩ s)) ∧
    (v.getLsbD 20 = false → v.toNat ≠ s.cur % 16 → ¬MayRule s → exec (.save d a b) s = .next (takeTrap ⟨0x06, s.grp.instr⟩ s) ∧
      exec (.load d a b) s = .next (takeTrap ⟨0x06, s.grp.instr⟩ s))) ∧
  (∀ (d a b : Reg) (s s1 s2 s3 : State) (v o : Word) (ps : List Spot), s.me.migrant = false → readReg a s = .ok v s1 →
    readReg b s1 = .ok o s2 → Settled s2 → v.toNat < Config.contexts (cidLayer (s.cur / 16)) →
    readyBlock d.toNat o.toInt ⟨512, 64, 64, [9], [0, 1, 2], 17, .write⟩ s2 = .ok ps s3 →
    let written := fun (t : State) (f : List Byte) =>
      after 4 s (writePieces ⟨some s.cur, s3.aseq, some s3.here, none⟩ 64 ps f { t with aseq := s3.aseq + 1 })
    (v.toNat = s.cur % 16 →
      ((∀ e ∈ s3.me.out, ∀ sg r, e.kind ≠ .load sg r) →
        ∃ f, FrameOf s3.me (s.me.pc + BitVec.ofNat 64 (4 * s.grp.n + 4)) f ∧ exec (.save d a b) s = .next (written s3 f)) ∧
      ((∃ e ∈ s3.me.out, ∃ sg r, e.kind = .load sg r) → exec (.save d a b) s = .next (noteWait s s.cur .access))) ∧
    (let m := 16 * (s.cur / 16) + v.toNat
     v.toNat ≠ s.cur % 16 → MayRule s →
      ((s3.ctx m).run = .unspawned → exec (.save d a b) s = .next (takeTrap ⟨0x02, v⟩ s)) ∧
      (∀ w, (s3.ctx m).run = .stopped w → (s3.ctx m).away = none → (s3.ctx m).out = [] →
        ∃ f, FrameOf (s3.ctx m) (if w = .trap then (s3.ctx m).tpc else (s3.ctx m).pc) f ∧
          exec (.save d a b) s = .next (written (s3.modCtx m fun c => { c with stopReq := none }) f)) ∧
      (StopsNow (s3.ctx m) → ∃ t f, FrameOf (t.ctx m) (s3.ctx m).pc f ∧ (t.ctx m).run = .stopped .save ∧ (t.ctx m).x = (s3.ctx m).x ∧
        (t.ctx m).pc = (s3.ctx m).pc ∧ (t.ctx m).wait = none ∧ t.mem = s3.mem ∧ exec (.save d a b) s = .next (written t f)))) ∧
  (∀ (d a b : Reg) (s s1 s2 s3 : State) (v o : Word) (f : List Byte), s.me.migrant = false → readReg a s = .ok v s1 →
    readReg b s1 = .ok o s2 → Settled s2 → v.toNat < Config.contexts (cidLayer (s.cur / 16)) → v.toNat = s.cur % 16 ∨ MayRule s →
    readBlock d.toNat o.toInt ⟨512, 64, 64, [8], [0, 1, 2], 18, .read⟩ s2 = .ok f s3 →
    let m := 16 * (s.cur / 16) + v.toNat
    let user := s.me.sup = false
    (m ≠ s.cur → (s3.ctx m).run = .running → exec (.load d a b) s = .next (takeTrap ⟨0x02, v⟩ s)) ∧
    ((m = s.cur ∨ (s3.ctx m).run ≠ .running) → (m = s.cur ∨ ∀ x ∈ s3.ctxs, x.2.hosted ≠ some (s.cur / 16, v.toNat)) →
      ((s3.ctx m).out ≠ [] → exec (.load d a b) s = .next (noteWait s s.cur .access)) ∧
      ((s3.ctx m).out = [] →
        let refused := user ∧ ((dwordOf f 208).getLsbD 24 = true ∨ (dwordOf f 208).getLsbD 25 ≠ s.me.sec)
        (refused → exec (.load d a b) s = .next (takeTrap ⟨0x06, s.grp.instr⟩ s)) ∧
        (∀ pre e post, ¬refused → frameOrder = pre ++ e :: post → FieldFails s3.minimal (s.cur / 16) f e →
          (∀ x ∈ pre, ¬FieldFails s3.minimal (s.cur / 16) f x) → exec (.load d a b) s = .next (takeTrap ⟨0x02, BitVec.ofNat 64 e⟩ s)) ∧
        (¬refused → (∀ e ∈ frameOrder, ¬FieldFails s3.minimal (s.cur / 16) f e) →
          ∃ u, exec (.load d a b) s = .next u ∧ Loaded (s3.ctx m) (u.ctx m) f ∧ u.mem = s3.mem ∧
            (user → (u.ctx m).ctxid = (s3.ctx m).ctxid ∧
              (u.ctx m).part = (if (s3.ctx m).run = .unspawned then ((ownerPart s3 (s.cur / 16)).map (BitVec.ofNat 4)).getD (s3.ctx m).part
                else (s3.ctx m).part)) ∧
            (¬user → (u.ctx m).ctxid = (dwordOf f 280).setWidth 8 ∧ (u.ctx m).part = (dwordOf f 280).extractLsb' 8 4) ∧
            (u.ctx m).sec = (match ownerPart s3 (s.cur / 16) with | some p => blockSecure s3 p (s.cur / 16) | none => (dwordOf f 208).getLsbD 25) ∧
            (u.ctx m).sup = ((dwordOf f 208).getLsbD 24 || decide (∃ p, ownerPart s3 (s.cur / 16) = some p ∧ m = supervisorOf s3 p)) ∧
            (m ≠ s.cur → u.me.pc = s.me.pc + BitVec.ofNat 64 (4 * s.grp.n + 4) ∧ u.me.x = s3.me.x))))) ∧
  (∀ (q : Fin 8) (o : Int) (a : BlockAccess) (s : State) (ps : List Spot), a.n = 512 → a.align = 64 → a.piece = 64 →
    let g := s.me.segd q
    segSpace g = 0 → (∀ r ∈ a.need, g.getLsbD r = true) → 0 ∈ a.spaces → 0 ≤ o → o + 512 ≤ segLimit g → o % 64 = 0 →
    blockPieces q o a s = .ok ps s →
    ps.map (·.at_) = (List.range 8).map fun i => [(Config.spadLoc s.here (segBase g + o.toNat) + 64 * i, 64, .plain)])
/-! ## Counters, edge reversal, the bow, the mute, engine controls -/

namespace Sys2Proof.Spec

/-- The core and the offset that a task reference names (R210). -/
def taskCid (v : Word) : Nat := (v.extractLsb' 22 16).toNat
/-- The offset. -/
def taskOff (v : Word) : Nat := (v.extractLsb' 0 22).toNat

/-- A task reference is valid (R210). -/
def TaskOk (s : State) (v : Word) : Prop :=
  v.extractLsb' 38 26 = 0 ∧ cidValid s.minimal (taskCid v) = true ∧ taskOff v % 8 = 0 ∧
    taskOff v < Config.spadSize (cidLayer (taskCid v))

/-- A counter operation can leave the context: its releases are done, the counter's core is not under reset and a credit is left
(R211, R411, R415). -/
def CounterSends (s : State) (v : Word) : Prop :=
  Released s ∧ Up s (taskCid v) ∧ creditsUsed s (mbaCid s.cur) (taskCid v) < 64

/-- The run entry that a counter posts to context 0 of its core (Table 8.2). -/
def runEntryWord (armed : Bool) (off : Nat) : Word := BitVec.ofNat 64 (4 * 2 ^ 56 + (if armed then 2 ^ 24 else 0) + off)

/-- The counter of a core at an offset belongs to an armed task (R288). -/
def ArmedAt (s : State) (cid off : Nat) (n : Nat) : Prop := (s.core cid).armed.find? (fun a => a.off = off) = some ⟨off, n⟩

/-- Where an entry of a task's edge list lies: tile number and rank, then direction and reference (Table 10.12). -/
def edgeLoc (cid off e : Nat) : Nat := Config.spadLoc cid (off + 48 + 16 * e)
/-- The tile number of an entry. -/
def edgeTile (s : State) (cid off e : Nat) : W32 := BitVec.ofNat 32 (valueAt s (edgeLoc cid off e) 4)
/-- The rank of an entry's neighbour. -/
def edgeRank (s : State) (cid off e : Nat) : Nat := valueAt s (edgeLoc cid off e + 4) 4
/-- The second word of an entry. -/
def edgeWord (s : State) (cid off e : Nat) : Word := wordAt s (edgeLoc cid off e + 8)

/-- The reference of an entry's neighbour (Table 10.12). -/
def edgeRef (s : State) (cid off e : Nat) : Word := (edgeWord s cid off e).setWidth 38 |>.setWidth 64

/-- The entry of an edge list names a counter (R210, R212). -/
def FlipsTo (s : State) (cid off e : Nat) : Prop :=
  let w := edgeRef s cid off e
  cidValid s.minimal (taskCid w) = true ∧ taskOff w % 8 = 0 ∧ taskOff w < Config.spadSize (cidLayer (taskCid w))
where
  /-- The core that the entry names. -/
  core (s : State) (cid off e : Nat) : Nat := taskCid (edgeRef s cid off e)

/-- The flips that leave a task, in the order of its list and of sending, for the entries whose reference is valid and whose counter's core is not
under reset (R212, R410, R415; that an entry with an invalid reference turns and sends nothing is log 107, DESIGN CHOICE). -/
def flipsOf (s : State) (cid off n : Nat) : List COp :=
  let l := (List.range n).filterMap fun e =>
    let w := edgeRef s cid off e
    if cidValid s.minimal (taskCid w) = true ∧ taskOff w % 8 = 0 ∧ taskOff w < Config.spadSize (cidLayer (taskCid w)) ∧
        (s.cluster (clKey (taskCid w))).down = false ∧ (s.core (taskCid w)).down = false then
      some (COp.mk s.cur (taskCid w) (taskOff w) (.flip (edgeTile s cid off e)) s.me.bowgrp 0)
    else none
  List.zipWith (fun j o => { o with n := j }) ((List.range l.length).map (s.mseq + ·)) l

/-- The network has credits for all the flips of a task to each core (R212, R411). -/
def FlipsFit (s : State) (cid off n : Nat) : Prop :=
  ∀ c, creditsUsed s (mbaCid s.cur) c + ((flipsOf s cid off n).filter fun o => o.cid = c).length ≤ 64 ∨
    ∀ o ∈ flipsOf s cid off n, o.cid ≠ c

/-- The words that a counter posts where it reaches zero (R211, Table 8.2). -/
def runPosts (s : State) (o : COp) : List NWord :=
  if (s.ctx (16 * o.cid)).run ≠ .unspawned then
    [hwWordTo s.mseq o.cid (16 * o.cid) (runEntryWord ((s.core o.cid).armed.find? (fun a => a.off = o.off)).isSome o.off)]
  else []

/-- The tile of an entry points towards the endpoint of higher rank, where the ranks differ (R289). -/
def EdgePoints (s : State) (cid off rank e : Nat) : Prop :=
  ¬((edgeWord s cid off e).getLsbD 63 = true ∧ rank < edgeRank s cid off e) ∧
  ¬((edgeWord s cid off e).getLsbD 63 = false ∧ edgeRank s cid off e < rank)

/-- The first poisoned word of an edge list, among its first `n` from an offset (R423). -/
def FirstPoison (s : State) (cid off n j : Nat) : Prop :=
  j < n ∧ Poisoned s (Config.spadLoc cid (off + 8 * j)) 8 ∧ ∀ i, i < j → ¬Poisoned s (Config.spadLoc cid (off + 8 * i)) 8
/-- No word of an edge list is poisoned, among its first `n` from an offset. -/
def CleanList (s : State) (cid off n : Nat) : Prop := ∀ i, i < n → ¬Poisoned s (Config.spadLoc cid (off + 8 * i)) 8

/-- Entry `e` is the first of a task's list that a flip of a tile meets: the tile's own, or one whose tile word is poisoned. -/
def MeetsTile (s : State) (cid off : Nat) (tile : W32) (e : Nat) : Prop :=
  (Poisoned s (edgeLoc cid off e) 8 ∨ edgeTile s cid off e = tile) ∧
    ∀ j, j < e → ¬Poisoned s (edgeLoc cid off j) 8 ∧ edgeTile s cid off j ≠ tile

/-- An entry of an edge list passes the checks of `erarm` (R289). -/
def EdgeOk (s : State) (cid off rank e : Nat) : Prop :=
  EdgePoints s cid off rank e ∧ edgeRank s cid off e ≠ rank ∧ (e ≠ 0 → edgeTile s cid off (e - 1) < edgeTile s cid off e)

/-- The bow verdict (Table 8.2). -/
def verdictWord (t : Token) (marked : Bool) : Word :=
  BitVec.ofNat 64 (9 * 2 ^ 56 + t.scope * 2 ^ 8 + t.grp * 2 ^ 4 + if marked then 1 else 0)

/-- The status register of an engine (R47). -/
def statusWord (e : EngSt) : Word := 0#16 ++ e.cause ++ 0#7 ++ BitVec.ofBool e.fault ++ e.last

/-- A queue without its first mute (R219). -/
def withoutMute (q : List QEntry) : List QEntry :=
  let word := fun e : QEntry => match e with | .word .. => true | .mute .. => false
  q.takeWhile word ++ (q.dropWhile word).drop 1

/-- The mute notice of a context goes out (Table 8.2). -/
def MuteNotice (s u : State) (m : Nat) : Prop :=
  CanPost s (16 * (m / 16)) →
    u.net = s.net ++ [hwWordTo s.mseq (m / 16) (16 * (m / 16)) (BitVec.ofNat 64 (8 * 2 ^ 56 + m / 16 * 2 ^ 16 + m % 16))]

/-- How many cores of its quad a request stands behind in the rotation after the last holder's (R258). -/
def turnsTo (l : Lease) (r : LReq) : Nat := (cidChild (mbaCid r.who) + 3 - l.lastCh) % 4
/-- The request that a free array grants next: the first core in rotation, its oldest request (R258). -/
def GrantedNext (l : Lease) (r : LReq) : Prop :=
  ∃ i : Nat, l.reqs[i]? = some r ∧ ∀ (j : Nat) x, l.reqs[j]? = some x → turnsTo l r < turnsTo l x ∨ (turnsTo l r = turnsTo l x ∧ i ≤ j)

/-- A lease passes to a request: a term begins, and the grant of a request that `mxlease` entered posts its word (R258, Table 8.2). -/
def LeasePasses (s t : State) (q : Nat) (l : Lease) (r : LReq) : Prop :=
  (t.lease q).holder = some r.who ∧ (t.lease q).reqs = l.reqs.erase r ∧ (t.lease q).terms = l.terms + 1 ∧
  (t.lease q).lastCh = cidChild (mbaCid r.who) ∧ (t.lease q).began = s.cycles 0 ∧ (t.lease q).used = 0 ∧
  (r.fresh = false → t.net = s.net) ∧
  (r.fresh = true → CanPost s r.who →
    t.net = s.net ++ [hwWordTo s.mseq (r.who / 16) r.who (BitVec.ofNat 64 (3 * 2 ^ 56 + (l.terms + 1).toNat))])

/-- A holder's term ends by count or by time: a new one begins at once where nothing else is pending; otherwise the holder's lease becomes the
youngest request, and the next in rotation is granted (R259). -/
def TermEnds (s t : State) (q m : Nat) : Prop :=
  let l := s.lease q
  (l.reqs = [] → (t.lease q).holder = some m ∧ (t.lease q).reqs = [] ∧ (t.lease q).terms = l.terms + 1 ∧
    (t.lease q).began = s.cycles 0 ∧ (t.lease q).used = 0 ∧ t.net = s.net) ∧
  (∀ r, l.reqs ≠ [] → GrantedNext { l with reqs := l.reqs ++ [⟨m, false⟩] } r → LeasePasses s t q { l with reqs := l.reqs ++ [⟨m, false⟩] } r)

/-- The engines by number, with the layers that have them (Table 9.1, R223). -/
def engineOf (layer : Nat) (v : Word) : Option Eng :=
  if v = 0 then some .vector else if v = 1 then some .copy else if v = 2 then (if layer = 0 then some .global else none)
  else if v = 3 then (if layer = 0 then some .matrix else none) else if v = 4 then some .pyramid
  else if v = 5 then (if layer = 0 then some .link else none) else none

end Sys2Proof.Spec

/-- `tkdec` and `tkset` send their operation to the counter's bank, where a decrement of a count above zero takes one off and one that meets zero sets the
underflow bit; a set writes the count; reaching zero posts one run entry to context 0 of the core; a decrement of a poisoned word is discarded and
counted, and so is a flip that meets poison in the list (R210, R211, R296, R423; the latter is log 44, DEDUCED). -/
def Obligations.CounterOperations : Prop :=
  (∀ (a b : Reg) (s s1 s2 : State) (v n : Word), s.me.migrant = false → readReg a s = .ok v s1 → readReg b s1 = .ok n s2 →
    (¬TaskOk s1 v → exec (.tkdec a) s = .next (takeTrap ⟨0x02, v⟩ s) ∧ exec (.tkset a b) s = .next (takeTrap ⟨0x02, v⟩ s)) ∧
    (TaskOk s1 v → 2 ^ 32 ≤ n.toNat → exec (.tkset a b) s = .next (takeTrap ⟨0x02, n⟩ s)) ∧
    (TaskOk s1 v → Released s1 → Up s1 (taskCid v) → 64 ≤ creditsUsed s1 (mbaCid s1.cur) (taskCid v) →
      exec (.tkdec a) s = .next (noteWait s s.cur .counterFull)) ∧
    (TaskOk s1 v → Released s1 → ¬Up s1 (taskCid v) → ∃ t, exec (.tkdec a) s = .next t ∧ t.cops = s1.cops ∧
      Goes s1 t (s.cur / 16) s.cur (BitVec.ofNat 64 (0x0D * 2 ^ 56 + 2 ^ 32 + taskCid v * 2 ^ 16))) ∧
    (TaskOk s1 v → CounterSends s1 v → ∃ t, exec (.tkdec a) s = .next t ∧
      t.cops = s1.cops ++ [⟨s1.cur, taskCid v, taskOff v, .dec, s1.me.bowgrp, s1.mseq⟩] ∧ t.me.x = s1.me.x ∧ t.mem = s1.mem ∧
      t.me.pc = s.me.pc + BitVec.ofNat 64 (4 * s.grp.n + 4)) ∧
    (TaskOk s1 v → n.toNat < 2 ^ 32 → CounterSends s2 v → ∃ t, exec (.tkset a b) s = .next t ∧
      t.cops = s2.cops ++ [⟨s2.cur, taskCid v, taskOff v, .set (n.setWidth 32), s2.me.bowgrp, s2.mseq⟩] ∧ t.me.x = s2.me.x ∧ t.mem = s2.mem ∧
      t.me.pc = s.me.pc + BitVec.ofNat 64 (4 * s.grp.n + 4))) ∧
  (∀ (i : Nat) (s : State) (o : COp), memWf s.mem = true → s.cops[i]? = some o → (∀ p ∈ s.cops.take i, p.src ≠ o.src) →
    let loc := Config.spadLoc o.cid o.off
    NoEarlier s o.src o.cid o.n → (∀ h ∈ s.held, h.by_ ≠ .counters o.cid) → isolated s (mbaCid o.src) = false →
    Up s o.cid → CanPost s (16 * o.cid) →
    sleeping s loc = none → (∀ tile n, o.kind = .flip tile → ArmedAt s o.cid o.off n → sleeping s (loc + 47 + 16 * n) = none) →
    ∃ t, exec (.counterOperationApply i) s = .next t ∧ t.cops = s.cops.eraseIdx i ∧
      (∀ x, (∀ tile, o.kind ≠ .flip tile) → x < loc ∨ loc + 8 ≤ x → memGet t.mem x = memGet s.mem x) ∧
      (∀ n, o.kind = .set n → wordAt t loc = n.setWidth 64 ∧
        t.net = s.net ++ (if n = 0 then runPosts s o else []) ∧
        (n = 0 → (s.ctx (16 * o.cid)).run = .unspawned →
          runEntryWord ((s.core o.cid).armed.find? (fun a => a.off = o.off)).isSome o.off ∈ (t.core o.cid).runents)) ∧
      (o.kind = .dec → ¬Poisoned s loc 8 → (wordAt s loc).setWidth 32 = (0#32) →
        wordAt t loc = 0x8000000000000000 ∧ t.net = s.net) ∧
      (o.kind = .dec → ¬Poisoned s loc 8 → (wordAt s loc).setWidth 32 ≠ (0#32) →
        wordAt t loc = ((wordAt s loc &&& 0x8000000000000000) ||| ((wordAt s loc).setWidth 32 - 1#32 : W32).setWidth 64) ∧
        t.net = s.net ++ (if (wordAt s loc).setWidth 32 = (1#32) then runPosts s o else [])) ∧
      (∀ tile n e, o.kind = .flip tile → ArmedAt s o.cid o.off n → n ≤ 16 → e < n → MeetsTile s o.cid o.off tile e → ¬Poisoned s loc 8 →
        ((wordAt s loc).setWidth 32 ≠ (0#32) → (wordAt t loc).setWidth 32 = (wordAt s loc).setWidth 32 - 1#32) ∧
        (¬Poisoned s (edgeLoc o.cid o.off e) 16 → edgeWord t o.cid o.off e = edgeWord s o.cid o.off e ||| 0x8000000000000000) ∧
        (Poisoned s (edgeLoc o.cid o.off e) 16 → (∀ x, x < loc ∨ loc + 8 ≤ x → memGet t.mem x = memGet s.mem x) ∧
          (t.cluster (clKey o.cid)).disc = min ((s.cluster (clKey o.cid)).disc + 1) (2 ^ 16 - 1))) ∧
      (o.kind = .dec → Poisoned s loc 8 → t.mem = s.mem ∧ t.net = s.net ∧
        (t.cluster (clKey o.cid)).disc = min ((s.cluster (clKey o.cid)).disc + 1) (2 ^ 16 - 1))) ∧
  (∀ (i : Nat) (s : State) (o : COp), s.cops[i]? = some o → ¬NoEarlier s o.src o.cid o.n → exec (.counterOperationApply i) s = .next s) ∧
  (∀ (i : Nat) (s : State) (o : COp), s.cops[i]? = some o → (∀ p ∈ s.cops.take i, p.src ≠ o.src) → o.src < 2 ^ 20 →
    NoEarlier s o.src o.cid o.n → (∀ h ∈ s.held, h.by_ ≠ .counters o.cid) → isolated s (mbaCid o.src) = false →
    ¬Up s o.cid → ∃ t, exec (.counterOperationApply i) s = .next t ∧ t.cops = s.cops.eraseIdx i ∧ t.mem = s.mem ∧
      Goes s t (o.src / 16) o.src (BitVec.ofNat 64 (0x0D * 2 ^ 56 + 2 ^ 32 + o.cid * 2 ^ 16)))

/-- `erarm` arms a task whose edge list passes the checks of R289, made in their order, sets its counter to the number of tiles that do not point
towards it and posts the run entry where that is none; `erflip` and `erpass` turn every tile away, send the flips in the order of the list and set the counter to
the number of tiles; `erori` tells one tile's direction (R212–R214, R288, R289, R411, R415). Poison in a list raises the poison trap with the offset
of its first poisoned word (R423; log 44, DEDUCED); an entry whose reference is invalid turns and sends nothing (log 107, DESIGN CHOICE). -/
def Obligations.EdgeReversal : Prop :=
  (∀ (d a b : Reg) (s s1 s2 : State) (v e : Word) (n : Nat), s.me.migrant = false → readReg a s = .ok v s1 → readReg b s1 = .ok e s2 →
    TaskOk s1 v → taskCid v = s.cur / 16 → ArmedAt s2 (s.cur / 16) (taskOff v) n →
    (n ≤ e.toNat → exec (.erori d a b) s = .next (takeTrap ⟨0x02, e⟩ s)) ∧
    (e.toNat < n → let loc := edgeLoc (s.cur / 16) (taskOff v) e.toNat
      sleeping s2 loc = none → sleeping s2 (loc + 15) = none →
      (Poisoned s2 (loc + 8) 8 → exec (.erori d a b) s = .next (takeTrap ⟨0x13, BitVec.ofNat 64 (taskOff v + 56 + 16 * e.toNat)⟩ s)) ∧
      (¬Poisoned s2 (loc + 8) 8 → ∃ t, exec (.erori d a b) s = .next t ∧ t.me.k = putBit s2.me.k d.toNat ((edgeWord s2 (s.cur / 16) (taskOff v) e.toNat).getLsbD 63) ∧
        t.me.x = s2.me.x ∧ t.me.flags = s2.me.flags ∧ t.mem = s2.mem ∧ t.me.pc = s.me.pc + BitVec.ofNat 64 (4 * s.grp.n + 4)))) ∧
  (∀ (a : Reg) (s s1 : State) (v : Word) (n : Nat) (pass : Bool), memWf s.mem = true → s.me.migrant = false → readReg a s = .ok v s1 → TaskOk s1 v →
    let cid := s.cur / 16
    let off := taskOff v
    let loc := Config.spadLoc cid off
    let i := if pass then Instr.erpass a else Instr.erflip a
    taskCid v = cid → sleeping s1 loc = none →
    ((s1.core cid).armed.find? (fun x => x.off = off) = none → exec i s = .next (takeTrap ⟨0x02, v⟩ s)) ∧
    (ArmedAt s1 cid off n → n ≤ 16 → ¬Poisoned s1 loc 8 → sleeping s1 (loc + 47 + 16 * n) = none →
      ((wordAt s1 loc).setWidth 32 ≠ (0#32) →
        exec i s = .next (takeTrap ⟨0x12, ((wordAt s1 loc).setWidth 32 : W32).setWidth 64⟩ s)) ∧
      ((wordAt s1 loc).setWidth 32 = (0#32) → Released s1 →
        let idle := pass = false → ∀ e ∈ (s1.core cid).eng.toList, (∀ c ∈ e.queue, c.issuer ≠ s.cur) ∧ ∀ x ∈ e.enter, x.who ≠ s.cur
        (¬idle ∨ (CleanList s1 cid (off + 48) (2 * n) ∧ ¬FlipsFit s1 cid off n) → exec i s = .next (noteWait s s.cur .fence)) ∧
        (∀ j, idle → FirstPoison s1 cid (off + 48) (2 * n) j → exec i s = .next (takeTrap ⟨0x13, BitVec.ofNat 64 (off + 48 + 8 * j)⟩ s)) ∧
        (idle → CleanList s1 cid (off + 48) (2 * n) → FlipsFit s1 cid off n → ∃ t, exec i s = .next t ∧
          t.cops.map (fun o => { o with n := 0 }) = (s1.cops ++ flipsOf s1 cid off n).map (fun o => { o with n := 0 }) ∧
          ((∀ e, e < n → FlipsTo s1 cid off e → Up s1 (FlipsTo.core s1 cid off e)) →
            t.cops = s1.cops ++ flipsOf s1 cid off n ∧ t.net = s1.net) ∧
          wordAt t loc = ((wordAt s1 loc &&& 0x8000000000000000) ||| BitVec.ofNat 64 n) ∧
          (∀ e, e < n → edgeWord t cid off e = edgeWord s1 cid off e &&& 0x7FFFFFFFFFFFFFFF ∧ edgeTile t cid off e = edgeTile s1 cid off e ∧
            edgeRank t cid off e = edgeRank s1 cid off e) ∧
          (∀ x, x < loc ∨ (loc + 8 ≤ x ∧ x < loc + 48) ∨ loc + 48 + 16 * n ≤ x → memGet t.mem x = memGet s1.mem x) ∧
          (∀ e, e < n → FlipsTo s1 cid off e → ¬Up s1 (FlipsTo.core s1 cid off e) →
            let note := fun n => hwWordTo n cid s.cur (BitVec.ofNat 64 (0x0D * 2 ^ 56 + 2 ^ 32 + FlipsTo.core s1 cid off e * 2 ^ 16))
            (∃ n, note n ∈ t.net) ∨ ∃ h ∈ t.held, h.w = note 0) ∧
          t.me.x = s1.me.x ∧ t.me.pc = s.me.pc + BitVec.ofNat 64 (4 * s.grp.n + 4))))) ∧
  (∀ (f : T64) (s s1 : State) (v : Word), memWf s.mem = true → s.me.migrant = false → readReg f.a s = .ok v s1 → TaskOk s1 v → Released s1 →
    let cid := s.cur / 16
    let off := taskOff v
    let loc := Config.spadLoc cid off
    let head := wordAt s1 (loc + 40)
    let n := (head.setWidth 5).toNat
    let rank := (head.extractLsb' 32 32).toNat
    let end_ := off + 48 + 16 * n
    taskCid v = cid → off + 48 ≤ Config.spadSize (cidLayer cid) → end_ ≤ Config.spadSize (cidLayer cid) →
    sleeping s1 loc = none → sleeping s1 (loc + 40) = none → sleeping s1 (Config.spadLoc cid (end_ - 1)) = none →
    let words := if 16 < n then 1 else 1 + 2 * n
    (∀ j, FirstPoison s1 cid (off + 40) words j → exec (.erarm f) s = .next (takeTrap ⟨0x13, BitVec.ofNat 64 (off + 40 + 8 * j)⟩ s)) ∧
    (CleanList s1 cid (off + 40) words →
    (n = 0 → ∃ t, exec (.erarm f) s = .next t ∧ (∀ x ∈ (t.core cid).armed, x.off ≠ off) ∧ t.mem = s1.mem ∧ t.me.x = s1.me.x ∧ t.net = s1.net) ∧
    (16 < n → exec (.erarm f) s = .next (takeTrap ⟨0x12, 0x400⟩ s)) ∧
    (n ≠ 0 → n ≤ 16 → (∃ x ∈ (s1.core cid).armed, x.off = off) → exec (.erarm f) s = .next (takeTrap ⟨0x12, 0x500⟩ s)) ∧
    (n ≠ 0 → n ≤ 16 → (∀ x ∈ (s1.core cid).armed, x.off ≠ off) → 64 ≤ (s1.core cid).armed.length →
      exec (.erarm f) s = .next (takeTrap ⟨0x12, 0x600⟩ s)) ∧
    (∀ e, n ≤ 16 → (∀ x ∈ (s1.core cid).armed, x.off ≠ off) → (s1.core cid).armed.length < 64 → e < n → (∀ j, j < e → EdgeOk s1 cid off rank j) →
      (¬EdgePoints s1 cid off rank e → exec (.erarm f) s = .next (takeTrap ⟨0x12, BitVec.ofNat 64 (0x100 + e)⟩ s)) ∧
      (EdgePoints s1 cid off rank e → edgeRank s1 cid off e = rank → exec (.erarm f) s = .next (takeTrap ⟨0x12, BitVec.ofNat 64 (0x200 + e)⟩ s)) ∧
      (EdgePoints s1 cid off rank e → edgeRank s1 cid off e ≠ rank → e ≠ 0 → edgeTile s1 cid off e ≤ edgeTile s1 cid off (e - 1) →
        exec (.erarm f) s = .next (takeTrap ⟨0x12, BitVec.ofNat 64 (0x300 + e)⟩ s))) ∧
    (n ≠ 0 → n ≤ 16 → (∀ x ∈ (s1.core cid).armed, x.off ≠ off) → (s1.core cid).armed.length < 64 → (∀ e, e < n → EdgeOk s1 cid off rank e) →
      CanPost s1 (16 * cid) → ∃ t, exec (.erarm f) s = .next t ∧ (t.core cid).armed = (s1.core cid).armed ++ [⟨off, n⟩] ∧
        wordAt t loc = BitVec.ofNat 64 ((List.range n).filter fun e => !(edgeWord s1 cid off e).getLsbD 63).length ∧
        t.net = s1.net ++ (if (∀ e, e < n → (edgeWord s1 cid off e).getLsbD 63 = true) ∧ (s1.ctx (16 * cid)).run ≠ .unspawned then
          [hwWordTo s1.mseq cid (16 * cid) (runEntryWord true off)] else []) ∧
        (∀ x, x < loc ∨ loc + 8 ≤ x → memGet t.mem x = memGet s1.mem x) ∧ t.me.x = s1.me.x ∧
        t.me.pc = s.me.pc + BitVec.ofNat 64 (4 * s.grp.n + 8))))

/-- `bowstart` launches a token round its scope's cores where none of its group circulates; each core passes it on, marked where the group was
active, once its messages are delivered, and the last gives the verdict. `mutesend` stops its target and places the mute in its stream, where there is
room at once, or later (R216–R218). A read of `qin` that meets the mute does not complete: the context takes the mute out behind the words that lie
ahead of it, forwards it to its own `qout`, waiting for room, and stops (R219). -/
def Obligations.BowAndMute : Prop :=
  (∀ (d a b : Reg) (s s1 s2 s3 : State) (c g : Word), s.me.migrant = false → readReg a s = .ok c s1 → readReg b s1 = .ok g s2 →
    (c.toNat < 1 ∨ 6 < c.toNat → exec (.bowstart d a b) s = .next (takeTrap ⟨0x02, c⟩ s)) ∧
    (1 ≤ c.toNat → c.toNat ≤ 6 → 15 < g.toNat → exec (.bowstart d a b) s = .next (takeTrap ⟨0x02, g⟩ s)) ∧
    (1 ≤ c.toNat → c.toNat ≤ 6 → g.toNat ≤ 15 →
      let sc := scopeNorm c.toNat s.cur
      let live := fun t : Token => t.grp = g.toNat ∧ scopeNorm t.scope t.start = sc ∧ t.inst = scopeInst sc s.cur
      let cores := scopeCores s.minimal sc s.cur
      ((∃ t ∈ s2.tokens, live t) → writeReg d 1 s2 = .ok () s3 → exec (.bowstart d a b) s = .next (after 4 s s3)) ∧
      ((∀ t ∈ s2.tokens, ¬live t) → writeReg d 0 s2 = .ok () s3 → exec (.bowstart d a b) s = .next (after 4 s
        { s3 with tokens := s3.tokens ++ [⟨g.toNat, c.toNat, scopeInst sc s.cur, s.cur,
          cores.filter (fun x => s.cur / 16 < x) ++ cores.filter (fun x => x < s.cur / 16) ++ [s.cur / 16], false⟩] })))) ∧
  (∀ (i : Nat) (s : State) (t : Token) (cid : Nat) (rest : List Nat), s.tokens[i]? = some t → t.ring = cid :: rest →
    (undelivered s cid t.grp = true → exec (.bowTokenPass i) s = .next s) ∧
    (undelivered s cid t.grp = false → (∀ h ∈ s.held, h.by_ ≠ .bow cid) →
      let marked := t.marked || (s.core cid).bow.getLsbD t.grp || activeOn s cid t.grp
      ∃ u, exec (.bowTokenPass i) s = .next u ∧ u.mem = s.mem ∧ u.ctxs = s.ctxs ∧
        (rest ≠ [] → u.tokens = s.tokens.set i { t with ring := rest, marked := marked } ∧ u.net = s.net) ∧
        (rest = [] → u.tokens = s.tokens.eraseIdx i ∧ (CanPost s t.start →
          u.net = s.net ++ [hwWordTo s.mseq (t.start / 16) t.start (verdictWord t marked)])))) ∧
  (∀ (a : Reg) (s s1 : State) (v : Word), s.me.migrant = false →
    (¬MayRule s → exec (.mutesend a) s = .next (takeTrap ⟨0x06, s.grp.instr⟩ s)) ∧
    (MayRule s → readReg a s = .ok v s1 →
      (mbaValid s1.minimal v.toNat = false → exec (.mutesend a) s = .next (takeTrap ⟨0x02, v⟩ s)) ∧
      (mbaValid s1.minimal v.toNat = true →
        (s.me.sup = false → clKey (v.toNat / 16) ≠ clKey (s.cur / 16) → exec (.mutesend a) s = .next (takeTrap ⟨0x06, s.grp.instr⟩ s)) ∧
        (s.me.sup = true ∨ clKey (v.toNat / 16) = clKey (s.cur / 16) →
          let m := v.toNat
          ((s1.ctx m).run = .unspawned → exec (.mutesend a) s = .next (takeTrap ⟨0x02, v⟩ s)) ∧
          (m ≠ s.cur → (s1.ctx m).run ≠ .running → (s1.ctx m).run ≠ .unspawned → (s1.ctx m).out = [] → (s1.ctx m).away = none →
            (s1.ctx m).muteOut ≠ [] →
            ∃ u, exec (.mutesend a) s = .next u ∧ WaitsAt s u .muteRoom ∧ (u.ctx m).muteOut = (s1.ctx m).muteOut ++ [s.cur] ∧
              (u.ctx m).run = (s1.ctx m).run ∧ u.qnet = s1.qnet) ∧
          (m ≠ s.cur → StopsNow (s1.ctx m) → (s1.ctx m).muteOut = [] → qlinkOk s1 m = true → 16 ≤ qoutUsed s1 m ((s1.ctx m).qlink.extractLsb' 0 20).toNat →
            ∃ u, exec (.mutesend a) s = .next u ∧ WaitsAt s u .muteRoom ∧ (u.ctx m).run = .stopped .mute ∧ (u.ctx m).pc = (s1.ctx m).pc ∧
              (u.ctx m).muteOut = [s.cur] ∧ u.qnet = s1.qnet ∧ u.me.qin = s.me.qin ∧ u.me.mbx = s.me.mbx) ∧
          (m ≠ s.cur → StopsNow (s1.ctx m) → (s1.ctx m).muteOut = [] →
            let to_ := ((s1.ctx m).qlink.extractLsb' 0 20).toNat
            qlinkOk s1 m = true → qoutUsed s1 m to_ < 16 →
            ∃ u, exec (.mutesend a) s = .next u ∧ (u.ctx m).run = .stopped .mute ∧ (u.ctx m).pc = (s1.ctx m).pc ∧ (u.ctx m).x = (s1.ctx m).x ∧
              u.qnet = s1.qnet ++ [⟨m, to_, .mute m, 0⟩] ∧ u.mem = s1.mem ∧
              MuteNotice s1 u m ∧
              u.me.pc = s.me.pc + BitVec.ofNat 64 (4 * s.grp.n + 4)))))) ∧
  (∀ (m w : Nat) (l : List Nat) (s : State), (s.ctx m).muteOut = w :: l → (s.ctx m).run ≠ .running → qlinkOk s m = true → w ≠ m →
    let to_ := ((s.ctx m).qlink.extractLsb' 0 20).toNat
    (16 ≤ qoutUsed s m to_ → exec (.mutePlacement m) s = .next s) ∧
    (qoutUsed s m to_ < 16 → ∃ u, exec (.mutePlacement m) s = .next u ∧ u.qnet = s.qnet ++ [⟨m, to_, .mute m, 0⟩] ∧
      (u.ctx m).muteOut = l ∧ (u.ctx w).pc = (s.ctx w).pc + 4 ∧ (u.ctx w).wait = none ∧ u.mem = s.mem ∧
      (∀ src v q, (s.ctx w).pops = [(28, v)] → (s.ctx w).qin = .word src v :: q → (u.ctx w).qin = q ∧ (u.ctx w).pops = []))) ∧
  (∀ (i : Instr) (d a b : Reg) (f : Word → Word → Word) (s s1 : State) (x : Word) (k : Nat) (q : List QEntry), bin i = some (d, a, b, f) →
    s.me.migrant = false → satField s = 0 → readReg a s = .ok x s1 → b.toNat = 28 → s1.me.qin = .mute k :: q → s.me.run = .running →
    NoneEntering s s.cur →
    let c := s.cur
    let to_ := (s.me.qlink.setWidth 20).toNat
    (s.me.out ≠ [] → exec i s = .next (noteWait s c .access)) ∧
    (s.me.out = [] → qlinkOk s c = true → 16 ≤ qoutUsed s c to_ →
      ∃ u, exec i s = .next u ∧ WaitsAt s u .fullWrite ∧ u.me.qin = s.me.qin ∧ c ∈ u.me.muteOut ∧ u.qnet = s.qnet) ∧
    (s.me.out = [] → (qlinkOk s c = false ∨ qoutUsed s c to_ < 16) →
      ∃ u, exec i s = .next u ∧ u.me.run = .stopped .mute ∧ u.me.pc = s.me.pc ∧ u.me.x = s.me.x ∧ u.me.qin = withoutMute s.me.qin ∧
        u.me.mbx = s.me.mbx ∧ u.mem = s.mem ∧ u.qnet = s.qnet ++ (if qlinkOk s c then [⟨c, to_, .mute c, 0⟩] else []) ∧ MuteNotice s u c)) ∧
  (∀ (m : Nat) (s : State), (s.ctx m).muteOut = [m] → (s.ctx m).run = .running → (s.ctx m).wait ≠ none → (s.ctx m).out = [] → qlinkOk s m = true →
    NoneEntering s m →
    let to_ := ((s.ctx m).qlink.setWidth 20).toNat
    (16 ≤ qoutUsed s m to_ → exec (.mutePlacement m) s = .next s) ∧
    (qoutUsed s m to_ < 16 → ∃ u, exec (.mutePlacement m) s = .next u ∧ (u.ctx m).run = .stopped .mute ∧ (u.ctx m).pc = (s.ctx m).pc ∧
      (u.ctx m).qin = withoutMute (s.ctx m).qin ∧ u.qnet = s.qnet ++ [⟨m, to_, .mute m, 0⟩] ∧ u.mem = s.mem ∧ MuteNotice s u m))

/-- `engst` reads an engine's status register and `engcancel` cancels the context's commands that have not begun; `mxlease` requests the quad's lease and
`mxrel` ends it, and a term ends after 4,096 cycles or with its 64th command; where another
context's request is pending the lease then passes to the next in rotation, the former holder's becoming the youngest request; `tlbinv` and `tlbinvall` drop the issuing partition's translations in supervisor mode only
(R47, R223–R227, R258, R259). -/
def Obligations.EngineControls : Prop :=
  (∀ (d a : Reg) (s s1 s2 : State) (v : Word), s.me.migrant = false → readReg a s = .ok v s1 →
    (5 < v.toNat → exec (.engst d a) s = .next (takeTrap ⟨0x02, v⟩ s) ∧ exec (.engcancel d a) s = .next (takeTrap ⟨0x02, v⟩ s)) ∧
    (v.toNat ≤ 5 → engineOf s.layer v = none → writeReg d 0 s1 = .ok () s2 →
      exec (.engst d a) s = .next (after 4 s s2) ∧ exec (.engcancel d a) s = .next (after 4 s s2)) ∧
    (∀ e, engineOf s.layer v = some e →
      (writeReg d (statusWord ((s1.core s.here).eng.getD v.toNat EngSt.init)) s1 = .ok () s2 →
        exec (.engst d a) s = .next (after 4 s s2)) ∧
      (d.toNat < 24 → s1.me.awaits d.toNat = false →
        let q := ((s1.core s.here).eng.getD v.toNat EngSt.init).queue
        let mine := fun c : Cmd => c.issuer = s.cur ∧ c.prog.began = false ∧ c.cancelled = false
        let puts := if e = .link then (s1.core s.here).armput.filter (fun p => p.issuer = s.cur) else []
        ∃ t, exec (.engcancel d a) s = .next t ∧
          ((t.core s.here).eng.getD v.toNat EngSt.init).queue = q.map (fun c => if mine c then { c with cancelled := true } else c) ∧
          (t.core s.here).armput = (s1.core s.here).armput.filter (fun p => ¬(p ∈ puts)) ∧ t.mem = s1.mem ∧
          t.me.reg d.toNat = BitVec.ofNat 64 ((q.filter fun c => mine c).length + puts.length) ∧
          t.me.pc = s.me.pc + BitVec.ofNat 64 (4 * s.grp.n + 4)))) ∧
  (∀ (d : Reg) (s s1 : State), s.me.migrant = false →
    let q := quadBase (s.cur / 16)
    (s.layer ≠ 0 → exec (.mxlease d) s = .next (takeTrap ⟨0x02, BitVec.ofNat 64 s.layer⟩ s)) ∧
    (s.layer = 0 → (s.lease q).holder = some s.cur ∨ (∃ r ∈ (s.lease q).reqs, r.who = s.cur) → writeReg d 1 s = .ok () s1 →
      exec (.mxlease d) s = .next (after 4 s s1)) ∧
    (s.layer = 0 → (s.lease q).holder = none → (s.lease q).reqs = [] → writeReg d 0 s = .ok () s1 → CanPost s1 s.cur →
      (∀ h ∈ s1.held, h.by_ ≠ .lease q) →
      ∃ t, exec (.mxlease d) s = .next t ∧ (t.lease q).holder = some s.cur ∧ (t.lease q).terms = (s.lease q).terms + 1 ∧ (t.lease q).reqs = [] ∧
        t.net = s1.net ++ [hwWordTo s1.mseq (s.cur / 16) s.cur (BitVec.ofNat 64 (3 * 2 ^ 56 + ((s.lease q).terms + 1).toNat))] ∧ t.mem = s.mem) ∧
    (s.layer = 0 → (∃ m, (s.lease q).holder = some m ∧ m ≠ s.cur) → (∀ r ∈ (s.lease q).reqs, r.who ≠ s.cur) → writeReg d 0 s = .ok () s1 →
      ∃ t, exec (.mxlease d) s = .next t ∧ (t.lease q).holder = (s.lease q).holder ∧
        (t.lease q).reqs = (s.lease q).reqs ++ [⟨s.cur, true⟩] ∧ t.net = s1.net ∧ t.mem = s.mem)) ∧
  (∀ s : State, s.me.migrant = false → let q := quadBase (s.cur / 16)
    cidLayer (s.cur / 16) = 0 → ∃ t, exec .mxrel s = .next t ∧
      (∀ r ∈ (t.lease q).reqs, r.who ≠ s.cur) ∧ t.mem = s.mem ∧ t.me.x = s.me.x ∧
      (let l := { s.lease q with reqs := (s.lease q).reqs.filter fun r => r.who ≠ s.cur };
        (s.lease q).holder = some s.cur → (l.reqs = [] → (t.lease q).holder = none) ∧
          ∀ r, l.lastCh < 4 → (∀ h ∈ s.held, h.by_ ≠ .lease q) → GrantedNext l r → LeasePasses s t q l r) ∧
      t.me.pc = s.me.pc + BitVec.ofNat 64 (4 * s.grp.n + 4)) ∧
  (∀ (q m : Nat) (s : State), (s.lease q).holder = some m →
    (s.cycles 0 < (s.lease q).began + 4096 → (s.lease q).used < 64 → exec (.leaseTermTimeout q) s = .next s) ∧
    ((s.lease q).began + 4096 ≤ s.cycles 0 ∨ 64 ≤ (s.lease q).used → (s.lease q).lastCh < 4 → (∀ h ∈ s.held, h.by_ ≠ .lease q) →
      ∃ t, exec (.leaseTermTimeout q) s = .next t ∧ t.mem = s.mem ∧ t.ctxs = s.ctxs ∧ TermEnds s t q m) ∧
    ((s.lease q).lastCh < 4 → (∀ h ∈ s.held, h.by_ ≠ .lease q) →
      let t := countCommand s q
      ((s.lease q).used + 1 < 64 → t.lease q = { s.lease q with used := (s.lease q).used + 1 } ∧ t.net = s.net) ∧
      (64 ≤ (s.lease q).used + 1 → TermEnds s t q m))) ∧
  (∀ (a b : Reg) (s s1 s2 : State) (v c : Word), FieldsOk s [a, b] →
    (s.me.sup = false → exec (.tlbinv a b) s = .next (takeTrap ⟨0x06, s.grp.instr⟩ s) ∧
      exec (.tlbinvall b) s = .next (takeTrap ⟨0x06, s.grp.instr⟩ s)) ∧
    (s.me.sup = true → s.walks = [] → s.fills = [] →
      (readReg a s = .ok v s1 → readReg b s1 = .ok c s2 → c.toNat ≤ 7 → ∃ t, exec (.tlbinv a b) s = .next t ∧ t.mem = s2.mem ∧
        (∀ x, (t.core x).utlb = (s2.core x).utlb.filter fun e =>
          ¬(tlbCore s.here c.toNat x = true ∧ e.part = s.me.part ∧ e.dva / 2 ^ e.bits = v.toNat / 2 ^ e.bits)) ∧
        (∀ x, (t.cluster x).ptlb = (s2.cluster x).ptlb.filter fun e =>
          ¬(tlbCluster s.here c.toNat x = true ∧ e.part = s.me.part ∧ e.dva / 2 ^ e.bits = v.toNat / 2 ^ e.bits)) ∧
        t.me.pc = s.me.pc + BitVec.ofNat 64 (4 * s.grp.n + 4)) ∧
      (readReg b s = .ok c s1 → c.toNat ≤ 7 → ∃ t, exec (.tlbinvall b) s = .next t ∧ t.mem = s1.mem ∧
        (∀ x, (t.core x).utlb = (s1.core x).utlb.filter fun e => ¬(tlbCore s.here c.toNat x = true ∧ e.part = s.me.part)) ∧
        (∀ x, (t.cluster x).ptlb = (s1.cluster x).ptlb.filter fun e => ¬(tlbCluster s.here c.toNat x = true ∧ e.part = s.me.part)) ∧
        t.me.pc = s.me.pc + BitVec.ofNat 64 (4 * s.grp.n + 4))))

/-! ## Engine commands: issue -/

namespace Sys2Proof.Spec

/-- A register field that a command may hold: no register of 24–30 (R232). -/
abbrev EngReg (r : Reg) : Prop := r.toNat < 24 ∨ r.toNat = 31

/-- `tinfo` of a fault of a tile operand: origin 10, operand 0 d, 1 a, 2 b, and the register (Table 4.10). -/
def tileTinfo (k : Nat) (r : Reg) : Word := BitVec.ofNat 64 (2 ^ 63 + 32 * k + r.toNat)

/-- The tile that a descriptor names to the issuing core (R102). -/
def own (s : State) (v : Word) : Tile := tileAt s (tileCid (s.cur / 16) v) v

/-- A tile descriptor is valid: reserved bits zero, `core` not 24–30, the region within its bank, and for a destination the line within the
stride (R104). -/
abbrev TileOk (v : Word) (x : Tile) (dest : Bool) : Prop :=
  v.setWidth 8 = (0 : BitVec 8) ∧ v.extractLsb' 10 2 = 0 ∧ EngReg (v.extractLsb' 12 5) ∧
    x.off + (x.lines - 1) * x.stride + x.lineB ≤ Config.bankSize (cidLayer x.cid) ∧ (dest = true → x.lineB ≤ x.stride)

/-- Two tiles have one shape. -/
abbrev Same (d a : Tile) : Prop := d.rows = a.rows ∧ d.cols = a.cols
/-- A tile has a shape. -/
abbrev Shape (d : Tile) (r c : Nat) : Prop := d.rows = r ∧ d.cols = c

/-- The working format of a bank (Table 9.7). -/
def working (f : BitVec 7) : Nat :=
  let c := (f.setWidth 4).toNat
  let plain := f.extractLsb' 4 2 = 0
  if c = 4 then 4 else if c = 0 ∨ (plain ∧ (c = 2 ∨ c = 10)) then 0 else if c = 1 ∨ (plain ∧ (c = 3 ∨ c = 11)) then 1 else 5

/-- The raw format. -/
abbrev raw (t : Tile) : Prop := (t.fmt.setWidth 4) = (15 : BitVec 4)

/-- A built-in operator exists on an engine in a working format (Table 9.6). -/
def builtin (e : Eng) (h w : Nat) : Bool :=
  240 ≤ h ∧ h ≤ 251 ∧ (e = .vector ∨ e = .copy ∨ ((e = .matrix ∨ e = .pyramid) ∧ w = 5)) ∧
    (246 ≤ h → h ≤ 248 → (e = .vector ∨ e = .copy) ∧ (w = 0 ∨ w = 1)) ∧ ((h = 244 ∨ h = 245) → e = .vector)

/-- A routine has the mask bit of an engine (Table 9.3). -/
def runsOn (r : Routine) : Eng → Bool
  | .vector => r.ve | .copy => r.ce | .matrix => r.ma | .pyramid => r.pp | _ => false

/-- The operator that a handle names on an engine, in a working format; none where the handle is invalid (R242). -/
def operOf (s : State) (e : Eng) (h : BitVec 8) (w : Nat) : Option Oper :=
  if 240 ≤ h.toNat then (if builtin e h.toNat w then some (.builtin h (BitVec.ofNat 4 w)) else none)
  else match tget none (s.part s.me.part.toNat).routines h.toNat with
    | some r => if runsOn r e then some (.routine h r) else none
    | none => none

/-- Handles 244 and 245, which answer an index too. -/
abbrev indexed (h : BitVec 8) : Prop := h = 244 ∨ h = 245

/-- The format code of a bank register. -/
abbrev code (f : BitVec 7) : Nat := (f.setWidth 4).toNat
/-- The formats whose elements a scale mode scales (R62). -/
def scales (c : Nat) : Bool := c = 2 || c = 3 || (5 ≤ c && c ≤ 12)
/-- A bank's elements are scaled: by the bank's scale or by the row's (R62, R63). -/
def scaledBank (f : BitVec 7) : Bool := scales (code f) && (f.extractLsb' 4 2 = 1 || f.extractLsb' 4 2 = 2)

/-- Reading an element of a bank into an operand format is a rounding: the format that it is decoded in can round into that one; a scaled element is
an `f32` value (R62, R69, R245). -/
def inRolls (f : BitVec 7) (op : Nat) : Bool :=
  op ≠ 15 && code f ≠ 15 && (canRoundInto (if scaledBank f then 5 else code f)).elem op
/-- Writing a value of a format into a bank is a rounding: always where the bank is scaled, and otherwise where the pair can round (R64, R69, R245). -/
def outRolls (f : BitVec 7) (op : Nat) : Bool := op ≠ 15 && code f ≠ 15 && (scaledBank f || (canRoundInto op).elem (code f))
/-- The format from which `tcopy` without a routine converts: none, written 15, where it copies bytes (R250). -/
def copyForm (d a : Tile) : Nat :=
  let mode := fun f : BitVec 7 => if scales (code f) then (f.extractLsb' 4 2).toNat else 0
  if code d.fmt = code a.fmt ∧ mode d.fmt = mode a.fmt then 15 else if scaledBank a.fmt then 5 else code a.fmt

/-- The random values of one application: a routine's body words that round, or one for the addition, the product and the fused multiply-add
in a floating-point format (R239, Table 9.11). -/
def drawsOf : Oper → Nat
  | .routine _ r => (r.body.filter fun w =>
      let m := (w.extractLsb' 24 7).toNat
      let f := (w.extractLsb' 1 8).toNat
      m = 0x15 || (m = 0x14 && f % 128 ≤ 2) || (m = 0x17 && (canRoundInto (f / 16)).elem (f % 16))).length
  | .builtin h w => if (h = 240 ∨ h = 241 ∨ h = 249) ∧ 4 ≤ w.toNat ∧ w.toNat ≤ 9 then 1 else 0

/-- Half bytes of an element (R103). -/
def halfBytes (c : Nat) : Nat := if c = 12 then 1 else if c = 0 ∨ c = 1 ∨ c = 4 then 16 else if c = 2 ∨ c = 3 ∨ c = 5 then 8 else if c = 6 ∨ c = 7 then 4 else 2

/-- One where a conversion can round. -/
def one (p : Bool) : Nat := if p then 1 else 0

/-- Applications to one sequence (Table 9.11): `acc` is 1 with an accumulator. -/
def applied (scan : Bool) (cls n acc : Nat) : Nat :=
  let c := (n + 31) / 32
  let k := (n + c - 1) / c
  if scan = true ∧ cls ≠ 0 then (n - k) + (if 2 ≤ k then k - 2 + acc else 0) + (n - c) + acc * c else n - 1 + acc

/-- Random values that an output takes: converted from the format it has (R245, Table 9.11). An output that no application made is
converted from the operand format. -/
def outDraws (scan na : Bool) (o : Oper) (d : Tile) (n : Nat) : Nat :=
  let out := one (outRolls d.fmt o.outF)
  let inn := one (outRolls d.fmt o.inF)
  let index := if o.handle = 244 ∨ o.handle = 245 then one (outRolls d.fmt 1) else 0
  let bare := o.cls = 0 ∧ na = true
  if scan then (if bare then inn + (n - 1) * out else n * out) else (if bare ∧ n = 1 then inn else out) + index

/-- What a command is to be: its engine, its record, whether its checks pass, and how many random values it reserves. -/
structure Want where
  eng   : Eng
  cmd   : Cmd
  ok    : Prop
  draws : Nat

/-- A command without an operand; the checks of the handle are in `ok`. -/
def cmdOf (t : T64) (op : Op) : Cmd := blankCmd op t

/-- A named bit of f. -/
def fb (t : T64) (i : Nat) : Bool := t.f.getLsbD i
/-- The constant's register. -/
def cReg (t : T64) : Reg := t.f.setWidth 5

/-- `fold` and `scan` (R247, R248, Table 9.10). -/
def wantFold (scan : Bool) (s : State) (t : T64) (av bv dv cv : Word) : Option Want :=
  let d := own s dv
  let a := own s av
  let ax := fb t 5
  let na := fb t 6
  (operOf s .vector t.h (working a.fmt)).map fun o =>
    let n := if ax then a.rows * a.cols else a.cols
    { eng := .vector,
      cmd := { cmdOf t (if scan then .scan na else .fold ax na) with
        oper := some o, dt := some d, at_ := some a, bv := bv, cv := cv, av := if ax then 1 else 0 },
      ok := EngReg (cReg t) ∧ TileOk dv d true ∧ TileOk av a false ∧ ¬raw d ∧ ¬raw a ∧ (indexed t.h → na = true ∧ scan = false) ∧
        (if scan then Same d a else Shape d (if ax then 1 else a.rows) (if t.h = 244 ∨ t.h = 245 then 2 else 1)),
      draws := (if ax then 1 else a.rows) * (applied scan o.cls n (one (!na)) * drawsOf o + n * one (inRolls a.fmt o.inF) + outDraws scan na o d n) }

/-- `zip` and `outer` (R249, Table 9.10). -/
def wantPair (outer : Bool) (s : State) (t : T64) (av bv dv cv : Word) : Option Want :=
  let d := own s dv
  let a := own s av
  let b := own s bv
  let bc := fb t 5
  (operOf s .vector t.h (working a.fmt)).map fun o =>
    { eng := .vector,
      cmd := { cmdOf t (if outer then .outer else .zip bc) with oper := some o, dt := some d, at_ := some a, bt := some b, cv := cv },
      ok := EngReg (cReg t) ∧ TileOk dv d true ∧ TileOk av a false ∧ TileOk bv b false ∧ ¬raw d ∧ ¬raw a ∧ ¬raw b ∧ ¬indexed t.h ∧
        (if outer then a.rows = 1 ∧ b.rows = 1 ∧ Shape d a.cols b.cols else Same d a ∧ Shape b (if bc then 1 else a.rows) a.cols) ∧
        (240 ≤ t.h.toNat → working a.fmt = working b.fmt),
      draws := d.rows * d.cols * (drawsOf o + one (inRolls a.fmt o.inF) + one (inRolls b.fmt o.inF) + one (outRolls d.fmt o.outF)) }

/-- `tcopy` (R250). Without `tr`, equal format codes and scale modes copy bits, and other elements are converted. -/
def wantTcopy (s : State) (t : T64) (av dv cv : Word) : Option Want :=
  let d := own s dv
  let a := own s av
  if fb t 5 then
    (operOf s .copy t.h (working a.fmt)).map fun o =>
      { eng := .copy, cmd := { cmdOf t .tcopy with oper := some o, dt := some d, at_ := some a, cv := cv },
        ok := EngReg (cReg t) ∧ TileOk dv d true ∧ TileOk av a false ∧ ¬raw d ∧ ¬raw a ∧ ¬indexed t.h ∧ Same d a,
        draws := d.rows * d.cols * (drawsOf o + one (inRolls a.fmt o.inF) + one (outRolls d.fmt o.outF)) }
  else
    some { eng := .copy, cmd := { cmdOf t .tcopy with dt := some d, at_ := some a, cv := cv },
           ok := EngReg (cReg t) ∧ TileOk dv d true ∧ TileOk av a false ∧ (raw d ↔ raw a) ∧ Same d a ∧ t.h = 0,
           draws := d.rows * d.cols * one (outRolls d.fmt (copyForm d a)) }

/-- `tfill` (R251). -/
def wantTfill (s : State) (t : T64) (av dv cv : Word) : Option Want :=
  let d := own s dv
  if fb t 5 then
    (operOf s .vector t.h (working d.fmt)).map fun o =>
      { eng := .vector, cmd := { cmdOf t .tfill with oper := some o, dt := some d, av := av, cv := cv, sw := false },
        ok := EngReg (cReg t) ∧ TileOk dv d true ∧ ¬raw d ∧ ¬indexed t.h,
        draws := d.rows * d.cols * (drawsOf o + one (outRolls d.fmt o.outF)) }
  else
    some { eng := .vector, cmd := { cmdOf t .tfill with dt := some d, av := av, cv := cv, sw := false },
           ok := EngReg (cReg t) ∧ TileOk dv d true ∧ t.h = 0 ∧ (d.fmt.setWidth 4 = (12 : BitVec 4) → av.setWidth 4 ≠ (8 : BitVec 4)), draws := 0 }

/-- `txp` (R252). -/
def wantTxp (s : State) (t : T64) (av dv : Word) : Want :=
  let d := own s dv
  let a := own s av
  { eng := .vector, cmd := { cmdOf t .txp with dt := some d, at_ := some a },
    ok := TileOk dv d true ∧ TileOk av a false ∧ Shape d a.cols a.rows ∧ d.fmt.setWidth 6 = (a.fmt.setWidth 6 : BitVec 6) ∧
      a.fmt.setWidth 4 ≠ (12 : BitVec 4) ∧ a.fmt.extractLsb' 4 2 ≠ 2 ∧ t.h = 0,
    draws := 0 }

/-- `gld` and `gst` (R253): offset `o`, pitch `p`, the tile's descriptor `v`. -/
def wantGlobal (store : Bool) (s : State) (t : T64) (o p v : Word) : Want :=
  let x := own s v
  let g := s.me.segd (t.f.toNat % 8)
  { eng := .global,
    cmd := { cmdOf t (if store then .gst g o.toInt.toNat p.toNat else .gld g o.toInt.toNat p.toNat) with
      dt := if store then none else some x, at_ := if store then some x else none, sw := store && t.spec.getLsbD 20 },
    ok := TileOk v x (!store) ∧ t.h = 0 ∧ segSpace g = 2 ∧ g.getLsbD (if store then 9 else 8) = true ∧ o.toInt % 16 = 0 ∧ p.toNat % 16 = 0 ∧
      p.toNat < 2 ^ 40 ∧ 0 ≤ o.toInt ∧ o.toInt + ((x.lines - 1) * p.toNat + x.lineB : Nat) ≤ segLimit g,
    draws := 0 }

/-- `mxldst`, `mxswap`, `mxstrm` and `mxdrain` (R263–R267). -/
def wantMxldst (s : State) (t : T64) (av bv : Word) : Want :=
  let a := own s av
  let b := own s bv
  let sp := t.spec.getLsbD 0
  let f := (a.fmt.setWidth 4).toNat
  { eng := .matrix, cmd := { cmdOf t (.mxldst sp) with at_ := some a, bt := some b },
    ok := TileOk av a false ∧ TileOk bv b false ∧ (f = 6 ∨ f = 7 ∨ f = 8 ∨ f = 9 ∨ f = 10 ∨ f = 12) ∧ a.rows ≤ 64 ∧ a.cols ≤ 64 ∧
      t.h = 0 ∧ (sp = true → a.rows % 2 = 0) ∧ raw b ∧ b.rows = 1 ∧ 32 + (if sp then 16 * a.cols else 0) ≤ b.cols,
    draws := 0 }
/-- `mxswap` (R265). -/
def wantMxswap (t : T64) : Want := { eng := .matrix, cmd := cmdOf t .mxswap, ok := t.h = 0, draws := 0 }
/-- `mxstrm` (R266): K is the active plane's issued row count, twice that under sparsity. -/
def wantMxstrm (s : State) (t : T64) (av : Word) : Want :=
  let a := own s av
  let f := (a.fmt.setWidth 4).toNat
  let arow := (t.spec.setWidth 6).toNat
  let (k, sp) := (s.core (s.cur / 16)).mx.issuedA
  { eng := .matrix, cmd := { cmdOf t (.mxstrm arow (t.spec.getLsbD 6)) with at_ := some a },
    ok := TileOk av a false ∧ t.h = 0 ∧ (f = 2 ∨ f = 3 ∨ (5 ≤ f ∧ f ≤ 12)) ∧ a.rows ≤ 64 ∧ arow + a.rows ≤ 64 ∧ k ≠ 0 ∧
      a.cols = if sp then 2 * k else k,
    draws := 0 }
/-- `mxdrain` (R267); `bv` is read only under `bs`. -/
def wantMxdrain (s : State) (t : T64) (bv dv cv : Word) : Option Want :=
  let ep := fb t 5
  let bs := fb t 6
  let d := own s dv
  let b := own s bv
  let arow := (t.spec.setWidth 6).toNat
  let acol := (t.spec.extractLsb' 6 8).toNat
  let ok := EngReg (cReg t) ∧ TileOk dv d true ∧ arow + d.rows ≤ 64 ∧ acol + d.cols ≤ 256 ∧ ¬raw d ∧
    (bs = true → ep = true ∧ TileOk bv b false ∧ Shape b 1 d.cols ∧ ¬raw b)
  let cmd := { cmdOf t (.mxdrain arow acol bs (t.spec.getLsbD 14)) with dt := some d, bt := if bs then some b else none, cv := cv }
  if ep then
    (operOf s .matrix t.h 5).map fun o =>
      { eng := .matrix, cmd := { cmd with oper := some o }, ok := ok ∧ o.inF = 5,
        draws := d.rows * d.cols * (drawsOf o + (if bs then one (inRolls b.fmt o.inF) else 0) + one (outRolls d.fmt o.outF)) }
  else some { eng := .matrix, cmd := cmd, ok := ok ∧ t.h = 0, draws := d.rows * d.cols * one (outRolls d.fmt 5) }

/-- `wld` (R271). -/
def wantWld (s : State) (t : T64) (av : Word) : Want :=
  let a := own s av
  { eng := .pyramid, cmd := { cmdOf t (.wld (t.spec.setWidth 3).toNat) with at_ := some a },
    ok := TileOk av a false ∧ t.h = 0 ∧ (Shape a 1 9 ∨ Shape a 3 3) ∧ a.fmt.setWidth 6 = (5 : BitVec 6), draws := 0 }

/-- The layer to which the context's fretboard maps a level (R269). -/
def layerOf (s : State) (l : BitVec 4) : Nat := (s.me.fretboard.extractLsb' (2 * l.toNat) 2).toNat

/-- The coarse interior that a fine one has (R273). -/
abbrev Coarse (shx : Bool) (fine coarse : Tile) : Prop :=
  coarse.cols = (fine.cols + 1) / 2 ∧ coarse.rows = if shx then fine.rows else (fine.rows + 1) / 2
/-- A mask that shape X admits (R273). -/
abbrev MaskOk (shx : Bool) (m : BitVec 4) : Prop := shx = true → m &&& 0b1100 = 0 ∨ m &&& 0b0011 = 0

/-- The levels, the tiles, the shape and the mask of `rstr` pass (R272, R273); a crossing stays within the issuer's partition (R5, R383, log 91). -/
def rstrOk (s : State) (t : T64) (av dv : Word) : Prop :=
  let shx := t.spec.getLsbD 3
  let mask : BitVec 4 := t.spec.extractLsb' 4 4
  let ls : BitVec 4 := t.spec.extractLsb' 8 4
  let ld : BitVec 4 := t.spec.extractLsb' 12 4
  let cross := decide (layerOf s ld = s.layer + 1)
  let cid := s.cur / 16
  let a := tileAt s cid av
  let d := tileAt s (if cross then parentOf cid else cid) dv
  layerOf s ls = s.layer ∧ (cross = true ∨ layerOf s ld = s.layer) ∧ (cross = true → coreIn s s.me.part.toNat (parentOf cid) = true) ∧
    TileOk dv d true ∧ TileOk av a false ∧ a.pad = true ∧ dv.extractLsb' 12 5 = 31 ∧ av.extractLsb' 12 5 = 31 ∧ Coarse shx a d ∧
    (cross = true → mask.getLsbD (cidChild cid) = true ∧ MaskOk shx mask)

/-- `rstr` (R272, R273). -/
def wantRstr (s : State) (t : T64) (av dv : Word) : Option Want :=
  let wset := (t.spec.setWidth 3).toNat
  let shx := t.spec.getLsbD 3
  let mask : BitVec 4 := t.spec.extractLsb' 4 4
  let ld : BitVec 4 := t.spec.extractLsb' 12 4
  let cross := decide (layerOf s ld = s.layer + 1)
  let cid := s.cur / 16
  let a := tileAt s cid av
  let d := tileAt s (if cross then parentOf cid else cid) dv
  let ok := rstrOk s t av dv
  let cmd := { cmdOf t (.rstr wset shx mask ld cross) with dt := some d, at_ := some a }
  if fb t 5 then
    (operOf s .pyramid t.h 5).map fun o =>
      { eng := .pyramid, cmd := { cmd with oper := some o }, ok := ok ∧ o.inF = 5 ∧ o.outF = 5 ∧ ¬raw d ∧ ¬raw a, draws := 0 }
  else some { eng := .pyramid, cmd := cmd, ok := ok ∧ t.h = 0, draws := 0 }

/-- `prol` (R280). -/
def wantProl (s : State) (t : T64) (av dv : Word) : Want :=
  let wset := (t.spec.setWidth 3).toNat
  let shx := t.spec.getLsbD 3
  let mask : BitVec 4 := t.spec.extractLsb' 4 4
  let ls : BitVec 4 := t.spec.extractLsb' 8 4
  let ld : BitVec 4 := t.spec.extractLsb' 12 4
  let cross := decide (layerOf s ld + 1 = s.layer)
  let cid := s.cur / 16
  let a := tileAt s cid av
  let ds := if cross then ((List.range 4).filter fun k => mask.getLsbD k).map fun k => tileAt s (childOf cid k) dv else [tileAt s cid dv]
  { eng := .pyramid, cmd := { cmdOf t (.prol wset shx mask (t.spec.getLsbD 16) cross) with at_ := some a, dts := ds },
    ok := layerOf s ls = s.layer ∧ (cross = true ∨ layerOf s ld = s.layer) ∧ t.h = 0 ∧
      (cross = true → ∀ k, mask.getLsbD k = true → coreIn s s.me.part.toNat (childOf cid k) = true) ∧ (∀ d ∈ ds, TileOk dv d true ∧ Coarse shx d a) ∧
      TileOk av a false ∧ a.pad = true ∧ dv.extractLsb' 12 5 = 31 ∧ av.extractLsb' 12 5 = 31 ∧ (cross = true → mask ≠ 0 ∧ MaskOk shx mask),
    draws := 0 }

/-- `put` (R282). -/
def wantPut (s : State) (t : T64) (av bv dv : Word) : Want :=
  let a := own s av
  let none_ := bv = BitVec.allOnes 64
  { eng := .link,
    cmd := { cmdOf t (.put dv (if none_ then none else some bv.toNat) t.h (t.spec.setWidth 16) (t.spec.getLsbD 16)) with at_ := some a },
    ok := dv.extractLsb' 60 4 = 0 ∧ TileOk av a false ∧ (none_ ∨ (bv.toNat < 2 ^ 48 ∧ bv.toNat % 16 = 0)) ∧
      (t.h = 0 ∨ t.h = 240 ∨ t.h = 242 ∨ t.h = 243) ∧ (raw a → t.h = 0),
    draws := 0 }

/-- The registers that a command reads, in order (R232): a, b and d, then the constant. -/
def cmdReads : Instr → List Reg
  | .fold t | .scan t => t.a :: (if fb t 6 then [] else [t.b]) ++ [t.d, cReg t]
  | .zip t | .outer t => [t.a, t.b, t.d, cReg t]
  | .tcopy t | .tfill t => [t.a, t.d, cReg t]
  | .txp t | .rstr t | .prol t => [t.a, t.d]
  | .gld t | .gst t | .put t => [t.a, t.b, t.d]
  | .mxldst t => [t.a, t.b]
  | .mxstrm t | .wld t => [t.a]
  | .mxdrain t => (if fb t 6 then [t.b] else []) ++ [t.d, cReg t]
  | _ => []

/-- The command of an instruction from the words that its registers held, in that order; none where its handle is invalid. -/
def want (i : Instr) (s : State) (ws : List Word) : Option Want :=
  match i, ws with
  | .fold t, [a, b, d, c] => wantFold false s t a b d c
  | .fold t, [a, d, c] => wantFold false s t a 0 d c
  | .scan t, [a, b, d, c] => wantFold true s t a b d c
  | .scan t, [a, d, c] => wantFold true s t a 0 d c
  | .zip t, [a, b, d, c] => wantPair false s t a b d c
  | .outer t, [a, b, d, c] => wantPair true s t a b d c
  | .tcopy t, [a, d, c] => wantTcopy s t a d c
  | .tfill t, [a, d, c] => wantTfill s t a d c
  | .txp t, [a, d] => some (wantTxp s t a d)
  | .gld t, [o, p, v] => some (wantGlobal false s t o p v)
  | .gst t, [v, p, o] => some (wantGlobal true s t o p v)
  | .mxldst t, [a, b] => some (wantMxldst s t a b)
  | .mxswap t, [] => some (wantMxswap t)
  | .mxstrm t, [a] => some (wantMxstrm s t a)
  | .mxdrain t, [b, d, c] => wantMxdrain s t b d c
  | .mxdrain t, [d, c] => wantMxdrain s t 0 d c
  | .wld t, [a] => some (wantWld s t a)
  | .rstr t, [a, d] => wantRstr s t a d
  | .prol t, [a, d] => some (wantProl s t a d)
  | .put t, [a, b, d] => some (wantPut s t a b d)
  | _, _ => none

/-- The two words of an engine command. -/
def cmdWords : Instr → Option T64
  | .fold t | .scan t | .zip t | .outer t | .tcopy t | .tfill t | .txp t | .gld t | .gst t | .mxldst t | .mxswap t | .mxstrm t
  | .mxdrain t | .wld t | .rstr t | .prol t | .put t => some t
  | _ => none

/-- A matrix command (R260). -/
def isMatrix : Instr → Bool | .mxldst _ | .mxswap _ | .mxstrm _ | .mxdrain _ => true | _ => false

/-- The constant's register of a command that has one is one that it may hold (R244). -/
def constOk : Instr → Prop
  | .fold t | .scan t | .zip t | .outer t | .tcopy t | .tfill t | .mxdrain t => EngReg (cReg t)
  | _ => True

/-- Queue depths (Table 9.1). -/
def depth : Eng → Nat | .vector | .copy | .link => 8 | .global => 16 | _ => 4

/-- Engine numbers (Table 9.1). -/
def numberOf : Eng → Nat | .vector => 0 | .copy => 1 | .global => 2 | .matrix => 3 | .pyramid => 4 | .link => 5

/-- A state after `n` values are drawn (R72). -/
def drawnN : Nat → State → State | 0, s => s | n + 1, s => drawnN n (drawn s).2

/-- The command as it enters its queue (R67, R233): number, rounding mode, overflow policy, trap enables, flag suppression, traffic class (R414), and
the generator as the values reserved for it begin (R73). -/
def entering (s : State) (c : Cmd) (seq : W32) : Cmd :=
  { c with
    issuer := s.cur, gen := s.me.gen, seq := seq.toNat, rnd := BitVec.ofNat 3 (roundMode s), sat := s.grp.sat, pfx := s.grp.arith,
    te := s.me.mode.extractLsb' 3 5, nf := s.grp.arith && s.grp.nf, words := s.grp.instr, cls := s.me.qcls, prog := Prog.init s.me.rngst s.me.gpos }

/-- The state after a command's reservation of random values (R73). -/
def reserved (s : State) (w : Want) : State := if roundMode s = 6 then drawnN w.draws s else s

/-- The state after a command has entered its queue. -/
def queued (s : State) (w : Want) : State :=
  (reserved s w).modEng (s.cur / 16) w.eng fun q =>
    { q with queue := q.queue ++ [entering s w.cmd q.next], next := q.next + 1 }

/-- The lease after a matrix command of the holder entered a queue under it (R259, R260). -/
def counted (s : State) (i : Instr) (l : Lease) : Lease :=
  let grid := match i with | .mxstrm _ | .mxdrain _ => l.grid + 1 | _ => l.grid
  if l.used + 1 < 64 then { l with grid := grid, used := l.used + 1 }
  else { l with grid := grid, used := 0, terms := l.terms + 1, began := s.cycles 0, lastCh := cidChild (s.cur / 16) }

/-- The issued shapes of a core's planes after a command (R265). -/
def shapes (i : Instr) (c : Cmd) (x : Mx) : Mx :=
  match i, c.at_ with
  | .mxldst t, some a => { x with issuedS := (a.rows, t.spec.getLsbD 0) }
  | .mxswap _, _ => { x with issuedA := x.issuedS, issuedS := x.issuedA }
  | _, _ => x

/-- The tile operands of a command in the order they are judged (R232): operand number, register, descriptor, whether a destination. -/
def tileOperands (i : Instr) (ws : List Word) : List (Nat × Reg × Word × Bool) :=
  match i, ws with
  | .fold t, [a, _, d, _] | .scan t, [a, _, d, _] | .fold t, [a, d, _] | .scan t, [a, d, _] | .tcopy t, [a, d, _] | .txp t, [a, d] =>
    [(0, t.d, d, true), (1, t.a, a, false)]
  | .zip t, [a, b, d, _] | .outer t, [a, b, d, _] => [(0, t.d, d, true), (1, t.a, a, false), (2, t.b, b, false)]
  | .tfill t, [_, d, _] => [(0, t.d, d, true)]
  | .gld t, [_, _, v] => [(0, t.d, v, true)]
  | .gst t, [v, _, _] => [(1, t.a, v, false)]
  | .mxldst t, [a, b] => [(1, t.a, a, false), (2, t.b, b, false)]
  | .mxstrm t, [a] | .wld t, [a] => [(1, t.a, a, false)]
  | .mxdrain t, [b, d, _] => [(0, t.d, d, true), (2, t.b, b, false)]
  | .mxdrain t, [d, _] => [(0, t.d, d, true)]
  | .put t, [a, _, _] => [(1, t.a, a, false)]
  | _, _ => []

end Sys2Proof.Spec

/-- An engine command that passes its checks enters its engine's queue: with the queue's next number, the operands as read, the operator and bank
formats bound now, the rounding environment and the random values reserved; a full queue makes it wait, in order of arrival, with what it has reserved; a former holder's waiting
matrix command bars no other. A matrix command counts the holder's term and leaves the issued shapes of R265; register fields that a bit of the command leaves out may name anything (log 98), and the index
of handles 244 and 245 is converted from `n64` (log 114, DESIGN CHOICE; R67, R73, R231–R233, R242–R253, R259–R267, R271–R273, R280, R282). -/
def Obligations.EngineCommandIssue : Prop :=
  (∀ (i : Instr) (t : T64) (s s1 : State) (ws : List Word) (w : Want), cmdWords i = some t → s.me.migrant = false → Settled s →
    EngReg t.d → EngReg t.a → EngReg t.b → readAll (cmdReads i) s = some (ws, s1) → want i s1 ws = some w → w.ok →
    (isMatrix i = true → (s.lease (quadBase (s.cur / 16))).holder = some s.cur) →
    let g := (s1.core (s.cur / 16)).eng.getD (numberOf w.eng) EngSt.init
    let q := g.queue
    let base := quadBase (s.cur / 16)
    let bars := fun x : Entering => isMatrix i = false ∨ ((s.lease base).holder = some x.who ∧ (s.lease base).used < 64)
    (depth w.eng ≤ q.length ∨ (∃ x ∈ g.enter, bars x) → (isMatrix i = true → (s.lease base).used < 64) →
      ∃ u, exec i s = .next u ∧ WaitsAt s u .engineQueue ∧ u.me.rngst = (reserved s1 w).me.rngst ∧ u.me.gpos = (reserved s1 w).me.gpos ∧
        (numberOf w.eng < (s1.core (s.cur / 16)).eng.size → (u.core (s.cur / 16)).eng.getD (numberOf w.eng) EngSt.init =
          { g with enter := g.enter ++ [⟨s.cur, some (s.me.pc + BitVec.ofNat 64 (4 * s.grp.n + 8)), entering s1 w.cmd 0, s.grp.pfxs⟩] })) ∧
    (q.length < depth w.eng → (∀ x ∈ g.enter, ¬bars x) → isMatrix i = false → exec i s = .next (after 8 s (queued s1 w))) ∧
    (q.length < depth w.eng → (∀ x ∈ g.enter, ¬bars x) → isMatrix i = true → (s.lease base).used < 64 →
      (s.lease base).used + 1 < 64 ∨ ((s.lease base).reqs = [] ∧ ∀ h ∈ s.held, h.by_ ≠ .lease base) →
      exec i s = .next (after 8 s (((queued s1 { w with cmd := { w.cmd with grid := (s.lease base).grid } }).modLease base (counted s i)).modCore
        (s.cur / 16) fun k => { k with mx := shapes i w.cmd k.mx })))) ∧
  (∀ (s : State) (cid : Nat) (v : Word),
    let x := tileAt s cid v
    let f := (s.core cid).fmt.getD (v.extractLsb' 60 4).toNat 0
    x.cid = cid ∧ x.bank = (v.extractLsb' 60 4).toNat ∧ x.off = (v.extractLsb' 49 11).toNat * (Config.bankSize (cidLayer cid) / 2048) ∧
      x.rows = (v.extractLsb' 39 10).toNat + 1 ∧ x.cols = (v.extractLsb' 29 10).toNat + 1 ∧ x.stride = 16 * (v.extractLsb' 17 12).toNat ∧
      x.pad = v.getLsbD 9 ∧ x.cmaj = v.getLsbD 8 ∧ x.fmt = f ∧ x.scale = (s.core cid).bscl.getD (v.extractLsb' 60 4).toNat 0 ∧
      (code f ≠ 13 → code f ≠ 14 → x.lineB = (if scales (code f) ∧ f.extractLsb' 4 2 = 2 then 16 else 0) +
        if code f = 12 then 4 * ((x.lineLen + 7) / 8) else x.lineLen * halfBytes (code f) / 2) ∧
      x.lineLen = (if x.cmaj then x.rows else x.cols) + (if x.pad then 2 else 0) ∧ x.lines = (if x.cmaj then x.cols else x.rows) + (if x.pad then 2 else 0))

/-- A command that takes a handle: always, or with its bit 5 (R242). -/
def Sys2Proof.Spec.takesHandle : Instr → Bool
  | .fold _ | .scan _ | .zip _ | .outer _ => true
  | .tcopy t | .tfill t | .mxdrain t => fb t 5
  | _ => false

/-- A command that takes none (R242). -/
def Sys2Proof.Spec.noHandleIn : Instr → Bool
  | .txp _ | .gld _ | .gst _ | .mxldst _ | .mxswap _ | .mxstrm _ | .wld _ => true
  | .tcopy t | .tfill t | .mxdrain t => !fb t 5
  | _ => false

/-- The checks of an engine command that fail: a register field of 24–30, named d, a, b in that order; a matrix command without the lease; a tile
operand in the order d, a, b; a handle that is invalid on the engine, that its row of Table 9.6 does not allow, or that is named where none is allowed
(log 90); of a `put` then its destination, its counter and a raw bank; a level that the fretboard maps elsewhere, or a crossing out of the partition
(log 91). The context takes the trap and nothing enters a queue (R104, R185,
R232, R242, R260, R273, R280). -/
def Sys2Proof.Spec.EngineCommandChecks : Prop :=
  (∀ (i : Instr) (t : T64) (s : State), cmdWords i = some t →
    (s.me.migrant = true → exec i s = .next (takeTrap ⟨0x10, s.grp.instr⟩ s)) ∧
    (s.me.migrant = false → isMatrix i = true →
      let l := s.lease (quadBase (s.cur / 16))
      (l.holder ≠ some s.cur → (∀ r ∈ l.reqs, ¬(r.who = s.cur ∧ r.fresh = false)) →
        exec i s = .next (takeTrap ⟨0x11, (s.grp.instr.setWidth 32).setWidth 64⟩ s)) ∧
      (l.holder ≠ some s.cur → (∃ r ∈ l.reqs, r.who = s.cur ∧ r.fresh = false) → ∃ u, exec i s = .next u ∧ WaitsAt s u .lease)) ∧
    (s.me.migrant = false → (isMatrix i = true → (s.lease (quadBase (s.cur / 16))).holder = some s.cur) → Settled s →
      (¬EngReg t.d → exec i s = .next (takeTrap ⟨0x02, t.d.setWidth 64⟩ s)) ∧
      (EngReg t.d → ¬EngReg t.a → exec i s = .next (takeTrap ⟨0x02, t.a.setWidth 64⟩ s)) ∧
      (EngReg t.d → EngReg t.a → ¬EngReg t.b → exec i s = .next (takeTrap ⟨0x02, t.b.setWidth 64⟩ s)))) ∧
  (∀ (i : Instr) (t : T64) (s s1 : State) (ws : List Word), cmdWords i = some t → s.me.migrant = false → Settled s →
    (isMatrix i = true → (s.lease (quadBase (s.cur / 16))).holder = some s.cur) →
    EngReg t.d → EngReg t.a → EngReg t.b → readAll (cmdReads i) s = some (ws, s1) →
    (¬constOk i → exec i s = .next (takeTrap ⟨0x02, (cReg t).setWidth 64⟩ s)) ∧
    (∀ n o r v dest, (tileOperands i ws)[n]? = some (o, r, v, dest) → ¬TileOk v (own s1 v) dest →
      constOk i → (∀ x ∈ (tileOperands i ws).take n, TileOk x.2.2.1 (own s1 x.2.2.1) x.2.2.2) → exec i s = .next (takeTrap ⟨0x02, tileTinfo o r⟩ s)) ∧
    ((∀ x ∈ tileOperands i ws, TileOk x.2.2.1 (own s1 x.2.2.1) x.2.2.2) → constOk i →
      (takesHandle i = true ∧ (want i s1 ws = none ∨ (indexed t.h ∧ ∀ f, i ≠ .fold f)) ∨ noHandleIn i = true ∧ t.h ≠ 0) →
      exec i s = .next (takeTrap ⟨0x02, t.h.setWidth 64⟩ s)) ∧
    (∀ av dv, i = .rstr t → ws = [av, dv] → rstrOk s1 t av dv → (fb t 5 = true ∧ want i s1 ws = none) ∨ (fb t 5 = false ∧ t.h ≠ 0) →
      exec i s = .next (takeTrap ⟨0x02, t.h.setWidth 64⟩ s)) ∧
    (∀ a b d, i = .put t → ws = [a, b, d] → TileOk a (own s1 a) false →
      let handle := t.h = 0 ∨ t.h = 240 ∨ t.h = 242 ∨ t.h = 243
      let counter := b = BitVec.allOnes 64 ∨ (b.toNat < 2 ^ 48 ∧ b.toNat % 16 = 0)
      (¬handle → exec i s = .next (takeTrap ⟨0x02, t.h.setWidth 64⟩ s)) ∧
      (handle → d.extractLsb' 60 4 ≠ 0 → exec i s = .next (takeTrap ⟨0x02, d⟩ s)) ∧
      (handle → d.extractLsb' 60 4 = 0 → ¬counter → exec i s = .next (takeTrap ⟨0x02, b⟩ s)) ∧
      (handle → d.extractLsb' 60 4 = 0 → counter → raw (own s1 a) → t.h ≠ 0 → exec i s = .next (takeTrap ⟨0x02, tileTinfo 1 t.a⟩ s))) ∧
    (∀ w, want i s1 ws = some w → i = .fold t → indexed t.h → fb t 6 = false →
      (∀ x ∈ tileOperands i ws, TileOk x.2.2.1 (own s1 x.2.2.1) x.2.2.2 ∧ ¬raw (own s1 x.2.2.1)) → constOk i →
      (∀ d a, w.cmd.dt = some d → w.cmd.at_ = some a → Shape d (if fb t 5 then 1 else a.rows) 2) →
      exec i s = .next (takeTrap ⟨0x02, t.h.setWidth 64⟩ s)) ∧
    (∀ levels : BitVec 8, levels = t.spec.extractLsb' 8 8 → (match i with | .rstr _ => True | .prol _ => True | _ => False) →
      layerOf s1 (levels.setWidth 4) ≠ s1.layer ∨
        (layerOf s1 (levels.extractLsb' 4 4) ≠ s1.layer ∧ (∀ t', i = .rstr t' → layerOf s1 (levels.extractLsb' 4 4) ≠ s1.layer + 1) ∧
          (∀ t', i = .prol t' → layerOf s1 (levels.extractLsb' 4 4) + 1 ≠ s1.layer)) ∨
        (∃ t', i = .rstr t' ∧ layerOf s1 (levels.extractLsb' 4 4) = s1.layer + 1 ∧ coreIn s1 s1.me.part.toNat (parentOf (s.cur / 16)) = false) ∨
        (∃ t', i = .prol t' ∧ layerOf s1 (levels.extractLsb' 4 4) + 1 = s1.layer ∧
          ∃ k < 4, t'.spec.getLsbD (4 + k) = true ∧ coreIn s1 s1.me.part.toNat (childOf (s.cur / 16) k) = false) →
      exec i s = .next (takeTrap ⟨0x02, levels.setWidth 64⟩ s)))

/-- The major of a body word and its function code lie in the lane subset (Table 9.4, reason 5 of Table 9.5). -/
def Sys2Proof.Spec.laneCodeOk (w : W32) : Prop :=
  let m := (w.extractLsb' 24 7).toNat
  let f := (w.extractLsb' 1 8).toNat
  let g := f % 128
  w.getLsbD 31 = false ∧
    ((m = 0x00 ∧ (g ≤ 0x0C ∨ (0x11 ≤ g ∧ g ≤ 0x18) ∨ (0x20 ≤ g ∧ g ≤ 0x2C))) ∨ (1 ≤ m ∧ m ≤ 0x0A) ∨ (m = 0x0D ∧ f % 8 ≤ 5) ∨ m = 0x0F ∨
      (m = 0x14 ∧ g ≤ 0x0E ∧ g ≠ 3 ∧ g ≠ 4) ∨ m = 0x15 ∨ (m = 0x17 ∧ f / 16 ≤ 0xC ∧ f % 16 ≤ 0xC))

/-- The fields of a body word name lane registers, 0–7 and 31, and lane predicates, 0–7 (R238, reason 6). -/
def Sys2Proof.Spec.laneFieldsOk (w : W32) : Prop :=
  let m := (w.extractLsb' 24 7).toNat
  let g := (w.extractLsb' 1 7).toNat
  let reg := fun lo => let r : BitVec 5 := w.extractLsb' lo 5; r.toNat ≤ 7 ∨ r.toNat = 31
  let pred := fun lo => let r : BitVec 5 := w.extractLsb' lo 5; r.toNat ≤ 7
  (if m = 0x0D then pred 19 else reg 19) ∧ reg 14 ∧
    ((m = 0x00 ∧ g < 0x20) ∨ m = 0x0D ∨ m = 0x0F ∨ m = 0x15 ∨ (m = 0x14 ∧ (g ≤ 2 ∨ g = 5 ∨ g = 6 ∨ g = 9)) → reg 9) ∧
    (m = 0x15 → reg 4) ∧ (m = 0x0F → pred 1)

/-- X is 0, and so is every field of a body word that must be zero (R88, Tables 4.3, 5.2, reason 7). -/
def Sys2Proof.Spec.laneZeroOk (w : W32) : Prop :=
  let m := (w.extractLsb' 24 7).toNat
  let g := (w.extractLsb' 1 7).toNat
  w.getLsbD 0 = false ∧
    ((m = 0x00 ∧ 0x20 ≤ g) ∨ (m = 0x14 ∧ ¬(g ≤ 2 ∨ g = 5 ∨ g = 6 ∨ g = 9)) ∨ m = 0x17 → w.extractLsb' 9 5 = 0) ∧
    (m = 0x00 → g = 0x17 ∨ g = 0x18 ∨ g = 0x27 ∨ g = 0x2A → w.getLsbD 8 = false) ∧
    (5 ≤ m ∧ m ≤ 7 → w.extractLsb' 7 7 = 0) ∧ (m = 0x0D → w.extractLsb' 6 2 = 0) ∧ (m = 0x0F → w.extractLsb' 7 2 = 0)

/-- `lvset` writes the fretboard; `rtndef` writes the routine of an image that breaks no rule of Tables 9.3–9.5 into the partition's table, from where
commands that enter a queue later bind it, and reports the reason and the word of one that does (R237, R240, R241, R269). -/
def Sys2Proof.Spec.RoutinesAndFretboard : Prop :=
  (∀ (t : T64) (s : State), s.me.migrant = false →
    exec (.lvsetImm t) s = .next (after 8 s (s.modMe fun c => { c with fretboard := t.w1 }))) ∧
  (∀ (t : T64) (s s1 : State) (v : Word), s.me.migrant = false → readReg t.a s = .ok v s1 →
    (v.extractLsb' 32 32 ≠ 0 → exec (.lvsetReg t) s = .next (takeTrap ⟨0x02, v⟩ s)) ∧
    (v.extractLsb' 32 32 = 0 → exec (.lvsetReg t) s = .next (after 8 s (s1.modMe fun c => { c with fretboard := v.setWidth 32 })))) ∧
  (∀ (t : T64) (s s1 s2 s3 s4 : State) (o h : Word) (bs all : List Byte), s.me.migrant = false →
    (¬MayRule s → exec (.rtndef t) s = .next (takeTrap ⟨0x06, s.grp.instr⟩ s)) ∧
    (MayRule s → Settled s → readReg t.a s = .ok o s1 → readReg t.b s1 = .ok h s2 →
      (239 < h.toNat → exec (.rtndef t) s = .next (takeTrap ⟨0x02, h⟩ s)) ∧
      (h.toNat ≤ 239 → readBlock (t.f.toNat % 8) o.toInt ⟨4, 4, 4, [8], [0, 1, 2, 3], 19, .read⟩ s2 = .ok bs s3 →
        let hdr : W32 := (dwordOf bs 0).setWidth 32
        let n := (hdr.extractLsb' 27 5).toNat + 1
        readBlock (t.f.toNat % 8) o.toInt ⟨4 * (n + 1), 4, 4, [8], [0, 1, 2, 3], 19, .read⟩ s3 = .ok all s4 →
        let body := (List.range n).map fun k => (dwordOf all (4 + 4 * k)).setWidth 32
        (∀ info, rtnBad hdr body = some info → exec (.rtndef t) s = .next (takeTrap ⟨0x01, info⟩ s)) ∧
        (rtnBad hdr body = none → exec (.rtndef t) s = .next (after 8 s (s4.modPart s.me.part.toNat fun p => { p with
          routines := tset p.routines h.toNat (some ⟨hdr.extractLsb' 25 2, hdr.extractLsb' 21 4, hdr.extractLsb' 17 4, hdr.getLsbD 16,
            hdr.getLsbD 15, hdr.getLsbD 14, hdr.getLsbD 13, body⟩) }))))) ) ∧
  (∀ (hdr : W32) (body : List W32),
    let r1 := hdr.extractLsb' 25 2 = 3 ∨ hdr.setWidth 13 ≠ (0 : BitVec 13)
    let r2 := 13 ≤ (hdr.extractLsb' 21 4).toNat ∨ 13 ≤ (hdr.extractLsb' 17 4).toNat
    let n := (hdr.extractLsb' 27 5).toNat + 1
    let r3 := hdr.extractLsb' 13 4 = 0 ∨ (hdr.getLsbD 16 = true ∧ 8 < n) ∨ (hdr.getLsbD 15 = true ∧ 16 < n)
    let r4 := hdr.extractLsb' 25 2 ≠ 0 ∧ (hdr.extractLsb' 21 4 : BitVec 4) ≠ hdr.extractLsb' 17 4
    let info := fun (reason : Nat) => BitVec.ofNat 64 (reason * 2 ^ 40 + 0xFF * 2 ^ 32 + hdr.toNat)
    (r1 → rtnBad hdr body = some (info 1)) ∧ (¬r1 → r2 → rtnBad hdr body = some (info 2)) ∧ (¬r1 → ¬r2 → r3 → rtnBad hdr body = some (info 3)) ∧
    (¬r1 → ¬r2 → ¬r3 → r4 → rtnBad hdr body = some (info 4)) ∧
    let good := fun w => laneCodeOk w ∧ laneFieldsOk w ∧ laneZeroOk w
    (¬r1 → ¬r2 → ¬r3 → ¬r4 → ∀ i, i < body.length → i < 32 → (∀ j, j < i → good (body.getD j 0)) →
      let w := body.getD i 0
      let reject := fun (reason : Nat) => rtnBad hdr body = some (BitVec.ofNat 64 (reason * 2 ^ 40 + i * 2 ^ 32 + w.toNat))
      (¬laneCodeOk w → reject 5) ∧ (laneCodeOk w → ¬laneFieldsOk w → reject 6) ∧ (laneCodeOk w → laneFieldsOk w → ¬laneZeroOk w → reject 7)) ∧
    (¬r1 → ¬r2 → ¬r3 → ¬r4 → (∀ w ∈ body, good w) → rtnBad hdr body = none))

/-- The statements above together. -/
def Obligations.EngineChecksAndTables : Prop := EngineCommandChecks ∧ RoutinesAndFretboard

/-! ## Engine commands: running and ending -/

namespace Sys2Proof.Spec

/-- An engine's queue. -/
def queueOf (s : State) (cid : Nat) (e : Eng) : List Cmd := ((s.core cid).eng.getD (numberOf e) EngSt.init).queue

/-- A state with an engine's queue replaced. -/
def withQueue (s : State) (cid : Nat) (e : Eng) (l : List Cmd) : State := s.modEng cid e fun q => { q with queue := l }

/-- An engine has posted the completion words of the commands before: none waits for room, or for its context to take the trap (R195, R233,
R257). -/
def Posted (s : State) (cid : Nat) (e : Eng) : Prop :=
  (∀ h ∈ s.held, h.by_ ≠ .engine cid e) ∧ ∀ x ∈ s.ctxs, ∀ f, x.2.pend = some f → f.by_ ≠ .engine cid e ∨ f.done = none

/-- The command at the head of a queue is the one that the engine runs, or runs next (R233): it is not over, it was not cancelled before it began,
the word of the one before has been posted, and the core is not held by a reset. -/
def AtHead (s : State) (cid : Nat) (e : Eng) (c : Cmd) (rest : List Cmd) : Prop :=
  e ≠ .link ∧ queueOf s cid e = c :: rest ∧ (∀ d ∈ rest, d.prog.began = false) ∧ c.prog.done = false ∧
    (c.cancelled = true → c.prog.began = true) ∧ isolated s cid = false ∧ Posted s cid e

/-- A command that uses the grid (R260). -/
def grids (c : Cmd) : Prop := (∃ r b, c.op = .mxstrm r b) ∨ ∃ r n b k, c.op = .mxdrain r n b k

/-- Bytes of an element of a format of whole bytes (Table 3.1). -/
def elemBytes (f : BitVec 7) : Nat :=
  match (f.setWidth 4).toNat with
  | 0 | 1 | 4 => 8 | 2 | 3 | 5 => 4 | 6 | 7 => 2 | _ => 1

/-- Where the element (i, j) of a tile of whole bytes lies: the line of its row, or of its column where the tile is column-major, and its place there behind
the header of a row-scaled line and the halo element (R63, R103). -/
def elemAt (x : Tile) (i j : Nat) : Nat :=
  let h := if x.pad then 1 else 0
  let line := (if x.cmaj then j else i) + h
  let place := (if x.cmaj then i else j) + h
  let scaledRow := x.fmt.extractLsb' 4 2 = 2 ∧ ¬((x.fmt.setWidth 4 : BitVec 4) = 0 ∨ (x.fmt.setWidth 4 : BitVec 4) = 1 ∨
    (x.fmt.setWidth 4 : BitVec 4) = 4 ∨ (x.fmt.setWidth 4 : BitVec 4) = 15)
  Config.spadLoc x.cid (x.bank * Config.bankSize (cidLayer x.cid) + x.off + line * x.stride) + (if scaledRow then 16 else 0) +
    place * elemBytes x.fmt

/-- The formats of whole bytes: every one but `q4x` and what is no format. -/
def wholeBytes (x : Tile) : Prop := (x.fmt.setWidth 4).toNat < 12 ∨ (x.fmt.setWidth 4).toNat = 15

/-- The source elements of row `u` of the destination (of the source, for a fold and a scan by rows), in the order they are read (R246–R252). -/
def sourcesOf (c : Cmd) (u : Nat) : List (Tile × Nat × Nat) :=
  match c.op, c.dt, c.at_, c.bt with
  | .tcopy, some d, some a, _ => (List.range d.cols).map fun j => (a, u, j)
  | .txp, some d, some a, _ => (List.range d.cols).map fun j => (a, j, u)
  | .zip bc, some d, some a, some b => (List.range d.cols).flatMap fun j => [(a, u, j), (b, if bc then 0 else u, j)]
  | .outer, some d, some a, some b => (List.range d.cols).flatMap fun j => [(a, 0, u), (b, 0, j)]
  | .fold false _, _, some a, _ | .scan _, _, some a, _ => (List.range a.cols).map fun j => (a, u, j)
  | _, _, _, _ => []

/-- A command of the vector or copy engine that works row by row. -/
def ByRows (c : Cmd) : Prop :=
  c.whole = false ∧ (c.op = .tcopy ∨ c.op = .txp ∨ (∃ b, c.op = .zip b) ∨ c.op = .outer ∨ c.op = .tfill ∨
    (∃ n, c.op = .fold false n ∧ c.av = 0) ∨ ∃ n, c.op = .scan n ∧ c.av = 0)

/-- Rows of a command. -/
def rowsOf (c : Cmd) : Nat :=
  match c.op, c.dt, c.at_ with
  | .fold _ _, _, some a | .scan _, _, some a => a.rows
  | _, some d, _ => d.rows
  | _, _, _ => 0

/-- The low bytes of a value at an element of a tile. -/
def elemPiece (d : Tile) (i j : Nat) (v : Word) : Piece := ⟨elemAt d i j, none, .plain, leBytes (elemBytes d.fmt) v.toNat⟩

/-- The pieces that a command is about to write. -/
def pending (c : Cmd) : List Piece := c.prog.buf.flatMap (·.pieces)

/-- The granule of a scratchpad in which an entry lies. -/
def granuleOf (o : OutEnt) : Option Nat := match o.pieces with | y :: _ => if Config.isSpad y.loc then some (y.loc / 16) else none | [] => none

/-- The granules in which a command has written something and has more to write: those of before and the entry's, as far as an entry is left there. -/
def StillOpen (l : List Nat) (p : Prog) (o : OutEnt) (bs : List OutEnt) : Prop :=
  ∀ g, g ∈ l ↔ (g ∈ p.partly ∨ granuleOf o = some g) ∧ ∃ r ∈ bs, granuleOf r = some g

/-- A command whose unit is evaluated without a fault: the pieces to write, and the next unit. -/
def Evaluated (s t : State) (cid : Nat) (e : Eng) (c : Cmd) (rest : List Cmd) (l : List Piece) : Prop :=
  ∃ c', queueOf t cid e = c' :: rest ∧ pending c' = l ∧ c'.prog.unit = c.prog.unit + 1 ∧ c'.prog.reads = [] ∧ c'.prog.fault = none ∧ t.mem = s.mem

/-- `w × x + v` in f32, rounded once to nearest even (R80). -/
def fma32 (w x v : W32) : W32 := BitVec.ofNat 32 (fFma 5 rne (decodeF 5 w.toNat) (decodeF 5 x.toNat) (decodeF 5 v.toNat)).1

/-- Products with the stored weights accumulated in ascending rows (R266). -/
def accumulate : List W32 → List Word → W32 → W32
  | w :: ws, x :: xs, v => accumulate ws xs (fma32 w (x.setWidth 32) v)
  | _, _, v => v

/-- A weight of a set (R271). -/
def weightOf (s : State) (cid w k : Nat) : W32 := tget 0 (s.core cid).wset (9 * w + k)

/-- The bit pattern of a restrict's partial from its nine fine values (R274). -/
def partial9 (w : Nat → W32) (xs : List Word) : W32 := accumulate ((List.range 9).map w) xs 0

end Sys2Proof.Spec

/-- The line `u` of a tile begins here (R103). -/
def Sys2Proof.Spec.lineAt (x : Tile) (u : Nat) : Nat :=
  Config.spadLoc x.cid (x.bank * Config.bankSize (cidLayer x.cid) + x.off + u * x.stride)

/-- A step of an engine begins the command that is next, reads the next source element, computes a row of outputs in the tile's format, writes the
outputs of an aligned word with their full-empty marks, or finishes; what it does not write stays. Copies, transpositions and fills store
the bits unchanged; a sum over a row of `i64` is the sum mod 2^64; a stream accumulates row by row; a folded restrict takes nine products in
order, where of several NaNs the weight's comes before the element's and the sum's (log 97; R233, R235, R245–R252, R260, R265, R266, R271, R274). -/
def Sys2Proof.Spec.EngineSteps : Prop :=
  ∀ (s : State) (cid : Nat) (e : Eng) (c : Cmd) (rest : List Cmd), AtHead s cid e c rest →
    let run := fun ecc => exec (.engineCommandRun cid e ecc) s
    let p := c.prog
    let u := p.unit
    (p.began = false → (grids c → ∀ k, k < 4 → ∀ d ∈ queueOf s (quadCore cid k) .matrix, grids d → d.cancelled = true ∨ c.grid ≤ d.grid) →
      ∀ ecc, run ecc = .next (withQueue s cid e ({ c with prog := { p with began := true } } :: rest))) ∧
    (p.began = true →
      (∀ o bs, p.buf = o :: bs → o.vals = [] → c.fe ≠ 2 → NoArmedPut s → memWf s.mem = true → s.empties.Pairwise (· < ·) →
        (∀ x ∈ o.pieces, Config.isSpad x.loc = true ∧ sleeping s x.loc = none ∧ x.half = none ∧ x.page = .plain) → ∀ ecc,
        ∃ t l, run ecc = .next t ∧ queueOf t cid e = { c with prog := { p with buf := bs, partly := l, flags := p.flags ||| o.flags } } :: rest ∧
          StillOpen l p o bs ∧
          (∀ x, (∀ y ∈ o.pieces, x < y.loc ∨ y.loc + y.data.length ≤ x) → memGet t.mem x = memGet s.mem x) ∧
          (∀ y, o.pieces = [y] → ∀ k, k < y.data.length → memGet t.mem (y.loc + k) = y.data.getD k 0) ∧
          (c.fe = 1 → t.empties = s.empties) ∧
          (∀ y ys, o.pieces = y :: ys → c.fe = 0 → p.partly = [] → NoWaiter s (y.loc / 16) → (∀ r ∈ bs, ∀ z zs, r.pieces = z :: zs → z.loc / 16 ≠ y.loc / 16) →
            y.loc / 16 ∉ t.empties)) ∧
      (p.buf = [] → p.fault = none → e = .vector ∨ e = .copy → ByRows c → u < rowsOf c → c.sw = false →
        (∀ x i j, (sourcesOf c u)[p.reads.length]? = some (x, i, j) → wholeBytes x → x.fmt.extractLsb' 4 2 ≠ 2 → sleeping s (elemAt x i j) = none →
          ∃ t, run .clean = .next t ∧ t.mem = s.mem ∧
            ((¬Poisoned s (elemAt x i j) (elemBytes x.fmt) → queueOf t cid e =
                { c with prog := { p with reads := p.reads ++ [some (BitVec.ofNat 64 (valueAt s (elemAt x i j) (elemBytes x.fmt)))] } } :: rest) ∧
              (Poisoned s (elemAt x i j) (elemBytes x.fmt) →
                queueOf t cid e = { c with prog := { p with reads := p.reads ++ [none] } } :: rest))) ∧
        (∀ vs : List Word, p.reads = vs.map some → vs.length = (sourcesOf c u).length → ∀ d, c.dt = some d → wholeBytes d → ∀ ecc,
          (c.op = .tfill → c.oper = none → ∃ t, run ecc = .next t ∧
            Evaluated s t cid e c rest ((List.range d.cols).map fun j => elemPiece d u j c.av)) ∧
          (∀ a, c.at_ = some a → (c.op = .tcopy ∨ c.op = .txp) → c.oper = none → d.fmt.setWidth 6 = (a.fmt.setWidth 6 : BitVec 6) →
            ∃ t, run ecc = .next t ∧ Evaluated s t cid e c rest ((List.range d.cols).map fun j => elemPiece d u j (vs.getD j 0))) ∧
          (∀ a, c.at_ = some a → a.fmt = 0 → d.fmt = 0 → c.oper = some (.builtin 240 0) → c.pfx = false → c.av = 0 →
            (c.op = .fold false true → a.cols ≠ 0 → ∃ t, run ecc = .next t ∧
              Evaluated s t cid e c rest [elemPiece d u 0 (vs.foldl (· + ·) 0)]) ∧
            (∀ b bc, c.op = .zip bc → c.bt = some b → b.fmt = 0 → ∃ t, run ecc = .next t ∧ Evaluated s t cid e c rest
              ((List.range d.cols).map fun j => elemPiece d u j (vs.getD (2 * j) 0 + vs.getD (2 * j + 1) 0)))))) ∧
      (p.buf = [] → e = .vector ∨ e = .copy → ByRows c → p.fault ≠ none ∨ rowsOf c ≤ u → ∀ ecc,
        run ecc = .next (withQueue s cid e ({ c with prog := { p with done := true } } :: rest))) ∧
      (p.buf = [] → p.fault = none → c.op = .mxswap → e = .matrix → u = 0 → p.reads = [] → ∀ ecc, ∃ t, run ecc = .next t ∧
        (t.core cid).mx.active = (s.core cid).mx.shadow ∧ (t.core cid).mx.shadow = (s.core cid).mx.active ∧ (t.core cid).mx.acc = (s.core cid).mx.acc ∧
        t.mem = s.mem) ∧
      (∀ arow clr a (vs : List Word), p.buf = [] → p.fault = none → c.op = .mxstrm arow clr → e = .matrix → c.at_ = some a → a.fmt = 5 → u < a.rows →
        p.reads = vs.map some → vs.length = a.cols → (s.core cid).mx.active.sp = false →
        (∀ x ∈ (s.core cid).mx.active.cols, x.w.length ≤ a.cols ∧ x.n < 256) → ((s.core cid).mx.active.cols.map (·.n)).Nodup → ∀ ecc,
        ∃ t, run ecc = .next t ∧ t.mem = s.mem ∧ (t.core cid).mx.active = (s.core cid).mx.active ∧
          (∀ x ∈ (s.core cid).mx.active.cols, tget 0 (t.core cid).mx.acc ((arow + u) * 256 + x.n) =
            accumulate x.w vs (if clr then 0 else tget 0 (s.core cid).mx.acc ((arow + u) * 256 + x.n))) ∧
          (∀ key, (∀ x ∈ (s.core cid).mx.active.cols, key ≠ (arow + u) * 256 + x.n) →
            tget 0 (t.core cid).mx.acc key = tget 0 (s.core cid).mx.acc key)) ∧
      (∀ w a (vs : List Word), p.buf = [] → p.fault = none → c.op = .wld w → e = .pyramid → c.at_ = some a → a.fmt = 5 → u = 0 → a.rows * a.cols = 9 →
        p.reads = vs.map some → vs.length = 9 → ∀ ecc, ∃ t, run ecc = .next t ∧ t.mem = s.mem ∧
          ∀ n k, k < 9 → weightOf t cid n k = if n = w then (vs.getD k 0).setWidth 32 else weightOf s cid n k) ∧
      (∀ w shx mask lev a d (vs : List Word), p.buf = [] → p.fault = none → c.op = .rstr w shx mask lev false → e = .pyramid → c.oper = none → c.at_ = some a →
        c.dt = some d → c.te = 0 → c.pfx = false → a.fmt = 5 → d.fmt = 5 → d.cmaj = false → u < d.rows → p.reads = vs.map some → vs.length = 9 * d.cols → ∀ ecc,
        ∃ t, run ecc = .next t ∧ Evaluated s t cid e c rest
          ((List.range d.cols).map fun j => elemPiece d u j ((partial9 (weightOf s cid w) ((vs.drop (9 * j)).take 9)).setWidth 64))))

namespace Sys2Proof.Spec

/-- A command that has begun, with nothing to write and no fault. -/
def Working (c : Cmd) : Prop := c.prog.began = true ∧ c.prog.buf = [] ∧ c.prog.fault = none

/-- The DVA of a line of a global command (R253). -/
def dvaOf (g : Desc) (o p u : Nat) : Nat := segBase g + o + u * p

/-- `n` aligned words from a location up, in a page. -/
def wordsFrom (loc n : Nat) (g : Page) : Place := (List.range n).map fun k => (loc + 8 * k, 8, g)

/-- The pieces that write words from a location up. -/
def wordPieces (loc : Nat) (g : Page) (vs : List Word) : List Piece :=
  (List.range vs.length).map fun k => ⟨loc + 8 * k, none, g, leBytes 8 (vs.getD k 0).toNat⟩

/-- A fault of a global command (Table 9.12): at a DVA, or at an output. -/
def globalFault (sub : Nat) (dva : Option Nat) (out : Nat) : BitVec 8 × Word :=
  (0x0F, BitVec.ofNat 64 (sub % 256 * 2 ^ 56 + 2 * 2 ^ 53 + match dva with | some a => 2 ^ 52 + a % 2 ^ 48 | none => out % 2 ^ 20))

/-- The token for the 64 bytes at an address is there, or has been taken for this line already (R412, log 103). -/
def Paid (s b : State) (cid : Nat) (e : Eng) (c : Cmd) (pa : Nat) : Prop :=
  if c.prog.charged = some (pa / 64) then b = s
  else budget s (.eng cid e) cid (s.ctx c.issuer).part.toNat c.cls.toNat pa 64 = .ok b

/-- A slot of a `q4x` line: four bits of its group (R60). -/
def slotPiece (line k v : Nat) : Piece := ⟨line + k / 2, some (k % 2 = 1), .plain, [BitVec.ofNat 8 (v % 16)]⟩

/-- A finite f32. -/
def finite32 (w : W32) : Prop := w.extractLsb' 23 8 ≠ 0xFF

/-- `x + v` in f32, rounded to nearest even (R81). -/
def add32 (x v : W32) : W32 := BitVec.ofNat 32 (fAdd 5 rne (decodeF 5 x.toNat) (decodeF 5 v.toNat)).1

/-- The coarse elements that reach a fine one, in the order of the stencil: the weight, the row and the column (R280). -/
def coarsePlaces (shx : Bool) (y x : Nat) : List (Nat × Int × Int) :=
  (List.range 9).filterMap fun k =>
    let m : Int := if shx then 1 else 2
    let i : Int := (y : Int) - (k / 3 : Nat) + 1
    let j : Int := (x : Int) - (k % 3 : Nat) + 1
    if i % m = 0 ∧ j % 2 = 0 then some (k, i / m, j / 2) else none

/-- A fine value: the products of weights and coarse values, added up in that order (R280). -/
def fineValue (w : Nat → W32) (val : Int → Int → Word) (l : List (Nat × Int × Int)) : W32 :=
  accumulate (l.map fun x => w x.1) (l.map fun x => val x.2.1 x.2.2) 0

end Sys2Proof.Spec

/-- `gld` and `gst` go line by line: the line's page is translated at the port, its words are read, and the line is written; a fault names the DVA or the
line; an access to global memory takes a token for each 64 bytes, and a write of a replicated page is on its way to the other copies (R253, R320,
R394, R412). Lines and addresses are those of whole aligned words within one page. -/
def Sys2Proof.Spec.GlobalCommands : Prop :=
  ∀ (s : State) (cid : Nat) (c : Cmd) (rest : List Cmd), AtHead s cid .global c rest → c.prog.began = true →
    let run := exec (.engineCommandRun cid .global .clean) s
    let p := c.prog
    let u := p.unit
    let m := s.ctx c.issuer
    let goes := fun (t : State) (q : Prog) => withQueue t cid .global ({ c with prog := q } :: rest)
    let ask := fun (k : Pte) (a : Nat) => portAccess s (clKey cid) cid .global m.part m.sec k a
    (∀ g o q d n, c.op = .gld g o q → c.dt = some d → p.buf = [] → p.fault = none → u < d.lines → 0 < n → d.lineB = 8 * n →
      dvaOf g o q u % 8 = 0 → dvaOf g o q u % 4096 + 8 * n ≤ 4096 → lineAt d u % 8 = 0 →
      let a := dvaOf g o q u
      (p.plan = [] →
        (∀ t, ask .read a = (t, .wait) → run = .next t) ∧
        (∀ t k, ask .read a = (t, .fault k) → run = .next (goes t { p with fault := some (globalFault k (some a) u), reads := [], plan := [] })) ∧
        (∀ t home g, ask .read a = (t, .at_ home g) →
          let pa := if g.repl then copyPa home (baseDie cid) else home
          run = .next (goes t { p with plan := wordsFrom (pa / 4096 * 4096 + a % 4096) n g }))) ∧
      (∀ x g, p.plan = wordsFrom x n g →
        (∀ b, p.reads.length < n → Config.isHbm (x + 8 * p.reads.length) = true → Paid s b cid .global c (x + 8 * p.reads.length) →
          let pa := x + 8 * p.reads.length
          ∃ t, run = .next t ∧ t.mem = s.mem ∧
            (¬Poisoned s pa 8 → queueOf t cid .global = { c with prog := { p with
              reads := p.reads ++ [some (BitVec.ofNat 64 (numAt s [(pa, 8, g)]))], charged := some (pa / 64) } } :: rest) ∧
            (Poisoned s pa 8 → queueOf t cid .global = { c with prog := { p with
              fault := some (globalFault 0x13 (some (a + 8 * p.reads.length)) u), reads := [], plan := [], charged := some (pa / 64) } } :: rest)) ∧
        (∀ vs : List Word, p.reads = vs.map some → vs.length = n →
          ∃ t, run = .next t ∧ Evaluated s t cid .global c rest (wordPieces (lineAt d u) .plain vs)))) ∧
    (∀ g o q x n, c.op = .gst g o q → c.at_ = some x → p.buf = [] → p.fault = none → u < x.lines → 0 < n → x.lineB = 8 * n →
      dvaOf g o q u % 8 = 0 → dvaOf g o q u % 4096 + 8 * n ≤ 4096 → lineAt x u % 8 = 0 → c.dt = none →
      let a := dvaOf g o q u
      let loc := lineAt x u + 8 * p.reads.length
      (p.reads.length < n → c.sw = false → sleeping s loc = none → ∃ t, run = .next t ∧ t.mem = s.mem ∧
        (¬Poisoned s loc 8 → queueOf t cid .global =
          { c with prog := { p with reads := p.reads ++ [some (BitVec.ofNat 64 (valueAt s loc 8))] } } :: rest) ∧
        (Poisoned s loc 8 → queueOf t cid .global = { c with prog := { p with reads := p.reads ++ [none] } } :: rest)) ∧
      (p.reads.length = n → none ∈ p.reads → run = .next (goes s { p with fault := some (globalFault 0x13 none u), reads := [], plan := [] })) ∧
      (∀ vs : List Word, p.reads = vs.map some → vs.length = n →
        (∀ t, ask .write a = (t, .wait) → run = .next t) ∧
        (∀ t k, ask .write a = (t, .fault k) → run = .next (goes t { p with fault := some (globalFault k (some a) u), reads := [], plan := [] })) ∧
        (∀ t home g, ask .write a = (t, .at_ home g) → ∃ t', run = .next t' ∧
          Evaluated t t' cid .global c rest (wordPieces (home / 4096 * 4096 + a % 4096) g vs)))) ∧
    (∀ o bs y b, p.buf = o :: bs → p.partly = [] → o.pieces = [y] → y.half = none → o.vals = [] → Config.isHbm y.loc = true → memWf s.mem = true → NoArmedPut s →
      Paid s b cid .global c y.loc → ∃ t, run = .next t ∧
        queueOf t cid .global = { c with prog := { p with buf := bs, flags := p.flags ||| o.flags, charged := some (y.loc / 64) } } :: rest ∧
        readBytes t [(y.loc, y.data.length, y.page)] = y.data ∧
        (∀ x, x < y.loc ∨ y.loc + y.data.length ≤ x → memGet t.mem x = memGet s.mem x) ∧
        (y.page.repl = true → ∀ die < 4, copyPa y.loc die ≠ y.loc →
          ∃ w ∈ t.props, w.src = none ∧ w.by_ = some cid ∧ w.loc = copyPa y.loc die ∧ w.data = y.data ∧ w.key = y.page.key)) ∧
    (∀ x, (∃ g o q, (c.op = .gld g o q ∧ c.dt = some x) ∨ (c.op = .gst g o q ∧ c.dt = none ∧ c.at_ = some x)) → p.buf = [] →
      p.fault ≠ none ∨ x.lines ≤ u → run = .next (goes s { p with done := true }))

/-- Scans, accumulators and outer products of `i64`; a scaled bank's elements are the stored ones times the scale, and are divided by it when
they are written, rounded once, under the row's header as it then stands where the scale is the row's; `q4x` codes are copied as they are, four bits each, with zeros up to the end of the group; `sw` and `fe` 10 wait for granules (R60,
R62–R64, R235, R245, R247–R250). -/
def Sys2Proof.Spec.TileCommands : Prop :=
  ∀ (s : State) (cid : Nat) (e : Eng) (c : Cmd) (rest : List Cmd), AtHead s cid e c rest → c.prog.began = true → e = .vector ∨ e = .copy →
    let run := exec (.engineCommandRun cid e .clean) s
    let p := c.prog
    let u := p.unit
    let waits := fun (t : State) (k : FeKind) (g : Nat) => t.mem = s.mem ∧ queueOf t cid e = c :: rest ∧
      t.feq = s.feq ++ [⟨g, k, [(16 * g, 16, .plain)], 0, 0, 0, 0⟩]
    (ByRows c → p.buf = [] → p.fault = none → u < rowsOf c →
      (∀ vs : List Word, p.reads = vs.map some → vs.length = (sourcesOf c u).length →
        (∀ d a, c.dt = some d → c.at_ = some a → a.fmt = 0 → d.fmt = 0 → c.pfx = false → c.av = 0 →
          (∀ na, c.op = .scan na → c.oper = some (.builtin 240 0) → a.cols = d.cols → ∃ t, run = .next t ∧ Evaluated s t cid e c rest
            ((List.range d.cols).map fun j => elemPiece d u j ((if na then 0 else c.bv) + (vs.take (j + 1)).foldl (· + ·) 0))) ∧
          (c.op = .fold false false → c.oper = some (.builtin 240 0) → a.cols ≠ 0 → ∃ t, run = .next t ∧
            Evaluated s t cid e c rest [elemPiece d u 0 (c.bv + vs.foldl (· + ·) 0)]) ∧
          (∀ b, c.op = .outer → c.bt = some b → b.fmt = 0 → c.oper = some (.builtin 241 0) → ∃ t, run = .next t ∧ Evaluated s t cid e c rest
            ((List.range d.cols).map fun j => elemPiece d u j (vs.getD (2 * j) 0 * vs.getD (2 * j + 1) 0)))) ∧
        (∀ d a, c.dt = some d → c.at_ = some a → c.op = .tcopy → c.oper = none →
          (a.fmt = 0b0010101 → d.fmt = 5 → ∃ t, run = .next t ∧ Evaluated s t cid e c rest ((List.range d.cols).map fun j => elemPiece d u j
            (BitVec.ofNat 64 (fMul 5 rne (decodeF 5 ((vs.getD j 0).setWidth 32).toNat) (decodeF 5 a.scale.toNat)).1))) ∧
          (a.fmt = 0b0100101 → d.fmt = 5 → ∃ t, run = .next t ∧ Evaluated s t cid e c rest ((List.range d.cols).map fun j => elemPiece d u j
            (BitVec.ofNat 64 (fMul 5 rne (decodeF 5 ((vs.getD j 0).setWidth 32).toNat) (decodeF 5 ((vs.getD j 0).extractLsb' 32 32).toNat)).1))) ∧
          (a.fmt = 5 → d.fmt = 0b0010101 → c.te = 0 → c.pfx = false → c.rnd = 1 → finite32 d.scale → d.scale.setWidth 31 ≠ (0 : BitVec 31) →
            (∀ v ∈ vs, finite32 (v.setWidth 32)) → ∃ t, run = .next t ∧ Evaluated s t cid e c rest ((List.range d.cols).map fun j => elemPiece d u j
              (BitVec.ofNat 64 (fDiv 5 rne (decodeF 5 ((vs.getD j 0).setWidth 32).toNat) (decodeF 5 d.scale.toNat)).1))) ∧
          (a.fmt = 12 → d.fmt = 12 → d.pad = false → a.pad = false → d.cmaj = false → a.cmaj = false → a.cols = d.cols → ∃ t, run = .next t ∧
            Evaluated s t cid e c rest ((List.range d.cols).flatMap fun j =>
              slotPiece (lineAt d u) j ((vs.getD j 0).toNat / 16 ^ (j % 8)) ::
                (if j / 8 = (d.cols - 1) / 8 then
                  (List.range ((d.cols + 7) / 8 * 8 - d.cols)).map fun k => slotPiece (lineAt d u) (d.cols + k) 0 else []))))) ∧
      (∀ x i j, c.sw = false → (sourcesOf c u)[p.reads.length]? = some (x, i, j) → wholeBytes x → x.fmt = 0b0100101 →
        let head := lineAt x ((if x.cmaj then j else i) + if x.pad then 1 else 0)
        sleeping s (elemAt x i j) = none → sleeping s head = none → ¬Poisoned s (elemAt x i j) 4 → ¬Poisoned s head 4 →
        ∃ t, run = .next t ∧ t.mem = s.mem ∧ queueOf t cid e = { c with prog := { p with
          reads := p.reads ++ [some (BitVec.ofNat 64 (valueAt s (elemAt x i j) 4 + 2 ^ 32 * valueAt s head 4))] } } :: rest) ∧
      (∀ x i j, c.sw = true → (sourcesOf c u)[p.reads.length]? = some (x, i, j) → wholeBytes x → x.fmt.extractLsb' 4 2 ≠ 2 →
        let g := elemAt x i j / 16
        g ∉ p.waited → NoWaiter s g →
          (g ∈ s.empties → ∃ t, run = .next t ∧ waits t (.engFull cid e) g ∧ t.empties = s.empties) ∧
          (g ∉ s.empties → run = .next (withQueue s cid e ({ c with prog := { p with waited := p.waited ++ [g] } } :: rest))))) ∧
    (∀ o bs y, p.buf = o :: bs → o.vals = [] → p.partly = [] → o.pieces = [y] → c.fe = 2 → Config.isSpad y.loc = true → NoWaiter s (y.loc / 16) →
      (y.loc / 16 ∉ s.empties → ∃ t, run = .next t ∧ waits t (.engEmpty cid e) (y.loc / 16) ∧ t.empties = s.empties) ∧
      (y.loc / 16 ∈ s.empties → s.empties.Pairwise (· < ·) → memWf s.mem = true → NoArmedPut s → sleeping s y.loc = none → y.half = none → y.page = .plain →
        (∀ r ∈ bs, ∀ z zs, r.pieces = z :: zs → z.loc / 16 ≠ y.loc / 16) →
        ∃ t, run = .next t ∧ queueOf t cid e = { c with prog := { p with buf := bs, flags := p.flags ||| o.flags } } :: rest ∧
          t.feq = s.feq ∧ y.loc / 16 ∉ t.empties ∧ (∀ k, k < y.data.length → memGet t.mem (y.loc + k) = y.data.getD k 0) ∧
          (∀ x, x < y.loc ∨ y.loc + y.data.length ≤ x → memGet t.mem x = memGet s.mem x))) ∧
    (∀ o bs line k v, p.buf = o :: bs → o.vals = [] → o.pieces = [slotPiece line k v] → c.fe = 1 → Config.isSpad (line + k / 2) = true → memWf s.mem = true →
      sleeping s (line + k / 2) = none → ∃ t, run = .next t ∧
        memGet t.mem (line + k / 2) = BitVec.ofNat 8 (if k % 2 = 1 then v % 16 * 16 + (memGet s.mem (line + k / 2)).toNat % 16
          else (memGet s.mem (line + k / 2)).toNat / 16 * 16 + v % 16) ∧
        ∀ x, x ≠ line + k / 2 → memGet t.mem x = memGet s.mem x) ∧
    (∀ o bs (q : LateOut) data, ByRows c → p.buf = o :: bs → o.vals = [q] → q.tile.fmt = 0b0100101 → q.tile.cmaj = false → q.op = 5 → c.fe = 1 →
      let head := lineAt q.tile q.l
      let loc := head + 16 + 4 * q.e
      o.pieces = [⟨loc, none, .plain, data⟩] → Config.isSpad loc = true → sleeping s loc = none → memWf s.mem = true → NoArmedPut s →
      (Poisoned s head 4 → (∀ r ∈ bs, ∀ z ∈ r.vals, q.outx < z.outx) → ∃ t c', run = .next t ∧ queueOf t cid e = c' :: rest ∧ t.mem = s.mem ∧
        c'.prog.buf = [] ∧ c'.prog.fault = some (0x0F, BitVec.ofNat 64 (0x13 * 2 ^ 56 + numberOf e * 2 ^ 53 + q.outx % 2 ^ 20))) ∧
      (¬Poisoned s head 4 → c.te = 0 → c.pfx = false → c.rnd = 1 → finite32 (BitVec.ofNat 32 (valueAt s head 4)) → valueAt s head 4 % 2 ^ 31 ≠ 0 →
        finite32 (BitVec.ofNat 32 q.bits) → q.bits < 2 ^ 32 → ∃ t, run = .next t ∧
          valueAt t loc 4 = (fDiv 5 rne (decodeF 5 q.bits) (decodeF 5 (valueAt s head 4))).1 ∧
          ∀ x, x < loc ∨ loc + 4 ≤ x → memGet t.mem x = memGet s.mem x))

/-- `mxldst` keeps the live columns of its bitmap and loads its weights, with their indices under sparsity, into the shadow plane; `mxdrain` writes the
accumulators, with an epilogue and a bias where it has them, and clears them as they are written (R264, R267). `prol` forms each fine element from the
coarse ones that reach it, and adds it to the old one with `add`; a crossing `rstr` keeps what it has read for the parent's port, where its partials take the governing participant's mode (R272, R274, R278, R280; log
121, DEDUCED). -/
def Sys2Proof.Spec.MatrixAndPyramidCommands : Prop :=
  ∀ (s : State) (cid : Nat) (e : Eng) (c : Cmd) (rest : List Cmd), AtHead s cid e c rest → c.prog.began = true →
    let run := exec (.engineCommandRun cid e .clean) s
    let p := c.prog
    let u := p.unit
    let acc := fun (t : State) (i j : Nat) => tget 0 (t.core cid).mx.acc (256 * i + j)
    (∀ vs : List Word, p.buf = [] → p.fault = none → p.reads = vs.map some →
      (∀ sp a b, e = .matrix → c.op = .mxldst sp → c.at_ = some a → c.bt = some b → u = 0 → vs.length = 32 → ∃ t, run = .next t ∧ t.mem = s.mem ∧
        queueOf t cid e = { c with prog := { p with
          unit := 1, reads := [],
          keep := (((List.range 256).filter fun n => (vs.getD (n / 8) 0).getLsbD (n % 8)).take a.cols).map fun n => BitVec.ofNat 64 n } } :: rest) ∧
      (∀ sp a b, e = .matrix → c.op = .mxldst sp → c.at_ = some a → c.bt = some b → u = 1 → a.fmt = 7 →
        let k := p.keep.length
        let skip := if sp then 16 * k else 0
        vs.length = skip + a.rows * k → (∀ v ∈ vs.drop skip, v.extractLsb' 7 8 = 0xFF → v.extractLsb' 0 7 = 0) →
        ∃ t, run = .next t ∧ t.mem = s.mem ∧ (t.core cid).mx.active = (s.core cid).mx.active ∧ (t.core cid).mx.acc = (s.core cid).mx.acc ∧
          let x := (t.core cid).mx.shadow
          x.rows = a.rows ∧ x.sp = sp ∧ x.cols.map (·.n) = p.keep.map (·.toNat) ∧
          ∀ j (q : PCol), x.cols[j]? = some q →
            q.w = (List.range a.rows).map (fun i => ((vs.getD (skip + i * k + j) 0).setWidth 16 ++ 0#16 : W32)) ∧
            (sp = true → q.idx = (List.range a.rows).map fun i => (vs.getD (16 * j + i / 4) 0).toNat / 4 ^ (i % 4) % 4)) ∧
      (∀ arow acol clr d, e = .matrix → c.op = .mxdrain arow acol false clr → c.dt = some d → d.fmt = 5 → d.cmaj = false → u < d.rows → vs = [] →
        c.oper = none → ∃ t, run = .next t ∧
          Evaluated s t cid e c rest ((List.range d.cols).map fun j => elemPiece d u j ((acc s (arow + u) (acol + j)).setWidth 64))) ∧
      (∀ arow acol clr d b, e = .matrix → c.op = .mxdrain arow acol true clr → c.dt = some d → c.bt = some b → b.fmt = 5 → d.fmt = 5 → d.cmaj = false →
        u < d.rows → vs.length = d.cols → c.oper = some (.builtin 240 5) → c.te = 0 → c.pfx = false → c.rnd = 1 → ∃ t, run = .next t ∧
          Evaluated s t cid e c rest ((List.range d.cols).map fun j => elemPiece d u j
            ((add32 (acc s (arow + u) (acol + j)) ((vs.getD j 0).setWidth 32)).setWidth 64))) ∧
      (∀ w shx mask add a d, e = .pyramid → c.op = .prol w shx mask add false → c.at_ = some a → c.dts = [d] → c.dt = none → a.fmt = 5 → d.fmt = 5 →
        d.cmaj = false → u < d.rows → c.te = 0 → c.pfx = false → ∀ (val : Int → Int → Word) (old : Nat → Word),
        vs = ((List.range d.cols).flatMap fun j =>
          (coarsePlaces shx u j).map (fun x => val x.2.1 x.2.2) ++ if add then [old j] else []) →
        let fine := fun j => fineValue (weightOf s cid w) val (coarsePlaces shx u j)
        ∃ t, run = .next t ∧ Evaluated s t cid e c rest ((List.range d.cols).map fun j => elemPiece d u j
          ((if add then add32 ((old j).setWidth 32) (fine j) else fine j).setWidth 64))) ∧
      (∀ w shx mask lev a d, e = .pyramid → c.op = .rstr w shx mask lev true → c.oper = none → c.at_ = some a → c.dt = some d → a.fmt = 5 → u < d.rows →
        vs.length = 9 * d.cols → ∃ t c', run = .next t ∧ t.mem = s.mem ∧ queueOf t cid e = c' :: rest ∧ pending c' = [] ∧
          c'.prog.unit = u + 1 ∧ c'.prog.fault = none ∧ c'.prog.words = p.words ++ vs.map some)) ∧
    (∀ arow acol bs o rest' d y, e = .matrix → c.op = .mxdrain arow acol bs true → c.dt = some d → p.buf = o :: rest' → o.vals = [] → o.pieces = [y] → c.fe = 1 →
      Config.isSpad y.loc = true → sleeping s y.loc = none → ∃ t, run = .next t ∧
        (∀ q ∈ o.outs, acc t (arow + q / d.cols) (acol + q % d.cols) = 0) ∧
        ∀ i j, (∀ q ∈ o.outs, 256 * i + j ≠ 256 * (arow + q / d.cols) + (acol + q % d.cols)) → acc t i j = acc s i j)

namespace Sys2Proof.Spec

/-- What an integer or arithmetic body word does on a lane: the register, its new value and the flags (R239). -/
def onLane (v : REnv) (x : Nat → Word) (i : Instr) : Option (Nat × Word × BitVec 6) :=
  let val := fun r : Reg => if r.toNat = 31 then 0 else x r.toNat
  match bin i, una i, fpForm i with
  | some (d, a, b, f), _, _ => some (d.toNat, f (val a) (val b), 0)
  | none, some (d, a, f), _ => some (d.toNat, f (val a), 0)
  | none, none, some (d, rs, src, dst, _, f) =>
    let r := f v (rs.map fun r => (val r).toNat % 2 ^ imageBits src)
    some (d.toNat, regImage dst r.1, r.2)
  | none, none, none => none

/-- A body run from its word `j` on (R239): the lane's register 0 with the flags, or the body index at which an enabled exception arises. -/
def laneRun (v : REnv) (te : BitVec 5) : (j : Nat) → List W32 → (Nat → Word) → BitVec 6 → Option (Except Nat (Word × BitVec 6))
  | _, [], x, fl => some (.ok (x 0, fl))
  | j, w :: ws, x, fl =>
    match decode32 0 w with
    | .error _ => none
    | .ok i =>
      match onLane v x i with
      | none => none
      | some (d, y, f) =>
        if f.extractLsb' 1 5 &&& te ≠ 0 then some (.error j) else laneRun v te (j + 1) ws (fun k => if k = d ∧ d ≠ 31 then y else x k) (fl ||| f)

/-- The lane's registers as an application begins (R239). -/
def laneStart (l r i c : Word) (k : Nat) : Word := if k = 0 then l else if k = 1 then r else if k = 2 then i else if k = 3 then c else 0

/-- An operator as a function of the left value, the right one and the index, with operands and result in one format: a value and flags, or the body
index of a fault. -/
abbrev OpFun := Nat → Nat → Nat → Except Nat Bits

/-- An operator is such a function under a command's environment and constant. -/
def IsFun (o : Oper) (v : CmdEnv) (c : Word) (k : Nat) (f : OpFun) : Prop :=
  o.inF = k ∧ o.outF = k ∧
    ∀ l r i st g, o.apply v k k l r i c st g = match f l r i with | .ok b => .ok b | .error j => .error ⟨0x0D, j, true, none⟩

/-- Applications from left to right (R79, R247). -/
def leftFold (f : OpFun) : Nat → List (Nat × Nat) → Except Nat Nat
  | x, [] => .ok x
  | x, (y, q) :: l => match f x y q with | .ok b => leftFold f b.1 l | .error j => .error j

/-- A sequence's 32 chunks (R79). -/
def chunksOf (l : List (Nat × Nat)) : List (List (Nat × Nat)) :=
  let c := (l.length + 31) / 32
  (List.range 32).map fun j => (l.drop (j * c)).take c

/-- A partial with the index of its first element: a value, or a body index with the place of its application in the order of evaluation (R246). -/
abbrev Partial := Except (Nat × Nat) Nat × Nat

/-- An application's outcome, at a place in the order of evaluation. -/
def placed (n : Nat) : Except Nat Nat → Except (Nat × Nat) Nat | .ok x => .ok x | .error j => .error (n, j)

/-- The partials of the chunks, from chunk `n` on; none of an empty chunk (R79, R247). -/
def partialsFrom (f : OpFun) : (n : Nat) → List (List (Nat × Nat)) → List (Option Partial)
  | _, [] => []
  | n, [] :: l => none :: partialsFrom f (n + 1) l
  | n, ((x, q) :: c) :: l => some (placed n (leftFold f x c), q) :: partialsFrom f (n + 1) l

/-- A node of the tree: the left operand first; an absent one passes the other through; the first fault in the order of evaluation passes on (R79). -/
def node (f : OpFun) (n : Nat) : Option Partial → Option Partial → Option Partial
  | some (.ok x, i), some (.ok y, j) => some (placed n ((f x y j).map (·.1)), i)
  | some (.error e, i), some (.error e', _) => some (.error (if e'.1 < e.1 then e' else e), i)
  | some (.error e, i), some (.ok _, _) => some (.error e, i)
  | some (.ok _, i), some (.error e, _) => some (.error e, i)
  | some x, none => some x
  | none, y => y

/-- A level of the tree. -/
def treeLevel (f : OpFun) : (n : Nat) → List (Option Partial) → List (Option Partial)
  | n, a :: b :: l => node f n a b :: treeLevel f (n + 1) l
  | _, l => l

/-- The result of a fold (R247). -/
def foldOf (f : OpFun) (cls : Nat) (acc : Option Nat) (l : List (Nat × Nat)) : Option (Except Nat Nat) :=
  if cls = 0 then
    match acc, l with | some x, _ => some (leftFold f x l) | none, (x, _) :: r => some (leftFold f x r) | none, [] => none
  else
    let t := treeLevel f 500 (treeLevel f 400 (treeLevel f 300 (treeLevel f 200 (treeLevel f 100 (partialsFrom f 0 (chunksOf l))))))
    match t.headD none, acc with
    | some (.ok x, i), some a => some ((f a x i).map (·.1))
    | some (.ok x, _), none => some (.ok x)
    | some (.error j, _), _ => some (.error j.2)
    | none, _ => none

/-- The inclusive prefixes of a list from a first value, or from its first element, with the index of each (R248). -/
def prefixes (g : Nat → Nat → Nat → Nat) : Option Nat → List (Nat × Nat) → List (Nat × Nat)
  | _, [] => []
  | none, (x, q) :: l => (x, q) :: prefixes g (some x) l
  | some v, (x, q) :: l => (g v x q, q) :: prefixes g (some (g v x q)) l

/-- The outputs of a scan, chunk by chunk, from what enters the first (R248). -/
def scanChunks (g : Nat → Nat → Nat → Nat) : Option Nat → List (List (Nat × Nat)) → List Nat
  | _, [] => []
  | e, l :: rest =>
    let ps := prefixes g none l
    let total := (ps.getLastD (0, 0)).1
    ps.map (fun x => match e with | none => x.1 | some v => g v x.1 x.2) ++
      scanChunks g (match e with | none => some total | some v => some (g v total (l.headD (0, 0)).2)) rest

/-- The result of a scan (R248). -/
def scanOf (g : Nat → Nat → Nat → Nat) (cls : Nat) (acc : Option Nat) (l : List (Nat × Nat)) : List Nat :=
  if cls = 0 then (prefixes g acc l).map (·.1) else scanChunks g acc ((chunksOf l).filter (· ≠ []))

/-- A fault that is not the routine's (Table 9.12). -/
def engineFault (e : Eng) (sub outx : Nat) : BitVec 8 × Word :=
  (0x0F, BitVec.ofNat 64 (sub * 2 ^ 56 + numberOf e * 2 ^ 53 + outx % 2 ^ 20))
/-- A fault in an application (Table 9.12). -/
def routineFault (o : Oper) (body outx : Nat) : BitVec 8 × Word :=
  (0x0E, BitVec.ofNat 64 (outx % 2 ^ 20 * 2 ^ 32 + o.handle * 2 ^ 24 + body % 256 * 2 ^ 16 + outx % 2 ^ 16))

/-- The outputs before the first that faults. -/
def goods : List (Except (BitVec 8 × Word) Nat) → List Nat | .ok x :: l => x :: goods l | _ => []
/-- The fault of the first output that has one. -/
def firstBad : List (Except (BitVec 8 × Word) Nat) → Option (BitVec 8 × Word) | .ok _ :: l => firstBad l | .error f :: _ => some f | [] => none

/-- A row has been evaluated: the outputs before the first that faults are to be written, and that fault ends the command (R255). -/
def RowOf (s t : State) (cid : Nat) (e : Eng) (c : Cmd) (rest : List Cmd) (d : Tile) (l : List (Except (BitVec 8 × Word) Nat)) : Prop :=
  ∃ c', queueOf t cid e = c' :: rest ∧ t.mem = s.mem ∧ c'.prog.unit = c.prog.unit + 1 ∧ c'.prog.reads = [] ∧ c'.prog.fault = firstBad l ∧
    pending c' = (List.range (goods l).length).map fun j => elemPiece d c.prog.unit j (BitVec.ofNat 64 ((goods l).getD j 0))

end Sys2Proof.Spec

/-- A routine runs its body on a lane, and an enabled exception there is its fault (R239). An operator is applied with the index that its command gives
it: a fold of class 0 from left to right, one of class 1 or 2 over 32 chunks and the balanced tree, its accumulator first; a scan as R248
states; `zip`, `outer`, `tcopy` and `tfill` with the index of the output. A poisoned source and an enabled exception fault the first output that
depends on them: what comes before it is written, and the fault has the layout of Table 9.12. So it is for the vector and the copy engine; the
matrix array's `mxdrain` follows the same rules, and a poisoned word of a stream or of a bitmap faults its row, or output 0 (R79, R239, R247–R252, R255, R256, R264,
R266, R267). -/
def Sys2Proof.Spec.OperatorsAndFaults : Prop :=
  (∀ (h : BitVec 8) (r : Routine) (v : CmdEnv) (lf rf l rr i : Nat) (c st : Word) (g : BitVec 2) (res : Except Nat (Word × BitVec 6)),
    (∀ w ∈ r.body, laneCodeOk w ∧ laneFieldsOk w ∧ laneZeroOk w) → 1 ≤ v.env.rnd → v.env.rnd ≤ 5 → v.env.sat < 4 → lf < 12 → rf < 12 → r.outF.toNat < 12 → l < 2 ^ imageBits lf → rr < 2 ^ imageBits rf →
    laneRun ⟨v.env.rnd, v.env.pfx, v.env.sat, false, 0⟩ v.te 0 r.body (laneStart (regImage lf l) (regImage rf rr) (BitVec.ofNat 64 i) c) 0 = some res →
    Oper.apply (.routine h r) v lf rf l rr i c st g = match res with
      | .ok x => .ok (x.1.toNat % 2 ^ imageBits r.outF.toNat, x.2)
      | .error j => .error ⟨0x0D, j, true, none⟩) ∧
  (∀ (s : State) (cid : Nat) (e : Eng) (c : Cmd) (rest : List Cmd) (k : Nat) (o : Oper) (f : OpFun) (d : Tile), AtHead s cid e c rest → Working c →
    e = .vector ∨ e = .copy → ByRows c → c.prog.unit < rowsOf c → c.prog.reads.length = (sourcesOf c c.prog.unit).length → c.dt = some d →
    k < 12 → d.fmt = BitVec.ofNat 7 k → c.oper = some o → ¬indexed (BitVec.ofNat 8 o.handle) → IsFun o (c.env e) c.cv k f →
    let run := exec (.engineCommandRun cid e .clean) s
    let u := c.prog.unit
    let ws := c.prog.reads.map fun w => w.map fun x : Word => x.toNat % 2 ^ imageBits k
    let img := fun w : Word => w.toNat % 2 ^ imageBits k
    let app := fun (j x y : Nat) => match f x y (u * d.cols + j) with | .ok b => Except.ok b.1 | .error n => .error (routineFault o n (u * d.cols + j))
    let bad := fun j : Nat => Except.error (engineFault e 0x13 (u * d.cols + j))
    (∀ a b, c.at_ = some a → c.bt = some b → (∃ bc, c.op = .zip bc) ∨ c.op = .outer → a.fmt = d.fmt → b.fmt = d.fmt →
      ∃ t, run = .next t ∧ RowOf s t cid e c rest d ((List.range d.cols).map fun j =>
        match ws.getD (2 * j) none, ws.getD (2 * j + 1) none with | some x, some y => app j x y | _, _ => bad j)) ∧
    (∀ a, c.at_ = some a → c.op = .tcopy → a.fmt = d.fmt → ∃ t, run = .next t ∧ RowOf s t cid e c rest d ((List.range d.cols).map fun j =>
      match ws.getD j none with | some x => app j x (img c.cv) | none => bad j)) ∧
    (c.op = .tfill → ∃ t, run = .next t ∧ RowOf s t cid e c rest d ((List.range d.cols).map fun j => app j (img c.av) (img c.cv))) ∧
    (∀ a na (xs : List Nat), c.at_ = some a → c.av = 0 → a.fmt = d.fmt → a.cols ≠ 0 →
      let acc := if na then none else some (img c.bv)
      let els := (List.range xs.length).map fun j => (xs.getD j 0, u * a.cols + j)
      (c.op = .fold false na → ws = xs.map some → ∀ res, foldOf f o.cls acc els = some res → ∃ t, run = .next t ∧ RowOf s t cid e c rest d
        [match res with | .ok x => .ok x | .error n => .error (routineFault o n (u * d.cols))]) ∧
      (c.op = .fold false na → none ∈ ws → ∃ t, run = .next t ∧ RowOf s t cid e c rest d [bad 0]) ∧
      (∀ g : Nat → Nat → Nat → Nat, (∀ l r i, ∃ fl, f l r i = .ok (g l r i, fl)) → c.op = .scan na → a.cols = d.cols → ws = xs.map some →
        ∃ t, run = .next t ∧ RowOf s t cid e c rest d ((scanOf g o.cls acc els).map .ok)))) ∧
  (∀ (s : State) (cid : Nat) (e : Eng) (c : Cmd) (rest : List Cmd) (d a : Tile), AtHead s cid e c rest → Working c →
    e = .vector ∨ e = .copy → ByRows c → c.prog.unit < rowsOf c → c.prog.reads.length = (sourcesOf c c.prog.unit).length → c.dt = some d → c.at_ = some a →
    c.oper = none → c.op = .tcopy ∨ c.op = .txp → wholeBytes d → d.fmt.setWidth 6 = (a.fmt.setWidth 6 : BitVec 6) →
    ∃ t, exec (.engineCommandRun cid e .clean) s = .next t ∧ RowOf s t cid e c rest d ((List.range d.cols).map fun j =>
      match c.prog.reads.getD j none with | some x => .ok x.toNat | none => .error (engineFault e 0x13 (c.prog.unit * d.cols + j)))) ∧
  (∀ (s : State) (cid : Nat) (c : Cmd) (rest : List Cmd), AtHead s cid .matrix c rest → Working c →
    let run := exec (.engineCommandRun cid .matrix .clean) s
    let u := c.prog.unit
    let fails := fun outx => ∃ t, run = .next t ∧ t.mem = s.mem ∧ (t.core cid).mx = (s.core cid).mx ∧
      queueOf t cid .matrix = { c with prog := { c.prog with fault := some (engineFault .matrix 0x13 outx), reads := [], plan := [] } } :: rest
    (∀ arow acol clr d b, c.op = .mxdrain arow acol true clr → c.dt = some d → c.bt = some b → b.fmt = 5 → d.fmt = 5 → d.cmaj = false → u < d.rows →
      c.prog.reads.length = d.cols → c.oper = some (.builtin 240 5) → c.pfx = false → c.rnd = 1 →
      ∃ t, run = .next t ∧ RowOf s t cid .matrix c rest d ((List.range d.cols).map fun j =>
        match c.prog.reads.getD j none with
        | none => .error (engineFault .matrix 0x13 (u * d.cols + j))
        | some w =>
          let r := fAdd 5 rne (decodeF 5 (tget 0 (s.core cid).mx.acc (256 * (arow + u) + (acol + j))).toNat) (decodeF 5 (w.setWidth 32).toNat)
          if r.2.extractLsb' 1 5 &&& c.te = 0 then .ok r.1 else .error (routineFault (.builtin 240 5) 0 (u * d.cols + j)))) ∧
    (∀ arow clr a, c.op = .mxstrm arow clr → c.at_ = some a → a.fmt = 5 → u < a.rows → c.prog.reads.length = a.cols → none ∈ c.prog.reads → fails u) ∧
    (∀ sp a b, c.op = .mxldst sp → c.at_ = some a → c.bt = some b → u = 0 → c.prog.reads.length = 32 → none ∈ c.prog.reads → fails 0))

/-- The statements above together. -/
def Obligations.EngineCommandsRun : Prop := EngineSteps ∧ GlobalCommands ∧ TileCommands ∧ OperatorsAndFaults ∧ MatrixAndPyramidCommands

namespace Sys2Proof.Spec

/-- How a command ends: fault bit and cause of its status (R47, R224, R234). -/
def endOf (c : Cmd) : Bool × BitVec 8 :=
  if c.cancelled = true ∧ c.prog.began = false then (true, 0xFE) else match c.prog.fault with | some f => (true, f.1) | none => (false, 0)

/-- An engine completion word (type 0x01, Table 8.2): engine, cause, fault bit and sequence number. -/
def doneWordOf (c : Cmd) (e : Eng) : Word :=
  BitVec.ofNat 64 (1 * 2 ^ 56 + numberOf e * 2 ^ 48 + (endOf c).2.toNat * 2 ^ 40 + (if (endOf c).1 then 2 ^ 32 else 0) + c.seq % 2 ^ 32)

/-- An engine's word on its way from a core to a context: it is discarded where that context ends first (R195, R234). -/
def engineWordTo (n cid m : Nat) (w : Word) (engine : Bool) : NWord := { hwWordTo n cid m w with cmd := engine }

/-- A part of a crossing restrict (R272). -/
def restrictOf (p : Part) : Option (Bool × BitVec 4 × BitVec 4 × Tile) :=
  match p.cmd.op, p.cmd.dt with
  | .rstr _ shx m l _, some d => some (shx, m, l, d)
  | _, _ => none

/-- A participant governs an instance by its own mask: its child index is the lowest there (R275). -/
def lowestIn (k : Nat) (m : BitVec 4) : Prop := k < 4 ∧ m.getLsbD k = true ∧ ∀ j, j < k → m.getLsbD j = false

/-- A slot of a parent's pyramid port (R275): 0 for shape Q, 1 and 2 for shape X. -/
def slotOf (s : State) (parent slot : Nat) : RInst := tget RInst.init s.rinst (4 * parent + slot)

/-- A participant agrees with the governing one, and that one's mask names it (R275). -/
def agreesWith (mask lev : BitVec 4) (d : Tile) (p : Part) : Bool :=
  match restrictOf p with
  | some (_, m, l, x) => m = mask && l = lev && x.rows = d.rows && x.cols = d.cols && mask.getLsbD p.child
  | none => false

/-- The fault of a participant that does not (R275): engine fault, sub-cause reserved-field, the pyramid port. -/
def disagrees : BitVec 8 × Word := (0x0F, BitVec.ofNat 64 (0x02 * 2 ^ 56 + 4 * 2 ^ 53))

/-- A participant has read nine `f32` values for each coarse element, none poisoned, and has no routine. -/
def Delivers (d : Tile) (p : Part) : Prop :=
  p.cmd.prog.words.length = 9 * (d.rows * d.cols) ∧ none ∉ p.cmd.prog.words ∧ p.cmd.oper = none ∧ p.cmd.te = 0 ∧ p.cmd.pfx = false ∧
    ∃ a, p.cmd.at_ = some a ∧ a.fmt = 5
/-- Its partial for a coarse element (R274). -/
def partialAt (s : State) (p : Part) (q : Nat) : W32 :=
  match p.cmd.op with
  | .rstr w _ _ _ _ => partial9 (weightOf s p.cid w) (((p.cmd.prog.words.map fun x => x.getD 0).drop (9 * q)).take 9)
  | _ => 0

/-- The sum of partials in child order from the first one on (R276). -/
def sumOf : List W32 → W32 | [] => 0 | x :: l => l.foldl add32 x

end Sys2Proof.Spec

/-- A command that is over leaves the queue and the status register says how it ended; its issuer, where it still lives, gets the flags and, with `cm`, the
completion word, which waits for room where 64 hardware words are on the way; a fault is signalled instead, and cancels its issuer's commands
behind it: with one pending already the word is posted at once (the model's reading: log 40). A command that waits for room enters then, one of the lease's holder past a former holder's. The context
takes the fault's trap at its next group boundary, and then the word is posted. A parent's port combines an instance in child order once every
child that the governing participant names has come, their partials formed under its mode; a participant that disagrees with that one is left out, and ends with a fault (R195, R224,
R231–R234, R255–R257, R259, R274–R276, R278; what counts as disagreeing, and when such a participant ends, is the model's reading: log 41). -/
def Obligations.EngineCommandsEnd : Prop :=
  (∀ (s : State) (cid : Nat) (e : Eng) (c : Cmd) (rest : List Cmd), e ≠ .link → queueOf s cid e = c :: rest → (∀ d ∈ rest, d.prog.began = false) →
    (c.prog.done = true ∨ (c.cancelled = true ∧ c.prog.began = false)) → Posted s cid e → isolated s cid = false →
    let q0 := (s.core cid).eng.getD (numberOf e) EngSt.init
    (∀ m pc c0 px, q0.enter = [⟨m, some pc, c0, px⟩] → e ≠ .matrix → (∀ r b, c0.op ≠ .mxstrm r b) → rest.length < depth e → ∃ t c1 l,
      exec (.engineCommandCompletion cid e) s = .next t ∧ queueOf t cid e = l ++ [c1] ∧ l.length = rest.length ∧
      ((t.core cid).eng.getD (numberOf e) EngSt.init).enter = [] ∧ c1.seq = q0.next.toNat ∧ c1.op = c0.op ∧ c1.issuer = c0.issuer ∧ c1.prog = c0.prog ∧
      (t.ctx m).pc = pc ∧ (t.ctx m).wait = none) ∧
    (∀ x m pc c0 px, e = .matrix → q0.enter = [x, ⟨m, some pc, c0, px⟩] → (s.lease (quadBase cid)).holder = some m → x.who ≠ m →
      (s.lease (quadBase cid)).used + 1 < 64 → (∀ r b, c0.op ≠ .mxstrm r b) → rest.length < 4 → ∃ t c1 l,
      exec (.engineCommandCompletion cid e) s = .next t ∧ queueOf t cid e = l ++ [c1] ∧ l.length = rest.length ∧ c1.op = c0.op ∧
      c1.issuer = c0.issuer ∧ ((t.core cid).eng.getD 3 EngSt.init).enter = [x] ∧ (t.ctx m).pc = pc ∧ (t.ctx m).wait = none) ∧
    (q0.enter = [] → ∃ t, exec (.engineCommandCompletion cid e) s = .next t ∧ t.mem = s.mem ∧
      queueOf t cid e = (if c.prog.fault.isSome then
        rest.map (fun d => if d.issuer = c.issuer then { d with cancelled := true } else d) else rest) ∧
      (let q := (t.core cid).eng.getD (numberOf e) EngSt.init
       q.last.toNat = c.seq % 2 ^ 32 ∧ (q.fault, q.cause) = endOf c ∧ q.next = q0.next) ∧
      ((s.ctx c.issuer).gen ≠ c.gen → t.ctxs = s.ctxs ∧ t.net = s.net ∧ t.held = s.held) ∧
      ((s.ctx c.issuer).gen = c.gen →
        (t.ctx c.issuer).flags = (if c.nf then (s.ctx c.issuer).flags else (s.ctx c.issuer).flags ||| c.prog.flags) ∧
        (t.ctx c.issuer).x = (s.ctx c.issuer).x ∧
        (let faulted := c.prog.fault.isSome = true ∧ ¬(c.cancelled = true ∧ c.prog.began = false) ∧ (s.ctx c.issuer).pend = none ∧ (endOf c).2.toNat < 0xF0
         (¬faulted → (t.ctx c.issuer).pend = (s.ctx c.issuer).pend ∧
           (CanPost s c.issuer → t.held = s.held ∧
             t.net = s.net ++ (if c.cm then [engineWordTo s.mseq cid c.issuer (doneWordOf c e) true] else [])) ∧
           (¬CanPost s c.issuer → t.net = s.net ∧
             t.held = s.held ++ (if c.cm then [⟨.engine cid e, engineWordTo 0 cid c.issuer (doneWordOf c e) true, none⟩] else []))) ∧
         (faulted → ∀ k ti, c.prog.fault = some (k, ti) → t.net = s.net ∧ t.held = s.held ∧
           (t.ctx c.issuer).pend = some ⟨⟨k, ti⟩, c.words, if c.cm then some (doneWordOf c e) else none, .engine cid e⟩))))) ∧
  (∀ (m : Nat) (s : State) (f : EngFault), (s.ctx m).pend = some f → memWf s.mem = true →
    let takes := fun (out : List Acc) (pc : Word) => ∃ v t,
      TrapTaken (s.modCtx m fun c => { c with pend := none, out := out }) v m ⟨f.t, pc, f.cmd, 0⟩ false ∧
      exec (.engineFaultDelivery m) s = .next t ∧ (f.done = none → t = v) ∧
      ∀ w, f.done = some w →
        (CanPost v m → t = { v with net := v.net ++ [engineWordTo v.mseq (m / 16) m w f.by_.isEngine], mseq := v.mseq + 1 }) ∧
        (¬CanPost v m → t = { v with held := v.held ++ [⟨f.by_, engineWordTo 0 (m / 16) m w f.by_.isEngine, none⟩] })
    let holds := fun (a : Acc) => a.rlx = false ∧ ∀ v, a.kind ≠ .store v
    ((s.ctx m).run ≠ .running ∨ (s.ctx m).away ≠ none ∨ ((∃ a ∈ (s.ctx m).out, holds a) ∧ ∀ w, (s.ctx m).wait = some w → w.kind ≠ .fullWrite) →
      exec (.engineFaultDelivery m) s = .next s) ∧
    ((s.ctx m).run = .running → (s.ctx m).away = none →
      ((∀ a ∈ (s.ctx m).out, ¬holds a) → takes (s.ctx m).out (s.ctx m).pc) ∧
      (∀ a w, (s.ctx m).out = [a] → holds a → (s.ctx m).wait = some w → w.kind = .fullWrite → takes [] a.ipc))) ∧
  (∀ (parent slot : Nat) (s : State),
    let r := slotOf s parent slot
    (r.gov = none → (∀ g ∈ r.parts, ∀ x, restrictOf g = some x → ¬lowestIn g.child x.2.1) → exec (.restrictCombine parent slot) s = .next s) ∧
    (∀ g shx mask lev d, r.gov = none → g ∈ r.parts → restrictOf g = some (shx, mask, lev, d) → lowestIn g.child mask →
      (r.parts.map (·.child)).Pairwise (· < ·) →
      (∀ p ∈ r.parts, ∀ x, restrictOf p = some x → lowestIn p.child x.2.1 → g.child ≤ p.child) →
      ((∃ k, k < 4 ∧ mask.getLsbD k = true ∧ ∀ p ∈ r.parts, p.child ≠ k) → exec (.restrictCombine parent slot) s = .next s) ∧
      ((∀ k, k < 4 → mask.getLsbD k = true → ∃ p ∈ r.parts, p.child = k) →
        (∀ p ∈ r.parts, agreesWith mask lev d p = true → Delivers d p) →
        g.cmd.oper = none → g.cmd.te = 0 → g.cmd.pfx = false → d.fmt = 5 → d.cmaj = false → ∀ c rest, AtHead s g.cid .pyramid c rest → c.prog.began = true →
        ∃ t c', exec (.restrictCombine parent slot) s = .next t ∧ t.mem = s.mem ∧ queueOf t g.cid .pyramid = c' :: rest ∧
          (slotOf t parent slot).gov = some g.child ∧ (slotOf t parent slot).fault = none ∧
          pending c' = (List.range (d.rows * d.cols)).map fun q =>
            elemPiece d (q / d.cols) (q % d.cols) ((sumOf ((r.parts.filter (agreesWith mask lev d)).map fun p => partialAt s p q)).setWidth 64))) ∧
    (∀ g shx mask lev d c rest, r.gov = some g.child → g ∈ r.parts → restrictOf g = some (shx, mask, lev, d) → mask.getLsbD g.child = true →
      (r.parts.map (·.child)).Pairwise (· < ·) → AtHead s g.cid .pyramid c rest → c.prog.began = true →
      (c.prog.buf ≠ [] → exec (.restrictCombine parent slot) s = .next s) ∧
      (c.prog.buf = [] → (r.parts.map (·.cid)).Nodup → ∃ t, exec (.restrictCombine parent slot) s = .next t ∧ t.mem = s.mem ∧
        slotOf t parent slot = { RInst.init with num := r.num + 1, cnt := r.cnt } ∧
        ∀ p ∈ r.parts, ∀ c' rest', AtHead s p.cid .pyramid c' rest' → c'.prog.began = true →
          queueOf t p.cid .pyramid = (if agreesWith mask lev d p
            then { c' with prog := { c'.prog with
              done := true, fault := p.cmd.prog.fault.or (c.prog.fault.or r.fault), flags := p.cmd.prog.flags ||| c.prog.flags } }
            else { c' with prog := { c'.prog with
              done := true, fault := p.cmd.prog.fault.or (some disagrees), flags := p.cmd.prog.flags } }) :: rest')) ∧
  (∀ (s : State) (g p : Part), g.agrees p = true → p.cmd.dt ≠ none → p.cmd.at_ ≠ none →
    (p.deliver s g).parts = (Part.deliver s g { p with cmd := { p.cmd with rnd := g.cmd.rnd } }).parts))

/-! ## Puts, counter blocks, armed puts and watches -/

namespace Sys2Proof.Spec

/-- A counter DVA: 16-aligned, or all ones for none (R281, R282, Table 10.10). -/
def ctrField (v : Word) : Prop := v = BitVec.allOnes 64 ∨ (v.toNat < 2 ^ 48 ∧ v.toNat % 16 = 0)

/-- The field of an arm record at an offset fits Table 10.10. -/
def armFieldOk (f : List Byte) (off : Nat) : Prop :=
  let w := dwordOf f off
  let h : BitVec 8 := (dwordOf f 56).setWidth 8
  if off = 0 ∨ off = 32 then w.toNat < 2 ^ 48 ∧ w.toNat % 16 = 0
  else if off = 8 then (w.setWidth 16 : BitVec 16) ≠ 0 ∧ (w.setWidth 4 : BitVec 4) = 0 ∧ (w.extractLsb' 16 16 : BitVec 16) ≠ 0 ∧ w.extractLsb' 36 28 = 0 ∧
    (h ≠ 0 → (w.extractLsb' 32 4).toNat ≤ 12)
  else if off = 16 then w.extractLsb' 60 4 = 0
  else if off = 24 then ctrField w
  else if off = 40 then w.toNat < 2 ^ 48
  else if off = 56 then (h = 0 ∨ h = 240 ∨ h = 242 ∨ h = 243) ∧ w.extractLsb' 27 37 = 0
  else True

/-- An armed put is the record's (R284, Table 10.10). -/
def ArmedFrom (f : List Byte) (a : ArmPut) : Prop :=
  a.src = (dwordOf f 0).toNat ∧ a.lineB = ((dwordOf f 8).setWidth 16).toNat ∧ a.lines = ((dwordOf f 8).extractLsb' 16 16).toNat ∧
    a.fmt = (dwordOf f 8).extractLsb' 32 4 ∧ a.dst = dwordOf f 16 ∧
    a.ctr = (if dwordOf f 24 = BitVec.allOnes 64 then none else some (dwordOf f 24).toNat) ∧ a.local_ = (dwordOf f 32).toNat ∧
    a.thresh = (dwordOf f 40).toNat ∧ a.deadline = (if dwordOf f 48 = BitVec.allOnes 64 then none else some (dwordOf f 48).toNat) ∧
    a.h = (dwordOf f 56).setWidth 8 ∧ a.tag = (dwordOf f 56).extractLsb' 8 16 ∧ a.cm = (dwordOf f 56).getLsbD 24 ∧
    a.ln = (dwordOf f 56).getLsbD 25 ∧ a.rs = (dwordOf f 56).getLsbD 26

/-- `count` of a counter block at a physical address of a page (Table 10.9). -/
def countAt (s : State) (pa : Nat) (g : Page) : Nat := numAt s [(pa, 8, g)] % 2 ^ 48
/-- `step`. -/
def stepAt (s : State) (pa : Nat) (g : Page) : Nat := numAt s [(pa, 8, g)] / 2 ^ 48 % 2 ^ 16
/-- `late`. -/
def lateAt (s : State) (pa : Nat) (g : Page) : Nat := numAt s [(pa + 8, 8, g)]
/-- The block holds nothing that another key wrote (Table 1.5). -/
def OwnKey (s : State) (pa : Nat) (g : Page) : Prop := ∀ k t, g.key = some k → tagOf s.keyed (pa / 16) = some t → t.key = k

/-- The block that a counter DVA names in a partition: found by a walk for a write, and no word of it poisoned (R281, R391). -/
def CounterAt (s : State) (part : BitVec 4) (sec : Bool) (dva pa : Nat) (g : Page) : Prop :=
  walkPa s part sec .write dva = .ok (pa, g) ∧ ¬Poisoned s pa 16

/-- The link command that a put of a core came from is the one that its link engine runs (R233, R283), and no reset holds the core. -/
def Runs (s : State) (m : PutMsg) (c : Cmd) : Prop :=
  ∃ cid, m.cid = some cid ∧ queueOf s cid .link = [c] ∧ c.prog.began = true ∧ isolated s cid = false

/-- A record's put is due as it is armed: its counter's count has reached the threshold, or global time the deadline (R285). -/
def DueAtOnce (s : State) (part : BitVec 4) (sec : Bool) (f : List Byte) : Prop :=
  (∃ pa g, CounterAt s part sec (dwordOf f 32).toNat pa g ∧ (dwordOf f 40).toNat ≤ countAt s pa g) ∨
  (dwordOf f 48 ≠ BitVec.allOnes 64 ∧ (dwordOf f 48).toNat ≤ s.gtime)

/-- The command of an armed put (R285). -/
def ArmedCmd (a : ArmPut) (c : Cmd) : Prop :=
  c.op = .armed a.src a.lineB a.lines a.fmt a.dst a.ctr a.h a.tag a.ln a.deadline ∧ c.issuer = a.issuer ∧ c.cm = a.cm ∧ c.prog = Prog.init 0 0

/-- The put is over: it is off the network and its command is done, with a fault or without one (R255, R283). -/
def PutOver (s t : State) (i : Nat) (m : PutMsg) (c : Cmd) (fault : Option (BitVec 8 × Word)) : Prop :=
  t.puts = s.puts.eraseIdx i ∧ ∀ cid, m.cid = some cid →
    queueOf t cid .link = [{ c with prog := { c.prog with done := true, fault := fault.or c.prog.fault } }]

/-- Nothing watches a block, and no armed put waits for it. -/
def Unwatched (s : State) (pa : Nat) : Prop :=
  (∀ w ∈ (s.core (channelCore s.minimal (paChannel s.minimal pa))).watches, w.pa ≠ pa) ∧ ∀ x ∈ s.cores, x.2.armput = []

/-- Lines of a put lie at its DVA, 16-byte aligned one behind the other (R282). -/
def lineDva (p : InPut) (u : Nat) : Nat := p.dva + u * (16 * ((p.lineB + 15) / 16))

end Sys2Proof.Spec

/-- `putarm` copies a record that fits Table 10.10 and names the offset of the first field that does not, and fires it at once where it is due; `cntw`
sets a watch, or posts its notice at once; an armed put fires when its counter's count or global time is reached, and enters its engine's queue or waits
for room there; a put's lines land in order, a late reduce put is counted and not applied, and the counter's count rises once all has been performed at
every copy; a put that cannot be delivered ends with cause 0xFD, and a repeated flit changes nothing that a program sees (R281–R286, R419–R421). -/
def Obligations.PutsAndCounters : Prop :=
  (∀ (t : T64) (s s1 s2 : State) (o : Word) (f : List Byte), s.me.migrant = false → readReg t.a s = .ok o s1 → Settled s1 →
    readBlock (t.f.toNat % 8) o.toInt ⟨64, 16, 16, [8], [0, 1, 2, 3], 21, .read⟩ s1 = .ok f s2 →
    (∀ off, off ∈ [0, 8, 16, 24, 32, 40, 56] → ¬armFieldOk f off → (∀ k, k < off → armFieldOk f k) →
      exec (.putarm t) s = .next (takeTrap ⟨0x02, BitVec.ofNat 64 off⟩ s)) ∧
    ((∀ k, armFieldOk f k) → t.d.toNat < 24 → s2.me.awaits t.d.toNat = false →
      let old := (s2.core (s.cur / 16)).armput
      ((∀ n, n < 16 → ∃ a ∈ old, a.num = n) → exec (.putarm t) s = .next (after 8 s (s2.modMe fun c => c.setReg t.d.toNat (BitVec.allOnes 64)))) ∧
      ((∃ n, n < 16 ∧ ∀ a ∈ old, a.num ≠ n) → ∃ a u, exec (.putarm t) s = .next u ∧ a.num < 16 ∧ (∀ b ∈ old, b.num ≠ a.num) ∧ ArmedFrom f a ∧
        a.issuer = s.cur ∧ a.part = s.me.part ∧ u.me.reg t.d.toNat = BitVec.ofNat 64 a.num ∧
        u.me.pc = s.me.pc + BitVec.ofNat 64 (4 * s.grp.n + 8) ∧
        (¬DueAtOnce s2 s.me.part s.me.sec f → (u.core (s.cur / 16)).armput = old ++ [a] ∧ u.mem = s2.mem) ∧
        (DueAtOnce s2 s.me.part s.me.sec f → queueOf s2 (s.cur / 16) .link = [] → ((s2.core (s.cur / 16)).eng.getD 5 EngSt.init).enter = [] →
          (u.core (s.cur / 16)).armput = old ∧ (a.rs = false → u.mem = s2.mem) ∧ ∃ c, queueOf u (s.cur / 16) .link = [c] ∧ ArmedCmd a c)))) ∧
  (∀ (t : T64) (s s1 s2 s3 s3' s4 : State) (o v : Word) (p : Spot), s.me.migrant = false → readReg t.a s = .ok o s1 →
    readReg t.b s1 = .ok v s2 → Settled s2 →
    checkAccess (t.f.toNat % 8) o.toInt ⟨16, 16, [8], [2], 22, .read⟩ false s2 = .ok p s3 → atPiece p s3 = .ok () s3' →
    payBlock [p] s3' = .ok () s4 → Config.isHbm p.home.loc = true →
    let pa := p.home.loc
    let g := (p.home.headD (0, 0, .plain)).2.2
    let own := channelCore s4.minimal (paChannel s4.minimal pa)
    let old := (s4.core own).watches
    let thr := (v.setWidth 48).toNat
    (Poisoned s4 pa 8 → exec (.cntw t) s = .next (takeTrap ⟨0x13, p.info⟩ s)) ∧
    (¬Poisoned s4 pa 8 → t.d.toNat < 24 → s4.me.awaits t.d.toNat = false → (∀ w ∈ old, w.pa ≠ pa) →
      ((∀ n, n < 64 → ∃ w ∈ old, w.num = n) → exec (.cntw t) s = .next (after 8 s (s4.modMe fun c => c.setReg t.d.toNat (BitVec.allOnes 64)))) ∧
      ((∃ n, n < 64 ∧ ∀ w ∈ old, w.num ≠ n) → ∃ n u, exec (.cntw t) s = .next u ∧ n < 64 ∧ (∀ w ∈ old, w.num ≠ n) ∧ u.me.reg t.d.toNat = BitVec.ofNat 64 n ∧
        u.mem = s4.mem ∧ u.me.pc = s.me.pc + BitVec.ofNat 64 (4 * s.grp.n + 8) ∧
        (countAt s4 pa g < thr → (u.core own).watches = old ++ [⟨n, pa, g, thr, s.cur⟩] ∧ u.net = s4.net) ∧
        (thr ≤ countAt s4 pa g → (u.core own).watches = old ∧
          Goes s4 u own s.cur (BitVec.ofNat 64 (11 * 2 ^ 56 + n * 2 ^ 48 + countAt s4 pa g)))))) ∧
  (∀ (cid n : Nat) (s : State) (a : ArmPut) (pa : Nat) (g : Page), a ∈ (s.core cid).armput → a.num = n → ((s.core cid).armput.map (·.num)).Nodup →
    CounterAt s a.part (s.ctx a.issuer).sec a.local_ pa g → memWf s.mem = true →
    (countAt s pa g < a.thresh → (∀ d, a.deadline = some d → s.gtime < d) → exec (.armedPutDeadlineFire cid n) s = .next s) ∧
    (a.thresh ≤ countAt s pa g ∨ (∃ d, a.deadline = some d ∧ d ≤ s.gtime) →
      let q := (s.core cid).eng.getD 5 EngSt.init
      ∃ t c, exec (.armedPutDeadlineFire cid n) s = .next t ∧ (t.core cid).armput = (s.core cid).armput.filter (fun b => b.num ≠ n) ∧ ArmedCmd a c ∧
        (q.queue.length < 8 → q.enter = [] → queueOf t cid .link = q.queue ++ [c] ∧ c.seq = q.next.toNat) ∧
        (8 ≤ q.queue.length ∨ q.enter ≠ [] → queueOf t cid .link = q.queue ∧ ((t.core cid).eng.getD 5 EngSt.init).enter = q.enter ++ [⟨a.issuer, none, c, 0⟩]) ∧
        (a.rs = false → t.mem = s.mem) ∧ (a.rs = true → countAt t pa g = 0 ∧ stepAt t pa g = (stepAt s pa g + 1) % 2 ^ 16 ∧
          (OwnKey s pa g → lateAt t pa g = lateAt s pa g)) ∧
        ∀ x, x < pa ∨ pa + 8 ≤ x → memGet t.mem x = memGet s.mem x)) ∧
  (∀ (i : Nat) (s : State) (m : PutMsg) (c : Cmd) (r : Remote), s.puts[i]? = some m → Runs s m c → memWf s.mem = true → NoArmedPut s →
    let p := m.p
    (m.dev = s.devNum →
      (∀ pa rep, p.h = 0 → p.lineB % 8 = 0 → p.dva % 8 = 0 → m.pos < p.data.length * (p.lineB / 8) →
        let u := m.pos / (p.lineB / 8)
        let off := 8 * (m.pos % (p.lineB / 8))
        walkPa s (BitVec.ofNat 4 p.part) m.sec .write (lineDva p u + off) = .ok (pa, rep) → (p.data.getD u []).length = p.lineB →
        ∃ t, exec (.putArrival (.own i r)) s = .next t ∧ t.puts = s.puts.set i { m with judged := true, pos := m.pos + 1 } ∧
          readBytes t [(pa, 8, rep)] = ((p.data.getD u []).drop off).take 8 ∧
          ∀ x, x < pa ∨ pa + 8 ≤ x → memGet t.mem x = memGet s.mem x) ∧
      (∀ pa rep, p.h = 240 → p.fmt = 5 → m.judged = true ∨ p.ctr = none → p.lineB % 4 = 0 → p.dva % 4 = 0 → m.pos < p.data.length * (p.lineB / 4) →
        let u := m.pos / (p.lineB / 4)
        let off := 4 * (m.pos % (p.lineB / 4))
        let line := p.data.getD u []
        walkPa s (BitVec.ofNat 4 p.part) m.sec .write (lineDva p u + off) = .ok (pa, rep) → line.length = p.lineB → ¬Poisoned s pa 4 →
        ∃ t, exec (.putArrival (.own i r)) s = .next t ∧ t.puts = s.puts.set i { m with judged := true, pos := m.pos + 1 } ∧
          BitVec.ofNat 32 (numAt t [(pa, 4, rep)]) = add32 (BitVec.ofNat 32 (numAt s [(pa, 4, rep)])) ((dwordOf line off).setWidth 32) ∧
          ∀ x, x < pa ∨ pa + 4 ≤ x → memGet t.mem x = memGet s.mem x) ∧
      (∀ pa dva g, p.h ≠ 0 → m.judged = false → p.ctr = some dva → CounterAt s (BitVec.ofNat 4 p.part) m.sec dva pa g →
        pa % 16 = 0 → Unwatched s pa → 1 ≤ (stepAt s pa g + 2 ^ 16 - p.tag.toNat) % 2 ^ 16 → (stepAt s pa g + 2 ^ 16 - p.tag.toNat) % 2 ^ 16 ≤ 32767 →
        ∃ t, exec (.putArrival (.own i r)) s = .next t ∧ PutOver s t i m c none ∧ lateAt t pa g = (lateAt s pa g + 1) % 2 ^ 64 ∧
          (∀ x, x < pa + 8 ∨ pa + 16 ≤ x → memGet t.mem x = memGet s.mem x) ∧
          (p.ln = false → t.net = s.net ∧ t.held = s.held) ∧
          (p.ln = true → ∀ cid, m.cid = some cid →
            Goes s t cid p.issuer (BitVec.ofNat 64 (12 * 2 ^ 56 + p.tag.toNat * 2 ^ 32 + stepAt s pa g * 2 ^ 16 + s.devNum % 2 ^ 12)))) ∧
      (p.ctr = none → m.judged = true ∨ p.h = 0 → m.pos = p.data.length * (p.lineB / 8) → p.h = 0 → p.lineB % 8 = 0 → p.dva % 8 = 0 →
        ∃ t, exec (.putArrival (.own i r)) s = .next t ∧ PutOver s t i m c none ∧ t.mem = s.mem)) ∧
    (m.dev ≠ s.devNum → m.judged = false →
      (∀ sub dva, ∃ t, exec (.putArrival (.own i (.failed sub dva))) s = .next t ∧ t.mem = s.mem ∧ PutOver s t i m c
        (some (0x0F, BitVec.ofNat 64 (sub.toNat * 2 ^ 56 + 5 * 2 ^ 53 + 2 ^ 52 + dva % 2 ^ 48)))) ∧
      (p.ctr = none → ∃ t, exec (.putArrival (.own i .applied)) s = .next t ∧ t.mem = s.mem ∧ PutOver s t i m c none) ∧
      (∀ step : BitVec 16, p.h ≠ 0 → p.ctr ≠ none → ∃ t, exec (.putArrival (.own i (.late step))) s = .next t ∧ t.mem = s.mem ∧ PutOver s t i m c none ∧
        (p.ln = true → ∀ cid, m.cid = some cid →
          Goes s t cid p.issuer (BitVec.ofNat 64 (12 * 2 ^ 56 + p.tag.toNat * 2 ^ 32 + step.toNat * 2 ^ 16 + m.dev % 2 ^ 12)))) ∧
      (∃ t, exec (.putUndeliverable i) s = .next t ∧ t.mem = s.mem ∧ PutOver s t i m c (some (0xFD, 0))))) ∧
  (∀ (i : Nat) (s : State) (m : PutMsg) (c : Cmd) (dva pa : Nat) (g : Page), s.puts[i]? = some m → Runs s m c → memWf s.mem = true → m.dev = s.devNum →
    m.p.ctr = some dva → m.p.h = 0 → m.p.lineB % 8 = 0 → m.p.dva % 8 = 0 → m.short = false →
    CounterAt s (BitVec.ofNat 4 m.p.part) m.sec dva pa g → pa % 16 = 0 → Unwatched s pa →
    (m.pos < m.p.data.length * (m.p.lineB / 8) ∨ (∃ x ∈ s.props, x.put = some m.num) → exec (.putCounterIncrement i) s = .next s) ∧
    (m.pos = m.p.data.length * (m.p.lineB / 8) → (∀ x ∈ s.props, x.put ≠ some m.num) →
      ∃ t, exec (.putCounterIncrement i) s = .next t ∧ PutOver s t i m c none ∧ countAt t pa g = (countAt s pa g + 1) % 2 ^ 48 ∧ stepAt t pa g = stepAt s pa g ∧
        ∀ x, x < pa ∨ pa + 8 ≤ x → memGet t.mem x = memGet s.mem x)) ∧
  (∀ (link : Nat) (s : State), exec (.linkFlitRetry link) s = .next (if link < 16 then { s with retries := tset s.retries link (tget 0 s.retries link + 1) } else s))

/-! ## Launches, the front door and the host -/

namespace Sys2Proof.Spec

/-- Word `i` of a record. -/
def rw (r : List Word) (i : Nat) : Word := r.getD i 0
/-- The hint core of a record (Table 19.2). -/
def hintOf (r : List Word) : Nat :=
  ((rw r 0).extractLsb' 8 2).toNat * 2 ^ 14 + ((rw r 0).extractLsb' 10 6).toNat * 2 ^ 8 + ((rw r 0).extractLsb' 16 5).toNat * 2 ^ 3
/-- The class of a record. -/
def classOf (r : List Word) : BitVec 2 := (rw r 0).extractLsb' 4 2

/-- A record is invalid for a partition whose source may (`sec`) or may not use the secure world (R367, R368). -/
def RecordBad (s : State) (p : Nat) (sec : Bool) (r : List Word) : Prop :=
  (rw r 0).extractLsb' 39 25 ≠ 0 ∨ (rw r 0).extractLsb' 21 11 ≠ 0 ∨ (rw r 1).extractLsb' 48 16 ≠ 0 ∨ (rw r 3).extractLsb' 32 32 ≠ 0 ∨ rw r 7 ≠ 0 ∨
    (rw r 1).setWidth 2 ≠ (0 : BitVec 2) ∨ (rw r 3) = 0 ∨ cidValid s.minimal (hintOf r) = false ∨ coreIn s p (hintOf r) = false ∨
    ((rw r 0).getLsbD 6 = true ∧ sec = false) ∨
    (rw r 6 ≠ BitVec.allOnes 64 ∧ ¬(TaskOk s (rw r 6) ∧ coreIn s p (taskCid (rw r 6)) = true))

/-- Entries of a partition in the store, reserved ones or pool ones. -/
def held (s : State) (p : Nat) (pool : Bool) : Nat := (s.store.filter fun l => l.part.toNat = p ∧ l.pool = pool).length
/-- The entry that a record of a class takes (R369): `some false` a reserved one, `some true` one of the pool, none where the store is full for
it. -/
def entryFor (s : State) (p : Nat) (cls : BitVec 2) : Option Bool :=
  if cls = 0 ∧ held s p false < 192 then some false else if held s p false < 176 then some false
  else if (s.store.filter fun l => l.pool = true).length < 1024 ∧ held s p true < (s.part p).shcap then some true else none

/-- The launch that a record describes, with its numbers (R367, R370). -/
def launchFrom (s : State) (p : Nat) (pool : Bool) (r : List Word) : Launch where
  seq := s.lseq
  lnum := (s.part p).lnum
  part := BitVec.ofNat 4 p
  cls := classOf r
  sec := (rw r 0).getLsbD 6
  chn := (rw r 0).getLsbD 7
  hint := hintOf r
  radius := ((rw r 0).extractLsb' 32 7).toNat
  entry := rw r 1
  arg := rw r 2
  items := (rw r 3).toNat
  deadline := if rw r 4 = BitVec.allOnes 64 then none else some (rw r 4).toNat
  seed := rw r 5
  ctr := rw r 6
  nextI := 0
  back := []
  posted := 0
  pool := pool
  counted := decide (rw r 6 = BitVec.allOnes 64)

/-- A launch has been admitted (R370): its entry, the two counts, and the `tkset` of its counter, in its place in send order. -/
def Admitted (s t : State) (p : Nat) (r : List Word) : Prop :=
  ∃ pool, entryFor s p (classOf r) = some pool ∧ t.store = s.store ++ [launchFrom s p pool r] ∧ t.lseq = s.lseq + 1 ∧
    (t.part p).lnum = (s.part p).lnum + 1 ∧
    t.cops = s.cops ++ (if rw r 6 = BitVec.allOnes 64 then []
      else [⟨2 ^ 20 + s.lseq, taskCid (rw r 6), taskOff (rw r 6), .set ((rw r 3).setWidth 32), 0, s.mseq⟩])

/-- A launch that can emit: it has an unemitted item, and its counter has been set (R370, R372). -/
def Emits (l : Launch) : Prop := (l.back ≠ [] ∨ l.nextI < l.items) ∧ l.counted = true

/-- The order of choice (R372): the lower class, the earlier deadline with none last, the lower admission sequence. -/
def Earlier (a b : Launch) : Prop :=
  a.cls < b.cls ∨ (a.cls = b.cls ∧
    ((∃ x, a.deadline = some x ∧ (b.deadline = none ∨ ∃ y, b.deadline = some y ∧ x < y)) ∨ (a.deadline = b.deadline ∧ a.seq < b.seq)))

/-- The launch that a slot chooses (R372). -/
def Chosen (s : State) (slot : Nat) (l : Launch) : Prop :=
  let owner := (List.range 16).find? fun p => (s.part p).c0slots.testBit slot
  let mine := fun (x : Launch) => owner = some x.part.toNat ∧ x.cls = 0
  l ∈ s.store ∧ Emits l ∧
    ((mine l ∧ ∀ x ∈ s.store, Emits x → mine x → x = l ∨ Earlier l x) ∨
      ((∀ x ∈ s.store, Emits x → ¬mine x) ∧ ∀ x ∈ s.store, Emits x → x = l ∨ Earlier l x))

/-- A launch without its lowest unemitted item: an item that came back lies below those never emitted. -/
def lessOne (l : Launch) : Launch := match l.back with | _ :: r => { l with back := r } | [] => { l with nextI := l.nextI + 1 }
/-- The lowest unemitted item. -/
def lowest (l : Launch) : Nat := l.back.headD l.nextI

/-- The cores that the items of a launch visit, in order (R373). -/
def visits (s : State) (l : Launch) : List Nat :=
  ((List.range (l.radius + 1)).flatMap fun d => (layerCores s.minimal (cidLayer l.hint)).filter fun c => hops l.hint c = d).filter fun c =>
    coreIn s l.part.toNat c && blockSecure s l.part.toNat c = l.sec && ((cornerOf c).isNone || l.chn)

/-- The five words of an item (R377, Table 19.3): the first `k` are posted, in their places in send order, and the rest wait for room (R195, R410);
the item counts with the first of them. -/
def fiveWords (n k cid : Nat) (it : Item) : List NWord × List Held :=
  let vs : List Word := [0x05#8 ++ it.cls ++ BitVec.ofBool it.sec ++ 0#1 ++ it.part ++ it.lnum ++ BitVec.ofNat 32 it.item, it.entry, it.arg, it.seed, it.ctr]
  let w := fun (i n : Nat) => NWord.mk (16 * cid + 15) (16 * cid) true (vs.getD i 0) (i + 1) 0 n false
  ((List.range k).map fun i => w i (n + i), ((List.range 5).drop k).map fun i => ⟨.items cid, w i 0, if i = 0 then some it else none⟩)

/-- How many of an item's words are posted at once (R195). -/
def roomFor (s : State) (cid : Nat) : Nat :=
  if s.held.any (fun h => h.w.dst = 16 * cid) then 0
  else min 5 (64 - ((s.net.filter fun w => w.hw && w.dst = 16 * cid).length + (s.ingress.filter fun w => w.hw && w.dst = 16 * cid).length))

/-- A core may take an item (R293): context 0 is spawned, claims are fewer than the eligible idle contexts, and the words of the item before have
been posted. -/
def Takes (s : State) (cid : Nat) (it : Item) : Prop :=
  (s.ctx (16 * cid)).run ≠ .unspawned ∧ (s.core cid).claims < eligible s it.part.toNat cid it.cls.toNat ∧ ∀ h ∈ s.held, h.by_ ≠ .items cid

/-- The space notice of a waiting `lnch` (R371, R287). -/
def spaceNoticeOf (n : Nat) (w : SpaceWait) (p : BitVec 4) : NWord :=
  hwWordTo n (3 * 2 ^ 14) w.who (BitVec.ofNat 64 (10 * 2 ^ 56 + w.tag.toNat * 2 ^ 8 + p.toNat))

/-- An item counts as posted (R371, R377): its launch has one more, and with the last one its entry frees and the oldest waiting `lnch` of the
partition is told, or the dispatcher keeps that notice while there is no room for it (R195). -/
def Counted (s t : State) (it : Item) : Prop :=
  (s.store.find? (fun x => x.seq = it.seq) = none → t = s) ∧
  ∀ l, s.store.find? (fun x => x.seq = it.seq) = some l →
    (l.posted + 1 < l.items → t = { s with store := s.store.map fun x => if x.seq = it.seq then { x with posted := x.posted + 1 } else x }) ∧
    (l.items ≤ l.posted + 1 →
      let freed := { s with store := s.store.filter fun x => x.seq ≠ it.seq }
      (s.spaceq.find? (fun x => x.part = l.part) = none → t = freed) ∧
      ∀ w, s.spaceq.find? (fun x => x.part = l.part) = some w →
        let told := { freed with spaceq := s.spaceq.erase w }
        (CanPost s w.who → t = { told with net := s.net ++ [spaceNoticeOf s.mseq w l.part], mseq := s.mseq + 1 }) ∧
        (¬CanPost s w.who → t = { told with held := s.held ++ [⟨.dispatcher, spaceNoticeOf 0 w l.part, none⟩] }))

/-- A core takes an item (R293, R377): one claim more, its words posted while there is room, and the item counted once the first of them is. -/
def TakenBy (s t : State) (cid : Nat) (it : Item) : Prop :=
  let k := roomFor s cid
  let five := fiveWords s.mseq k cid it
  let u := { s with net := s.net ++ five.1, held := s.held ++ five.2, mseq := s.mseq + k }.modCore cid fun c => { c with claims := c.claims + 1 }
  (k = 0 → t = u) ∧ (0 < k → Counted u t it)

/-- The item that a core takes next from its overflow queue, of those whose walk names it: the oldest of class 0, and otherwise the oldest (R375). -/
def NextQueued (s : State) (cid : Nat) (it : Item) : Prop :=
  let q := (s.core cid).ovf.filter fun x => x.walk.elem cid
  q.find? (fun x => x.cls = 0) = some it ∨ (q.find? (fun x => x.cls = 0) = none ∧ q.head? = some it)

/-- A core takes from its overflow queue for as long as it may take what is next there (R375). -/
def Drained (cid : Nat) (s t : State) : Prop :=
  ∃ l : List State, l.head? = some s ∧ l.getLast? = some t ∧
    (∀ k a b, l[k]? = some a → l[k + 1]? = some b → ∃ it, NextQueued a cid it ∧ Takes a cid it ∧
      TakenBy (a.modCore cid fun c => { c with ovf := c.ovf.erase it }) b cid it) ∧
    ∀ it, NextQueued t cid it → ¬Takes t cid it

/-- Who sends an item on the piece of its way that it is on, and to which core (R373). -/
def legOf (it : Item) : Nat × Nat :=
  (if it.pos = 0 then 16 * dispatcherCid + 15 else 16 * it.walk.getD (it.pos - 1) it.hint + 15, it.walk.getD it.pos it.hint)

/-- A core has considered, in this cycle, an item that comes after this one in the order of admission sequence and item index (R374). -/
def Behind (s : State) (cid : Nat) (it : Item) : Prop :=
  let x := (s.core cid).considered
  x.1 = s.cycles (cidLayer cid) ∧ (it.seq < x.2.1 ∨ (it.seq = x.2.1 ∧ it.item < x.2.2))

/-- A core considers an item (R374). -/
def considers (s : State) (cid : Nat) (it : Item) : State :=
  s.modCore cid fun k => { k with considered := (s.cycles (cidLayer cid), it.seq, it.item) }

/-- What a front-door port does with a record (R368, R379, R380). -/
def FrontDoor (s t : State) (p : Nat) (sec : Bool) (r : List Word) : Prop :=
  let q := s.part p
  let full := classOf r = 0 ∧ q.c0rate % 2 ^ 16 ≤ q.c0seen
  (RecordBad s p sec r → t = s.modPart p fun x => { x with ninv := (x.ninv + 1) % 2 ^ 64 }) ∧
  (¬RecordBad s p sec r → full → t = s.modPart p fun x => { x with nrate := (x.nrate + 1) % 2 ^ 64 }) ∧
  (¬RecordBad s p sec r → ¬full → entryFor s p (classOf r) = none → t = s.modPart p fun x => { x with nfull := (x.nfull + 1) % 2 ^ 64 }) ∧
  (¬RecordBad s p sec r → ¬full → entryFor s p (classOf r) ≠ none → Admitted s t p r ∧
    (t.part p).c0seen = q.c0seen + (if classOf r = 0 then 1 else 0))

/-- The bytes of a frame on its link: two addresses and the EtherType, the tag, the payload with its padding, and the check sequence. -/
def frameLength (fr : Frame) : Nat := 6 + 6 + 2 + (if fr.vlan = none then 0 else 4) + fr.payload.length + 4

/-- Records of a ring (Table 21.6). -/
def ringSize (g : Ring) : Nat := 2 ^ ((g.ctl.setWidth 4).toNat + 6)
/-- A ring is enabled and holds a record not yet fetched (R381). -/
def Waiting (g : Ring) : Prop := (g.ctl.setWidth 4).toNat ≤ 10 ∧ g.head.toNat % ringSize g ≠ g.tail.toNat % ringSize g
/-- A partition's ring. -/
def ringOf (q : Partition) (secure : Bool) : Ring := if secure then q.ring1 else q.ring0
/-- A partition with a ring replaced. -/
def withRing (q : Partition) (secure : Bool) (g : Ring) : Partition := if secure then { q with ring1 := g } else { q with ring0 := g }
/-- A link is up. -/
abbrev up (s : State) (link : Nat) : Prop := (link = 0 ∧ s.link0 = true) ∨ (link = 1 ∧ s.link1 = true)

end Sys2Proof.Spec

/-- `lnch` answers 0 for a record that is admitted, 1 where the store is full for it and 2 for an invalid one; a slot emits the lowest unemitted item of the
launch that R372 chooses, with the walk that it keeps; a core considers the items that reach it in a cycle in order; an item is taken by the first
core of its walk that may take it, which posts its five words, and otherwise enters the overflow queue of its hint core; a core takes from its queue
whenever it may, also once the words of the item before have gone out; an item counts as posted when its first word is (R195, R287, R293,
R367–R377, R385, R410; that an item which comes out of order waits for the core's next cycle is the model's reading: log 56). -/
def Obligations.LaunchesRun : Prop :=
  (∀ (t : T64) (s s1 s2 : State) (o : Word) (f : List Byte), s.me.migrant = false → readReg t.a s = .ok o s1 → Settled s1 →
    readBlock (t.f.toNat % 8) o.toInt ⟨64, 16, 16, [8], [0, 1, 2, 3], 20, .read⟩ s1 = .ok f s2 → t.d.toNat < 24 → s2.me.awaits t.d.toNat = false →
    Released s2 →
    let p := s.me.part.toNat
    let r := (List.range 8).map fun i => dwordOf f (8 * i)
    let bad := RecordBad s2 p s.me.sec r
    let full := ¬bad ∧ entryFor s2 p (classOf r) = none
    ∃ u, exec (.lnch t) s = .next u ∧ u.mem = s2.mem ∧ u.net = s2.net ∧ u.me.pc = s.me.pc + BitVec.ofNat 64 (4 * s.grp.n + 8) ∧
      (∀ n, n < 24 → n ≠ t.d.toNat → u.me.reg n = s2.me.reg n) ∧
      (bad → u.me.reg t.d.toNat = 2 ∧ u.store = s2.store ∧ u.spaceq = s2.spaceq ∧ u.cops = s2.cops) ∧
      (full → u.me.reg t.d.toNat = 1 ∧ u.store = s2.store ∧ u.cops = s2.cops ∧ u.spaceq = s2.spaceq ++
        (if t.w1.getLsbD 0 then [⟨s.me.part, s.cur, t.w1.extractLsb' 8 8⟩] else [])) ∧
      (¬bad → ¬full → u.me.reg t.d.toNat = 0 ∧ Admitted s2 u p r ∧ u.spaceq = s2.spaceq)) ∧
  (∀ (s : State), (s.store.map (·.seq)).Nodup →
    let slot := s.cycles 3 / 4
    (slot < s.eslot ∨ (∃ h ∈ s.held, h.by_ = .dispatcher) → exec .emissionSlot s = .next s) ∧
    (s.eslot ≤ slot → (∀ l ∈ s.store, ¬Emits l) → exec .emissionSlot s = .next s) ∧
    (∀ l, s.eslot ≤ slot → (∀ h ∈ s.held, h.by_ ≠ .dispatcher) → Chosen s (slot % 64) l → exec .emissionSlot s = .next { s with
      eslot := slot + 1
      store := s.store.map fun x => if x.seq = l.seq then lessOne l else x
      items := s.items ++ [⟨l.seq, l.lnum, lowest l, l.cls, l.sec, l.part, l.entry, l.arg, l.seed, l.ctr, l.hint, visits s l, 0, s.mseq⟩]
      mseq := s.mseq + 1 })) ∧
  (∀ (i : Nat) (s : State) (it : Item), s.items[i]? = some it →
    let gone := { s with items := s.items.eraseIdx i }
    (¬NoEarlier s (legOf it).1 (legOf it).2 it.n → exec (.workItemArrival i) s = .next s) ∧
    (NoEarlier s (legOf it).1 (legOf it).2 it.n →
      (∀ cid, it.walk[it.pos]? = some cid →
        (Behind s cid it → exec (.workItemArrival i) s = .next s) ∧
        (¬Behind s cid it → ¬((s.core cid).ovf = [] ∧ Takes s cid it) →
          exec (.workItemArrival i) s =
            .next (considers { s with items := s.items.set i { it with pos := it.pos + 1, n := s.mseq }, mseq := s.mseq + 1 } cid it)) ∧
        (¬Behind s cid it → (s.core cid).ovf = [] → Takes s cid it →
          ∃ t, exec (.workItemArrival i) s = .next t ∧ TakenBy (considers gone cid it) t cid it)) ∧
      (it.walk[it.pos]? = none →
        (64 ≤ (s.core it.hint).ovf.length → exec (.workItemArrival i) s = .next { gone with
          store := s.store.map fun l => if l.seq = it.seq then { l with back := nins l.back it.item } else l }) ∧
        ((s.core it.hint).ovf.length < 64 → ∃ t, exec (.workItemArrival i) s = .next t ∧
          Drained it.hint (gone.modCore it.hint fun c => { c with ovf := c.ovf ++ [it] }) t)))) ∧
  (∀ (s : State) (h : Held), s.held = [h] →
    let out := { s with held := [], net := s.net ++ [{ h.w with n := s.mseq }], mseq := s.mseq + 1 }
    (CanPost { s with held := [] } h.w.dst → ∃ u t, execHeldWords s = .next t ∧ (h.item = none → u = out) ∧ (∀ it, h.item = some it → Counted out u it) ∧
      ((∀ cid, h.by_ ≠ .items cid) → t = u) ∧ ∀ cid, h.by_ = .items cid → Drained cid u t) ∧
    (¬CanPost { s with held := [] } h.w.dst → execHeldWords s = .next s)) ∧
  (∀ (s : State) (w : MWord) (q : List MWord), s.me.mbx = w :: q → w.five = 1 → s.held = [] → (∀ x ∈ s.ingress, x.dst ≠ s.cur) →
    ∃ u t, readReg 30 s = .ok w.v t ∧ u.me.mbx = q ∧ (u.core (s.cur / 16)).claims = (s.core (s.cur / 16)).claims - 1 ∧
      (u.core (s.cur / 16)).ovf = (s.core (s.cur / 16)).ovf ∧ u.net = s.net ∧ u.store = s.store ∧ Drained (s.cur / 16) u t)

/-- A launch frame's records are admitted in order, those of class 0 first, or discarded and counted (that an invalid record counts as invalid before the
class-0 rate and the full store are looked at is the model's reading: log 54), and a frame beyond 9,216 bytes, tag, padding and check sequence counted (log 59),
or with a bad check sequence does nothing; a host's doorbell moves a tail, and the dispatcher fetches the next record
of a ring, skips an invalid one and stops at a full store; BAR0 and BAR2 act as Table 21.6 and R417 say, with the secure world's registers closed
to the other; a ring goes on over the link that is left (R379–R381, R416–R418). -/
def Obligations.HostAndFrontDoor : Prop :=
  (∀ (fr : Frame) (s : State), fr.fcsGood = false ∨ 9216 < frameLength fr → exec (.frontDoorFrame fr) s = .next s) ∧
  (∀ (fr : Frame) (s : State), fr.port < 2 → fr.fcsGood = true → frameLength fr ≤ 9216 →
    let n := (fr.payload.getD 1 0).toNat
    let good := fr.etherType = 0x88B5 ∧ fr.payload.getD 0 0 = 1 ∧ 1 ≤ n ∧ n ≤ 140 ∧ (∀ k, 2 ≤ k → k < 16 → fr.payload.getD k 0 = 0) ∧ fr.len = 16 + 64 * n
    let sent := (List.range n).map fun k => (List.range 8).map fun i => dwordOf (fr.payload.drop (16 + 64 * k)) (8 * i)
    let records := sent.filter (fun r => classOf r = 0) ++ sent.filter fun r => classOf r ≠ 0
    let s0 := if s.gtime / 1000 ≤ s.rwindow then s else { s with rwindow := s.gtime / 1000, parts := s.parts.map fun x => (x.1, { x.2 with c0seen := 0 }) }
    (fr.vlan = none → exec (.frontDoorFrame fr) s = .next { s with fdrops := s.fdrops + 1 }) ∧
    (∀ id, fr.vlan = some id → fr.len ≤ fr.payload.length → 16 ≤ fr.payload.length →
      let e := tget 0 s.vlans id.toNat
      (¬(good ∧ e.getLsbD 4 = true) → exec (.frontDoorFrame fr) s = .next { s with fdrops := s.fdrops + 1 }) ∧
      (good → e.getLsbD 4 = true → ∃ l : List State, l.length = n + 1 ∧ l[0]? = some s0 ∧ (∀ t, l[n]? = some t → exec (.frontDoorFrame fr) s = .next t) ∧
        ∀ k a b r, l[k]? = some a → l[k + 1]? = some b → records[k]? = some r → FrontDoor a b (e.setWidth 4).toNat (e.getLsbD 5) r))) ∧
  (∀ s : State, exec .c0rateWindowStart s = .next (if s.gtime / 1000 ≤ s.rwindow then s
    else { s with rwindow := s.gtime / 1000, parts := s.parts.map fun x => (x.1, { x.2 with c0seen := 0 }) })) ∧
  (∀ (p link : Nat) (secure world : Bool) (tail : W32) (s : State), p < 16 →
    (up s link → (secure = true → world = true) → exec (.hostDoorbell p secure link world tail) s = .next (s.modPart p fun q =>
      withRing q secure { ringOf q secure with tail := tail, link := link })) ∧
    (secure = true → world = false → exec (.hostDoorbell p secure link world tail) s = .next s) ∧
    (¬up s link → exec (.hostDoorbell p secure link world tail) s = .next s)) ∧
  (∀ (p : Nat) (secure : Bool) (r : List Word) (s : State), p < 16 →
    let g := ringOf (s.part p) secure
    let moved := { g with head := BitVec.ofNat 32 ((g.head.toNat + 1) % ringSize g) }
    (¬Waiting g ∨ (s.link0 = false ∧ s.link1 = false) → exec (.hostRingFetch p secure r) s = .next s) ∧
    (Waiting g → s.link0 = true ∨ s.link1 = true →
      (RecordBad s p secure r → exec (.hostRingFetch p secure r) s =
        .next (s.modPart p fun q => withRing { q with ninv := (q.ninv + 1) % 2 ^ 64 } secure moved)) ∧
      (¬RecordBad s p secure r → entryFor s p (classOf r) = none → exec (.hostRingFetch p secure r) s = .next s) ∧
      (¬RecordBad s p secure r → entryFor s p (classOf r) ≠ none →
        ∃ t, exec (.hostRingFetch p secure r) s = .next t ∧ Admitted s t p r ∧ ringOf (t.part p) secure = moved))) ∧
  (∀ (p link : Nat) (world : Bool) (v : Word) (s : State), p < 16 → up s link →
    let w := fun off => exec (.hostBar0Write p link world off v) s
    let change := fun f => Host.Outcome.next (s.modPart p f)
    w 0x000 = change (fun q => { q with ring0 := { q.ring0 with base := v &&& ~~~0xFFF } }) ∧
    w 0x008 = change (fun q => { q with ring0 := { q.ring0 with ctl := (v.setWidth 4).setWidth 32 } }) ∧
    w 0x010 = .next s ∧ w 0x030 = .next s ∧
    w 0x014 = exec (.hostDoorbell p false link world (v.setWidth 32)) s ∧ w 0x034 = exec (.hostDoorbell p true link world (v.setWidth 32)) s ∧
    w 0x020 = (if world then change (fun q => { q with ring1 := { q.ring1 with base := v &&& ~~~0xFFF } }) else .next s) ∧
    w 0x028 = (if world then change (fun q => { q with ring1 := { q.ring1 with ctl := (v.setWidth 4).setWidth 32 } }) else .next s) ∧
    w 0x040 = change (fun q => { q with win := v &&& 0x0000FFFFC0000000 }) ∧
    w 0x048 = (if v.getLsbD 0 && !world then .next s else change (fun q => { q with wsel := v.getLsbD 0 }))) ∧
  (∀ (p off : Nat) (s : State) (pa : Nat) (g : Page), p < 16 → off < 2 ^ 30 → off % 8 = 0 → s.link0 = true ∨ s.link1 = true →
    let a := (s.part p).win.toNat + off
    (∀ v, walkPa s (BitVec.ofNat 4 p) (s.part p).wsel .write a = .ok (pa, g) → memWf s.mem = true → NoArmedPut s → ∃ t, exec (.bar2HostAccess p off (some v)) s = .next t ∧
      BitVec.ofNat 64 (numAt t [(pa, 8, g)]) = v ∧ (∀ x, x < pa ∨ pa + 8 ≤ x → memGet t.mem x = memGet s.mem x) ∧ t.ctxs = s.ctxs ∧ t.outbox = s.outbox) ∧
    (walkPa s (BitVec.ofNat 4 p) (s.part p).wsel .read a = .ok (pa, g) → ¬Poisoned s pa 8 → exec (.bar2HostAccess p off none) s =
      .next { s with outbox := s.outbox ++ [readBytes s [(pa, 8, g)]] }) ∧
    (∀ k, walkPa s (BitVec.ofNat 4 p) (s.part p).wsel .read a = .error k → exec (.bar2HostAccess p off none) s = .next s)) ∧
  (∀ (link : Nat) (s : State), link < 2 →
    let other := 1 - link
    (∃ t, exec (.hostLinkStateChange link true) s = .next t ∧ up t link ∧ (up t other ↔ up s other) ∧ t.parts = s.parts) ∧
    (∃ t, exec (.hostLinkStateChange link false) s = .next t ∧ ¬up t link ∧ (up t other ↔ up s other) ∧
      ∀ p secure, (∃ x ∈ s.parts, x.1 = p) → ringOf (t.part p) secure = (let g := ringOf (s.part p) secure
        if g.link = link ∧ up s other then { g with link := other } else g)))

/-! ## Translation, errors, retention, budgets, the watchdog -/

namespace Sys2Proof.Spec

/-- Bytes that an access to a page table may reach: 768 GiB, 96 GiB in minimal mode (R388). -/
def memoryEnd (s : State) : Nat := if s.minimal then 96 * 2 ^ 30 else 768 * 2 ^ 30

/-- The size of the page of a leaf, as a power of two (R388, R389). -/
def pageBits (level : Nat) (e : Word) : Nat := if level = 0 ∧ e.getLsbD 8 = true then 16 else 12 + 9 * level
/-- The base of the page of a leaf: `ppn`, whose low four bits a 64 KiB page does not use (R389). -/
def pageBase (level : Nat) (e : Word) : Nat :=
  if level = 0 ∧ e.getLsbD 8 = true then (e.extractLsb' 16 24).toNat * 2 ^ 16 else (e.extractLsb' 12 28).toNat * 2 ^ 12

/-- A present entry of a level is malformed (R387, R388, Table 20.1). -/
def Malformed (s : State) (level : Nat) (e : Word) : Prop :=
  e.extractLsb' 40 11 ≠ 0 ∨ e.extractLsb' 9 3 ≠ 0 ∨ e.getLsbD 4 = true ∨
  (e.getLsbD 1 = true ∧ (level = 3 ∨ pageBase level e % 2 ^ pageBits level e ≠ 0 ∨ memoryEnd s < pageBase level e + 2 ^ pageBits level e)) ∨
  (e.getLsbD 1 = false ∧ (level = 0 ∨ e.extractLsb' 2 10 ≠ 0 ∨ e.extractLsb' 51 13 ≠ 0 ∨
    memoryEnd s < (e.extractLsb' 12 28).toNat * 2 ^ 12 + 4096))

/-- The walk from the table at `table`, whose level is one less than `n`, ends with `r` (R388, R396). -/
def WalkEnds (s : State) (dva : Nat) : (n table : Nat) → WalkEnd → Prop
  | 0, _, r => r = .absent
  | level + 1, table, r =>
    let a := table + 8 * (dva / 2 ^ (12 + 9 * level) % 512)
    let e := wordAt s a
    (Poisoned s a 8 → r = .poison) ∧
    (¬Poisoned s a 8 → (e.getLsbD 0 = false ∨ Malformed s level e) → r = .absent) ∧
    (¬Poisoned s a 8 → e.getLsbD 0 = true → ¬Malformed s level e →
      (e.getLsbD 1 = true → r = .leaf e (pageBits level e)) ∧
      (e.getLsbD 1 = false → WalkEnds s dva level ((e.extractLsb' 12 28).toNat * 2 ^ 12) r))

/-- Two requests that one walk serves: a walker has them, for the same port, partition and 4 KiB (R394). -/
abbrev Joined (v w : Walk) : Prop := v.busy = true ∧ v.part = w.part ∧ v.cl = w.cl ∧ v.dva / 4096 = w.dva / 4096

/-- The number under which a requester's translations stand in its micro-TLB (R393). -/
def tagOf : Asker → Nat | .ctx _ tag _ => tag | .eng _ => 0

/-- A context asks for a translation. -/
def byContext (m : Nat) : Asker → Bool | .ctx n _ _ => n = m | .eng _ => false

/-- The translation that a leaf gives a requester of a walk, with the keys that its partition might use when that walk began (R392). -/
def entryOf (v w : Walk) (leaf : Word) (bits : Nat) : TlbEnt := ⟨w.part, tagOf w.who, w.dva / 2 ^ bits * 2 ^ bits, bits, leaf, true, v.keylo, v.keyhi⟩

/-- A buffer of `n` entries into which an entry is filled: the least recently used one leaves (R393, R394). -/
def filledBuffer (n : Nat) (l : List TlbEnt) (e : TlbEnt) : List TlbEnt :=
  (e :: l.filter fun x => ¬(x.part = e.part ∧ x.ctx = e.ctx ∧ x.bits = e.bits ∧ x.dva = e.dva)).take n

/-- The fill with which a walk `b` answers a requester: the cause of the trap where there is no leaf (R391, R396). -/
def answer (r : WalkEnd) (b v : Walk) (f : Fill) : Prop :=
  f.cid = v.cid ∧ f.who = v.who ∧
  match r with
  | .leaf l n => f.ent = entryOf b v l n ∧ f.bad = none
  | .absent => f.bad = some 0x0A
  | .poison => f.bad = some 0x13

/-- A word that a patrol scrub can read: a scratchpad word of the mesh or a word of physical memory (R424). -/
def Memory (s : State) (loc : Nat) : Prop :=
  (loc < 2 ^ 40 ∧ loc < memoryEnd s) ∨
  (2 ^ 40 ≤ loc ∧ loc < 2 ^ 49 ∧ cidValid s.minimal ((loc - 2 ^ 40) / 2 ^ 22) = true ∧
    (loc - 2 ^ 40) % 2 ^ 22 < Config.spadSize (cidLayer ((loc - 2 ^ 40) / 2 ^ 22)))

/-- The words that an uncorrectable error at a word's location poisons (Table 22.1). -/
def poisonedBy (s : State) (word : Nat) : List Nat :=
  if word < 2 ^ 37 then [word / 4 * 4, word / 4 * 4 + 1, word / 4 * 4 + 2, word / 4 * 4 + 3]
  else if (s.bank (Config.locCid (8 * word)) (locBank (8 * word))).ret = .active then [word] else [word / 2 * 2, word / 2 * 2 + 1]

/-- A wait of a context in Table 20.5: its code, the tick at which it began, and the limit that `wdlim` set then (R392). -/
def waitNumber (c : Context) : Option (Nat × Nat × Nat) :=
  match c.away, c.wait with
  | some a, _ => some (5, a.since, a.lim)
  | none, some w =>
    (match w.kind with
    | .fullEmpty => some 1
    | .fullWrite | .sendFull => some 2
    | .engineQueue => some 3
    | .fence => some 4
    | .away => some 5
    | .delegation | .dlgCredit | .launch => some 6
    | .relaxedFull | .redCredits => some 7
    | .lease => some 8
    | _ => none).map fun k => (k, w.since, w.lim)
  | none, none => none

/-- A cluster has counted one more corrected error (Table 22.3). -/
def oneCorrected (s : State) (cl : Nat) : State := s.modCluster cl fun c => { c with cor := min (c.cor + 1) 0xFFFFFFFF }

end Sys2Proof.Spec

/-- A port's walk reads up to four levels of the table that its partition had when it began, under the keys that it had then; a leaf that it finds enters the port's buffer, a walk
without one leaves no entry anywhere, and every request that joined it gets the same answer; then walkers go on to the requests that wait for one.
A fill enters the core's micro-TLB, where the waiting access finds it, or brings the trap of the failed walk (R388, R391–R396). -/
def Sys2Proof.Spec.WalksTranslate : Prop :=
  (∀ (i : Nat) (s : State) (x w : Walk) (l : List Walk) (r : WalkEnd), s.walks[i]? = some x → (s.walks.filter fun v => Joined v x) = w :: l →
    let root := w.root * 4096
    let waits := s.walks.filter fun v => v.busy = false
    root + 4096 ≤ memoryEnd s → WalkEnds s w.dva 4 root r →
    ∃ t q, exec (.pageWalk i .clean) s = .next t ∧ t.walks = (s.walks.filter fun v => v.busy = true ∧ ¬Joined v x) ++ q ∧ q.length = waits.length ∧
      (∀ (j : Nat) v y, waits[j]? = some v → q[j]? = some y → (y = v ∨ y = { v with
          busy := true, root := (s.part v.part.toNat).ptroot, keylo := (s.part v.part.toNat).keylo, keyhi := (s.part v.part.toNat).keyhi }) ∧
        (j = 0 → v.cl = w.cl → (s.walks.filter fun z => z.busy = true ∧ z.cl = w.cl).length ≤ 64 → y.busy = true)) ∧
      (∃ fs, t.fills = s.fills ++ fs ∧ fs.length = (w :: l).length ∧
        ∀ (j : Nat) v f, (w :: l)[j]? = some v → fs[j]? = some f → answer r w v f) ∧
      t.mem = s.mem ∧ t.cores = s.cores ∧ t.ctxs = s.ctxs ∧
      (∀ l b, r = .leaf l b → (t.cluster w.cl).ptlb = filledBuffer 256 (s.cluster w.cl).ptlb { entryOf w w l b with ctx := 0, fresh := false }) ∧
      ((∀ l b, r ≠ .leaf l b) → t.clusters = s.clusters)) ∧
  (∀ (i : Nat) (s : State) (x : Walk) (e : Ecc), s.walks[i]? = some x → (∀ v ∈ s.walks, ¬Joined v x) → exec (.pageWalk i e) s = .next s) ∧
  (∀ (i : Nat) (s : State) (x w : Walk) (l : List Walk), s.walks[i]? = some x → (s.walks.filter fun v => Joined v x) = w :: l →
    w.root * 4096 + 4096 ≤ memoryEnd s →
    ∃ t, exec (.pageWalk i .uncorrectable) s = .next t ∧ t.mem = s.mem ∧ (∀ a, a ∈ s.poison → a ∈ t.poison) ∧
      ∀ f ∈ t.fills, f ∈ s.fills ∨ ∃ v ∈ s.walks, Joined v x ∧ answer .poison w v f) ∧
  (∀ (m tag : Nat) (ht : HomeTrap) (s : State) (f : Fill) (l1 l2 : List Fill), s.fills = l1 ++ f :: l2 → f.who = .ctx m tag ht →
    (∀ y ∈ l1, byContext m y.who = false) →
    (f.bad = none → ∃ t, exec (.microTlbFill m) s = .next t ∧ t.fills = l1 ++ l2 ∧
      (t.core f.cid).utlb = filledBuffer 8 (s.core f.cid).utlb f.ent ∧ t.mem = s.mem ∧ t.ctxs = s.ctxs) ∧
    (∀ c, f.bad = some c → memWf s.mem = true → (s.ctx m).away = none →
      ∃ t, exec (.microTlbFill m) s = .next t ∧ t.fills = (l1 ++ l2).filter (fun y => !byContext m y.who) ∧
        TrapTaken s t m { ht with t := { ht.t with cause := c } } false))

/-- A line of code that an instruction cache asked for holds the 64 bytes that code memory holds when it arrives, so that the contexts that
wait there for code find it (R51, R85); at most one other line leaves for it, and a cache holds 256 lines (R9; which line leaves is a free value:
log 92). -/
def Sys2Proof.Spec.CodeLinesArrive : Prop :=
  ∀ (cid line : Nat) (s : State), line ∈ (s.core cid).icreq →
    ∃ t, exec (.icacheLineFill cid line) s = .next t ∧ t.mem = s.mem ∧
      (∃ l, tget none (t.core cid).ic line = some l ∧
        ∀ k, k < 64 → l.extractLsb' (8 * k) 8 = memGet s.mem (Config.codeLoc (cidLayer cid) (64 * line + k))) ∧
      (∃ v, ∀ n, n ≠ line → n ≠ v → tget none (t.core cid).ic n = tget none (s.core cid).ic n) ∧
      ((s.core cid).ic.length ≤ 256 → (t.core cid).ic.length ≤ 256) ∧ (t.core cid).icreq = ndel (s.core cid).icreq line ∧ t.ctxs = s.ctxs

/-- An instruction word accepts a prefix of a kind (Table 4.6). -/
def Sys2Proof.Spec.takesPrefix (w : W32) (kind : BitVec 3) : Prop :=
  let short := w.getLsbD 31 = false ∨ w.getLsbD 30 = false
  let m := (w.extractLsb' 24 8).toNat
  let wide := (w.extractLsb' 24 6).toNat
  (kind = 0 ∧ ((short ∧ (m ≤ 0x0A ∨ (0x14 ≤ m ∧ m ≤ 0x17))) ∨ (¬short ∧ ((0x08 ≤ wide ∧ wide ≤ 0x0D) ∨ (0x14 ≤ wide ∧ wide ≤ 0x16))))) ∨
  (kind = 1 ∧ short ∧ 0x20 ≤ m ∧ m ≤ 0x2A) ∨
  (kind = 2 ∧ short ∧ ((0x34 ≤ m ∧ m ≤ 0x36) ∨ m = 0x52)) ∨
  (kind = 3 ∧ short ∧ ((0x01 ≤ m ∧ m ≤ 0x04) ∨ (0x08 ≤ m ∧ m ≤ 0x0A)))

/-- A group whose shape is wrong takes orphan-prefix with the index of the first word that breaks the rule: a second prefix of the first's kind, a third
prefix, a prefix that the instruction does not accept, or an instruction without its extension bit behind prefixes; an instruction with that bit and no prefix takes
orphaned-extension with what its context notes of how control arrived (R95–R97). -/
def Sys2Proof.Spec.GroupsAreChecked : Prop :=
  ∀ (m : Nat) (s : State) (r : List Agenda) (pfxs : List W32) (w0 w1 : W32), s.agenda = .slot m :: r →
    ((s.ctx m).wait ≠ none ∨ nextSlot s m ≤ s.tick) → ready s m = true → NothingPending (s.ctx m) →
    let b := beginSlot { s with agenda := r } m
    fetchGroup b m = .group pfxs w0 w1 false → (∀ p ∈ pfxs, pfxBad p = 0) →
    let takes := fun (cause : BitVec 8) (tinfo : Word) => ∃ u, step s = .next u ∧ SameDevice u (takeTrap ⟨cause, tinfo⟩ { b with grp := grpOf pfxs w0 w1 })
    let kind := fun (p : W32) => p.extractLsb' 27 3
    let prefix_ := w0.extractLsb' 30 2 = (2 : BitVec 2)
    (∀ p q, pfxs = [p, q] →
      (kind p = kind q → (prefix_ → pfxBad w0 = 0) → takes 0x03 1) ∧ (kind p ≠ kind q → prefix_ → pfxBad w0 = 0 → takes 0x03 2)) ∧
    (¬prefix_ → majorAssigned b.layer w0 = true → (∀ p q, pfxs = [p, q] → kind p ≠ kind q) →
      (∀ (i : Nat) p, pfxs[i]? = some p → ¬takesPrefix w0 (kind p) → (∀ j q, j < i → pfxs[j]? = some q → takesPrefix w0 (kind q)) →
        takes 0x03 (BitVec.ofNat 64 i)) ∧
      (pfxs ≠ [] → (∀ p ∈ pfxs, takesPrefix w0 (kind p)) → w0.getLsbD 0 = false → takes 0x03 (BitVec.ofNat 64 pfxs.length)) ∧
      (pfxs = [] → hasX w0 = true → w0.getLsbD 0 = true → takes 0x04 (s.ctx m).via))

/-- The statements above together. -/
def Obligations.TranslationAndFetch : Prop := WalksTranslate ∧ CodeLinesArrive ∧ GroupsAreChecked

/-- An idle bank other than bank 15 enters retention once its core's register allows it, and is active again when its exit is over; data, states
and poison stay. A scrub changes no data: it counts a corrected error, and it poisons the words of an uncorrectable one; a line of code or a translation
in error is fetched or walked again, and counted (R422, R424, R426). -/
def Obligations.BanksRestAndAreScrubbed : Prop :=
  (∀ (cid b : Nat) (s : State),
    let k := s.core cid
    let may := k.retEn = true ∧ b < 15 ∧ (s.bank cid b).ret = .active ∧
      (s.bank cid b).last + k.retIdle.toNat ≤ s.cycles (cidLayer cid) ∧ (s.bank cid b).last + 4096 ≤ s.cycles (cidLayer cid) ∧
      ∀ w ∈ s.feq, ¬(2 ^ 40 ≤ 16 * w.g ∧ 16 * w.g < 2 ^ 49 ∧ Config.locCid (16 * w.g) = cid ∧ locBank (16 * w.g) = b)
    (may → exec (.retentionEntry cid b) s = .next (s.setBank cid b ⟨.retained, (s.bank cid b).last⟩)) ∧
    (¬may → exec (.retentionEntry cid b) s = .next s)) ∧
  (∀ (cid b ready : Nat) (s : State), (s.bank cid b).ret = .exiting ready →
    (ready ≤ s.cycles (cidLayer cid) → exec (.retentionExitComplete cid b) s = .next (s.setBank cid b ⟨.active, s.cycles (cidLayer cid)⟩)) ∧
    (s.cycles (cidLayer cid) < ready → exec (.retentionExitComplete cid b) s = .next s)) ∧
  (∀ (word : Nat) (s : State),
    let cl := clKey (ownerOfLoc s.minimal (8 * word))
    (¬Memory s (8 * word) → ∀ e, exec (.patrolScrub (.word word) e) s = .next s) ∧
    exec (.patrolScrub (.word word) .clean) s = .next s ∧
    (Memory s (8 * word) →
      exec (.patrolScrub (.word word) .corrected) s = .next (oneCorrected s cl) ∧
      ∃ t, exec (.patrolScrub (.word word) .uncorrectable) s = .next t ∧ t.mem = s.mem ∧ t.empties = s.empties ∧ t.cores = s.cores ∧
        (t.cluster cl).unc = min ((s.cluster cl).unc + 1) 0xFFFF ∧ ∀ w, w ∈ t.poison ↔ w ∈ s.poison ∨ w ∈ poisonedBy s word)) ∧
  (∀ (s : State),
    (∀ g, Memory s (16 * g) → 2 ^ 40 ≤ 16 * g →
      exec (.patrolScrub (.granule g) .corrected) s = .next (oneCorrected s (clKey (ownerOfLoc s.minimal (16 * g))))) ∧
    (∀ cid line e, e ≠ .clean → (tget none (s.core cid).ic line).isSome = true → exec (.patrolScrub (.icacheLine cid line) e) s =
      .next (oneCorrected (s.modCore cid fun k => { k with ic := tset k.ic line none, icreq := nins k.icreq line }) (clKey cid))) ∧
    (∀ cid i e, e ≠ .clean → i < (s.core cid).utlb.length → exec (.patrolScrub (.microTlb cid i) e) s =
      .next (oneCorrected (s.modCore cid fun k => { k with utlb := k.utlb.eraseIdx i }) (clKey cid))) ∧
    (∀ l c i e, e ≠ .clean → i < (s.cluster (64 * l + c)).ptlb.length → exec (.patrolScrub (.portTlb l c i) e) s =
      .next (oneCorrected (s.modCluster (64 * l + c) fun k => { k with ptlb := k.ptlb.eraseIdx i }) (64 * l + c))) ∧
    ∀ l c, exec (.patrolScrub (.queues l c) .corrected) s = .next (oneCorrected s (64 * l + c)) ∧
      exec (.patrolScrub (.flit l c) .corrected) s = .next (oneCorrected s (64 * l + c)))

/-- A budget window begins with each microsecond of global time: every budget has its tokens again, and the sites have served nothing; a request that
asks once that time has come finds the new window's tokens (R412). A site serves a request with tokens, and no other while one of a lower class, or an earlier one of its class, has
tokens there; without tokens it serves those that may spill, and it serves no more than its capacity (R413, R414). -/
def Sys2Proof.Spec.BudgetWindows : Prop :=
  ∀ s : State, (s.gtime / 1000 ≤ s.window → exec .budgetWindowStart s = .next s) ∧
    (s.window < s.gtime / 1000 →
      ∃ t, exec .budgetWindowStart s = .next t ∧ t.window = s.gtime / 1000 ∧ t.served = [] ∧ t.mem = s.mem ∧ t.ctxs = s.ctxs ∧
        ∀ site part cls, let b := tget Budget.init t.budgets (budgetKey site part cls)
          let b0 := tget Budget.init s.budgets (budgetKey site part cls)
          b = { b0 with left := b0.tok }) ∧
    (∀ who cid part cls p t, exec .budgetWindowStart s = .next t → sitesOf s.minimal cid p ≠ [] →
      budgetPlace who cid part cls p s = budgetPlace who cid part cls p t) ∧
    ∀ r : BReq, r.part < 16 → (∀ x ∈ s.bwait, x.who ≠ r.who) →
      let has := fun (x : BReq) => x.n ≤ (tget Budget.init s.budgets (budgetKey x.site x.part x.cls)).left
      let room := tget 0 s.served r.site + r.n ≤ if r.site < 256 then 4096 else 1750
      let here := s.bwait.filter fun x => x.site = r.site
      (has r → room → (∀ x ∈ here, has x → r.cls < x.cls) → ∃ t, spend s r = some t ∧ tget 0 t.served r.site = tget 0 s.served r.site + r.n ∧
        (tget Budget.init t.budgets (budgetKey r.site r.part r.cls)).left + r.n = (tget Budget.init s.budgets (budgetKey r.site r.part r.cls)).left ∧
        { t with served := s.served, budgets := s.budgets } = s) ∧
      (¬room → spend s r = none) ∧ ((∃ x ∈ here, x.who.live s = true ∧ has x ∧ x.cls ≤ r.cls) → spend s r = none) ∧
      (¬has r → (tget Budget.init s.budgets (budgetKey r.site r.part r.cls)).spill = false → spend s r = none) ∧
      (¬has r → room → (tget Budget.init s.budgets (budgetKey r.site r.part r.cls)).spill = true → here = [] → ∃ t, spend s r = some t ∧
        tget 0 t.served r.site = tget 0 s.served r.site + r.n ∧ t.budgets = s.budgets)

/-- A context that has been held in one wait of Table 20.5 for as many µs as `wdlim` said when the wait began takes watchdog with the wait's number and
the clock, at the PC of the waiting instruction; one whose thread is away is recalled and takes it at home; with a limit of 0, and while a context of
the partition is halted, nothing happens (R392, R401, R403). -/
def Sys2Proof.Spec.WatchdogFires : Prop :=
  ∀ (m : Nat) (s : State),
    let q := s.part (s.ctx m).part.toNat
    ((q.frozen.isSome = true ∨ (s.ctx m).run ≠ .running ∨ waitNumber (s.ctx m) = none) → exec (.watchdog m) s = .next s) ∧
    (∀ k since lim, (s.ctx m).run = .running → waitNumber (s.ctx m) = some (k, since, lim) → q.frozen = none →
      let us := (s.tick - since) / tickPerUs
      (lim = 0 ∨ us < lim → exec (.watchdog m) s = .next s) ∧
      (lim ≠ 0 → lim ≤ us → us < 2 ^ 32 → (s.ctx m).away = none → memWf s.mem = true →
        let takes := fun (pc : Word) => ∃ t w0 w1, exec (.watchdog m) s = .next t ∧
          TrapTaken s t m ⟨⟨0x17, BitVec.ofNat 32 us ++ BitVec.ofNat 32 k⟩, pc, w0, w1⟩ false
        ((∀ a ∈ (s.ctx m).out, a.rlx = true ∨ ∃ v, a.kind = .store v) → takes (s.ctx m).pc) ∧
        (∀ a w, (s.ctx m).out = [a] → a.rlx = false → (∀ v, a.kind ≠ .store v) → (s.ctx m).wait = some w → w.kind = .fullWrite → takes a.ipc)) ∧
      (lim ≠ 0 → lim ≤ us → us < 2 ^ 32 → ∀ a, (s.ctx m).away = some a → a.trap = none →
        ∃ t b, exec (.watchdog m) s = .next t ∧ (t.ctx m).away = some b ∧ (t.ctx m).run = .running ∧
          b.trap.map (·.t) = some ⟨0x17, (BitVec.ofNat 32 us ++ 5#32 : Word)⟩ ∧ (a.phase ≠ .toHome → b.recallIt = true) ∧ t.mem = s.mem))

/-- The statements above together. -/
def Obligations.BudgetsAndWatchdog : Prop := BudgetWindows ∧ WatchdogFires

/-! ## Slot allocators, firmware's registers, the debugger, context 0 -/

namespace Sys2Proof.Spec

/-- Positions of a frame of 64 slots that a partition owns (Table 21.1). -/
def slotsOf (l : List (Option Nat)) (p : Nat) : Nat := (l.filter fun o => o = some p).length
/-- Positions that partitions other than `p` own. -/
def slotsOfOthers (l : List (Option Nat)) (p : Nat) : Nat := (l.filter fun o => o ≠ none ∧ o ≠ some p).length
/-- The slot table of a die, as the last granted request leaves it (R409). -/
def tableOf (s : State) (die : Nat) : List (Option Nat) := match (s.slotTab die).next with | some x => x.1 | none => (s.slotTab die).own

/-- The layer whose clock counts the frames of a die: the four base dies, the mid die, the crown die (R405). -/
def layerOfDie (die : Nat) : Nat := if die < 4 then 0 else if die = 4 then 1 else 3

/-- What a write of a partition's register leaves in the partition, at the register's width (Tables 19.6, 20.3, 21.6). -/
def partitionWrite (minimal : Bool) (q : Partition) (v : Nat) : FwReg → Option (Nat × Partition)
  | .cols p => some (p, { q with cols := v % if minimal then 2 else 2 ^ 16 })
  | .ucores p => some (p, { q with ucores := v % 2 ^ 120 })
  | .secmask p => some (p, { q with secmask := v % 2 ^ 200 })
  | .c0core p => some (p, { q with c0core := v % 2 ^ 1920 })
  | .c0slots p => some (p, { q with c0slots := v % 2 ^ 64 })
  | .c0rate p => some (p, { q with c0rate := v % 2 ^ 16 })
  | .shcap p => some (p, { q with shcap := v % 2 ^ 11 })
  | .ringBase p sec => some (p, withRing q sec { ringOf q sec with base := BitVec.ofNat 64 v })
  | .ringCtl p sec => some (p, withRing q sec { ringOf q sec with ctl := BitVec.ofNat 32 (v % 16) })
  | .ringHead p sec => some (p, withRing q sec { ringOf q sec with head := BitVec.ofNat 32 v })
  | .ringTail p sec => some (p, withRing q sec { ringOf q sec with tail := BitVec.ofNat 32 v })
  | .clearNinv p => some (p, { q with ninv := 0 })
  | .clearNfull p => some (p, { q with nfull := 0 })
  | .clearNrate p => some (p, { q with nrate := 0 })
  | .ptroot p => some (p, { q with ptroot := v % 2 ^ 28 })
  | .keylo p => some (p, { q with keylo := v % 2 ^ 13 })
  | .keyhi p => some (p, { q with keyhi := v % 2 ^ 13 })
  | .wdlim p => some (p, { q with wdlim := v % 2 ^ 32 })
  | .sigPolicy p => some (p, { q with sigReq := v.testBit 0 })
  | .debugger p => some (p, { q with dbg := v.testBit 0 })
  | .trustedKey p i => some (p, { q with keys := tset q.keys i v })
  | _ => none

/-- The registers on which it depends which contexts may take items (R293, R379, R383, R384). -/
def opensCores : FwReg → Bool | .cols _ | .ucores _ | .secmask _ | .c0core _ => true | _ => false

/-- The registers that say to which partition and world a core belongs (R382–R384). -/
def movesCores : FwReg → Bool | .cols _ | .ucores _ | .secmask _ => true | _ => false

/-- A running context after such a write: it is in the world of its core's block, and a supervisor context runs with `sup` = 1 (R383, R384). -/
def Reworlded (t : State) (m : Nat) (c d : Context) : Prop :=
  (c.run = .unspawned → d = c) ∧
  (c.run ≠ .unspawned →
    (ownerPart t (m / 16) = none → d = c) ∧
    ∀ p, ownerPart t (m / 16) = some p → d = { c with sec := blockSecure t p (m / 16), sup := c.sup || decide (m = supervisorOf t p) })

/-- A partition exists (R382, R433). -/
def Exists (s : State) (p : Nat) : Prop := p < 16 ∧ (s.minimal = true → p = 0)

/-- The partition that a register belongs to. -/
def partitionOf : FwReg → Nat
  | .cols p | .ucores p | .secmask p | .c0core p | .c0slots p | .c0rate p | .shcap p | .ringBase p _ | .ringCtl p _ | .ringHead p _
  | .ringTail p _ | .clearNinv p | .clearNfull p | .clearNrate p | .ptroot p | .keylo p | .keyhi p | .wdlim p | .sigPolicy p | .debugger p | .trustedKey p _ | .budget _ p _ => p
  | .retctl _ | .vlan _ | .errcnt _ _ | .segEntry _ _ => 0

/-- No context of a partition but contexts 0 is spawned, and none of its threads is away (R364). -/
def Quiescent (s : State) (p : Nat) : Prop :=
  ∀ x ∈ s.ctxs, x.2.part.toNat = p → x.2.away = none ∧ (x.1 % 16 = 0 ∨ x.2.run = .unspawned)

/-- A core where a context of a partition runs holds a store in its buffer: one issued since `compat` was turned on (R321, R322). -/
def StoreWaits (s : State) (p : Nat) : Prop :=
  ∃ x ∈ s.ctxs, x.2.part.toNat = p ∧ ∃ y ∈ s.ctxs, s.hereOf y.1 = s.hereOf x.1 ∧
    ∃ a ∈ y.2.out, a.rlx = false ∧ (∃ v, a.kind = .store v) ∧ (s.part y.2.part.toNat).cseq ≤ a.seq

end Sys2Proof.Spec

/-- A die's allocator grants a request that leaves the slots of others alone, for the next frame boundary, with exactly the asked number of
slots; it refuses any other; the tables change together, as one of the events that fall due, at the first frame boundary after the first request of those that wait (R407, R409; log 64). -/
def Sys2Proof.Spec.SlotTablesChange : Prop :=
  (∀ (die p n : Nat) (s : State), die < 6 → p < 16 → (tableOf s die).length = 64 →
    (64 < slotsOfOthers (tableOf s die) p + n → exec (.slotAllocatorRequest die p n) s = .next s) ∧
    (slotsOfOthers (tableOf s die) p + n ≤ 64 →
      ∃ t x, exec (.slotAllocatorRequest die p n) s = .next t ∧ t.slotTab die = ⟨(s.slotTab die).own, some (x, match (s.slotTab die).next with | some y => y.2 | none => s.cycles (layerOfDie die) / 64)⟩ ∧ x.length = 64 ∧
        slotsOf x p = n ∧ (∀ (i : Nat) q, q ≠ p → (x[i]? = some (some q) ↔ (tableOf s die)[i]? = some (some q))) ∧
        (∀ d, d ≠ die → t.slotTab d = s.slotTab d) ∧ t.mem = s.mem ∧ t.ctxs = s.ctxs)) ∧
  (∀ (die : Nat) (s : State),
    (∀ x n, (s.slotTab die).next = some (x, n) → s.cycles (layerOfDie die) % 64 ≠ 0 ∨ s.cycles (layerOfDie die) / 64 ≤ n →
      exec (.slotTableSwitch die) s = .next s) ∧
    (∀ x n, (s.slotTab die).next = some (x, n) → s.cycles (layerOfDie die) % 64 = 0 → n < s.cycles (layerOfDie die) / 64 → ∃ t, exec (.slotTableSwitch die) s = .next t ∧ t.slotTab die = ⟨x, none⟩ ∧
      (∀ d, d ≠ die → t.slotTab d = s.slotTab d) ∧ t.mem = s.mem ∧ t.ctxs = s.ctxs) ∧
    ((s.slotTab die).next = none → exec (.slotTableSwitch die) s = .next s)) ∧
  (∀ (die : Nat) (s : State) (x : SlotTab), (die, x) ∈ s.slots → x.next ≠ none →
    let clk := s.clk.getD (layerOfDie die) ⟨0, 0, 1⟩
    clk.at_ ≤ s.tick → 18 ≤ clk.rate → clk.rate ≤ 48 →
      ∃ d, nextDue s = some d ∧ d ≤ clk.at_ + (64 * (s.cycles (layerOfDie die) / 64 + 1) - clk.cyc) * Config.period clk.rate)

/-- Firmware's writes reach the registers of Tables 19.6, 20.3, 21.6, 21.3, 22.3 and 22.5 at their widths and nothing else; `compat` is written in
a quiescent partition only, and going off it waits until no store is in a buffer (R169, R322, R365, R385, R392, R402, R412, R425, R426, R433; that
a write of `compat` at another time changes nothing is the model's reading, log 67, and so is that bits beyond a register's width, `shcap`'s 11
bits among them, are dropped, log 68; that running contexts follow a write that moves their core's block to another world is its choice: log 86). -/
def Sys2Proof.Spec.FirmwareRegisters : Prop :=
  (∀ (r : FwReg) (v : Nat) (s : State),
    (∀ q, partitionWrite s.minimal (s.part (partitionOf r)) v r = some (partitionOf r, q) →
      ∃ t, exec (.firmwareRegisterWrite r v) s = .next t ∧ (¬Exists s (partitionOf r) → t.parts = s.parts) ∧ (Exists s (partitionOf r) → t.part (partitionOf r) = q) ∧
        (∀ p, p ≠ partitionOf r → t.part p = s.part p) ∧
        (opensCores r = false ∨ (∀ x ∈ s.cores, x.2.ovf = []) → { t with parts := s.parts, ctxs := s.ctxs } = s ∧
          (movesCores r = false → t.ctxs = s.ctxs) ∧ (movesCores r = true → ∀ m, Reworlded t m (s.ctx m) (t.ctx m))))) ∧
  (∀ (site : Site) (p cls v : Nat) (s : State), Exists s p → cls < 4 →
    ∃ t, exec (.firmwareRegisterWrite (.budget site p cls) v) s = .next t ∧
      tget Budget.init t.budgets (budgetKey (siteNum site) p cls)
        = ⟨v % 2 ^ 13, v.testBit 16, (tget Budget.init s.budgets (budgetKey (siteNum site) p cls)).left⟩ ∧
      (∀ k, k ≠ budgetKey (siteNum site) p cls → tget Budget.init t.budgets k = tget Budget.init s.budgets k) ∧
      { t with budgets := s.budgets } = s) ∧
  (∀ (cid v : Nat) (s : State), cidValid s.minimal cid = true →
    ∃ t, exec (.firmwareRegisterWrite (.retctl cid) v) s = .next t ∧ (t.core cid).retEn = v.testBit 0 ∧
      (t.core cid).retIdle = BitVec.ofNat 32 (v / 2 ^ 8) ∧ (∀ b, t.bank cid b = s.bank cid b) ∧
      (∀ c, c ≠ cid → t.core c = s.core c) ∧ t.mem = s.mem ∧ t.ctxs = s.ctxs) ∧
  (∀ (id v : Nat) (s : State), id < 4096 →
    ∃ t, exec (.firmwareRegisterWrite (.vlan id) v) s = .next t ∧ tget 0 t.vlans id = BitVec.ofNat 6 v ∧
      (∀ k, k ≠ id → tget 0 t.vlans k = tget 0 s.vlans k) ∧ { t with vlans := s.vlans } = s) ∧
  (∀ (layer cl v : Nat) (s : State),
    exec (.firmwareRegisterWrite (.errcnt layer cl) v) s
      = .next (s.modCluster (64 * layer + cl) fun c => { c with disc := 0, unc := 0, cor := 0 })) ∧
  (∀ (cid q v : Nat) (s : State), memWf s.mem = true → cidValid s.minimal cid = true → q < 16 → v < 2 ^ 128 →
    ∃ t, exec (.firmwareRegisterWrite (.segEntry cid q) v) s = .next t ∧ tableEntry t cid q = BitVec.ofNat 128 v ∧
      ∀ x, (x < Config.spadLoc cid (Config.spadSize (cidLayer cid) - 256 + 16 * q) ∨
        Config.spadLoc cid (Config.spadSize (cidLayer cid) - 256 + 16 * q) + 16 ≤ x) → memGet t.mem x = memGet s.mem x) ∧
  (∀ (p : Nat) (v : Bool) (s : State),
    (¬Quiescent s p ∨ ¬Exists s p → exec (.compatWrite p v) s = .next s) ∧
    (Quiescent s p → Exists s p →
      (v = true → exec (.compatWrite p v) s =
        .next (s.modPart p fun q => { q with compat := true, drain := false, cseq := if q.compat then q.cseq else s.aseq })) ∧
      (v = false → (s.part p).compat = false ∨ ¬StoreWaits s p → exec (.compatWrite p v) s = .next (s.modPart p fun q => { q with compat := false })) ∧
      (v = false → (s.part p).compat = true → StoreWaits s p → exec (.compatWrite p v) s = .next (s.modPart p fun q => { q with drain := true }))))

/-- The statements above together. -/
def Obligations.FirmwareAndSlots : Prop := FirmwareRegisters ∧ SlotTablesChange

/-- A debugger halts a context at its group boundary and resumes it there; one that had stopped is halted too, and stopped again when it resumes; the stall clocks of its partition stand still meanwhile and go on from
where they stood. A frame that the debugger wrote is installed as by `load`, in the world of the core's block (R384, R402, R403). A member that resumes has been
active for its bow groups (R304). -/
def Sys2Proof.Spec.DebuggerHalts : Prop :=
  (∀ (m : Nat) (s : State),
    let c := s.ctx m
    let p := c.part.toNat
    let may := mbaValid s.minimal m = true ∧ (s.part p).dbg = true ∧ c.run ≠ .unspawned
    (¬may → exec (.debugHalt m) s = .next s) ∧
    (may → ∀ w, c.run = .stopped w → c.away = none → c.out = [] → ∃ t, exec (.debugHalt m) s = .next t ∧ (t.ctx m).run = .halted (some w) ∧
      (t.ctx m).pc = c.pc ∧ (t.ctx m).x = c.x ∧ (t.part p).frozen = (s.part p).frozen.or (some s.tick) ∧ t.net = s.net ∧ t.mem = s.mem) ∧
    (may → c.run = .running → c.away = none → c.out = [] → c.late = none →
      ∃ t, exec (.debugHalt m) s = .next t ∧ (t.ctx m).run = .halted none ∧ (t.ctx m).pc = c.pc ∧ (t.ctx m).x = c.x ∧ (t.ctx m).mbx = c.mbx ∧
        (t.ctx m).qin = c.qin ∧ (t.part p).frozen = (s.part p).frozen.or (some s.tick) ∧ t.net = s.net ∧ t.bars = s.bars ∧
        t.leases = s.leases ∧ t.mem = s.mem) ∧
    (may → c.run = .running → c.away = none → c.out ≠ [] → (∀ w, c.wait = some w → w.kind ≠ .fullWrite) →
      exec (.debugHalt m) s = .next (s.modCtx m fun c => { c with stopReq := some byDebugger }))) ∧
  (∀ (m : Nat) (f : List Byte) (s : State),
    let c := s.ctx m
    let p := c.part.toNat
    ((∀ was, c.run ≠ .halted was) → exec (.debugResume m f) s = .next s) ∧
    (∀ was, c.run = .halted was → f = [] → ∃ t, exec (.debugResume m f) s = .next t ∧
      (t.ctx m).run = (match was with | some w => .stopped w | none => .running) ∧ (t.ctx m).pc = c.pc ∧ (t.ctx m).x = c.x ∧
      (t.ctx m).wait = none ∧ t.mem = s.mem ∧ (was = none → (t.core (m / 16)).bow = (s.core (m / 16)).bow ||| c.bowgrp) ∧
      ((∃ x ∈ s.ctxs, x.1 ≠ m ∧ x.2.part.toNat = p ∧ ∃ w, x.2.run = .halted w) → (s.ctxs.map (·.1)).Nodup → (t.part p).frozen = (s.part p).frozen) ∧
      (∀ k, (s.part p).frozen = some k → (∀ x ∈ s.ctxs, x.1 ≠ m → x.2.part.toNat = p → ∀ w, x.2.run ≠ .halted w) → (s.ctxs.map (·.1)).Pairwise (· < ·) →
        (t.part p).frozen = none ∧
        ∀ n w, n ≠ m → (s.ctx n).part.toNat = p → (s.ctx n).wait = some w → w.since ≤ s.tick →
          (t.ctx n).wait = some { w with since := if w.since ≤ k then w.since + (s.tick - k) else s.tick })) ∧
    (∀ was, c.run = .halted was → f.length = 512 → frameFault s (cidLayer (m / 16)) f = none →
      ∃ t, exec (.debugResume m f) s = .next t ∧ Loaded c (t.ctx m) f ∧ t.mem = s.mem ∧
        (t.core (m / 16)).bow = (s.core (m / 16)).bow ||| (t.ctx m).bowgrp ∧
        ∀ p, ownerPart s (m / 16) = some p → (t.ctx m).sec = blockSecure s p (m / 16) ∧ (m = supervisorOf s p → (t.ctx m).sup = true)) ∧
    (∀ was, c.run = .halted was → f ≠ [] → (f.length ≠ 512 ∨ ∃ e, frameFault s (cidLayer (m / 16)) f = some e) → exec (.debugResume m f) s = .next s))

/-- Firmware starts context 0 of a core where nothing runs in it: at the entry of the loaded image's monitor unit, or else at the PC that firmware gives
(the model's reading: log 93), in the world of the core's block (R384), with the descriptors at selectors 0–7, without supervisor mode or links; the
run entries kept for it are posted (R292, R363). -/
def Sys2Proof.Spec.MonitorsStart : Prop :=
  ∀ (cid pc : Nat) (s : State),
    let may := (s.boot.phase = 0x07 ∨ s.boot.phase = 0x0F) ∧ cidValid s.minimal cid = true ∧ (s.ctx (16 * cid)).run = .unspawned
    (¬may → exec (.context0Start cid pc) s = .next s) ∧
    let p := (ownerPart s cid).getD 0
    (may → ∃ t, exec (.context0Start cid pc) s = .next t ∧
      let c := t.ctx (16 * cid)
      c.run = .running ∧ c.pc = ((s.part p).mentry.getD (BitVec.ofNat 64 pc) &&& 0x0000FFFFFFFFFFFC) ∧ c.sup = false ∧ c.sec = blockSecure s p cid ∧ c.qlink = 0 ∧ c.msgdst = 0 ∧ c.bowgrp = 0 ∧
      (∀ i : Fin 8, c.segd i = tableEntry s cid i) ∧ (∀ i : Fin 8, c.sel.extractLsb' (4 * i.val) 4 = BitVec.ofNat 4 i.val) ∧
      (p < 16 → c.part.toNat = p) ∧ c.fretboard = (s.part p).mfret ∧
      (t.core cid).runents = [] ∧
      (∀ w ∈ (s.core cid).runents, (∃ n, hwWordTo n cid (16 * cid) w ∈ t.net) ∨ ∃ h ∈ t.held, h.w = hwWordTo 0 cid (16 * cid) w) ∧ t.mem = s.mem)

/-- The statements above together. -/
def Obligations.DebuggerAndMonitors : Prop := DebuggerHalts ∧ MonitorsStart

/-! ## Images, containment and reset, start-up, throttling, attestation -/

namespace Sys2Proof.Spec

/-! ### The object format (R352–R355) -/

/-- `n` bytes of a file at an offset, as a number (R1). -/
def num (f : List Byte) (o n : Nat) : Nat := leVal ((f.drop o).take n)

/-- `nsec` (Table 18.1). -/
def sectionCount (f : List Byte) : Nat := num f 12 4
/-- A field of the `i`-th section table entry (Table 18.2). -/
def secField (f : List Byte) (i o n : Nat) : Nat := num f (num f 16 8 + 48 * i + o) n
/-- `kind` of section `i`. -/
def kindAt (f : List Byte) (i : Nat) : Nat := secField f i 4 2
/-- `unit` of section `i`. -/
def unitAt (f : List Byte) (i : Nat) : Nat := secField f i 6 2
/-- `foff` of section `i`. -/
def foffAt (f : List Byte) (i : Nat) : Nat := secField f i 8 8
/-- `fsize` of section `i`. -/
def fsizeAt (f : List Byte) (i : Nat) : Nat := secField f i 16 8
/-- `loff` of section `i`. -/
def loffAt (f : List Byte) (i : Nat) : Nat := secField f i 24 8
/-- `msize` of section `i`. -/
def msizeAt (f : List Byte) (i : Nat) : Nat := secField f i 32 8
/-- `info` of section `i`. -/
def infoAt (f : List Byte) (i : Nat) : Nat := secField f i 40 4
/-- The bytes of section `i` in the file. -/
def contentsAt (f : List Byte) (i : Nat) : List Byte := (f.drop (foffAt f i)).take (fsizeAt f i)

/-- The section that holds the unit table. -/
def unitTable (f : List Byte) : Option Nat := (List.range (sectionCount f)).find? fun i => kindAt f i = 7
/-- Units of a file: entries of 32 bytes (R354). -/
def unitCount (f : List Byte) : Nat := match unitTable f with | some i => fsizeAt f i / 32 | none => 0
/-- A field of a unit's entry; zero beyond the table. -/
def unitField (f : List Byte) (u o n : Nat) : Nat :=
  match unitTable f with | some i => if u < unitCount f then num (contentsAt f i) (32 * u + o) n else 0 | none => 0
/-- A unit's layer mask names a layer. -/
def unitOn (f : List Byte) (u layer : Nat) : Bool := decide (u ≠ 0xFFFF) && decide (layer < 4) && (unitField f u 4 4).testBit layer

/-- A routine image in a file: handle, header, body (R354). -/
abbrev RImage := Nat × W32 × List W32

/-- Its bytes. -/
def routineBytes (x : RImage) : List Byte := leBytes 4 x.1 ++ leBytes 4 x.2.1.toNat ++ x.2.2.flatMap fun w => leBytes 4 w.toNat

/-- A routine section is these images, of handles 0–239 and of the body lengths that their headers give (R237, R354). -/
def RoutinesIn (bs : List Byte) (l : List RImage) : Prop :=
  bs = l.flatMap routineBytes ∧ ∀ x ∈ l, x.1 ≤ 239 ∧ x.2.2.length = (x.2.1.extractLsb' 27 5).toNat + 1

/-- The routines of a file, in its order. -/
def RoutinesOfFile (f : List Byte) (l : List RImage) : Prop :=
  let is := (List.range (sectionCount f)).filter fun i => kindAt f i = 6
  ∃ ls : List (List RImage), l = ls.flatten ∧ ls.length = is.length ∧
    ∀ (n : Nat) i r, is[n]? = some i → ls[n]? = some r → RoutinesIn (contentsAt f i) r

/-- A graph section is a list of graphs: a head with the counts of the task entries and the edge entries that follow it (R354). -/
def GraphsIn (bs : List Byte) : Prop :=
  ∃ l : List (List Byte), bs = l.flatten ∧ ∀ g ∈ l, g.length = 16 + 16 * num g 0 4 + 16 * num g 4 4

/-- A section obeys Tables 18.2 and 18.3 and the form of its kind (R353, R354). -/
def SectionHolds (f : List Byte) (i : Nat) : Prop :=
  let k := kindAt f i
  let c := contentsAt f i
  k ∈ [1, 2, 3, 4, 5, 6, 7, 8, 9, 11] ∧ foffAt f i + fsizeAt f i ≤ f.length ∧ fsizeAt f i ≤ msizeAt f i ∧
  (∃ a, 2 ≤ a ∧ a ≤ 12 ∧ secField f i 44 4 = 2 ^ a ∧ loffAt f i % 2 ^ a = 0) ∧
  (unitAt f i = 0xFFFF ∨ unitAt f i < unitCount f) ∧
  infoAt f i < (if k = 4 then 2 ^ 11 else if k = 5 then 2 ^ 4 else 1) ∧
  (k = 4 → 16 ≤ fsizeAt f i ∧ num c 4 12 = 0) ∧
  (k = 5 → fsizeAt f i % 16 = 0 ∧ ∀ j, j < fsizeAt f i / 16 → num c (16 * j + 8) 8 ≤ 1) ∧
  (k = 6 → ∃ l, RoutinesIn c l) ∧ (k = 7 → fsizeAt f i % 32 = 0 ∧ loffAt f i = 0) ∧ (k = 8 → GraphsIn c) ∧
  (k = 9 → fsizeAt f i % 40 = 0 ∧ ∀ j, j < fsizeAt f i / 40 → num c (40 * j) 4 ≤ 7) ∧ (k = 11 → fsizeAt f i % 64 = 0)

/-- A unit table entry obeys R354. -/
def UnitHolds (f : List Byte) (u : Nat) : Prop :=
  unitField f u 4 4 < 2 ^ 5 ∧ ((unitField f u 4 4).testBit 4 = false → unitField f u 16 4 = 0) ∧ unitField f u 20 12 = 0

/-- A symbol table entry obeys R355; an executable image holds no symbol of kind 4 (R357). -/
def SymbolHolds (f : List Byte) (i : Nat) : Prop :=
  let o := num f 24 8 + 24 * i
  (num f (o + 4) 2 < sectionCount f ∨ num f (o + 4) 2 = 0xFFFE ∨ num f (o + 4) 2 = 0xFFFF) ∧
  num f (o + 6) 1 ≤ 1 ∧ num f (o + 7) 1 ≤ 3 ∧ num f (o + 16) 8 = 0

/-- A file is a valid executable image under R352–R357 (which offsets of sections that are not placed are judged, and that a file has one unit table, is
the model's reading: log 70). -/
def FileHolds (f : List Byte) : Prop :=
  let flags := num f 8 4
  64 ≤ f.length ∧ num f 0 4 = 0x31464F57 ∧ num f 4 2 = 1 ∧ num f 6 2 = 2 ∧ (∀ b, 1 ≤ b → b ≤ 15 → flags.testBit b = false) ∧
  num f 16 8 + 48 * sectionCount f ≤ f.length ∧ num f 24 8 + 24 * num f 32 4 ≤ f.length ∧ num f 36 4 = 0 ∧ num f 40 8 ≤ f.length ∧
  num f 48 8 ≤ f.length ∧ (if flags.testBit 0 then num f 56 8 + 7896 = f.length else num f 56 8 = 0) ∧
  (flags / 2 ^ 16 = 0xFFFF ∨ flags / 2 ^ 16 < unitCount f) ∧
  (∀ i, i < sectionCount f → SectionHolds f i) ∧ (∀ u, u < unitCount f → UnitHolds f u) ∧ (∀ i, i < num f 32 4 → SymbolHolds f i) ∧
  ∀ i j, i < sectionCount f → j < sectionCount f → kindAt f i = 7 → kindAt f j = 7 → i = j

/-- The bytes that a digest covers: those before the signature block (R365). -/
def covered (f : List Byte) : List Byte := if (num f 8 4).testBit 0 then f.take (num f 56 8) else f

/-- The signature rule of a partition: a block is by algorithm 1, its digest is the file's, and its signature verifies under the trusted key
that it names; a file without one passes where the policy asks for none (R365). -/
def SignatureHolds (q : Partition) (f : List Byte) : Prop :=
  let o := num f 56 8
  ((num f 8 4).testBit 0 = false → q.sigReq = false) ∧
  ((num f 8 4).testBit 0 = true → num f o 4 = 1 ∧ (f.drop (o + 8)).take 32 = sha256 (covered f) ∧
    ∃ k, (q.keys.find? fun x => x.1 = num f (o + 4) 4).map (·.2) = some k ∧
      Config.signatureValid k (sha256 (covered f)) ((f.drop (o + 40)).take 7856) = true)

/-! ### Placement (R358–R363) -/

/-- A descriptor of a partition's segment table, as its first core on such layers holds it, or else its first core (R169; which copy counts is the model's
choice: log 72). -/
def segOfPart (s : State) (p : Nat) (on : Nat → Bool) (q : Nat) : Option Desc :=
  (((partCores s p).find? fun c => on (cidLayer c)).or (partCores s p).head?).map fun c => tableEntry s c q

/-- A byte at a DVA of a partition lies at this location: at each copy where its page is replicated (R358, R388–R390). -/
def LiesAt (s : State) (p dva a : Nat) : Prop :=
  (s.part p).ptroot * 4096 + 4096 ≤ memoryEnd s ∧
  ∃ l b, WalkEnds s dva 4 ((s.part p).ptroot * 4096) (.leaf l b) ∧
    let pa := (l.extractLsb' 12 28).toNat * 2 ^ 12 / 2 ^ b * 2 ^ b + dva % 2 ^ b
    a = pa ∨ (l.getLsbD 7 = true ∧ ∃ die, die < 4 ∧ a = pa / 2 ^ 20 * 2 ^ 20 + die * 2 ^ 18 + pa % 2 ^ 18)

/-- Bytes before the image bytes of a section: the head of a bank image (R353). -/
def headOf (f : List Byte) (i : Nat) : Nat := if kindAt f i = 4 then 16 else 0
/-- Bytes that a section places: those of the file, then zeros (Table 18.2). -/
def placedLen (f : List Byte) (i : Nat) : Nat := msizeAt f i - headOf f i
/-- The `j`-th of them. -/
def placedAt (f : List Byte) (i j : Nat) : Byte := (contentsAt f i).getD (headOf f i + j) 0

/-- The selector of the segment that holds a kind of data: `s4`, or `s5` for constants (Table 18.3). -/
def dataSel (k : Nat) : Option Nat := match k with | 2 | 8 | 11 => some 4 | 3 => some 5 | _ => none

/-- Section `i` places its `j`-th byte at a location (R358, R359). -/
def Puts (s : State) (p : Nat) (f : List Byte) (i j a : Nat) : Prop :=
  i < sectionCount f ∧ j < placedLen f i ∧
  ((kindAt f i = 1 ∧ ∃ l d, unitOn f (unitAt f i) l = true ∧ segOfPart s p (· == l) 0 = some d ∧ a = Config.codeLoc l (segBase d + loffAt f i + j)) ∨
   (∃ q d, dataSel (kindAt f i) = some q ∧ segOfPart s p (fun _ => true) q = some d ∧ LiesAt s p (segBase d + loffAt f i + j) a) ∨
   (kindAt f i = 4 ∧ ∃ c ∈ partCores s p, unitOn f (unitAt f i) (cidLayer c) = true ∧
     a = Config.spadLoc c (infoAt f i % 16 * Config.bankSize (cidLayer c) + loffAt f i + j)))

/-- What a section places fits its segment or its bank, and stays out of the last 1,280 bytes of bank 15 (R358, R359). -/
def SectionFits (s : State) (p : Nat) (f : List Byte) (i : Nat) : Prop :=
  let fits := fun d space => segSpace d = space ∧ loffAt f i + msizeAt f i ≤ segLimit d
  (kindAt f i = 1 → ∀ l, unitOn f (unitAt f i) l = true → ∃ d, segOfPart s p (· == l) 0 = some d ∧ fits d 3) ∧
  (∀ q, dataSel (kindAt f i) = some q → ∃ d, segOfPart s p (fun _ => true) q = some d ∧ fits d 2 ∧
    ∀ j, j < msizeAt f i → ∃ a, LiesAt s p (segBase d + loffAt f i + j) a) ∧
  ∀ c ∈ partCores s p, unitOn f (unitAt f i) (cidLayer c) = true →
    let z := Config.bankSize (cidLayer c)
    (kindAt f i = 4 → loffAt f i + placedLen f i ≤ z ∧
      ¬(infoAt f i % 16 = 15 ∧ 0 < placedLen f i ∧ z - 1280 < loffAt f i + placedLen f i)) ∧
    (kindAt f i = 5 → ∀ j, j < fsizeAt f i / 16 → num (contentsAt f i) (16 * j) 4 + num (contentsAt f i) (16 * j + 4) 4 ≤ z)

/-- The order in which things are placed: sections before the banks, the banks by units, then by sections, then within a section (R359, R364). -/
def Before (f : List Byte) (x y : Nat × Nat) : Prop :=
  let rank := fun i => if kindAt f i = 4 then unitAt f i + 1 else 0
  rank x.1 < rank y.1 ∨ (rank x.1 = rank y.1 ∧ (x.1 < y.1 ∨ (x.1 = y.1 ∧ x.2 < y.2)))

/-- Section `i` is an image of bank `b`, which a core gets. -/
def Declares (f : List Byte) (i c b : Nat) : Prop :=
  i < sectionCount f ∧ kindAt f i = 4 ∧ infoAt f i % 16 = b ∧ unitOn f (unitAt f i) (cidLayer c) = true

/-- Entry `j` of section `i` gives a unit's state of the granule that holds a byte of bank `b` (R353, R359). -/
def Ranges (f : List Byte) (i j u b off : Nat) : Prop :=
  let c := contentsAt f i
  i < sectionCount f ∧ kindAt f i = 5 ∧ unitAt f i = u ∧ infoAt f i % 16 = b ∧ j < fsizeAt f i / 16 ∧ 0 < num c (16 * j + 4) 4 ∧
  num c (16 * j) 4 / 16 ≤ off / 16 ∧ off / 16 ≤ (num c (16 * j) 4 + num c (16 * j + 4) 4 - 1) / 16

/-- Entry `j` of section `i` gives weight set `w` of a core (R362). -/
def Weighs (f : List Byte) (i j c w : Nat) : Prop :=
  i < sectionCount f ∧ kindAt f i = 9 ∧ unitOn f (unitAt f i) (cidLayer c) = true ∧ j < fsizeAt f i / 40 ∧ num (contentsAt f i) (40 * j) 4 = w

/-- The order of two pairs. -/
def PairLt (x y : Nat × Nat) : Prop := x.1 < y.1 ∨ (x.1 = y.1 ∧ x.2 < y.2)

/-- Nothing runs and every memory is as at power-on; time goes on (R430). -/
def NothingRuns (s t : State) : Prop :=
  t.ctxs = [] ∧ t.cores = [] ∧ t.mem = [] ∧ t.poison = [] ∧ t.empties = [] ∧ t.net = [] ∧ t.store = [] ∧ t.bars = [] ∧ t.puts = [] ∧
  t.tick = s.tick ∧ t.gtime = s.gtime ∧ t.outbox = s.outbox

/-- A start is under way: it has reached a phase, and neither phase 0x0F nor a cause (R430). -/
abbrev Starting (b : Boot) : Prop := b.phase ≠ 0 ∧ b.phase ≠ 0x0F ∧ b.cause = 0

/-- A start has been under way for 30 s (R430). -/
abbrev Late (s : State) : Prop := Starting s.boot ∧ s.boot.began + 30000000 * tickPerUs ≤ s.tick

/-- The mode of the start that a `DEVICE_START` makes or goes on with (R432). -/
def startMode (b : Boot) : Bool := if Starting b then b.minimal else decide (3 ≤ b.fails)

/-- The phase that a start which is under way has reached. -/
def phaseNow (b : Boot) : BitVec 8 := if Starting b then b.phase else 0

/-- The counts after a failed start (R432). -/
def StartFailed (b c : Boot) (minimal : Bool) : Prop :=
  c.minimal = minimal ∧
  (minimal = false → c.fails = min 3 (b.fails + 1) ∧ c.minFails = b.minFails ∧ c.held = false) ∧
  (minimal = true → c.fails = b.fails ∧ c.minFails = b.minFails + 1 ∧ (c.held = true ↔ 3 ≤ b.minFails + 1))

/-- A phase of Table 22.8 before the last. -/
def APhase (p : BitVec 8) : Prop := 1 ≤ p ∧ p ≤ 7

/-- Tables 22.10 and 22.12 let a phase end with a cause and a part. -/
def Causes (cause : BitVec 8) (unit : BitVec 7) : Prop :=
  (cause ∈ [0x01, 0x02, 0x03, (0x09 : BitVec 8)] ∧ unit = 0) ∨
  (cause ∈ [0x04, (0x05 : BitVec 8)] ∧ ∃ n, n ≤ 7 ∧ unit = BitVec.ofNat 7 (5 * 16 + n)) ∨
  (cause = 0x06 ∧ ∃ n, n ≤ 5 ∧ unit = BitVec.ofNat 7 (1 * 16 + n)) ∨
  (cause = 0x07 ∧ ∃ n, n ≤ 4 ∧ unit = BitVec.ofNat 7 (4 * 16 + n)) ∨
  (cause = 0x08 ∧ ∃ n, n ≤ 7 ∧ unit = BitVec.ofNat 7 (2 * 16 + n))

/-- The physical cores of a cluster that work, of its 24 and two spares (R10, R431). -/
def worksOf (bad : List (Nat × Nat)) (key : Nat) : List Nat := (List.range 26).filter fun i => (key, i) ∉ bad

/-- The clusters of column (kx, ky), with k = kx + 4·ky: one of layer 1 and four base clusters (R382), numbered 64·layer + cluster. -/
def clustersOf (k : Nat) : List Nat :=
  let (x, y) := (2 * (k % 4), 2 * (k / 4))
  [64 + k, x + 8 * y, x + 1 + 8 * y, x + 8 * (y + 1), x + 1 + 8 * (y + 1)]

/-- The clusters of layers 2 and 3, which every start needs. -/
def upperClusters : List Nat := [128, 129, 130, 131, 192]

/-- A column's clusters have 24 working cores each. -/
def columnPasses (bad : List (Nat × Nat)) (k : Nat) : Bool := (clustersOf k).all fun c => 24 ≤ (worksOf bad c).length

/-- The map of logical to physical cores that a flood records: the working cores of each cluster in physical order (R431); in minimal mode the
clusters of the column serve as those of column 0 (R433). -/
def Mapped (t : State) (minimal : Bool) (column : Nat) (bad : List (Nat × Nat)) : Prop :=
  (∀ c ∈ upperClusters, (t.cluster c).phys = (worksOf bad c).take 24) ∧
  (minimal = false → ∀ c, c < 80 → (t.cluster c).phys = (worksOf bad c).take 24) ∧
  (minimal = true → ∀ n, n < 5 → (t.cluster ((clustersOf 0).getD n 0)).phys = (worksOf bad ((clustersOf column).getD n 0)).take 24)

/-- A partition's log with an entry of a type appended: time and digest in their places, and the chain over them (R437). -/
def Appended (g h : MLog) (type time : Nat) (digest : List Byte) : Prop :=
  digest.length = 32 → ∃ e, h.entries = g.entries ++ [e] ∧ e.length = 64 ∧ leVal (e.take 8) = type ∧ leVal ((e.drop 8).take 8) = time % 2 ^ 64 ∧
    (e.drop 16).take 32 = digest ∧ (e.drop 48) = List.replicate 16 0 ∧ h.chain = sha256 (g.chain ++ digest)

/-- The status of a load (Table 18.5). -/
def withStatus (p code low : Nat) (s : State) : State := s.modPart p fun q => { q with status := BitVec.ofNat 64 (code * 2 ^ 32 + low) }

/-! ### Regions -/

/-- A location lies in a scratchpad of a region of cores. -/
def InRegion (r : Nat → Bool) (loc : Nat) : Prop := 2 ^ 40 ≤ loc ∧ loc < 2 ^ 49 ∧ r ((loc - 2 ^ 40) / 2 ^ 22) = true

/-- A location is held by a core of a region: in its scratchpad, or in a channel of HBM that it serves (R175). -/
def HeldIn (r : Nat → Bool) (s : State) (loc : Nat) : Prop := loc < 2 ^ 49 ∧ r (ownerOfLoc s.minimal loc) = true

/-- An access goes to a core of a region: an end of one of its ranges lies there. -/
def GoesInto (r : Nat → Bool) (s : State) (a : Acc) : Prop := ∃ x ∈ a.at_, HeldIn r s x.1 ∨ HeldIn r s (x.1 + (x.2.1 - 1))

/-- The destination-reset notice of a context (Table 21.5). -/
def resetNoticeOf (dst : Nat) : Word := BitVec.ofNat 64 (0x0D * 2 ^ 56 + 2 ^ 32 + dst / 16 * 2 ^ 16 + dst % 16)

/-- The destinations of words of a sender that a region has accepted and now loses: on the networks, at its ingress, in its mailboxes, and the operations
on its counters (R415). -/
def lostOf (r : Nat → Bool) (s : State) (src : Nat) : List Nat :=
  ((s.net.filter fun w => w.hw = false ∧ w.src = src ∧ r (w.dst / 16) = true).map (·.dst)) ++
  ((s.ingress.filter fun w => w.hw = false ∧ w.src = src ∧ r (w.dst / 16) = true).map (·.dst)) ++
  (s.ctxs.filter fun x => r (x.1 / 16) = true).flatMap (fun x => (x.2.mbx.filter fun w => w.hw = false ∧ w.src = src).map fun _ => x.1) ++
  ((s.cops.filter fun o => o.src = src ∧ o.src < 2 ^ 20 ∧ r o.cid = true).map fun o => 16 * o.cid)

/-- The words of a value that are on their way to a context. -/
def countOf (s : State) (dst : Nat) (v : Word) : Nat := ((s.net ++ s.held.map (·.w)).filter fun w => w.hw = true ∧ w.dst = dst ∧ w.v = v).length

/-- A region of cores has been reset (R415, R428, R429): contexts, scratchpads, full-empty state, poison, matrix state, weights, engines and servers
are as at start-up but for the retention registers that firmware wrote, and words for it are gone, but for the dispatcher's counter operations; each
word of an outside context that is lost gives its sender one notice. -/
def RegionReset (r : Nat → Bool) (s t : State) : Prop :=
  (∀ x ∈ s.ctxs, r (x.1 / 16) = true → (t.ctx x.1).run = .unspawned ∧ (t.ctx x.1).mbx = [] ∧ (t.ctx x.1).qin = [] ∧ (t.ctx x.1).fretboard = 0 ∧
    (t.ctx x.1).qcls = 0 ∧ (t.ctx x.1).away = none ∧ (t.ctx x.1).out = [] ∧ (t.ctx x.1).wait = none) ∧
  (∀ a, InRegion r a → memGet t.mem a = 0) ∧ (∀ w ∈ t.poison, ¬InRegion r (8 * w)) ∧ (∀ g ∈ t.empties, ¬InRegion r (16 * g)) ∧
  (∀ a, ¬InRegion r a → (∀ m, a < recordLoc m ∨ recordLoc m + 64 ≤ a) → memGet t.mem a = memGet s.mem a) ∧
  (∀ c, r c = true → t.core c = { State.reset.core c with
    retEn := (s.core c).retEn, retIdle := (s.core c).retIdle }) ∧
  (∀ w ∈ t.net, r (w.dst / 16) = false) ∧ (∀ w ∈ t.ingress, r (w.dst / 16) = false) ∧ (∀ o ∈ t.cops, 2 ^ 20 ≤ o.src ∨ (r o.cid = false ∧ r (o.src / 16) = false)) ∧
  (∀ u ∈ t.reds, r u.owner = false ∧ r u.by_ = false) ∧ (∀ p ∈ t.props, ∀ c, p.by_ = some c → r c = false) ∧
  (∀ src dst, r (src / 16) = false → dst ∈ lostOf r s src → 0 < countOf t src (resetNoticeOf dst)) ∧
  (s.bars = [] → s.tokens = [] → s.feq = [] → s.held = [] → (∀ x ∈ s.ctxs, x.2.away = none ∧ x.1 < 2 ^ 20) → (∀ w ∈ s.net ++ s.ingress, w.dst < 2 ^ 20) →
    (∀ o ∈ s.cops, o.cid < 2 ^ 16) → ∀ src v, r (src / 16) = false → v.extractLsb' 56 8 = (0x0D : BitVec 8) →
      countOf t src v = countOf s src v + ((lostOf r s src).filter fun d => resetNoticeOf d = v).length)

/-- What contexts outside of a region lose by its reset: a relaxed access ends as late poison, a plain one as a precise trap, a command of an engine that works
at a tile there with a fault, and a thread that was hosted there takes poison at home with the registers that it left with (R189, R428; that the plain
store's trap has its own PC where later instructions have run is the model's reading: log 81). -/
def OutsideEnds (r : Nat → Bool) (s t : State) : Prop :=
  (∀ m, r (m / 16) = false → (s.feq.all fun w => w.who ≠ m) = true →
    (∀ a, (s.ctx m).away = some a → (a.phase = .queued ∨ ∃ n, a.phase = .hosted n) → r a.host = true →
      (t.ctx m).run = .stopped .trap ∧ (t.ctx m).tcause = 0x13 ∧ (t.ctx m).tinfo = memTinfo 0 12 false (BitVec.ofNat 48 a.host) ∧
      (t.ctx m).tpc = a.left.pc ∧ (t.ctx m).x = a.left.x ∧ (t.ctx m).k = a.left.k ∧ (t.ctx m).flags = a.left.flags ∧ (t.ctx m).mode = a.left.mode ∧
      (t.ctx m).seg = a.left.seg ∧ (t.ctx m).sel = a.left.sel ∧ (t.ctx m).out = [] ∧ (t.ctx m).away = none) ∧
    (∀ x, (s.ctx m).away = none → (s.ctx m).out = [x] → GoesInto r s x →
      (t.ctx m).out = [] ∧ (t.ctx m).x = (s.ctx m).x ∧
      (x.rlx = true → (t.ctx m).late = some x.info ∧ (t.ctx m).run = (s.ctx m).run) ∧
      (x.rlx = false → (t.ctx m).run = .stopped .trap ∧ (t.ctx m).tcause = 0x13 ∧ (t.ctx m).tinfo = x.info ∧ (t.ctx m).tpc = x.ipc)) ∧
    (∀ a n x, (s.ctx m).away = some a → a.phase = .hosted n → r a.host = false → (s.ctx m).out = [x] → GoesInto r s x →
      x.rlx = false → (t.ctx m).out = [] ∧ ∃ b, (t.ctx m).away = some b ∧ b.phase = .toHome ∧ b.trap.map (·.t) = some ⟨0x13, x.info⟩) ∧
    ((s.ctx m).away = none → (s.ctx m).out = [] → (t.ctx m).x = (s.ctx m).x ∧ (t.ctx m).pc = (s.ctx m).pc ∧ (t.ctx m).run = (s.ctx m).run ∧
      (t.ctx m).late = (s.ctx m).late)) ∧
  (∀ cid e i c, r cid = false → currentCmd s cid e = some (i, c) → c.prog.began = true →
    (∃ d ∈ c.dt.toList ++ c.at_.toList ++ c.bt.toList ++ c.dts, r d.cid = true) →
    ∃ d, (t.eng cid e).queue[i]? = some d ∧ d.prog.done = true ∧ d.prog.buf = [] ∧ d.prog.fault.isSome = true ∧ d.seq = c.seq)

end Sys2Proof.Spec

/-- Firmware loads into a partition that exists. One that is not quiescent ends with status 3 and changes nothing else; so does a wrong or a missing signature (2), an
invalid file (1) or a placement outside its segment or bank (4), in this order (R352–R359, R364, R365, R433; that a signature is judged before the rest of the
file is R364's order). -/
def Sys2Proof.Spec.LoadsAreChecked : Prop :=
  ∀ (p : Nat) (f : List Byte) (err : Bool) (s : State),
    (¬Exists s p → exec (.imageLoad p f err) s = .next s) ∧
    (Exists s p →
      (¬Quiescent s p → exec (.imageLoad p f err) s = .next (withStatus p 3 0 s)) ∧
      (Quiescent s p → f.length < 64 → exec (.imageLoad p f err) s = .next (withStatus p 1 0 s)) ∧
      (Quiescent s p → 64 ≤ f.length →
        (¬SignatureHolds (s.part p) f → exec (.imageLoad p f err) s = .next (withStatus p 2 0 s)) ∧
        (SignatureHolds (s.part p) f → ¬FileHolds f → exec (.imageLoad p f err) s = .next (withStatus p 1 0 s)) ∧
        (SignatureHolds (s.part p) f → FileHolds f → (∃ i, i < sectionCount f ∧ ¬SectionFits s p f i) →
          exec (.imageLoad p f err) s = .next (withStatus p 4 0 s))))

/-- A load that passes its checks leaves the placed bytes and no other byte, the bank formats and scales, full-empty states, weights and routines of the file, the last one
placed where two meet, enters its digest in the partition's log, takes the monitor's fretboard and entry, and empties the caches of code; a routine that R241
rejects ends it with status 5 and its `tinfo`, after those before it (log 73). An error ends it with status 6: then no byte is changed but those it would have
placed, and the partition has no image (R330, R358–R365, R437). -/
def Sys2Proof.Spec.LoadsPlace : Prop :=
  ∀ (p : Nat) (f : List Byte) (err : Bool) (s : State), Exists s p → Quiescent s p → SignatureHolds (s.part p) f → FileHolds f →
    (∀ i, i < sectionCount f → SectionFits s p f i) →
    ∃ t, exec (.imageLoad p f err) s = .next t ∧ Appended (s.part p).log (t.part p).log 3 s.gtime (sha256 (covered f)) ∧
      (∀ q, q ≠ p → t.part q = s.part q) ∧ (∀ c, c ∉ partCores s p → t.core c = s.core c) ∧ t.tick = s.tick ∧
      (s.feq = [] → t.ctxs = s.ctxs ∧ t.net = s.net) ∧
      (∀ a, (∀ i j, ¬Puts s p f i j a) → memGet t.mem a = memGet s.mem a) ∧
      (err = true → (t.part p).image = [] ∧ (t.part p).status = BitVec.ofNat 64 (6 * 2 ^ 32) ∧ t.loads = s.loads + 1) ∧
      (err = false → memWf s.mem = true → s.empties.Pairwise (· < ·) →
        (t.part p).image = f ∧
        (let u := num f 8 4 / 2 ^ 16
         (t.part p).mfret = (if u ≠ 0xFFFF then BitVec.ofNat 32 (unitField f u 16 4) else 0) ∧
         (t.part p).mentry = if u < unitCount f ∧ u ≠ 0xFFFF then some (BitVec.ofNat 64 (unitField f u 8 8)) else none) ∧
        (∀ c ∈ partCores s p, (t.core c).ic = []) ∧
        (∀ i j a, Puts s p f i j a → (∀ i' j', Puts s p f i' j' a → ¬Before f (i, j) (i', j')) → memGet t.mem a = placedAt f i j) ∧
        (∀ c ∈ partCores s p, ∀ b : Fin 16,
          ((∀ i, ¬Declares f i c b) → (t.core c).fmt[b.val] = (s.core c).fmt[b.val] ∧ (t.core c).bscl[b.val] = (s.core c).bscl[b.val]) ∧
          (∀ i, Declares f i c b → (∀ i', Declares f i' c b → ¬Before f (i, 0) (i', 0)) →
            (t.core c).fmt[b.val] = BitVec.ofNat 7 (infoAt f i / 16) ∧ (t.core c).bscl[b.val] = BitVec.ofNat 32 (num (contentsAt f i) 0 4) ∧
            (s.feq = [] → ∀ off, off < Config.bankSize (cidLayer c) →
              let g := Config.spadLoc c (b.val * Config.bankSize (cidLayer c) + off) / 16
              ((∀ i' j', ¬Ranges f i' j' (unitAt f i) b off) → g ∉ t.empties) ∧
              (∀ i' j', Ranges f i' j' (unitAt f i) b off → (∀ i2 j2, Ranges f i2 j2 (unitAt f i) b off → ¬PairLt (i', j') (i2, j2)) →
                (g ∈ t.empties ↔ num (contentsAt f i') (16 * j' + 8) 8 = 0))))) ∧
        (s.feq = [] → ∀ g, (∀ c ∈ partCores s p, ∀ i b, Declares f i c b → ∀ off, off < Config.bankSize (cidLayer c) →
          Config.spadLoc c (b * Config.bankSize (cidLayer c) + off) / 16 ≠ g) → (g ∈ t.empties ↔ g ∈ s.empties)) ∧
        (∀ c ∈ partCores s p, ∀ w k, w < 8 → k < 9 →
          ((∀ i j, ¬Weighs f i j c w) → tget 0 (t.core c).wset (9 * w + k) = tget 0 (s.core c).wset (9 * w + k)) ∧
          (∀ i j, Weighs f i j c w → (∀ i' j', Weighs f i' j' c w → ¬PairLt (i, j) (i', j')) →
            tget 0 (t.core c).wset (9 * w + k) = BitVec.ofNat 32 (num (contentsAt f i) (40 * j + 4 + 4 * k) 4))) ∧
        (∀ l, RoutinesOfFile f l →
          let good := l.takeWhile fun x => (rtnBad x.2.1 x.2.2).isNone
          (∀ h, tget none (t.part p).routines h = match good.reverse.find? fun x => x.1 = h with
            | some x => some (mkRoutine x.2.1 x.2.2)
            | none => tget none (s.part p).routines h) ∧
          (t.part p).status = match l[good.length]? with
            | some x => BitVec.ofNat 64 (5 * 2 ^ 32 + ((rtnBad x.2.1 x.2.2).getD 0).toNat % 2 ^ 32)
            | none => 0))

/-- The statements above together. -/
def Obligations.ImagesLoad : Prop := LoadsAreChecked ∧ LoadsPlace

/-- An error contains the cluster, the partition or the device that its trigger names: the contexts there issue nothing more (the model's reading of what
containment stops: log 74). A contained cluster is then reset, and later returned with its contexts 0 started; a reset that fails contains the
partition. A partition is reset as its clusters are, with its launches. What a reset core has of armed puts and neighbour queues is as at start-up (log 75;
R415, R427–R429). -/
def Obligations.ContainmentAndReset : Prop :=
  (∀ (l c : Nat) (s : State), ∃ t u, exec (.containment (.flitRetries l c)) s = .next t ∧ exec (.containment (.clusterError l c)) s = .next u ∧
    (t.cluster (64 * l + c)).down = true ∧ (u.cluster (64 * l + c)).down = true ∧
    (u.cluster (64 * l + c)).unc = min ((s.cluster (64 * l + c)).unc + 1) 0xFFFF ∧ t.mem = s.mem ∧ u.mem = s.mem ∧ t.ctxs = s.ctxs ∧ u.ctxs = s.ctxs ∧
    (∀ k, k ≠ 64 * l + c → t.cluster k = s.cluster k ∧ u.cluster k = s.cluster k) ∧
    ∀ m, clKey (s.hereOf m) = 64 * l + c → ready t m = false ∧ ready u m = false) ∧
  (∀ (p : Nat) (s : State), p < 16 → ∃ t, exec (.containment (.partitionState p)) s = .next t ∧ exec (.containment (.routineCopy p)) s = .next t ∧
    (t.part p).held = true ∧ t.mem = s.mem ∧ t.ctxs = s.ctxs ∧ ∀ m, ownerPart s (s.hereOf m) = some p → ready t m = false) ∧
  (∀ (l c : Nat) (s : State), c < 64 →
    (∀ p, ownerPart s (clusterCore l c 0) = some p →
      exec (.containment (.clusterResetFailed l c)) s = exec (.containment (.partitionState p)) s) ∧
    (ownerPart s (clusterCore l c 0) = none → exec (.containment (.clusterResetFailed l c)) s = .next s)) ∧
  (∀ (p : Nat) (s : State), ∀ tr ∈ [Trigger.partitionResetFailed p, .dispatcherState, .clocks, .verticalLinks],
    ∃ t, exec (.containment tr) s = .next t ∧ NothingRuns s t) ∧
  (∀ (l c : Nat) (s : State),
    let key := 64 * l + c
    let r := fun cid => decide (clKey cid = key)
    ((s.cluster key).down = false → exec (.clusterReset l c) s = .next s) ∧
    ((s.cluster key).down = true →
      ∃ t, exec (.clusterReset l c) s = .next t ∧ RegionReset r s t ∧ OutsideEnds r s t ∧ (t.cluster key).ptlb = [] ∧
        (t.cluster key).cor = (s.cluster key).cor ∧ (t.cluster key).unc = (s.cluster key).unc ∧ (t.cluster key).disc = (s.cluster key).disc ∧
        (t.cluster key).down = true)) ∧
  (∀ (l c pc : Nat) (s : State),
    let key := 64 * l + c
    ((s.cluster key).down = false → exec (.clusterReturn l c pc) s = .next s) ∧
    ((s.cluster key).down = true → ∃ t, exec (.clusterReturn l c pc) s = .next t ∧ (t.cluster key).down = false ∧
      ((s.boot.phase = 0x07 ∨ s.boot.phase = 0x0F) → ∀ cid ∈ layerCores s.minimal l, clKey cid = key → ∀ p, ownerPart s cid = some p →
        (∀ w ∈ s.feq, w.who ≠ 16 * cid) → (s.ctx (16 * cid)).run = .unspawned → (t.ctx (16 * cid)).run = .running ∧
          (t.ctx (16 * cid)).pc = ((s.part p).mentry.getD (BitVec.ofNat 64 pc) &&& 0x0000FFFFFFFFFFFC)))) ∧
  (∀ (p : Nat) (s : State), p < 16 →
    ∃ t, exec (.partitionReset p) s = .next t ∧ RegionReset (coreIn s p) s t ∧ OutsideEnds (coreIn s p) s t ∧ (t.part p).held = false ∧
      (t.part p).log = (s.part p).log ∧ (∀ l ∈ t.store, l.part.toNat ≠ p) ∧ (∀ i ∈ t.items, i.part.toNat ≠ p) ∧
      (∀ l ∈ s.store, l.part.toNat = p → ∀ o ∈ t.cops, o.src ≠ 2 ^ 20 + l.seq) ∧
      ∀ k, (s.cluster k).down = true → (t.cluster k).down = true)

/-- A start runs through its phases in order. One that reaches phase 0x0F leaves a cold device in its mode, with the map of its cores, the count and the logs of R432
and R437; one that fails, by a cause that Tables 22.10 and 22.12 list or by too few working cores in a cluster, keeps its phase and cause and adds
to the count of its mode; three failed full-mode starts lead to minimal mode and three failed minimal ones to no further start; `bootctl` and a power
cycle clear what R432 says (R430–R434, R437). That an event which names an outcome that no start has changes nothing, and that it also gives the first column
from which a minimal start may choose, is the model's choice (log 12). -/
def Sys2Proof.Spec.StartUp : Prop :=
  (∀ (o : StartOutcome) (s : State), s.boot.held = true ∨ Late s → exec (.deviceStart o) s = .next s) ∧
  (∀ (column : Nat) (bad : List (Nat × Nat)) (s : State), s.boot.held = false → ¬Late s → column < 16 →
    let minimal := startMode s.boot
    let needed := upperClusters ++ if minimal then [] else List.range 80
    let lacks := fun c => (worksOf bad c).length < 24
    (∀ col, (∀ c ∈ needed, ¬lacks c) → (if minimal then column ≤ col ∧ col < 16 ∧ columnPasses bad col = true ∧
        ∀ k, column ≤ k → k < col → columnPasses bad k = false else col = column) →
      ∃ t, exec (.deviceStart (.running column bad)) s = .next t ∧ NothingRuns s t ∧ t.boot.phase = 0x0F ∧ t.boot.cause = 0 ∧ t.boot.unit = 0 ∧
        t.boot.minimal = minimal ∧ t.boot.held = false ∧ Mapped t minimal col bad ∧
        (∀ p, p < 16 → (t.part p).log.entries.length = if minimal = false ∨ p = 0 then 1 else 0) ∧
        (minimal = false → t.boot.fails = 0 ∧ t.boot.minFails = s.boot.minFails ∧ t.dlog.entries.length = 1) ∧
        (minimal = true → t.boot.fails = s.boot.fails ∧ t.boot.minFails = 0 ∧ t.boot.column = col ∧ (t.part 0).cols = 1 ∧
          t.dlog.entries.length = 2)) ∧
    ((∃ c ∈ needed, lacks c) ∨ (minimal = true ∧ ∀ k, column ≤ k → k < 16 → columnPasses bad k = false) →
      (4 < phaseNow s.boot → exec (.deviceStart (.running column bad)) s = .next s) ∧
      (phaseNow s.boot ≤ 4 →
        ∃ t c, exec (.deviceStart (.running column bad)) s = .next t ∧ NothingRuns s t ∧ t.boot.phase = 4 ∧ t.boot.cause = 6 ∧ lacks c ∧
          t.boot.unit = BitVec.ofNat 7 (16 + dieOf (clusterCore (c / 64) (c % 64) 0)) ∧ StartFailed s.boot t.boot minimal))) ∧
  (∀ (phase cause : BitVec 8) (unit : BitVec 7) (s : State), s.boot.held = false → ¬Late s →
    (APhase phase ∧ phaseNow s.boot ≤ phase ∧ Causes cause unit →
      ∃ t, exec (.deviceStart (.failed phase cause unit)) s = .next t ∧ NothingRuns s t ∧ t.boot.phase = phase ∧ t.boot.cause = cause ∧
        t.boot.unit = unit ∧ StartFailed s.boot t.boot (startMode s.boot)) ∧
    (¬(APhase phase ∧ phaseNow s.boot ≤ phase ∧ Causes cause unit) → exec (.deviceStart (.failed phase cause unit)) s = .next s)) ∧
  (∀ (phase : BitVec 8) (s : State), s.boot.held = false → ¬Late s →
    (APhase phase ∧ phaseNow s.boot < phase →
      ∃ t, exec (.deviceStart (.unfinished phase)) s = .next t ∧ t.boot.phase = phase ∧ t.boot.cause = 0 ∧ t.boot.minimal = startMode s.boot) ∧
    (¬(APhase phase ∧ phaseNow s.boot < phase) → exec (.deviceStart (.unfinished phase)) s = .next s)) ∧
  (∀ s : State,
    (¬Late s → exec .startTimeout s = .next s) ∧
    (Late s → ∃ t, exec .startTimeout s = .next t ∧ NothingRuns s t ∧ t.boot.phase = s.boot.phase ∧ t.boot.cause = 0x0A ∧ t.boot.unit = 0 ∧
      StartFailed s.boot t.boot s.boot.minimal)) ∧
  (∀ (v : BitVec 32) (s : State),
    (v.getLsbD 0 = false → exec (.bootctlWrite (.bootctl v)) s = .next s) ∧
    (v.getLsbD 0 = true → ∃ t, exec (.bootctlWrite (.bootctl v)) s = .next t ∧ NothingRuns s t ∧ t.boot.fails = 0 ∧ t.boot.minFails = 0 ∧
      t.boot.minimal = false ∧ t.boot.held = false ∧ Starting t.boot)) ∧
  (∀ s : State, ∃ t, exec .powerCycle s = .next t ∧ NothingRuns s t ∧ t.boot.fails = s.boot.fails ∧ t.boot.minFails = 0 ∧ t.boot.held = false ∧
    startMode t.boot = decide (3 ≤ s.boot.fails))

/-- A throttling step changes the rate of the base clock by 0.1 GHz between 1.8 and 2.7 GHz and neither a cycle count nor another clock; a report
holds the fields of Table 22.11 (R435, R436, R438). -/
def Sys2Proof.Spec.ThrottlingAndReports : Prop :=
  (∀ (down : Bool) (s : State), s.clk[0].at_ ≤ s.tick → (s.tick - s.clk[0].at_) % Config.period s.clk[0].rate = 0 → 18 ≤ s.clk[0].rate → s.clk[0].rate ≤ 27 →
    ∃ t, exec (.throttleStep down) s = .next t ∧
      t.clk[0].rate = (if down then max 18 (s.clk[0].rate - 1) else min 27 (s.clk[0].rate + 1)) ∧ t.cycles 0 = s.cycles 0 ∧
      (∀ l, l = 1 ∨ l = 2 ∨ l = 3 → t.cycles l = s.cycles l) ∧ t.boot.thr = decide (t.clk[0].rate < 27) ∧ t.gtime = s.gtime ∧
      t.ctxs = s.ctxs ∧ t.mem = s.mem) ∧
  (∀ (p : Nat) (nonce : List Byte) (s : State), nonce.length = 32 → (∀ q, (s.part q).log.chain.length = 32) → s.dlog.chain.length = 32 →
    ∃ t r, exec (.attestationReport p nonce) s = .next t ∧ t.outbox = s.outbox ++ [r] ∧ { t with outbox := s.outbox } = s ∧ r.length = 7984 ∧
      let le := fun o n => leVal ((r.drop o).take n)
      le 0 4 = 1 ∧ le 4 4 = (if p < 16 then p else 0xFFFFFFFF) ∧ (r.drop 8).take 32 = nonce ∧ le 40 8 = s.gtime % 2 ^ 64 ∧
      le 48 4 = s.boot.phase.toNat + 2 ^ 8 * s.boot.cause.toNat + 2 ^ 16 * s.boot.unit.toNat + 2 ^ 23 * (s.boot.fails % 4) +
        (if s.boot.minimal then 2 ^ 25 else 0) + (if s.boot.thr then 2 ^ 26 else 0) ∧
      le 52 4 = s.dlog.entries.length % 2 ^ 32 ∧ (r.drop 56).take 32 = s.dlog.chain ∧
      le 88 4 = (if p < 16 then (s.part p).log.entries.length % 2 ^ 32 else 0) ∧ le 92 4 = 0 ∧
      (r.drop 96).take 32 = (if p < 16 then (s.part p).log.chain else List.replicate 32 0))

/-- The statements above together. -/
def Obligations.StartUpThrottlingReports : Prop := StartUp ∧ ThrottlingAndReports

/-! ## The whole machine -/

namespace Sys2Proof.Spec

/-- The instructions that compute on registers alone: integer, compare, select, predicate and floating-point ones. -/
def computes : Instr → Bool
  | .add .. | .sub .. | .and .. | .or .. | .xor .. | .andn .. | .shl .. | .shr .. | .sar .. | .rol .. | .mul .. | .mulh .. | .mulhu ..
  | .div .. | .divu .. | .rem .. | .remu .. | .min .. | .max .. | .minu .. | .maxu .. | .slt .. | .sltu .. | .clmul .. | .clmulh ..
  | .clz .. | .ctz .. | .popc .. | .brev .. | .bswap .. | .sxb .. | .sxh .. | .sxw .. | .zxb .. | .zxh .. | .zxw .. | .abs .. | .neg ..
  | .addi .. | .andi .. | .ori .. | .xori .. | .muli .. | .slti .. | .sltiu .. | .shli .. | .shri .. | .sari .. | .li .. | .lis .. | .lix ..
  | .cmpEq .. | .cmpNe .. | .cmpLt .. | .cmpGe .. | .cmpLtu .. | .cmpGeu .. | .cmpiEq .. | .cmpiNe .. | .cmpiLt .. | .cmpiGe .. | .cmpiLtu ..
  | .cmpiGeu .. | .sel .. | .kget .. | .kset .. | .kand .. | .kor .. | .kxor .. | .knot .. | .fadd .. | .fsub .. | .fmul .. | .fdiv ..
  | .fsqrt .. | .fmin .. | .fmax .. | .fabs .. | .fneg .. | .fsgnj .. | .fclass .. | .frcpa .. | .frsqa .. | .fexp2a .. | .flog2a .. | .fma ..
  | .fms .. | .fnma .. | .fnms .. | .fcmpEq .. | .fcmpLt .. | .fcmpLe .. | .fcmpUn .. | .fcmpEqs .. | .fcvt .. => true
  | _ => false

/-- Registers that an instruction which computes writes, by number; predicates are not among them. -/
def destinationOf : Instr → Option Reg
  | .add d .. | .sub d .. | .and d .. | .or d .. | .xor d .. | .andn d .. | .shl d .. | .shr d .. | .sar d .. | .rol d .. | .mul d .. | .mulh d ..
  | .mulhu d .. | .div d .. | .divu d .. | .rem d .. | .remu d .. | .min d .. | .max d .. | .minu d .. | .maxu d .. | .slt d .. | .sltu d ..
  | .clmul d .. | .clmulh d .. | .clz d .. | .ctz d .. | .popc d .. | .brev d .. | .bswap d .. | .sxb d .. | .sxh d .. | .sxw d .. | .zxb d ..
  | .zxh d .. | .zxw d .. | .abs d .. | .neg d .. | .addi d .. | .andi d .. | .ori d .. | .xori d .. | .muli d .. | .slti d .. | .sltiu d ..
  | .shli d .. | .shri d .. | .sari d .. | .li d .. | .lis d .. | .lix d .. | .sel d .. | .kget d .. | .fadd d .. | .fsub d .. | .fmul d ..
  | .fdiv d .. | .fsqrt d .. | .fmin d .. | .fmax d .. | .fabs d .. | .fneg d .. | .fsgnj d .. | .fclass d .. | .frcpa d .. | .frsqa d ..
  | .fexp2a d .. | .flog2a d .. | .fma d .. | .fms d .. | .fnma d .. | .fnms d .. | .fcvt d .. => some d
  | _ => none

/-- The predicate that an instruction which computes writes. -/
def predicateOf : Instr → Option (BitVec 5)
  | .cmpEq k .. | .cmpNe k .. | .cmpLt k .. | .cmpGe k .. | .cmpLtu k .. | .cmpGeu k .. | .cmpiEq k .. | .cmpiNe k .. | .cmpiLt k ..
  | .cmpiGe k .. | .cmpiLtu k .. | .cmpiGeu k .. | .kset k .. | .kand k .. | .kor k .. | .kxor k .. | .knot k .. | .fcmpEq k .. | .fcmpLt k ..
  | .fcmpLe k .. | .fcmpUn k .. | .fcmpEqs k .. => some k
  | _ => none

/-- The instructions that may set a flag: those that saturate, divide or compute in floating point (R75, R126, R128, R139). -/
def mayFlag : Instr → Bool
  | .add .. | .sub .. | .mul .. | .shl .. | .abs .. | .neg .. | .addi .. | .muli .. | .shli .. | .div .. | .divu .. | .rem .. | .remu .. | .fadd ..
  | .fsub .. | .fmul .. | .fdiv .. | .fsqrt .. | .fmin .. | .fmax .. | .frcpa .. | .frsqa .. | .fexp2a .. | .flog2a .. | .fma .. | .fms .. | .fnma ..
  | .fnms .. | .fcmpEq .. | .fcmpLt .. | .fcmpLe .. | .fcmpUn .. | .fcmpEqs .. | .fcvt .. => true
  | _ => false

/-- The instructions that may draw a random value: those that round (R69, R73). -/
def mayDraw : Instr → Bool
  | .fadd .. | .fsub .. | .fmul .. | .fdiv .. | .fsqrt .. | .fma .. | .fms .. | .fnma .. | .fnms .. | .fcvt .. => true
  | _ => false

/-- What an instruction that computes may change, completed, waiting or trapped (R27–R33, R228): its own destination, flags, predicate and PC;
the generator where it rounds; words that its register fields pop or send; and, where it traps, the trap's own registers and record, and what others noted of a
stop or a mute that is given up with it. -/
def ComputeFrame (i : Instr) (s t : State) : Prop :=
  let c := s.me
  let d := t.me
  (∀ a, a < recordLoc s.cur ∨ recordLoc s.cur + 64 ≤ a → memGet t.mem a = memGet s.mem a) ∧
  (d.run = c.run → t.mem = s.mem ∧ t.poison = s.poison ∧ d.tcause = c.tcause ∧ d.tinfo = c.tinfo ∧ d.tpc = c.tpc) ∧
  t.empties = s.empties ∧ t.keyed = s.keyed ∧ t.parts = s.parts ∧ t.clusters = s.clusters ∧ t.leases = s.leases ∧ t.bars = s.bars ∧
  t.tick = s.tick ∧ t.clk = s.clk ∧ t.cur = s.cur ∧
  (∀ n, n < 24 → (∀ r, destinationOf i = some r → r.toNat ≠ n) → d.reg n = c.reg n) ∧
  (∀ n, n < 31 → (∀ k, predicateOf i = some k → k.toNat ≠ n) → d.k.getLsbD n = c.k.getLsbD n) ∧
  (c.mbx = [] → (∀ k, predicateOf i = some k → k.toNat ≠ 31) → d.k.getLsbD 31 = c.k.getLsbD 31) ∧
  c.flags &&& ~~~d.flags = 0 ∧ (mayFlag i = false → d.flags = c.flags) ∧
  (NoneEntering s s.cur → mayDraw i = false ∨ effRnd s.grp c.mode ≠ 6 → d.rngst = c.rngst ∧ d.gpos = c.gpos) ∧
  d = { c with
    run := d.run, pc := d.pc, via := d.via, x := d.x, k := d.k, flags := d.flags, rngst := d.rngst, gpos := d.gpos, tcause := d.tcause, tinfo := d.tinfo,
    tpc := d.tpc, mbx := d.mbx, rot := d.rot, qin := d.qin, out := d.out, pops := d.pops, wait := d.wait, rcv := d.rcv, notice := d.notice,
    away := d.away, stopReq := d.stopReq, muteOut := d.muteOut } ∧
  (∀ n, n ≠ s.cur → t.ctx n = s.ctx n ∨ t.ctx n = { s.ctx n with
    stopReq := if (s.ctx n).stopReq = some s.cur then none else (s.ctx n).stopReq, muteOut := (s.ctx n).muteOut.filter (· ≠ s.cur) }) ∧
  ∀ k, (t.core k).fmt = (s.core k).fmt ∧ (t.core k).bscl = (s.core k).bscl ∧ (t.core k).mx = (s.core k).mx ∧ (t.core k).wset = (s.core k).wset ∧
    (t.core k).dlg = (s.core k).dlg ∧ (t.core k).bank = (s.core k).bank ∧ (t.core k).armed = (s.core k).armed ∧ (t.core k).armput = (s.core k).armput

/-- The bits of an instruction's words as the opcode table numbers them. -/
def tableNumber (ws : List W32) : Nat := (ws.getD 0 0).toNat + 2 ^ 32 * (ws.getD 1 0).toNat

/-- Memory and the two sets that go with it are in their canonical forms (each is equal data wherever it is equal content). -/
def Canonical (s : State) : Prop :=
  memWf s.mem = true ∧ s.poison.Pairwise (· < ·) ∧ s.empties.Pairwise (· < ·)

end Sys2Proof.Spec

/-- An instruction that computes on registers leaves all of memory but its context's trap record, every other context, and every register, predicate, flag and
special register but its destination, the flags and random values of its operation and those that R228 gives a trap as they were, whether it completes, waits or
traps: in a running context, at home or as a migrant, whose trap writes nothing before it is home (R186). -/
def Obligations.ComputingFrame : Prop :=
  ∀ (i : Instr) (s t : State), computes i = true → s.me.run = .running → exec i s = .next t →
    ComputeFrame i s t

/-- For every well-formed instruction, whatever its fields hold, the words that stand for it decode to it on every layer whose cores have its major
opcode, and their length is the one that the first word tells. -/
def Obligations.EncodingRoundTrip : Prop := ∀ i : Instr, Laws.RoundTrip.Statement i

/-- Words written out bit by bit from the spec's formats, one for each format: RR, R4, RI, LI, compare, branch, jump, memory, T64 and I64. -/
def Obligations.WordsDecode : Prop :=
  decodeTableWord 32 0b00000000_00011_00001_00010_0_0000001_0 = some (.sub 3 1 2 false false) ∧
  decodeTableWord 32 0b00000001_00101_00110_1111111111111_0 = some (.addi 5 6 0x1FFF false) ∧
  decodeTableWord 32 0b00001011_00111_1111111111111111110 = some (.li 7 0x7FFFE) ∧
  decodeTableWord 32 0b00001110_00100_00101_010_0000001001_0 = some (.cmpiLt 4 5 9) ∧
  decodeTableWord 32 0b00010101_00001_00010_00011_00100_100_0 = some (.fma 1 2 3 4 true false) ∧
  decodeTableWord 32 0b00100100_00101_00110_100_0000000100_0 = some (.ldw 5 6 4 4 false) ∧
  decodeTableWord 32 0b00110100_00001_00011_00100_010_00001_0 = some (.amoAdd 1 3 4 2 false) ∧
  decodeTableWord 32 0b00010001_00010_0010000100_00000000_0 = some (.srg 2 0x084) ∧
  decodeTableWord 32 0b01000001_00001_00010_11111111111111 = some (.bne 1 2 0x3FFF) ∧
  decodeTableWord 32 0b01000110_00011_0000000000000000101 = some (.bk 3 5) ∧
  decodeTableWord 32 0b01001000_111111111111111111111100 = some (.j 0xFFFFFC) ∧
  decodeTableWord 32 0b01001011_0011_01_10_11_00100_000000000 = some (.rep 3 1 2 3 4) ∧
  decodeTableWord 64 0b00000000000000000000000000000101_11000001_00000_0000000000000000000 = some (.calll 5) ∧
  decodeTableWord 64 0b00000010_1_01_000000000000000000000_11001000_00001_00010_00011_00000001_0
    = some (.fold ⟨1, 2, 3, 1, false, 0b00000010_1_01_000000000000000000000⟩)

/-- When a context stands at a group that decodes and its slot, for which the agenda asks, has come, the step is that instruction's effect in that context's
name, with its group noted, and nothing else beside the model's count and the bow marks; so it is for every well-formed instruction placed at the PC. -/
def Obligations.StepsRunDecodedInstructions : Prop :=
  (∀ (m : Nat) (s : State) (r : List Agenda) (pfxs : List W32) (w0 w1 : W32) (i : Instr), s.agenda = .slot m :: r →
    ((s.ctx m).wait ≠ none ∨ nextSlot s m ≤ s.tick) → ready s m = true → NothingPending (s.ctx m) →
    let b := beginSlot { s with agenda := r } m
    fetchGroup b m = .group pfxs w0 w1 false → decodeGroup b.layer b.me.via pfxs w0 w1 false = .ok i →
    let g := { b with grp := grpOf pfxs w0 w1 }
    (∀ t, exec i g = .next t → ∃ u, step s = .next u ∧ SameDevice u t) ∧
    (∀ e, exec i g = .fault e → step s = .fault e) ∧ (∀ e, exec i g = .refused e → step s = .refused e)) ∧
  (∀ (i : Instr) (s : State), i.wf = true → mbaValid s.minimal s.cur = true →
    let w0 := (encode i).getD 0 0
    majorAssigned (cidLayer (s.cur / 16)) w0 = true → (hasX w0 = true → w0.getLsbD 0 = false) →
    let p := s.withFetchWord (32 * (encode i).length) (tableNumber (encode i))
    let g := { beginSlot { p with agenda := [] } s.cur with grp := { Grp.none with instr := BitVec.ofNat 64 (tableNumber (encode i)) } }
    ∀ t, exec i g = .next t → ∃ u, step p = .next u ∧ SameDevice u t)

/-- Of the contexts that are ready and wait for nothing, `x` has its slot first, at tick `j`. -/
def Sys2Proof.Spec.FirstSlot (s : State) (j x : Nat) : Prop :=
  (∃ c, (x, c) ∈ s.ctxs ∧ c.wait = none ∧ ready s x = true ∧ nextSlot s x = j) ∧
  ∀ y ∈ s.ctxs, y.2.wait = none → ready s y.1 = true → j ≤ nextSlot s y.1

/-- The slots of a core with C contexts come in turn: context n has the cycles that are n modulo C, and issues in one of them once. Its next slot is
the first such cycle that has not begun before now, after the one in which it issued last. Time goes on to the next slot of any context that can issue, or to what
falls due before it, also where the agenda asks for a later slot, so that no context loses one to another. A context that cannot issue loses its slot, and no other
takes it; an instruction that waits is tried at once. What costs a context its slots is in Table 2.10 (R50–R52, R322, R427; log 104). -/
def Obligations.SlotsComeInTurn : Prop :=
  (∀ (m : Nat) (s : State) (r : List Agenda), s.agenda = .slot m :: r → mbaValid s.minimal m = true →
    let c := s.ctx m
    let l := cidLayer (s.hereOf m)
    let n := match c.hosted with | some x => x.2 | none => m % 16
    let clk := s.clk.getD l ⟨0, 0, 1⟩
    let begins := fun k => clk.at_ + (k - clk.cyc) * Config.period clk.rate
    n < Config.contexts l → clk.at_ ≤ s.tick → 18 ≤ clk.rate → clk.rate ≤ 48 → c.cyc ≤ s.cycles l →
    (∃ k, k % Config.contexts l = n ∧ c.cyc < k ∧ clk.cyc ≤ k ∧ s.tick ≤ begins k ∧ nextSlot s m = begins k ∧
      (∀ j, j < k → j % Config.contexts l = n → c.cyc < j → clk.cyc ≤ j → begins j < s.tick) ∧
      let u := { s with agenda := r, tick := begins k }
      u.cycles l = k ∧ (beginSlot u m).me.cyc = k ∧
      (begins k = s.tick → c.wait = none → ready s m = false → ∃ t, step s = .next t ∧ SameDevice t u)) ∧
    (c.wait ≠ none → step s = slotStep m { s with agenda := r }) ∧
    (c.wait = none → s.tick < nextSlot s m → atOnce (timedEvents s) s = none →
      (∀ j x, nextContext s = some (j, x) → FirstSlot s j x ∧
        (j < nextSlot s m → (∀ d, nextDue s = some d → j ≤ d) → step s = slotStep x { s with tick := max s.tick j })) ∧
      ((∀ j x, nextContext s = some (j, x) → nextSlot s m ≤ j) → (∀ d, nextDue s = some d → nextSlot s m ≤ d) →
        step s = slotStep m { s with agenda := r, tick := nextSlot s m }) ∧
      (∀ d, nextDue s = some d → d < nextSlot s m → (∀ j x, nextContext s = some (j, x) → d < j) → step s = .next { s with tick := d }))) ∧
  (∀ s : State, s.agenda = [] → atOnce (allEvents s) s = none →
    (∀ j x, nextContext s = some (j, x) → FirstSlot s j x ∧
      ((∀ d, nextDue s = some d → j ≤ d) → step s = slotStep x { s with tick := max s.tick j })) ∧
    (∀ d, nextDue s = some d → (∀ j x, nextContext s = some (j, x) → d < j) → step s = .next { s with tick := d }) ∧
    (nextContext s = none → nextDue s = none → step s = .next s)) ∧
  (∀ (m : Nat) (s : State),
    let c := s.ctx m
    (c.run ≠ .running ∨ (∃ a ∈ c.out, a.rlx = false ∧ ∀ v, a.kind ≠ .store v) ∨ (∃ a, c.away = some a ∧ ∀ n, a.phase ≠ .hosted n) ∨
      (∃ w, c.wait = some w ∧ (w.kind = .fullEmpty ∨ w.kind = .engineQueue ∨ w.kind = .delegation)) ∨ isolated s (s.hereOf m) = true →
      ready s m = false) ∧
    (mbaValid s.minimal m = true → c.run = .running → c.away = none → (∀ a ∈ c.out, Awake s a.at_ ∧ (a.rlx = true ∨ ∃ v, a.kind = .store v)) → c.wait = none →
      isolated s (s.hereOf m) = false → c.stopReq = none → c.muteOut = [] → (s.part c.part.toNat).drain = false → ready s m = true))

/-- Reset leaves what the spec gives: every context unspawned, every granule full, no poison, matrix state and weights +0, engines that will number
their first command 1, bow marks set, empty queues, no start made, and the layers' clocks at their rates; memory is in its canonical form. -/
def Obligations.ResetLeaves : Prop :=
  let s := State.reset
  Canonical s ∧ (∀ m, (s.ctx m).run = .unspawned ∧ (s.ctx m).mbx = [] ∧ (s.ctx m).qin = [] ∧ (s.ctx m).fretboard = 0 ∧ (s.ctx m).qcls = 0) ∧
  (∀ g, g ∉ s.empties) ∧ (∀ w, w ∉ s.poison) ∧
  (∀ c, (s.core c).mx = Mx.init ∧ (∀ n, tget 0 (s.core c).wset n = 0) ∧ (∀ e, (s.eng c e).next = 1 ∧ (s.eng c e).queue = []) ∧
    (s.core c).bow = BitVec.allOnes 16 ∧ (s.core c).dlg.en = false ∧ (s.core c).retEn = false) ∧
  s.boot.phase = 0 ∧ s.gtime = 0 ∧ (∀ l, s.cycles l = 0) ∧ (s.clk.map (·.rate)).toList = [27, 34, 41, 48]

/-- Every step keeps memory, poison and empty granules in their canonical forms: no store, engine, load of an image, trap, message or reset breaks them. -/
def Obligations.StepsKeepCanonicalMemory : Prop :=
  ∀ s t : State, Canonical s → step s = .next t → Canonical t

/-- No instruction and no event is refused or stops the device; a step faults only where the schedule names a context that the mesh does not have. -/
def Obligations.EveryStepGoesOn : Prop :=
  (∀ (i : Instr) (s : State), ∃ t, exec i s = .next t) ∧
  (∀ (s : State), (∃ t, step s = .next t) ∨ ∃ m r, s.agenda = .slot m :: r ∧ mbaValid s.minimal m = false ∧ step s = .fault (.absentAgent m))
/-! ## Roots, fused multiply-adds, conversions and approximations -/

namespace Sys2Proof.Spec

/-- `a × 2^(e' − 17)` is at most the root of `m × 2^e`. -/
def rootGe (m : Nat) (e e' : Int) (a : Nat) : Prop := a * a * 2 ^ (2 * e' - 34 - e).toNat ≤ m * 2 ^ (e - (2 * e' - 34)).toNat
/-- It is at least the root. -/
def rootLe (m : Nat) (e e' : Int) (a : Nat) : Prop := m * 2 ^ (e - (2 * e' - 34)).toNat ≤ a * a * 2 ^ (2 * e' - 34 - e).toNat

/-- `m' × 2^e'` is the root of `m × 2^e` rounded under a mode (Table 3.7, R69); the root of a value of the format is never a tie. -/
def RootsTo (rnd rho m : Nat) (e : Int) (m' : Nat) (e' : Int) : Prop :=
  (rnd = 1 ∨ rnd = 5 → rootGe m e e' ((2 * m' - 1) * 2 ^ 16) ∧ rootLe m e e' ((2 * m' + 1) * 2 ^ 16)) ∧
  (rnd = 2 ∨ rnd = 4 → rootGe m e e' (m' * 2 ^ 17) ∧ ¬rootGe m e e' ((m' + 1) * 2 ^ 17)) ∧
  (rnd = 3 → ¬rootLe m e e' ((m' - 1) * 2 ^ 17) ∧ rootLe m e e' (m' * 2 ^ 17)) ∧
  (rnd = 6 → ∃ q g, g < 2 ^ 16 ∧ rootGe m e e' (2 * (q * 2 ^ 16 + g)) ∧ ¬rootGe m e e' (2 * (q * 2 ^ 16 + g + 1)) ∧
    m' = if 2 ^ 16 ≤ g + rho then q + 1 else q)

/-- A NaN of a format, quieted; the fraction stands at the top of 52 bits (R58). -/
def quietNaN (code : Nat) (s : Bool) (frac : Nat) : Nat :=
  if code = 8 then sgnOf 8 s + 0x7F
  else infOf code s + (2 ^ ((params code).2.1 - 1) ||| frac / 2 ^ (52 - (params code).2.1))

/-- A magnitude with a sign. -/
def withSgn (s : Bool) (m : Nat) : Int := if s then -m else m

/-- Width and signedness of an integer format (Table 3.1). -/
def intFmt : Nat → Option (Bool × Nat)
  | 0 => some (true, 64) | 1 => some (false, 64) | 2 => some (true, 32) | 3 => some (false, 32) | 10 => some (true, 8)
  | 11 => some (false, 8) | _ => none
/-- The ends of its range (R56). -/
def intEnds (g : Bool × Nat) : Int × Int := if g.1 then (-2 ^ (g.2 - 1), 2 ^ (g.2 - 1) - 1) else (0, 2 ^ g.2 - 1)
/-- An integer's low bits in a format. -/
def intBits (n : Nat) (z : Int) : Nat := (z % 2 ^ n).toNat

end Sys2Proof.Spec

/-- The root of a positive value is rounded once, to the unit in the last place that its own binade gives, with NX where it is not exact; the roots of zeros and +∞ are themselves (R69, Table 6.8). A fused
multiply-add rounds its exact value once; 0 × ∞ sets NV beside any addend, and the first NaN operand is the result (R58, R78, R143). -/
def Sys2Proof.Spec.FpRootsAndFused : Prop :=
  ∀ (code : Nat) (v : REnv), code = 4 ∨ code = 5 → 1 ≤ v.rnd → v.rnd ≤ 6 → v.rho < 2 ^ 16 →
    (∀ (a m : Nat) (e : Int), decodeF code a = .fin false m e → m ≠ 0 →
      let r := fSqrt code v (.fin false m e)
      ∃ m' e', rootGe m e e' (2 ^ ((params code).2.1 + 17)) ∧ ¬rootGe m e e' (2 ^ ((params code).2.1 + 18)) ∧
        RootsTo v.rnd v.rho m e m' e' ∧ ReadsAs code false m' e' r.1 ∧
        (rootGe m e e' (m' * 2 ^ 17) ∧ rootLe m e e' (m' * 2 ^ 17) → r.2 = 0) ∧
        (¬(rootGe m e e' (m' * 2 ^ 17) ∧ rootLe m e e' (m' * 2 ^ 17)) → r.2 = 0b000010)) ∧
    (∀ s e, fSqrt code v (.fin s 0 e) = (sgnOf code s, 0)) ∧ fSqrt code v (.inf false) = (infOf code false, 0) ∧
    (∀ s q fr, fSqrt code v (.nan s q fr) = (quietNaN code s fr, if q then 0 else 0b100000)) ∧
    (∀ (s1 s2 s3 : Bool) (m1 m2 m3 : Nat) (e1 e2 e3 : Int),
      let l := min (e1 + e2) e3
      let t := withSgn (s1 != s2) (m1 * m2 * 2 ^ (e1 + e2 - l).toNat) + withSgn s3 (m3 * 2 ^ (e3 - l).toNat)
      fFma code v (.fin s1 m1 e1) (.fin s2 m2 e2) (.fin s3 m3 e3) =
        if t ≠ 0 then roundRes code v (decide (t < 0)) t.natAbs l
        else (sgnOf code (if m1 * m2 = 0 ∧ m3 = 0 ∧ (s1 != s2) = s3 then s3 else decide (v.rnd = 4)), 0)) ∧
    (∀ s1 s2 e1 z, (∀ s q fr, z = .nan s q fr → fFma code v (.fin s1 0 e1) (.inf s2) z = (quietNaN code s fr, 0b100000) ∧
        fFma code v (.inf s2) (.fin s1 0 e1) z = (quietNaN code s fr, 0b100000)) ∧
      (z.isNaN = false → fFma code v (.fin s1 0 e1) (.inf s2) z = (defaultNaN code, 0b100000) ∧
        fFma code v (.inf s2) (.fin s1 0 e1) z = (defaultNaN code, 0b100000))) ∧
    (∀ s1 s2 m2 e2 z, m2 ≠ 0 → (∀ s3 m3 e3, z = .fin s3 m3 e3 ∨ z = .inf (s1 != s2) →
        fFma code v (.inf s1) (.fin s2 m2 e2) z = (infOf code (s1 != s2), 0)) ∧
      fFma code v (.inf s1) (.fin s2 m2 e2) (.inf !(s1 != s2)) = (defaultNaN code, 0b100000)) ∧
    (∀ s1 m1 e1 s2 m2 e2 s3, fFma code v (.fin s1 m1 e1) (.fin s2 m2 e2) (.inf s3) = (infOf code s3, 0)) ∧
    (∀ (x y z : FVal) (s q : Bool) (fr : Nat),
      x = .nan s q fr ∨ (x.isNaN = false ∧ y = .nan s q fr) →
      fFma code v x y z = (quietNaN code s fr, if x.isSNaN || y.isSNaN || z.isSNaN then 0b100000 else 0)) ∧
    (∀ (s1 m1 e1 s2 m2 e2 s q fr),
      fFma code v (.fin s1 m1 e1) (.fin s2 m2 e2) (.nan s q fr) = (quietNaN code s fr, if q then 0 else 0b100000))

/-- A conversion takes the exact value of its source, element 0 of a group, and rounds it once into the destination format: overflow as R66 states,
NaNs as R58 states; into an integer format a NaN gives 0 and a value out of range the nearest end, with NV; between integer formats the low bits, or
the nearest end with SAT under the saturate policy; into `q4x` a slot code between −7 and 7. Between equal codes only a signalling NaN changes, and of a
`q4x` group slot 0 passes, an escape there as a value that is rounded to a plain slot code (log 89). Where the three fraction bits of the NaN of `e4m3`
come to stand in the fraction of another format is log 23 (R55, R58, R60, R61, R65, R66, R145; both logs DEDUCED). -/
def Sys2Proof.Spec.ConversionResults : Prop :=
  ∀ (src dst a : Nat) (v : REnv), src ≤ 12 → dst ≤ 12 → 1 ≤ v.rnd → v.rnd ≤ 6 → v.rho < 2 ^ 16 →
    let x := decodeV src a
    let sat := (v.pfx = true ∧ (v.sat = 1 ∨ v.sat = 2)) ∨ v.bank = true
    (∀ g, intFmt src = some g →
      let z : Int := if g.1 then (BitVec.ofNat g.2 a).toInt else ((a % 2 ^ g.2 : Nat) : Int)
      x = .fin (decide (z < 0)) z.natAbs 0) ∧
    (src = 12 → (a % 16 ≠ 8 → let z := (BitVec.ofNat 4 a).toInt; x = .fin (decide (z < 0)) z.natAbs 0) ∧
      (a % 16 = 8 → x = decodeF 8 (16 * (a / 16 % 16) + a / 256 % 16))) ∧
    (4 ≤ src → src ≤ 9 → x = decodeF src a) ∧
    (src ≠ dst → 4 ≤ dst → dst ≤ 9 →
      (∀ s m e, x = .fin s m e → fConvert src dst v a = roundRes dst v s m e ∧ (m = 0 → fConvert src dst v a = (sgnOf dst s, 0))) ∧
      (∀ s, x = .inf s → fConvert src dst v a = if dst = 8 then (overflow 8 v s, 0b001010) else (infOf dst s, 0)) ∧
      (∀ s q fr, x = .nan s q fr → fConvert src dst v a = (quietNaN dst s fr, if q then 0 else 0b100000))) ∧
    (src ≠ dst → ∀ g, intFmt dst = some g → intFmt src = none →
      let lo := (intEnds g).1
      let hi := (intEnds g).2
      (∀ s m e q, x = .fin s m e → RoundsTo v.rnd v.rho s m 1 e q 0 →
        let z := withSgn s q
        fConvert src dst v a = if z < lo then (intBits g.2 lo, 0b100000) else if hi < z then (intBits g.2 hi, 0b100000)
          else (intBits g.2 z, if m * 2 ^ (e - min e 0).toNat = q * 2 ^ (0 - min e 0).toNat then 0 else 0b000010)) ∧
      (∀ s, x = .inf s → fConvert src dst v a = (intBits g.2 (if s then lo else hi), 0b100000)) ∧
      (∀ s q fr, x = .nan s q fr → fConvert src dst v a = (0, 0b100000))) ∧
    (src ≠ dst → ∀ g, intFmt dst = some g → ∀ s m, (intFmt src).isSome = true → x = .fin s m 0 →
      let lo := (intEnds g).1
      let hi := (intEnds g).2
      let z := withSgn s m
      (lo ≤ z → z ≤ hi → fConvert src dst v a = (intBits g.2 z, 0)) ∧
      (z < lo ∨ hi < z → fConvert src dst v a = if sat then (intBits g.2 (if z < lo then lo else hi), 0b000001) else (intBits g.2 z, 0))) ∧
    (src = 12 → dst = 12 → a % 16 ≠ 8 → fConvert src dst v a = (a % 16, 0)) ∧
    (dst = 12 → src ≠ 12 ∨ a % 16 = 8 →
      (∀ s m e q, x = .fin s m e → RoundsTo v.rnd v.rho s m 1 e q 0 →
        fConvert src dst v a = if 7 < q then (intBits 4 (if s then -7 else 7), 0b001010)
          else (intBits 4 (withSgn s q), if m * 2 ^ (e - min e 0).toNat = q * 2 ^ (0 - min e 0).toNat then 0 else 0b000010)) ∧
      (∀ s, x = .inf s → fConvert src dst v a = (intBits 4 (if s then -7 else 7), 0b001010)) ∧
      (∀ s q fr, x = .nan s q fr → fConvert src dst v a = (0, 0b100000))) ∧
    (src = dst → src ≠ 12 →
      (∀ s fr, 4 ≤ src → src ≤ 9 → x = .nan s false fr → fConvert src dst v a = (a ||| 2 ^ ((params src).2.1 - 1), 0b100000)) ∧
      ((intFmt src).isSome = true ∨ x.isSNaN = false → fConvert src dst v a = (a, 0)))

/-- `frcpa` and `frsqa` give the reciprocal and the reciprocal root rounded first to 17 bits and then into the format, both to nearest even whatever
the mode; `fexp2a` does the same with the power at an integer, and `flog2a` with the logarithm of a power of two; two values between are written out.
Zeros, infinities and NaNs are as Table 6.10 states (R142). -/
def Sys2Proof.Spec.ApproximationResults : Prop :=
  ∀ (code : Nat) (v : REnv), code = 4 ∨ code = 5 →
    let w : REnv := { v with rnd := 1 }
    (∀ (s : Bool) (m : Nat) (e : Int), m ≠ 0 → m < 2 ^ 53 → ∃ k q, Leading 1 m (-e) k ∧ RoundsTo 1 0 s 1 m (-e) q (k - 16) ∧
      let r := fRcpa code v (.fin s m e)
      Rounded code w s q 1 (k - 16) (¬Equals 1 m (-e) q (k - 16)) r.1 r.2) ∧
    (∀ (m : Nat) (e : Int), m ≠ 0 → m < 2 ^ 53 → ∃ (k : Int) (q : Nat),
      let at_ := fun (a : Nat) (d : Int) => (a * a * m * 2 ^ (2 * d + e).toNat, 2 ^ (-(2 * d + e)).toNat)
      (at_ 1 k).1 ≤ (at_ 1 k).2 ∧ (at_ 1 (k + 1)).2 < (at_ 1 (k + 1)).1 ∧
      (at_ (2 * q - 1) (k - 17)).1 ≤ (at_ (2 * q - 1) (k - 17)).2 ∧ (at_ (2 * q + 1) (k - 17)).2 ≤ (at_ (2 * q + 1) (k - 17)).1 ∧
      let r := fRsqa code v (.fin false m e)
      Rounded code w false q 1 (k - 16) ((at_ q (k - 16)).1 ≠ (at_ q (k - 16)).2) r.1 r.2) ∧
    (∀ (s : Bool) (m : Nat) (e : Int) (n : Nat), m < 2 ^ 53 → -1074 ≤ e → Equals m 1 e n 0 →
      let r := fExp2a code v (.fin s m e)
      Rounded code w false 1 1 (withSgn s n) False r.1 r.2) ∧
    (∀ (j : Nat) (e : Int), j < 53 → -1074 ≤ e → e ≤ 971 →
      let r := fLog2a code v (.fin false (2 ^ j) e)
      (e + j = 0 → r = (0, 0)) ∧ (e + j ≠ 0 → Rounded code w (decide (e + j < 0)) (e + j).natAbs 1 0 False r.1 r.2)) ∧
    fExp2a 5 v (decodeF 5 0x3F000000) = (0x3FB50500, 0b000010) ∧ fLog2a 5 v (decodeF 5 0x40400000) = (0x3FCAE000, 0b000010) ∧
    fRcpa 5 v (decodeF 5 0x40400000) = (0x3EAAAA80, 0b000010) ∧
    (∀ s e, fRcpa code v (.fin s 0 e) = (infOf code s, 0b010000) ∧ fRsqa code v (.fin s 0 e) = (infOf code s, 0b010000) ∧
      fLog2a code v (.fin s 0 e) = (infOf code true, 0b010000)) ∧
    (∀ m e, m ≠ 0 → fRsqa code v (.fin true m e) = (defaultNaN code, 0b100000) ∧ fLog2a code v (.fin true m e) = (defaultNaN code, 0b100000)) ∧
    (∀ s, fRcpa code v (.inf s) = (sgnOf code s, 0)) ∧ fRsqa code v (.inf false) = (0, 0) ∧
    fRsqa code v (.inf true) = (defaultNaN code, 0b100000) ∧ fExp2a code v (.inf false) = (infOf code false, 0) ∧
    fExp2a code v (.inf true) = (0, 0) ∧ fLog2a code v (.inf false) = (infOf code false, 0) ∧
    fLog2a code v (.inf true) = (defaultNaN code, 0b100000) ∧
    (∀ s q fr g, g = fRcpa ∨ g = fRsqa ∨ g = fExp2a ∨ g = fLog2a →
      g code v (.nan s q fr) = (quietNaN code s fr, if q then 0 else 0b100000))

/-- The statements above together. -/
def Obligations.FpRootsFusedConversionsApproximations : Prop := FpRootsAndFused ∧ ConversionResults ∧ ApproximationResults
end

