-- ==== Sys2Proof/Laws/Table.lean ====
section
/-! SUPPORT. Laws of association tables and of the device's memory: read after write, two writes to one place, and the
canonical form that every write keeps. -/

namespace Sys2Proof.Laws

open Sys2Proof.Machine

variable {α : Type}

@[simp] theorem tget_tset (d : α) (t : Tbl α) (k : Nat) (v : α) : tget d (tset t k v) k = v := by
  induction t with
  | nil => simp [tset, tget]
  | cons x t ih =>
    obtain ⟨j, w⟩ := x
    unfold tset
    split
    · simp [tget]
    · split
      · simp [tget]
      · simp [tget, *]

theorem tget_tset_ne (d : α) (t : Tbl α) {j k : Nat} (v : α) (h : j ≠ k) : tget d (tset t k v) j = tget d t j := by
  induction t with
  | nil => simp [tset, tget, Ne.symm h]
  | cons x t ih =>
    obtain ⟨i, w⟩ := x
    unfold tset
    split
    · subst_vars; simp [tget, Ne.symm h]
    · split
      · simp [tget, Ne.symm h]
      · simp [tget, ih]

@[simp] theorem tset_tset (t : Tbl α) (k : Nat) (v w : α) : tset (tset t k v) k w = tset t k w := by
  induction t with
  | nil => simp [tset]
  | cons x t ih =>
    obtain ⟨j, u⟩ := x
    by_cases h : j = k
    · simp [tset, h]
    · by_cases h' : k < j
      · simp [tset, h, h']
      · simp [tset, h, h', ih]

/-! ## Memory -/

theorem memGet_below {lo k : Nat} {m : List Host.Cell} (h : memWfFrom lo m = true) (hk : k < lo) : memGet m k = 0 := by
  induction m generalizing lo with
  | nil => rfl
  | cons x m ih =>
    obtain ⟨a, v⟩ := x
    simp only [memWfFrom, Bool.and_eq_true, decide_eq_true_eq] at h
    simp only [memGet]
    rw [if_neg (by omega)]
    exact ih h.2 (by omega)

theorem memWfFrom_weaken {lo lo' : Nat} {m : List Host.Cell} (h : memWfFrom lo m = true) (hl : lo' ≤ lo) :
    memWfFrom lo' m = true := by
  cases m with
  | nil => rfl
  | cons x m =>
    obtain ⟨a, v⟩ := x
    simp only [memWfFrom, Bool.and_eq_true, decide_eq_true_eq] at *
    exact ⟨⟨by omega, h.1.2⟩, h.2⟩

theorem memGet_memDel {lo : Nat} {m : List Host.Cell} (h : memWfFrom lo m = true) (k j : Nat) :
    memGet (memDel m k) j = if j = k then 0 else memGet m j := by
  induction m generalizing lo with
  | nil => simp [memDel, memGet]
  | cons x m ih =>
    obtain ⟨a, v⟩ := x
    simp only [memWfFrom, Bool.and_eq_true, decide_eq_true_eq] at h
    simp only [memDel]
    split
    · rename_i e
      subst e
      split
      · rename_i e'
        rw [e']
        exact memGet_below h.2 (by omega)
      · simp [memGet, Ne.symm ‹_›]
    · split
      · rename_i e e'
        by_cases hj : j = k
        · subst hj
          simp only [if_true, memGet]
          rw [if_neg (by omega)]
          exact memGet_below h.2 (by omega)
        · simp [hj]
      · simp only [memGet]
        rw [ih h.2]
        by_cases hj : j = k
        · subst hj; simp [*]
        · simp [hj]

theorem memGet_memIns (m : List Host.Cell) (k : Nat) (v : Byte) (j : Nat) :
    memGet (memIns m k v) j = if j = k then v else memGet m j := by
  induction m with
  | nil => simp [memIns, memGet, eq_comm]
  | cons x m ih =>
    obtain ⟨a, w⟩ := x
    by_cases h : a = k
    · by_cases hj : j = k
      · subst hj; subst h; simp [memIns, memGet]
      · have : k ≠ j := fun e => hj e.symm
        simp [memIns, memGet, h, hj, this]
    · by_cases h' : k < a
      · by_cases hj : j = k
        · subst hj; simp [memIns, memGet, h, h']
        · have : k ≠ j := fun e => hj e.symm
          simp [memIns, memGet, h, h', hj, this]
      · by_cases hj : j = k
        · subst hj; simp [memIns, memGet, h, h', ih]
        · simp [memIns, memGet, h, h', ih, hj]

/-- Read after write. -/
theorem memGet_memPut {m : List Host.Cell} (h : memWf m = true) (k : Nat) (v : Byte) (j : Nat) :
    memGet (memPut m k v) j = if j = k then v else memGet m j := by
  unfold memPut
  split
  · rename_i e; rw [memGet_memDel h]; simp [e]
  · exact memGet_memIns m k v j

theorem memWfFrom_memDel {lo : Nat} {m : List Host.Cell} (h : memWfFrom lo m = true) (k : Nat) :
    memWfFrom lo (memDel m k) = true := by
  induction m generalizing lo with
  | nil => rfl
  | cons x m ih =>
    obtain ⟨a, v⟩ := x
    have h' := h
    simp only [memWfFrom, Bool.and_eq_true, decide_eq_true_eq] at h'
    simp only [memDel]
    split
    · exact memWfFrom_weaken h'.2 (by omega)
    · split
      · exact h
      · simp only [memWfFrom, Bool.and_eq_true, decide_eq_true_eq]
        exact ⟨h'.1, ih h'.2⟩

theorem memWfFrom_memIns {lo : Nat} {m : List Host.Cell} (h : memWfFrom lo m = true) {k : Nat} (hk : lo ≤ k) {v : Byte}
    (hv : v ≠ 0) : memWfFrom lo (memIns m k v) = true := by
  induction m generalizing lo with
  | nil =>
    simp only [memIns, memWfFrom, Bool.and_eq_true, decide_eq_true_eq]
    exact ⟨⟨hk, hv⟩, trivial⟩
  | cons x m ih =>
    obtain ⟨a, w⟩ := x
    simp only [memWfFrom, Bool.and_eq_true, decide_eq_true_eq] at h
    unfold memIns
    split
    · subst_vars
      simp only [memWfFrom, Bool.and_eq_true, decide_eq_true_eq]
      exact ⟨⟨hk, hv⟩, h.2⟩
    · split
      · simp only [memWfFrom, Bool.and_eq_true, decide_eq_true_eq]
        exact ⟨⟨hk, hv⟩, ⟨by omega, h.1.2⟩, h.2⟩
      · simp only [memWfFrom, Bool.and_eq_true, decide_eq_true_eq]
        exact ⟨h.1, ih h.2 (by omega)⟩

/-- A byte write keeps the canonical form. -/
theorem memWf_memPut {m : List Host.Cell} (h : memWf m = true) (k : Nat) (v : Byte) : memWf (memPut m k v) = true := by
  unfold memPut
  split
  · exact memWfFrom_memDel h k
  · exact memWfFrom_memIns h (Nat.zero_le k) ‹_›

/-- A write of bytes keeps the canonical form. -/
theorem memWf_memPutList {m : List Host.Cell} (h : memWf m = true) (loc : Nat) (bs : List Byte) :
    memWf (memPutList m loc bs) = true := by
  induction bs generalizing m loc with
  | nil => exact h
  | cons b bs ih => exact ih (memWf_memPut h loc b) (loc + 1)

/-- Dropping entries keeps the canonical form. -/
theorem memWfFrom_filter {lo : Nat} {m : List Host.Cell} (h : memWfFrom lo m = true) (p : Host.Cell → Bool) :
    memWfFrom lo (m.filter p) = true := by
  induction m generalizing lo with
  | nil => rfl
  | cons x m ih =>
    obtain ⟨a, v⟩ := x
    simp only [memWfFrom, Bool.and_eq_true, decide_eq_true_eq] at h
    simp only [List.filter_cons]
    split
    · simp only [memWfFrom, Bool.and_eq_true, decide_eq_true_eq]
      exact ⟨h.1, ih h.2⟩
    · exact ih (memWfFrom_weaken h.2 (by omega))

theorem memWf_filter {m : List Host.Cell} (h : memWf m = true) (p : Host.Cell → Bool) : memWf (m.filter p) = true :=
  memWfFrom_filter h p

/-- A read after a write of bytes: the written byte inside, the byte before outside. -/
theorem memGet_memPutList {m : List Host.Cell} (h : memWf m = true) (loc : Nat) (bs : List Byte) (j : Nat) :
    memGet (memPutList m loc bs) j =
      if loc ≤ j ∧ j < loc + bs.length then bs.getD (j - loc) 0 else memGet m j := by
  induction bs generalizing m loc with
  | nil =>
    simp only [memPutList, List.length_nil, Nat.add_zero]
    rw [if_neg (by omega)]
  | cons b bs ih =>
    simp only [memPutList, List.length_cons]
    rw [ih (memWf_memPut h loc b), memGet_memPut h]
    by_cases hj : j = loc
    · subst hj
      rw [if_neg (by omega), if_pos rfl, if_pos (by omega)]
      simp
    · by_cases hc : loc + 1 ≤ j ∧ j < loc + 1 + bs.length
      · rw [if_pos hc, if_pos (by omega)]
        obtain ⟨d, rfl⟩ : ∃ d, j = loc + 1 + d := ⟨j - (loc + 1), by omega⟩
        have e1 : loc + 1 + d - (loc + 1) = d := by omega
        have e2 : loc + 1 + d - loc = d + 1 := by omega
        rw [e1, e2]
        simp
      · rw [if_neg hc, if_neg hj, if_neg (by omega)]

@[simp] theorem memBytes_length (m : List Host.Cell) (loc n : Nat) : (memBytes m loc n).length = n := by
  induction n generalizing loc with
  | zero => rfl
  | succ n ih => simp [memBytes, ih]

@[simp] theorem leBytes_length (n v : Nat) : (leBytes n v).length = n := by
  induction n generalizing v with
  | zero => rfl
  | succ n ih => simp [leBytes, ih]

/-- The value of the bytes of a value. -/
theorem leVal_leBytes (n v : Nat) : leVal (leBytes n v) = v % 2 ^ (8 * n) := by
  induction n generalizing v with
  | zero => simp [leBytes, leVal, Nat.mod_one]
  | succ n ih =>
    simp only [leBytes, leVal, ih, BitVec.toNat_ofNat]
    have : (2 : Nat) ^ (8 * (n + 1)) = 256 * 2 ^ (8 * n) := by rw [Nat.mul_add, Nat.pow_add]; ring
    rw [this, Nat.mod_mul]

theorem memBytes_congr {m m' : List Host.Cell} {loc n : Nat} (h : ∀ i < n, memGet m (loc + i) = memGet m' (loc + i)) :
    memBytes m loc n = memBytes m' loc n := by
  induction n generalizing loc with
  | zero => rfl
  | succ n ih =>
    simp only [memBytes]
    have h0 := h 0 (by omega)
    simp only [Nat.add_zero] at h0
    rw [h0, ih (loc := loc + 1)]
    intro i hi
    have := h (i + 1) (by omega)
    rwa [show loc + (i + 1) = loc + 1 + i by omega] at this

/-- Reading the bytes just written. -/
theorem memBytes_memPutList {m : List Host.Cell} (h : memWf m = true) (loc : Nat) (bs : List Byte) :
    memBytes (memPutList m loc bs) loc bs.length = bs := by
  induction bs generalizing m loc with
  | nil => rfl
  | cons b bs ih =>
    simp only [memPutList, List.length_cons, memBytes]
    rw [ih (memWf_memPut h loc b), memGet_memPutList (memWf_memPut h loc b), if_neg (by omega), memGet_memPut h, if_pos rfl]

/-! ## Lists -/

@[simp] theorem upFrom_length (a n : Nat) : (upFrom a n).length = n := by
  induction n generalizing a with
  | zero => rfl
  | succ n ih => simp [upFrom, ih]

theorem mem_upFrom {a n k : Nat} : k ∈ upFrom a n ↔ a ≤ k ∧ k < a + n := by
  induction n generalizing a with
  | zero => simp only [upFrom, List.not_mem_nil, false_iff]; omega
  | succ n ih => simp only [upFrom, List.mem_cons, ih]; omega

end Sys2Proof.Laws
end

