-- ==== Sys2Proof/Laws/State.lean ====
section
/-! SUPPORT. What each update of the state leaves alone, field by field, and what a read of an updated part gives. -/

namespace Sys2Proof.Laws

open Sys2Proof.Machine

/-! ## Updates of the state -/

@[simp] theorem setCtx_agenda (s : State) (m : Nat) (c : Context) : (s.setCtx m c).agenda = s.agenda := rfl
@[simp] theorem setCtx_cur (s : State) (m : Nat) (c : Context) : (s.setCtx m c).cur = s.cur := rfl
@[simp] theorem setCtx_epoch (s : State) (m : Nat) (c : Context) : (s.setCtx m c).epoch = s.epoch := rfl
@[simp] theorem setCtx_grp (s : State) (m : Nat) (c : Context) : (s.setCtx m c).grp = s.grp := rfl
@[simp] theorem setCtx_tick (s : State) (m : Nat) (c : Context) : (s.setCtx m c).tick = s.tick := rfl
@[simp] theorem setCtx_clk (s : State) (m : Nat) (c : Context) : (s.setCtx m c).clk = s.clk := rfl
@[simp] theorem setCtx_cores (s : State) (m : Nat) (c : Context) : (s.setCtx m c).cores = s.cores := rfl
@[simp] theorem setCtx_clusters (s : State) (m : Nat) (c : Context) : (s.setCtx m c).clusters = s.clusters := rfl
@[simp] theorem setCtx_leases (s : State) (m : Nat) (c : Context) : (s.setCtx m c).leases = s.leases := rfl
@[simp] theorem setCtx_rinst (s : State) (m : Nat) (c : Context) : (s.setCtx m c).rinst = s.rinst := rfl
@[simp] theorem setCtx_mem (s : State) (m : Nat) (c : Context) : (s.setCtx m c).mem = s.mem := rfl
@[simp] theorem setCtx_poison (s : State) (m : Nat) (c : Context) : (s.setCtx m c).poison = s.poison := rfl
@[simp] theorem setCtx_empties (s : State) (m : Nat) (c : Context) : (s.setCtx m c).empties = s.empties := rfl
@[simp] theorem setCtx_feq (s : State) (m : Nat) (c : Context) : (s.setCtx m c).feq = s.feq := rfl
@[simp] theorem setCtx_net (s : State) (m : Nat) (c : Context) : (s.setCtx m c).net = s.net := rfl
@[simp] theorem setCtx_ingress (s : State) (m : Nat) (c : Context) : (s.setCtx m c).ingress = s.ingress := rfl
@[simp] theorem setCtx_pnet (s : State) (m : Nat) (c : Context) : (s.setCtx m c).pnet = s.pnet := rfl
@[simp] theorem setCtx_qnet (s : State) (m : Nat) (c : Context) : (s.setCtx m c).qnet = s.qnet := rfl
@[simp] theorem setCtx_cops (s : State) (m : Nat) (c : Context) : (s.setCtx m c).cops = s.cops := rfl
@[simp] theorem setCtx_reds (s : State) (m : Nat) (c : Context) : (s.setCtx m c).reds = s.reds := rfl
@[simp] theorem setCtx_props (s : State) (m : Nat) (c : Context) : (s.setCtx m c).props = s.props := rfl
@[simp] theorem setCtx_dreqs (s : State) (m : Nat) (c : Context) : (s.setCtx m c).dreqs = s.dreqs := rfl
@[simp] theorem setCtx_tokens (s : State) (m : Nat) (c : Context) : (s.setCtx m c).tokens = s.tokens := rfl
@[simp] theorem setCtx_puts (s : State) (m : Nat) (c : Context) : (s.setCtx m c).puts = s.puts := rfl
@[simp] theorem setCtx_walks (s : State) (m : Nat) (c : Context) : (s.setCtx m c).walks = s.walks := rfl
@[simp] theorem setCtx_fills (s : State) (m : Nat) (c : Context) : (s.setCtx m c).fills = s.fills := rfl
@[simp] theorem setCtx_bars (s : State) (m : Nat) (c : Context) : (s.setCtx m c).bars = s.bars := rfl
@[simp] theorem setCtx_parts (s : State) (m : Nat) (c : Context) : (s.setCtx m c).parts = s.parts := rfl
@[simp] theorem setCtx_store (s : State) (m : Nat) (c : Context) : (s.setCtx m c).store = s.store := rfl
@[simp] theorem setCtx_lseq (s : State) (m : Nat) (c : Context) : (s.setCtx m c).lseq = s.lseq := rfl
@[simp] theorem setCtx_items (s : State) (m : Nat) (c : Context) : (s.setCtx m c).items = s.items := rfl
@[simp] theorem setCtx_spaceq (s : State) (m : Nat) (c : Context) : (s.setCtx m c).spaceq = s.spaceq := rfl
@[simp] theorem setCtx_eslot (s : State) (m : Nat) (c : Context) : (s.setCtx m c).eslot = s.eslot := rfl
@[simp] theorem setCtx_fdrops (s : State) (m : Nat) (c : Context) : (s.setCtx m c).fdrops = s.fdrops := rfl
@[simp] theorem setCtx_vlans (s : State) (m : Nat) (c : Context) : (s.setCtx m c).vlans = s.vlans := rfl
@[simp] theorem setCtx_slots (s : State) (m : Nat) (c : Context) : (s.setCtx m c).slots = s.slots := rfl
@[simp] theorem setCtx_budgets (s : State) (m : Nat) (c : Context) : (s.setCtx m c).budgets = s.budgets := rfl
@[simp] theorem setCtx_served (s : State) (m : Nat) (c : Context) : (s.setCtx m c).served = s.served := rfl
@[simp] theorem setCtx_window (s : State) (m : Nat) (c : Context) : (s.setCtx m c).window = s.window := rfl
@[simp] theorem setCtx_rwindow (s : State) (m : Nat) (c : Context) : (s.setCtx m c).rwindow = s.rwindow := rfl
@[simp] theorem setCtx_link0 (s : State) (m : Nat) (c : Context) : (s.setCtx m c).link0 = s.link0 := rfl
@[simp] theorem setCtx_link1 (s : State) (m : Nat) (c : Context) : (s.setCtx m c).link1 = s.link1 := rfl
@[simp] theorem setCtx_retries (s : State) (m : Nat) (c : Context) : (s.setCtx m c).retries = s.retries := rfl
@[simp] theorem setCtx_devNum (s : State) (m : Nat) (c : Context) : (s.setCtx m c).devNum = s.devNum := rfl
@[simp] theorem setCtx_boot (s : State) (m : Nat) (c : Context) : (s.setCtx m c).boot = s.boot := rfl
@[simp] theorem setCtx_dlog (s : State) (m : Nat) (c : Context) : (s.setCtx m c).dlog = s.dlog := rfl
@[simp] theorem setCtx_outbox (s : State) (m : Nat) (c : Context) : (s.setCtx m c).outbox = s.outbox := rfl
@[simp] theorem setCtx_aseq (s : State) (m : Nat) (c : Context) : (s.setCtx m c).aseq = s.aseq := rfl
@[simp] theorem setCtx_loads (s : State) (m : Nat) (c : Context) : (s.setCtx m c).loads = s.loads := rfl
@[simp] theorem setCtx_held (s : State) (m : Nat) (c : Context) : (s.setCtx m c).held = s.held := rfl
@[simp] theorem setCtx_mseq (s : State) (m : Nat) (c : Context) : (s.setCtx m c).mseq = s.mseq := rfl
@[simp] theorem setCtx_bwait (s : State) (m : Nat) (c : Context) : (s.setCtx m c).bwait = s.bwait := rfl
@[simp] theorem setCtx_spilt (s : State) (m : Nat) (c : Context) : (s.setCtx m c).spilt = s.spilt := rfl
@[simp] theorem setCtx_drops (s : State) (m : Nat) (c : Context) : (s.setCtx m c).drops = s.drops := rfl
@[simp] theorem setCtx_pseq (s : State) (m : Nat) (c : Context) : (s.setCtx m c).pseq = s.pseq := rfl

@[simp] theorem modCtx_agenda (s : State) (m : Nat) (f : Context → Context) : (s.modCtx m f).agenda = s.agenda := rfl
@[simp] theorem modCtx_cur (s : State) (m : Nat) (f : Context → Context) : (s.modCtx m f).cur = s.cur := rfl
@[simp] theorem modCtx_epoch (s : State) (m : Nat) (f : Context → Context) : (s.modCtx m f).epoch = s.epoch := rfl
@[simp] theorem modCtx_grp (s : State) (m : Nat) (f : Context → Context) : (s.modCtx m f).grp = s.grp := rfl
@[simp] theorem modCtx_tick (s : State) (m : Nat) (f : Context → Context) : (s.modCtx m f).tick = s.tick := rfl
@[simp] theorem modCtx_clk (s : State) (m : Nat) (f : Context → Context) : (s.modCtx m f).clk = s.clk := rfl
@[simp] theorem modCtx_cores (s : State) (m : Nat) (f : Context → Context) : (s.modCtx m f).cores = s.cores := rfl
@[simp] theorem modCtx_clusters (s : State) (m : Nat) (f : Context → Context) : (s.modCtx m f).clusters = s.clusters := rfl
@[simp] theorem modCtx_leases (s : State) (m : Nat) (f : Context → Context) : (s.modCtx m f).leases = s.leases := rfl
@[simp] theorem modCtx_rinst (s : State) (m : Nat) (f : Context → Context) : (s.modCtx m f).rinst = s.rinst := rfl
@[simp] theorem modCtx_mem (s : State) (m : Nat) (f : Context → Context) : (s.modCtx m f).mem = s.mem := rfl
@[simp] theorem modCtx_poison (s : State) (m : Nat) (f : Context → Context) : (s.modCtx m f).poison = s.poison := rfl
@[simp] theorem modCtx_empties (s : State) (m : Nat) (f : Context → Context) : (s.modCtx m f).empties = s.empties := rfl
@[simp] theorem modCtx_feq (s : State) (m : Nat) (f : Context → Context) : (s.modCtx m f).feq = s.feq := rfl
@[simp] theorem modCtx_net (s : State) (m : Nat) (f : Context → Context) : (s.modCtx m f).net = s.net := rfl
@[simp] theorem modCtx_ingress (s : State) (m : Nat) (f : Context → Context) : (s.modCtx m f).ingress = s.ingress := rfl
@[simp] theorem modCtx_pnet (s : State) (m : Nat) (f : Context → Context) : (s.modCtx m f).pnet = s.pnet := rfl
@[simp] theorem modCtx_qnet (s : State) (m : Nat) (f : Context → Context) : (s.modCtx m f).qnet = s.qnet := rfl
@[simp] theorem modCtx_cops (s : State) (m : Nat) (f : Context → Context) : (s.modCtx m f).cops = s.cops := rfl
@[simp] theorem modCtx_reds (s : State) (m : Nat) (f : Context → Context) : (s.modCtx m f).reds = s.reds := rfl
@[simp] theorem modCtx_props (s : State) (m : Nat) (f : Context → Context) : (s.modCtx m f).props = s.props := rfl
@[simp] theorem modCtx_dreqs (s : State) (m : Nat) (f : Context → Context) : (s.modCtx m f).dreqs = s.dreqs := rfl
@[simp] theorem modCtx_tokens (s : State) (m : Nat) (f : Context → Context) : (s.modCtx m f).tokens = s.tokens := rfl
@[simp] theorem modCtx_puts (s : State) (m : Nat) (f : Context → Context) : (s.modCtx m f).puts = s.puts := rfl
@[simp] theorem modCtx_walks (s : State) (m : Nat) (f : Context → Context) : (s.modCtx m f).walks = s.walks := rfl
@[simp] theorem modCtx_fills (s : State) (m : Nat) (f : Context → Context) : (s.modCtx m f).fills = s.fills := rfl
@[simp] theorem modCtx_bars (s : State) (m : Nat) (f : Context → Context) : (s.modCtx m f).bars = s.bars := rfl
@[simp] theorem modCtx_parts (s : State) (m : Nat) (f : Context → Context) : (s.modCtx m f).parts = s.parts := rfl
@[simp] theorem modCtx_store (s : State) (m : Nat) (f : Context → Context) : (s.modCtx m f).store = s.store := rfl
@[simp] theorem modCtx_lseq (s : State) (m : Nat) (f : Context → Context) : (s.modCtx m f).lseq = s.lseq := rfl
@[simp] theorem modCtx_items (s : State) (m : Nat) (f : Context → Context) : (s.modCtx m f).items = s.items := rfl
@[simp] theorem modCtx_spaceq (s : State) (m : Nat) (f : Context → Context) : (s.modCtx m f).spaceq = s.spaceq := rfl
@[simp] theorem modCtx_eslot (s : State) (m : Nat) (f : Context → Context) : (s.modCtx m f).eslot = s.eslot := rfl
@[simp] theorem modCtx_fdrops (s : State) (m : Nat) (f : Context → Context) : (s.modCtx m f).fdrops = s.fdrops := rfl
@[simp] theorem modCtx_vlans (s : State) (m : Nat) (f : Context → Context) : (s.modCtx m f).vlans = s.vlans := rfl
@[simp] theorem modCtx_slots (s : State) (m : Nat) (f : Context → Context) : (s.modCtx m f).slots = s.slots := rfl
@[simp] theorem modCtx_budgets (s : State) (m : Nat) (f : Context → Context) : (s.modCtx m f).budgets = s.budgets := rfl
@[simp] theorem modCtx_served (s : State) (m : Nat) (f : Context → Context) : (s.modCtx m f).served = s.served := rfl
@[simp] theorem modCtx_window (s : State) (m : Nat) (f : Context → Context) : (s.modCtx m f).window = s.window := rfl
@[simp] theorem modCtx_rwindow (s : State) (m : Nat) (f : Context → Context) : (s.modCtx m f).rwindow = s.rwindow := rfl
@[simp] theorem modCtx_link0 (s : State) (m : Nat) (f : Context → Context) : (s.modCtx m f).link0 = s.link0 := rfl
@[simp] theorem modCtx_link1 (s : State) (m : Nat) (f : Context → Context) : (s.modCtx m f).link1 = s.link1 := rfl
@[simp] theorem modCtx_retries (s : State) (m : Nat) (f : Context → Context) : (s.modCtx m f).retries = s.retries := rfl
@[simp] theorem modCtx_devNum (s : State) (m : Nat) (f : Context → Context) : (s.modCtx m f).devNum = s.devNum := rfl
@[simp] theorem modCtx_boot (s : State) (m : Nat) (f : Context → Context) : (s.modCtx m f).boot = s.boot := rfl
@[simp] theorem modCtx_dlog (s : State) (m : Nat) (f : Context → Context) : (s.modCtx m f).dlog = s.dlog := rfl
@[simp] theorem modCtx_outbox (s : State) (m : Nat) (f : Context → Context) : (s.modCtx m f).outbox = s.outbox := rfl
@[simp] theorem modCtx_aseq (s : State) (m : Nat) (f : Context → Context) : (s.modCtx m f).aseq = s.aseq := rfl
@[simp] theorem modCtx_loads (s : State) (m : Nat) (f : Context → Context) : (s.modCtx m f).loads = s.loads := rfl
@[simp] theorem modCtx_held (s : State) (m : Nat) (f : Context → Context) : (s.modCtx m f).held = s.held := rfl
@[simp] theorem modCtx_mseq (s : State) (m : Nat) (f : Context → Context) : (s.modCtx m f).mseq = s.mseq := rfl
@[simp] theorem modCtx_bwait (s : State) (m : Nat) (f : Context → Context) : (s.modCtx m f).bwait = s.bwait := rfl
@[simp] theorem modCtx_spilt (s : State) (m : Nat) (f : Context → Context) : (s.modCtx m f).spilt = s.spilt := rfl
@[simp] theorem modCtx_drops (s : State) (m : Nat) (f : Context → Context) : (s.modCtx m f).drops = s.drops := rfl
@[simp] theorem modCtx_pseq (s : State) (m : Nat) (f : Context → Context) : (s.modCtx m f).pseq = s.pseq := rfl

@[simp] theorem modMe_agenda (s : State) (f : Context → Context) : (s.modMe f).agenda = s.agenda := rfl
@[simp] theorem modMe_cur (s : State) (f : Context → Context) : (s.modMe f).cur = s.cur := rfl
@[simp] theorem modMe_epoch (s : State) (f : Context → Context) : (s.modMe f).epoch = s.epoch := rfl
@[simp] theorem modMe_grp (s : State) (f : Context → Context) : (s.modMe f).grp = s.grp := rfl
@[simp] theorem modMe_tick (s : State) (f : Context → Context) : (s.modMe f).tick = s.tick := rfl
@[simp] theorem modMe_clk (s : State) (f : Context → Context) : (s.modMe f).clk = s.clk := rfl
@[simp] theorem modMe_cores (s : State) (f : Context → Context) : (s.modMe f).cores = s.cores := rfl
@[simp] theorem modMe_clusters (s : State) (f : Context → Context) : (s.modMe f).clusters = s.clusters := rfl
@[simp] theorem modMe_leases (s : State) (f : Context → Context) : (s.modMe f).leases = s.leases := rfl
@[simp] theorem modMe_rinst (s : State) (f : Context → Context) : (s.modMe f).rinst = s.rinst := rfl
@[simp] theorem modMe_mem (s : State) (f : Context → Context) : (s.modMe f).mem = s.mem := rfl
@[simp] theorem modMe_poison (s : State) (f : Context → Context) : (s.modMe f).poison = s.poison := rfl
@[simp] theorem modMe_empties (s : State) (f : Context → Context) : (s.modMe f).empties = s.empties := rfl
@[simp] theorem modMe_feq (s : State) (f : Context → Context) : (s.modMe f).feq = s.feq := rfl
@[simp] theorem modMe_net (s : State) (f : Context → Context) : (s.modMe f).net = s.net := rfl
@[simp] theorem modMe_ingress (s : State) (f : Context → Context) : (s.modMe f).ingress = s.ingress := rfl
@[simp] theorem modMe_pnet (s : State) (f : Context → Context) : (s.modMe f).pnet = s.pnet := rfl
@[simp] theorem modMe_qnet (s : State) (f : Context → Context) : (s.modMe f).qnet = s.qnet := rfl
@[simp] theorem modMe_cops (s : State) (f : Context → Context) : (s.modMe f).cops = s.cops := rfl
@[simp] theorem modMe_reds (s : State) (f : Context → Context) : (s.modMe f).reds = s.reds := rfl
@[simp] theorem modMe_props (s : State) (f : Context → Context) : (s.modMe f).props = s.props := rfl
@[simp] theorem modMe_dreqs (s : State) (f : Context → Context) : (s.modMe f).dreqs = s.dreqs := rfl
@[simp] theorem modMe_tokens (s : State) (f : Context → Context) : (s.modMe f).tokens = s.tokens := rfl
@[simp] theorem modMe_puts (s : State) (f : Context → Context) : (s.modMe f).puts = s.puts := rfl
@[simp] theorem modMe_walks (s : State) (f : Context → Context) : (s.modMe f).walks = s.walks := rfl
@[simp] theorem modMe_fills (s : State) (f : Context → Context) : (s.modMe f).fills = s.fills := rfl
@[simp] theorem modMe_bars (s : State) (f : Context → Context) : (s.modMe f).bars = s.bars := rfl
@[simp] theorem modMe_parts (s : State) (f : Context → Context) : (s.modMe f).parts = s.parts := rfl
@[simp] theorem modMe_store (s : State) (f : Context → Context) : (s.modMe f).store = s.store := rfl
@[simp] theorem modMe_lseq (s : State) (f : Context → Context) : (s.modMe f).lseq = s.lseq := rfl
@[simp] theorem modMe_items (s : State) (f : Context → Context) : (s.modMe f).items = s.items := rfl
@[simp] theorem modMe_spaceq (s : State) (f : Context → Context) : (s.modMe f).spaceq = s.spaceq := rfl
@[simp] theorem modMe_eslot (s : State) (f : Context → Context) : (s.modMe f).eslot = s.eslot := rfl
@[simp] theorem modMe_fdrops (s : State) (f : Context → Context) : (s.modMe f).fdrops = s.fdrops := rfl
@[simp] theorem modMe_vlans (s : State) (f : Context → Context) : (s.modMe f).vlans = s.vlans := rfl
@[simp] theorem modMe_slots (s : State) (f : Context → Context) : (s.modMe f).slots = s.slots := rfl
@[simp] theorem modMe_budgets (s : State) (f : Context → Context) : (s.modMe f).budgets = s.budgets := rfl
@[simp] theorem modMe_served (s : State) (f : Context → Context) : (s.modMe f).served = s.served := rfl
@[simp] theorem modMe_window (s : State) (f : Context → Context) : (s.modMe f).window = s.window := rfl
@[simp] theorem modMe_rwindow (s : State) (f : Context → Context) : (s.modMe f).rwindow = s.rwindow := rfl
@[simp] theorem modMe_link0 (s : State) (f : Context → Context) : (s.modMe f).link0 = s.link0 := rfl
@[simp] theorem modMe_link1 (s : State) (f : Context → Context) : (s.modMe f).link1 = s.link1 := rfl
@[simp] theorem modMe_retries (s : State) (f : Context → Context) : (s.modMe f).retries = s.retries := rfl
@[simp] theorem modMe_devNum (s : State) (f : Context → Context) : (s.modMe f).devNum = s.devNum := rfl
@[simp] theorem modMe_boot (s : State) (f : Context → Context) : (s.modMe f).boot = s.boot := rfl
@[simp] theorem modMe_dlog (s : State) (f : Context → Context) : (s.modMe f).dlog = s.dlog := rfl
@[simp] theorem modMe_outbox (s : State) (f : Context → Context) : (s.modMe f).outbox = s.outbox := rfl
@[simp] theorem modMe_aseq (s : State) (f : Context → Context) : (s.modMe f).aseq = s.aseq := rfl
@[simp] theorem modMe_loads (s : State) (f : Context → Context) : (s.modMe f).loads = s.loads := rfl
@[simp] theorem modMe_held (s : State) (f : Context → Context) : (s.modMe f).held = s.held := rfl
@[simp] theorem modMe_mseq (s : State) (f : Context → Context) : (s.modMe f).mseq = s.mseq := rfl
@[simp] theorem modMe_bwait (s : State) (f : Context → Context) : (s.modMe f).bwait = s.bwait := rfl
@[simp] theorem modMe_spilt (s : State) (f : Context → Context) : (s.modMe f).spilt = s.spilt := rfl
@[simp] theorem modMe_drops (s : State) (f : Context → Context) : (s.modMe f).drops = s.drops := rfl
@[simp] theorem modMe_pseq (s : State) (f : Context → Context) : (s.modMe f).pseq = s.pseq := rfl

@[simp] theorem goto_agenda (s : State) (pc via : Word) : (s.goto pc via).agenda = s.agenda := rfl
@[simp] theorem goto_cur (s : State) (pc via : Word) : (s.goto pc via).cur = s.cur := rfl
@[simp] theorem goto_epoch (s : State) (pc via : Word) : (s.goto pc via).epoch = s.epoch := rfl
@[simp] theorem goto_grp (s : State) (pc via : Word) : (s.goto pc via).grp = s.grp := rfl
@[simp] theorem goto_tick (s : State) (pc via : Word) : (s.goto pc via).tick = s.tick := rfl
@[simp] theorem goto_clk (s : State) (pc via : Word) : (s.goto pc via).clk = s.clk := rfl
@[simp] theorem goto_cores (s : State) (pc via : Word) : (s.goto pc via).cores = s.cores := rfl
@[simp] theorem goto_clusters (s : State) (pc via : Word) : (s.goto pc via).clusters = s.clusters := rfl
@[simp] theorem goto_leases (s : State) (pc via : Word) : (s.goto pc via).leases = s.leases := rfl
@[simp] theorem goto_rinst (s : State) (pc via : Word) : (s.goto pc via).rinst = s.rinst := rfl
@[simp] theorem goto_mem (s : State) (pc via : Word) : (s.goto pc via).mem = s.mem := rfl
@[simp] theorem goto_poison (s : State) (pc via : Word) : (s.goto pc via).poison = s.poison := rfl
@[simp] theorem goto_empties (s : State) (pc via : Word) : (s.goto pc via).empties = s.empties := rfl
@[simp] theorem goto_feq (s : State) (pc via : Word) : (s.goto pc via).feq = s.feq := rfl
@[simp] theorem goto_net (s : State) (pc via : Word) : (s.goto pc via).net = s.net := rfl
@[simp] theorem goto_ingress (s : State) (pc via : Word) : (s.goto pc via).ingress = s.ingress := rfl
@[simp] theorem goto_pnet (s : State) (pc via : Word) : (s.goto pc via).pnet = s.pnet := rfl
@[simp] theorem goto_qnet (s : State) (pc via : Word) : (s.goto pc via).qnet = s.qnet := rfl
@[simp] theorem goto_cops (s : State) (pc via : Word) : (s.goto pc via).cops = s.cops := rfl
@[simp] theorem goto_reds (s : State) (pc via : Word) : (s.goto pc via).reds = s.reds := rfl
@[simp] theorem goto_props (s : State) (pc via : Word) : (s.goto pc via).props = s.props := rfl
@[simp] theorem goto_dreqs (s : State) (pc via : Word) : (s.goto pc via).dreqs = s.dreqs := rfl
@[simp] theorem goto_tokens (s : State) (pc via : Word) : (s.goto pc via).tokens = s.tokens := rfl
@[simp] theorem goto_puts (s : State) (pc via : Word) : (s.goto pc via).puts = s.puts := rfl
@[simp] theorem goto_walks (s : State) (pc via : Word) : (s.goto pc via).walks = s.walks := rfl
@[simp] theorem goto_fills (s : State) (pc via : Word) : (s.goto pc via).fills = s.fills := rfl
@[simp] theorem goto_bars (s : State) (pc via : Word) : (s.goto pc via).bars = s.bars := rfl
@[simp] theorem goto_parts (s : State) (pc via : Word) : (s.goto pc via).parts = s.parts := rfl
@[simp] theorem goto_store (s : State) (pc via : Word) : (s.goto pc via).store = s.store := rfl
@[simp] theorem goto_lseq (s : State) (pc via : Word) : (s.goto pc via).lseq = s.lseq := rfl
@[simp] theorem goto_items (s : State) (pc via : Word) : (s.goto pc via).items = s.items := rfl
@[simp] theorem goto_spaceq (s : State) (pc via : Word) : (s.goto pc via).spaceq = s.spaceq := rfl
@[simp] theorem goto_eslot (s : State) (pc via : Word) : (s.goto pc via).eslot = s.eslot := rfl
@[simp] theorem goto_fdrops (s : State) (pc via : Word) : (s.goto pc via).fdrops = s.fdrops := rfl
@[simp] theorem goto_vlans (s : State) (pc via : Word) : (s.goto pc via).vlans = s.vlans := rfl
@[simp] theorem goto_slots (s : State) (pc via : Word) : (s.goto pc via).slots = s.slots := rfl
@[simp] theorem goto_budgets (s : State) (pc via : Word) : (s.goto pc via).budgets = s.budgets := rfl
@[simp] theorem goto_served (s : State) (pc via : Word) : (s.goto pc via).served = s.served := rfl
@[simp] theorem goto_window (s : State) (pc via : Word) : (s.goto pc via).window = s.window := rfl
@[simp] theorem goto_rwindow (s : State) (pc via : Word) : (s.goto pc via).rwindow = s.rwindow := rfl
@[simp] theorem goto_link0 (s : State) (pc via : Word) : (s.goto pc via).link0 = s.link0 := rfl
@[simp] theorem goto_link1 (s : State) (pc via : Word) : (s.goto pc via).link1 = s.link1 := rfl
@[simp] theorem goto_retries (s : State) (pc via : Word) : (s.goto pc via).retries = s.retries := rfl
@[simp] theorem goto_devNum (s : State) (pc via : Word) : (s.goto pc via).devNum = s.devNum := rfl
@[simp] theorem goto_boot (s : State) (pc via : Word) : (s.goto pc via).boot = s.boot := rfl
@[simp] theorem goto_dlog (s : State) (pc via : Word) : (s.goto pc via).dlog = s.dlog := rfl
@[simp] theorem goto_outbox (s : State) (pc via : Word) : (s.goto pc via).outbox = s.outbox := rfl
@[simp] theorem goto_aseq (s : State) (pc via : Word) : (s.goto pc via).aseq = s.aseq := rfl
@[simp] theorem goto_loads (s : State) (pc via : Word) : (s.goto pc via).loads = s.loads := rfl
@[simp] theorem goto_held (s : State) (pc via : Word) : (s.goto pc via).held = s.held := rfl
@[simp] theorem goto_mseq (s : State) (pc via : Word) : (s.goto pc via).mseq = s.mseq := rfl
@[simp] theorem goto_bwait (s : State) (pc via : Word) : (s.goto pc via).bwait = s.bwait := rfl
@[simp] theorem goto_spilt (s : State) (pc via : Word) : (s.goto pc via).spilt = s.spilt := rfl
@[simp] theorem goto_drops (s : State) (pc via : Word) : (s.goto pc via).drops = s.drops := rfl
@[simp] theorem goto_pseq (s : State) (pc via : Word) : (s.goto pc via).pseq = s.pseq := rfl

@[simp] theorem setCore_agenda (s : State) (c : Nat) (k : Core) : (s.setCore c k).agenda = s.agenda := rfl
@[simp] theorem setCore_cur (s : State) (c : Nat) (k : Core) : (s.setCore c k).cur = s.cur := rfl
@[simp] theorem setCore_epoch (s : State) (c : Nat) (k : Core) : (s.setCore c k).epoch = s.epoch := rfl
@[simp] theorem setCore_grp (s : State) (c : Nat) (k : Core) : (s.setCore c k).grp = s.grp := rfl
@[simp] theorem setCore_tick (s : State) (c : Nat) (k : Core) : (s.setCore c k).tick = s.tick := rfl
@[simp] theorem setCore_clk (s : State) (c : Nat) (k : Core) : (s.setCore c k).clk = s.clk := rfl
@[simp] theorem setCore_ctxs (s : State) (c : Nat) (k : Core) : (s.setCore c k).ctxs = s.ctxs := rfl
@[simp] theorem setCore_clusters (s : State) (c : Nat) (k : Core) : (s.setCore c k).clusters = s.clusters := rfl
@[simp] theorem setCore_leases (s : State) (c : Nat) (k : Core) : (s.setCore c k).leases = s.leases := rfl
@[simp] theorem setCore_rinst (s : State) (c : Nat) (k : Core) : (s.setCore c k).rinst = s.rinst := rfl
@[simp] theorem setCore_mem (s : State) (c : Nat) (k : Core) : (s.setCore c k).mem = s.mem := rfl
@[simp] theorem setCore_poison (s : State) (c : Nat) (k : Core) : (s.setCore c k).poison = s.poison := rfl
@[simp] theorem setCore_empties (s : State) (c : Nat) (k : Core) : (s.setCore c k).empties = s.empties := rfl
@[simp] theorem setCore_feq (s : State) (c : Nat) (k : Core) : (s.setCore c k).feq = s.feq := rfl
@[simp] theorem setCore_net (s : State) (c : Nat) (k : Core) : (s.setCore c k).net = s.net := rfl
@[simp] theorem setCore_ingress (s : State) (c : Nat) (k : Core) : (s.setCore c k).ingress = s.ingress := rfl
@[simp] theorem setCore_pnet (s : State) (c : Nat) (k : Core) : (s.setCore c k).pnet = s.pnet := rfl
@[simp] theorem setCore_qnet (s : State) (c : Nat) (k : Core) : (s.setCore c k).qnet = s.qnet := rfl
@[simp] theorem setCore_cops (s : State) (c : Nat) (k : Core) : (s.setCore c k).cops = s.cops := rfl
@[simp] theorem setCore_reds (s : State) (c : Nat) (k : Core) : (s.setCore c k).reds = s.reds := rfl
@[simp] theorem setCore_props (s : State) (c : Nat) (k : Core) : (s.setCore c k).props = s.props := rfl
@[simp] theorem setCore_dreqs (s : State) (c : Nat) (k : Core) : (s.setCore c k).dreqs = s.dreqs := rfl
@[simp] theorem setCore_tokens (s : State) (c : Nat) (k : Core) : (s.setCore c k).tokens = s.tokens := rfl
@[simp] theorem setCore_puts (s : State) (c : Nat) (k : Core) : (s.setCore c k).puts = s.puts := rfl
@[simp] theorem setCore_walks (s : State) (c : Nat) (k : Core) : (s.setCore c k).walks = s.walks := rfl
@[simp] theorem setCore_fills (s : State) (c : Nat) (k : Core) : (s.setCore c k).fills = s.fills := rfl
@[simp] theorem setCore_bars (s : State) (c : Nat) (k : Core) : (s.setCore c k).bars = s.bars := rfl
@[simp] theorem setCore_parts (s : State) (c : Nat) (k : Core) : (s.setCore c k).parts = s.parts := rfl
@[simp] theorem setCore_store (s : State) (c : Nat) (k : Core) : (s.setCore c k).store = s.store := rfl
@[simp] theorem setCore_lseq (s : State) (c : Nat) (k : Core) : (s.setCore c k).lseq = s.lseq := rfl
@[simp] theorem setCore_items (s : State) (c : Nat) (k : Core) : (s.setCore c k).items = s.items := rfl
@[simp] theorem setCore_spaceq (s : State) (c : Nat) (k : Core) : (s.setCore c k).spaceq = s.spaceq := rfl
@[simp] theorem setCore_eslot (s : State) (c : Nat) (k : Core) : (s.setCore c k).eslot = s.eslot := rfl
@[simp] theorem setCore_fdrops (s : State) (c : Nat) (k : Core) : (s.setCore c k).fdrops = s.fdrops := rfl
@[simp] theorem setCore_vlans (s : State) (c : Nat) (k : Core) : (s.setCore c k).vlans = s.vlans := rfl
@[simp] theorem setCore_slots (s : State) (c : Nat) (k : Core) : (s.setCore c k).slots = s.slots := rfl
@[simp] theorem setCore_budgets (s : State) (c : Nat) (k : Core) : (s.setCore c k).budgets = s.budgets := rfl
@[simp] theorem setCore_served (s : State) (c : Nat) (k : Core) : (s.setCore c k).served = s.served := rfl
@[simp] theorem setCore_window (s : State) (c : Nat) (k : Core) : (s.setCore c k).window = s.window := rfl
@[simp] theorem setCore_rwindow (s : State) (c : Nat) (k : Core) : (s.setCore c k).rwindow = s.rwindow := rfl
@[simp] theorem setCore_link0 (s : State) (c : Nat) (k : Core) : (s.setCore c k).link0 = s.link0 := rfl
@[simp] theorem setCore_link1 (s : State) (c : Nat) (k : Core) : (s.setCore c k).link1 = s.link1 := rfl
@[simp] theorem setCore_retries (s : State) (c : Nat) (k : Core) : (s.setCore c k).retries = s.retries := rfl
@[simp] theorem setCore_devNum (s : State) (c : Nat) (k : Core) : (s.setCore c k).devNum = s.devNum := rfl
@[simp] theorem setCore_boot (s : State) (c : Nat) (k : Core) : (s.setCore c k).boot = s.boot := rfl
@[simp] theorem setCore_dlog (s : State) (c : Nat) (k : Core) : (s.setCore c k).dlog = s.dlog := rfl
@[simp] theorem setCore_outbox (s : State) (c : Nat) (k : Core) : (s.setCore c k).outbox = s.outbox := rfl
@[simp] theorem setCore_aseq (s : State) (c : Nat) (k : Core) : (s.setCore c k).aseq = s.aseq := rfl
@[simp] theorem setCore_loads (s : State) (c : Nat) (k : Core) : (s.setCore c k).loads = s.loads := rfl
@[simp] theorem setCore_held (s : State) (c : Nat) (k : Core) : (s.setCore c k).held = s.held := rfl
@[simp] theorem setCore_mseq (s : State) (c : Nat) (k : Core) : (s.setCore c k).mseq = s.mseq := rfl
@[simp] theorem setCore_bwait (s : State) (c : Nat) (k : Core) : (s.setCore c k).bwait = s.bwait := rfl
@[simp] theorem setCore_spilt (s : State) (c : Nat) (k : Core) : (s.setCore c k).spilt = s.spilt := rfl
@[simp] theorem setCore_drops (s : State) (c : Nat) (k : Core) : (s.setCore c k).drops = s.drops := rfl
@[simp] theorem setCore_pseq (s : State) (c : Nat) (k : Core) : (s.setCore c k).pseq = s.pseq := rfl

@[simp] theorem modCore_agenda (s : State) (c : Nat) (f : Core → Core) : (s.modCore c f).agenda = s.agenda := rfl
@[simp] theorem modCore_cur (s : State) (c : Nat) (f : Core → Core) : (s.modCore c f).cur = s.cur := rfl
@[simp] theorem modCore_epoch (s : State) (c : Nat) (f : Core → Core) : (s.modCore c f).epoch = s.epoch := rfl
@[simp] theorem modCore_grp (s : State) (c : Nat) (f : Core → Core) : (s.modCore c f).grp = s.grp := rfl
@[simp] theorem modCore_tick (s : State) (c : Nat) (f : Core → Core) : (s.modCore c f).tick = s.tick := rfl
@[simp] theorem modCore_clk (s : State) (c : Nat) (f : Core → Core) : (s.modCore c f).clk = s.clk := rfl
@[simp] theorem modCore_ctxs (s : State) (c : Nat) (f : Core → Core) : (s.modCore c f).ctxs = s.ctxs := rfl
@[simp] theorem modCore_clusters (s : State) (c : Nat) (f : Core → Core) : (s.modCore c f).clusters = s.clusters := rfl
@[simp] theorem modCore_leases (s : State) (c : Nat) (f : Core → Core) : (s.modCore c f).leases = s.leases := rfl
@[simp] theorem modCore_rinst (s : State) (c : Nat) (f : Core → Core) : (s.modCore c f).rinst = s.rinst := rfl
@[simp] theorem modCore_mem (s : State) (c : Nat) (f : Core → Core) : (s.modCore c f).mem = s.mem := rfl
@[simp] theorem modCore_poison (s : State) (c : Nat) (f : Core → Core) : (s.modCore c f).poison = s.poison := rfl
@[simp] theorem modCore_empties (s : State) (c : Nat) (f : Core → Core) : (s.modCore c f).empties = s.empties := rfl
@[simp] theorem modCore_feq (s : State) (c : Nat) (f : Core → Core) : (s.modCore c f).feq = s.feq := rfl
@[simp] theorem modCore_net (s : State) (c : Nat) (f : Core → Core) : (s.modCore c f).net = s.net := rfl
@[simp] theorem modCore_ingress (s : State) (c : Nat) (f : Core → Core) : (s.modCore c f).ingress = s.ingress := rfl
@[simp] theorem modCore_pnet (s : State) (c : Nat) (f : Core → Core) : (s.modCore c f).pnet = s.pnet := rfl
@[simp] theorem modCore_qnet (s : State) (c : Nat) (f : Core → Core) : (s.modCore c f).qnet = s.qnet := rfl
@[simp] theorem modCore_cops (s : State) (c : Nat) (f : Core → Core) : (s.modCore c f).cops = s.cops := rfl
@[simp] theorem modCore_reds (s : State) (c : Nat) (f : Core → Core) : (s.modCore c f).reds = s.reds := rfl
@[simp] theorem modCore_props (s : State) (c : Nat) (f : Core → Core) : (s.modCore c f).props = s.props := rfl
@[simp] theorem modCore_dreqs (s : State) (c : Nat) (f : Core → Core) : (s.modCore c f).dreqs = s.dreqs := rfl
@[simp] theorem modCore_tokens (s : State) (c : Nat) (f : Core → Core) : (s.modCore c f).tokens = s.tokens := rfl
@[simp] theorem modCore_puts (s : State) (c : Nat) (f : Core → Core) : (s.modCore c f).puts = s.puts := rfl
@[simp] theorem modCore_walks (s : State) (c : Nat) (f : Core → Core) : (s.modCore c f).walks = s.walks := rfl
@[simp] theorem modCore_fills (s : State) (c : Nat) (f : Core → Core) : (s.modCore c f).fills = s.fills := rfl
@[simp] theorem modCore_bars (s : State) (c : Nat) (f : Core → Core) : (s.modCore c f).bars = s.bars := rfl
@[simp] theorem modCore_parts (s : State) (c : Nat) (f : Core → Core) : (s.modCore c f).parts = s.parts := rfl
@[simp] theorem modCore_store (s : State) (c : Nat) (f : Core → Core) : (s.modCore c f).store = s.store := rfl
@[simp] theorem modCore_lseq (s : State) (c : Nat) (f : Core → Core) : (s.modCore c f).lseq = s.lseq := rfl
@[simp] theorem modCore_items (s : State) (c : Nat) (f : Core → Core) : (s.modCore c f).items = s.items := rfl
@[simp] theorem modCore_spaceq (s : State) (c : Nat) (f : Core → Core) : (s.modCore c f).spaceq = s.spaceq := rfl
@[simp] theorem modCore_eslot (s : State) (c : Nat) (f : Core → Core) : (s.modCore c f).eslot = s.eslot := rfl
@[simp] theorem modCore_fdrops (s : State) (c : Nat) (f : Core → Core) : (s.modCore c f).fdrops = s.fdrops := rfl
@[simp] theorem modCore_vlans (s : State) (c : Nat) (f : Core → Core) : (s.modCore c f).vlans = s.vlans := rfl
@[simp] theorem modCore_slots (s : State) (c : Nat) (f : Core → Core) : (s.modCore c f).slots = s.slots := rfl
@[simp] theorem modCore_budgets (s : State) (c : Nat) (f : Core → Core) : (s.modCore c f).budgets = s.budgets := rfl
@[simp] theorem modCore_served (s : State) (c : Nat) (f : Core → Core) : (s.modCore c f).served = s.served := rfl
@[simp] theorem modCore_window (s : State) (c : Nat) (f : Core → Core) : (s.modCore c f).window = s.window := rfl
@[simp] theorem modCore_rwindow (s : State) (c : Nat) (f : Core → Core) : (s.modCore c f).rwindow = s.rwindow := rfl
@[simp] theorem modCore_link0 (s : State) (c : Nat) (f : Core → Core) : (s.modCore c f).link0 = s.link0 := rfl
@[simp] theorem modCore_link1 (s : State) (c : Nat) (f : Core → Core) : (s.modCore c f).link1 = s.link1 := rfl
@[simp] theorem modCore_retries (s : State) (c : Nat) (f : Core → Core) : (s.modCore c f).retries = s.retries := rfl
@[simp] theorem modCore_devNum (s : State) (c : Nat) (f : Core → Core) : (s.modCore c f).devNum = s.devNum := rfl
@[simp] theorem modCore_boot (s : State) (c : Nat) (f : Core → Core) : (s.modCore c f).boot = s.boot := rfl
@[simp] theorem modCore_dlog (s : State) (c : Nat) (f : Core → Core) : (s.modCore c f).dlog = s.dlog := rfl
@[simp] theorem modCore_outbox (s : State) (c : Nat) (f : Core → Core) : (s.modCore c f).outbox = s.outbox := rfl
@[simp] theorem modCore_aseq (s : State) (c : Nat) (f : Core → Core) : (s.modCore c f).aseq = s.aseq := rfl
@[simp] theorem modCore_loads (s : State) (c : Nat) (f : Core → Core) : (s.modCore c f).loads = s.loads := rfl
@[simp] theorem modCore_held (s : State) (c : Nat) (f : Core → Core) : (s.modCore c f).held = s.held := rfl
@[simp] theorem modCore_mseq (s : State) (c : Nat) (f : Core → Core) : (s.modCore c f).mseq = s.mseq := rfl
@[simp] theorem modCore_bwait (s : State) (c : Nat) (f : Core → Core) : (s.modCore c f).bwait = s.bwait := rfl
@[simp] theorem modCore_spilt (s : State) (c : Nat) (f : Core → Core) : (s.modCore c f).spilt = s.spilt := rfl
@[simp] theorem modCore_drops (s : State) (c : Nat) (f : Core → Core) : (s.modCore c f).drops = s.drops := rfl
@[simp] theorem modCore_pseq (s : State) (c : Nat) (f : Core → Core) : (s.modCore c f).pseq = s.pseq := rfl

@[simp] theorem modCluster_agenda (s : State) (k : Nat) (f : Cluster → Cluster) : (s.modCluster k f).agenda = s.agenda := rfl
@[simp] theorem modCluster_cur (s : State) (k : Nat) (f : Cluster → Cluster) : (s.modCluster k f).cur = s.cur := rfl
@[simp] theorem modCluster_epoch (s : State) (k : Nat) (f : Cluster → Cluster) : (s.modCluster k f).epoch = s.epoch := rfl
@[simp] theorem modCluster_grp (s : State) (k : Nat) (f : Cluster → Cluster) : (s.modCluster k f).grp = s.grp := rfl
@[simp] theorem modCluster_tick (s : State) (k : Nat) (f : Cluster → Cluster) : (s.modCluster k f).tick = s.tick := rfl
@[simp] theorem modCluster_clk (s : State) (k : Nat) (f : Cluster → Cluster) : (s.modCluster k f).clk = s.clk := rfl
@[simp] theorem modCluster_ctxs (s : State) (k : Nat) (f : Cluster → Cluster) : (s.modCluster k f).ctxs = s.ctxs := rfl
@[simp] theorem modCluster_cores (s : State) (k : Nat) (f : Cluster → Cluster) : (s.modCluster k f).cores = s.cores := rfl
@[simp] theorem modCluster_leases (s : State) (k : Nat) (f : Cluster → Cluster) : (s.modCluster k f).leases = s.leases := rfl
@[simp] theorem modCluster_rinst (s : State) (k : Nat) (f : Cluster → Cluster) : (s.modCluster k f).rinst = s.rinst := rfl
@[simp] theorem modCluster_mem (s : State) (k : Nat) (f : Cluster → Cluster) : (s.modCluster k f).mem = s.mem := rfl
@[simp] theorem modCluster_poison (s : State) (k : Nat) (f : Cluster → Cluster) : (s.modCluster k f).poison = s.poison := rfl
@[simp] theorem modCluster_empties (s : State) (k : Nat) (f : Cluster → Cluster) : (s.modCluster k f).empties = s.empties := rfl
@[simp] theorem modCluster_feq (s : State) (k : Nat) (f : Cluster → Cluster) : (s.modCluster k f).feq = s.feq := rfl
@[simp] theorem modCluster_net (s : State) (k : Nat) (f : Cluster → Cluster) : (s.modCluster k f).net = s.net := rfl
@[simp] theorem modCluster_ingress (s : State) (k : Nat) (f : Cluster → Cluster) : (s.modCluster k f).ingress = s.ingress := rfl
@[simp] theorem modCluster_pnet (s : State) (k : Nat) (f : Cluster → Cluster) : (s.modCluster k f).pnet = s.pnet := rfl
@[simp] theorem modCluster_qnet (s : State) (k : Nat) (f : Cluster → Cluster) : (s.modCluster k f).qnet = s.qnet := rfl
@[simp] theorem modCluster_cops (s : State) (k : Nat) (f : Cluster → Cluster) : (s.modCluster k f).cops = s.cops := rfl
@[simp] theorem modCluster_reds (s : State) (k : Nat) (f : Cluster → Cluster) : (s.modCluster k f).reds = s.reds := rfl
@[simp] theorem modCluster_props (s : State) (k : Nat) (f : Cluster → Cluster) : (s.modCluster k f).props = s.props := rfl
@[simp] theorem modCluster_dreqs (s : State) (k : Nat) (f : Cluster → Cluster) : (s.modCluster k f).dreqs = s.dreqs := rfl
@[simp] theorem modCluster_tokens (s : State) (k : Nat) (f : Cluster → Cluster) : (s.modCluster k f).tokens = s.tokens := rfl
@[simp] theorem modCluster_puts (s : State) (k : Nat) (f : Cluster → Cluster) : (s.modCluster k f).puts = s.puts := rfl
@[simp] theorem modCluster_walks (s : State) (k : Nat) (f : Cluster → Cluster) : (s.modCluster k f).walks = s.walks := rfl
@[simp] theorem modCluster_fills (s : State) (k : Nat) (f : Cluster → Cluster) : (s.modCluster k f).fills = s.fills := rfl
@[simp] theorem modCluster_bars (s : State) (k : Nat) (f : Cluster → Cluster) : (s.modCluster k f).bars = s.bars := rfl
@[simp] theorem modCluster_parts (s : State) (k : Nat) (f : Cluster → Cluster) : (s.modCluster k f).parts = s.parts := rfl
@[simp] theorem modCluster_store (s : State) (k : Nat) (f : Cluster → Cluster) : (s.modCluster k f).store = s.store := rfl
@[simp] theorem modCluster_lseq (s : State) (k : Nat) (f : Cluster → Cluster) : (s.modCluster k f).lseq = s.lseq := rfl
@[simp] theorem modCluster_items (s : State) (k : Nat) (f : Cluster → Cluster) : (s.modCluster k f).items = s.items := rfl
@[simp] theorem modCluster_spaceq (s : State) (k : Nat) (f : Cluster → Cluster) : (s.modCluster k f).spaceq = s.spaceq := rfl
@[simp] theorem modCluster_eslot (s : State) (k : Nat) (f : Cluster → Cluster) : (s.modCluster k f).eslot = s.eslot := rfl
@[simp] theorem modCluster_fdrops (s : State) (k : Nat) (f : Cluster → Cluster) : (s.modCluster k f).fdrops = s.fdrops := rfl
@[simp] theorem modCluster_vlans (s : State) (k : Nat) (f : Cluster → Cluster) : (s.modCluster k f).vlans = s.vlans := rfl
@[simp] theorem modCluster_slots (s : State) (k : Nat) (f : Cluster → Cluster) : (s.modCluster k f).slots = s.slots := rfl
@[simp] theorem modCluster_budgets (s : State) (k : Nat) (f : Cluster → Cluster) : (s.modCluster k f).budgets = s.budgets := rfl
@[simp] theorem modCluster_served (s : State) (k : Nat) (f : Cluster → Cluster) : (s.modCluster k f).served = s.served := rfl
@[simp] theorem modCluster_window (s : State) (k : Nat) (f : Cluster → Cluster) : (s.modCluster k f).window = s.window := rfl
@[simp] theorem modCluster_rwindow (s : State) (k : Nat) (f : Cluster → Cluster) : (s.modCluster k f).rwindow = s.rwindow := rfl
@[simp] theorem modCluster_link0 (s : State) (k : Nat) (f : Cluster → Cluster) : (s.modCluster k f).link0 = s.link0 := rfl
@[simp] theorem modCluster_link1 (s : State) (k : Nat) (f : Cluster → Cluster) : (s.modCluster k f).link1 = s.link1 := rfl
@[simp] theorem modCluster_retries (s : State) (k : Nat) (f : Cluster → Cluster) : (s.modCluster k f).retries = s.retries := rfl
@[simp] theorem modCluster_devNum (s : State) (k : Nat) (f : Cluster → Cluster) : (s.modCluster k f).devNum = s.devNum := rfl
@[simp] theorem modCluster_boot (s : State) (k : Nat) (f : Cluster → Cluster) : (s.modCluster k f).boot = s.boot := rfl
@[simp] theorem modCluster_dlog (s : State) (k : Nat) (f : Cluster → Cluster) : (s.modCluster k f).dlog = s.dlog := rfl
@[simp] theorem modCluster_outbox (s : State) (k : Nat) (f : Cluster → Cluster) : (s.modCluster k f).outbox = s.outbox := rfl
@[simp] theorem modCluster_aseq (s : State) (k : Nat) (f : Cluster → Cluster) : (s.modCluster k f).aseq = s.aseq := rfl
@[simp] theorem modCluster_loads (s : State) (k : Nat) (f : Cluster → Cluster) : (s.modCluster k f).loads = s.loads := rfl
@[simp] theorem modCluster_held (s : State) (k : Nat) (f : Cluster → Cluster) : (s.modCluster k f).held = s.held := rfl
@[simp] theorem modCluster_mseq (s : State) (k : Nat) (f : Cluster → Cluster) : (s.modCluster k f).mseq = s.mseq := rfl
@[simp] theorem modCluster_bwait (s : State) (k : Nat) (f : Cluster → Cluster) : (s.modCluster k f).bwait = s.bwait := rfl
@[simp] theorem modCluster_spilt (s : State) (k : Nat) (f : Cluster → Cluster) : (s.modCluster k f).spilt = s.spilt := rfl
@[simp] theorem modCluster_drops (s : State) (k : Nat) (f : Cluster → Cluster) : (s.modCluster k f).drops = s.drops := rfl
@[simp] theorem modCluster_pseq (s : State) (k : Nat) (f : Cluster → Cluster) : (s.modCluster k f).pseq = s.pseq := rfl

@[simp] theorem modLease_agenda (s : State) (q : Nat) (f : Lease → Lease) : (s.modLease q f).agenda = s.agenda := rfl
@[simp] theorem modLease_cur (s : State) (q : Nat) (f : Lease → Lease) : (s.modLease q f).cur = s.cur := rfl
@[simp] theorem modLease_epoch (s : State) (q : Nat) (f : Lease → Lease) : (s.modLease q f).epoch = s.epoch := rfl
@[simp] theorem modLease_grp (s : State) (q : Nat) (f : Lease → Lease) : (s.modLease q f).grp = s.grp := rfl
@[simp] theorem modLease_tick (s : State) (q : Nat) (f : Lease → Lease) : (s.modLease q f).tick = s.tick := rfl
@[simp] theorem modLease_clk (s : State) (q : Nat) (f : Lease → Lease) : (s.modLease q f).clk = s.clk := rfl
@[simp] theorem modLease_ctxs (s : State) (q : Nat) (f : Lease → Lease) : (s.modLease q f).ctxs = s.ctxs := rfl
@[simp] theorem modLease_cores (s : State) (q : Nat) (f : Lease → Lease) : (s.modLease q f).cores = s.cores := rfl
@[simp] theorem modLease_clusters (s : State) (q : Nat) (f : Lease → Lease) : (s.modLease q f).clusters = s.clusters := rfl
@[simp] theorem modLease_rinst (s : State) (q : Nat) (f : Lease → Lease) : (s.modLease q f).rinst = s.rinst := rfl
@[simp] theorem modLease_mem (s : State) (q : Nat) (f : Lease → Lease) : (s.modLease q f).mem = s.mem := rfl
@[simp] theorem modLease_poison (s : State) (q : Nat) (f : Lease → Lease) : (s.modLease q f).poison = s.poison := rfl
@[simp] theorem modLease_empties (s : State) (q : Nat) (f : Lease → Lease) : (s.modLease q f).empties = s.empties := rfl
@[simp] theorem modLease_feq (s : State) (q : Nat) (f : Lease → Lease) : (s.modLease q f).feq = s.feq := rfl
@[simp] theorem modLease_net (s : State) (q : Nat) (f : Lease → Lease) : (s.modLease q f).net = s.net := rfl
@[simp] theorem modLease_ingress (s : State) (q : Nat) (f : Lease → Lease) : (s.modLease q f).ingress = s.ingress := rfl
@[simp] theorem modLease_pnet (s : State) (q : Nat) (f : Lease → Lease) : (s.modLease q f).pnet = s.pnet := rfl
@[simp] theorem modLease_qnet (s : State) (q : Nat) (f : Lease → Lease) : (s.modLease q f).qnet = s.qnet := rfl
@[simp] theorem modLease_cops (s : State) (q : Nat) (f : Lease → Lease) : (s.modLease q f).cops = s.cops := rfl
@[simp] theorem modLease_reds (s : State) (q : Nat) (f : Lease → Lease) : (s.modLease q f).reds = s.reds := rfl
@[simp] theorem modLease_props (s : State) (q : Nat) (f : Lease → Lease) : (s.modLease q f).props = s.props := rfl
@[simp] theorem modLease_dreqs (s : State) (q : Nat) (f : Lease → Lease) : (s.modLease q f).dreqs = s.dreqs := rfl
@[simp] theorem modLease_tokens (s : State) (q : Nat) (f : Lease → Lease) : (s.modLease q f).tokens = s.tokens := rfl
@[simp] theorem modLease_puts (s : State) (q : Nat) (f : Lease → Lease) : (s.modLease q f).puts = s.puts := rfl
@[simp] theorem modLease_walks (s : State) (q : Nat) (f : Lease → Lease) : (s.modLease q f).walks = s.walks := rfl
@[simp] theorem modLease_fills (s : State) (q : Nat) (f : Lease → Lease) : (s.modLease q f).fills = s.fills := rfl
@[simp] theorem modLease_bars (s : State) (q : Nat) (f : Lease → Lease) : (s.modLease q f).bars = s.bars := rfl
@[simp] theorem modLease_parts (s : State) (q : Nat) (f : Lease → Lease) : (s.modLease q f).parts = s.parts := rfl
@[simp] theorem modLease_store (s : State) (q : Nat) (f : Lease → Lease) : (s.modLease q f).store = s.store := rfl
@[simp] theorem modLease_lseq (s : State) (q : Nat) (f : Lease → Lease) : (s.modLease q f).lseq = s.lseq := rfl
@[simp] theorem modLease_items (s : State) (q : Nat) (f : Lease → Lease) : (s.modLease q f).items = s.items := rfl
@[simp] theorem modLease_spaceq (s : State) (q : Nat) (f : Lease → Lease) : (s.modLease q f).spaceq = s.spaceq := rfl
@[simp] theorem modLease_eslot (s : State) (q : Nat) (f : Lease → Lease) : (s.modLease q f).eslot = s.eslot := rfl
@[simp] theorem modLease_fdrops (s : State) (q : Nat) (f : Lease → Lease) : (s.modLease q f).fdrops = s.fdrops := rfl
@[simp] theorem modLease_vlans (s : State) (q : Nat) (f : Lease → Lease) : (s.modLease q f).vlans = s.vlans := rfl
@[simp] theorem modLease_slots (s : State) (q : Nat) (f : Lease → Lease) : (s.modLease q f).slots = s.slots := rfl
@[simp] theorem modLease_budgets (s : State) (q : Nat) (f : Lease → Lease) : (s.modLease q f).budgets = s.budgets := rfl
@[simp] theorem modLease_served (s : State) (q : Nat) (f : Lease → Lease) : (s.modLease q f).served = s.served := rfl
@[simp] theorem modLease_window (s : State) (q : Nat) (f : Lease → Lease) : (s.modLease q f).window = s.window := rfl
@[simp] theorem modLease_rwindow (s : State) (q : Nat) (f : Lease → Lease) : (s.modLease q f).rwindow = s.rwindow := rfl
@[simp] theorem modLease_link0 (s : State) (q : Nat) (f : Lease → Lease) : (s.modLease q f).link0 = s.link0 := rfl
@[simp] theorem modLease_link1 (s : State) (q : Nat) (f : Lease → Lease) : (s.modLease q f).link1 = s.link1 := rfl
@[simp] theorem modLease_retries (s : State) (q : Nat) (f : Lease → Lease) : (s.modLease q f).retries = s.retries := rfl
@[simp] theorem modLease_devNum (s : State) (q : Nat) (f : Lease → Lease) : (s.modLease q f).devNum = s.devNum := rfl
@[simp] theorem modLease_boot (s : State) (q : Nat) (f : Lease → Lease) : (s.modLease q f).boot = s.boot := rfl
@[simp] theorem modLease_dlog (s : State) (q : Nat) (f : Lease → Lease) : (s.modLease q f).dlog = s.dlog := rfl
@[simp] theorem modLease_outbox (s : State) (q : Nat) (f : Lease → Lease) : (s.modLease q f).outbox = s.outbox := rfl
@[simp] theorem modLease_aseq (s : State) (q : Nat) (f : Lease → Lease) : (s.modLease q f).aseq = s.aseq := rfl
@[simp] theorem modLease_loads (s : State) (q : Nat) (f : Lease → Lease) : (s.modLease q f).loads = s.loads := rfl
@[simp] theorem modLease_held (s : State) (q : Nat) (f : Lease → Lease) : (s.modLease q f).held = s.held := rfl
@[simp] theorem modLease_mseq (s : State) (q : Nat) (f : Lease → Lease) : (s.modLease q f).mseq = s.mseq := rfl
@[simp] theorem modLease_bwait (s : State) (q : Nat) (f : Lease → Lease) : (s.modLease q f).bwait = s.bwait := rfl
@[simp] theorem modLease_spilt (s : State) (q : Nat) (f : Lease → Lease) : (s.modLease q f).spilt = s.spilt := rfl
@[simp] theorem modLease_drops (s : State) (q : Nat) (f : Lease → Lease) : (s.modLease q f).drops = s.drops := rfl
@[simp] theorem modLease_pseq (s : State) (q : Nat) (f : Lease → Lease) : (s.modLease q f).pseq = s.pseq := rfl

@[simp] theorem modPart_agenda (s : State) (p : Nat) (f : Partition → Partition) : (s.modPart p f).agenda = s.agenda := rfl
@[simp] theorem modPart_cur (s : State) (p : Nat) (f : Partition → Partition) : (s.modPart p f).cur = s.cur := rfl
@[simp] theorem modPart_epoch (s : State) (p : Nat) (f : Partition → Partition) : (s.modPart p f).epoch = s.epoch := rfl
@[simp] theorem modPart_grp (s : State) (p : Nat) (f : Partition → Partition) : (s.modPart p f).grp = s.grp := rfl
@[simp] theorem modPart_tick (s : State) (p : Nat) (f : Partition → Partition) : (s.modPart p f).tick = s.tick := rfl
@[simp] theorem modPart_clk (s : State) (p : Nat) (f : Partition → Partition) : (s.modPart p f).clk = s.clk := rfl
@[simp] theorem modPart_ctxs (s : State) (p : Nat) (f : Partition → Partition) : (s.modPart p f).ctxs = s.ctxs := rfl
@[simp] theorem modPart_cores (s : State) (p : Nat) (f : Partition → Partition) : (s.modPart p f).cores = s.cores := rfl
@[simp] theorem modPart_clusters (s : State) (p : Nat) (f : Partition → Partition) : (s.modPart p f).clusters = s.clusters := rfl
@[simp] theorem modPart_leases (s : State) (p : Nat) (f : Partition → Partition) : (s.modPart p f).leases = s.leases := rfl
@[simp] theorem modPart_rinst (s : State) (p : Nat) (f : Partition → Partition) : (s.modPart p f).rinst = s.rinst := rfl
@[simp] theorem modPart_mem (s : State) (p : Nat) (f : Partition → Partition) : (s.modPart p f).mem = s.mem := rfl
@[simp] theorem modPart_poison (s : State) (p : Nat) (f : Partition → Partition) : (s.modPart p f).poison = s.poison := rfl
@[simp] theorem modPart_empties (s : State) (p : Nat) (f : Partition → Partition) : (s.modPart p f).empties = s.empties := rfl
@[simp] theorem modPart_feq (s : State) (p : Nat) (f : Partition → Partition) : (s.modPart p f).feq = s.feq := rfl
@[simp] theorem modPart_net (s : State) (p : Nat) (f : Partition → Partition) : (s.modPart p f).net = s.net := rfl
@[simp] theorem modPart_ingress (s : State) (p : Nat) (f : Partition → Partition) : (s.modPart p f).ingress = s.ingress := rfl
@[simp] theorem modPart_pnet (s : State) (p : Nat) (f : Partition → Partition) : (s.modPart p f).pnet = s.pnet := rfl
@[simp] theorem modPart_qnet (s : State) (p : Nat) (f : Partition → Partition) : (s.modPart p f).qnet = s.qnet := rfl
@[simp] theorem modPart_cops (s : State) (p : Nat) (f : Partition → Partition) : (s.modPart p f).cops = s.cops := rfl
@[simp] theorem modPart_reds (s : State) (p : Nat) (f : Partition → Partition) : (s.modPart p f).reds = s.reds := rfl
@[simp] theorem modPart_props (s : State) (p : Nat) (f : Partition → Partition) : (s.modPart p f).props = s.props := rfl
@[simp] theorem modPart_dreqs (s : State) (p : Nat) (f : Partition → Partition) : (s.modPart p f).dreqs = s.dreqs := rfl
@[simp] theorem modPart_tokens (s : State) (p : Nat) (f : Partition → Partition) : (s.modPart p f).tokens = s.tokens := rfl
@[simp] theorem modPart_puts (s : State) (p : Nat) (f : Partition → Partition) : (s.modPart p f).puts = s.puts := rfl
@[simp] theorem modPart_walks (s : State) (p : Nat) (f : Partition → Partition) : (s.modPart p f).walks = s.walks := rfl
@[simp] theorem modPart_fills (s : State) (p : Nat) (f : Partition → Partition) : (s.modPart p f).fills = s.fills := rfl
@[simp] theorem modPart_bars (s : State) (p : Nat) (f : Partition → Partition) : (s.modPart p f).bars = s.bars := rfl
@[simp] theorem modPart_store (s : State) (p : Nat) (f : Partition → Partition) : (s.modPart p f).store = s.store := rfl
@[simp] theorem modPart_lseq (s : State) (p : Nat) (f : Partition → Partition) : (s.modPart p f).lseq = s.lseq := rfl
@[simp] theorem modPart_items (s : State) (p : Nat) (f : Partition → Partition) : (s.modPart p f).items = s.items := rfl
@[simp] theorem modPart_spaceq (s : State) (p : Nat) (f : Partition → Partition) : (s.modPart p f).spaceq = s.spaceq := rfl
@[simp] theorem modPart_eslot (s : State) (p : Nat) (f : Partition → Partition) : (s.modPart p f).eslot = s.eslot := rfl
@[simp] theorem modPart_fdrops (s : State) (p : Nat) (f : Partition → Partition) : (s.modPart p f).fdrops = s.fdrops := rfl
@[simp] theorem modPart_vlans (s : State) (p : Nat) (f : Partition → Partition) : (s.modPart p f).vlans = s.vlans := rfl
@[simp] theorem modPart_slots (s : State) (p : Nat) (f : Partition → Partition) : (s.modPart p f).slots = s.slots := rfl
@[simp] theorem modPart_budgets (s : State) (p : Nat) (f : Partition → Partition) : (s.modPart p f).budgets = s.budgets := rfl
@[simp] theorem modPart_served (s : State) (p : Nat) (f : Partition → Partition) : (s.modPart p f).served = s.served := rfl
@[simp] theorem modPart_window (s : State) (p : Nat) (f : Partition → Partition) : (s.modPart p f).window = s.window := rfl
@[simp] theorem modPart_rwindow (s : State) (p : Nat) (f : Partition → Partition) : (s.modPart p f).rwindow = s.rwindow := rfl
@[simp] theorem modPart_link0 (s : State) (p : Nat) (f : Partition → Partition) : (s.modPart p f).link0 = s.link0 := rfl
@[simp] theorem modPart_link1 (s : State) (p : Nat) (f : Partition → Partition) : (s.modPart p f).link1 = s.link1 := rfl
@[simp] theorem modPart_retries (s : State) (p : Nat) (f : Partition → Partition) : (s.modPart p f).retries = s.retries := rfl
@[simp] theorem modPart_devNum (s : State) (p : Nat) (f : Partition → Partition) : (s.modPart p f).devNum = s.devNum := rfl
@[simp] theorem modPart_boot (s : State) (p : Nat) (f : Partition → Partition) : (s.modPart p f).boot = s.boot := rfl
@[simp] theorem modPart_dlog (s : State) (p : Nat) (f : Partition → Partition) : (s.modPart p f).dlog = s.dlog := rfl
@[simp] theorem modPart_outbox (s : State) (p : Nat) (f : Partition → Partition) : (s.modPart p f).outbox = s.outbox := rfl
@[simp] theorem modPart_aseq (s : State) (p : Nat) (f : Partition → Partition) : (s.modPart p f).aseq = s.aseq := rfl
@[simp] theorem modPart_loads (s : State) (p : Nat) (f : Partition → Partition) : (s.modPart p f).loads = s.loads := rfl
@[simp] theorem modPart_held (s : State) (p : Nat) (f : Partition → Partition) : (s.modPart p f).held = s.held := rfl
@[simp] theorem modPart_mseq (s : State) (p : Nat) (f : Partition → Partition) : (s.modPart p f).mseq = s.mseq := rfl
@[simp] theorem modPart_bwait (s : State) (p : Nat) (f : Partition → Partition) : (s.modPart p f).bwait = s.bwait := rfl
@[simp] theorem modPart_spilt (s : State) (p : Nat) (f : Partition → Partition) : (s.modPart p f).spilt = s.spilt := rfl
@[simp] theorem modPart_drops (s : State) (p : Nat) (f : Partition → Partition) : (s.modPart p f).drops = s.drops := rfl
@[simp] theorem modPart_pseq (s : State) (p : Nat) (f : Partition → Partition) : (s.modPart p f).pseq = s.pseq := rfl

@[simp] theorem putBytes_agenda (s : State) (loc : Nat) (bs : List Byte) : (s.putBytes loc bs).agenda = s.agenda := rfl
@[simp] theorem putBytes_cur (s : State) (loc : Nat) (bs : List Byte) : (s.putBytes loc bs).cur = s.cur := rfl
@[simp] theorem putBytes_epoch (s : State) (loc : Nat) (bs : List Byte) : (s.putBytes loc bs).epoch = s.epoch := rfl
@[simp] theorem putBytes_grp (s : State) (loc : Nat) (bs : List Byte) : (s.putBytes loc bs).grp = s.grp := rfl
@[simp] theorem putBytes_tick (s : State) (loc : Nat) (bs : List Byte) : (s.putBytes loc bs).tick = s.tick := rfl
@[simp] theorem putBytes_clk (s : State) (loc : Nat) (bs : List Byte) : (s.putBytes loc bs).clk = s.clk := rfl
@[simp] theorem putBytes_ctxs (s : State) (loc : Nat) (bs : List Byte) : (s.putBytes loc bs).ctxs = s.ctxs := rfl
@[simp] theorem putBytes_cores (s : State) (loc : Nat) (bs : List Byte) : (s.putBytes loc bs).cores = s.cores := rfl
@[simp] theorem putBytes_clusters (s : State) (loc : Nat) (bs : List Byte) : (s.putBytes loc bs).clusters = s.clusters := rfl
@[simp] theorem putBytes_leases (s : State) (loc : Nat) (bs : List Byte) : (s.putBytes loc bs).leases = s.leases := rfl
@[simp] theorem putBytes_rinst (s : State) (loc : Nat) (bs : List Byte) : (s.putBytes loc bs).rinst = s.rinst := rfl
@[simp] theorem putBytes_poison (s : State) (loc : Nat) (bs : List Byte) : (s.putBytes loc bs).poison = s.poison := rfl
@[simp] theorem putBytes_empties (s : State) (loc : Nat) (bs : List Byte) : (s.putBytes loc bs).empties = s.empties := rfl
@[simp] theorem putBytes_feq (s : State) (loc : Nat) (bs : List Byte) : (s.putBytes loc bs).feq = s.feq := rfl
@[simp] theorem putBytes_net (s : State) (loc : Nat) (bs : List Byte) : (s.putBytes loc bs).net = s.net := rfl
@[simp] theorem putBytes_ingress (s : State) (loc : Nat) (bs : List Byte) : (s.putBytes loc bs).ingress = s.ingress := rfl
@[simp] theorem putBytes_pnet (s : State) (loc : Nat) (bs : List Byte) : (s.putBytes loc bs).pnet = s.pnet := rfl
@[simp] theorem putBytes_qnet (s : State) (loc : Nat) (bs : List Byte) : (s.putBytes loc bs).qnet = s.qnet := rfl
@[simp] theorem putBytes_cops (s : State) (loc : Nat) (bs : List Byte) : (s.putBytes loc bs).cops = s.cops := rfl
@[simp] theorem putBytes_reds (s : State) (loc : Nat) (bs : List Byte) : (s.putBytes loc bs).reds = s.reds := rfl
@[simp] theorem putBytes_props (s : State) (loc : Nat) (bs : List Byte) : (s.putBytes loc bs).props = s.props := rfl
@[simp] theorem putBytes_dreqs (s : State) (loc : Nat) (bs : List Byte) : (s.putBytes loc bs).dreqs = s.dreqs := rfl
@[simp] theorem putBytes_tokens (s : State) (loc : Nat) (bs : List Byte) : (s.putBytes loc bs).tokens = s.tokens := rfl
@[simp] theorem putBytes_puts (s : State) (loc : Nat) (bs : List Byte) : (s.putBytes loc bs).puts = s.puts := rfl
@[simp] theorem putBytes_walks (s : State) (loc : Nat) (bs : List Byte) : (s.putBytes loc bs).walks = s.walks := rfl
@[simp] theorem putBytes_fills (s : State) (loc : Nat) (bs : List Byte) : (s.putBytes loc bs).fills = s.fills := rfl
@[simp] theorem putBytes_bars (s : State) (loc : Nat) (bs : List Byte) : (s.putBytes loc bs).bars = s.bars := rfl
@[simp] theorem putBytes_parts (s : State) (loc : Nat) (bs : List Byte) : (s.putBytes loc bs).parts = s.parts := rfl
@[simp] theorem putBytes_store (s : State) (loc : Nat) (bs : List Byte) : (s.putBytes loc bs).store = s.store := rfl
@[simp] theorem putBytes_lseq (s : State) (loc : Nat) (bs : List Byte) : (s.putBytes loc bs).lseq = s.lseq := rfl
@[simp] theorem putBytes_items (s : State) (loc : Nat) (bs : List Byte) : (s.putBytes loc bs).items = s.items := rfl
@[simp] theorem putBytes_spaceq (s : State) (loc : Nat) (bs : List Byte) : (s.putBytes loc bs).spaceq = s.spaceq := rfl
@[simp] theorem putBytes_eslot (s : State) (loc : Nat) (bs : List Byte) : (s.putBytes loc bs).eslot = s.eslot := rfl
@[simp] theorem putBytes_fdrops (s : State) (loc : Nat) (bs : List Byte) : (s.putBytes loc bs).fdrops = s.fdrops := rfl
@[simp] theorem putBytes_vlans (s : State) (loc : Nat) (bs : List Byte) : (s.putBytes loc bs).vlans = s.vlans := rfl
@[simp] theorem putBytes_slots (s : State) (loc : Nat) (bs : List Byte) : (s.putBytes loc bs).slots = s.slots := rfl
@[simp] theorem putBytes_budgets (s : State) (loc : Nat) (bs : List Byte) : (s.putBytes loc bs).budgets = s.budgets := rfl
@[simp] theorem putBytes_served (s : State) (loc : Nat) (bs : List Byte) : (s.putBytes loc bs).served = s.served := rfl
@[simp] theorem putBytes_window (s : State) (loc : Nat) (bs : List Byte) : (s.putBytes loc bs).window = s.window := rfl
@[simp] theorem putBytes_rwindow (s : State) (loc : Nat) (bs : List Byte) : (s.putBytes loc bs).rwindow = s.rwindow := rfl
@[simp] theorem putBytes_link0 (s : State) (loc : Nat) (bs : List Byte) : (s.putBytes loc bs).link0 = s.link0 := rfl
@[simp] theorem putBytes_link1 (s : State) (loc : Nat) (bs : List Byte) : (s.putBytes loc bs).link1 = s.link1 := rfl
@[simp] theorem putBytes_retries (s : State) (loc : Nat) (bs : List Byte) : (s.putBytes loc bs).retries = s.retries := rfl
@[simp] theorem putBytes_devNum (s : State) (loc : Nat) (bs : List Byte) : (s.putBytes loc bs).devNum = s.devNum := rfl
@[simp] theorem putBytes_boot (s : State) (loc : Nat) (bs : List Byte) : (s.putBytes loc bs).boot = s.boot := rfl
@[simp] theorem putBytes_dlog (s : State) (loc : Nat) (bs : List Byte) : (s.putBytes loc bs).dlog = s.dlog := rfl
@[simp] theorem putBytes_outbox (s : State) (loc : Nat) (bs : List Byte) : (s.putBytes loc bs).outbox = s.outbox := rfl
@[simp] theorem putBytes_aseq (s : State) (loc : Nat) (bs : List Byte) : (s.putBytes loc bs).aseq = s.aseq := rfl
@[simp] theorem putBytes_loads (s : State) (loc : Nat) (bs : List Byte) : (s.putBytes loc bs).loads = s.loads := rfl
@[simp] theorem putBytes_held (s : State) (loc : Nat) (bs : List Byte) : (s.putBytes loc bs).held = s.held := rfl
@[simp] theorem putBytes_mseq (s : State) (loc : Nat) (bs : List Byte) : (s.putBytes loc bs).mseq = s.mseq := rfl
@[simp] theorem putBytes_bwait (s : State) (loc : Nat) (bs : List Byte) : (s.putBytes loc bs).bwait = s.bwait := rfl
@[simp] theorem putBytes_spilt (s : State) (loc : Nat) (bs : List Byte) : (s.putBytes loc bs).spilt = s.spilt := rfl
@[simp] theorem putBytes_drops (s : State) (loc : Nat) (bs : List Byte) : (s.putBytes loc bs).drops = s.drops := rfl
@[simp] theorem putBytes_pseq (s : State) (loc : Nat) (bs : List Byte) : (s.putBytes loc bs).pseq = s.pseq := rfl

@[simp] theorem clearPoison_agenda (s : State) (loc n : Nat) : (s.clearPoison loc n).agenda = s.agenda := rfl
@[simp] theorem clearPoison_cur (s : State) (loc n : Nat) : (s.clearPoison loc n).cur = s.cur := rfl
@[simp] theorem clearPoison_epoch (s : State) (loc n : Nat) : (s.clearPoison loc n).epoch = s.epoch := rfl
@[simp] theorem clearPoison_grp (s : State) (loc n : Nat) : (s.clearPoison loc n).grp = s.grp := rfl
@[simp] theorem clearPoison_tick (s : State) (loc n : Nat) : (s.clearPoison loc n).tick = s.tick := rfl
@[simp] theorem clearPoison_clk (s : State) (loc n : Nat) : (s.clearPoison loc n).clk = s.clk := rfl
@[simp] theorem clearPoison_ctxs (s : State) (loc n : Nat) : (s.clearPoison loc n).ctxs = s.ctxs := rfl
@[simp] theorem clearPoison_cores (s : State) (loc n : Nat) : (s.clearPoison loc n).cores = s.cores := rfl
@[simp] theorem clearPoison_clusters (s : State) (loc n : Nat) : (s.clearPoison loc n).clusters = s.clusters := rfl
@[simp] theorem clearPoison_leases (s : State) (loc n : Nat) : (s.clearPoison loc n).leases = s.leases := rfl
@[simp] theorem clearPoison_rinst (s : State) (loc n : Nat) : (s.clearPoison loc n).rinst = s.rinst := rfl
@[simp] theorem clearPoison_mem (s : State) (loc n : Nat) : (s.clearPoison loc n).mem = s.mem := rfl
@[simp] theorem clearPoison_empties (s : State) (loc n : Nat) : (s.clearPoison loc n).empties = s.empties := rfl
@[simp] theorem clearPoison_feq (s : State) (loc n : Nat) : (s.clearPoison loc n).feq = s.feq := rfl
@[simp] theorem clearPoison_net (s : State) (loc n : Nat) : (s.clearPoison loc n).net = s.net := rfl
@[simp] theorem clearPoison_ingress (s : State) (loc n : Nat) : (s.clearPoison loc n).ingress = s.ingress := rfl
@[simp] theorem clearPoison_pnet (s : State) (loc n : Nat) : (s.clearPoison loc n).pnet = s.pnet := rfl
@[simp] theorem clearPoison_qnet (s : State) (loc n : Nat) : (s.clearPoison loc n).qnet = s.qnet := rfl
@[simp] theorem clearPoison_cops (s : State) (loc n : Nat) : (s.clearPoison loc n).cops = s.cops := rfl
@[simp] theorem clearPoison_reds (s : State) (loc n : Nat) : (s.clearPoison loc n).reds = s.reds := rfl
@[simp] theorem clearPoison_props (s : State) (loc n : Nat) : (s.clearPoison loc n).props = s.props := rfl
@[simp] theorem clearPoison_dreqs (s : State) (loc n : Nat) : (s.clearPoison loc n).dreqs = s.dreqs := rfl
@[simp] theorem clearPoison_tokens (s : State) (loc n : Nat) : (s.clearPoison loc n).tokens = s.tokens := rfl
@[simp] theorem clearPoison_puts (s : State) (loc n : Nat) : (s.clearPoison loc n).puts = s.puts := rfl
@[simp] theorem clearPoison_walks (s : State) (loc n : Nat) : (s.clearPoison loc n).walks = s.walks := rfl
@[simp] theorem clearPoison_fills (s : State) (loc n : Nat) : (s.clearPoison loc n).fills = s.fills := rfl
@[simp] theorem clearPoison_bars (s : State) (loc n : Nat) : (s.clearPoison loc n).bars = s.bars := rfl
@[simp] theorem clearPoison_parts (s : State) (loc n : Nat) : (s.clearPoison loc n).parts = s.parts := rfl
@[simp] theorem clearPoison_store (s : State) (loc n : Nat) : (s.clearPoison loc n).store = s.store := rfl
@[simp] theorem clearPoison_lseq (s : State) (loc n : Nat) : (s.clearPoison loc n).lseq = s.lseq := rfl
@[simp] theorem clearPoison_items (s : State) (loc n : Nat) : (s.clearPoison loc n).items = s.items := rfl
@[simp] theorem clearPoison_spaceq (s : State) (loc n : Nat) : (s.clearPoison loc n).spaceq = s.spaceq := rfl
@[simp] theorem clearPoison_eslot (s : State) (loc n : Nat) : (s.clearPoison loc n).eslot = s.eslot := rfl
@[simp] theorem clearPoison_fdrops (s : State) (loc n : Nat) : (s.clearPoison loc n).fdrops = s.fdrops := rfl
@[simp] theorem clearPoison_vlans (s : State) (loc n : Nat) : (s.clearPoison loc n).vlans = s.vlans := rfl
@[simp] theorem clearPoison_slots (s : State) (loc n : Nat) : (s.clearPoison loc n).slots = s.slots := rfl
@[simp] theorem clearPoison_budgets (s : State) (loc n : Nat) : (s.clearPoison loc n).budgets = s.budgets := rfl
@[simp] theorem clearPoison_served (s : State) (loc n : Nat) : (s.clearPoison loc n).served = s.served := rfl
@[simp] theorem clearPoison_window (s : State) (loc n : Nat) : (s.clearPoison loc n).window = s.window := rfl
@[simp] theorem clearPoison_rwindow (s : State) (loc n : Nat) : (s.clearPoison loc n).rwindow = s.rwindow := rfl
@[simp] theorem clearPoison_link0 (s : State) (loc n : Nat) : (s.clearPoison loc n).link0 = s.link0 := rfl
@[simp] theorem clearPoison_link1 (s : State) (loc n : Nat) : (s.clearPoison loc n).link1 = s.link1 := rfl
@[simp] theorem clearPoison_retries (s : State) (loc n : Nat) : (s.clearPoison loc n).retries = s.retries := rfl
@[simp] theorem clearPoison_devNum (s : State) (loc n : Nat) : (s.clearPoison loc n).devNum = s.devNum := rfl
@[simp] theorem clearPoison_boot (s : State) (loc n : Nat) : (s.clearPoison loc n).boot = s.boot := rfl
@[simp] theorem clearPoison_dlog (s : State) (loc n : Nat) : (s.clearPoison loc n).dlog = s.dlog := rfl
@[simp] theorem clearPoison_outbox (s : State) (loc n : Nat) : (s.clearPoison loc n).outbox = s.outbox := rfl
@[simp] theorem clearPoison_aseq (s : State) (loc n : Nat) : (s.clearPoison loc n).aseq = s.aseq := rfl
@[simp] theorem clearPoison_loads (s : State) (loc n : Nat) : (s.clearPoison loc n).loads = s.loads := rfl
@[simp] theorem clearPoison_held (s : State) (loc n : Nat) : (s.clearPoison loc n).held = s.held := rfl
@[simp] theorem clearPoison_mseq (s : State) (loc n : Nat) : (s.clearPoison loc n).mseq = s.mseq := rfl
@[simp] theorem clearPoison_bwait (s : State) (loc n : Nat) : (s.clearPoison loc n).bwait = s.bwait := rfl
@[simp] theorem clearPoison_spilt (s : State) (loc n : Nat) : (s.clearPoison loc n).spilt = s.spilt := rfl
@[simp] theorem clearPoison_drops (s : State) (loc n : Nat) : (s.clearPoison loc n).drops = s.drops := rfl
@[simp] theorem clearPoison_pseq (s : State) (loc n : Nat) : (s.clearPoison loc n).pseq = s.pseq := rfl

/-! ## Updates of a context -/

@[simp] theorem setReg_run (c : Context) (n : Nat) (v : Word) : (c.setReg n v).run = c.run := rfl
@[simp] theorem setReg_pc (c : Context) (n : Nat) (v : Word) : (c.setReg n v).pc = c.pc := rfl
@[simp] theorem setReg_via (c : Context) (n : Nat) (v : Word) : (c.setReg n v).via = c.via := rfl
@[simp] theorem setReg_k (c : Context) (n : Nat) (v : Word) : (c.setReg n v).k = c.k := rfl
@[simp] theorem setReg_seg (c : Context) (n : Nat) (v : Word) : (c.setReg n v).seg = c.seg := rfl
@[simp] theorem setReg_sel (c : Context) (n : Nat) (v : Word) : (c.setReg n v).sel = c.sel := rfl
@[simp] theorem setReg_gpos (c : Context) (n : Nat) (v : Word) : (c.setReg n v).gpos = c.gpos := rfl
@[simp] theorem setReg_sec (c : Context) (n : Nat) (v : Word) : (c.setReg n v).sec = c.sec := rfl
@[simp] theorem setReg_sup (c : Context) (n : Nat) (v : Word) : (c.setReg n v).sup = c.sup := rfl
@[simp] theorem setReg_mode (c : Context) (n : Nat) (v : Word) : (c.setReg n v).mode = c.mode := rfl
@[simp] theorem setReg_flags (c : Context) (n : Nat) (v : Word) : (c.setReg n v).flags = c.flags := rfl
@[simp] theorem setReg_msgdst (c : Context) (n : Nat) (v : Word) : (c.setReg n v).msgdst = c.msgdst := rfl
@[simp] theorem setReg_jobseed (c : Context) (n : Nat) (v : Word) : (c.setReg n v).jobseed = c.jobseed := rfl
@[simp] theorem setReg_rngst (c : Context) (n : Nat) (v : Word) : (c.setReg n v).rngst = c.rngst := rfl
@[simp] theorem setReg_fretboard (c : Context) (n : Nat) (v : Word) : (c.setReg n v).fretboard = c.fretboard := rfl
@[simp] theorem setReg_tcause (c : Context) (n : Nat) (v : Word) : (c.setReg n v).tcause = c.tcause := rfl
@[simp] theorem setReg_tinfo (c : Context) (n : Nat) (v : Word) : (c.setReg n v).tinfo = c.tinfo := rfl
@[simp] theorem setReg_tpc (c : Context) (n : Nat) (v : Word) : (c.setReg n v).tpc = c.tpc := rfl
@[simp] theorem setReg_qlink (c : Context) (n : Nat) (v : Word) : (c.setReg n v).qlink = c.qlink := rfl
@[simp] theorem setReg_bowgrp (c : Context) (n : Nat) (v : Word) : (c.setReg n v).bowgrp = c.bowgrp := rfl
@[simp] theorem setReg_qcls (c : Context) (n : Nat) (v : Word) : (c.setReg n v).qcls = c.qcls := rfl
@[simp] theorem setReg_part (c : Context) (n : Nat) (v : Word) : (c.setReg n v).part = c.part := rfl
@[simp] theorem setReg_ctxid (c : Context) (n : Nat) (v : Word) : (c.setReg n v).ctxid = c.ctxid := rfl
@[simp] theorem setReg_mbx (c : Context) (n : Nat) (v : Word) : (c.setReg n v).mbx = c.mbx := rfl
@[simp] theorem setReg_rot (c : Context) (n : Nat) (v : Word) : (c.setReg n v).rot = c.rot := rfl
@[simp] theorem setReg_qin (c : Context) (n : Nat) (v : Word) : (c.setReg n v).qin = c.qin := rfl
@[simp] theorem setReg_frame (c : Context) (n : Nat) (v : Word) : (c.setReg n v).frame = c.frame := rfl
@[simp] theorem setReg_out (c : Context) (n : Nat) (v : Word) : (c.setReg n v).out = c.out := rfl
@[simp] theorem setReg_fwd (c : Context) (n : Nat) (v : Word) : (c.setReg n v).fwd = c.fwd := rfl
@[simp] theorem setReg_pops (c : Context) (n : Nat) (v : Word) : (c.setReg n v).pops = c.pops := rfl
@[simp] theorem setReg_notice (c : Context) (n : Nat) (v : Word) : (c.setReg n v).notice = c.notice := rfl
@[simp] theorem setReg_late (c : Context) (n : Nat) (v : Word) : (c.setReg n v).late = c.late := rfl
@[simp] theorem setReg_pend (c : Context) (n : Nat) (v : Word) : (c.setReg n v).pend = c.pend := rfl
@[simp] theorem setReg_wait (c : Context) (n : Nat) (v : Word) : (c.setReg n v).wait = c.wait := rfl
@[simp] theorem setReg_rcv (c : Context) (n : Nat) (v : Word) : (c.setReg n v).rcv = c.rcv := rfl
@[simp] theorem setReg_away (c : Context) (n : Nat) (v : Word) : (c.setReg n v).away = c.away := rfl
@[simp] theorem setReg_stopReq (c : Context) (n : Nat) (v : Word) : (c.setReg n v).stopReq = c.stopReq := rfl
@[simp] theorem setReg_muteOut (c : Context) (n : Nat) (v : Word) : (c.setReg n v).muteOut = c.muteOut := rfl
@[simp] theorem setReg_gen (c : Context) (n : Nat) (v : Word) : (c.setReg n v).gen = c.gen := rfl
@[simp] theorem setReg_cyc (c : Context) (n : Nat) (v : Word) : (c.setReg n v).cyc = c.cyc := rfl

@[simp] theorem setK_run (c : Context) (n : Nat) (v : Bool) : (c.setK n v).run = c.run := rfl
@[simp] theorem setK_pc (c : Context) (n : Nat) (v : Bool) : (c.setK n v).pc = c.pc := rfl
@[simp] theorem setK_via (c : Context) (n : Nat) (v : Bool) : (c.setK n v).via = c.via := rfl
@[simp] theorem setK_x (c : Context) (n : Nat) (v : Bool) : (c.setK n v).x = c.x := rfl
@[simp] theorem setK_seg (c : Context) (n : Nat) (v : Bool) : (c.setK n v).seg = c.seg := rfl
@[simp] theorem setK_sel (c : Context) (n : Nat) (v : Bool) : (c.setK n v).sel = c.sel := rfl
@[simp] theorem setK_gpos (c : Context) (n : Nat) (v : Bool) : (c.setK n v).gpos = c.gpos := rfl
@[simp] theorem setK_sec (c : Context) (n : Nat) (v : Bool) : (c.setK n v).sec = c.sec := rfl
@[simp] theorem setK_sup (c : Context) (n : Nat) (v : Bool) : (c.setK n v).sup = c.sup := rfl
@[simp] theorem setK_mode (c : Context) (n : Nat) (v : Bool) : (c.setK n v).mode = c.mode := rfl
@[simp] theorem setK_flags (c : Context) (n : Nat) (v : Bool) : (c.setK n v).flags = c.flags := rfl
@[simp] theorem setK_msgdst (c : Context) (n : Nat) (v : Bool) : (c.setK n v).msgdst = c.msgdst := rfl
@[simp] theorem setK_jobseed (c : Context) (n : Nat) (v : Bool) : (c.setK n v).jobseed = c.jobseed := rfl
@[simp] theorem setK_rngst (c : Context) (n : Nat) (v : Bool) : (c.setK n v).rngst = c.rngst := rfl
@[simp] theorem setK_fretboard (c : Context) (n : Nat) (v : Bool) : (c.setK n v).fretboard = c.fretboard := rfl
@[simp] theorem setK_tcause (c : Context) (n : Nat) (v : Bool) : (c.setK n v).tcause = c.tcause := rfl
@[simp] theorem setK_tinfo (c : Context) (n : Nat) (v : Bool) : (c.setK n v).tinfo = c.tinfo := rfl
@[simp] theorem setK_tpc (c : Context) (n : Nat) (v : Bool) : (c.setK n v).tpc = c.tpc := rfl
@[simp] theorem setK_qlink (c : Context) (n : Nat) (v : Bool) : (c.setK n v).qlink = c.qlink := rfl
@[simp] theorem setK_bowgrp (c : Context) (n : Nat) (v : Bool) : (c.setK n v).bowgrp = c.bowgrp := rfl
@[simp] theorem setK_qcls (c : Context) (n : Nat) (v : Bool) : (c.setK n v).qcls = c.qcls := rfl
@[simp] theorem setK_part (c : Context) (n : Nat) (v : Bool) : (c.setK n v).part = c.part := rfl
@[simp] theorem setK_ctxid (c : Context) (n : Nat) (v : Bool) : (c.setK n v).ctxid = c.ctxid := rfl
@[simp] theorem setK_mbx (c : Context) (n : Nat) (v : Bool) : (c.setK n v).mbx = c.mbx := rfl
@[simp] theorem setK_rot (c : Context) (n : Nat) (v : Bool) : (c.setK n v).rot = c.rot := rfl
@[simp] theorem setK_qin (c : Context) (n : Nat) (v : Bool) : (c.setK n v).qin = c.qin := rfl
@[simp] theorem setK_frame (c : Context) (n : Nat) (v : Bool) : (c.setK n v).frame = c.frame := rfl
@[simp] theorem setK_out (c : Context) (n : Nat) (v : Bool) : (c.setK n v).out = c.out := rfl
@[simp] theorem setK_fwd (c : Context) (n : Nat) (v : Bool) : (c.setK n v).fwd = c.fwd := rfl
@[simp] theorem setK_pops (c : Context) (n : Nat) (v : Bool) : (c.setK n v).pops = c.pops := rfl
@[simp] theorem setK_notice (c : Context) (n : Nat) (v : Bool) : (c.setK n v).notice = c.notice := rfl
@[simp] theorem setK_late (c : Context) (n : Nat) (v : Bool) : (c.setK n v).late = c.late := rfl
@[simp] theorem setK_pend (c : Context) (n : Nat) (v : Bool) : (c.setK n v).pend = c.pend := rfl
@[simp] theorem setK_wait (c : Context) (n : Nat) (v : Bool) : (c.setK n v).wait = c.wait := rfl
@[simp] theorem setK_rcv (c : Context) (n : Nat) (v : Bool) : (c.setK n v).rcv = c.rcv := rfl
@[simp] theorem setK_away (c : Context) (n : Nat) (v : Bool) : (c.setK n v).away = c.away := rfl
@[simp] theorem setK_stopReq (c : Context) (n : Nat) (v : Bool) : (c.setK n v).stopReq = c.stopReq := rfl
@[simp] theorem setK_muteOut (c : Context) (n : Nat) (v : Bool) : (c.setK n v).muteOut = c.muteOut := rfl
@[simp] theorem setK_gen (c : Context) (n : Nat) (v : Bool) : (c.setK n v).gen = c.gen := rfl
@[simp] theorem setK_cyc (c : Context) (n : Nat) (v : Bool) : (c.setK n v).cyc = c.cyc := rfl

@[simp] theorem setFrame_run (c : Context) (n p : Nat) : (c.setFrame n p).run = c.run := by cases c; rfl
@[simp] theorem setFrame_pc (c : Context) (n p : Nat) : (c.setFrame n p).pc = c.pc := by cases c; rfl
@[simp] theorem setFrame_via (c : Context) (n p : Nat) : (c.setFrame n p).via = c.via := by cases c; rfl
@[simp] theorem setFrame_x (c : Context) (n p : Nat) : (c.setFrame n p).x = c.x := by cases c; rfl
@[simp] theorem setFrame_k (c : Context) (n p : Nat) : (c.setFrame n p).k = c.k := by cases c; rfl
@[simp] theorem setFrame_seg (c : Context) (n p : Nat) : (c.setFrame n p).seg = c.seg := by cases c; rfl
@[simp] theorem setFrame_sel (c : Context) (n p : Nat) : (c.setFrame n p).sel = c.sel := by cases c; rfl
@[simp] theorem setFrame_gpos (c : Context) (n p : Nat) : (c.setFrame n p).gpos = c.gpos := by cases c; rfl
@[simp] theorem setFrame_sec (c : Context) (n p : Nat) : (c.setFrame n p).sec = c.sec := by cases c; rfl
@[simp] theorem setFrame_sup (c : Context) (n p : Nat) : (c.setFrame n p).sup = c.sup := by cases c; rfl
@[simp] theorem setFrame_flags (c : Context) (n p : Nat) : (c.setFrame n p).flags = c.flags := by cases c; rfl
@[simp] theorem setFrame_msgdst (c : Context) (n p : Nat) : (c.setFrame n p).msgdst = c.msgdst := by cases c; rfl
@[simp] theorem setFrame_jobseed (c : Context) (n p : Nat) : (c.setFrame n p).jobseed = c.jobseed := by cases c; rfl
@[simp] theorem setFrame_rngst (c : Context) (n p : Nat) : (c.setFrame n p).rngst = c.rngst := by cases c; rfl
@[simp] theorem setFrame_fretboard (c : Context) (n p : Nat) : (c.setFrame n p).fretboard = c.fretboard := by cases c; rfl
@[simp] theorem setFrame_tcause (c : Context) (n p : Nat) : (c.setFrame n p).tcause = c.tcause := by cases c; rfl
@[simp] theorem setFrame_tinfo (c : Context) (n p : Nat) : (c.setFrame n p).tinfo = c.tinfo := by cases c; rfl
@[simp] theorem setFrame_tpc (c : Context) (n p : Nat) : (c.setFrame n p).tpc = c.tpc := by cases c; rfl
@[simp] theorem setFrame_qlink (c : Context) (n p : Nat) : (c.setFrame n p).qlink = c.qlink := by cases c; rfl
@[simp] theorem setFrame_bowgrp (c : Context) (n p : Nat) : (c.setFrame n p).bowgrp = c.bowgrp := by cases c; rfl
@[simp] theorem setFrame_qcls (c : Context) (n p : Nat) : (c.setFrame n p).qcls = c.qcls := by cases c; rfl
@[simp] theorem setFrame_part (c : Context) (n p : Nat) : (c.setFrame n p).part = c.part := by cases c; rfl
@[simp] theorem setFrame_ctxid (c : Context) (n p : Nat) : (c.setFrame n p).ctxid = c.ctxid := by cases c; rfl
@[simp] theorem setFrame_mbx (c : Context) (n p : Nat) : (c.setFrame n p).mbx = c.mbx := by cases c; rfl
@[simp] theorem setFrame_rot (c : Context) (n p : Nat) : (c.setFrame n p).rot = c.rot := by cases c; rfl
@[simp] theorem setFrame_qin (c : Context) (n p : Nat) : (c.setFrame n p).qin = c.qin := by cases c; rfl
@[simp] theorem setFrame_frame (c : Context) (n p : Nat) : (c.setFrame n p).frame = c.frame := by cases c; rfl
@[simp] theorem setFrame_out (c : Context) (n p : Nat) : (c.setFrame n p).out = c.out := by cases c; rfl
@[simp] theorem setFrame_fwd (c : Context) (n p : Nat) : (c.setFrame n p).fwd = c.fwd := by cases c; rfl
@[simp] theorem setFrame_pops (c : Context) (n p : Nat) : (c.setFrame n p).pops = c.pops := by cases c; rfl
@[simp] theorem setFrame_notice (c : Context) (n p : Nat) : (c.setFrame n p).notice = c.notice := by cases c; rfl
@[simp] theorem setFrame_late (c : Context) (n p : Nat) : (c.setFrame n p).late = c.late := by cases c; rfl
@[simp] theorem setFrame_pend (c : Context) (n p : Nat) : (c.setFrame n p).pend = c.pend := by cases c; rfl
@[simp] theorem setFrame_wait (c : Context) (n p : Nat) : (c.setFrame n p).wait = c.wait := by cases c; rfl
@[simp] theorem setFrame_rcv (c : Context) (n p : Nat) : (c.setFrame n p).rcv = c.rcv := by cases c; rfl
@[simp] theorem setFrame_away (c : Context) (n p : Nat) : (c.setFrame n p).away = c.away := by cases c; rfl
@[simp] theorem setFrame_stopReq (c : Context) (n p : Nat) : (c.setFrame n p).stopReq = c.stopReq := by cases c; rfl
@[simp] theorem setFrame_muteOut (c : Context) (n p : Nat) : (c.setFrame n p).muteOut = c.muteOut := by cases c; rfl
@[simp] theorem setFrame_gen (c : Context) (n p : Nat) : (c.setFrame n p).gen = c.gen := by cases c; rfl
@[simp] theorem setFrame_cyc (c : Context) (n p : Nat) : (c.setFrame n p).cyc = c.cyc := by cases c; rfl

/-! ## Reads of an updated part -/

@[simp] theorem ctx_setCtx (s : State) (m : Nat) (c : Context) : (s.setCtx m c).ctx m = c := tget_tset _ _ _ _
theorem ctx_setCtx_ne (s : State) {m n : Nat} (c : Context) (h : n ≠ m) : (s.setCtx m c).ctx n = s.ctx n :=
  tget_tset_ne _ _ _ h
@[simp] theorem ctx_modCtx (s : State) (m : Nat) (f : Context → Context) : (s.modCtx m f).ctx m = f (s.ctx m) :=
  ctx_setCtx _ _ _
theorem ctx_modCtx_ne (s : State) {m n : Nat} (f : Context → Context) (h : n ≠ m) : (s.modCtx m f).ctx n = s.ctx n :=
  ctx_setCtx_ne _ _ h
@[simp] theorem ctx_modMe (s : State) (f : Context → Context) : (s.modMe f).ctx s.cur = f (s.ctx s.cur) := ctx_modCtx _ _ _
@[simp] theorem me_modMe (s : State) (f : Context → Context) : (s.modMe f).me = f s.me := ctx_modCtx _ _ _
@[simp] theorem me_goto (s : State) (pc via : Word) :
    (s.goto pc via).me = { s.me with pc := pc, via := via, wait := none } := me_modMe _ _
@[simp] theorem setCtx_setCtx (s : State) (m : Nat) (c d : Context) : (s.setCtx m c).setCtx m d = s.setCtx m d := by
  simp [State.setCtx]
@[simp] theorem modCtx_modCtx (s : State) (m : Nat) (f g : Context → Context) :
    (s.modCtx m f).modCtx m g = s.modCtx m fun c => g (f c) := by
  simp [State.modCtx]
@[simp] theorem modMe_modMe (s : State) (f g : Context → Context) :
    (s.modMe f).modMe g = s.modMe fun c => g (f c) := modCtx_modCtx _ _ _ _
theorem goto_modMe (s : State) (f : Context → Context) (pc via : Word) :
    (s.modMe f).goto pc via = s.modMe fun c => { f c with pc := pc, via := via, wait := none } := modMe_modMe _ _ _
@[simp] theorem ctx_setCore (s : State) (c : Nat) (k : Core) (m : Nat) : (s.setCore c k).ctx m = s.ctx m := rfl
@[simp] theorem me_setCore (s : State) (c : Nat) (k : Core) : (s.setCore c k).me = s.me := rfl
@[simp] theorem ctx_modCore (s : State) (c : Nat) (f : Core → Core) (m : Nat) : (s.modCore c f).ctx m = s.ctx m := rfl
@[simp] theorem me_modCore (s : State) (c : Nat) (f : Core → Core) : (s.modCore c f).me = s.me := rfl
@[simp] theorem ctx_modCluster (s : State) (k : Nat) (f : Cluster → Cluster) (m : Nat) : (s.modCluster k f).ctx m = s.ctx m := rfl
@[simp] theorem me_modCluster (s : State) (k : Nat) (f : Cluster → Cluster) : (s.modCluster k f).me = s.me := rfl
@[simp] theorem ctx_modPart (s : State) (p : Nat) (f : Partition → Partition) (m : Nat) : (s.modPart p f).ctx m = s.ctx m := rfl
@[simp] theorem me_modPart (s : State) (p : Nat) (f : Partition → Partition) : (s.modPart p f).me = s.me := rfl
@[simp] theorem ctx_putBytes (s : State) (loc : Nat) (bs : List Byte) (m : Nat) : (s.putBytes loc bs).ctx m = s.ctx m := rfl
@[simp] theorem me_putBytes (s : State) (loc : Nat) (bs : List Byte) : (s.putBytes loc bs).me = s.me := rfl
@[simp] theorem ctx_clearPoison (s : State) (loc n : Nat) (m : Nat) : (s.clearPoison loc n).ctx m = s.ctx m := rfl
@[simp] theorem me_clearPoison (s : State) (loc n : Nat) : (s.clearPoison loc n).me = s.me := rfl
@[simp] theorem core_setCtx (s : State) (m : Nat) (c : Context) (k : Nat) : (s.setCtx m c).core k = s.core k := rfl
@[simp] theorem part_setCtx (s : State) (m : Nat) (c : Context) (k : Nat) : (s.setCtx m c).part k = s.part k := rfl
@[simp] theorem core_modCtx (s : State) (m : Nat) (f : Context → Context) (k : Nat) : (s.modCtx m f).core k = s.core k := rfl
@[simp] theorem part_modCtx (s : State) (m : Nat) (f : Context → Context) (k : Nat) : (s.modCtx m f).part k = s.part k := rfl
@[simp] theorem core_modMe (s : State) (f : Context → Context) (k : Nat) : (s.modMe f).core k = s.core k := rfl
@[simp] theorem part_modMe (s : State) (f : Context → Context) (k : Nat) : (s.modMe f).part k = s.part k := rfl
@[simp] theorem core_goto (s : State) (pc via : Word) (k : Nat) : (s.goto pc via).core k = s.core k := rfl
@[simp] theorem part_goto (s : State) (pc via : Word) (k : Nat) : (s.goto pc via).part k = s.part k := rfl
@[simp] theorem core_putBytes (s : State) (loc : Nat) (bs : List Byte) (k : Nat) : (s.putBytes loc bs).core k = s.core k := rfl
@[simp] theorem part_putBytes (s : State) (loc : Nat) (bs : List Byte) (k : Nat) : (s.putBytes loc bs).part k = s.part k := rfl
@[simp] theorem core_clearPoison (s : State) (loc n : Nat) (k : Nat) : (s.clearPoison loc n).core k = s.core k := rfl
@[simp] theorem part_clearPoison (s : State) (loc n : Nat) (k : Nat) : (s.clearPoison loc n).part k = s.part k := rfl
@[simp] theorem core_modPart (s : State) (p : Nat) (f : Partition → Partition) (k : Nat) : (s.modPart p f).core k = s.core k := rfl
@[simp] theorem core_setCore (s : State) (c : Nat) (k : Core) : (s.setCore c k).core c = k := tget_tset _ _ _ _
theorem core_setCore_ne (s : State) {c d : Nat} (k : Core) (h : d ≠ c) : (s.setCore c k).core d = s.core d :=
  tget_tset_ne _ _ _ h
@[simp] theorem core_modCore (s : State) (c : Nat) (f : Core → Core) : (s.modCore c f).core c = f (s.core c) :=
  core_setCore _ _ _
theorem core_modCore_ne (s : State) {c d : Nat} (f : Core → Core) (h : d ≠ c) : (s.modCore c f).core d = s.core d :=
  core_setCore_ne _ _ h
@[simp] theorem modCore_modCore (s : State) (c : Nat) (f g : Core → Core) :
    (s.modCore c f).modCore c g = s.modCore c fun k => g (f k) := by
  simp [State.modCore, State.setCore, State.core]
@[simp] theorem part_modPart (s : State) (p : Nat) (f : Partition → Partition) : (s.modPart p f).part p = f (s.part p) :=
  tget_tset _ _ _ _
theorem part_modPart_ne (s : State) {p q : Nat} (f : Partition → Partition) (h : q ≠ p) :
    (s.modPart p f).part q = s.part q := tget_tset_ne _ _ _ h
@[simp] theorem cluster_modCluster (s : State) (k : Nat) (f : Cluster → Cluster) :
    (s.modCluster k f).cluster k = f (s.cluster k) := tget_tset _ _ _ _
@[simp] theorem lease_modLease (s : State) (q : Nat) (f : Lease → Lease) : (s.modLease q f).lease q = f (s.lease q) :=
  tget_tset _ _ _ _

/-! ## Registers -/

theorem reg_setReg (c : Context) {n : Nat} (v : Word) (h : n < 24) : (c.setReg n v).reg n = v := by
  simp [Context.setReg, Context.reg, Vector.getD, h]
theorem reg_setReg_ne (c : Context) {n k : Nat} (v : Word) (h : k ≠ n) : (c.setReg n v).reg k = c.reg k := by
  simp only [Context.setReg, Context.reg, Vector.getD]
  by_cases hk : k < 24
  · simp [Array.getD, hk, Ne.symm h]
  · simp [Array.getD, hk]

/-! ## Memory -/

theorem memWf_putBytes {s : State} (h : memWf s.mem = true) (loc : Nat) (bs : List Byte) :
    memWf (s.putBytes loc bs).mem = true := memWf_memPutList h loc bs
theorem memGet_putBytes {s : State} (h : memWf s.mem = true) (loc : Nat) (bs : List Byte) (j : Nat) :
    memGet (s.putBytes loc bs).mem j =
      if loc ≤ j ∧ j < loc + bs.length then bs.getD (j - loc) 0 else memGet s.mem j := memGet_memPutList h loc bs j

end Sys2Proof.Laws
end

