-- ==== Sys2Proof/Laws/Ops.lean ====
section
/-! SUPPORT. How an instruction's effect runs: the steps of `M` on a state, the registers of Table 2.1, and the shared shapes of
the scalar instructions, each said once. -/

namespace Sys2Proof.Laws

open Sys2Proof.Machine

variable {α β : Type}

/-! ## Steps of an effect -/

theorem bind_ok {x : M α} {k : α → M β} {s s1 : State} {v : α} (h : x s = .ok v s1) : (x >>= k) s = k v s1 := by
  simp only [bind, EStateM.bind, h]
theorem bind_err {x : M α} {k : α → M β} {s s1 : State} {e : Stop} (h : x s = .error e s1) :
    (x >>= k) s = .error e s1 := by
  simp only [bind, EStateM.bind, h]
@[simp] theorem run_pure (v : α) (s : State) : (pure v : M α) s = .ok v s := rfl
@[simp] theorem run_get (s : State) : (get : M State) s = .ok s s := rfl
@[simp] theorem run_set (t s : State) : (set t : M Unit) s = .ok () t := rfl
@[simp] theorem run_modify (f : State → State) (s : State) : (modify f : M Unit) s = .ok () (f s) := rfl
@[simp] theorem run_throw (e : Stop) (s : State) : (throw e : M α) s = .error e s := rfl
@[simp] theorem run_get_bind (k : State → M β) (s : State) : ((get : M State) >>= k) s = k s s := rfl
@[simp] theorem run_set_bind (t : State) (k : Unit → M β) (s : State) : ((set t : M Unit) >>= k) s = k () t := rfl
@[simp] theorem run_pure_bind (v : α) (k : α → M β) (s : State) : ((pure v : M α) >>= k) s = k v s := rfl
@[simp] theorem run_me (s : State) : me s = .ok s.me s := rfl
@[simp] theorem run_me_bind (k : Context → M β) (s : State) : (me >>= k) s = k s.me s := rfl
@[simp] theorem run_modMe (f : Context → Context) (s : State) : modMe f s = .ok () (s.modMe f) := rfl
@[simp] theorem run_raise (c t : Nat) (s : State) :
    (raise c t : M α) s = .error (.trap ⟨BitVec.ofNat 8 c, BitVec.ofNat 64 t⟩) s := rfl
@[simp] theorem run_stall (k : WaitKind) (s : State) : (stall k : M α) s = .error (.wait k) s := rfl
theorem run_raiseIf (p : Bool) (c t : Nat) (s : State) :
    raiseIf p c t s = if p then .error (.trap ⟨BitVec.ofNat 8 c, BitVec.ofNat 64 t⟩) s else .ok () s := by
  cases p <;> rfl
theorem run_stallIf (p : Bool) (k : WaitKind) (s : State) :
    stallIf p k s = if p then .error (.wait k) s else .ok () s := by
  cases p <;> rfl
theorem raiseIf_bind (p : Bool) (c n : Nat) (k : Unit → M β) (s : State) :
    (raiseIf p c n >>= k) s = if p then .error (.trap ⟨BitVec.ofNat 8 c, BitVec.ofNat 64 n⟩) s else k () s := by
  cases p <;> rfl
theorem stallIf_bind (p : Bool) (w : WaitKind) (k : Unit → M β) (s : State) :
    (stallIf p w >>= k) s = if p then .error (.wait w) s else k () s := by
  cases p <;> rfl
theorem raiseIf_ok {p : Bool} (h : p = false) (c t : Nat) (s : State) : raiseIf p c t s = .ok () s := by rw [h]; rfl
theorem stallIf_ok {p : Bool} (h : p = false) (k : WaitKind) (s : State) : stallIf p k s = .ok () s := by rw [h]; rfl

/-- A migrant names only general registers and `zr` (R33). -/
theorem fields_ok {rs : List Reg} {s : State}
    (h : s.me.migrant = true → ∀ r ∈ rs, r.toNat < 24 ∨ r.toNat = 31) : fields rs s = .ok () s := by
  have : (s.me.migrant && rs.any fun r => 24 ≤ r.toNat && r.toNat ≤ 30) = false := by
    cases hm : s.me.migrant with
    | false => rfl
    | true =>
      simp only [Bool.true_and, List.any_eq_false]
      intro r hr
      rcases h hm r hr with h1 | h1 <;> simp <;> omega
  simp only [fields, run_get_bind, this]
  rfl

theorem noMigrant_ok {s : State} (h : s.me.migrant = false) : noMigrant s = .ok () s := by
  simp only [noMigrant, run_get_bind, h]; rfl
theorem privileged_ok {s : State} (h : s.me.sup = true ∨ mbaCtx s.cur = 0) : privileged s = .ok () s := by
  have : (!s.me.sup && mbaCtx s.cur != 0) = false := by rcases h with h | h <;> simp [h]
  simp only [privileged, run_get_bind, this]; rfl

/-! ## How an instruction ends -/

theorem runInstr_ok {len : Nat} {body : M Unit} {s t : State} (h : body s = .ok () t) :
    runInstr len body s = .next (t.goto (s.nextPc len) s.me.pc) := by
  simp only [runInstr, h]
theorem runInstr_err {len : Nat} {body : M Unit} {s t : State} {e : Stop} (h : body s = .error e t) :
    runInstr len body s = .next (stopped e s t) := by
  simp only [runInstr, h]
theorem runJump_ok {body : M (Word × Word)} {s t : State} {pc via : Word} (h : body s = .ok (pc, via) t) :
    runJump body s = .next (t.goto pc via) := by
  simp only [runJump, h]
theorem runJump_err {body : M (Word × Word)} {s t : State} {e : Stop} (h : body s = .error e t) :
    runJump body s = .next (stopped e s t) := by
  simp only [runJump, h]
theorem runWhole_ok {body : M Unit} {s t : State} (h : body s = .ok () t) : runWhole body s = .next t := by
  simp only [runWhole, h]
theorem runWhole_err {body : M Unit} {s t : State} {e : Stop} (h : body s = .error e t) :
    runWhole body s = .next (stopped e s t) := by
  simp only [runWhole, h]

theorem modMe_goto (t : State) (f : Context → Context) (pc via : Word)
    (h : ∀ c, { f c with pc := pc, via := via, wait := none } = { c with pc := pc, via := via, wait := (none : Option Wait) }) :
    (t.modMe f).goto pc via = t.goto pc via := by
  show (t.modMe f).modMe _ = t.modMe _
  rw [modMe_modMe]
  exact congrArg t.modMe (funext h)

/-! ## Registers (Table 2.1) -/

theorem readReg_general {r : Reg} {s : State} (h : r.toNat < 24) (ha : s.me.awaits r.toNat = false) :
    readReg r s = .ok (s.me.reg r.toNat) s := by
  have : readReg r = (do let c ← me; stallIf (c.awaits r.toNat) .access; return c.reg r.toNat) := by
    unfold readReg
    generalize r.toNat = n at h
    split <;> first | omega | rfl
  rw [this, run_me_bind, bind_ok (stallIf_ok ha ..), run_pure]
theorem readReg_zr {r : Reg} (h : r.toNat = 31) (s : State) : readReg r s = .ok 0 s := by
  unfold readReg
  rw [h]
  rfl
theorem writeReg_general {r : Reg} {s : State} (v : Word) (h : r.toNat < 24) (ha : s.me.awaits r.toNat = false) :
    writeReg r v s = .ok () (s.modMe fun c => c.setReg r.toNat v) := by
  have : writeReg r v = (do stallIf ((← me).awaits r.toNat) .access; modMe fun c => c.setReg r.toNat v) := by
    unfold writeReg
    generalize r.toNat = n at h
    split <;> first | omega | rfl
  rw [this, run_me_bind, bind_ok (stallIf_ok ha ..), run_modMe]
theorem writeReg_zr {r : Reg} (v : Word) (h : r.toNat = 31) (s : State) : writeReg r v s = .ok () s := by
  unfold writeReg
  rw [h]
  rfl

/-! ## Flags -/

/-- Flags that an instruction adds, where it has no `nf` field: the sticky union (R43, R75). -/
theorem addFlags_run (f : BitVec 6) (s : State) :
    addFlags f s = .ok () (if s.grp.arith && s.grp.nf then s else s.modMe fun c => { c with flags := c.flags ||| f }) := by
  simp only [addFlags, run_get_bind]
  split <;> rfl

theorem addFlags_zero_goto (f : BitVec 6) (hf : f = 0) (s : State) (pc via : Word) :
    ∃ t, addFlags f s = .ok () t ∧ t.goto pc via = s.goto pc via := by
  refine ⟨_, addFlags_run f s, ?_⟩
  split
  · rfl
  · subst hf; exact modMe_goto _ _ _ _ fun c => by simp only [BitVec.ofNat_eq_ofNat, BitVec.or_zero]

/-! ## Shapes -/

theorem alu2_ok {d a b : Reg} {f : Nat → Word → Word → Word × BitVec 6} {s s1 s2 s3 : State} {x y : Word}
    (hm : s.me.migrant = true → ∀ r ∈ [d, a, b], r.toNat < 24 ∨ r.toNat = 31)
    (ha : readReg a s = .ok x s1) (hb : readReg b s1 = .ok y s2) (hd : writeReg d (f s2.grp.sk x y).1 s2 = .ok () s3) :
    alu2 d a b f s = addFlags (f s2.grp.sk x y).2 s3 := by
  unfold alu2
  rw [bind_ok (fields_ok hm), bind_ok ha, bind_ok hb, run_get_bind]
  show (writeReg d (f s2.grp.sk x y).1 >>= fun _ => addFlags (f s2.grp.sk x y).2) s2 = _
  rw [bind_ok hd]

theorem alu1_ok {d a : Reg} {f : Nat → Word → Word × BitVec 6} {s s1 s2 : State} {x : Word}
    (hm : s.me.migrant = true → ∀ r ∈ [d, a], r.toNat < 24 ∨ r.toNat = 31)
    (ha : readReg a s = .ok x s1) (hd : writeReg d (f s1.grp.sk x).1 s1 = .ok () s2) :
    alu1 d a f s = addFlags (f s1.grp.sk x).2 s2 := by
  unfold alu1
  rw [bind_ok (fields_ok hm), bind_ok ha, run_get_bind]
  show (writeReg d (f s1.grp.sk x).1 >>= fun _ => addFlags (f s1.grp.sk x).2) s1 = _
  rw [bind_ok hd]

/-- The immediate of a group: 13 bits sign-extended, or 40 bits with an extension (R99, R129). -/
def immOf (g : Grp) (imm : BitVec 13) : Word := match g.ext with | some e => (e ++ imm).signExtend 64 | none => imm.signExtend 64

theorem immediate_run (imm : BitVec 13) (s : State) : immediate imm s = .ok (immOf s.grp imm) s := by
  simp only [immediate, run_get_bind, immOf]
  split <;> simp_all

theorem aluI_ok {d a : Reg} {imm : BitVec 13} {f : Nat → Word → Word → Word × BitVec 6} {s s1 s2 : State} {x : Word}
    (hm : s.me.migrant = true → ∀ r ∈ [d, a], r.toNat < 24 ∨ r.toNat = 31)
    (ha : readReg a s = .ok x s1) (hd : writeReg d (f s1.grp.sk x (immOf s1.grp imm)).1 s1 = .ok () s2) :
    aluI d a imm f s = addFlags (f s1.grp.sk x (immOf s1.grp imm)).2 s2 := by
  unfold aluI
  rw [bind_ok (fields_ok hm), bind_ok ha, run_get_bind, bind_ok (immediate_run imm s1)]
  show (writeReg d (f s1.grp.sk x (immOf s1.grp imm)).1 >>= fun _ => addFlags (f s1.grp.sk x (immOf s1.grp imm)).2) s1 = _
  rw [bind_ok hd]

theorem aluShI_ok {d a : Reg} {imm : BitVec 13} {f : Nat → Word → Word → Word × BitVec 6} {s s1 s2 : State} {x : Word}
    (hm : s.me.migrant = true → ∀ r ∈ [d, a], r.toNat < 24 ∨ r.toNat = 31) (hi : imm.toNat < 64)
    (ha : readReg a s = .ok x s1) (hd : writeReg d (f s1.grp.sk x (imm.setWidth 64)).1 s1 = .ok () s2) :
    aluShI d a imm f s = addFlags (f s1.grp.sk x (imm.setWidth 64)).2 s2 := by
  unfold aluShI
  rw [bind_ok (fields_ok hm), run_get_bind, bind_ok (raiseIf_ok (by simpa using hi) ..), bind_ok ha, run_get_bind]
  show (writeReg d (f s1.grp.sk x (imm.setWidth 64)).1 >>= fun _ => addFlags (f s1.grp.sk x (imm.setWidth 64)).2) s1 = _
  rw [bind_ok hd]

theorem divide_ok {d a b : Reg} {val : Nat → Word → Int} {f : Int → Int → Int} {zero : Word → Word}
    {img : Nat → Int → Word × BitVec 6} {s s1 s2 s3 : State} {x y : Word}
    (hm : s.me.migrant = true → ∀ r ∈ [d, a, b], r.toNat < 24 ∨ r.toNat = 31)
    (ha : readReg a s = .ok x s1) (hb : readReg b s1 = .ok y s2) (hz : val s2.grp.sk y ≠ 0)
    (hd : writeReg d (img s2.grp.sk (f (val s2.grp.sk x) (val s2.grp.sk y))).1 s2 = .ok () s3) :
    divide d a b val f zero img s = addFlags (img s2.grp.sk (f (val s2.grp.sk x) (val s2.grp.sk y))).2 s3 := by
  unfold divide
  rw [bind_ok (fields_ok hm), bind_ok ha, bind_ok hb, run_get_bind]
  simp only [hz, if_false]
  exact bind_ok hd

theorem divide_zero {d a b : Reg} {val : Nat → Word → Int} {f : Int → Int → Int} {zero : Word → Word}
    {img : Nat → Int → Word × BitVec 6} {s s1 s2 s3 : State} {x y : Word}
    (hm : s.me.migrant = true → ∀ r ∈ [d, a, b], r.toNat < 24 ∨ r.toNat = 31)
    (ha : readReg a s = .ok x s1) (hb : readReg b s1 = .ok y s2) (hz : val s2.grp.sk y = 0)
    (hi : nbit s2.me.mode.toNat 8 = false) (hd : writeReg d (zero x) s2 = .ok () s3) :
    divide d a b val f zero img s = addFlags fDZ s3 := by
  unfold divide
  rw [bind_ok (fields_ok hm), bind_ok ha, bind_ok hb, run_get_bind]
  simp only [hz, if_true]
  rw [run_me_bind, bind_ok (raiseIf_ok hi ..), bind_ok hd]

theorem divide_trap {d a b : Reg} {val : Nat → Word → Int} {f : Int → Int → Int} {zero : Word → Word}
    {img : Nat → Int → Word × BitVec 6} {s s1 s2 : State} {x y : Word}
    (hm : s.me.migrant = true → ∀ r ∈ [d, a, b], r.toNat < 24 ∨ r.toNat = 31)
    (ha : readReg a s = .ok x s1) (hb : readReg b s1 = .ok y s2) (hz : val s2.grp.sk y = 0)
    (hi : nbit s2.me.mode.toNat 8 = true) :
    divide d a b val f zero img s = .error (.trap ⟨0x0C, 0⟩) s2 := by
  unfold divide
  rw [bind_ok (fields_ok hm), bind_ok ha, bind_ok hb, run_get_bind]
  simp only [hz, if_true]
  rw [run_me_bind, bind_err (by rw [run_raiseIf, hi]; rfl)]
  rfl

end Sys2Proof.Laws
end

