-- ==== Sys2Proof/Laws/Keep.lean ====
section
/-! SUPPORT. What reads and writes of register fields, and the word traffic they cause, leave alone. -/

namespace Sys2Proof.Laws

open Sys2Proof.Machine

/-- The parts of the device that register traffic never touches: who issues, its group, time, memory with its poison and
full-empty bits, and the partitions. -/
structure Keeps (s t : State) : Prop where
  cur : t.cur = s.cur
  grp : t.grp = s.grp
  mem : t.mem = s.mem
  poison : t.poison = s.poison
  empties : t.empties = s.empties
  parts : t.parts = s.parts
  boot : t.boot = s.boot
  tick : t.tick = s.tick
  clk : t.clk = s.clk
  feq : t.feq = s.feq

theorem Keeps.refl (s : State) : Keeps s s := ⟨rfl, rfl, rfl, rfl, rfl, rfl, rfl, rfl, rfl, rfl⟩
theorem Keeps.trans {s t u : State} (h : Keeps s t) (k : Keeps t u) : Keeps s u :=
  ⟨k.cur.trans h.cur, k.grp.trans h.grp, k.mem.trans h.mem, k.poison.trans h.poison, k.empties.trans h.empties,
    k.parts.trans h.parts, k.boot.trans h.boot, k.tick.trans h.tick, k.clk.trans h.clk, k.feq.trans h.feq⟩

theorem keeps_modCtx (s : State) (m : Nat) (f : Context → Context) : Keeps s (s.modCtx m f) :=
  ⟨rfl, rfl, rfl, rfl, rfl, rfl, rfl, rfl, rfl, rfl⟩
theorem keeps_modMe (s : State) (f : Context → Context) : Keeps s (s.modMe f) := keeps_modCtx _ _ _
theorem keeps_setCtx (s : State) (m : Nat) (c : Context) : Keeps s (s.setCtx m c) :=
  ⟨rfl, rfl, rfl, rfl, rfl, rfl, rfl, rfl, rfl, rfl⟩
theorem keeps_modCore (s : State) (m : Nat) (f : Core → Core) : Keeps s (s.modCore m f) :=
  ⟨rfl, rfl, rfl, rfl, rfl, rfl, rfl, rfl, rfl, rfl⟩
theorem keeps_putOnNet (s : State) (w : NWord) : Keeps s (putOnNet s w) :=
  ⟨rfl, rfl, rfl, rfl, rfl, rfl, rfl, rfl, rfl, rfl⟩
theorem keeps_postWith (s : State) (a : HwAgent) (c d : Nat) (v : Word) (n : Nat) (it : Option Item) : Keeps s (postWith s a c d v n it) := by
  unfold postWith
  dsimp only
  split
  · exact ⟨rfl, rfl, rfl, rfl, rfl, rfl, rfl, rfl, rfl, rfl⟩
  · exact keeps_putOnNet _ _
theorem keeps_postAs (s : State) (a : HwAgent) (c d : Nat) (v : Word) (n : Nat) : Keeps s (postAs s a c d v n) := keeps_postWith _ _ _ _ _ _ _
theorem keeps_postHw (s : State) (c d : Nat) (v : Word) : Keeps s (postHw s c d v) := keeps_postAs _ _ _ _ _ _
theorem keeps_bowMark (s : State) (m : Nat) : Keeps s (bowMark s m) := keeps_modCore _ _ _

theorem keeps_admitWord (s : State) (m : Nat) : Keeps s (admitWord s m) := by
  unfold admitWord
  dsimp only
  split
  · exact Keeps.refl s
  · split
    · exact Keeps.refl s
    · split
      · exact Keeps.refl s
      · exact ⟨rfl, rfl, rfl, rfl, rfl, rfl, rfl, rfl, rfl, rfl⟩
theorem keeps_admitWords (m n : Nat) (s : State) : Keeps s (admitWords m n s) := by
  induction n generalizing s with
  | zero => exact Keeps.refl s
  | succ n ih => exact (keeps_admitWord s m).trans (ih _)
theorem keeps_spaceNotice (s : State) (p : BitVec 4) : Keeps s (spaceNotice s p) := by
  unfold spaceNotice
  split
  · refine Keeps.trans ?_ (keeps_postAs _ _ _ _ _ _)
    exact ⟨rfl, rfl, rfl, rfl, rfl, rfl, rfl, rfl, rfl, rfl⟩
  · exact Keeps.refl s
theorem keeps_countPosted (s : State) (it : Item) : Keeps s (countPosted s it) := by
  unfold countPosted
  split
  · exact Keeps.refl s
  · split
    · exact ⟨rfl, rfl, rfl, rfl, rfl, rfl, rfl, rfl, rfl, rfl⟩
    · refine Keeps.trans ?_ (keeps_spaceNotice _ _)
      exact ⟨rfl, rfl, rfl, rfl, rfl, rfl, rfl, rfl, rfl, rfl⟩
theorem keeps_takeItem (s : State) (c : Nat) (it : Item) : Keeps s (takeItem s c it) := by
  have h := (((((keeps_postWith s (.items c) c (16 * c) (itemWord it) 1 (some it)).trans (keeps_postAs _ (.items c) c (16 * c) it.entry 2)).trans
    (keeps_postAs _ (.items c) c (16 * c) it.arg 3)).trans (keeps_postAs _ (.items c) c (16 * c) it.seed 4)).trans
    (keeps_postAs _ (.items c) c (16 * c) it.ctr 5)).trans (keeps_modCore _ c fun k => { k with claims := k.claims + 1 })
  unfold takeItem
  dsimp only
  split
  · exact h
  · exact h.trans (keeps_countPosted _ _)
theorem keeps_takeQueuedN (c n : Nat) (s : State) : Keeps s (takeQueuedN c n s) := by
  induction n generalizing s with
  | zero => exact Keeps.refl s
  | succ n ih =>
    unfold takeQueuedN
    dsimp only
    split
    · exact Keeps.refl s
    · split
      · exact ((keeps_modCore _ _ _).trans (keeps_takeItem _ _ _)).trans (ih _)
      · exact Keeps.refl s
theorem keeps_takeQueued (s : State) (c : Nat) : Keeps s (takeQueued s c) := keeps_takeQueuedN c 64 s
theorem keeps_wordPosted (s : State) (h : Held) : Keeps s (wordPosted s h) := by
  have go (t : State) (b : Bool) (c : Nat) (ht : Keeps s t) : Keeps s (if b then t else takeQueued t c) := by
    split
    · exact ht
    · exact ht.trans (keeps_takeQueued _ _)
  have hn := Keeps.refl s
  obtain ⟨b, w, it⟩ := h
  cases it with
  | none => cases b <;> first | exact hn | exact go s _ _ hn
  | some it =>
    have hc := keeps_countPosted s it
    cases b <;> first | exact hc | exact go _ _ _ hc
theorem keeps_release (x : State × List Held) (h : Held) : Keeps x.1 (release x h).1 := by
  unfold release
  split
  · exact ⟨rfl, rfl, rfl, rfl, rfl, rfl, rfl, rfl, rfl, rfl⟩
  · exact keeps_putOnNet _ _
theorem keeps_releases (l : List Held) (x : State × List Held) : Keeps x.1 (l.foldl release x).1 := by
  induction l generalizing x with
  | nil => exact Keeps.refl _
  | cons h l ih => exact (keeps_release x h).trans (ih _)
theorem keeps_wordsPosted (l : List Held) (s : State) : Keeps s (l.foldl wordPosted s) := by
  induction l generalizing s with
  | nil => exact Keeps.refl _
  | cons h l ih => exact (keeps_wordPosted s h).trans (ih _)
theorem keeps_releaseHeld (s : State) : Keeps s (releaseHeld s) := by
  unfold releaseHeld
  split
  · exact Keeps.refl s
  · refine Keeps.trans ?_ (keeps_wordsPosted _ _)
    refine Keeps.trans ?_ (keeps_releases _ _)
    exact ⟨rfl, rfl, rfl, rfl, rfl, rfl, rfl, rfl, rfl, rfl⟩

/-- An effect whose completion keeps what register traffic keeps. -/
def KeepsM {α : Type} (x : M α) : Prop := ∀ s v t, x s = .ok v t → Keeps s t

theorem keepsM_bind {α β : Type} {x : M α} {k : α → M β} (hx : KeepsM x) (hk : ∀ v, KeepsM (k v)) : KeepsM (x >>= k) := by
  intro s w t h
  cases hxs : x s with
  | ok v s1 => rw [bind_ok hxs] at h; exact (hx s v s1 hxs).trans (hk v s1 w t h)
  | error e s1 => rw [bind_err hxs] at h; cases h

theorem released_bind {β : Type} (k : Unit → M β) (s : State) :
    (released >>= k) s = if (!s.me.out.isEmpty) then .error (.wait .access) s else k () s := by
  have : released s = if (!s.me.out.isEmpty) then .error (.wait .access) s else .ok () s := by
    simp only [released, run_me_bind, run_stallIf]
  split
  · rename_i h; exact bind_err (by rw [this, if_pos h])
  · rename_i h; exact bind_ok (by rw [this, if_neg h])

theorem keepsM_popPort (d : Dir) : KeepsM (popPort d) := by
  intro s v t h
  simp only [popPort, run_get_bind, raiseIf_bind] at h
  split at h
  · cases h
  · cases hq : ((s.core (mbaCid s.cur)).portq d).next s.cur with
    | some i =>
      rw [hq] at h
      cases h
      exact keeps_modCore _ _ _
    | none => rw [hq] at h; cases h
theorem keepsM_popQin : KeepsM popQin := by
  intro s v t h
  simp only [popQin, run_me_bind] at h
  cases hq : s.me.qin with
  | nil => rw [hq] at h; cases h
  | cons e q =>
    rw [hq] at h
    cases e with
    | mute _ => cases h
    | word _ _ => cases h; exact keeps_modMe _ _
theorem keepsM_popMbx : KeepsM popMbx := by
  intro s v t h
  simp only [popMbx, run_get_bind] at h
  cases hq : s.me.mbx with
  | nil => rw [hq] at h; cases h
  | cons w q =>
    rw [hq] at h
    simp only [run_set_bind, run_pure] at h
    cases h
    have hk := ((keeps_modMe s fun c => { c with mbx := q }.setK 31 w.hw).trans (keeps_admitWord _ s.cur)).trans (keeps_releaseHeld _)
    split
    · exact (hk.trans (keeps_modCore _ _ _)).trans (keeps_takeQueued _ _)
    · exact hk

/-- Reading a register field keeps what register traffic keeps. -/
theorem keepsM_readReg (r : Reg) : KeepsM (readReg r) := by
  unfold readReg
  split
  · exact keepsM_popPort _
  · exact keepsM_popPort _
  · exact keepsM_popPort _
  · exact keepsM_popPort _
  · exact keepsM_popQin
  · intro s v t h; cases h
  · exact keepsM_popMbx
  · intro s v t h; cases h; exact Keeps.refl s
  · intro s v t h
    simp only [run_me_bind, stallIf_bind] at h
    split at h
    · cases h
    · cases h; exact Keeps.refl s

theorem keepsM_pushPort (d : Dir) (v : Word) : KeepsM (pushPort d v) := by
  intro s u t h
  simp only [pushPort, run_get_bind] at h
  cases hn : neighbour s.minimal (mbaCid s.cur) d with
  | none => rw [hn] at h; cases h
  | some n =>
    rw [hn] at h
    simp only [released_bind, stallIf_bind] at h
    split at h
    · cases h
    · split at h
      · cases h
      · cases h
        exact ⟨rfl, rfl, rfl, rfl, rfl, rfl, rfl, rfl, rfl, rfl⟩
theorem keepsM_pushQout (v : Word) : KeepsM (pushQout v) := by
  intro s u t h
  simp only [pushQout, run_get_bind, raiseIf_bind, released_bind, stallIf_bind] at h
  split at h
  · cases h
  · split at h
    · cases h
    · split at h
      · cases h
      · cases h
        exact ⟨rfl, rfl, rfl, rfl, rfl, rfl, rfl, rfl, rfl, rfl⟩
theorem keepsM_sendWord (d v : Word) : KeepsM (sendWord d v) := by
  intro s u t h
  simp only [sendWord, run_get_bind, raiseIf_bind, released_bind] at h
  split at h
  · cases h
  · split at h
    · cases h
    · split at h
      · cases h; exact keeps_postHw _ _ _ _
      · simp only [stallIf_bind] at h
        split at h
        · cases h
        · cases h
          exact ⟨rfl, rfl, rfl, rfl, rfl, rfl, rfl, rfl, rfl, rfl⟩

/-- Writing a register field keeps what register traffic keeps. -/
theorem keepsM_writeReg (r : Reg) (v : Word) : KeepsM (writeReg r v) := by
  unfold writeReg
  split
  · exact keepsM_pushPort _ _
  · exact keepsM_pushPort _ _
  · exact keepsM_pushPort _ _
  · exact keepsM_pushPort _ _
  · intro s v t h; cases h
  · exact keepsM_pushQout _
  · intro s u t h
    rw [run_me_bind] at h
    exact keepsM_sendWord _ _ s u t h
  · intro s u t h; cases h; exact Keeps.refl s
  · intro s u t h
    simp only [run_me_bind, stallIf_bind] at h
    split at h
    · cases h
    · cases h; exact keeps_modMe _ _

end Sys2Proof.Laws
end

