-- ==== Sys2Proof/Tests/Slice0.lean ====
section
/-! SUPPORT. Tests: ill-formed terms that `Instr.wf` refuses, words written out from the spec's encodings, single steps with results worked out from
the spec, and a witness for the hypotheses of each obligation. -/

namespace Sys2Proof.Tests

-- In one thread: the tests are many and small, and a thread for each would reserve a stack of its own.
set_option Elab.async false


open Sys2Proof.Machine Sys2Proof.Spec

/-! ## Ill-formed terms (R88, R90, R91) -/

/-- A T64 instruction with every field zero. -/
def t0 : T64 := ⟨0, 0, 0, 0, false, 0⟩

theorem test_wf_shift_amount : ([.shli 1 2 64 false, .shri 1 2 64 false, .sari 1 2 8191 false] : List Instr).all (fun i => !i.wf) = true ∧
    (Instr.shli 1 2 63 false).wf = true := by decide
theorem test_wf_segment_number : ([.segld 8 1, .segget 1 8 0, .segchk 1 8 2, .mig 1 8, .save 8 1 2, .load 8 1 2] : List Instr).all (fun i => !i.wf)
    = true ∧ (Instr.segld 7 1).wf = true := by decide
theorem test_wf_segget_half : (Instr.segget 1 7 2).wf = false ∧ (Instr.segget 1 7 1).wf = true := by decide
theorem test_wf_format_codes : (Instr.fcvt 1 2 13 4 false).wf = false ∧ (Instr.fcvt 1 2 4 13 false).wf = false ∧
    (Instr.fcvt 1 2 12 12 false).wf = true := by decide
theorem test_wf_full_empty_mode : ([.fold { t0 with w1 := 0x00600000 }, .zip { t0 with w1 := 0x00600000 }, .gld { t0 with w1 := 0x00600000 },
    .gst { t0 with w1 := 0x00200000 }, .put { t0 with w1 := 0x00200000 }] : List Instr).all (fun i => !i.wf) = true ∧
    (Instr.fold { t0 with w1 := 0x00400000 }).wf = true := by decide
theorem test_wf_unused_registers : ([.tcopy { t0 with b := 1 }, .mxldst { t0 with d := 1 }, .mxswap { t0 with a := 1 }, .mxdrain { t0 with a := 1 },
    .lvsetReg { t0 with b := 1 }, .erarm { t0 with d := 1 }, .rtndef { t0 with d := 1 }, .fold { t0 with f := 0x40, b := 1 }] : List Instr).all
    (fun i => !i.wf) = true := by decide
theorem test_wf_unused_function_bits : ([.fold { t0 with f := 0x80 }, .zip { t0 with f := 0x40 }, .outer { t0 with f := 0x20 }, .gld { t0 with f := 8 },
    .txp { t0 with f := 1 }, .dlg { t0 with f := 8 }, .lvsetImm { t0 with f := 1 }, .lvsetReg { t0 with f := 2 }] : List Instr).all
    (fun i => !i.wf) = true := by decide
theorem test_wf_unused_bits_of_second_word : ([.fold { t0 with w1 := 1 }, .tfill { t0 with w1 := 0x100000 }, .mxdrain { t0 with w1 := 0x8000 },
    .wld { t0 with w1 := 8 }, .rstr { t0 with w1 := 0x10000 }, .dlg { t0 with w1 := 1 }, .lnch { t0 with w1 := 2 }, .putarm { t0 with w1 := 1 },
    .cntw { t0 with w1 := 1 }] : List Instr).all (fun i => !i.wf) = true := by decide
theorem test_wf_handle_is_not_an_unused_field : ([.txp { t0 with w1 := 0x01000000 }, .gst { t0 with w1 := 0x01000000 }, .tcopy { t0 with w1 := 0x01000000 },
    .prol { t0 with w1 := 0x01000000 }] : List Instr).all (fun i => i.wf) = true := by decide
theorem test_wf_no_extension_bit : ([.txp { t0 with x := true }, .gld { t0 with x := true }, .lnch { t0 with x := true }, .erarm { t0 with x := true }]
    : List Instr).all (fun i => !i.wf) = true := by decide
theorem test_wf_events_have_no_words : ([.repeatFrameStep, .pageWalk 0 .clean, .powerCycle, .emissionSlot] : List Instr).all (fun i => !i.wf) = true := by
  decide

/-! ## Words written out from the spec's encodings (Tables 4.2 to 4.5, 5.1 to 5.4) -/

/-- Every word of a list decodes to its instruction. -/
def decodesAll (n : Nat) (l : List (Nat × Instr)) : Bool := l.all fun p => decodeTableWord n p.1 == some p.2

theorem test_decode_int_binary : decodesAll 32 [
    (0b00000000_00001_00010_00011_1_0000000_0, .add 1 2 3 true false),
    (0b00000000_00001_00010_00011_1_0000001_0, .sub 1 2 3 true false),
    (0b00000000_00001_00010_00011_1_0000010_0, .and 1 2 3 true false),
    (0b00000000_00001_00010_00011_1_0000011_0, .or 1 2 3 true false),
    (0b00000000_00001_00010_00011_1_0000100_0, .xor 1 2 3 true false),
    (0b00000000_00001_00010_00011_1_0000101_0, .andn 1 2 3 true false),
    (0b00000000_00001_00010_00011_1_0000110_0, .shl 1 2 3 true false),
    (0b00000000_00001_00010_00011_1_0000111_0, .shr 1 2 3 true false),
    (0b00000000_00001_00010_00011_1_0001000_0, .sar 1 2 3 true false),
    (0b00000000_00001_00010_00011_1_0001001_0, .rol 1 2 3 true false),
    (0b00000000_00001_00010_00011_1_0001010_0, .mul 1 2 3 true false),
    (0b00000000_00001_00010_00011_1_0001011_0, .mulh 1 2 3 true false),
    (0b00000000_00001_00010_00011_1_0001100_0, .mulhu 1 2 3 true false),
    (0b00000000_00001_00010_00011_1_0001101_0, .div 1 2 3 true false),
    (0b00000000_00001_00010_00011_1_0001110_0, .divu 1 2 3 true false),
    (0b00000000_00001_00010_00011_1_0001111_0, .rem 1 2 3 true false),
    (0b00000000_00001_00010_00011_1_0010000_0, .remu 1 2 3 true false),
    (0b00000000_00001_00010_00011_1_0010001_0, .min 1 2 3 true false),
    (0b00000000_00001_00010_00011_1_0010010_0, .max 1 2 3 true false),
    (0b00000000_00001_00010_00011_1_0010011_0, .minu 1 2 3 true false),
    (0b00000000_00001_00010_00011_1_0010100_0, .maxu 1 2 3 true false),
    (0b00000000_00001_00010_00011_1_0010101_0, .slt 1 2 3 true false),
    (0b00000000_00001_00010_00011_1_0010110_0, .sltu 1 2 3 true false)] = true := by decide

theorem test_decode_int_unary : decodesAll 32 [
    (0b00000000_00001_00010_00011_00010111_0, .clmul 1 2 3 false),
    (0b00000000_00001_00010_00011_00011000_0, .clmulh 1 2 3 false),
    (0b00000000_00001_00010_00000_1_0100000_0, .clz 1 2 true false),
    (0b00000000_00001_00010_00000_1_0100001_0, .ctz 1 2 true false),
    (0b00000000_00001_00010_00000_1_0100010_0, .popc 1 2 true false),
    (0b00000000_00001_00010_00000_1_0100011_0, .brev 1 2 true false),
    (0b00000000_00001_00010_00000_1_0100100_0, .bswap 1 2 true false),
    (0b00000000_00001_00010_00000_1_0100101_0, .sxb 1 2 true false),
    (0b00000000_00001_00010_00000_1_0100110_0, .sxh 1 2 true false),
    (0b00000000_00001_00010_0000000100111_0, .sxw 1 2 false),
    (0b00000000_00001_00010_00000_1_0101000_0, .zxb 1 2 true false),
    (0b00000000_00001_00010_00000_1_0101001_0, .zxh 1 2 true false),
    (0b00000000_00001_00010_0000000101010_0, .zxw 1 2 false),
    (0b00000000_00001_00010_00000_1_0101011_0, .abs 1 2 true false),
    (0b00000000_00001_00010_00000_1_0101100_0, .neg 1 2 true false)] = true := by decide

theorem test_decode_immediate : decodesAll 32 [
    (0b00000001_00001_00010_0000000100101_0, .addi 1 2 37 false),
    (0b00000010_00001_00010_0000000100101_0, .andi 1 2 37 false),
    (0b00000011_00001_00010_0000000100101_0, .ori 1 2 37 false),
    (0b00000100_00001_00010_0000000100101_0, .xori 1 2 37 false),
    (0b00000101_00001_00010_0000000100101_0, .shli 1 2 37 false),
    (0b00000110_00001_00010_0000000100101_0, .shri 1 2 37 false),
    (0b00000111_00001_00010_0000000100101_0, .sari 1 2 37 false),
    (0b00001000_00001_00010_0000000100101_0, .muli 1 2 37 false),
    (0b00001001_00001_00010_0000000100101_0, .slti 1 2 37 false),
    (0b00001010_00001_00010_0000000100101_0, .sltiu 1 2 37 false),
    (0b00001011_00001_1111111111111111001, .li 1 0x7fff9),
    (0b00001100_00001_1111111111111111001, .lis 1 0x7fff9)] = true := by decide

theorem test_decode_compare : decodesAll 32 [
    (0b00001101_00101_00010_00011_1_00_10_0000, .cmpEq 5 2 3 true 2),
    (0b00001101_00101_00010_00011_1_00_10_0010, .cmpNe 5 2 3 true 2),
    (0b00001101_00101_00010_00011_1_00_10_0100, .cmpLt 5 2 3 true 2),
    (0b00001101_00101_00010_00011_1_00_10_0110, .cmpGe 5 2 3 true 2),
    (0b00001101_00101_00010_00011_1_00_10_1000, .cmpLtu 5 2 3 true 2),
    (0b00001101_00101_00010_00011_1_00_10_1010, .cmpGeu 5 2 3 true 2),
    (0b00001110_00101_00010_000_0000100101_0, .cmpiEq 5 2 37),
    (0b00001110_00101_00010_001_0000100101_0, .cmpiNe 5 2 37),
    (0b00001110_00101_00010_010_0000100101_0, .cmpiLt 5 2 37),
    (0b00001110_00101_00010_011_0000100101_0, .cmpiGe 5 2 37),
    (0b00001110_00101_00010_100_0000100101_0, .cmpiLtu 5 2 37),
    (0b00001110_00101_00010_101_0000100101_0, .cmpiGeu 5 2 37)] = true := by decide

theorem test_decode_select_and_predicates : decodesAll 32 [
    (0b00001111_00001_00010_00011_00_1_10001_0, .sel 1 2 3 true 17),
    (0b00010000_00001_0000000000000000000, .kget 1),
    (0b00010000_00000_00010_00000000000010, .kset 2),
    (0b00010000_00001_00010_00011_000000100, .kand 1 2 3),
    (0b00010000_00001_00010_00011_000000110, .kor 1 2 3),
    (0b00010000_00001_00010_00011_000001000, .kxor 1 2 3),
    (0b00010000_00001_00010_00000000001010, .knot 1 2)] = true := by decide

theorem test_decode_special_registers : decodesAll 32 [
    (0b00010001_00001_0010000100_000000000, .srg 1 132),
    (0b00010001_00001_0000000010_000000010, .srs 1 2),
    (0b00010001_00001_0000000011_000000100, .srx 1 3)] = true := by decide

theorem test_decode_fp : decodesAll 32 [
    (0b00010100_00001_00010_00011_1_0000000_0, .fadd 1 2 3 true false),
    (0b00010100_00001_00010_00011_1_0000001_0, .fsub 1 2 3 true false),
    (0b00010100_00001_00010_00011_1_0000010_0, .fmul 1 2 3 true false),
    (0b00010100_00001_00010_00011_1_0000011_0, .fdiv 1 2 3 true false),
    (0b00010100_00001_00010_00000_1_0000100_0, .fsqrt 1 2 true false),
    (0b00010100_00001_00010_00011_1_0000101_0, .fmin 1 2 3 true false),
    (0b00010100_00001_00010_00011_1_0000110_0, .fmax 1 2 3 true false),
    (0b00010100_00001_00010_00000_1_0000111_0, .fabs 1 2 true false),
    (0b00010100_00001_00010_00000_1_0001000_0, .fneg 1 2 true false),
    (0b00010100_00001_00010_00011_1_0001001_0, .fsgnj 1 2 3 true false),
    (0b00010100_00001_00010_00000_1_0001010_0, .fclass 1 2 true false),
    (0b00010100_00001_00010_00000_1_0001011_0, .frcpa 1 2 true false),
    (0b00010100_00001_00010_00000_1_0001100_0, .frsqa 1 2 true false),
    (0b00010100_00001_00010_00000_1_0001101_0, .fexp2a 1 2 true false),
    (0b00010100_00001_00010_00000_1_0001110_0, .flog2a 1 2 true false)] = true := by decide

theorem test_decode_fma_fcmp_fcvt : decodesAll 32 [
    (0b00010101_00001_00010_00011_00100_1_00_0, .fma 1 2 3 4 true false),
    (0b00010101_00001_00010_00011_00100_1_01_0, .fms 1 2 3 4 true false),
    (0b00010101_00001_00010_00011_00100_1_10_0, .fnma 1 2 3 4 true false),
    (0b00010101_00001_00010_00011_00100_1_11_0, .fnms 1 2 3 4 true false),
    (0b00010110_00101_00010_00011_1_0000000_0, .fcmpEq 5 2 3 true false),
    (0b00010110_00101_00010_00011_1_0000001_0, .fcmpLt 5 2 3 true false),
    (0b00010110_00101_00010_00011_1_0000010_0, .fcmpLe 5 2 3 true false),
    (0b00010110_00101_00010_00011_1_0000011_0, .fcmpUn 5 2 3 true false),
    (0b00010110_00101_00010_00011_1_0000100_0, .fcmpEqs 5 2 3 true false),
    (0b00010111_00001_00010_00000_1001_0100_0, .fcvt 1 2 9 4 false)] = true := by decide

theorem test_decode_memory : decodesAll 32 [
    (0b00100000_00001_00010_101_0000001001_0, .ldb 1 2 5 9 false),
    (0b00100001_00001_00010_101_0000001001_0, .ldbu 1 2 5 9 false),
    (0b00100010_00001_00010_101_0000001001_0, .ldh 1 2 5 9 false),
    (0b00100011_00001_00010_101_0000001001_0, .ldhu 1 2 5 9 false),
    (0b00100100_00001_00010_101_0000001001_0, .ldw 1 2 5 9 false),
    (0b00100101_00001_00010_101_0000001001_0, .ldwu 1 2 5 9 false),
    (0b00100110_00001_00010_101_0000001001_0, .ldd 1 2 5 9 false),
    (0b00100111_00001_00010_101_0000001001_0, .stb 1 2 5 9 false),
    (0b00101000_00001_00010_101_0000001001_0, .sth 1 2 5 9 false),
    (0b00101001_00001_00010_101_0000001001_0, .stw 1 2 5 9 false),
    (0b00101010_00001_00010_101_0000001001_0, .std 1 2 5 9 false)] = true := by decide

theorem test_decode_full_empty_and_segments : decodesAll 32 [
    (0b00101011_00001_00010_101_0000001001_0, .ldfk 1 2 5 9),
    (0b00101100_00001_00010_101_0000001001_0, .ldfc 1 2 5 9),
    (0b00101101_00001_00010_101_0000001001_0, .stfe 1 2 5 9),
    (0b00101110_00001_00010_101_0000001001_0, .stfs 1 2 5 9),
    (0b00101111_00000_00010_101_00_00001001_0, .feset 2 5 9),
    (0b00101111_00000_00010_101_01_00001001_0, .feclr 2 5 9),
    (0b00101111_00001_00010_101_10_00001001_0, .feget 1 2 5 9),
    (0b00110000_00001_00010_101_0000001001_0, .lea 1 2 5 9),
    (0b00110001_00001_00010_00000000000000, .segld 1 2),
    (0b00110001_00001_00010_00001_000000010, .segget 1 2 1),
    (0b00110001_00001_00010_00011_000000100, .segchk 1 2 3)] = true := by decide

theorem test_decode_amo : decodesAll 32 [
    (0b00110100_00001_00010_00011_101_00000_0, .amoSwap 1 2 3 5 false),
    (0b00110100_00001_00010_00011_101_00001_0, .amoAdd 1 2 3 5 false),
    (0b00110100_00001_00010_00011_101_00010_0, .amoAnd 1 2 3 5 false),
    (0b00110100_00001_00010_00011_101_00011_0, .amoOr 1 2 3 5 false),
    (0b00110100_00001_00010_00011_101_00100_0, .amoXor 1 2 3 5 false),
    (0b00110100_00001_00010_00011_101_00101_0, .amoMin 1 2 3 5 false),
    (0b00110100_00001_00010_00011_101_00110_0, .amoMax 1 2 3 5 false),
    (0b00110100_00001_00010_00011_101_00111_0, .amoMinu 1 2 3 5 false),
    (0b00110100_00001_00010_00011_101_01000_0, .amoMaxu 1 2 3 5 false),
    (0b00110100_00001_00010_00011_101_01001_0, .amoFaddS 1 2 3 5 false),
    (0b00110100_00001_00010_00011_101_01010_0, .amoFaddD 1 2 3 5 false),
    (0b00110100_00001_00010_00011_101_01011_0, .amoFminS 1 2 3 5 false),
    (0b00110100_00001_00010_00011_101_01100_0, .amoFmaxS 1 2 3 5 false)] = true := by decide

theorem test_decode_cas_red_migration : decodesAll 32 [
    (0b00110101_00001_00010_00011_101_00000_0, .cas 1 2 3 5 false),
    (0b00110110_00000_00010_00011_101_00000_0, .redSwap 2 3 5 false),
    (0b00110110_00000_00010_00011_101_00001_0, .redAdd 2 3 5 false),
    (0b00110110_00000_00010_00011_101_00010_0, .redAnd 2 3 5 false),
    (0b00110110_00000_00010_00011_101_00011_0, .redOr 2 3 5 false),
    (0b00110110_00000_00010_00011_101_00100_0, .redXor 2 3 5 false),
    (0b00110110_00000_00010_00011_101_00101_0, .redMin 2 3 5 false),
    (0b00110110_00000_00010_00011_101_00110_0, .redMax 2 3 5 false),
    (0b00110110_00000_00010_00011_101_00111_0, .redMinu 2 3 5 false),
    (0b00110110_00000_00010_00011_101_01000_0, .redMaxu 2 3 5 false),
    (0b00110110_00000_00010_00011_101_01001_0, .redFaddS 2 3 5 false),
    (0b00110110_00000_00010_00011_101_01010_0, .redFaddD 2 3 5 false),
    (0b00110110_00000_00010_00011_101_01011_0, .redFminS 2 3 5 false),
    (0b00110110_00000_00010_00011_101_01100_0, .redFmaxS 2 3 5 false),
    (0b00110111_00000_00010_00011_000000000, .mig 2 3),
    (0b00110111_000000000000000000000010, .home)] = true := by decide

theorem test_decode_branches_and_jumps : decodesAll 32 [
    (0b01000000_00010_00011_11111111111001, .beq 2 3 0x3ff9),
    (0b01000001_00010_00011_11111111111001, .bne 2 3 0x3ff9),
    (0b01000010_00010_00011_11111111111001, .blt 2 3 0x3ff9),
    (0b01000011_00010_00011_11111111111001, .bge 2 3 0x3ff9),
    (0b01000100_00010_00011_11111111111001, .bltu 2 3 0x3ff9),
    (0b01000101_00010_00011_11111111111001, .bgeu 2 3 0x3ff9),
    (0b01000110_00101_1111111111111111001, .bk 5 0x7fff9),
    (0b01000111_00101_1111111111111111001, .bkn 5 0x7fff9),
    (0b01001000_111111111111111111111001, .j 0xfffff9),
    (0b01001001_111111111111111111111001, .call 0xfffff9),
    (0b01001010_00000_00010_00000000000000, .jr 2),
    (0b01001010_00001_00010_00000000000010, .jalr 1 2),
    (0b01001010_000000000000000000000100, .ret),
    (0b01001011_0110_01_10_11_00100_000000000, .rep 6 1 2 3 4)] = true := by decide

theorem test_decode_system : decodesAll 32 [
    (0b01001100_00000_1111111111111001_000, .trap 0xfff9),
    (0b01001101_000000000000000000000000, .nop),
    (0b01001101_00000_00010_00011_000000010, .eret 2 3),
    (0b01001101_000000000000000000000100, .brk),
    (0b01001101_000000000000000000000110, .ifl),
    (0b01001101_000000000000000000001000, .halt)] = true := by decide

theorem test_decode_messages_barriers_fences : decodesAll 32 [
    (0b01010000_00001_00010_00000000000000, .recvt 1 2),
    (0b01010000_00001_0000000000000000010, .mbcnt 1),
    (0b01010000_00000_00010_00011_000000100, .send 2 3),
    (0b01010001_00000_00010_000000_101_00000, .barArrive 2 5),
    (0b01010001_00000_00010_00011_0_101_00010, .barInit 2 3 5),
    (0b01010001_00000_00010_000000_101_00100, .barLeave 2 5),
    (0b01010010_0000000000000000_101_0000_0, .fenceFull 5 false),
    (0b01010010_0000000000000000_101_0001_0, .fenceAcq 5 false),
    (0b01010010_0000000000000000_101_0010_0, .fenceRel 5 false)] = true := by decide

theorem test_decode_contexts_tasks_edges : decodesAll 32 [
    (0b01010011_00001_00010_00011_000000000, .spawn 1 2 3),
    (0b01010011_00001_00010_00000000000010, .reap 1 2),
    (0b01010011_000000000000000000000100, .exit),
    (0b01010011_00001_00010_00011_000000110, .save 1 2 3),
    (0b01010011_00001_00010_00011_000001000, .load 1 2 3),
    (0b01010100_00000_00010_00000000000000, .tkdec 2),
    (0b01010100_00000_00010_00011_000000010, .tkset 2 3),
    (0b01010101_00000_00010_00000000000000, .erflip 2),
    (0b01010101_00000_00010_00000000000010, .erpass 2),
    (0b01010101_00001_00010_00011_000000100, .erori 1 2 3)] = true := by decide

theorem test_decode_the_rest : decodesAll 32 [
    (0b01010110_00001_00010_00011_000000000, .bowstart 1 2 3),
    (0b01010111_00000_00010_00000000000000, .mutesend 2),
    (0b01011000_00001_0000000000000000000, .rnd 1),
    (0b01011000_00000_00010_00000000000010, .rngseed 2),
    (0b01011001_00001_0000000000000000000, .flget 1),
    (0b01011001_00000_00010_00000000000010, .flclr 2),
    (0b01011001_00001_0000000000000000100, .fltree 1),
    (0b01011010_00001_00010_00000000000000, .engst 1 2),
    (0b01011010_00001_00010_00000000000010, .engcancel 1 2),
    (0b01011011_00001_0000000000000000000, .mxlease 1),
    (0b01011011_000000000000000000000010, .mxrel),
    (0b01011100_00000_00010_00011_000000000, .tlbinv 2 3),
    (0b01011100_00000_00010_00000000000010, .tlbinvall 2),
    (0b01011101_000000000000000000000000, .dlgret)] = true := by decide

theorem test_decode_tile_engines : decodesAll 64 [
    (0b00000010101000000000000000000000_11001000_00001_00010_00011_00000001_0, .fold ⟨1, 2, 3, 1, false, 0x2A00000⟩),
    (0b00000101100000000000000000000000_11001001_00001_00010_00011_00000000_0, .scan ⟨1, 2, 3, 0, false, 0x5800000⟩),
    (0b00010001000000000000000000000000_11001010_00001_00010_00011_00100000_0, .zip ⟨1, 2, 3, 32, false, 0x11000000⟩),
    (0b00010001010000000000000000000000_11001011_00001_00010_00011_00000000_0, .outer ⟨1, 2, 3, 0, false, 0x11400000⟩),
    (0b00000111000000000000000000000000_11001100_00001_00010_00000_00100000_0, .tcopy ⟨1, 2, 0, 32, false, 0x7000000⟩),
    (0b00000000100000000000000000000000_11001101_00001_00010_00000_00000000_0, .tfill ⟨1, 2, 0, 0, false, 0x800000⟩),
    (0b00000000100000000000000000000000_11001110_00001_00010_00000_00000000_0, .txp ⟨1, 2, 0, 0, false, 0x800000⟩),
    (0b00000000100000000000000000000000_11001111_00001_00010_00011_00000100_0, .gld ⟨1, 2, 3, 4, false, 0x800000⟩),
    (0b00000000100000000000000000000000_11010000_00001_00010_00011_00000101_0, .gst ⟨1, 2, 3, 5, false, 0x800000⟩),
    (0b00000000100000000000000000000001_11010001_00000_00010_00011_00000000_0, .mxldst ⟨0, 2, 3, 0, false, 0x800001⟩),
    (0b00000000100000000000000000000000_11010010_00000_00000_00000_00000000_0, .mxswap ⟨0, 0, 0, 0, false, 0x800000⟩),
    (0b00000000100000000000000001000101_11010011_00000_00010_00000_00000000_0, .mxstrm ⟨0, 2, 0, 0, false, 0x800045⟩),
    (0b00000000100000000000000000000111_11010100_00001_00000_00011_00000000_0, .mxdrain ⟨1, 0, 3, 0, false, 0x800007⟩)] = true := by decide

theorem test_decode_pyramid_links_tables : decodesAll 64 [
    (0b00000000100000000000000000000101_11010111_00000_00010_00000_00000000_0, .wld ⟨0, 2, 0, 0, false, 0x800005⟩),
    (0b00000101100000000001001000110100_11010101_00001_00010_00000_00100000_0, .rstr ⟨1, 2, 0, 32, false, 0x5801234⟩),
    (0b00000000100000000001001000110100_11010110_00001_00010_00000_00000000_0, .prol ⟨1, 2, 0, 0, false, 0x801234⟩),
    (0b00000111100000000001001000110100_11000100_00001_00010_00011_00000000_0, .put ⟨1, 2, 3, 0, false, 0x7801234⟩),
    (0b00000000000000000001000000000000_11000010_00000_00010_00000_00000100_0, .dlg ⟨0, 2, 0, 4, false, 0x1000⟩),
    (0b00000000000000000000010100000001_11000011_00001_00010_00000_00000011_0, .lnch ⟨1, 2, 0, 3, false, 0x501⟩),
    (0b00000000000000000000000000000000_11000101_00001_00010_00000_00000011_0, .putarm ⟨1, 2, 0, 3, false, 0x0⟩),
    (0b00000000000000000000000000000000_11000110_00001_00010_00011_00000011_0, .cntw ⟨1, 2, 3, 3, false, 0x0⟩),
    (0b00010010001101000101011001111000_11011000_00000_00000_00000_00000000_0, .lvsetImm ⟨0, 0, 0, 0, false, 0x12345678⟩),
    (0b00000000000000000000000000000000_11011000_00000_00010_00000_00000001_0, .lvsetReg ⟨0, 2, 0, 1, false, 0x0⟩),
    (0b00000000000000000000000000000000_11011001_00000_00010_00000_00000000_0, .erarm ⟨0, 2, 0, 0, false, 0x0⟩),
    (0b00000000000000000000000000000000_11011010_00000_00010_00011_00000100_0, .rtndef ⟨0, 2, 3, 4, false, 0x0⟩),
    (0b10000000000000000000000000000001_11000000_00111_1000000000000000010, .lix 7 0x4000280000001),
    (0b00000000000000000000000000000101_11000001_00000_0000000000000000000, .calll 5)] = true := by decide

/-! ## Witnesses: each obligation's hypotheses hold together somewhere. Context 1 of core (0, 1) of layer 0 stands at PC 0x100 with x1 = 5 and
x2 = 7. -/

/-- The context of the witnesses. -/
def c0 : Context :=
  { Context.fresh 129 with
    run := .running, pc := 0x100, mode := 1, x := ((Vector.replicate 24 (0 : Word)).setIfInBounds 1 5).setIfInBounds 2 7 }
/-- The state of the witnesses. -/
def w0 : State := { State.reset with cur := 129 }.setCtx 129 c0
/-- The same with the context changed. -/
def wc (f : Context → Context) : State := { State.reset with cur := 129 }.setCtx 129 (f c0)
/-- The same with general register `n` at `v`. -/
def wx (n : Nat) (v : Word) : State := wc fun c => c.setReg n v
/-- The same in a group with an arithmetic modifier. -/
def wm (sat : BitVec 2) (rnd : BitVec 3) : State := { w0 with grp := { Grp.none with arith := true, sat := sat, rnd := rnd, n := 1 } }
/-- A context that is at home names any field. -/
theorem homeFields {s : State} {rs : List Reg} (h : s.me.migrant = false) : FieldsOk s rs := fun k => by rw [h] at k; cases k

/-- Nothing outstanding is settled. -/
theorem noOut {s : State} (h : s.me.out = []) : Settled s := fun a m => by rw [h] at m; cases m

theorem test_witness_IntTwoOperandResults : ∃ f t, bin (.add 3 1 2 false false) = some (3, 1, 2, f) ∧ satField w0 = 0 ∧
    FieldsOk w0 [3, 1, 2] ∧ readReg 1 w0 = .ok 5 w0 ∧ readReg 2 w0 = .ok 7 w0 ∧ writeReg 3 (f 5 7) w0 = .ok () t ∧ t.me.reg 3 = 12 :=
  ⟨_, _, rfl, rfl, homeFields rfl, rfl, rfl, rfl, rfl⟩
theorem test_witness_IntOneOperandResults : ∃ f t, una (.clz 3 1 true false) = some (3, 1, f) ∧ satField w0 = 0 ∧ FieldsOk w0 [3, 1] ∧
    readReg 1 w0 = .ok 5 w0 ∧ writeReg 3 (f 5) w0 = .ok () t ∧ t.me.reg 3 = 29 :=
  ⟨_, _, rfl, rfl, homeFields rfl, rfl, rfl, by decide⟩
theorem test_witness_IntSaturatingResults : ∃ f t, satBinary (.add 3 1 2 true false) = some (3, 1, 2, true, f) ∧ satField (wm 1 0) = 1 ∧
    FieldsOk (wm 1 0) [3, 1, 2] ∧ readReg 1 (wm 1 0) = .ok 5 (wm 1 0) ∧ readReg 2 (wm 1 0) = .ok 7 (wm 1 0) ∧
    writeReg 3 (clamp true true (f (operand true true 5) (operand true true 7) 7)).1 (wm 1 0) = .ok () t :=
  ⟨_, _, rfl, rfl, homeFields rfl, rfl, rfl, rfl⟩
theorem test_witness_IntSaturatingResults_immediate : ∃ t, satField (wm 2 0) = 2 ∧ readReg 1 (wm 2 0) = .ok 5 (wm 2 0) ∧
    writeReg 3 (clamp false false (operand false false 5 + operand false false (immValue (wm 2 0).grp 0x1FFF))).1 (wm 2 0) = .ok () t :=
  ⟨_, rfl, rfl, rfl⟩
theorem test_witness_ImmediateResults : ∃ f t, immForm (.addi 3 1 0x1FFF false) = some (3, 1, 0x1FFF, f) ∧ satField w0 = 0 ∧
    readReg 1 w0 = .ok 5 w0 ∧ writeReg 3 (f 5 (immValue w0.grp 0x1FFF)) w0 = .ok () t ∧ t.me.reg 3 = 4 :=
  ⟨_, _, rfl, rfl, rfl, rfl, by decide⟩
theorem test_witness_ImmediateResults_shift : ∃ f t, immShift (.shli 3 1 63 false) = some (3, 1, 63, f) ∧ readReg 1 w0 = .ok 5 w0 ∧
    writeReg 3 (f 5 63) w0 = .ok () t ∧ t.me.reg 3 = 0x8000000000000000 := ⟨_, _, rfl, rfl, rfl, by decide⟩
theorem test_witness_ImmediateResults_amount : ∃ f, immShift (.sari 3 1 64 false) = some (3, 1, 64, f) ∧ 64 ≤ (64 : BitVec 13).toNat ∧
    FieldsOk w0 [3, 1] := ⟨_, rfl, by decide, homeFields rfl⟩
theorem test_witness_DivisionResults : ∃ t, FieldsOk w0 [3, 1, 2] ∧ readReg 1 w0 = .ok 5 w0 ∧ readReg 2 w0 = .ok 7 w0 ∧ satField w0 = 0 ∧
    writeReg 3 (at2 false (fun _ x y => x.sdiv y) 5 7) w0 = .ok () t := ⟨_, homeFields rfl, rfl, rfl, rfl, rfl⟩
theorem test_witness_DivisionResults_by_zero : readReg 4 w0 = .ok 0 w0 ∧ w0.me.mode.getLsbD 8 = false ∧
    (∃ t, writeReg 3 (-1) w0 = .ok () t) ∧ (wc fun c => { c with mode := 0x101 }).me.mode.getLsbD 8 = true :=
  ⟨rfl, by decide, ⟨_, rfl⟩, by decide⟩
theorem test_witness_DivisionResults_saturating : satField (wm 1 0) = 1 ∧ satField (wm 2 0) = 2 ∧
    (∃ t, writeReg 3 (clamp true true ((operand true true 0x80000000).tdiv (operand true true (-1)))).1 (wm 1 0) = .ok () t) ∧
    (clamp true true ((operand true true 0x80000000).tdiv (operand true true (-1)))) = (0x7FFFFFFF, 1) := ⟨rfl, rfl, ⟨_, rfl⟩, by decide⟩
theorem test_witness_ConstantResults : (∃ t, writeReg 3 ((0x40000 : BitVec 19).signExtend 64) w0 = .ok () t) ∧
    (∃ t, writeReg 3 ((0x4000000000000 : BitVec 51).signExtend 64) w0 = .ok () t) ∧ FieldsOk w0 [3] ∧
    (∃ t, (2 : Reg).toNat < 24 ∧ readReg 2 w0 = .ok 7 w0 ∧ writeReg 2 ((7 : Word) <<< 19 ||| (3 : BitVec 19).setWidth 64) w0 = .ok () t) ∧
    (24 ≤ (24 : Reg).toNat ∧ (30 : Reg).toNat ≤ 30) :=
  ⟨⟨_, rfl⟩, ⟨_, rfl⟩, homeFields rfl, ⟨_, by decide, rfl, rfl⟩, by decide⟩

/-- Words at the queues of the context and of its core. -/
def wq : State :=
  ((wc fun c => { c with mbx := [⟨3, true, 0x77, 0⟩], qin := [.word 3 0x55], qlink := 2 ^ 20 + 130, msgdst := 130 }).modCore 8
    fun k => { k with portN := ⟨[(1, none), (2, none)], []⟩ }).setCtx 130 { Context.fresh 130 with run := .running, qlink := 0 }
/-- A plain access of the scratchpad that reports PC 0xF0. -/
def acc (k : AccKind) (n : Nat) (rlx : Bool) : Acc :=
  ⟨k, [(Config.spadLoc 8 0x1010, n, .plain)], [(Config.spadLoc 8 0x1010, n, .plain)], n, rlx, 0x123, 0xF0, 0, 0, 0⟩
theorem test_witness_RegisterReads_general : (23 : Reg).toNat < 24 ∧ w0.me.awaits 23 = false ∧
    (wc fun c => { c with out := [acc (.load false 4) 8 true] }).me.awaits 4 = true := by decide
theorem test_witness_RegisterReads_ports : portDir 27 = some .west ∧ neighbour false 8 .west = none ∧ neighbour false 8 .south ≠ none ∧
    portDir 26 = some .south := by decide
theorem test_witness_RegisterReads_port_word :
    ((w0.modCore 8 fun k => { k with portS := ⟨[(4, none)], []⟩ }).core 8).portq .south = ⟨[(4, none)], []⟩ ∧ (w0.core 8).portq .south = ⟨[], []⟩ := by decide
theorem test_witness_RegisterReads_queues : wq.me.qin = [.word 3 0x55] ∧ wq.me.mbx = [⟨3, true, 0x77, 0⟩] ∧ w0.me.qin = [] ∧ w0.me.mbx = [] ∧
    readReg 28 wq = .ok 0x55 (wq.modMe fun c => { c with qin := [] }) ∧ markK31 0 true = 0x80000000 := ⟨rfl, rfl, rfl, rfl, rfl, by decide⟩
/-- `n` words stand in the port of the core south of the witnesses'. -/
def wport (n : Nat) : State := w0.modCore 0 fun k => k.setPortq .north ⟨List.replicate n (0, none), []⟩
theorem test_witness_RegisterWrites_port : ∃ n, neighbour w0.minimal 8 .south = some n ∧ w0.me.out = [] ∧
    ((wport 7).core n).portq (opposite .south) = ⟨List.replicate 7 (0, none), []⟩ ∧ ((wport 8).core n).portq (opposite .south) = ⟨List.replicate 8 (0, none), []⟩
    := ⟨_, rfl, rfl, rfl, rfl⟩
theorem test_witness_RegisterWrites_outstanding : (wc fun c => { c with out := [acc (.store 5) 8 false] }).me.out ≠ [] := by decide
/-- `n` words of the link from context 129 to context 130 are on their way. -/
def wlink (n : Nat) : State := { wq with qnet := List.replicate n ⟨129, 130, .word 129 0, 0⟩ }
/-- `n` words from the core to itself hold credits; or its cluster is under reset. -/
def wcred (n : Nat) : State := { wq with net := List.replicate n ⟨129, 130, false, 0, 0, 0, 0, false⟩ }
theorem test_witness_RegisterWrites_qout : qlinkOk w0 129 = false ∧ qlinkOk wq 129 = true ∧ wq.me.out = [] ∧
    qoutUsed (wlink 15) 129 130 = 15 ∧ qoutUsed (wlink 16) 129 130 = 16 := by decide
theorem test_witness_RegisterWrites_mailbox : mbaValid wq.minimal wq.me.msgdst.toNat = true ∧ (wq.cluster (clKey 8)).down = false ∧
    creditsUsed (wcred 63) 8 8 = 63 ∧ creditsUsed (wcred 64) 8 8 = 64 ∧
    ((wq.modCluster (clKey 8) fun k => { k with down := true }).cluster (clKey 8)).down = true ∧ mbaValid false 0xFFFFF = false := by decide
theorem test_witness_RegisterTrafficFrame : (∃ t, readReg 30 wq = .ok 0x77 t) ∧ (∃ t, writeReg 30 9 wq = .ok () t) := ⟨⟨_, rfl⟩, ⟨_, rfl⟩⟩

theorem test_witness_CompareResults : ∃ f, cmpForm (.cmpLt 31 1 2 false 3) = some (31, 1, 2, 3, f) ∧ FieldsOk w0 [1, 2] ∧
    readReg 1 w0 = .ok 5 w0 ∧ readReg 2 w0 = .ok 7 w0 ∧ f 5 7 = true := ⟨_, rfl, homeFields rfl, rfl, rfl, by decide⟩
theorem test_witness_CompareResults_immediate : ∃ f, cmpiForm (.cmpiGeu 0 1 0x3FF) = some (0, 1, 0x3FF, f) ∧ readReg 1 w0 = .ok 5 w0 ∧
    f 5 ((0x3FF : BitVec 10).signExtend 64) = false := ⟨_, rfl, rfl, by decide⟩
theorem test_witness_SelectAndPredicateResults : (∃ t, writeReg 3 (if xor (w0.me.k.getLsbD 31) true then 5 else 7) w0 = .ok () t) ∧
    FieldsOk w0 [3, 1, 2] ∧ (∃ t, writeReg 31 (w0.me.k.setWidth 64) w0 = .ok () t) := ⟨⟨_, rfl⟩, homeFields rfl, ⟨_, rfl⟩⟩

theorem test_witness_SpecialRegisterReads : (0x000, w0.me.mode) ∈ readable w0 ∧ (0x045, 0) ∈ readable w0 ∧ (0x01F, 0) ∈ readable w0 ∧
    FieldsOk w0 [3] := ⟨by decide, by decide, by decide, homeFields rfl⟩
/-- The same as context 0 of the core with cluster core index 0, the supervisor of its cluster. -/
def wsup : State := ({ State.reset with cur := 0 }.setCtx 0 { c0 with flags := 0b100001 }).setCtx 129 { c0 with flags := 0b10 }
theorem test_witness_SpecialRegisterReads_cluster : ofCluster wsup ∧ FieldsOk wsup [3] ∧
    (∀ i, (0b100011 : BitVec 6).getLsbD i = true ↔
      ∃ x ∈ wsup.ctxs, clKey (mbaCid x.1) = clKey (mbaCid wsup.cur) ∧ x.2.flags.getLsbD i = true) ∧
    (∃ t, writeReg 3 ((0b100011 : BitVec 6).setWidth 64) wsup = .ok () t) :=
  ⟨by simp only [ofCluster]; decide, homeFields rfl, fun i => by
    rw [show wsup.ctxs = [(0, { c0 with flags := 0b100001 }), (129, { c0 with flags := 0b10 })] from rfl]
    by_cases h : i < 6
    · interval_cases i <;> decide
    · have e : ∀ f : BitVec 6, f.getLsbD i = false := fun f => BitVec.getLsbD_of_ge f i (Nat.le_of_not_lt h)
      simp [e], ⟨_, rfl⟩⟩
theorem test_witness_SpecialRegisterWrites : ownWritable 0x081 ∧ readReg 1 w0 = .ok 5 w0 ∧ (∃ c, written w0 0x081 5 = some c) ∧
    written w0 0x000 7 = none ∧ (0x081, 0) ∈ readable w0 ∧ (1 : Reg).toNat < 24 ∧ 24 ≤ (30 : Reg).toNat :=
  ⟨by simp [ownWritable], rfl, ⟨_, rfl⟩, rfl, by decide, by decide, by decide⟩
theorem test_witness_BankRegisterWrites : w0.me.migrant = false ∧ readReg 1 w0 = .ok 5 w0 ∧
    ¬((5 : Word).setWidth 4 = 0xD#4 ∨ (5 : Word).setWidth 4 = 0xE#4 ∨ (5 : Word).extractLsb' 4 2 = 3#2) ∧ (0x3D : Word).setWidth 4 = 0xD#4 := by
  refine ⟨rfl, rfl, ?_⟩; decide
theorem test_witness_BankRegisterWrites_srx : ∀ n : Fin 16, ∃ t u,
    writeReg 3 (((w0.core w0.here).fmt.getD n 0).setWidth 64) (w0.modCore w0.here fun k => { k with fmt := k.fmt.setIfInBounds n 5 }) = .ok () t ∧
    writeReg 3 (((w0.core w0.here).bscl.getD n 0).setWidth 64) (w0.modCore w0.here fun k => { k with bscl := k.bscl.setIfInBounds n 5 }) = .ok () u :=
  fun _ => ⟨_, _, rfl, rfl⟩
theorem test_witness_BankRegisterWrites_qcls : w0.me.sup = false ∧ mbaCtx w0.cur ≠ 0 ∧ mbaCtx wsup.cur = 0 ∧
    (∃ t, writeReg 3 (wsup.me.qcls.setWidth 64) (wsup.modMe fun c => { c with qcls := 3 }) = .ok () t) :=
  ⟨by decide, by decide, by decide, ⟨_, rfl⟩⟩
/-- The same as a migrant. -/
def wmigrant : State := wc fun c => { c with away := some ⟨9, .hosted 161, none, false, none, ⟨0, Vector.replicate 24 0, 0, 0, Vector.replicate 8 0, 0, 0, 0, 1⟩, 0, 0, 0⟩ }
theorem test_witness_SpecialRegisterAccess_there : readOnlyThere 0x045 ∧ readOnlyThere 0x060 ∧ ¬ofCluster w0 ∧ wmigrant.me.migrant = true ∧
    FieldsOk wmigrant [3] := ⟨by simp [readOnlyThere], by simp [readOnlyThere], by simp only [ofCluster]; decide, by decide,
  fun _ _ h => by rw [List.mem_singleton.mp h]; decide⟩
theorem test_witness_SpecialRegisterAccess : ¬listed 0x002 ∧ ¬listed 0x3FF ∧ readOnly 0x004 ∧ readOnly 0x070 ∧ mbaCtx w0.cur ≠ 0 ∧
    FieldsOk w0 [3] := ⟨by simp [listed], by simp [listed], by simp [readOnly], by simp [readOnly], by decide, homeFields rfl⟩

theorem test_witness_BranchResults : ∃ f, branchForm (.blt 1 2 0x2000) = some (1, 2, 0x2000, f) ∧ FieldsOk w0 [1, 2] ∧ f 5 7 = true ∧ f 7 5 = false ∧
    targetOk (ownPc (wc fun c => { c with pc := 0x8000 }) + 4 * (0x2000 : BitVec 14).signExtend 64) ∧
    ¬targetOk (ownPc w0 + 4 * (0x2000 : BitVec 14).signExtend 64) :=
  ⟨_, rfl, homeFields rfl, by decide, by decide, ⟨by decide, by decide⟩, fun h => absurd h.1 (by decide)⟩
theorem test_witness_BranchResults_predicate : w0.me.k.getLsbD 31 = false ∧ targetOk (ownPc w0 + 4 * (0x3FFFF : BitVec 19).signExtend 64) :=
  ⟨by decide, by decide, by decide⟩
theorem test_witness_JumpResults : targetOk (ownPc w0 + 4 * (0x7FFFFF : BitVec 24).signExtend 64) ∧
    ¬targetOk (ownPc w0 + 4 * (0x800000 : BitVec 24).signExtend 64) ∧ (∃ t, writeReg 23 (ownPc w0 + 4) w0 = .ok () t) ∧
    (∃ s, readReg 1 (wx 1 (2 ^ 48 - 4)) = .ok (2 ^ 48 - 4) s) ∧ targetOk (2 ^ 48 - 4) ∧ ¬targetOk (2 ^ 48) ∧ ¬targetOk 2 :=
  ⟨⟨by decide, by decide⟩, fun h => absurd h.1 (by decide), ⟨_, rfl⟩, ⟨_, rfl⟩, ⟨by decide, by decide⟩, fun h => absurd h.1 (by decide),
    fun h => absurd h.2 (by decide)⟩
theorem test_witness_SystemInstructionResults : (w0.part w0.me.part.toNat).dbg = false ∧
    ((w0.modPart 0 fun q => { q with dbg := true }).part 0).dbg = true := by decide
theorem test_witness_EretResults : FieldsOk w0 [1, 2] ∧ targetOk 4 ∧ (0xFFF : Word).extractLsb' 16 32 = 0#32 ∧
    (0x10000 : Word).extractLsb' 16 32 ≠ 0#32 := ⟨homeFields rfl, ⟨by decide, by decide⟩, by decide, by decide⟩

/-- The context stands at a `rep` of one word, `add x3, x1, x2`, at PC 0. -/
def wrep : State := w0.withFetchWord 64 0b00000000_00011_00001_00010_0_0000000_0_01001011_0000_01_00_01_00001_000000000
theorem test_witness_RepCaptures : (∃ v, readReg 1 wrep = .ok v wrep ∧ v.toNat < 2 ^ 32) ∧ wrep.me.pc = 0 ∧
    frameAt wrep 0 0 ⟨0, [0b00000000_00011_00001_00010_0_0000000_0], 1, 1, 0, 1, 5⟩ ∧ ¬codeOk (wrep.modMe fun c => { c with seg := Vector.replicate 8 0 }) 4 ∧
    contentFails 0b00000000_00011_00001_00010_0_0000000_0 = false ∧ ¬hitsCount 0b00000000_00011_00001_00010_0_0000000_0 1 1 5 := by
  refine ⟨⟨5, rfl, by decide⟩, by decide, ⟨rfl, rfl, fun j h => ?_⟩, ?_, by decide, ?_⟩
  · obtain rfl : j = 0 := Nat.le_zero.mp h
    refine ⟨?_, ?_⟩
    · simp only [codeOk]; decide +kernel
    · decide +kernel
  · simp only [codeOk]; decide
  · simp only [hitsCount]; decide
theorem test_witness_RepCaptures_content : contentFails 0x4D000000 = true ∧ contentFails 0x18000000 = true ∧ contentFails 0x80000000 = true ∧
    contentFails 0x00000001 = true ∧ contentFails 0x0B000001 = false ∧ contentFails 0x12000001 = false ∧
    hitsCount 0b00000000_00001_00001_00010_0_0000000_0 0 1 5 ∧ hitsCount 0b00000000_00011_00001_00010_0_0000000_0 1 5 3 ∧
    ¬hitsCount 0b00000000_00011_00001_00010_0_0000000_0 1 5 2 := by
  simp only [hitsCount]; decide
/-- The context has just resumed at the frame of the same `rep` with `it` iterations to go at position `fp`, and its core holds the word `w` for it. -/
def wres (it fp : Nat) : State :=
  wrep.modMe fun c => { c with mode := BitVec.ofNat 64 (it * 2 ^ 16 + fp * 2 ^ 9 + 1), frame := none, pc := BitVec.ofNat 64 (4 + 4 * fp) }
theorem test_witness_FramesRebuilt : (wres 5 0).me.iters = 5 ∧ (wres 5 0).me.frame = none ∧ repPlace (wres 5 0) = 0 ∧
    codeWord (wres 5 0) 0 0b01001011_0000_01_00_01_00001_000000000 ∧
    decode32 0 0b01001011_0000_01_00_01_00001_000000000 = .ok (.rep 0 1 0 1 1) ∧
    frameAt (wres 5 0) 0 0 ⟨0, [0b00000000_00011_00001_00010_0_0000000_0], 1, 0, 1, 1, 5⟩ ∧ (wres 5 0).me.awaits 1 = false ∧
    (wres 5 0).me.reg 1 = 5 := by
  refine ⟨by decide, by decide, by decide, ⟨?_, ?_⟩, by decide, ⟨rfl, rfl, fun j h => ?_⟩, by decide, by decide⟩
  · simp only [codeOk]; decide +kernel
  · decide +kernel
  · obtain rfl : j = 0 := Nat.le_zero.mp h
    refine ⟨?_, ?_⟩
    · simp only [codeOk]; decide +kernel
    · decide +kernel
theorem test_witness_FramesRebuilt_fails : (wres 6 0).me.iters = 6 ∧ ((wres 6 0).me.reg 1).toNat < 6 ∧ (wres 5 1).me.fpos = 1 ∧
    repPlace (wres 5 1) = 0 ∧ (∀ n sd sa sb c, decode32 0 0 ≠ .ok (.rep n sd sa sb c)) ∧
    ¬codeOk ((wres 5 0).modMe fun c => { c with seg := Vector.replicate 8 0 }) 0 :=
  ⟨by decide, by decide, by decide, by decide, (fun _ _ _ _ _ h => by
    rw [show decode32 0 0 = .ok (.add 0 0 0 false false) from rfl] at h; cases h), by simp only [codeOk]; decide⟩
/-- The context stands in a repeat frame with 2 iterations to go. -/
def wfr : State := wc fun c => { c with mode := 0x20001, frame := some ⟨0x100, [0b00000000_00011_00001_00010_0_0000000_0], 1, 0, 1, 1, 5⟩ }
theorem test_witness_RepeatFrameSteps : ∃ ins t, wfr.me.iters = 2 ∧ wfr.me.fpos = 0 ∧
    decode32 0 (stagger ⟨0x100, [0b00000000_00011_00001_00010_0_0000000_0], 1, 0, 1, 1, 5⟩ 0b00000000_00011_00001_00010_0_0000000_0 3) = .ok ins ∧
    inFrame wfr ⟨0x100, [0b00000000_00011_00001_00010_0_0000000_0], 1, 0, 1, 1, 5⟩ ∧ frameBody ins wfr = .ok () t ∧ contentFails 0b00000000_00011_00001_00010_0_0000000_0 = false ∧ staggered 23 3 1 = 2 :=
  ⟨_, _, by decide, by decide, rfl, .inl rfl, rfl, by decide, by decide⟩

/-- x1 = 1.0 and x2 = 2.0 in single precision. -/
def wf0 : State := wc fun c => { c with x := ((Vector.replicate 24 (0 : Word)).setIfInBounds 1 0x3F800000).setIfInBounds 2 0x40000000 }
theorem test_witness_FpBitResults : ∃ f, fpBitForm (.fmin 3 1 2 false false) = some (3, [1, 2], f) ∧
    readAll [1, 2] wf0 = some ([0x3F800000, 0x40000000], wf0) ∧ FieldsOk wf0 [3, 1, 2] ∧ ¬trapping wf0 (f [0x3F800000, 0x40000000]).2 :=
  ⟨_, rfl, rfl, homeFields rfl, by simp only [trapping]; decide⟩
theorem test_witness_FpBitResults_trap : ∃ f, fpBitForm (.fmin 3 1 2 false false) = some (3, [1, 2], f) ∧
    trapping (wc fun c => { c with mode := 0x81 }) (f [0x7F800001, 0x40000000]).2 := ⟨_, rfl, by simp only [trapping]; decide⟩
theorem test_witness_FpCompareResults : ∃ f, fcmpForm (.fcmpLt 3 1 2 false false) = some (3, 1, 2, f) ∧ f 0x3F800000 0x40000000 = (true, 0) ∧
    ¬trapping wf0 (f 0x3F800000 0x40000000).2 ∧ trapping (wc fun c => { c with mode := 0x81 }) (f 0x7FC00000 0).2 :=
  ⟨_, rfl, by decide, by simp only [trapping]; decide, by simp only [trapping]; decide⟩
theorem test_witness_FpArithmeticResults : ∃ f, fpForm (.fadd 3 1 2 false false) = some (3, [1, 2], 5, 5, true, f) ∧
    (f (roundingOf wf0 true).1 [0x3F800000, 0x40000000]) = (0x40400000, 0) ∧ roundMode (wm 0 6) = 6 ∧
    ¬trapping wf0 (f (roundingOf wf0 true).1 [0x3F800000, 0x40000000]).2 :=
  ⟨_, rfl, by decide, by decide, by simp only [trapping]; decide⟩
theorem test_witness_FpExactlyRounded : roundRes 5 ⟨1, false, 0, false, 0⟩ false 3 (-1) = (0x3FC00000, 0) ∧
    (fDiv 5 ⟨1, false, 0, false, 0⟩ (.fin false 1 0) (.fin false 3 0)).2 = 0b000010 ∧ fSqrt 5 ⟨1, false, 0, false, 0⟩ (.inf true) = (defaultNaN 5, 0b100000) := by
  decide
theorem test_witness_FpSpecialOperands : (FVal.nan false true 1).isNaN = true ∧ (FVal.inf false).isNaN = false ∧
    (decodeF 5 0x7FC00000).isNaN = true ∧ (decodeF 5 0x7F800001).isSNaN = true := by decide

/-- Round to nearest even, without a prefix. -/
def rne : REnv := ⟨1, false, 0, false, 0⟩
theorem test_witness_FpExactlyRounded_bits : (params 8).1 + (params 8).2.1 = 7 ∧ decodeF 8 (sgnOf 8 true + 0x7F) = .nan true true (7 * 2 ^ 49) ∧
    decodeF 8 0x7E = .fin false 14 5 ∧ decodeF 5 1 = .fin false 1 (-149) ∧ overflow 8 rne true = 0xFE ∧ overflow 5 ⟨2, false, 0, false, 0⟩ false = 0x7F7FFFFF ∧
    overflow 5 ⟨1, true, 1, false, 0⟩ false = 0x7F7FFFFF ∧ roundRes 5 rne false (2 ^ 24 + 1) 103 = (0x7F000000, 0b000010) ∧
    roundRes 5 rne false (2 ^ 25 - 1) 103 = (0x7F800000, 0b001010) := by decide
theorem test_witness_FpRootsAndFused : decodeF 5 0x40000000 = .fin false (2 ^ 23) (-22) ∧ fSqrt 5 rne (.fin false (2 ^ 23) (-22)) = (0x3FB504F3, 0b000010) ∧
    fSqrt 5 rne (decodeF 5 0x40800000) = (0x40000000, 0) ∧ quietNaN 5 true (2 ^ 50) = 0xFFE00000 ∧ quietNaN 8 false 0 = 0x7F ∧
    fFma 5 rne (decodeF 5 0x3F800001) (decodeF 5 0x3F800001) (decodeF 5 0xBF800000) = (0x34800000, 0b000010) := by decide +kernel
theorem test_witness_ConversionResults : intFmt 10 = some (true, 8) ∧ fConvert 5 10 rne 0xC3010000 = (0x80, 0b100000) ∧
    fConvert 5 10 rne 0x42FF0000 = (0x7F, 0b100000) ∧ fConvert 5 10 rne 0xC3000000 = (0x80, 0) ∧ fConvert 2 10 rne 0xFFFFFF7F = (0x7F, 0) ∧
    fConvert 2 10 ⟨1, true, 1, false, 0⟩ 0xFFFFFF7F = (0x80, 1) ∧ fConvert 5 12 rne 0x40F00000 = (7, 0b001010) ∧
    fConvert 5 12 rne 0xC0E00000 = (9, 0) ∧ fConvert 5 5 rne 0x7F800001 = (0x7FC00001, 0b100000) := by
  decide +kernel
theorem test_witness_ApproximationResults : Equals 3 1 0 3 0 ∧ fExp2a 5 rne (.fin false 3 0) = (0x41000000, 0) ∧ fLog2a 5 rne (.fin false 1 3) = (0x40400000, 0) ∧
    fRcpa 5 rne (decodeF 5 0x40000000) = (0x3F000000, 0) ∧ fRsqa 5 rne (decodeF 5 0x40800000) = (0x3F000000, 0) := by
  simp only [Equals]; decide +kernel

/-! ### Memory -/

/-- A segment descriptor (Table 2.2). -/
def desc (limit base rights space : Nat) : Desc := BitVec.ofNat 128 (limit * 2 ^ 80 + base * 2 ^ 32 + rights * 2 ^ 8 + space)
/-- x1 = 16, x2 = 7; segments 0 to 3 in the four spaces, 4 without any right; the page of segment 2 stands in the micro-TLB. -/
def wseg (f : Context → Context) : State :=
  (wc fun c => f { (c.setReg 1 16) with
    seg := #v[desc 0x1000 0x1000 0x1B 0, desc 0x1000 0x40000 0x1B 1, desc 0x10000 0x200000 0x1B 2, desc 0x1000 0x1000 0x07 3, 0, 0, 0, 0] }).modCore 8
    fun k => { k with utlb := [⟨0, 1, 0x200000, 12, 0x30002F, false, 0, 0⟩] }
/-- `n` bytes from byte 0x1010 of the core's scratchpad. -/
def wpl (n : Nat) : Place := [(Config.spadLoc 8 0x1010, n, .plain)]
/-- The plain access of 8 bytes that a load makes. -/
def rd8 : Access := ⟨8, 8, [8], [0, 1, 2, 3], 0, .read⟩

theorem test_witness_AddressChecks_rights : ¬((wseg id).me.segd 4).getLsbD 8 = true ∧ segSpace ((wseg id).me.segd 3) ∉ [0, 1, 2] ∧
    (wseg id).layer = 0 := by decide
theorem test_witness_AddressChecks_limit : ((wseg id).me.segd 0).getLsbD 8 = true ∧ segSpace ((wseg id).me.segd 0) = 0 ∧
    ¬((0xFF9 : Int) + 8 ≤ segLimit ((wseg id).me.segd 0)) ∧ ((0xFF8 : Int) + 8 ≤ segLimit ((wseg id).me.segd 0)) ∧ (0xFF8 : Int) % 8 = 0 ∧
    (0xFF4 : Int) % 8 ≠ 0 := by decide
theorem test_witness_AddressChecks_spaces : segSpace ((wseg id).me.segd 1) = 1 ∧ segSpace ((wseg id).me.segd 2) = 2 ∧
    segSpace ((wseg id).me.segd 3) = 3 ∧
    (∃ t, translate 0x200010 .read (memTinfo 2 0 false 0x200010) (wseg id) = .ok (0x300010, ⟨false, some 0⟩) t) ∧
    (∃ e t, translate 0x201000 .read (memTinfo 2 0 false 0x201000) (wseg id) = .error e t) :=
  ⟨by decide, by decide, by decide, ⟨_, rfl⟩, ⟨_, _, rfl⟩⟩
theorem test_witness_LoadStoreIssue_load : ∃ t, FieldsOk (wseg id) [3, 1] ∧ readReg 1 (wseg id) = .ok 16 (wseg id) ∧
    checkAccess 0 (16 + 1023 * 1) ⟨1, 1, [8], [0, 1, 2, 3], 0, .read⟩ false (wseg id) = .ok t (wseg id) ∧
    checkDest 3 (wseg id) = .ok () (wseg id) ∧ (∃ t, checkAccess 0 (16 + 1023 * 4) ⟨4, 4, [8], [0, 1, 2, 3], 0, .read⟩ false (wseg id)
      = .error (.trap t) (wseg id)) := ⟨_, homeFields rfl, rfl, rfl, rfl, ⟨_, rfl⟩⟩
theorem test_witness_LoadStoreIssue_here : StaysHere (wseg id) (Config.spadLoc 8 0x1010) false ∧ StaysHere (wseg id) 0x300010 false ∧
    Settled (wseg id) ∧ RelaxedRoom (wseg id) ∧ ¬RelaxedRoom (wseg fun c => { c with out := List.replicate 8 (acc (.load false 3) 8 true) }) ∧
    RelaxedRoom (wseg fun c => { c with out := List.replicate 7 (acc (.load false 3) 8 true), wait := some ⟨.relaxedFull, 0, 0, 0, 1⟩ }) ∧
    ¬RelaxedRoom (wseg fun c => { c with out := List.replicate 7 (acc (.load false 3) 8 true), wait := some ⟨.relaxedFull, 0, 0, 0, 0⟩ }) :=
  ⟨fun h => absurd h (by decide), fun _ _ => ⟨rfl, rfl⟩, by simp only [Settled]; decide,
    ⟨by decide, fun _ h => by cases h⟩, fun h => absurd h.1 (by decide),
    ⟨by decide, fun w h _ => by rw [show w = ⟨.relaxedFull, 0, 0, 0, 1⟩ from (Option.some.inj h).symm]; decide⟩,
    fun h => absurd (h.2 ⟨.relaxedFull, 0, 0, 0, 0⟩ rfl rfl) (by decide)⟩
theorem test_witness_LoadStoreIssue_store : ∃ t, readReg 2 (wseg id) = .ok 7 (wseg id) ∧
    checkAccess 0 16 ⟨8, 8, [9], [0, 1, 2, 3], 1, .write⟩ false (wseg id) = .ok t (wseg id) ∧
    (∃ t, checkAccess 4 16 ⟨8, 8, [9], [0, 1, 2, 3], 1, .write⟩ false (wseg id) = .error (.trap t) (wseg id)) := ⟨_, rfl, rfl, ⟨_, rfl⟩⟩
theorem test_witness_AtomicIssue : ∃ t, Quiet (wseg id) ∧ checkAccess 1 16 ⟨4, 4, [11], [0, 1, 2], 9, .atomic⟩ false (wseg id) = .ok t (wseg id) ∧
    checkAccess 0 16 ⟨8, 8, [11], [0, 1, 2], 10, .atomic⟩ false (wseg id) = .ok (⟨wpl 8, wpl 8, memTinfo 0 10 false 16⟩) (wseg id) ∧
    checkDest 31 (wseg id) = .ok () (wseg id) ∧ StaysHere (wseg id) (Config.spadLoc 8 0x1010) true ∧ SiblingFree (wseg id) (wpl 8) ∧
    (∃ t, checkAccess 3 16 ⟨8, 8, [11], [0, 1, 2], 9, .atomic⟩ false (wseg id) = .error (.trap t) (wseg id)) :=
  ⟨_, ⟨rfl, by decide, by decide⟩, rfl, rfl, rfl, fun h => absurd h (by decide), .inl (by decide), ⟨_, rfl⟩⟩
theorem test_witness_AtomicIssue_refused : (∃ t, checkAccess 4 16 ⟨8, 8, [11], [0, 1, 2], 10, .atomic⟩ false (wseg id) = .error (.trap t) (wseg id)) ∧
    (∃ t, checkAccess 4 16 ⟨8, 8, [11], [0, 1, 2], 11, .atomic⟩ false (wseg id) = .error (.trap t) (wseg id)) := ⟨⟨_, rfl⟩, ⟨_, rfl⟩⟩
theorem test_witness_AtomicIssue_update : ∃ t u, checkAccess 2 16 ⟨8, 8, [11], [0, 1, 2], 11, .atomic⟩ false (wseg id) = .ok t u ∧
    ((wseg id).reds.filter fun u => u.src = (wseg id).cur).length < 32 := ⟨_, _, rfl, by decide⟩

/-- A state with accesses outstanding and the low word of the scratchpad granule written. -/
def wout (l : List Acc) : State := ((wseg fun c => { c with out := l }).wr (Config.spadLoc 8 0x1010) 8 0x8877665544332211)
/-- The same with that word poisoned. -/
def wpoi (l : List Acc) : State := { wout l with poison := [(Config.spadLoc 8 0x1010) / 8] }
theorem test_witness_AccessPerformance : ∀ a ∈ [acc (.load true 3) 2 false, acc (.store 5) 8 false, acc (.amo .add 5 3) 8 false,
    acc (.amo .fminS 5 3) 4 false, acc (.cas 0x8877665544332211 1 3) 8 false, acc (.cas 0 1 31) 8 false],
    memWf (wout [a]).mem = true ∧ ((wout [a]).ctx 129).out[0]? = some a ∧ (wout [a]).props = [] ∧ ((wout [a]).ctx 129).fwd = [] ∧
    (∀ x ∈ (wout [a]).cores, x.2.armput = []) ∧ isolated (wout [a]) ((wout [a]).hereOf 129) = false ∧
    ((wout [a]).part ((wout [a]).ctx 129).part.toNat).compat = false ∧ (∀ x ∈ a.at_, sleeping (wout [a]) x.1 = none ∧ sleeping (wout [a]) (x.1 + (x.2.1 - 1)) = none) ∧
    (wout [a]).poison = [] ∧ (bytesOf a.at_).length = a.n ∧ (bytesOf a.at_).Nodup ∧
    budgetPlace (.acc 129 a.seq) ((wout [a]).hereOf 129) ((wout [a]).ctx 129).part.toNat ((wout [a]).ctx 129).qcls.toNat a.at_ (wout [a]) = .ok (wout [a])
    := by decide
theorem test_witness_AccessPerformance_order : ¬Meet (wpl 8) [(Config.spadLoc 8 0x1018, 8, .plain)] := by
  rintro ⟨x, hx, y, hy, z, h⟩
  rw [wpl, List.mem_singleton] at hx; rw [List.mem_singleton] at hy; subst hx hy
  simp only [Config.spadLoc] at h; omega
theorem test_witness_AccessPerformance_queues : portDir 24 = some .north ∧ neighbour false 8 .north = some 16 ∧
    (wseg fun c => { c with pops := [(28, 9)], qin := [.word 3 9] }).me.qin = [.word 3 9] := by decide
theorem test_witness_AccessPerformance_poison : ∀ a ∈ [acc (.load true 3) 2 false, acc (.load false 3) 8 true],
    memWf (wpoi [a]).mem = true ∧ PoisonedAt (wpoi [a]) a.at_ ∧ ((wpoi [a]).ctx 129).away = none ∧
    budgetPlace (.acc 129 a.seq) 8 0 0 a.at_ (wpoi [a]) = .ok (wpoi [a]) := by
  intro a h
  refine ⟨by revert a; decide, ?_, by revert a; decide, by revert a; decide⟩
  simp only [List.mem_cons, List.not_mem_nil, or_false] at h
  obtain rfl | rfl := h <;>
    exact ⟨_, List.mem_cons_self, _, List.mem_cons_self, Config.spadLoc 8 0x1010, by decide, by decide, by decide, by decide⟩
/-- A remote update of the same word on its way. -/
def wred (p : List Nat) : State :=
  { wout [] with reds := [⟨129, 8, [(Config.spadLoc 8 0x1018, 8, .plain)], 8, .add, 1, 0, 8⟩, ⟨129, 8, wpl 8, 8, .add, 1, 1, 8⟩], poison := p }
theorem test_witness_RemoteUpdateApplied : ∀ p ∈ [[], [(Config.spadLoc 8 0x1010) / 8]], memWf (wred p).mem = true ∧
    (wred p).reds[1]? = some ⟨129, 8, wpl 8, 8, .add, 1, 1, 8⟩ ∧
    (∀ x ∈ wpl 8, sleeping (wred p) x.1 = none ∧ sleeping (wred p) (x.1 + (x.2.1 - 1)) = none) ∧ isolated (wred p) 8 = false ∧ ((wred p).ctx 129).out = [] ∧
    (bytesOf (wpl 8)).length = 8 ∧ (bytesOf (wpl 8)).Nodup ∧ budgetPlace (.upd 129 1) 8 0 0 (wpl 8) (wred p) = .ok (wred p) := by decide
theorem test_witness_RemoteUpdateApplied_late : ((wseg fun c => { c with late := some 9 }).ctx 129).late = some 9 ∧
    ((wseg fun c => { c with late := some 9 }).ctx 129).run = .running ∧ ((wseg fun c => { c with late := some 9 }).ctx 129).away = none := by decide

/-- In Rogil mode context 2 of the core holds a store of `n` bytes to the word, and context 1 has `a` outstanding. -/
def wrogil (n : Nat) (a : Acc) : State :=
  ((wout [a]).setCtx 130 { Context.fresh 130 with run := .running, out := [{ acc (.store 0x1122334455667788) n false with seq := 5 }] }).modPart 0 fun q =>
    { q with compat := true }
theorem test_witness_StoresForward : ∀ n ∈ [4, 8], ∀ a ∈ [{ acc (.load true 3) 4 false with seq := 9 }, { acc (.amo .add 5 3) 4 false with seq := 9 }],
    let s := wrogil n a
    let b : Acc := { acc (.store 0x1122334455667788) n false with seq := 5 }
    (s.ctx 129).out[0]? = some a ∧ (∀ x ∈ s.cores, x.2.armput = []) ∧ isolated s (s.hereOf 129) = false ∧ (s.part 0).compat = true ∧
    (s.ctx 130).out = [b] ∧ s.hereOf 130 = s.hereOf 129 ∧ (s.part 0).cseq ≤ b.seq ∧ (bytesOf b.home).length = b.n ∧ (bytesOf b.home).Nodup ∧
    (∀ x ∈ bytesOf a.home, x ∈ bytesOf b.home) ∧ b.seq < a.seq ∧
    ∃ t, exec (.memoryAccessPerform 129 0 .clean) s = .next t ∧ (∀ d, a.kind = .load true d → (t.ctx 129).reg 3 = 0x55667788) := by
  intro n hn a ha
  simp only [List.mem_cons, List.not_mem_nil, or_false] at hn ha
  obtain rfl | rfl := hn <;> obtain rfl | rfl := ha <;>
    exact ⟨rfl, by decide, rfl, by decide, rfl, rfl, by decide, by decide, by decide, by decide, by decide, _, rfl, by decide⟩
theorem test_witness_StoresForward_part : ∃ x ∈ bytesOf (acc (.load true 3) 8 false).home, x ∉ bytesOf (acc (.store 0) 4 false).home :=
  ⟨Config.spadLoc 8 0x1014, by decide, by decide⟩

/-- The granule of the scratchpad word, empty where asked, with waiters. -/
def wfe (e : Bool) (q : List FeWaiter) : State :=
  { wout [] with empties := if e then [Config.spadLoc 8 0x1010 / 16] else [], feq := q }
theorem test_witness_FullEmptyInstructions_ready : ∀ e, ∀ n ∈ [8, 16], ∀ i, BankReady (wfe e []) ⟨wpl n, wpl n, i⟩ := by
  refine fun e n h i => ⟨fun a h => absurd (show a ∈ [] from h) (by simp), by cases e <;> rfl, ?_⟩
  simp only [Awake]; revert e n; decide
theorem test_witness_FullEmptyInstructions_load : ∀ e c : Bool, FieldsOk (wfe e []) [3, 1] ∧ readReg 1 (wfe e []) = .ok 16 (wfe e []) ∧ Settled (wfe e []) ∧
    checkAccess 0 16 ⟨8, 8, [8, 12], [0, 1], if c then 3 else 2, .read⟩ false (wfe e []) =
      .ok ⟨wpl 8, wpl 8, memTinfo 0 (if c then 3 else 2) false 16⟩ (wfe e []) ∧
    checkDest 3 (wfe e []) = .ok () (wfe e []) ∧ NoWaiter (wfe e []) (Config.spadLoc 8 0x1010 / 16) ∧ (wfe e []).poison = [] ∧
    (wfe true []).empties = [Config.spadLoc 8 0x1010 / 16] ∧ (∃ t, writeReg 3 1 (touchAt (wfe e []) (wpl 8)) = .ok () t) := by
  intro e c
  cases e <;> cases c <;> exact ⟨homeFields rfl, rfl, by simp only [Settled]; decide, rfl, rfl, by simp only [NoWaiter]; decide, rfl, rfl, ⟨_, rfl⟩⟩
theorem test_witness_FullEmptyInstructions_store : ∀ e, readReg 2 (wfe e []) = .ok 7 (wfe e []) ∧ Released (wfe e []) ∧
    checkAccess 0 16 ⟨8, 8, [9, 12], [0, 1], 4, .write⟩ false (wfe e []) = .ok ⟨wpl 8, wpl 8, memTinfo 0 4 false 16⟩ (wfe e []) ∧
    checkAccess 0 16 ⟨8, 8, [9, 12], [0, 1], 5, .write⟩ false (wfe e []) = .ok ⟨wpl 8, wpl 8, memTinfo 0 5 false 16⟩ (wfe e []) ∧
    checkAccess 0 (0 + 1 * 16) ⟨16, 16, [12], [0, 1], 6, .read⟩ false (wfe e []) =
      .ok ⟨wpl 16, wpl 16, memTinfo 0 6 false 16⟩ (wfe e []) := by
  intro e; cases e <;> exact ⟨rfl, rfl, rfl, rfl, rfl⟩
/-- Context 2 waits at the granule. -/
def fw (k : FeKind) : FeWaiter := ⟨Config.spadLoc 8 0x1010 / 16, k, wpl 8, 130, 0x204, 0, 0⟩
theorem test_witness_FullEmptyInstructions_hand_over : ∀ c : Bool, let w := fw (if c then .ldfc 3 else .ldfk 3)
    Released (wfe true [w]) ∧ (wfe true [w]).empties.Pairwise (· < ·) ∧
    readReg 4 (wfe true [w]) = .ok 0 (wfe true [w]) ∧ checkAccess 0 (0 + 1 * 16) ⟨16, 16, [12], [0, 1], 6, .read⟩ false (wfe true [w]) =
      .ok ⟨wpl 16, wpl 16, memTinfo 0 6 false 16⟩ (wfe true [w]) ∧
    (wfe true [w]).feq.filter (fun v => v.g = Config.spadLoc 8 0x1010 / 16) = [w] ∧ w.who ≠ (wfe true [w]).cur ∧ (wfe true [w]).poison = [] := by
  intro c; cases c <;> exact ⟨rfl, by decide, rfl, rfl, by decide, by decide, rfl⟩

theorem test_witness_FullEmptyStoreHandOver : let w := fw (.stfe 0x1234)
    Released (wfe false [w]) ∧ memWf (wfe false [w]).mem = true ∧ Config.spadLoc 8 0x1010 / 16 ∉ (wfe false [w]).empties ∧
    checkAccess 0 (0 + 1 * 16) ⟨16, 16, [12], [0, 1], 6, .read⟩ false (wfe false [w]) = .ok ⟨wpl 16, wpl 16, memTinfo 0 6 false 16⟩ (wfe false [w]) ∧
    (wfe false [w]).feq.filter (fun v => v.g = Config.spadLoc 8 0x1010 / 16) = [w] ∧ w.who ≠ (wfe false [w]).cur ∧ (bytesOf w.at_).length = 8 ∧
    (bytesOf w.at_).Nodup := ⟨rfl, by decide, by decide, rfl, by decide, by decide, by decide, by decide⟩
/-- Contexts 2, 3 and 4 of the core wait at the granule in turn. -/
def wfe3 (c : Bool) : List FeWaiter :=
  [fw (.ldfk 5), { fw (.ldfc 6) with who := 131 }, { fw (if c then .ldfc 7 else .ldfk 7) with who := 132 }]
theorem test_witness_FullEmptyOrder : ∀ c, let s := wfe true (wfe3 c)
    Released s ∧ s.empties.Pairwise (· < ·) ∧ Config.spadLoc 8 0x1010 / 16 ∈ s.empties ∧
    checkAccess 0 (0 + 1 * 16) ⟨16, 16, [12], [0, 1], 6, .read⟩ false s = .ok ⟨wpl 16, wpl 16, memTinfo 0 6 false 16⟩ s ∧
    s.feq.filter (fun v => v.g = Config.spadLoc 8 0x1010 / 16) = wfe3 c ∧ (∀ w ∈ wfe3 c, w.who ≠ s.cur) ∧ s.poison = [] := by
  intro c; cases c <;> exact ⟨rfl, by decide, by decide, rfl, by decide, by decide, rfl⟩

theorem test_witness_SegmentInstructions_lea : ∃ t, (16 : Int) + 1023 ≤ segLimit ((wseg id).me.segd 0) ∧ (-16 : Int) + 15 < 0 ∧
    segLimit ((wseg id).me.segd 4) < (16 : Int) + 0 ∧ writeReg 3 0x100F (wseg id) = .ok () t := ⟨_, by decide, by decide, by decide, rfl⟩
/-- The table of the core holds a valid descriptor at selector 15 and one with a reserved bit at selector 0. -/
def wtab : State :=
  ((wseg id).wr (Config.spadLoc 8 (Config.spadSize 0 - 16)) 16 (desc 0x40 0x80 0x1B 0).toNat).wr (Config.spadLoc 8 (Config.spadSize 0 - 256)) 1 4
theorem test_witness_SegmentInstructions_segld : readReg 1 wtab = .ok 16 wtab ∧ Settled wtab ∧ wtab.poison = [] ∧ wtab.me.out = [] ∧
    BitVec.ofNat 128 (valueAt wtab (Config.spadLoc 8 (Config.spadSize 0 - 256 + 16 * 15)) 16) = desc 0x40 0x80 0x1B 0 ∧
    (desc 0x40 0x80 0x1B 0).extractLsb' 13 19 = 0 ∧ (desc 0x40 0x80 0x1B 0).extractLsb' 2 6 = 0 ∧ (desc 0x40 0x80 0x1B 0).getLsbD 10 = false ∧
    (BitVec.ofNat 128 (valueAt wtab (Config.spadLoc 8 (Config.spadSize 0 - 256)) 16)).extractLsb' 2 6 = 1#6 :=
  ⟨rfl, by simp only [Settled]; decide, rfl, rfl, by decide +kernel, by decide, by decide, by decide, by decide +kernel⟩
theorem test_witness_SegmentInstructions_registers : (∃ t, writeReg 3 (((wseg id).me.segd 7).extractLsb' 64 64) (wseg id) = .ok () t) ∧
    FieldsOk (wseg id) [3, 1] := ⟨⟨_, rfl⟩, homeFields rfl⟩

/-! ### Traps, migrants, delegation -/

/-- What the witnesses' thread left at home. -/
def left0 : Left := leaves c0
/-- The thread of the witnesses at core 0 as a migrant of context 1 there, the page of segment 2 in that core's micro-TLB. -/
def away0 (p : AwayPhase) (carry : Option Acc) (t : Option HomeTrap) : Away := ⟨0, p, carry, false, t, left0, 0x100, 0, 0⟩
def wmig (a : Away) : State :=
  (wseg fun c => { c with away := some a }).modCore 0 fun k => { k with utlb := [⟨0, 1, 0x200000, 12, 0x30002F, false, 0, 0⟩] }
theorem test_witness_TrapsOfHomeAndMigrant : memWf w0.mem = true ∧ w0.me.away = none ∧ w0.me.out = [] ∧ CanPost w0 (toldOf w0 w0.cur 2) ∧
    (∃ a ∈ (wout [acc (.store 5) 8 false]).me.out, a.rlx = true ∨ ∃ v, a.kind = .store v) :=
  ⟨by decide, by decide, by decide, ⟨by decide, by decide⟩, ⟨_, List.mem_cons_self, .inr ⟨5, rfl⟩⟩⟩
theorem test_witness_TrapsOfHomeAndMigrant_away : (wmig (away0 (.hosted 1) none none)).me.away = some (away0 (.hosted 1) none none) ∧
    ((wmig (away0 .toHome none (some ⟨⟨2, 5⟩, 0x104, 0, 0⟩))).ctx 129).away = some (away0 .toHome none (some ⟨⟨2, 5⟩, 0x104, 0, 0⟩)) ∧
    memWf (wmig (away0 .toHome none (some ⟨⟨2, 5⟩, 0x104, 0, 0⟩))).mem = true ∧
    ((wmig (away0 (.hosted 1) none (some ⟨⟨2, 5⟩, 0x104, 0, 0⟩))).ctx 129).out = [] ∧
    129 ∉ ((wmig (away0 (.hosted 1) none (some ⟨⟨2, 5⟩, 0x104, 0, 0⟩))).core 0).arrq := by decide
theorem test_witness_ThreadsMigrate_mig : ∃ i t, readReg 1 (wseg id) = .ok 16 (wseg id) ∧ Settled (wseg id) ∧
    checkAccess 2 16 ⟨1, 1, [8], [2], 12, .read⟩ false (wseg id) = .ok ⟨[(0x300010, 1, ⟨false, some 0⟩)], [(0x300010, 1, ⟨false, some 0⟩)], i⟩ t ∧ ownerOfLoc t.minimal 0x300010 ≠ t.here ∧
    Released t ∧ t.me.away = none := ⟨_, _, rfl, by simp only [Settled]; decide, rfl, by decide +kernel, rfl, rfl⟩
theorem test_witness_ThreadsMigrate_mig_here : ∃ i t, FieldsOk (wmig (away0 (.hosted 1) none none)) [1] ∧
    checkAccess 2 16 ⟨1, 1, [8], [2], 12, .read⟩ false (wmig (away0 (.hosted 1) none none)) = .ok ⟨[(0x300010, 1, ⟨false, some 0⟩)], [(0x300010, 1, ⟨false, some 0⟩)], i⟩ t ∧
    ownerOfLoc t.minimal 0x300010 = t.here :=
  ⟨_, _, fun _ r h => by simp only [List.mem_singleton] at h; subst h; decide, rfl, by decide +kernel⟩
theorem test_witness_ThreadsMigrate_atomic : ∃ i t, Quiet (wseg id) ∧
    checkAccess 2 16 ⟨8, 8, [11], [0, 1, 2], 9, .atomic⟩ false (wseg id) = .ok ⟨[(0x300010, 8, ⟨false, some 0⟩)], [(0x300010, 8, ⟨false, some 0⟩)], i⟩ t ∧ checkDest 3 t = .ok () t ∧
    Config.isHbm 0x300010 = true ∧ ownerOfLoc t.minimal 0x300010 ≠ t.here ∧ t.me.away = none ∧
    SiblingFree t [(0x300010, 8, ⟨false, some 0⟩)] :=
  ⟨_, _, ⟨rfl, by decide, by decide⟩, rfl, rfl, by decide, by decide +kernel, rfl, .inl (by decide +kernel)⟩
theorem test_witness_ThreadsMigrate_cas : ∃ i t, readReg 3 (wseg id) = .ok 0 (wseg id) ∧
    checkAccess 2 16 ⟨8, 8, [11], [0, 1, 2], 10, .atomic⟩ false (wseg id) = .ok ⟨[(0x300010, 8, ⟨false, some 0⟩)], [(0x300010, 8, ⟨false, some 0⟩)], i⟩ t ∧
    checkDest 3 t = .ok () t ∧ Quiet t ∧ ownerOfLoc t.minimal 0x300010 ≠ t.here ∧ t.me.away = none ∧ SiblingFree t [(0x300010, 8, ⟨false, some 0⟩)] :=
  ⟨_, _, rfl, rfl, rfl, ⟨rfl, by decide, by decide⟩, by decide +kernel, rfl, .inl (by decide +kernel)⟩
/-- The thread as a migrant of core 16, with that page in that core's micro-TLB. -/
def wmov : State :=
  (wseg fun c => { c with away := some { away0 (.hosted 1) none none with host := 16 } }).modCore 16 fun k => { k with utlb := [⟨0, 1, 0x200000, 12, 0x30002F, false, 0, 0⟩] }
theorem test_witness_ThreadsMigrate_on : wmov.me.away = some { away0 (.hosted 1) none none with host := 16 } ∧ 129 ∉ (wmov.core 16).arrq ∧ Released wmov ∧
    wmov.me.migrant = true ∧ FieldsOk wmov [3, 1, 2] ∧ readReg 1 wmov = .ok 16 wmov ∧ readReg 2 wmov = .ok 7 wmov ∧
    ∀ a ∈ [(⟨1, 1, [8], [2], 12, .read⟩ : Access), ⟨8, 8, [8], [0, 1, 2, 3], 0, .read⟩, ⟨8, 8, [9], [0, 1, 2, 3], 1, .write⟩,
      ⟨8, 8, [11], [0, 1, 2], 9, .atomic⟩], ∃ p t, checkAccess 2 16 a false wmov = .ok p t ∧ p.home.loc = 0x300010 ∧ Quiet t ∧
        SiblingFree t p.home ∧ ownerOfLoc t.minimal p.home.loc = 0 ∧ t.here = 16 := by
  refine ⟨by decide, by decide, rfl, by decide, fun _ r h => ?_, rfl, rfl, fun a h => ?_⟩
  · simp only [List.mem_cons, List.not_mem_nil, or_false] at h
    obtain rfl | rfl | rfl := h <;> decide
  · simp only [List.mem_cons, List.not_mem_nil, or_false] at h
    obtain rfl | rfl | rfl | rfl := h <;>
      exact ⟨_, _, rfl, rfl, ⟨rfl, by decide +kernel, by decide +kernel⟩, .inl (by decide +kernel), by decide +kernel, by decide +kernel⟩
theorem test_witness_MigrantsAreRestricted : wmigrant.me.migrant = true ∧ (30 : Reg) ∈ namesOf (.add 3 30 2 false false) ∧ homeOnly (.send 1 2) = true ∧
    homeOnly .exit = false ∧ ∃ t, exec (.add 3 30 2 false false) wmigrant = .next t ∧ (t.me.away.map fun a => a.trap.map (·.t.cause)) = some (some 0x10) := by
  refine ⟨by decide, by decide, rfl, rfl, _, rfl, by decide⟩

theorem test_witness_ThreadsMigrate_home : w0.me.migrant = false ∧ Released (wmig (away0 (.hosted 1) none none)) ∧
    (wmig (away0 (.hosted 1) none none)).cur ∉ ((wmig (away0 (.hosted 1) none none)).core 0).arrq := ⟨rfl, rfl, by decide⟩
/-- A thread arrives at core 0 with contexts 1 to 14 occupied or not, and `n` migrants in the queue. -/
def warr (full : Bool) (n : Nat) : State :=
  let s := (wmig (away0 .toHost (some (acc (.load false 3) 8 false)) none)).modCore 0 fun k => { k with arrq := List.range' 400 n }
  if full then (List.range' 1 14).foldl (fun s i => s.modCtx i fun c => { c with run := .running }) s else s
theorem test_witness_ThreadsMigrate_arrival : ((warr false 0).ctx 129).away = some (away0 .toHost (some (acc (.load false 3) 8 false)) none) ∧
    ((warr false 0).cluster (clKey 0)).down = false ∧ ((warr false 0).core 0).down = false ∧ ((warr false 0).core 0).arrq = [] ∧ freeHost (warr false 0) 0 = some 1 ∧
    ((warr true 15).core 0).arrq.length = 15 ∧ freeHost (warr true 15) 0 = none ∧ ((warr true 16).core 0).arrq.length = 16 := by decide +kernel
theorem test_witness_ThreadsMigrate_home_arrival : ((wmig (away0 .toHome none none)).ctx 129).away = some (away0 .toHome none none) := by decide

/-- A `dlg` of word 2 at 0x40 whose address is x1 in segment 0, the server of the owner enabled or not. -/
def dlg0 : T64 := ⟨0, 1, 0, 0, false, 0x40⟩
def wdlg (v : Server) (q : List DReq) : State := { (wseg id).modCore 8 fun k => { k with dlg := v } with dreqs := q }
theorem test_witness_DelegationResults_request : ∀ b : Bool, (wdlg ⟨b, none, []⟩ []).me.migrant = false ∧
    readReg 1 (wdlg ⟨b, none, []⟩ []) = .ok 16 (wdlg ⟨b, none, []⟩ []) ∧
    checkAccess (dlg0.f.setWidth 3).toNat 16 ⟨1, 1, [11], [0, 1, 2], 13, .dlg⟩ false (wdlg ⟨b, none, []⟩ []) =
      .ok ⟨wpl 1, wpl 1, memTinfo 0 13 false 16⟩ (wdlg ⟨b, none, []⟩ []) ∧
    ownerOfLoc false (Config.spadLoc 8 0x1010) = 8 ∧ ((wdlg ⟨b, none, []⟩ []).core 8).dlg.en = b ∧ Released (wdlg ⟨b, none, []⟩ []) ∧
    creditsUsed (wdlg ⟨b, none, []⟩ (List.replicate 63 ⟨8, ⟨0, [], 130⟩, 0⟩)) 8 8 = 63 ∧
    creditsUsed (wdlg ⟨b, none, []⟩ (List.replicate 64 ⟨8, ⟨0, [], 130⟩, 0⟩)) 8 8 = 64 ∧ (wdlg ⟨b, none, []⟩ []).dreqs = [] := by
  intro b; cases b <;> exact ⟨rfl, rfl, rfl, by decide +kernel, by decide, rfl, by decide, by decide, rfl⟩
/-- A request of the witnesses' context. -/
def req0 : Req := ⟨0x40, [1, 2, 3, 4, 5, 6], 129⟩
theorem test_witness_DelegationResults_accept : (wdlg ⟨false, none, []⟩ [⟨8, req0, 0⟩]).dreqs.find? (fun r => r.owner = 8) = some ⟨8, req0, 0⟩ ∧
    ((wdlg ⟨false, none, []⟩ [⟨8, req0, 0⟩]).core 8).dlg.en = false ∧ ((wdlg ⟨false, none, []⟩ [⟨8, req0, 0⟩]).ctx 129).away = none ∧
    ((wdlg ⟨true, none, List.replicate 31 req0⟩ [⟨8, req0, 0⟩]).core 8).dlg.queue.length = 31 ∧
    ((wdlg ⟨true, none, List.replicate 32 req0⟩ [⟨8, req0, 0⟩]).core 8).dlg.queue.length = 32 ∧
    ((wdlg ⟨true, none, List.replicate 32 req0⟩ [⟨8, req0, 0⟩]).core 8).dlg.en = true := by decide +kernel
theorem test_witness_DelegationResults_order : NoEarlier (wdlg ⟨true, none, []⟩ [⟨8, req0, 0⟩]) 129 8 0 :=
  ⟨by decide, by decide, by decide, by decide⟩
/-- The server of core 8 in context 15, whose slot it is. -/
def wsrv (v : Server) : State :=
  { ((wdlg v []).setCtx 143 { Context.fresh 143 with run := .running, wait := some ⟨.serverIdle, 0, 0, 0, 0⟩ }) with cur := 143 }
theorem test_witness_DelegationResults_server : ((wsrv ⟨true, none, [req0]⟩).core 8).dlg = ⟨true, none, [req0]⟩ ∧
    ((wsrv ⟨true, none, [req0]⟩).ctx 143).run = .running ∧
    ((wsrv ⟨true, none, [req0]⟩).ctx 143).wait.map (·.kind) = some .serverIdle := by decide +kernel
theorem test_witness_DelegationResults_return : (wsrv ⟨true, none, []⟩).me.migrant = false ∧ (wsrv ⟨true, none, []⟩).cur % 16 = 15 ∧
    ((wsrv ⟨true, none, []⟩).core 8).dlg.cur = none ∧ ((wsrv ⟨true, some 129, []⟩).core 8).dlg.cur = some 129 ∧
    ((wsrv ⟨true, some 129, []⟩).core 8).dlg.en = true ∧ ¬(w0.cur % 16 = 15 ∧ (w0.core (w0.cur / 16)).dlg.en = true) := by decide
theorem test_witness_DelegationResults_released : Released (wsrv ⟨true, some 129, []⟩) ∧ hwWaiting (wsrv ⟨true, some 129, []⟩) 129 < 63 ∧
    (wsrv ⟨true, some 129, []⟩).held = [] := ⟨rfl, by decide, rfl⟩
/-- A supervisor of the core with x1 at a value. -/
def wctl (v : Word) (d : Server) : State := (wc fun c => { (c.setReg 1 v) with sup := true }).modCore 8 fun k => { k with dlg := d }
theorem test_witness_DelegationResults_control : readReg 1 (wctl 1 ⟨false, none, []⟩) = .ok 1 (wctl 1 ⟨false, none, []⟩) ∧
    (wctl 1 ⟨false, none, []⟩).me.sup = true ∧ cidLayer (w0.cur / 16) = 0 ∧ w0.cur % 16 ≠ 15 ∧ (wctl 1 ⟨false, none, []⟩).me.migrant = false ∧
    ((wctl 1 ⟨false, none, []⟩).ctx 143).run = .unspawned ∧ (∀ x ∈ (wctl 1 ⟨false, none, []⟩).ctxs, x.2.hosted ≠ some (8, 15)) ∧
    readReg 1 (wctl 0 ⟨true, some 1, [req0]⟩) = .ok 0 (wctl 0 ⟨true, some 1, [req0]⟩) ∧ (0 : Word).getLsbD 0 = false ∧
    readReg 1 (wctl 0 ⟨true, none, []⟩) = .ok 0 (wctl 0 ⟨true, none, []⟩) :=
  ⟨rfl, rfl, by decide, by decide, rfl, rfl, by decide, rfl, by decide, rfl⟩

/-! ### Messages, barriers, fences, contexts -/

theorem test_witness_MailboxInstructions_word : ∃ s2 t, wq.me.mbx ≠ [] ∧ wq.me.migrant = false ∧ readReg 1 wq = .ok 5 wq ∧
    readReg 30 wq = .ok 0x77 s2 ∧ writeReg 3 0x77 (putK (s2.modMe fun c => { c with rcv := none }) 30 false) = .ok () t :=
  ⟨_, _, by decide, rfl, rfl, rfl, rfl⟩
theorem test_witness_MailboxInstructions_limit : ∃ t, readReg 4 w0 = .ok 0 w0 ∧ w0.me.mbx = [] ∧ w0.me.rcv = none ∧ w0.cycles w0.layer = 0 ∧
    writeReg 3 0 (putK (w0.modMe fun c => { c with rcv := none }) 30 true) = .ok () t ∧ readReg 1 w0 = .ok 5 w0 ∧
    checkDest 3 w0 = .ok () w0 ∧ (∃ u, writeReg 3 0 w0 = .ok () u) := ⟨_, rfl, rfl, rfl, by decide, rfl, rfl, rfl, ⟨_, rfl⟩⟩
/-- A `recvt` waits in its mailbox read until a cycle, for a register. -/
def wrcv (stop : Nat) (d : Reg) (e : Bool) : State :=
  { wlink 16 with cur := 129 }.modCtx 129 fun c => { c with rcv := some ⟨stop, d, e⟩, mbx := [], wait := some ⟨.emptyRead, 0, 0, 0, 0⟩ }
theorem test_witness_MailboxInstructions_timeout : ((wrcv 0 3 false).ctx 129).rcv = some ⟨0, 3, false⟩ ∧
    ((wrcv 0 3 false).ctx 129).run = .running ∧ ((wrcv 0 3 false).ctx 129).mbx = [] ∧ cyclesAt (wrcv 0 3 false) 8 = 0 ∧
    ((wrcv 0 3 false).ctx 129).wait.map (·.kind) = some .emptyRead ∧ qlinkOk (wrcv 0 29 false) 129 = true ∧
    16 ≤ qoutUsed (wrcv 0 29 false) 129 (((wrcv 0 29 false).ctx 129).qlink.setWidth 20).toNat ∧ (takePops (wrcv 0 3 true) 129).me.rcv = some ⟨0, 3, true⟩ := by
  decide
theorem test_witness_MailboxInstructions_expired : ∃ t, writeReg 3 0 (putK ((takePops (wrcv 0 3 true) 129).modMe fun c => { c with rcv := none }) 30 true)
    = .ok () t := ⟨_, rfl⟩
/-- `n` words of the core hold credits of its own core. -/
def wnet (n : Nat) : State := { wc (fun c => c.setReg 1 130) with net := List.replicate n ⟨129, 130, false, 7, 0, 0, 0, false⟩ }
theorem test_witness_MailboxInstructions_send : mbaValid false 130 = true ∧ mbaValid false 142 = true ∧ mbaValid false 0xFFFFF = false ∧
    readReg 1 (wnet 63) = .ok 130 (wnet 63) ∧ readReg 2 (wnet 63) = .ok 7 (wnet 63) ∧ Released (wnet 63) ∧
    Up (wnet 63) 8 ∧ creditsUsed (wnet 63) 8 8 = 63 ∧ creditsUsed (wnet 64) 8 8 = 64 :=
  ⟨by decide, by decide, by decide, rfl, rfl, rfl, ⟨rfl, rfl⟩, by decide +kernel, by decide +kernel⟩

/-- The word on the network and `n` words in its mailbox. -/
def wmb (n : Nat) : State := (wnet 1).modCtx 130 fun c => { c with mbx := List.replicate n ⟨1, false, 2, 0⟩ }
theorem test_witness_WordsArrive : (wmb 15).net.find? (fun w => w.src = 129 && w.dst = 130) = some ⟨129, 130, false, 7, 0, 0, 0, false⟩ ∧ NoEarlier (wmb 15) 129 8 0 ∧
    (wmb 15).held = [] ∧ ((wmb 15).modCluster (clKey 8) fun k => { k with down := true }).cluster (clKey (mbaCid 130)) ≠ (wmb 15).cluster (clKey 8) ∧
    Up (wmb 15) (mbaCid 130) ∧ ((wmb 15).ctx 130).mbx.length = 15 ∧ (wmb 15).ingress = [] ∧
    ((wmb 15).ctx 130).rot < 2 ^ 20 ∧ ((wmb 16).ctx 130).mbx.length = 16 := by
  simp only [NoEarlier, Up]; decide +kernel
theorem test_witness_WordsArrive_order : ¬NoEarlier { wmb 15 with net := [⟨129, 131, false, 1, 0, 0, 4, false⟩] } 129 8 5 ∧ CanPost (wmb 15) 129 ∧
    ¬CanPost { wmb 15 with net := List.replicate 64 ⟨129, 130, true, 1, 0, 0, 0, false⟩ } 130 :=
  ⟨fun h => absurd (h.1 _ List.mem_cons_self rfl (by decide)) (by decide), ⟨by decide, by decide⟩, fun h => absurd h.1 (by decide +kernel)⟩
theorem test_witness_WordsArrive_port : ({ w0 with pnet := [⟨9, .north, 129, 5, 0⟩] } : State).pnet.find? (fun w => w.cid = 9 && w.dir = .north) =
      some ⟨9, .north, 129, 5, 0⟩ ∧ (w0.cluster (clKey 9)).down = false ∧
    ({ w0 with qnet := [⟨129, 130, .word 129 5, 0⟩] } : State).qnet.find? (fun w => w.src = 129 && w.dst = 130) =
      some ⟨129, 130, .word 129 5, 0⟩ := by decide

/-- A barrier 5 of core scope with members and arrivals; x1 = 5, x2 = 7. -/
def wbar (m r : List Nat) : State := w0.setBar (barKey 129 1 5) ⟨7, m, r, 0⟩
theorem test_witness_BarrierResults : readReg 1 (wbar [129, 130] [130]) = .ok 5 (wbar [129, 130] [130]) ∧ (w0.cur : Nat) < 2 ^ 20 ∧
    readReg 2 (wbar [130] []) = .ok 7 (wbar [130] []) ∧ ((wbar [130] []).bar (barKey 129 1 5)).phase = (7 : Word).setWidth 32 ∧
    Released (wbar [129] []) ∧ (63 : Word).toNat ≤ 63 ∧ 63 < (64 : Word).toNat :=
  ⟨rfl, by decide, rfl, by decide, rfl, by decide, by decide⟩
theorem test_witness_BarrierResults_members : (wbar [129, 130] []).bar (barKey 129 1 5) = ⟨7, [129, 130], [], 0⟩ ∧ scopeNorm 1 129 ≠ 7 ∧ scopeNorm 7 129 = 7 ∧ (wbar [129] []).held = [] ∧
    [129].Nodup ∧ (∀ m ∈ [129], (w0.net.filter fun w => w.hw && w.dst = m).length + (w0.ingress.filter fun w => w.hw && w.dst = m).length < 64) ∧
    (∀ m ∈ [129, 130], m ∈ nins [130] 129) ∧ (∃ m ∈ [129, 130], m ∉ nins [] 129) ∧ (129 ∉ [130] ∧ 129 ∈ [129, 130]) ∧
    (6 : W32) ≠ (7 : Word).setWidth 32 ∧ ([129, 130].erase 129 = [130]) := by decide
theorem test_witness_FencesGeneratorFlags : w0.me.out = [] ∧ w0.reds = [] ∧ w0.props = [] ∧ FieldsOk w0 [3] ∧
    (wout [acc (.store 5) 8 false]).me.out = [acc (.store 5) 8 false] ∧ (wout [acc (.load false 3) 8 true]).me.out = [acc (.load false 3) 8 true] ∧
    coreInScope 1 129 8 = true ∧ coreInScope 1 129 9 = false :=
  ⟨rfl, rfl, rfl, homeFields rfl, rfl, rfl, by decide, by decide⟩
theorem test_witness_FencesGeneratorFlags_results : (∃ t, writeReg 3 (xorshift w0.me.rngst * 0x2545F4914F6CDD1D) w0 = .ok () t) ∧
    (∃ t, writeReg 3 (w0.me.flags.setWidth 64) w0 = .ok () t) ∧ (0 : Nat) % 16 = 0 ∧ cidCci (0 / 16) = 0 ∧ readReg 1 w0 = .ok 5 w0 :=
  ⟨⟨_, rfl⟩, ⟨_, rfl⟩, by decide, by decide, rfl⟩

/-- Context 0 of the core, which may start and end its contexts; x1 names a context, x2 = 0x40. -/
def wruler (n : Word) (f : State → State) : State := f ({ State.reset with cur := 128 }.setCtx 128 ((c0.setReg 1 n).setReg 2 0x40))
theorem test_witness_ContextLifecycle_spawn : readReg 1 (wruler 15 id) = .ok 15 (wruler 15 id) ∧ readReg 2 (wruler 15 id) = .ok 0x40 (wruler 15 id) ∧
    readReg 4 (wruler 15 id) = .ok 0 (wruler 15 id) ∧ MayRule (wruler 15 id) ∧ targetOk 0x40 ∧ ¬targetOk 0x42 ∧
    (15 : Word).toNat < Config.contexts (cidLayer 8) ∧ Config.contexts (cidLayer 8) ≤ (16 : Word).toNat ∧
    ((wruler 15 id).ctx (16 * 8 + 15)).run = .unspawned ∧ (∀ x ∈ (wruler 15 id).ctxs, x.2.hosted ≠ some (8, 15)) ∧ 16 * 8 + 15 ≠ (wruler 15 id).cur ∧
    ¬MayRule w0 :=
  ⟨rfl, rfl, rfl, .inr (by decide), ⟨by decide, by decide⟩, fun h => absurd h.2 (by decide), by decide, by decide, rfl, by decide, by decide,
    fun h => h.elim (by decide) (by decide)⟩
/-- Context 1 of the core runs beside context 0, or is stopped or saved. -/
def wpair (n : Word) (r : Run) : State := wruler n fun s => s.setCtx 129 { c0 with run := r, tpc := 0x90 }
theorem test_witness_ContextLifecycle_end : Released w0 ∧ ¬Released (wout [acc (.store 5) 8 false]) ∧ readReg 1 (wpair 1 .running) = .ok 1 (wpair 1 .running) ∧
    StopsNow ((wpair 1 .running).ctx 129) ∧ (wpair 1 .running).me.awaits 3 = false ∧ (wpair 1 .running).feq = [] ∧
    ((wpair 1 .unspawned).ctx 129).run = .unspawned ∧ (∃ t, writeReg 3 0 (wpair 1 .unspawned) = .ok () t) ∧
    (∀ x ∈ (wpair 1 .running).ctxs, x.2.hosted ≠ some (8, 1)) :=
  ⟨rfl, fun h => absurd (show [acc (.store 5) 8 false] = [] from h) (by decide), rfl, ⟨rfl, rfl, rfl, rfl⟩, rfl, rfl, rfl, ⟨_, rfl⟩, by decide⟩

/-- A valid save frame in the core's scratchpad at 0x1000, that of the witnesses' context; segment 0 covers it and x2 = 0. -/
def wsave (m n : Nat) (r : Run) : State :=
  let s := { wpair 1 r with cur := m, mem := (w0.putBytes (Config.spadLoc 8 0x1000) (saveFrame c0 0x100)).mem }
  s.modCtx m fun c => { (c.setReg 1 (BitVec.ofNat 64 n)).setReg 2 0 with seg := c.seg.setIfInBounds 0 (desc 0x200 0x1000 0x1B 0) }
/-- A computation that ends, with the contexts as they were, seen by evaluating it. -/
theorem ends {α : Type} {m : M α} {s : State} (h : (match m s with | .ok _ u => decide (u.ctxs = s.ctxs ∧ u.cur = s.cur) | .error .. => false) = true) :
    ∃ a t, m s = .ok a t ∧ t.ctxs = s.ctxs ∧ t.cur = s.cur := by
  cases e : m s with
  | ok a u => rw [e] at h; exact ⟨a, u, rfl, of_decide_eq_true h⟩
  | error x u => rw [e] at h; cases h
theorem test_witness_SaveAndLoad_save : readReg 1 (wsave 129 1 .running) = .ok 1 (wsave 129 1 .running) ∧
    readReg 2 (wsave 129 1 .running) = .ok 0 (wsave 129 1 .running) ∧ Settled (wsave 129 1 .running) ∧
    (1 : Word).toNat = (wsave 129 1 .running).cur % 16 ∧ ¬MayRule (wsave 129 2 .running) ∧
    ∃ ps t, readyBlock 0 0 ⟨512, 64, 64, [9], [0, 1, 2], 17, .write⟩ (wsave 129 1 .running) = .ok ps t ∧ t.ctxs = (wsave 129 1 .running).ctxs ∧
      t.cur = (wsave 129 1 .running).cur :=
  ⟨rfl, rfl, fun a h => absurd (show a ∈ [] from h) (by simp), by decide, fun h => h.elim (by decide) (by decide), ends (by decide +kernel)⟩
theorem test_witness_SaveAndLoad_other : ∀ w, MayRule (wsave 128 1 (.stopped w)) ∧ ((wsave 128 1 (.stopped w)).ctx 129).run = .stopped w ∧
    ((wsave 128 1 (.stopped w)).ctx 129).away = none ∧ ((wsave 128 1 (.stopped w)).ctx 129).out = [] ∧
    ((wsave 128 1 .unspawned).ctx 129).run = .unspawned ∧
    ∃ ps t, readyBlock 0 0 ⟨512, 64, 64, [9], [0, 1, 2], 17, .write⟩ (wsave 128 1 (.stopped w)) = .ok ps t ∧ t.ctxs = (wsave 128 1 (.stopped w)).ctxs ∧
      t.cur = (wsave 128 1 (.stopped w)).cur :=
  fun w => by cases w <;> exact ⟨.inr (by decide), rfl, rfl, rfl, rfl, ends (by decide +kernel)⟩
theorem test_witness_SaveAndLoad_load : (wsave 129 1 .running).me.sup = false ∧ ((wsave 129 1 .running).ctx 129).out = [] ∧
    ∃ f t, readBlock 0 0 ⟨512, 64, 64, [8], [0, 1, 2], 18, .read⟩ (wsave 129 1 .running) = .ok f t ∧ t.ctxs = (wsave 129 1 .running).ctxs ∧
      t.cur = (wsave 129 1 .running).cur :=
  ⟨rfl, rfl, ends (by decide +kernel)⟩
theorem test_witness_SaveAndLoad_frame : (∀ e ∈ [288, 304, 320, 336, 352, 368, 384, 400],
      DescOk (Config.spadSize 0) (dwordOf (saveFrame c0 0x100) (e + 8) ++ dwordOf (saveFrame c0 0x100) e)) ∧
    ¬FieldFails false 8 (saveFrame c0 0x100) 224 ∧ ¬FieldFails false 8 (saveFrame c0 0x100) 248 ∧ ¬FieldFails false 8 (saveFrame c0 0x100) 216 ∧
    (dwordOf (saveFrame c0 0x100) 208).getLsbD 24 = false ∧ (dwordOf (saveFrame c0 0x100) 208).getLsbD 25 = c0.sec := by
  refine ⟨?_, fun h => absurd (show _ ∨ _ from h) (by decide +kernel), fun h => absurd (show _ ∨ _ ∧ _ from h) (by decide +kernel),
    fun h => absurd (show dwordOf _ _ = 0 from h) (by decide +kernel), by decide +kernel, by decide +kernel⟩
  simp only [DescOk]; decide +kernel
theorem test_witness_SaveAndLoad_faults : FieldFails false 8 (saveFrame { c0 with mode := 7 } 0) 224 ∧
    FieldFails false 8 (saveFrame { c0 with rngst := 0 } 0) 216 ∧ FieldFails false 8 (saveFrame { c0 with qlink := 0x1FFFFF } 0) 248 ∧
    ¬DescOk (Config.spadSize 0) 4 ∧ frameOrder = [288, 304, 320, 336, 352, 368, 384] ++ 400 :: [224, 248, 216] ∧
    (dwordOf (saveFrame { c0 with sec := true } 0) 208).getLsbD 25 = true ∧ ((wsave 128 1 .running).ctx 129).run = .running := by
  simp only [FieldFails, DescOk]; decide +kernel
theorem test_witness_SaveAndLoad_block : segSpace ((wsave 129 1 .running).me.segd 0) = 0 ∧ ((wsave 129 1 .running).me.segd 0).getLsbD 9 = true ∧
    (0 : Int) + 512 ≤ segLimit ((wsave 129 1 .running).me.segd 0) ∧
    ∃ ps t, blockPieces 0 0 ⟨512, 64, 64, [9], [0, 1, 2], 17, .write⟩ (wsave 129 1 .running) = .ok ps t ∧ t.ctxs = (wsave 129 1 .running).ctxs ∧
      t.cur = (wsave 129 1 .running).cur :=
  ⟨by decide, by decide, by decide, ends (by decide +kernel)⟩
theorem test_witness_WordsArrive_down : ¬Up ((wnet 1).modCore 8 fun c => { c with down := true }) (mbaCid 130) ∧
    NoEarlier ((wnet 1).modCore 8 fun c => { c with down := true }) 129 8 0 ∧ CanPost { wnet 1 with net := [] } 129 :=
  ⟨fun h => absurd h.2 (by decide), ⟨by decide, by decide, by decide, by decide⟩, by decide, by decide⟩
/-- An engine of the core sets IX in context 1's flags in this cycle, its flags 0x3F. -/
def wset : State := wc fun c => { c with flags := 0x3F, ored := some ⟨0, 0x20, 0x20⟩ }
theorem test_witness_FencesGeneratorFlags_same_cycle : (setNow wset).1 = 0x20 ∧ readReg 1 wset = .ok 5 wset ∧ FieldsOk wset [1] :=
  ⟨by decide, rfl, homeFields rfl⟩
theorem test_witness_SaveAndLoad_user : (wsave 128 1 .unspawned).me.sup = false ∧ ((wsave 128 1 .unspawned).ctx 129).run = .unspawned ∧
    (∀ x ∈ (wsave 128 1 .unspawned).ctxs, x.2.hosted ≠ some (128 / 16, 1)) ∧ ((wsave 128 1 .unspawned).ctx 129).out = [] := by decide

/-! ### Counters, edge reversal, the bow, the mute, engine controls -/

/-- A reference to the counter of core 8 at an offset (R210). -/
def tref (off : Nat) : Word := BitVec.ofNat 64 (8 * 2 ^ 22 + off)
/-- x1 and x2 at values. -/
def wxy (v n : Word) : State := wc fun c => (c.setReg 1 v).setReg 2 n
theorem test_witness_CounterOperations_send : TaskOk w0 (tref (Config.spadSize 0 - 8)) ∧ ¬TaskOk w0 (tref 4) ∧
    readReg 1 (wxy (tref (Config.spadSize 0 - 8)) 0xFFFFFFFF) = .ok (tref (Config.spadSize 0 - 8)) (wxy (tref (Config.spadSize 0 - 8)) 0xFFFFFFFF) ∧
    readReg 2 (wxy (tref 8) 0xFFFFFFFF) = .ok 0xFFFFFFFF (wxy (tref 8) 0xFFFFFFFF) ∧ 2 ^ 32 ≤ (0x100000000 : Word).toNat ∧
    CounterSends (wxy (tref 8) 0xFFFFFFFF) (tref 8) :=
  ⟨⟨by decide, by decide, by decide, by decide⟩, fun h => absurd h.2.2.1 (by decide), rfl, rfl, by decide, ⟨rfl, ⟨rfl, rfl⟩, by decide⟩⟩
theorem test_witness_CounterOperations_credits : Released { wxy (tref 8) 0 with net := (wcred 64).net } ∧
    64 ≤ creditsUsed { wxy (tref 8) 0 with net := (wcred 64).net } 8 (taskCid (tref 8)) ∧
    ((w0.modCluster (clKey 8) fun k => { k with down := true }).cluster (clKey (taskCid (tref 8)))).down = true := ⟨rfl, by decide +kernel, by decide⟩
/-- A counter operation on its way to offset 0x20 behind one of another sender, the counter's word at a value. -/
def wcop (k : COpKind) (v : Nat) (p : List Nat) (n : Nat) : State :=
  { ({ w0 with cops := [⟨130, 8, 0x20, .dec, 0, 0⟩, ⟨129, 8, 0x20, k, 0, 1⟩] }.wr (Config.spadLoc 8 0x20) 8 v).modCore 8 fun c =>
    { c with armed := if n = 0 then [] else [⟨0x20, n⟩] } with poison := p }
theorem test_witness_CounterOperations_apply : ∀ k ∈ [COpKind.dec, .set 0, .set 7, .flip 0], ∀ v ∈ [0, 1, 2 ^ 63 + 0xFFFFFFFF], ∀ n ∈ [0, 16],
    memWf (wcop k v [] n).mem = true ∧ (wcop k v [] n).cops[1]? = some ⟨129, 8, 0x20, k, 0, 1⟩ ∧
    NoEarlier (wcop k v [] n) 129 8 1 ∧ (wcop k v [] n).held = [] ∧ isolated (wcop k v [] n) (mbaCid 129) = false ∧
    Up (wcop k v [] n) 8 ∧ CanPost (wcop k v [] n) 128 ∧ sleeping (wcop k v [] n) (Config.spadLoc 8 0x20 + 47 + 16 * 16) = none ∧ sleeping (wcop k v [] n) (Config.spadLoc 8 0x20) = none ∧
    (∀ p ∈ (wcop k v [] n).cops.take 1, p.src ≠ 129) := by simp only [NoEarlier, CanPost, Up]; decide
theorem test_witness_CounterOperations_order : ¬NoEarlier { wcop .dec 1 [] 0 with net := [⟨129, 130, false, 1, 0, 0, 0, false⟩] } 129 8 1 :=
  fun h => absurd (h.1 _ List.mem_cons_self rfl (by decide)) (by decide)
theorem test_witness_CounterOperations_cases : wordAt (wcop .dec 0 [] 0) (Config.spadLoc 8 0x20) = 0 ∧ wordAt (wcop .dec 1 [] 0) (Config.spadLoc 8 0x20) = 1 ∧
    Poisoned (wcop .dec 1 [Config.spadLoc 8 0x20 / 8] 0) (Config.spadLoc 8 0x20) 8 ∧ ArmedAt (wcop (.flip 0) 1 [] 16) 8 0x20 16 ∧
    edgeTile (wcop (.flip 0) 1 [] 16) 8 0x20 0 = 0 ∧ ¬Poisoned (wcop (.flip 0) 1 [] 16) (Config.spadLoc 8 0x20) 8 :=
  ⟨by decide +kernel, by decide +kernel, ⟨Config.spadLoc 8 0x20 / 8, List.mem_cons_self, Config.spadLoc 8 0x20, by decide, by decide, by decide, by decide⟩, rfl, by decide +kernel,
    fun ⟨_, h, _⟩ => by cases h⟩

/-- A task at offset 0x100 whose list has tile 1 of rank 0 with its direction bit set and tile 2 of rank 2; the core's own rank is 1. -/
def wedge (n : Nat) (count : Nat) (l : List Armed) : State :=
  let p := fun (o v : Nat) (s : State) => s.wr (Config.spadLoc 8 (0x100 + o)) 8 v
  (p 0 count (p 40 (2 ^ 32 + n) (p 48 1 (p 56 (2 ^ 63 + 8 * 2 ^ 22 + 0x200) (p 64 (2 ^ 33 + 2) (p 72 (8 * 2 ^ 22 + 0x300) (wxy (tref 0x100) 1))))))).modCore 8
    fun k => { k with armed := l }
theorem test_witness_EdgeReversal_ori : readReg 1 (wedge 2 0 [⟨0x100, 2⟩]) = .ok (tref 0x100) (wedge 2 0 [⟨0x100, 2⟩]) ∧
    readReg 2 (wedge 2 0 [⟨0x100, 2⟩]) = .ok 1 (wedge 2 0 [⟨0x100, 2⟩]) ∧ TaskOk (wedge 2 0 [⟨0x100, 2⟩]) (tref 0x100) ∧
    taskCid (tref 0x100) = (wedge 2 0 [⟨0x100, 2⟩]).cur / 16 ∧ ArmedAt (wedge 2 0 [⟨0x100, 2⟩]) 8 0x100 2 ∧ ArmedAt (wedge 1 0 [⟨0x100, 1⟩]) 8 0x100 1 ∧
    sleeping (wedge 2 0 [⟨0x100, 2⟩]) (edgeLoc 8 0x100 1) = none :=
  ⟨rfl, rfl, ⟨by decide, by decide, by decide, by decide⟩, by decide, rfl, rfl, rfl⟩
theorem test_witness_EdgeReversal_flip : memWf (wedge 2 0 [⟨0x100, 2⟩]).mem = true ∧ sleeping (wedge 2 0 [⟨0x100, 2⟩]) (Config.spadLoc 8 0x100) = none ∧
    ((wedge 2 0 []).core 8).armed = [] ∧ (wedge 2 0 [⟨0x100, 2⟩]).poison = [] ∧ wordAt (wedge 2 0 []) (Config.spadLoc 8 0x100) = 0 ∧
    wordAt (wedge 2 1 []) (Config.spadLoc 8 0x100) = 1 ∧ (∀ e ∈ ((wedge 2 0 []).core 8).eng.toList, e.queue = []) := by decide +kernel
theorem test_witness_EdgeReversal_arm : wordAt (wedge 2 0 []) (Config.spadLoc 8 (0x100 + 40)) = 0x100000002 ∧
    wordAt (wedge 17 0 []) (Config.spadLoc 8 (0x100 + 40)) = 0x100000011 ∧ wordAt (wedge 0 0 []) (Config.spadLoc 8 (0x100 + 40)) = 0x100000000 ∧
    ((wedge 2 0 (List.replicate 64 ⟨8, 1⟩)).core 8).armed.length = 64 ∧ sleeping (wedge 2 0 []) (Config.spadLoc 8 (0x100 + 40)) = none := by
  decide +kernel
theorem test_witness_EdgeReversal_edges : ∀ e, e < 2 → EdgeOk (wedge 2 0 []) 8 0x100 1 e := by
  intro e h
  have : e = 0 ∨ e = 1 := by omega
  obtain rfl | rfl := this <;> (simp only [EdgeOk, EdgePoints]; decide +kernel)
/-- The same with the first entry's tile number and rank, and its second word, at values. -/
def wbad (t r w : Nat) : State := ((wedge 2 0 []).wr (edgeLoc 8 0x100 0) 8 (2 ^ 32 * r + t)).wr (edgeLoc 8 0x100 0 + 8) 8 w
theorem test_witness_EdgeReversal_bad_edges : ¬EdgePoints (wbad 1 2 (2 ^ 63)) 8 0x100 1 0 ∧ EdgePoints (wbad 1 1 0) 8 0x100 1 0 ∧
    edgeRank (wbad 1 1 0) 8 0x100 0 = 1 ∧ EdgeOk (wbad 3 2 0) 8 0x100 1 0 ∧ EdgePoints (wbad 3 2 0) 8 0x100 1 1 ∧
    edgeRank (wbad 3 2 0) 8 0x100 1 ≠ 1 ∧ edgeTile (wbad 3 2 0) 8 0x100 1 ≤ edgeTile (wbad 3 2 0) 8 0x100 0 := by
  simp only [EdgeOk, EdgePoints]; decide +kernel
theorem test_witness_EdgeReversal_flips : (flipsOf (wedge 2 0 []) 8 0x100 2).length = 2 ∧
    (∀ o ∈ flipsOf (wedge 2 0 []) 8 0x100 2, o.cid = 8) ∧ creditsUsed (wedge 2 0 []) 8 8 + 2 ≤ 64 ∧
    creditsUsed { wedge 2 0 [] with net := (wcred 63).net } 8 8 + 2 > 64 ∧
    FlipsTo (wedge 2 0 []) 8 0x100 0 ∧ FlipsTo.core (wedge 2 0 []) 8 0x100 0 = 8 ∧ CanPost (wedge 2 0 []) (16 * 8) := by
  simp only [FlipsTo, CanPost]; decide +kernel

/-- x1 names a scope, x2 = a group, with the tokens of the device. -/
def wbow (c g : Word) (l : List Token) : State := { wxy c g with tokens := l }
theorem test_witness_BowAndMute_start : readReg 1 (wbow 6 15 []) = .ok 6 (wbow 6 15 []) ∧ readReg 2 (wbow 6 15 []) = .ok 15 (wbow 6 15 []) ∧
    (∃ t, writeReg 3 0 (wbow 1 15 []) = .ok () t) ∧ (∃ t, writeReg 3 1 (wbow 1 15 [⟨15, 1, scopeInst 1 129, 129, [8], false⟩]) = .ok () t) ∧
    scopeNorm 1 129 = 1 := ⟨rfl, rfl, ⟨_, rfl⟩, ⟨_, rfl⟩, by decide⟩
theorem test_witness_BowAndMute_pass : ∀ r ∈ [[8], [8, 9]], (wbow 1 0 [⟨15, 2, 0, 129, r, false⟩]).tokens[0]? = some ⟨15, 2, 0, 129, r, false⟩ ∧
    undelivered (wbow 1 0 [⟨15, 2, 0, 129, r, false⟩]) 8 15 = false ∧
    undelivered { wbow 1 0 [⟨15, 2, 0, 129, r, false⟩] with net := [⟨129, 130, false, 1, 0, 0x8000, 0, false⟩] } 8 15 = true := by decide +kernel
/-- Context 0 mutes context 1, whose `qout` is bound to context 2 with `n` words on their way. -/
def wmute (n : Nat) : State :=
  { (wpair 1 .running).modCtx 129 fun c => { c with qlink := 2 ^ 20 + 130 } with qnet := List.replicate n ⟨129, 130, .word 129 1, 0⟩ }.modCtx 128
    fun c => c.setReg 1 129
theorem test_witness_BowAndMute_mute : MayRule (wmute 15) ∧ readReg 1 (wmute 15) = .ok 129 (wmute 15) ∧ mbaValid (wmute 15).minimal 129 = true ∧
    clKey (129 / 16) = clKey ((wmute 15).cur / 16) ∧ StopsNow ((wmute 15).ctx 129) ∧ qlinkOk (wmute 15) 129 = true ∧ qoutUsed (wmute 15) 129 130 = 15 ∧
    129 ≠ (wmute 15).cur ∧ (wmute 15).feq = [] ∧ mbaValid (wmute 15).minimal 0xFFFFF = false ∧ ((wmute 15).ctx 130).run = .unspawned ∧
    clKey (16 * 48 / 16) ≠ clKey (128 / 16) :=
  ⟨.inr (by decide), rfl, by decide, by decide, ⟨rfl, rfl, rfl, rfl⟩, by decide, by decide, by decide, rfl, by decide, rfl, by decide⟩
/-- The mute waits for room in context 1's `qout` for context 0's sake. -/
def wplace (n : Nat) : State := (wmute n).modCtx 129 fun c => { c with run := .stopped .mute, muteOut := [128] }
theorem test_witness_BowAndMute_place : ((wplace 15).ctx 129).muteOut = [128] ∧ (128 : Nat) ≠ 129 ∧ 16 ≤ qoutUsed (wmute 16) 129 130 ∧ (wmute 15).held = [] ∧ ((wplace 15).ctx 129).run ≠ .running ∧
    qlinkOk (wplace 15) 129 = true ∧ qoutUsed (wplace 15) 129 130 = 15 ∧ qoutUsed (wplace 16) 129 130 = 16 := by decide

theorem test_witness_EngineControls_status : readReg 1 (wxy 5 0) = .ok 5 (wxy 5 0) ∧ engineOf (wxy 5 0).layer 5 = some .link ∧
    engineOf 1 5 = none ∧ (∃ t, writeReg 3 (statusWord ((w0.core w0.here).eng.getD 5 EngSt.init)) (wxy 5 0) = .ok () t) ∧
    (wxy 5 0).me.awaits 3 = false ∧ 5 < (6 : Word).toNat :=
  ⟨rfl, by decide, by decide, ⟨_, rfl⟩, rfl, by decide⟩
/-- Context 1 of a core of layer 1. -/
def wup : State := { State.reset with cur := 16 * mkCid 1 0 0 + 1 }.setCtx (16 * mkCid 1 0 0 + 1) { c0 with x := c0.x.setIfInBounds 1 3 }
theorem test_witness_EngineControls_layer : wup.layer = 1 ∧ readReg 1 wup = .ok 3 wup ∧ engineOf wup.layer 3 = none ∧
    (∃ t, writeReg 4 0 wup = .ok () t) ∧ wup.me.migrant = false := ⟨by decide, rfl, by decide, ⟨_, rfl⟩, rfl⟩
/-- The quad's lease. -/
def wlease (h : Option Nat) (r : List LReq) (began : Nat) : State := w0.modLease (quadBase 8) fun l => { l with holder := h, reqs := r, began := began }
theorem test_witness_EngineControls_lease : w0.layer = 0 ∧ (∃ t, writeReg 3 0 w0 = .ok () t) ∧ (w0.lease (quadBase (w0.cur / 16))).holder = none ∧
    ((wlease (some 129) [] 0).lease (quadBase 8)).holder = some 129 ∧ ((wlease (some 130) [] 0).lease (quadBase 8)).holder = some 130 ∧
    ((wlease none [⟨129, true⟩] 0).lease (quadBase 8)).reqs = [⟨129, true⟩] ∧ (∃ t, writeReg 3 1 (wlease (some 129) [] 0) = .ok () t) :=
  ⟨by decide, ⟨_, rfl⟩, rfl, by decide, by decide, by decide, ⟨_, rfl⟩⟩
/-- The device 4,096 base cycles on. -/
def wlate : State := { wlease (some 129) [] 0 with clk := #v[⟨4096, 0, 27⟩, ⟨0, 0, 34⟩, ⟨0, 0, 41⟩, ⟨0, 0, 48⟩] }
theorem test_witness_EngineControls_term : (wlate.lease (quadBase 8)).holder = some 129 ∧ (wlate.lease (quadBase 8)).began + 4096 ≤ wlate.cycles 0 ∧
    ((wlease (some 129) [] 1).lease (quadBase 8)).began = 1 ∧ (wlease (some 129) [] 1).cycles 0 < 1 + 4096 := by decide +kernel
theorem test_witness_EngineControls_translations : (wc fun c => { c with sup := true }).me.sup = true ∧ w0.me.sup = false ∧
    (wc fun c => { c with sup := true }).walks = [] ∧ (wc fun c => { c with sup := true }).fills = [] ∧
    readReg 2 (wc fun c => { c with sup := true }) = .ok 7 (wc fun c => { c with sup := true }) ∧ (7 : Word).toNat ≤ 7 ∧
    FieldsOk (wc fun c => { c with sup := true }) [1, 2] := ⟨rfl, rfl, rfl, rfl, rfl, by decide, homeFields rfl⟩
theorem test_witness_EdgeReversal_poison :
    let s := { wedge 2 0 [⟨0x100, 2⟩] with poison := [Config.spadLoc 8 0x138 / 8] }
    FirstPoison s 8 (0x100 + 48) 4 1 ∧ FirstPoison { wedge 2 0 [] with poison := [Config.spadLoc 8 0x128 / 8] } 8 (0x100 + 40) 5 0 ∧
    Poisoned s (edgeLoc 8 0x100 0 + 8) 8 ∧ CleanList (wedge 2 0 [⟨0x100, 2⟩]) 8 (0x100 + 48) 4 := by
  have clean : ∀ (s : State) (loc n : Nat), s.poison = [] → ¬Poisoned s loc n := fun s loc n h ⟨w, hw, _⟩ => by rw [h] at hw; cases hw
  refine ⟨⟨by decide, ⟨_, List.mem_cons_self, Config.spadLoc 8 0x138, by decide, by decide, by decide, by decide⟩, fun i h => ?_⟩,
    ⟨by decide, ⟨_, List.mem_cons_self, Config.spadLoc 8 0x128, by decide, by decide, by decide, by decide⟩, fun i h => absurd h (Nat.not_lt_zero i)⟩,
    ⟨_, List.mem_cons_self, Config.spadLoc 8 0x138, by decide, by decide, by decide, by decide⟩, fun i _ => clean _ _ _ rfl⟩
  rintro ⟨w, hw, b, h1, h2, -, h3⟩
  obtain rfl : i = 0 := by omega
  obtain rfl : w = Config.spadLoc 8 0x138 / 8 := List.mem_singleton.mp hw
  have e : Config.spadLoc 8 (0x100 + 48 + 8 * 0) = 8 * (Config.spadLoc 8 0x138 / 8) - 8 := by decide
  have : 8 ≤ 8 * (Config.spadLoc 8 0x138 / 8) := by decide
  omega
theorem test_witness_EdgeReversal_down : FlipsTo ((wedge 2 0 []).modCore 8 fun k => { k with down := true }) 8 0x100 0 ∧
    ¬Up ((wedge 2 0 []).modCore 8 fun k => { k with down := true }) (FlipsTo.core ((wedge 2 0 []).modCore 8 fun k => { k with down := true }) 8 0x100 0) := by
  simp only [FlipsTo, Up]; decide +kernel
/-- A mute stands at the head of the context's `qin`; its `qout` is bound to context 2, with `n` words on their way. -/
def wmet (n : Nat) : State :=
  { wc (fun c => { c with qlink := 2 ^ 20 + 130, qin := [.mute 128, .word 128 4] }) with qnet := List.replicate n ⟨129, 130, .word 129 1, 0⟩ }
theorem test_witness_BowAndMute_met : ∀ n ∈ [15, 16], bin (.add 3 1 28 false false) = some (3, 1, 28, fun x y => x + y) ∧
    readReg 1 (wmet n) = .ok 5 (wmet n) ∧ (wmet n).me.qin = .mute 128 :: [.word 128 4] ∧ (wmet n).me.run = .running ∧ NoneEntering (wmet n) (wmet n).cur ∧
    satField (wmet n) = 0 ∧ (wmet n).me.out = [] ∧ qlinkOk (wmet n) 129 = true ∧ (qoutUsed (wmet n) 129 130 = n) ∧ qlinkOk w0 129 = false ∧
    withoutMute (wmet n).me.qin = [.word 128 4] := by
  intro n h
  simp only [List.mem_cons, List.not_mem_nil, or_false] at h
  obtain rfl | rfl := h <;> exact ⟨rfl, rfl, rfl, rfl, by unfold NoneEntering; decide, rfl, rfl, by decide, by decide, by decide, rfl⟩
/-- The same context waits with its own mute. -/
def wown (n : Nat) : State := (wmet n).modCtx 129 fun c => { c with muteOut := [129], wait := some ⟨.fullWrite, 0, 0, 0, 0⟩ }
theorem test_witness_BowAndMute_own : ∀ n ∈ [15, 16], ((wown n).ctx 129).muteOut = [129] ∧ ((wown n).ctx 129).run = .running ∧ ((wown n).ctx 129).wait ≠ none ∧
    ((wown n).ctx 129).out = [] ∧ qlinkOk (wown n) 129 = true ∧ qoutUsed (wown n) 129 130 = n := by decide
theorem test_witness_BowAndMute_second : MayRule (wplace 16) ∧ 129 ≠ (wplace 16).cur ∧ ((wplace 16).ctx 129).run ≠ .running ∧
    ((wplace 16).ctx 129).run ≠ .unspawned ∧ ((wplace 16).ctx 129).out = [] ∧ ((wplace 16).ctx 129).away = none ∧ ((wplace 16).ctx 129).muteOut ≠ [] :=
  ⟨.inr (by decide), by decide, by decide, by decide, by decide, by decide, by decide⟩
/-- The quad's lease is context 129's, with a request of the next core's context 1 behind one of its own core's context 2. -/
def wqueue : State := { (wlease (some 129) [⟨130, true⟩, ⟨4225, true⟩] 0).modLease (quadBase 8) fun l => { l with lastCh := 2 } with clk := wlate.clk }
theorem test_witness_EngineControls_pass : (wqueue.lease (quadBase 8)).lastCh < 4 ∧ (wqueue.lease (quadBase 8)).began + 4096 ≤ wqueue.cycles 0 ∧ wqueue.held = [] ∧
    (wqueue.lease (quadBase 8)).reqs ≠ [] ∧ CanPost wqueue 4225 ∧
    (wlate.lease (quadBase 8)).reqs = [] ∧ (wlate.modLease (quadBase 8) fun l => { l with used := 63 }).lease (quadBase 8) =
      { wlate.lease (quadBase 8) with used := 63 } := by simp only [CanPost]; decide +kernel
theorem test_witness_EngineControls_next : let l := wqueue.lease (quadBase 8)
    ∃ r, GrantedNext { l with reqs := l.reqs ++ [⟨129, false⟩] } r ∧ r.who ≠ 129 := by
  refine ⟨⟨4225, true⟩, ⟨1, by decide, ?_⟩, by decide⟩
  intro j x h
  have hj : j < 3 := by
    obtain ⟨this, -⟩ := List.getElem?_eq_some_iff.mp h
    have e : ((wqueue.lease (quadBase 8)).reqs ++ [(⟨129, false⟩ : LReq)]).length = 3 := by decide
    rw [← e]; exact this
  have : j = 0 ∨ j = 1 ∨ j = 2 := by omega
  obtain rfl | rfl | rfl := this <;> (obtain rfl := Option.some.inj h.symm; decide)

/-! ### Engine commands -/

/-- A tile descriptor (Table 4.9). -/
def tdesc (bank off rows cols stride core : Nat) (pad : Bool) : Word :=
  BitVec.ofNat 64 (bank * 2 ^ 60 + off * 2 ^ 49 + (rows - 1) * 2 ^ 39 + (cols - 1) * 2 ^ 29 + stride / 16 * 2 ^ 17 + core * 2 ^ 12
    + if pad then 512 else 0)
/-- Banks 0 to 3 hold `f32`, `i64`, raw bytes and `i8`; the context holds the quad's lease. -/
def weng (l : List (Nat × Word)) : State :=
  ((wc fun c => l.foldl (fun c x => c.setReg x.1 x.2) { c with fretboard := 4, seg := c.seg.setIfInBounds 2 (desc 0x10000 0x200000 0x1B 2) }).modLease
    (quadBase 8) fun l => { l with holder := some 129 }).modCore 8 fun k =>
      { k with fmt := ((((k.fmt.setIfInBounds 0 5).setIfInBounds 1 0).setIfInBounds 2 15).setIfInBounds 3 10), mx := { k.mx with issuedA := (4, true) } }
/-- The hypotheses of a command that passes its checks. -/
def CmdOk (i : Instr) (t : T64) (s : State) : Prop :=
  cmdWords i = some t ∧ s.me.migrant = false ∧ Settled s ∧ EngReg t.d ∧ EngReg t.a ∧ EngReg t.b ∧
    ∃ ws s1 w, readAll (cmdReads i) s = some (ws, s1) ∧ want i s1 ws = some w ∧ w.ok ∧
      ((s1.core (s.cur / 16)).eng.getD (numberOf w.eng) EngSt.init).queue.length < depth w.eng ∧
      (isMatrix i = true → (s.lease (quadBase (s.cur / 16))).holder = some s.cur)
/-- d = x3, a = x1, b = x2. -/
def tw (f : BitVec 8) (h : BitVec 8) (spec : BitVec 24) : T64 := { t0 with d := 3, a := 1, b := 2, f := f, w1 := h ++ spec }
/-- The tile of bank `b` with `r` rows and `c` columns of up to 8 bytes. -/
def tl (b r c : Nat) : Word := tdesc b 0 r c ((8 * c + 15) / 16 * 16) 31 false
theorem test_witness_EngineCommandIssue_fold : CmdOk (.fold (tw 0x64 0xF0 0)) (tw 0x64 0xF0 0) (weng [(1, tl 1 2 1023), (3, tl 0 1 1), (4, 0)]) := by
  refine ⟨rfl, rfl, noOut rfl, by decide, by decide, by decide, _, _, _, rfl, rfl, ?_, by decide, fun h => by cases h⟩
  repeat' apply And.intro
  all_goals trivial
theorem test_witness_EngineCommandIssue_scan : CmdOk (.scan (tw 0x04 0xF0 0)) (tw 0x04 0xF0 0) (weng [(1, tl 1 2 4), (2, 7), (3, tl 1 2 4), (4, 0)]) := by
  refine ⟨rfl, rfl, noOut rfl, by decide, by decide, by decide, _, _, _, rfl, rfl, ?_, by decide, fun h => by cases h⟩
  repeat' apply And.intro
  all_goals trivial
theorem test_witness_EngineCommandIssue_zip : CmdOk (.zip (tw 0x24 0xF2 0)) (tw 0x24 0xF2 0) (weng [(1, tl 0 2 4), (2, tl 0 1 4), (3, tl 0 2 4), (4, 0)]) := by
  refine ⟨rfl, rfl, noOut rfl, by decide, by decide, by decide, _, _, _, rfl, rfl, ?_, by decide, fun h => by cases h⟩
  repeat' apply And.intro
  all_goals trivial
theorem test_witness_EngineCommandIssue_outer : CmdOk (.outer (tw 0x04 0xF1 0)) (tw 0x04 0xF1 0) (weng [(1, tl 0 1 3), (2, tl 0 1 5), (3, tl 0 3 5), (4, 0)]) := by
  refine ⟨rfl, rfl, noOut rfl, by decide, by decide, by decide, _, _, _, rfl, rfl, ?_, by decide, fun h => by cases h⟩
  repeat' apply And.intro
  all_goals trivial
theorem test_witness_EngineCommandIssue_tcopy : CmdOk (.tcopy (tw 0x04 0 0)) (tw 0x04 0 0) (weng [(1, tl 2 8 64), (3, tl 2 8 64), (4, 0)]) := by
  refine ⟨rfl, rfl, noOut rfl, by decide, by decide, by decide, _, _, _, rfl, rfl, ?_, by decide, fun h => by cases h⟩
  repeat' apply And.intro
  all_goals trivial
theorem test_witness_EngineCommandIssue_tcopy_op : CmdOk (.tcopy (tw 0x24 0xF0 0)) (tw 0x24 0xF0 0) (weng [(1, tl 0 8 64), (3, tl 3 8 64), (4, 0)]) := by
  refine ⟨rfl, rfl, noOut rfl, by decide, by decide, by decide, _, _, _, rfl, rfl, ?_, by decide, fun h => by cases h⟩
  repeat' apply And.intro
  all_goals trivial
theorem test_witness_EngineCommandIssue_tfill : CmdOk (.tfill (tw 0x04 0 0)) (tw 0x04 0 0) (weng [(1, 5), (3, tl 0 4 1024), (4, 0)]) := by
  refine ⟨rfl, rfl, noOut rfl, by decide, by decide, by decide, _, _, _, rfl, rfl, ?_, by decide, fun h => by cases h⟩
  repeat' apply And.intro
  all_goals trivial
theorem test_witness_EngineCommandIssue_txp : CmdOk (.txp (tw 0x00 0 0)) (tw 0x00 0 0) (weng [(1, tl 3 2 4), (3, tl 3 4 2)]) := by
  refine ⟨rfl, rfl, noOut rfl, by decide, by decide, by decide, _, _, _, rfl, rfl, ?_, by decide, fun h => by cases h⟩
  repeat' apply And.intro
  all_goals trivial
theorem test_witness_EngineCommandIssue_gld : CmdOk (.gld (tw 0x02 0 0)) (tw 0x02 0 0) (weng [(1, 16), (2, 32), (3, tl 0 2 4)]) := by
  refine ⟨rfl, rfl, noOut rfl, by decide, by decide, by decide, _, _, _, rfl, rfl, ?_, by decide, fun h => by cases h⟩
  repeat' apply And.intro
  all_goals trivial
theorem test_witness_EngineCommandIssue_gst : CmdOk (.gst (tw 0x02 0 0)) (tw 0x02 0 0) (weng [(1, tl 0 2 4), (2, 32), (3, 0)]) := by
  refine ⟨rfl, rfl, noOut rfl, by decide, by decide, by decide, _, _, _, rfl, rfl, ?_, by decide, fun h => by cases h⟩
  repeat' apply And.intro
  all_goals trivial
theorem test_witness_EngineCommandIssue_mxldst : CmdOk (.mxldst (tw 0x00 0 0)) (tw 0x00 0 0) (weng [(1, tl 3 4 64), (2, tl 2 1 32)]) := by
  refine ⟨rfl, rfl, noOut rfl, by decide, by decide, by decide, _, _, _, rfl, rfl, ?_, by decide, fun _ => rfl⟩
  repeat' apply And.intro
  all_goals trivial
theorem test_witness_EngineCommandIssue_mxldst_sp : CmdOk (.mxldst (tw 0x00 0 1)) (tw 0x00 0 1) (weng [(1, tl 3 64 16), (2, tl 2 1 288)]) := by
  refine ⟨rfl, rfl, noOut rfl, by decide, by decide, by decide, _, _, _, rfl, rfl, ?_, by decide, fun _ => rfl⟩
  repeat' apply And.intro
  all_goals trivial
theorem test_witness_EngineCommandIssue_mxswap : CmdOk (.mxswap (tw 0x00 0 0)) (tw 0x00 0 0) (weng [(1, 0)]) := by
  exact ⟨rfl, rfl, noOut rfl, by decide, by decide, by decide, _, _, _, rfl, rfl, rfl, by decide, fun _ => rfl⟩
theorem test_witness_EngineCommandIssue_mxstrm : CmdOk (.mxstrm (tw 0x00 0 0x60)) (tw 0x00 0 0x60) (weng [(1, tl 0 32 8)]) := by
  refine ⟨rfl, rfl, noOut rfl, by decide, by decide, by decide, _, _, _, rfl, rfl, ?_, by decide, fun _ => rfl⟩
  repeat' apply And.intro
  all_goals trivial
theorem test_witness_EngineCommandIssue_mxdrain : CmdOk (.mxdrain (tw 0x04 0 0x3FFF)) (tw 0x04 0 0x3FFF) (weng [(3, tl 0 1 1), (4, 0)]) := by
  refine ⟨rfl, rfl, noOut rfl, by decide, by decide, by decide, _, _, _, rfl, rfl, ?_, by decide, fun _ => rfl⟩
  repeat' apply And.intro
  all_goals trivial
theorem test_witness_EngineCommandIssue_mxdrain_bs : CmdOk (.mxdrain (tw 0x64 0xF0 0)) (tw 0x64 0xF0 0) (weng [(2, tl 0 1 8), (3, tl 3 64 8), (4, 0)]) := by
  refine ⟨rfl, rfl, noOut rfl, by decide, by decide, by decide, _, _, _, rfl, rfl, ?_, by decide, fun _ => rfl⟩
  repeat' apply And.intro
  all_goals trivial
theorem test_witness_EngineCommandIssue_wld : CmdOk (.wld (tw 0x00 0 7)) (tw 0x00 0 7) (weng [(1, tl 0 1 9)]) := by
  refine ⟨rfl, rfl, noOut rfl, by decide, by decide, by decide, _, _, _, rfl, rfl, ?_, by decide, fun h => by cases h⟩
  repeat' apply And.intro
  all_goals trivial
theorem test_witness_EngineCommandIssue_rstr : CmdOk (.rstr (tw 0x00 0 0)) (tw 0x00 0 0) (weng [(1, tdesc 0 0 5 7 128 31 true), (3, tl 0 3 4)]) := by
  refine ⟨rfl, rfl, noOut rfl, by decide, by decide, by decide, _, _, _, rfl, rfl, ?_, by decide, fun h => by cases h⟩
  repeat' apply And.intro
  all_goals trivial
/-- The same with every column in the partition, so that a crossing stays in it. -/
def wwide (l : List (Nat × Word)) : State := (weng l).modPart 0 fun p => { p with cols := 2 ^ 32 - 1 }
theorem test_witness_EngineCommandIssue_rstr_cross : CmdOk (.rstr (tw 0x20 0xF0 0x0010F0)) (tw 0x20 0xF0 0x0010F0)
    (wwide [(1, tdesc 0 0 5 7 128 31 true), (3, tdesc 0 0 3 4 64 31 false)]) := by
  refine ⟨rfl, rfl, noOut rfl, by decide, by decide, by decide, _, _, _, rfl, rfl, ?_, by decide, fun h => by cases h⟩
  repeat' apply And.intro
  all_goals trivial
theorem test_witness_EngineCommandIssue_prol : CmdOk (.prol (tw 0x00 0 0)) (tw 0x00 0 0) (weng [(1, tdesc 0 0 3 4 128 31 true), (3, tl 0 5 7)]) := by
  refine ⟨rfl, rfl, noOut rfl, by decide, by decide, by decide, _, _, _, rfl, rfl, ?_, by decide, fun h => by cases h⟩
  repeat' apply And.intro
  all_goals first | trivial | exact fun h => absurd h (by decide)
theorem test_witness_EngineChecksAndTables_crossing : ∃ av dv, rstrOk (wwide [(1, tdesc 0 0 5 7 128 31 true), (3, tdesc 0 0 3 4 64 31 false)])
      (tw 0x20 0xFF 0x0010F0) av dv ∧ coreIn (weng []) (weng []).me.part.toNat (parentOf 8) = false := by
  refine ⟨tdesc 0 0 5 7 128 31 true, tdesc 0 0 3 4 64 31 false, ?_, by decide⟩
  repeat' apply And.intro
  all_goals trivial
theorem test_witness_EngineCommandIssue_put : CmdOk (.put (tw 0x00 0xF0 0x1FFFF)) (tw 0x00 0xF0 0x1FFFF) (weng [(1, tl 0 4 1024), (2, -1), (3, 0x100)]) := by
  refine ⟨rfl, rfl, noOut rfl, by decide, by decide, by decide, _, _, _, rfl, rfl, ?_, by decide, fun h => by cases h⟩
  repeat' apply And.intro
  all_goals trivial
theorem test_witness_EngineCommandIssue_put_ctr : CmdOk (.put (tw 0x00 0 0)) (tw 0x00 0 0) (weng [(1, tl 2 4 1024), (2, 0xFFFFFFFFFFF0), (3, 0x100)]) := by
  refine ⟨rfl, rfl, noOut rfl, by decide, by decide, by decide, _, _, _, rfl, rfl, ?_, by decide, fun h => by cases h⟩
  repeat' apply And.intro
  all_goals trivial
theorem test_witness_EngineCommandIssue_reading : noHandleIn (.gld (tw 2 1 0)) = true ∧ takesHandle (.mxdrain (tw 0x20 0xF0 0)) = true ∧
    want (.mxdrain (tw 0x24 0xFC 0)) (weng [(3, tl 0 1 1), (4, 0)]) [tl 0 1 1, 0] = none := ⟨rfl, rfl, rfl⟩
/-- A queue of the core holds `n` commands. -/
def wfull (e : Eng) (n : Nat) (l : Lease) : State :=
  ((weng []).modEng 8 e fun q => { q with queue := List.replicate n (blankCmd .mxswap t0) }).modLease (quadBase 8) fun _ => l
theorem test_witness_EngineCommandIssue_full : (((wfull .vector 8 Lease.init).core 8).eng.getD 0 EngSt.init).queue.length = depth .vector ∧
    (((wfull .matrix 4 Lease.init).core 8).eng.getD 3 EngSt.init).queue.length = depth .matrix ∧
    (((wfull .global 16 Lease.init).core 8).eng.getD 2 EngSt.init).queue.length = depth .global ∧
    (((wfull .link 8 Lease.init).core 8).eng.getD 5 EngSt.init).queue.length = depth .link := by decide +kernel
theorem test_witness_EngineCommandIssue_term : ((wfull .matrix 0 ⟨some 129, [⟨130, true⟩], 3, 0, 0, 62, 0⟩).lease (quadBase 8)).used + 1 < 64 ∧
    ((wfull .matrix 0 ⟨some 129, [], 3, 0, 0, 63, 0⟩).lease (quadBase 8)).reqs = [] := by decide

theorem test_witness_EngineChecksAndTables_fields : ¬EngReg 24 ∧ ¬EngReg 30 ∧ EngReg 23 ∧ EngReg 31 ∧ w0.me.migrant = false ∧
    (w0.lease (quadBase (w0.cur / 16))).holder ≠ some w0.cur ∧ ((wlease none [⟨129, false⟩] 0).lease (quadBase 8)).reqs = [⟨129, false⟩] ∧
    (wmig (away0 (.hosted 1) none none)).me.migrant = true ∧ constOk (.fold (tw 0x04 0xF0 0)) ∧ ¬constOk (.fold (tw 0x18 0xF0 0)) := by
  refine ⟨by decide, by decide, by decide, by decide, rfl, by decide, by decide, rfl, ?_, ?_⟩ <;> simp only [constOk] <;> decide
/-- d = x3 and a = x1 name tiles, the second of which is valid or not. -/
def wbadTile (bad : Bool) : State := weng [(3, tl 0 1 1), (1, tl 1 2 4 ||| if bad then 1 else 0), (4, 0), (2, 0)]
theorem test_witness_EngineChecksAndTables_tiles : ∃ ws s1, readAll (cmdReads (.fold (tw 0x04 0xF0 0))) (wbadTile true) = some (ws, s1) ∧
    (tileOperands (.fold (tw 0x04 0xF0 0)) ws)[1]? = some (1, 1, tl 1 2 4 ||| 1, false) ∧ ¬TileOk (tl 1 2 4 ||| 1) (own s1 (tl 1 2 4 ||| 1)) false ∧
    TileOk (tl 0 1 1) (own s1 (tl 0 1 1)) true := ⟨_, _, rfl, rfl, by decide +kernel, by decide +kernel⟩
theorem test_witness_EngineChecksAndTables_handle : ∃ ws s1, readAll (cmdReads (.fold (tw 0x04 0xFC 0))) (wbadTile false) = some (ws, s1) ∧
    (∀ x ∈ tileOperands (.fold (tw 0x04 0xFC 0)) ws, TileOk x.2.2.1 (own s1 x.2.2.1) x.2.2.2 ∧ ¬raw (own s1 x.2.2.1)) ∧
    want (.fold (tw 0x04 0xFC 0)) s1 ws = none := ⟨_, _, rfl, by decide +kernel, rfl⟩
theorem test_witness_EngineChecksAndTables_levels : layerOf (weng []) 0 = (weng []).layer ∧ layerOf (weng []) 1 = (weng []).layer + 1 ∧
    layerOf ((weng []).modMe fun c => { c with fretboard := 8 }) 1 ≠ (weng []).layer + 1 := by decide
/-- Context 0 with a routine image at 0x1000 of its scratchpad: a header and one word; x1 = 0 and x2 = the handle. -/
def wrtn (hdr body h : Nat) : State :=
  let s := { wruler 0 id with mem := ((w0.wr (Config.spadLoc 8 0x1000) 4 hdr).wr (Config.spadLoc 8 0x1004) 4 body).mem }
  s.modMe fun c => { (c.setReg 2 (BitVec.ofNat 64 h)) with seg := c.seg.setIfInBounds 0 (desc 8 0x1000 0x1B 0) }
theorem test_witness_EngineChecksAndTables_routine : MayRule (wrtn 0x4000 0 239) ∧ readReg 2 (wrtn 0x4000 0 239) = .ok 239 (wrtn 0x4000 0 239) ∧
    readReg 2 (wrtn 0x4000 0 240) = .ok 240 (wrtn 0x4000 0 240) ∧ readReg 1 (wrtn 0x4000 0 239) = .ok 0 (wrtn 0x4000 0 239) ∧ Settled (wrtn 0x4000 0 239) ∧
    ∃ b t c u, readBlock 0 0 ⟨4, 4, 4, [8], [0, 1, 2, 3], 19, .read⟩ (wrtn 0x4000 0 239) = .ok b t ∧
      readBlock 0 0 ⟨8, 4, 4, [8], [0, 1, 2, 3], 19, .read⟩ t = .ok c u :=
  ⟨.inr (by decide), rfl, rfl, rfl, noOut rfl, _, _, _, _, rfl, rfl⟩
theorem test_witness_EngineChecksAndTables_image : rtnBad 0x4000 [0b00000000_00000_00000_00001_0_0000000_0] = none ∧
    rtnBad 0x4001 [] = some 0x1FF00004001 ∧ rtnBad 0x1A04000 [] = some 0x2FF01A04000 ∧ rtnBad 0 [] = some 0x3FF00000000 ∧
    rtnBad 0x2204000 [] = some 0x4FF02204000 ∧ rtnBad 0x4000 [0x80000000] = some 0x50080000000 ∧ rtnBad 0x4000 [0x00400000] = some 0x60000400000 ∧
    rtnBad 0x4000 [1] = some 0x70000000001 := by decide +kernel
theorem test_witness_EngineChecksAndTables_words : ¬laneCodeOk 0x80000000 ∧ ¬laneCodeOk 0x16000000 ∧ laneCodeOk 0x04000000 ∧ ¬laneFieldsOk 0x00400000 ∧
    laneFieldsOk 0x00200000 ∧ laneZeroOk 0 ∧ ¬laneZeroOk 1 := by
  simp [laneCodeOk, laneFieldsOk, laneZeroOk]
/-- A `put` from x1 of bank `b` with its counter in x2 and its destination in x3. -/
def wputc (b : Nat) (c d : Word) : State := weng [(1, tl b 4 1024), (2, c), (3, d)]
theorem test_witness_EngineChecksAndTables_put : ∀ t ∈ [tw 0x00 0xF1 0, tw 0x00 0xF0 0], ∀ x ∈ [(0, (-1 : Word), (0x100 : Word)), (0, 8, 2 ^ 60), (0, 8, 0x100), (2, 16, 0x100)],
    cmdWords (.put t) = some t ∧ (wputc x.1 x.2.1 x.2.2).me.migrant = false ∧ EngReg t.d ∧ EngReg t.a ∧ EngReg t.b ∧ ∃ ws s1,
      readAll (cmdReads (.put t)) (wputc x.1 x.2.1 x.2.2) = some (ws, s1) ∧ ws = [tl x.1 4 1024, x.2.1, x.2.2] ∧ TileOk (tl x.1 4 1024) (own s1 (tl x.1 4 1024)) false := by
  intro t ht x hx
  simp only [List.mem_cons, List.not_mem_nil, or_false] at ht hx
  obtain rfl | rfl := ht <;> obtain rfl | rfl | rfl | rfl := hx <;>
    exact ⟨rfl, rfl, by decide, by decide, by decide, _, _, rfl, rfl, by decide +kernel⟩
theorem test_witness_EngineChecksAndTables_put_cases : raw (own (wputc 2 16 0) (tl 2 4 1024)) ∧ ¬raw (own (wputc 0 16 0) (tl 0 4 1024)) ∧
    (2 ^ 60 : Word).extractLsb' 60 4 ≠ (0 : BitVec 4) ∧ (0x100 : Word).extractLsb' 60 4 = (0 : BitVec 4) ∧ ¬((8 : Word).toNat % 16 = 0) ∧ (16 : Word).toNat % 16 = 0 := by
  decide +kernel
theorem test_witness_EngineChecksAndTables_index : ∃ ws s1 w, readAll (cmdReads (.fold (tw 0x24 0xF4 0))) (weng [(1, tl 1 2 4), (2, 0), (3, tl 1 1 1), (4, 0)]) = some (ws, s1) ∧
    want (.fold (tw 0x24 0xF4 0)) s1 ws = some w ∧ indexed (tw 0x24 0xF4 0).h ∧ fb (tw 0x24 0xF4 0) 6 = false ∧ constOk (.fold (tw 0x24 0xF4 0)) ∧
    (∀ x ∈ tileOperands (.fold (tw 0x24 0xF4 0)) ws, TileOk x.2.2.1 (own s1 x.2.2.1) x.2.2.2 ∧ ¬raw (own s1 x.2.2.1)) := by
  refine ⟨_, _, _, rfl, rfl, by decide, by decide, ?_, by decide +kernel⟩
  simp only [constOk]; decide
theorem test_witness_EngineChecksAndTables_restrict_handle : ∃ av dv, rstrOk (weng [(1, tdesc 0 0 5 7 128 31 true), (3, tl 0 3 4)]) (tw 0x00 0xF0 0) av dv ∧
    fb (tw 0x00 0xF0 0) 5 = false ∧ (tw 0x00 0xF0 0).h ≠ 0 := by
  refine ⟨tdesc 0 0 5 7 128 31 true, tl 0 3 4, ?_, by decide, by decide⟩
  repeat' apply And.intro
  all_goals trivial
/-- A command waits at an engine for a context. -/
def wwait (e : Eng) (m used : Nat) : State := (wfull e 0 ⟨some 129, [], 3, 0, 0, used, 0⟩).modEng 8 e fun q => { q with enter := [⟨m, some 0x108, blankCmd .tfill t0, 0⟩] }
theorem test_witness_EngineCommandIssue_waits : ((wwait .vector 130 0).core 8).eng.getD 0 EngSt.init = { EngSt.init with enter := [⟨130, some 0x108, blankCmd .tfill t0, 0⟩] } ∧
    ((wwait .matrix 130 0).lease (quadBase 8)).holder ≠ some 130 ∧ ((wwait .matrix 129 0).lease (quadBase 8)).holder = some 129 ∧
    numberOf .vector < ((wwait .vector 130 0).core 8).eng.size := by decide +kernel

/-- A tile of bank 0 of core 8 with lines of 64 bytes. -/
def tile8 (r c : Nat) (f : BitVec 7) : Tile := ⟨8, 0, 0, r, c, 64, false, false, f, 0⟩
/-- A command that has begun, with its source elements read. -/
def began (op : Op) (d a b : Option Tile) (o : Option Oper) (p : Prog) : Cmd :=
  { blankCmd op t0 with dt := d, at_ := a, bt := b, oper := o, issuer := 129, seq := 1, prog := { p with began := true } }
/-- Progress at the start of a command. -/
def p0 : Prog := Prog.init 1 0
/-- No word of an engine waits where none waits and no fault is pending. -/
theorem posted {s : State} {cid : Nat} {e : Eng} (h : s.held = []) (k : s.ctxs.all (fun x => x.2.pend.isNone) = true) : Posted s cid e :=
  ⟨fun x m => (by rw [h] at m; cases m), fun x m f g => by have := List.all_eq_true.mp k x m; rw [g] at this; cases this⟩
/-- The command is the only one of an engine of core 8. -/
def wrun (e : Eng) (c : Cmd) : State := withQueue (wout []) 8 e [c]
theorem test_witness_EngineCommandsRun_head : ∀ e ∈ [Eng.vector, .copy, .global, .matrix, .pyramid],
    AtHead (wrun e (began .tfill (some (tile8 1 8 0)) none none none p0)) 8 e (began .tfill (some (tile8 1 8 0)) none none none p0) [] := by
  intro e h
  simp only [List.mem_cons, List.not_mem_nil, or_false] at h
  obtain rfl | rfl | rfl | rfl | rfl := h <;> exact ⟨by decide, by decide +kernel, by simp, rfl, fun h => (by cases h), rfl, posted rfl rfl⟩
theorem test_witness_EngineCommandsRun_begin : AtHead (wrun .matrix { blankCmd (.mxdrain 0 0 false false) t0 with grid := 0 }) 8 .matrix
    { blankCmd (.mxdrain 0 0 false false) t0 with grid := 0 } [] ∧ (blankCmd (.mxdrain 0 0 false false) t0).prog.began = false :=
  ⟨⟨by decide, by decide +kernel, by simp, rfl, fun h => (by cases h), rfl, posted rfl rfl⟩, rfl⟩
/-- Bytes at the start of bank 0. -/
def piece0 : Piece := ⟨Config.spadLoc 8 0, none, .plain, [1, 2, 3, 4, 5, 6, 7, 8]⟩
theorem test_witness_EngineCommandsRun_write : memWf (wrun .vector (began .tfill (some (tile8 1 8 0)) none none none p0)).mem = true ∧
    (wrun .vector (began .tfill (some (tile8 1 8 0)) none none none p0)).empties.Pairwise (· < ·) ∧ Config.isSpad piece0.loc = true ∧
    sleeping (wrun .vector (began .tfill (some (tile8 1 8 0)) none none none p0)) piece0.loc = none ∧ piece0.half = none ∧ piece0.page = .plain ∧
    (began .tfill (some (tile8 1 8 0)) none none none { p0 with buf := [⟨[0], [piece0], 0, []⟩] }).prog.buf = [⟨[0], [piece0], 0, []⟩] := by decide +kernel
theorem test_witness_EngineCommandsRun_rows : ∀ op ∈ [Op.tfill, .tcopy, .zip false, .zip true, .outer, .fold false true, .scan false],
    (began op (some (tile8 1 8 0)) (some (tile8 1 8 0)) none none p0).whole = false ∧ 0 < rowsOf (began op (some (tile8 1 8 0)) (some (tile8 1 8 0)) none none p0)
    ∧ (began op (some (tile8 1 8 0)) (some (tile8 1 8 0)) none none p0).sw = false := by decide
theorem test_witness_EngineCommandsRun_by_rows : ByRows (began (.fold false true) (some (tile8 1 1 0)) (some (tile8 1 8 0)) none none p0) :=
  ⟨by decide, .inr (.inr (.inr (.inr (.inr (.inl ⟨true, rfl, rfl⟩)))))⟩
theorem test_witness_EngineCommandsRun_read : (sourcesOf (began .tcopy (some (tile8 1 8 0)) (some (tile8 1 8 0)) none none p0) 0)[7]? =
      some (tile8 1 8 0, 0, 7) ∧ wholeBytes (tile8 1 8 0) ∧ (tile8 1 8 0).fmt.extractLsb' 4 2 = 0 ∧
    sleeping (wrun .copy (began .tcopy (some (tile8 1 8 0)) (some (tile8 1 8 0)) none none p0)) (elemAt (tile8 1 8 0) 0 7) = none :=
  ⟨by decide, .inl (by decide), by decide, by decide +kernel⟩
theorem test_witness_EngineCommandsRun_evaluate : (sourcesOf (began (.zip false) (some (tile8 1 1 0)) (some (tile8 1 1 0)) (some (tile8 1 1 0)) none p0) 0).length = 2 ∧
    (sourcesOf (began (.fold false true) (some (tile8 1 1 0)) (some (tile8 1 2 0)) none none p0) 0).length = 2 ∧
    (sourcesOf (began .tfill (some (tile8 1 1 0)) none none none p0) 0).length = 0 ∧ (tile8 1 2 0).cols ≠ 0 ∧
    (began (.fold false true) (some (tile8 1 1 0)) (some (tile8 1 2 0)) none (some (.builtin 240 0)) p0).pfx = false ∧
    [some (1 : Word), some 2] = [1, 2].map some := by decide
theorem test_witness_EngineCommandsRun_finish : rowsOf (began .tfill (some (tile8 1 8 0)) none none none { p0 with unit := 1 }) ≤ 1 ∧
    ({ p0 with fault := some (0x13, 0) } : Prog).fault ≠ none := by decide
theorem test_witness_EngineCommandsRun_stream : (tile8 2 4 5).fmt = 5 ∧ 1 < (tile8 2 4 5).rows ∧
    ((wrun .matrix (began (.mxstrm 62 true) none (some (tile8 2 4 5)) none none p0)).core 8).mx.active.sp = false ∧
    (∀ x ∈ [PCol.mk 0 [1, 2, 3, 4] [], ⟨255, [1], []⟩], x.w.length ≤ (tile8 2 4 5).cols ∧ x.n < 256) ∧
    ([PCol.mk 0 [1, 2, 3, 4] [], ⟨255, [1], []⟩].map (·.n)).Nodup := by decide +kernel
theorem test_witness_EngineCommandsRun_weights : (tile8 3 3 5).rows * (tile8 3 3 5).cols = 9 ∧ (tile8 3 3 5).fmt = 5 ∧
    (List.replicate 9 (some (1 : Word))) = (List.replicate 9 1).map some := by decide
theorem test_witness_EngineCommandsRun_restrict : 2 < (tile8 3 4 5).rows ∧ (tile8 3 4 5).cmaj = false ∧
    (began (.rstr 7 false 15 0 false) (some (tile8 3 4 5)) (some (tile8 5 7 5)) none none p0).oper = none ∧
    (List.replicate 36 (1 : Word)).length = 9 * (tile8 3 4 5).cols := by decide

/-- The segment of the witnesses' global commands, and one of them: an offset of 16 and a pitch of 32. -/
def gseg : Desc := desc 0x10000 0x200000 0x1B 2
def gcmd (store : Bool) (p : Prog) : Cmd :=
  if store then began (.gst gseg 16 32) none (some (tile8 1 2 0)) none none p else began (.gld gseg 16 32) (some (tile8 1 2 0)) none none none p
theorem test_witness_EngineCommandsRun_heads : ∀ x ∈ [(Eng.global, gcmd false p0), (.global, gcmd true p0),
    (.vector, began .outer (some (tile8 1 2 0)) (some (tile8 1 1 0)) (some (tile8 1 2 0)) (some (.builtin 241 0)) p0),
    (.matrix, began (.mxldst true) none (some (tile8 2 1 7)) (some (tile8 1 48 15)) none { p0 with keep := [0], unit := 1 }),
    (.pyramid, began (.rstr 7 false 15 0 true) (some (tile8 3 4 5)) (some (tile8 5 7 5)) none none p0)], AtHead (wrun x.1 x.2) 8 x.1 x.2 [] := by
  intro e h
  simp only [List.mem_cons, List.not_mem_nil, or_false] at h
  obtain rfl | rfl | rfl | rfl | rfl := h <;> exact ⟨by decide, by decide +kernel, by simp, rfl, fun h => (by cases h), rfl, posted rfl rfl⟩
theorem test_witness_GlobalCommands : dvaOf gseg 16 32 0 = 0x200010 ∧ 0x200010 % 8 = 0 ∧ 0x200010 % 4096 + 8 * 2 ≤ 4096 ∧ (tile8 1 2 0).lineB = 8 * 2 ∧
    lineAt (tile8 1 2 0) 0 % 8 = 0 ∧ 0 < (tile8 1 2 0).lines ∧ Config.isHbm 0x300010 = true ∧ (gcmd true p0).dt = none ∧ (gcmd true p0).sw = false ∧
    sleeping (wrun .global (gcmd true p0)) (lineAt (tile8 1 2 0) 0) = none ∧ ([some 1, some 2] : List (Option Word)) = [1, 2].map some := by decide +kernel
/-- The cluster's port holds the page, or hands over a walk's fault. -/
def wport2 (t : Bool) : State :=
  if t then (wrun .global (gcmd false p0)).modCluster (clKey 8) fun k => { k with ptlb := [⟨0, 1, 0x200000, 12, 0x30002F, false, 0, 0⟩] }
  else { wrun .global (gcmd false p0) with fills := [⟨8, .eng .global, ⟨0, 1, 0x200000, 12, 0x30002F, false, 0, 0⟩, some 0x0A⟩] }
theorem test_witness_GlobalCommands_port : (∃ t, portAccess (wrun .global (gcmd false p0)) (clKey 8) 8 .global 0 false .read 0x200010 = (t, .wait)) ∧
    (∃ t, portAccess (wport2 true) (clKey 8) 8 .global 0 false .read 0x200010 = (t, .at_ 0x300010 ⟨false, some 0⟩)) ∧
    (∃ t, portAccess (wport2 false) (clKey 8) 8 .global 0 false .read 0x200010 = (t, .fault 0x0A)) := ⟨⟨_, rfl⟩, ⟨_, rfl⟩, ⟨_, rfl⟩⟩
theorem test_witness_GlobalCommands_paid : Paid w0 w0 8 .global (gcmd false { p0 with charged := some (0x300010 / 64) }) 0x300010 ∧
    ∃ b, Paid w0 b 8 .global (gcmd false p0) 0x300010 := by
  refine ⟨by simp only [Paid]; decide, ?_⟩
  have h : (match budget w0 (.eng 8 .global) 8 0 0 0x300010 64 with | .ok _ => true | .error _ => false) = true := by decide +kernel
  cases e : budget w0 (.eng 8 .global) 8 0 0 0x300010 64 with
  | ok b => exact ⟨b, e⟩
  | error b => rw [e] at h; cases h

/-- A tile of bank 0 of a format and a scale. -/
def tileS (r c : Nat) (f : BitVec 7) (scale : W32) : Tile := { tile8 r c f with scale := scale }
theorem test_witness_TileCommands_rows : ByRows (began .outer (some (tile8 1 2 0)) (some (tile8 1 1 0)) (some (tile8 1 2 0)) (some (.builtin 241 0)) p0) ∧
    (sourcesOf (began .outer (some (tile8 1 2 0)) (some (tile8 1 1 0)) (some (tile8 1 2 0)) (some (.builtin 241 0)) p0) 0).length = 4 ∧
    (sourcesOf (began (.scan false) (some (tile8 1 2 0)) (some (tile8 1 2 0)) none (some (.builtin 240 0)) p0) 0).length = 2 ∧
    (began (.scan false) (some (tile8 1 2 0)) (some (tile8 1 2 0)) none (some (.builtin 240 0)) p0).av = 0 :=
  ⟨⟨by decide, .inr (.inr (.inr (.inl rfl)))⟩, by decide, by decide, by decide⟩
theorem test_witness_TileCommands_scaled : finite32 0x40000000 ∧ (0x40000000 : W32).setWidth 31 ≠ (0 : BitVec 31) ∧ wholeBytes (tileS 1 2 0b0100101 0) ∧
    (tileS 1 2 0b0100101 0).fmt.extractLsb' 4 2 = 2 ∧ lineAt (tileS 1 2 0b0100101 0) 0 + 16 = elemAt (tileS 1 2 0b0100101 0) 0 0 ∧
    sleeping (wrun .copy (began .tcopy (some (tile8 1 2 5)) (some (tileS 1 2 0b0100101 0)) none none p0)) (elemAt (tileS 1 2 0b0100101 0) 0 0) = none ∧
    (tileS 1 3 12 0).cols = 3 ∧ (tileS 1 2 0b0010101 0x40000000).scale = 0x40000000 :=
  ⟨by simp only [finite32]; decide, by decide, .inl (by decide), by decide, by decide, by decide +kernel, rfl, rfl⟩
theorem test_witness_TileCommands_full_empty : ({ began .tcopy (some (tile8 1 8 0)) (some (tile8 1 8 0)) none none p0 with sw := true }).sw = true ∧
    NoWaiter (wfe true []) (elemAt (tile8 1 8 0) 0 7 / 16) ∧ p0.waited = [] ∧ NoWaiter (wfe true []) (Config.spadLoc 8 0x1010 / 16) ∧
    (wfe true []).empties = [Config.spadLoc 8 0x1010 / 16] ∧ (wfe false []).empties = [] ∧ sleeping (wfe true []) (Config.spadLoc 8 0x1010) = none :=
  ⟨rfl, fun w h => absurd (show w ∈ [] from h) (by simp), rfl, fun w h => absurd (show w ∈ [] from h) (by simp), rfl, rfl, by decide +kernel⟩
theorem test_witness_TileCommands_slot : (slotPiece (Config.spadLoc 8 0x1000) 3 0x1F).half = some true ∧
    Config.isSpad (Config.spadLoc 8 0x1000 + 3 / 2) = true ∧ sleeping w0 (Config.spadLoc 8 0x1000 + 3 / 2) = none := by decide +kernel
theorem test_witness_MatrixAndPyramidCommands : (List.replicate 32 (some (1 : Word))) = (List.replicate 32 1).map some ∧
    (began (.mxldst true) none (some (tile8 2 1 7)) (some (tile8 1 48 15)) none { p0 with keep := [0], unit := 1 }).prog.keep.length = 1 ∧
    (List.replicate 18 (1 : Word)).length = 16 * 1 + 2 * 1 ∧ (1 : Word).extractLsb' 7 8 ≠ (0xFF : BitVec 8) ∧
    (tile8 1 2 5).fmt = 5 ∧ (tile8 1 2 5).cmaj = false ∧ (began (.mxdrain 0 0 true true) (some (tile8 1 2 5)) none (some (tile8 1 2 5))
      (some (.builtin 240 5)) p0).pfx = false := by decide
theorem test_witness_MatrixAndPyramidCommands_prol : (coarsePlaces false 0 1).map (·.1) = [3, 5] ∧ coarsePlaces true 0 1 ≠ [] ∧
    ({ blankCmd (.prol 0 false 15 true false) t0 with dts := [tile8 5 7 5], at_ := some (tile8 3 4 5) }).dt = none := by decide
theorem test_witness_MatrixAndPyramidCommands_drain : Config.isSpad (Config.spadLoc 8 0) = true ∧ sleeping w0 (Config.spadLoc 8 0) = none ∧
    (⟨[1], [piece0], 0, []⟩ : OutEnt).pieces = [piece0] := by decide +kernel

/-- The hypotheses of a row of outputs of one format with an operator. -/
def RowReady (e : Eng) (op : Op) (d : Tile) (a b : Option Tile) (o : Oper) (k : Nat) (l : List (Option Word)) : Prop :=
  let c := began op (some d) a b (some o) { p0 with reads := l }
  AtHead (wrun e c) 8 e c [] ∧ Working c ∧ ByRows c ∧ c.prog.unit < rowsOf c ∧ c.prog.reads.length = (sourcesOf c c.prog.unit).length ∧ k < 12 ∧
    d.fmt = BitVec.ofNat 7 k ∧ ¬indexed (BitVec.ofNat 8 o.handle)
theorem test_witness_OperatorsAndFaults_rows : RowReady .vector (.zip false) (tile8 1 2 0) (some (tile8 1 2 0)) (some (tile8 1 2 0)) (.builtin 240 0) 0 [some 1, none, some 3, some 4] ∧
    RowReady .vector .outer (tile8 1 2 5) (some (tile8 1 1 5)) (some (tile8 1 2 5)) (.builtin 241 5) 5 [some 1, some 2, some 1, some 3] ∧
    RowReady .copy .tcopy (tile8 1 2 0) (some (tile8 1 2 0)) none (.builtin 240 0) 0 [some 1, none] ∧
    RowReady .copy .tfill (tile8 1 2 0) none none (.builtin 240 0) 0 [] ∧
    RowReady .vector (.fold false true) (tile8 1 1 0) (some (tile8 1 2 0)) none (.builtin 240 0) 0 [some 1, none] ∧
    RowReady .vector (.scan false) (tile8 1 2 0) (some (tile8 1 2 0)) none (.builtin 240 0) 0 [some 1, some 2] := by
  refine ⟨⟨?_, ⟨rfl, rfl, rfl⟩, ⟨rfl, .inr (.inr (.inl ⟨false, rfl⟩))⟩, by decide, by decide, by decide, rfl, by decide⟩,
    ⟨?_, ⟨rfl, rfl, rfl⟩, ⟨rfl, .inr (.inr (.inr (.inl rfl)))⟩, by decide, by decide, by decide, rfl, by decide⟩,
    ⟨?_, ⟨rfl, rfl, rfl⟩, ⟨rfl, .inl rfl⟩, by decide, by decide, by decide, rfl, by decide⟩,
    ⟨?_, ⟨rfl, rfl, rfl⟩, ⟨rfl, .inr (.inr (.inr (.inr (.inl rfl))))⟩, by decide, by decide, by decide, rfl, by decide⟩,
    ⟨?_, ⟨rfl, rfl, rfl⟩, ⟨rfl, .inr (.inr (.inr (.inr (.inr (.inl ⟨true, rfl, rfl⟩)))))⟩, by decide, by decide, by decide, rfl, by decide⟩,
    ⟨?_, ⟨rfl, rfl, rfl⟩, ⟨rfl, .inr (.inr (.inr (.inr (.inr (.inr ⟨false, rfl, rfl⟩)))))⟩, by decide, by decide, by decide, rfl, by decide⟩⟩ <;>
    exact ⟨by decide, by decide +kernel, by simp, rfl, fun h => (by cases h), rfl, posted rfl rfl⟩
/-- `i64` addition, and an `f32` product that faults with an enabled exception. -/
def addFun : OpFun := fun l r _ => .ok ((wrapImage false (opS false (BitVec.ofNat 64 l) + opS false (BitVec.ofNat 64 r))).toNat, 0)
def mulFun (te : BitVec 5) : OpFun := fun l r _ => let x := fMul 5 rne (decodeF 5 l) (decodeF 5 r); if x.2.extractLsb' 1 5 &&& te = 0 then .ok x else .error 0
theorem test_witness_OperatorsAndFaults_operators : ∀ te, IsFun (.builtin 240 0) ⟨rne, te, true⟩ 0 0 addFun ∧ IsFun (.builtin 241 5) ⟨rne, te, true⟩ 0 5 (mulFun te) := by
  refine fun te => ⟨⟨rfl, rfl, fun l r i st g => ?_⟩, ⟨rfl, rfl, fun l r i st g => ?_⟩⟩
  · simp [Oper.apply, addFun, CmdEnv.check, builtinOp, intOper, fmtKind, rne, saturate, opSat]
  · show (if (fMul 5 rne (decodeF 5 l) (decodeF 5 r)).2.extractLsb' 1 5 &&& te = 0 then (Except.ok (fMul 5 rne (decodeF 5 l) (decodeF 5 r)) : Except EFault Bits)
      else .error ⟨0x0D, 0, true, none⟩) = _
    simp only [mulFun]
    split <;> rfl
theorem test_witness_OperatorsAndFaults_folds : foldOf addFun 1 none [(5, 0), (7, 1), (9, 2)] = some (.ok 21) ∧ foldOf addFun 0 (some 1) [(5, 0)] = some (.ok 6) ∧
    foldOf (mulFun 0x1F) 1 none [(0x7F800000, 0), (0, 1)] = some (.error 0) ∧
    scanOf (fun l r _ => l + r) 1 (some 1) [(5, 0), (7, 1)] = [6, 13] := ⟨by rfl, rfl, rfl, by rfl⟩
/-- A body that adds lane registers 0 and 1 into register 0. -/
theorem test_witness_OperatorsAndFaults_lane : (∀ w ∈ [(512 : W32)], laneCodeOk w ∧ laneFieldsOk w ∧ laneZeroOk w) ∧
    laneRun ⟨1, false, 0, false, 0⟩ 0 0 [512] (laneStart (regImage 0 5) (regImage 0 7) 0 0) 0 = some (.ok (12, 0)) := by
  refine ⟨?_, by rfl⟩
  simp [laneCodeOk, laneFieldsOk, laneZeroOk]
theorem test_witness_OperatorsAndFaults_matrix : ∀ x ∈ [began (.mxdrain 0 0 true true) (some (tile8 1 2 5)) none (some (tile8 1 2 5)) (some (.builtin 240 5)) { p0 with reads := [some 1, none] },
    began (.mxstrm 0 true) none (some (tile8 1 2 5)) none none { p0 with reads := [some 1, none] },
    began (.mxldst true) none (some (tile8 2 1 7)) (some (tile8 1 48 15)) none { p0 with reads := none :: List.replicate 31 (some 0) }],
    AtHead (wrun .matrix x) 8 .matrix x [] ∧ Working x ∧ none ∈ x.prog.reads := by
  intro x h
  simp only [List.mem_cons, List.not_mem_nil, or_false] at h
  obtain rfl | rfl | rfl := h <;>
    exact ⟨⟨by decide, by decide +kernel, by simp, rfl, fun h => (by cases h), rfl, posted rfl rfl⟩, ⟨rfl, rfl, rfl⟩, by decide⟩
/-- A row-scaled bank's tile, an output of which waits for its row's header. -/
def late0 (fe : BitVec 2) : Cmd :=
  let d := tileS 1 2 0b0100101 0
  { began .tcopy (some d) (some (tile8 1 2 5)) none none { p0 with unit := 1, buf := [⟨[1], [⟨lineAt d 0 + 20, none, .plain, [0, 0, 0, 0]⟩], 0, [⟨d, 1, 0, 1, 5, 0x40400000, 0, 0⟩]⟩] } with
    fe := fe, rnd := 1 }
theorem test_witness_TileCommands_late : AtHead (wrun .copy (late0 1)) 8 .copy (late0 1) [] ∧ ByRows (late0 1) ∧
    (let h := lineAt (tileS 1 2 0b0100101 0) 0
     Config.isSpad (h + 20) = true ∧ ¬Poisoned (wrun .copy (late0 1)) h 4 ∧ Poisoned { wrun .copy (late0 1) with poison := [h / 8] } h 4 ∧
     finite32 0x40400000 ∧ finite32 (BitVec.ofNat 32 (valueAt ((wrun .copy (late0 1)).wr h 4 0x40000000) h 4)) ∧
     valueAt ((wrun .copy (late0 1)).wr h 4 0x40000000) h 4 % 2 ^ 31 ≠ 0 ∧ sleeping (wrun .copy (late0 1)) (h + 20) = none) := by
  refine ⟨⟨by decide, by decide +kernel, by simp, rfl, fun h => (by cases h), rfl, posted rfl rfl⟩, ⟨rfl, .inl rfl⟩, (by decide +kernel), (fun ⟨_, h, _⟩ => (by cases h)),
    ⟨_, List.mem_cons_self, lineAt (tileS 1 2 0b0100101 0) 0, by decide, by decide, by decide, by decide⟩, ?_, ?_, by decide +kernel, by decide +kernel⟩ <;>
    simp only [finite32] <;> decide +kernel

/-! ### The end of a command -/

/-- A command that is over, with or without a fault. -/
def over0 (f : Option (BitVec 8 × Word)) (cm : Bool) : Cmd := { began .tfill none none none none { p0 with done := true, fault := f } with cm := cm }
theorem test_witness_EngineCommandsEnd_complete : queueOf (wrun .vector (over0 none true)) 8 .vector = [over0 none true] ∧
    (over0 none true).prog.done = true ∧ Posted (wrun .vector (over0 none true)) 8 .vector ∧
    CanPost (wrun .vector (over0 none true)) 129 ∧ isolated (wrun .vector (over0 none true)) 8 = false ∧
    ((wrun .vector (over0 none true)).core 8).eng.getD 0 EngSt.init = { EngSt.init with queue := [over0 none true] } ∧
    ((wrun .vector (over0 none true)).ctx 129).gen = (over0 none true).gen :=
  ⟨by decide +kernel, rfl, posted rfl rfl, ⟨by decide, by decide⟩, by decide, by decide +kernel, by decide⟩
theorem test_witness_EngineCommandsEnd_enters : (((wrun .vector (over0 none true)).modEng 8 .vector fun q =>
    { q with enter := [⟨130, some 0x108, blankCmd .tfill t0, 0⟩] }).core 8).eng.getD 0 EngSt.init =
      { EngSt.init with queue := [over0 none true], enter := [⟨130, some 0x108, blankCmd .tfill t0, 0⟩] } ∧
    ¬CanPost { wrun .vector (over0 none true) with net := List.replicate 64 ⟨143, 129, true, 0, 0, 0, 0, false⟩ } 129 :=
  ⟨by decide +kernel, fun h => absurd h.1 (by decide +kernel)⟩
theorem test_witness_EngineCommandsEnd_fault : queueOf (wrun .vector (over0 (some (0x13, 5)) false)) 8 .vector = [over0 (some (0x13, 5)) false] ∧
    ((wrun .vector (over0 (some (0x13, 5)) false)).ctx 129).pend = none ∧ endOf (over0 (some (0x13, 5)) false) = (true, 0x13) := by decide +kernel
theorem test_witness_EngineCommandsEnd_cancelled : ((blankCmd .tfill t0).prog.began = false) ∧
    queueOf (wrun .vector { blankCmd .tfill t0 with cancelled := true, gen := 1 }) 8 .vector = [{ blankCmd .tfill t0 with cancelled := true, gen := 1 }] ∧
    ((wrun .vector { blankCmd .tfill t0 with cancelled := true, gen := 1 }).ctx 0).gen ≠ 1 := by decide +kernel
/-- A fault of an engine command waits for the witnesses' context. -/
def wpend (r : Run) (l : List Acc) : State := (wout l).modMe fun c => { c with pend := some ⟨⟨0x13, 5⟩, 9, some 3, .engine 8 .vector⟩, run := r }
theorem test_witness_EngineCommandsEnd_deliver : ((wpend .running []).ctx 129).pend = some ⟨⟨0x13, 5⟩, 9, some 3, .engine 8 .vector⟩ ∧ memWf (wpend .running []).mem = true ∧
    (wpend .running []).feq = [] ∧ ((wpend .running []).ctx 129).run = .running ∧ ((wpend .running []).ctx 129).away = none ∧
    ((wpend .running []).ctx 129).out = [] ∧ ((wpend (.stopped .save) []).ctx 129).run ≠ .running ∧
    ((wpend .running [acc (.store 5) 8 false]).ctx 129).out = [acc (.store 5) 8 false] := by decide +kernel
theorem test_witness_EngineCommandsEnd_waits : ∃ a ∈ ((wpend .running [acc (.load true 24) 8 false]).ctx 129).out, a.rlx = false ∧ ∀ v, a.kind ≠ .store v :=
  ⟨_, List.mem_cons_self, rfl, fun _ h => by cases h⟩
/-- A restrict of child `k` whose mask names children 0 and 3. -/
def wpart (k : Nat) : Machine.Part :=
  ⟨k, 8 + k, began (.rstr 0 false 9 1 true) (some (tile8 1 2 5)) none none none p0, [1, 2]⟩
/-- Slot 0 of the parent of core 8, and the command of its governing child. -/
def wslot (l : List Machine.Part) (g : Option Nat) : State :=
  { withQueue w0 8 .pyramid [(wpart 0).cmd] with rinst := [(4 * parentOf 8, { RInst.init with parts := l, gov := g })] }
theorem test_witness_EngineCommandsEnd_combine : (slotOf (wslot [wpart 0, wpart 3] none) (parentOf 8) 0).parts = [wpart 0, wpart 3] ∧
    restrictOf (wpart 0) = some (false, 9, 1, tile8 1 2 5) ∧ ([wpart 0, wpart 3].map (·.child)).Pairwise (· < ·) ∧
    (∀ k, k < 4 → (9 : BitVec 4).getLsbD k = true → ∃ p ∈ [wpart 0, wpart 3], p.child = k) ∧ (wpart 3).parts.length = 1 * 2 ∧
    (9 : BitVec 4).getLsbD 3 = true ∧ (wpart 0).cmd.oper = none ∧ agreesWith 9 1 (tile8 1 2 5) (wpart 3) = true ∧
    agreesWith 9 0 (tile8 1 2 5) (wpart 3) = false ∧ ([wpart 0, wpart 3].map (·.cid)).Nodup := by decide +kernel
theorem test_witness_EngineCommandsEnd_governs : lowestIn 0 9 ∧ ¬lowestIn 3 9 := by
  refine ⟨⟨by decide, by decide, fun j h => absurd h (by omega)⟩, fun h => absurd (h.2.2 0 (by decide)) (by decide)⟩
theorem test_witness_EngineCommandsEnd_head : AtHead (wslot [wpart 0] (some 0)) 8 .pyramid (wpart 0).cmd [] ∧
    (slotOf (wslot [wpart 0] (some 0)) (parentOf 8) 0).gov = some 0 ∧ (slotOf (wslot [wpart 0] (some 0)) (parentOf 8) 0).parts = [wpart 0] ∧
    (∃ k, k < 4 ∧ (9 : BitVec 4).getLsbD k = true ∧ ∀ p ∈ [wpart 0], p.child ≠ k) ∧ (wpart 0).cmd.prog.began = true :=
  ⟨⟨by decide, by decide +kernel, by simp, rfl, fun h => (by cases h), rfl, posted rfl rfl⟩, by decide +kernel, by decide +kernel, ⟨3, by decide⟩, rfl⟩
/-- The holder's command waits behind a former holder's at the matrix array. -/
def wformer : State := ((wrun .matrix { over0 none true with op := .mxswap }).modEng 8 .matrix fun q =>
    { q with enter := [⟨130, some 0x108, blankCmd .mxswap t0, 0⟩, ⟨129, some 0x108, blankCmd .mxswap t0, 0⟩] }).modLease (quadBase 8) fun l => { l with holder := some 129, used := 62 }
theorem test_witness_EngineCommandsEnd_former : queueOf wformer 8 .matrix = [{ over0 none true with op := .mxswap }] ∧ (wformer.lease (quadBase 8)).holder = some 129 ∧
    (wformer.lease (quadBase 8)).used + 1 < 64 ∧ ((wformer.core 8).eng.getD 3 EngSt.init).enter =
      [⟨130, some 0x108, blankCmd .mxswap t0, 0⟩, ⟨129, some 0x108, blankCmd .mxswap t0, 0⟩] ∧ isolated wformer 8 = false ∧ Posted wformer 8 .matrix :=
  ⟨by decide +kernel, by decide, by decide, by decide +kernel, by decide, posted rfl rfl⟩
theorem test_witness_EngineCommandsEnd_waiting : ((wpend .running [acc (.load true 24) 8 false]).modCtx 129 fun c => { c with wait := some ⟨.fullWrite, 0, 0, 0, 0⟩ }).me.wait.map (·.kind) =
      some .fullWrite ∧ ((wpend .running [acc (.load true 24) 8 false]).ctx 129).away = none := by decide
/-- A participant that has read its `f32` words. -/
def wready (k : Nat) : Machine.Part :=
  { wpart k with cmd := began (.rstr 0 false 9 1 true) (some (tile8 1 2 5)) (some (tile8 3 5 5)) none none { p0 with words := List.replicate 18 (some 1) } }
theorem test_witness_EngineCommandsEnd_delivers : ∀ k ∈ [0, 3], Delivers (tile8 1 2 5) (wready k) ∧ agreesWith 9 1 (tile8 1 2 5) (wready k) = true ∧
    (wready k).agrees (wready 0) = true ∧ (wready k).cmd.dt ≠ none ∧ (wready k).cmd.at_ ≠ none ∧ (wready k).cmd.oper = none := by
  intro k h
  simp only [List.mem_cons, List.not_mem_nil, or_false] at h
  obtain rfl | rfl := h <;> exact ⟨⟨rfl, by decide, rfl, rfl, rfl, _, rfl, rfl⟩, by decide, by decide, by decide, by decide, rfl⟩

/-! ### Puts, counter blocks, armed puts and watches -/

/-- Page tables that map each address of the first GiB of partition 0 to itself: a table at 0 and a leaf of 1 GiB at 0x1000. -/
def mapped (s : State) : State := (s.wr 0 8 0x1001).wr 0x1000 8 0x2F
/-- An arm record whose line has `lineB` bytes. -/
def armRec (lineB : Nat) : List Byte :=
  [0x5000, lineB + 2 ^ 16, 0x7000, 2 ^ 64 - 1, 0x6000, 2, 2 ^ 64 - 1, 0x7000000].flatMap (leBytes 8)
/-- The record in the scratchpad of the core, `l` armed puts there; x1 = 0 and segment 0 covers it. -/
def warm (lineB : Nat) (l : List ArmPut) : State :=
  ((wc fun c => { (c.setReg 1 0) with seg := c.seg.setIfInBounds 0 (desc 64 0x1000 0x1B 0) }).putBytes (Config.spadLoc 8 0x1000) (armRec lineB)).modCore 8
    fun k => { k with armput := l }
/-- A computation that ends with a value, seen by evaluating it. -/
theorem gives {α : Type} [DecidableEq α] {m : M α} {s : State} {v : α} (h : (match m s with | .ok a _ => decide (a = v) | .error .. => false) = true) :
    ∃ t, m s = .ok v t := by
  cases e : m s with
  | ok a u => rw [e] at h; exact ⟨u, by rw [of_decide_eq_true h]⟩
  | error x u => rw [e] at h; cases h
theorem test_witness_PutsAndCounters_arm : readReg 1 (warm 16 []) = .ok 0 (warm 16 []) ∧ Settled (warm 16 []) ∧
    (∃ t, readBlock 0 0 ⟨64, 16, 16, [8], [0, 1, 2, 3], 21, .read⟩ (warm 16 []) = .ok (armRec 16) t) ∧
    (∃ t, readBlock 0 0 ⟨64, 16, 16, [8], [0, 1, 2, 3], 21, .read⟩ (warm 0 []) = .ok (armRec 0) t) ∧ (warm 16 []).me.awaits 3 = false :=
  ⟨rfl, noOut rfl, gives (by decide +kernel), gives (by decide +kernel), rfl⟩
theorem test_witness_PutsAndCounters_record : ∀ k, armFieldOk (armRec 16) k := by
  intro k
  by_cases h : k ∈ [0, 8, 16, 24, 32, 40, 56]
  · revert k
    simp only [armFieldOk, ctrField]
    decide +kernel
  · simp only [List.mem_cons, List.not_mem_nil, or_false, not_or] at h
    simp [armFieldOk, h]
/-- The same record in a state whose counter at 0x6000 has a count of 2, or of 1. -/
def wdue (n : Nat) : State := (mapped w0).wr 0x6000 8 n
theorem test_witness_PutsAndCounters_due : DueAtOnce (wdue 2) 0 false (armRec 16) ∧ ¬DueAtOnce (wdue 1) 0 false (armRec 16) ∧
    queueOf (wdue 2) 8 .link = [] ∧ (((wdue 2).core 8).eng.getD 5 EngSt.init).enter = [] := by
  have a : (dwordOf (armRec 16) 32).toNat = 0x6000 := by decide +kernel
  have e : walkPa (wdue 1) 0 false .write 0x6000 = .ok (0x6000, ⟨false, some 0⟩) := by decide +kernel
  refine ⟨.inl ⟨0x6000, _, (⟨by rw [a]; decide +kernel, fun ⟨_, h, _⟩ => by cases h⟩ : CounterAt _ _ _ _ _ ⟨false, some 0⟩), by decide +kernel⟩, ?_, by decide +kernel, by decide +kernel⟩
  rintro (⟨pa, r, ⟨h, -⟩, k⟩ | h)
  · rw [a, e] at h
    obtain ⟨rfl, rfl⟩ := Prod.mk.inj (Except.ok.inj h)
    exact absurd k (by decide +kernel)
  · exact absurd h.1 (by decide +kernel)
theorem test_witness_PutsAndCounters_field : ¬armFieldOk (armRec 0) 8 ∧ armFieldOk (armRec 0) 0 := by
  simp only [armFieldOk, ctrField]
  decide +kernel
/-- An armed put with a local counter at 0x6000. -/
def arm0 (n : Nat) (thresh : Nat) (dl : Option Nat) (rs : Bool) : ArmPut :=
  ⟨n, 0, 129, 0, 0, 0x5000, 16, 1, 0, 0x7000, none, 0x6000, thresh, dl, 0, 0, false, false, rs⟩
theorem test_witness_PutsAndCounters_numbers : (∀ n, n < 16 → ∃ a ∈ (List.range 16).map fun n => arm0 n 0 none false, a.num = n) ∧
    (∃ n, n < 16 ∧ ∀ a ∈ (List.range 15).map fun n => arm0 n 0 none false, a.num ≠ n) := ⟨by decide, ⟨15, by decide⟩⟩
/-- The device with a mapped partition, a counter block at 0x6000 with a count of 2 and a step of 5, an armed put. -/
def wfire (thresh : Nat) (dl : Option Nat) (rs : Bool) : State :=
  ((mapped w0).wr 0x6000 8 (5 * 2 ^ 48 + 2)).modCore 8 fun k => { k with armput := [arm0 0 thresh dl rs] }
theorem test_witness_PutsAndCounters_fire : ∀ rs, CounterAt (wfire 2 none rs) 0 ((wfire 2 none rs).ctx 129).sec 0x6000 0x6000 ⟨false, some 0⟩ ∧
    memWf (wfire 2 none rs).mem = true ∧ countAt (wfire 2 none rs) 0x6000 ⟨false, some 0⟩ = 2 ∧ ((wfire 2 none rs).core 8).armput = [arm0 0 2 none rs] ∧
    countAt (wfire 3 (some 0) rs) 0x6000 ⟨false, some 0⟩ = 2 ∧ (wfire 3 (some 0) rs).gtime = 0 := by
  intro rs
  cases rs <;> exact ⟨⟨by decide +kernel, fun ⟨_, h, _⟩ => by cases h⟩, by decide +kernel, by decide +kernel, by decide +kernel, by decide +kernel, rfl⟩
/-- A watch is asked for on the block at 0x6000 with `n` watches at its channel core; x1 = 0x1000 in segment 2, x2 the threshold. -/
def wwatch (n thresh : Nat) : State :=
  ((mapped (wc fun c => { ((c.setReg 1 0).setReg 2 (BitVec.ofNat 64 thresh)) with seg := c.seg.setIfInBounds 2 (desc 16 0x6000 0x1B 2) })).wr 0x6000 8 2).modCore 8
    (fun k => { k with utlb := [⟨0, 1, 0, 30, 0x2F, false, 0, 0⟩] }) |>.modCore 1560 fun k => { k with watches := (List.range n).map fun n => ⟨n, 0x9000, .plain, 1, 129⟩ }
theorem test_witness_PutsAndCounters_watch : ∃ p s3 s4 s5, readReg 1 (wwatch 63 3) = .ok 0 (wwatch 63 3) ∧ readReg 2 (wwatch 63 3) = .ok 3 (wwatch 63 3) ∧
    checkAccess 2 0 ⟨16, 16, [8], [2], 22, .read⟩ false (wwatch 63 3) = .ok p s3 ∧ atPiece p s3 = .ok () s5 ∧
    payBlock [p] s5 = .ok () s4 ∧ Config.isHbm p.home.loc = true ∧ p.home.loc = 0x6000 ∧ channelCore s4.minimal (paChannel s4.minimal 0x6000) = 1560 ∧ (s4.core 1560).watches.length = 63 ∧ countAt s4 0x6000 ⟨false, some 0⟩ = 2 ∧
    s4.me.awaits 3 = false :=
  ⟨_, _, _, _, rfl, rfl, rfl, rfl, rfl, by decide +kernel, by decide +kernel, by decide +kernel, by decide +kernel, by decide +kernel, by decide +kernel⟩
theorem test_witness_PutsAndCounters_watches : (∀ n, n < 64 → ∃ w ∈ ((wwatch 64 2).core 1560).watches, w.num = n) ∧
    (∃ n, n < 64 ∧ ∀ w ∈ ((wwatch 63 2).core 1560).watches, w.num ≠ n) ∧ (∀ w ∈ ((wwatch 63 2).core 1560).watches, w.pa ≠ 0x6000) :=
  ⟨by decide +kernel, ⟨63, by decide +kernel⟩, by decide +kernel⟩
/-- A put of one line of 8 bytes from core 8 to DVA 0x5000, its command at the head of the link engine's queue. -/
def put0 (h : BitVec 8) (ctr : Option Nat) (tag : BitVec 16) : InPut := ⟨0, 129, 0, 0x5000, ctr, h, tag, true, 5, 0, 8, [[1, 0, 0, 0, 2, 0, 0, 0]]⟩
def wput (dev : Nat) (p : InPut) (judged : Bool) (pos : Nat) : State :=
  { withQueue ((mapped w0).wr 0x6000 8 (5 * 2 ^ 48 + 2)) 8 .link [began .tfill none none none none p0] with
    puts := [⟨some 8, dev, p, false, false, judged, pos, 3⟩] }
theorem test_witness_PutsAndCounters_runs : Runs (wput 0 (put0 0 none 0) false 0) ⟨some 8, 0, put0 0 none 0, false, false, false, 0, 3⟩
    (began .tfill none none none none p0) := ⟨8, rfl, by decide +kernel, rfl, rfl⟩
theorem test_witness_PutsAndCounters_write : (wput 0 (put0 0 none 0) false 0).puts[0]? = some ⟨some 8, 0, put0 0 none 0, false, false, false, 0, 3⟩ ∧
    (∃ x ∈ [Propag.mk none 0 (some 8) (some 3) none 0x5000 [1]], x.put = some 3) ∧
    memWf (wput 0 (put0 0 none 0) false 0).mem = true ∧ (wput 0 (put0 0 none 0) false 0).devNum = 0 ∧
    0 < (put0 0 none 0).data.length * ((put0 0 none 0).lineB / 8) ∧ walkPa (wput 0 (put0 0 none 0) false 0) 0 false .write 0x5000 = .ok (0x5000, ⟨false, some 0⟩) ∧
    ((put0 0 none 0).data.getD 0 []).length = 8 ∧ 1 = (put0 0 none 0).data.length * ((put0 0 none 0).lineB / 8) := by decide +kernel
theorem test_witness_PutsAndCounters_reduce : walkPa (wput 0 (put0 240 none 0) true 1) 0 false .write 0x5004 = .ok (0x5004, ⟨false, some 0⟩) ∧
    1 < (put0 240 none 0).data.length * ((put0 240 none 0).lineB / 4) ∧ (wput 0 (put0 240 none 0) true 1).poison = [] ∧
    (wput 1 (put0 240 none 0) false 0).devNum ≠ 1 := by decide +kernel
theorem test_witness_PutsAndCounters_late : ∀ tag : BitVec 16, tag = 4 ∨ tag = 5 + 32769 →
    CounterAt (wput 0 (put0 240 (some 0x6000) tag) false 0) 0 false 0x6000 0x6000 ⟨false, some 0⟩ ∧
    1 ≤ (stepAt (wput 0 (put0 240 (some 0x6000) tag) false 0) 0x6000 ⟨false, some 0⟩ + 2 ^ 16 - tag.toNat) % 2 ^ 16 ∧
    (stepAt (wput 0 (put0 240 (some 0x6000) tag) false 0) 0x6000 ⟨false, some 0⟩ + 2 ^ 16 - tag.toNat) % 2 ^ 16 ≤ 32767 := by
  intro tag h
  obtain rfl | rfl := h <;> exact ⟨⟨by decide +kernel, fun ⟨_, h, _⟩ => by cases h⟩, by decide +kernel, by decide +kernel⟩
theorem test_witness_PutsAndCounters_increment : (∀ w ∈ ((wput 0 (put0 0 (some 0x6000) 0) true 1).core 1560).watches, w.pa ≠ 0x6000) ∧
    channelCore false (paChannel false 0x6000) = 1560 ∧ (∀ x ∈ (wput 0 (put0 0 (some 0x6000) 0) true 1).cores, x.2.armput = []) ∧
    (wput 0 (put0 0 (some 0x6000) 0) true 1).props = [] := by decide +kernel
theorem test_witness_PutsAndCounters_own_key : OwnKey (wfire 2 none true) 0x6000 ⟨false, some 0⟩ ∧
    (8 : Nat) ≤ (queueOf (wfull .link 8 Lease.init) 8 .link).length ∧ Poisoned { wwatch 0 3 with poison := [0x6000 / 8] } 0x6000 8 :=
  ⟨(fun _ _ _ h => (by cases h)), by decide +kernel, ⟨_, List.mem_cons_self, 0x6000, by decide, by decide, by decide, by decide⟩⟩

/-! ### Launches, the front door and the host -/

/-- A launch record of a class: hint core 8, no counter, `items` items (Table 19.2). -/
def recW (cls items : Nat) : List Word :=
  [BitVec.ofNat 64 (2 ^ 16 + cls * 2 ^ 4), 0x40, 7, BitVec.ofNat 64 items, -1, 9, -1, 0]
/-- Partition 0 owns column 0 and every block's world is not secure. -/
def wowned (s : State) : State := s.modPart 0 fun q => { q with cols := 1, shcap := 1 }
/-- A launch in the store. -/
def ln0 (seq : Nat) (cls : BitVec 2) (dl : Option Nat) (next items : Nat) (pool : Bool) : Launch :=
  ⟨seq, 0, 0, cls, false, false, 8, 0, 0x40, 7, items, dl, 9, -1, next, [], 0, pool, true⟩
/-- The record in the scratchpad of the core under segment 0; x1 = 0; `n` launches of the partition hold reserved entries. -/
def wlnch (r : List Word) (n : Nat) : State :=
  { wowned ((wc fun c => { (c.setReg 1 0) with seg := c.seg.setIfInBounds 0 (desc 64 0x1000 0x1B 0) }).putBytes (Config.spadLoc 8 0x1000)
      (r.flatMap fun w => leBytes 8 w.toNat)) with store := (List.range n).map fun k => ln0 k 1 none 0 1 false }
/-- A computation that ends with a value and a state of a kind, seen by evaluating it. -/
theorem holds {α : Type} {m : M α} {s : State} (p : α → State → Bool) (h : (match m s with | .ok a t => p a t | .error .. => false) = true) :
    ∃ a t, m s = .ok a t ∧ p a t = true := by
  cases e : m s with
  | ok a t => rw [e] at h; exact ⟨a, t, rfl, h⟩
  | error x t => rw [e] at h; cases h
theorem test_witness_LaunchesRun_record : readReg 1 (wlnch (recW 1 1) 0) = .ok 0 (wlnch (recW 1 1) 0) ∧ Settled (wlnch (recW 1 1) 0) ∧
    ∃ f t, readBlock 0 0 ⟨64, 16, 16, [8], [0, 1, 2, 3], 20, .read⟩ (wlnch (recW 1 1) 0) = .ok f t ∧
      decide ((List.range 8).map (fun i => dwordOf f (8 * i)) = recW 1 1 ∧ t.me.awaits 3 = false ∧ t.me.out = []) = true :=
  ⟨rfl, noOut rfl, holds _ (by decide +kernel)⟩
theorem test_witness_LaunchesRun_valid : ¬RecordBad (wlnch (recW 1 1) 0) 0 false (recW 1 1) ∧ RecordBad (wlnch (recW 1 0) 0) 0 false (recW 1 0) := by
  simp only [RecordBad, TaskOk]; decide +kernel
theorem test_witness_LaunchesRun_entries : entryFor (wlnch (recW 1 1) 175) 0 1 = some false ∧ entryFor (wlnch (recW 1 1) 176) 0 1 = some true ∧
    entryFor (wlnch (recW 0 1) 191) 0 0 = some false ∧ entryFor ((wlnch (recW 1 1) 176).modPart 0 fun q => { q with shcap := 0 }) 0 1 = none := by
  decide +kernel
/-- Two launches, the second of which can emit; slot 0 of the dispatcher is partition 0's where asked. -/
def wemit (l : List Launch) (slots : Nat) : State := { (wowned w0).modPart 0 (fun q => { q with c0slots := slots }) with store := l }
theorem test_witness_LaunchesRun_chosen : Chosen (wemit [ln0 0 1 none 1 1 false, ln0 1 0 none 0 1 false] 1) 0 (ln0 1 0 none 0 1 false) := by
  refine ⟨by simp [wemit], ⟨.inr (by decide), by decide⟩, .inl ⟨by decide +kernel, ?_⟩⟩
  intro x hx he _
  simp only [wemit, List.mem_cons, List.not_mem_nil, or_false] at hx
  obtain rfl | rfl := hx
  · exact absurd he.1 (by decide)
  · exact .inl rfl
theorem test_witness_LaunchesRun_by_order : Chosen (wemit [ln0 0 1 none 0 1 false, ln0 1 1 (some 5) 0 1 false] 0) 0 (ln0 1 1 (some 5) 0 1 false) := by
  refine ⟨by simp [wemit], ⟨.inr (by decide), by decide⟩, .inr ⟨?_, ?_⟩⟩
  · intro x _ _ h
    exact absurd h.1 (by rw [show (List.range 16).find? _ = none from by decide +kernel]; simp)
  · intro x hx _
    simp only [wemit, List.mem_cons, List.not_mem_nil, or_false] at hx
    obtain rfl | rfl := hx
    · exact .inr (.inr ⟨rfl, .inl ⟨5, rfl, .inl rfl⟩⟩)
    · exact .inl rfl
theorem test_witness_LaunchesRun_slots : ((wemit [ln0 0 1 none 0 1 false, ln0 1 1 (some 5) 0 1 false] 0).store.map (·.seq)).Nodup ∧
    (wemit [] 0).eslot ≤ (wemit [] 0).cycles 3 / 4 ∧ (wemit [] 0).cycles 3 / 4 < ({ wemit [] 0 with eslot := 1 } : State).eslot := by decide
/-- An item on its walk at its hint core, whose context 0 is spawned or not; contexts 2 to 4 of the core are idle. -/
def it0 (pos : Nat) : Item := ⟨0, 0, 0, 1, false, 0, 0x40, 7, 9, -1, 8, [8], pos, 0⟩
def witem (pos : Nat) (r : Run) (n : Nat) : State :=
  ({ wemit [ln0 0 1 none 1 1 false] 0 with items := [it0 pos] }.setCtx 128 { Context.fresh 128 with run := r }).modCore 8 fun k =>
    { k with ovf := List.replicate n (it0 0) }
theorem test_witness_LaunchesRun_item : (witem 0 .running 0).items[0]? = some (it0 0) ∧ (it0 0).walk[0]? = some 8 ∧ visits (witem 0 .running 0) (ln0 0 1 none 1 1 false) = [8] ∧
    ((witem 0 .running 0).core 8).ovf = [] ∧ (it0 1).walk[1]? = none ∧ ((witem 1 .unspawned 63).core 8).ovf.length = 63 ∧
    ((witem 1 .unspawned 64).core 8).ovf.length = 64 ∧ ((witem 1 .unspawned 63).ctx 128).run = .unspawned ∧
    (witem 0 .running 0).store.find? (fun x => x.seq = 0) = some (ln0 0 1 none 1 1 false) := by decide +kernel
theorem test_witness_LaunchesRun_takes : ¬Takes (witem 0 .unspawned 0) 8 (it0 0) ∧ Takes (witem 0 .running 0) 8 (it0 0) := by
  refine ⟨fun h => absurd h.1 (by decide +kernel), by decide +kernel, by decide +kernel, fun h m => absurd (show h ∈ [] from m) (by simp)⟩
theorem test_witness_LaunchesRun_order : ¬Behind (witem 0 .running 0) 8 (it0 0) ∧
    Behind ((witem 0 .running 0).modCore 8 fun k => { k with considered := (0, 0, 1) }) 8 (it0 0) ∧ roomFor (witem 0 .running 0) 8 = 5 ∧
    roomFor { witem 0 .running 0 with net := List.replicate 62 ⟨143, 128, true, 0, 0, 0, 0, false⟩ } 8 = 2 ∧
    ({ witem 0 .running 0 with spaceq := [⟨0, 130, 7⟩] } : State).spaceq.find? (fun x => x.part = 0) = some ⟨0, 130, 7⟩ ∧
    CanPost (witem 0 .running 0) 130 := by
  refine ⟨?_, ?_, by decide +kernel, by decide +kernel, by decide, by decide, by decide⟩ <;> simp only [Behind] <;> decide +kernel
theorem test_witness_LaunchesRun_send_order : NoEarlier (witem 0 .running 0) (legOf (it0 0)).1 (legOf (it0 0)).2 (it0 0).n ∧
    ¬NoEarlier { witem 0 .running 0 with items := [it0 0, { it0 0 with n := 1, item := 1 }] } (legOf (it0 0)).1 (legOf (it0 0)).2 1 := by
  simp only [NoEarlier]; decide +kernel
/-- The first word of an item waits for room at core 8, or, with `n` hardware words there, still has none. -/
def wkeep (n : Nat) (i : Option Item) : State := { witem 0 .running 0 with
  held := [⟨.items 8, ⟨143, 128, true, 0, 1, 0, 0, false⟩, i⟩], net := List.replicate n ⟨143, 128, true, 0, 0, 0, 0, false⟩ }
theorem test_witness_LaunchesRun_held : (wkeep 63 (some (it0 0))).held = [⟨.items 8, ⟨143, 128, true, 0, 1, 0, 0, false⟩, some (it0 0)⟩] ∧
    CanPost { wkeep 63 none with held := [] } 128 ∧ ¬CanPost { wkeep 64 none with held := [] } 128 ∧ ∃ l : Launch, l ∈ (wkeep 63 none).store ∧ l.items ≤ l.posted + 1 := by
  refine ⟨rfl, by simp only [CanPost]; decide +kernel, fun h => absurd h.1 (by decide +kernel), _, List.mem_cons_self, by decide⟩
theorem test_witness_LaunchesRun_pop : ({ witem 0 .running 0 with cur := 128 }.modCtx 128 fun c => { c with mbx := [⟨143, true, 5, 1⟩, ⟨143, true, 6, 2⟩] }).me.mbx =
      ⟨143, true, 5, 1⟩ :: [⟨143, true, 6, 2⟩] ∧ (witem 0 .running 0).held = [] ∧ (witem 0 .running 0).ingress = [] := by decide +kernel

/-- A frame of `n` records of the launch type for a VLAN id. -/
def frame0 (v : Option (BitVec 12)) (n : Nat) : Frame :=
  ⟨1, true, v, 0x88B5, 16 + 64 * n, ([1, BitVec.ofNat 8 n] ++ List.replicate 14 0) ++ (List.replicate n (recW 1 1)).flatten.flatMap fun w => leBytes 8 w.toNat⟩
/-- The VLAN table gives id 5 to partition 0. -/
def wdoor : State := { wowned w0 with vlans := [(5, 0b010000)] }
theorem test_witness_HostAndFrontDoor_frame : (frame0 (some 5) 1).port < 2 ∧ (frame0 (some 5) 1).fcsGood = true ∧ frameLength (frame0 (some 5) 140) ≤ 9216 ∧ 9216 < frameLength { frame0 (some 5) 140 with payload := List.replicate 9195 0 } ∧
    (frame0 (some 5) 1).len ≤ (frame0 (some 5) 1).payload.length ∧ (tget 0 wdoor.vlans 5 : BitVec 6).getLsbD 4 = true ∧
    (tget 0 w0.vlans 5 : BitVec 6).getLsbD 4 = false ∧ (frame0 (some 5) 1).payload.getD 1 0 = 1 ∧
    (∀ k, 2 ≤ k → k < 16 → (frame0 (some 5) 1).payload.getD k 0 = 0) :=
  ⟨by decide, rfl, by decide +kernel, by decide +kernel, by decide +kernel, by decide, by decide, by decide +kernel, fun k h1 h2 => by
    have : k ∈ List.range' 2 14 := by rw [List.mem_range'_1]; omega
    revert k; decide +kernel⟩
/-- Partition 0's ring 0 is enabled with one record not yet fetched. -/
def wring (l0 l1 : Bool) : State := { (wowned w0).modPart 0 fun q => { q with ring0 := ⟨0, 0, 63, 0, 0⟩ } with link0 := l0, link1 := l1 }
theorem test_witness_HostAndFrontDoor_ring : Waiting (ringOf ((wring true true).part 0) false) ∧ ¬Waiting (ringOf ((wring true true).part 0) true) ∧
    up (wring true true) 1 ∧ ¬up (wring true false) 1 ∧ (wring false false).link0 = false ∧
    ¬RecordBad (wring true true) 0 false (recW 1 1) ∧ RecordBad (wring true true) 0 false (recW 1 0) ∧ entryFor (wring true true) 0 1 ≠ none := by
  simp only [Waiting, RecordBad, TaskOk]; decide +kernel
theorem test_witness_HostAndFrontDoor_window : walkPa (mapped w0) 0 false .write (0x7008) = .ok (0x7008, ⟨false, some 0⟩) ∧
    walkPa (mapped w0) 0 false .read (0x7008) = .ok (0x7008, ⟨false, some 0⟩) ∧ memWf (mapped w0).mem = true ∧ ((mapped w0).part 0).win = 0 ∧
    walkPa w0 0 false .read 0x7008 = .error 0x0A ∧ (∃ x ∈ (wring true true).parts, x.1 = 0) := by decide +kernel

/-! ### Translation, errors, retention, budgets, the watchdog -/

/-- A walk of a context through the tables at page 0. -/
def walk0 (who cl dva : Nat) : Walk := ⟨0, 0, 0, 0, cl, 8, .ctx who (who % 16) ⟨⟨0, 5⟩, 0x100, 0, 0⟩, dva, true⟩
/-- Walks of two contexts for one page, one of another port, and a request that waits for a walker. -/
def wwalk : State :=
  { mapped w0 with walks := [walk0 129 0 0x7008, walk0 130 0 0x7FF8, walk0 131 9 0x7008, { walk0 132 0 0x7010 with busy := false }] }
theorem test_witness_TranslationAndFetch_walk : wwalk.walks[0]? = some (walk0 129 0 0x7008) ∧
    (wwalk.walks.filter fun v => Joined v (walk0 129 0 0x7008)) = [walk0 129 0 0x7008, walk0 130 0 0x7FF8] ∧
    (walk0 129 0 0x7008).root * 4096 + 4096 ≤ memoryEnd wwalk ∧ (wwalk.walks.filter fun v => v.busy = false).length = 1 ∧
    (walk0 132 0 0x7010).cl = (walk0 129 0 0x7008).cl ∧ (wwalk.walks.filter fun z => z.busy = true ∧ z.cl = 0).length ≤ 64 ∧
    (∀ v ∈ wwalk.walks, ¬Joined v { walk0 131 9 0x8000 with busy := false }) := by decide +kernel
theorem test_witness_TranslationAndFetch_leaf : WalkEnds wwalk 0x7008 4 0 (.leaf 0x2F 30) := by
  have h0 : wordAt wwalk 0 = 0x1001 := by decide +kernel
  have h1 : wordAt wwalk 0x1000 = 0x2F := by decide +kernel
  have np : ∀ a n, ¬Poisoned wwalk a n := fun a n ⟨_, h, _⟩ => by cases h
  simp only [WalkEnds, Malformed, pageBase, pageBits]
  refine ⟨fun h => absurd h (np _ _), fun _ h => ?_, fun _ _ _ => ⟨fun h => ?_, fun _ => ⟨fun h => absurd h (np _ _), fun _ h => ?_, fun _ _ _ => ⟨fun _ => ?_, fun h => ?_⟩⟩⟩⟩
  · revert h; rw [show (0 + 8 * (0x7008 / 2 ^ (12 + 9 * 3) % 512)) = 0 from rfl, h0]; decide +kernel
  · revert h; rw [show (0 + 8 * (0x7008 / 2 ^ (12 + 9 * 3) % 512)) = 0 from rfl, h0]; decide +kernel
  all_goals rw [show (0 + 8 * (0x7008 / 2 ^ (12 + 9 * 3) % 512)) = 0 from rfl, h0,
    show ((0x1001 : Word).extractLsb' 12 28).toNat * 2 ^ 12 + 8 * (0x7008 / 2 ^ (12 + 9 * 2) % 512) = 0x1000 from by decide +kernel, h1] at *
  · revert h; decide +kernel
  · decide +kernel
  · exact absurd h (by decide)
theorem test_witness_TranslationAndFetch_absent : WalkEnds w0 0x7008 4 0 .absent :=
  ⟨fun ⟨_, h, _⟩ => (by cases h), fun _ _ => rfl, fun _ h => absurd h (by decide +kernel)⟩
/-- A fill for the witnesses' context, which waits for it; it brings an entry or a trap. -/
def fill0 (bad : Option (BitVec 8)) : Fill := ⟨8, .ctx 129 1 ⟨⟨0, 5⟩, 0x100, 0, 0⟩, ⟨0, 1, 0, 30, 0x2F, true, 0, 0⟩, bad⟩
def wfill (bad : Option (BitVec 8)) : State := { wc (fun c => { c with wait := some ⟨.tlb, 0, 0, 0, 0⟩ }) with fills := [fill0 bad] }
theorem test_witness_TranslationAndFetch_fill : (wfill none).fills = [] ++ fill0 none :: [] ∧ (fill0 none).who = .ctx 129 1 ⟨⟨0, 5⟩, 0x100, 0, 0⟩ ∧
    (fill0 none).bad = none ∧ (fill0 (some 0x0A)).bad = some 0x0A ∧ memWf (wfill (some 0x0A)).mem = true ∧
    ((wfill (some 0x0A)).ctx 129).away = none := by decide +kernel
theorem test_witness_TranslationAndFetch_line : 4 ∈ ((w0.modCore 8 fun k => { k with icreq := [4] }).core 8).icreq ∧
    (w0.core 8).ic.length ≤ 256 := by decide
/-- A group of words at the context's PC, whose slot is next. -/
def wgroup (w : Nat) : State := placeCodeWord w0 w
/-- The group there is of these words, and the step comes to it. -/
def Stands (s : State) (pfxs : List W32) (w : W32) : Prop :=
  s.agenda = [.slot 129] ∧ nextSlot s 129 ≤ s.tick ∧ ready s 129 = true ∧ NothingPending (s.ctx 129) ∧
    fetchGroup (beginSlot { s with agenda := [] } 129) 129 = .group pfxs w 0 false ∧ ∀ p ∈ pfxs, pfxBad p = 0
theorem test_witness_TranslationAndFetch_groups : Stands (wgroup 0x8000000080000000) [0x80000000, 0x80000000] 0 ∧
    Stands (wgroup 0x88000000) [0x88000000] 0 ∧ Stands (wgroup 1) [] 1 := by
  have bad : ∀ p ∈ ([0x80000000, 0x88000000] : List W32), pfxBad p = 0 := List.forall_mem_cons.2 ⟨by decide, List.forall_mem_cons.2 ⟨by decide, by simp⟩⟩
  refine ⟨⟨?_, ?_, ?_, ⟨?_, ?_, ?_⟩, ?_, fun p h => bad p ?_⟩, ⟨?_, ?_, ?_, ⟨?_, ?_, ?_⟩, ?_, fun p h => bad p ?_⟩, ⟨?_, ?_, ?_, ⟨?_, ?_, ?_⟩, ?_, by simp⟩⟩
  case refine_8 | refine_16 => simp at h; simp [h]
  all_goals decide +kernel
theorem test_witness_TranslationAndFetch_prefixes : takesPrefix 0 0 ∧ ¬takesPrefix 0 1 ∧ majorAssigned 0 0 = true ∧ hasX 1 = true ∧
    (1 : W32).getLsbD 0 = true ∧ (0x90000000 : W32).extractLsb' 30 2 = (2 : BitVec 2) ∧ pfxBad 0x90000000 = 0 := by
  refine ⟨.inl ⟨rfl, .inl ⟨.inl (by decide), .inl (by decide)⟩⟩, ?_, by decide, by decide, by decide, by decide, by decide⟩
  rintro (⟨h, -⟩ | ⟨-, -, h, -⟩ | ⟨h, -⟩ | ⟨h, -⟩) <;> exact absurd h (by decide)
/-- Bank 14 of core 8 may rest; the clocks stand at 4,096 cycles. -/
def wrest (b : BankSt) : State :=
  ({ w0 with clk := #v[⟨4096, 0, 27⟩, ⟨0, 0, 34⟩, ⟨0, 0, 41⟩, ⟨0, 0, 48⟩] }.modCore 8 fun k => { k with retEn := true, retIdle := 4096 }).setBank 8 14 b
theorem test_witness_BanksRestAndAreScrubbed_rest : ((wrest ⟨.active, 0⟩).core 8).retEn = true ∧ ((wrest ⟨.active, 0⟩).bank 8 14).ret = .active ∧
    ((wrest ⟨.active, 0⟩).bank 8 14).last + ((wrest ⟨.active, 0⟩).core 8).retIdle.toNat ≤ (wrest ⟨.active, 0⟩).cycles 0 ∧ (wrest ⟨.active, 0⟩).feq = [] ∧
    ((wrest ⟨.active, 1⟩).bank 8 14).last = 1 ∧ (wrest ⟨.active, 1⟩).cycles (cidLayer 8) = 4096 ∧
    ((wrest ⟨.exiting 4096, 0⟩).bank 8 14).ret = .exiting 4096 ∧ ((wrest ⟨.exiting 4097, 0⟩).bank 8 14).ret = .exiting 4097 := by decide +kernel
theorem test_witness_BanksRestAndAreScrubbed_scrub : Memory w0 (8 * (Config.spadLoc 8 0x1010 / 8)) ∧ Memory w0 (8 * (768 * 2 ^ 27 - 1)) ∧
    ¬Memory w0 (8 * (768 * 2 ^ 27)) ∧ Memory w0 (16 * (Config.spadLoc 8 0x1010 / 16)) ∧ 2 ^ 40 ≤ 16 * (Config.spadLoc 8 0x1010 / 16) := by
  simp only [Memory]; decide +kernel
theorem test_witness_BanksRestAndAreScrubbed_buffers :
    (tget none ((w0.modCore 8 fun k => { k with ic := [(4, some 0)] }).core 8).ic 4).isSome = true ∧
    0 < ((w0.modCore 8 fun k => { k with utlb := [⟨0, 1, 0, 30, 0x2F, false, 0, 0⟩] }).core 8).utlb.length ∧
    0 < ((w0.modCluster (64 * 0 + 0) fun k => { k with ptlb := [⟨0, 0, 0, 30, 0x2F, false, 0, 0⟩] }).cluster (64 * 0 + 0)).ptlb.length := by decide +kernel
/-- Global time stands at 1 µs. -/
def wus : State := { w0 with tick := tickPerUs, window := 0 }
theorem test_witness_BudgetsAndWatchdog_window : wus.window < wus.gtime / 1000 ∧ w0.gtime / 1000 ≤ w0.window := by decide +kernel
/-- A channel's budgets of partition 0: of class 1 with `left` tokens, without the spill bit or with it; a request of partition 0 and class 1 for one. -/
def wtokens (left used : Nat) (spill : Bool) (l : List BReq) : State :=
  { w0 with budgets := tset [] (budgetKey 300 0 1) ⟨8, spill, left⟩, served := tset [] 300 used, bwait := l }
def ask0 : BReq := ⟨300, 0, 1, 1, .block 129, 0⟩
theorem test_witness_BudgetsAndWatchdog_serves : ∀ r ∈ [(⟨300, 0, 2, 1, .block 130, 0⟩ : BReq)], (∀ x ∈ (wtokens 8 0 false [r]).bwait, x.who ≠ ask0.who) ∧
    ask0.part < 16 ∧ ask0.n ≤ (tget Budget.init (wtokens 8 0 false [r]).budgets (budgetKey 300 0 1)).left ∧
    tget 0 (wtokens 8 1749 false []).served 300 + ask0.n ≤ 1750 ∧ ¬(tget 0 (wtokens 8 1750 false []).served 300 + ask0.n ≤ 1750) ∧
    ask0.cls < r.cls ∧ ¬ask0.n ≤ (tget Budget.init (wtokens 0 0 true []).budgets (budgetKey 300 0 1)).left ∧
    (tget Budget.init (wtokens 0 0 true []).budgets (budgetKey 300 0 1)).spill = true ∧
    (tget Budget.init (wtokens 0 0 false []).budgets (budgetKey 300 0 1)).spill = false ∧ sitesOf false 8 [(0, 64, .plain)] ≠ [] := by decide +kernel
theorem test_witness_BudgetsAndWatchdog_behind : ∃ x ∈ (wtokens 8 0 false [{ ask0 with who := .acc 129 7 }]).bwait,
    x.who.live { wtokens 8 0 false [] with ctxs := (wout [{ acc (.store 5) 8 false with seq := 7 }]).ctxs } = true ∧ x.n ≤ 8 ∧ x.cls ≤ ask0.cls :=
  ⟨_, List.mem_cons_self, by decide +kernel, by decide, by decide⟩
/-- The context waits in a fence since the start, with a limit for the watchdog from then. -/
def wdog (lim : Nat) (a : Option Away) : State :=
  { wc fun c => { c with wait := some ⟨.fence, 0, lim, 0, 0⟩, away := a } with tick := 5 * tickPerUs }
/-- The context's load waits since the start for room where its word goes. -/
def wheld : State :=
  { wc fun c => { c with wait := some ⟨.fullWrite, 0, 5, 0, 0⟩, out := [acc (.load false 30) 8 false] } with tick := 5 * tickPerUs }
theorem test_witness_BudgetsAndWatchdog_dog : waitNumber ((wdog 5 none).ctx 129) = some (4, 0, 5) ∧ ((wdog 5 none).ctx 129).run = .running ∧
    ((wdog 5 none).tick - 0) / tickPerUs = 5 ∧ waitNumber ((wdog 6 none).ctx 129) = some (4, 0, 6) ∧ ((wdog 5 none).part 0).frozen = none ∧
    memWf (wdog 5 none).mem = true ∧ ((wdog 5 none).ctx 129).out = [] ∧ waitNumber (w0.ctx 129) = none ∧
    waitNumber ((wdog 5 (some { away0 .toHost none none with lim := 5 })).ctx 129) = some (5, 0, 5) ∧
    (away0 .toHost none none).trap = none ∧ (away0 .toHost none none).phase ≠ .toHome := by decide +kernel
theorem test_witness_BudgetsAndWatchdog_full : waitNumber (wheld.ctx 129) = some (2, 0, 5) ∧ (wheld.ctx 129).out = [acc (.load false 30) 8 false] ∧
    (acc (.load false 30) 8 false).rlx = false ∧ (∀ v, (acc (.load false 30) 8 false).kind ≠ .store v) :=
  ⟨by decide +kernel, by decide +kernel, by decide, fun _ h => by cases h⟩

/-! ### Slot allocators, firmware's registers, the debugger, context 0 -/

/-- A die whose first `n` slots partition 1 owns. -/
def wslots (n : Nat) (next : Bool) : State :=
  { w0 with slots := [(3, let l := List.replicate n (some 1) ++ List.replicate (64 - n) none; ⟨l, if next then some (l, 0) else none⟩)] }
theorem test_witness_FirmwareAndSlots_slots : (tableOf (wslots 60 false) 3).length = 64 ∧ slotsOfOthers (tableOf (wslots 60 false) 3) 2 + 4 = 64 ∧
    slotsOfOthers (tableOf (wslots 61 false) 3) 2 + 4 = 65 ∧ ((wslots 60 true).slotTab 3).next.isSome = true ∧
    ((wslots 60 false).slotTab 3).next = none ∧ (wslots 60 true).cycles (layerOfDie 3) / 64 ≤ 0 ∧
    ({ wslots 60 true with tick := 64 * Config.period 27 } : State).cycles (layerOfDie 3) % 64 = 0 ∧
    0 < ({ wslots 60 true with tick := 64 * Config.period 27 } : State).cycles (layerOfDie 3) / 64 ∧
    ({ wslots 60 true with tick := Config.period 27 } : State).cycles (layerOfDie 3) % 64 ≠ 0 ∧ (∃ x ∈ (wslots 60 true).slots, x.1 = 3 ∧ x.2.next ≠ none) ∧
    ((wslots 60 true).clk.getD (layerOfDie 3) ⟨0, 0, 1⟩).at_ ≤ (wslots 60 true).tick ∧ ((wslots 60 true).clk.getD (layerOfDie 3) ⟨0, 0, 1⟩).rate = 27 := by decide +kernel
theorem test_witness_FirmwareAndSlots_registers : (∀ r ∈ [FwReg.cols 15, .ucores 15, .secmask 15, .c0core 15, .c0slots 15, .c0rate 15, .shcap 15,
    .ringBase 15 true, .ringCtl 15 false, .ringHead 15 true, .ringTail 15 false, .clearNinv 15, .clearNfull 15, .clearNrate 15, .ptroot 15, .keylo 15, .keyhi 15, .wdlim 15,
    .sigPolicy 15, .debugger 15, .trustedKey 15 3], (partitionWrite false (w0.part (partitionOf r)) 7 r).map (·.1) = some (partitionOf r) ∧ partitionOf r < 16) ∧
    cidValid w0.minimal 8 = true ∧ memWf w0.mem = true := by decide +kernel
theorem test_witness_FirmwareAndSlots_moves : movesCores (.cols 15) = true ∧ movesCores (.vlan 5) = false ∧ ownerPart (wowned w0) (129 / 16) = some 0 ∧
    ownerPart w0 (129 / 16) = none ∧ (w0.ctx 129).run ≠ .unspawned ∧ (w0.ctx 130).run = .unspawned := by decide +kernel
theorem test_witness_FirmwareAndSlots_exists : Spec.Exists w0 15 ∧ ¬Spec.Exists w0 16 ∧ (let s : State := { w0 with boot := { w0.boot with minimal := true } }
    Spec.Exists s 0 ∧ ¬Spec.Exists s 1) ∧ opensCores (.cols 15) = true ∧ opensCores (.vlan 5) = false ∧ w0.cores = [] := by simp only [Spec.Exists]; decide +kernel
/-- A store that the context issued since `compat` went on, or not. -/
def wcompat (n : Nat) : State := (wc fun c => { c with out := [acc (.store 5) 8 false] }).modPart 0 fun q => { q with compat := true, cseq := n }
theorem test_witness_FirmwareAndSlots_store : StoreWaits (wcompat 0) 0 ∧ ¬StoreWaits (wcompat 1) 0 :=
  ⟨⟨(129, _), List.mem_singleton_self _, by decide +kernel, (129, _), List.mem_singleton_self _, rfl, acc (.store 5) 8 false,
    by decide +kernel, by decide, ⟨5, rfl⟩, by decide +kernel⟩, fun ⟨_, _, _, y, hy, _, a, ha, _, _, h⟩ => by
    rw [show (wcompat 1).ctxs = [(129, { c0 with out := [acc (.store 5) 8 false] })] from rfl, List.mem_singleton] at hy
    subst hy
    rw [show a = acc (.store 5) 8 false from List.mem_singleton.1 ha] at h
    exact absurd h (by decide +kernel)⟩
theorem test_witness_FirmwareAndSlots_quiescent : Quiescent State.reset 0 ∧ ¬Quiescent w0 0 ∧ ¬StoreWaits State.reset 0 :=
  ⟨fun x h => (by cases h), fun h => absurd (h (129, c0) (by decide) (by decide)).2 (by decide), fun ⟨_, h, _⟩ => (by cases h)⟩
/-- A debugger is attached to partition 0. -/
def wdbg (r : Run) (l : List Acc) : State := (wc fun c => { c with run := r, out := l }).modPart 0 fun q => { q with dbg := true, frozen := some 0 }
theorem test_witness_DebuggerAndMonitors_halt : mbaValid (wdbg .running []).minimal 129 = true ∧ ((wdbg .running []).part 0).dbg = true ∧
    ((wdbg .running []).ctx 129).run = .running ∧ ((wdbg .running []).ctx 129).out = [] ∧ ((wdbg .running []).ctx 129).late = none ∧
    ((wdbg (.stopped .trap) []).ctx 129).run = .stopped .trap ∧ ((wdbg .running [acc (.store 5) 8 false]).ctx 129).out ≠ [] ∧ (w0.part 0).dbg = false := by decide +kernel
theorem test_witness_DebuggerAndMonitors_resume : ((wdbg (.halted none) []).ctx 129).run = .halted none ∧ ((wdbg (.halted none) []).part 0).frozen = some 0 ∧
    ((wdbg (.halted (some .trap)) []).ctx 129).run = .halted (some .trap) ∧
    (∀ x ∈ (wdbg (.halted none) []).ctxs, x.1 = 129) ∧ ((wdbg (.halted none) []).ctxs.map (·.1)).Pairwise (· < ·) ∧
    ((wdbg (.halted none) []).ctxs.map (·.1)).Nodup ∧ frameFault (wdbg (.halted none) []) (cidLayer (129 / 16)) (saveFrame c0 0x100) = none ∧
    (saveFrame c0 0x100).length = 512 ∧ (saveFrame { c0 with mode := 7 } 0).length = 512 := by decide +kernel
/-- A second context of the partition is halted, or waits since tick 0. -/
def wtwo (r : Run) : State := { (wdbg (.halted none) []).setCtx 130 { c0 with run := r, wait := some ⟨.fence, 0, 0, 0, 0⟩ } with tick := 4 }
theorem test_witness_DebuggerAndMonitors_two : ((wtwo (.halted none)).ctxs.any fun x => x.1 ≠ 129 ∧ x.2.part.toNat = ((wtwo (.halted none)).ctx 129).part.toNat ∧ x.2.run = .halted none) = true ∧
    ((wtwo (.halted none)).ctxs.map (·.1)).Nodup ∧ ((wtwo .running).ctx 130).wait = some ⟨.fence, 0, 0, 0, 0⟩ ∧ 0 ≤ (wtwo .running).tick := by decide +kernel
/-- The device after a start. -/
def wboot (phase : BitVec 8) : State := { w0 with boot := { w0.boot with phase := phase } }
theorem test_witness_DebuggerAndMonitors_start : ((wboot 7).boot.phase = 0x07 ∨ (wboot 7).boot.phase = 0x0F) ∧ cidValid (wboot 7).minimal 8 = true ∧
    ((wboot 7).ctx (16 * 8)).run = .unspawned ∧ ownerPart (wowned (wboot 15)) 8 = some 0 ∧ (w0.boot.phase ≠ 7 ∧ w0.boot.phase ≠ 15) := by decide +kernel

/-! ### Images, containment and reset, start-up, throttling, attestation -/

/-- An executable image with these sections, in order: kind, unit, `info` and contents (Tables 18.1, 18.2). -/
def wof (l : List (Nat × Nat × Nat × List Byte)) : List Byte :=
  let start := fun (n : Nat) => 64 + 48 * l.length + ((l.take n).map fun x => x.2.2.2.length).sum
  leBytes 8 (0x31464F57 + 2 ^ 32 + 2 * 2 ^ 48) ++ leBytes 8 (0xFFFF0000 + l.length * 2 ^ 32) ++ leBytes 8 64 ++ List.replicate 40 0 ++
    (l.zipIdx.flatMap fun (x : (Nat × Nat × Nat × List Byte) × Nat) =>
      leBytes 8 (x.1.1 * 2 ^ 32 + x.1.2.1 * 2 ^ 48) ++ leBytes 8 (start x.2) ++ leBytes 8 x.1.2.2.2.length ++ leBytes 8 0 ++
        leBytes 8 x.1.2.2.2.length ++ leBytes 8 (x.1.2.2.1 + 4 * 2 ^ 32)) ++ l.flatMap fun x => x.2.2.2
/-- What `SectionHolds` asks of a section that is neither of routines nor of graphs, whose alignment is 4. -/
theorem plainHolds {f : List Byte} {i : Nat} (h6 : kindAt f i ≠ 6) (h8 : kindAt f i ≠ 8)
    (h : kindAt f i ∈ [1, 2, 3, 4, 5, 6, 7, 8, 9, 11] ∧ foffAt f i + fsizeAt f i ≤ f.length ∧ fsizeAt f i ≤ msizeAt f i ∧
      (secField f i 44 4 = 4 ∧ loffAt f i % 4 = 0) ∧ (unitAt f i = 0xFFFF ∨ unitAt f i < unitCount f) ∧
      infoAt f i < (if kindAt f i = 4 then 2 ^ 11 else if kindAt f i = 5 then 2 ^ 4 else 1) ∧
      (kindAt f i = 4 → 16 ≤ fsizeAt f i ∧ num (contentsAt f i) 4 12 = 0) ∧
      (kindAt f i = 5 → fsizeAt f i % 16 = 0 ∧ ∀ j, j < fsizeAt f i / 16 → num (contentsAt f i) (16 * j + 8) 8 ≤ 1) ∧
      (kindAt f i = 7 → fsizeAt f i % 32 = 0 ∧ loffAt f i = 0) ∧
      (kindAt f i = 9 → fsizeAt f i % 40 = 0 ∧ ∀ j, j < fsizeAt f i / 40 → num (contentsAt f i) (40 * j) 4 ≤ 7) ∧
      (kindAt f i = 11 → fsizeAt f i % 64 = 0)) : SectionHolds f i :=
  let ⟨a, b, c, d, e, g, k4, k5, k7, k9, k11⟩ := h
  ⟨a, b, c, ⟨2, by decide, by decide, d.1, d.2⟩, e, g, k4, k5, fun k => absurd k h6, k7, fun k => absurd k h8, k9, k11⟩
/-- What `FileHolds` asks beside the sections. -/
abbrev HeadHolds (f : List Byte) : Prop :=
  64 ≤ f.length ∧ num f 0 4 = 0x31464F57 ∧ num f 4 2 = 1 ∧ num f 6 2 = 2 ∧ num f 8 4 = 0xFFFF0000 ∧
  num f 16 8 + 48 * sectionCount f ≤ f.length ∧ num f 24 8 + 24 * num f 32 4 ≤ f.length ∧ num f 36 4 = 0 ∧ num f 40 8 ≤ f.length ∧
  num f 48 8 ≤ f.length ∧ num f 56 8 = 0 ∧ num f 32 4 = 0
theorem headHolds {f : List Byte} (h : HeadHolds f) (hs : ∀ i, i < sectionCount f → SectionHolds f i)
    (hu : ∀ u, u < unitCount f → UnitHolds f u)
    (h7 : ∀ i j, i < sectionCount f → j < sectionCount f → kindAt f i = 7 → kindAt f j = 7 → i = j) : FileHolds f := by
  obtain ⟨a, b, c, d, e, k, l, m, n, o, p, q⟩ := h
  simp only [FileHolds, e, p, q]
  refine ⟨a, b, c, d, ?_, k, ?_, m, n, o, by rw [if_neg (by decide)]; trivial, .inl rfl, hs, hu, by simp, h7⟩
  · intro i h1 h2; interval_cases i <;> decide
  · omega
/-- A file without sections. -/
theorem test_witness_ImagesLoad : FileHolds (wof []) ∧ (wof []).length = 64 ∧ SignatureHolds (State.reset.part 0) (wof []) ∧
    ¬SignatureHolds { State.reset.part 0 with sigReq := true } (wof []) ∧ ¬FileHolds (List.replicate 64 0) ∧ Spec.Exists State.reset 0 ∧
    Quiescent State.reset 0 ∧ memWf State.reset.mem = true ∧ ∀ i, i < sectionCount (wof []) → SectionFits State.reset 0 (wof []) i := by
  have n : ∀ i, ¬i < sectionCount (wof []) := by rw [show sectionCount (wof []) = 0 from by decide +kernel]; exact fun _ => Nat.not_lt_zero _
  refine ⟨headHolds (by decide +kernel) (fun i h => absurd h (n i)) ?_ (fun i _ h => absurd h (n i)), by decide +kernel,
    ⟨fun _ => rfl, fun h => absurd h (by decide +kernel)⟩, fun h => absurd (h.1 (by decide +kernel)) (by decide), ?_,
    ⟨by decide, fun _ => rfl⟩, fun x h => (by cases h), rfl, fun i h => absurd h (n i)⟩
  · rw [show unitCount (wof []) = 0 from by decide +kernel]; exact fun _ h => absurd h (Nat.not_lt_zero _)
  · exact fun h => absurd h.2.1 (by decide +kernel)
/-- A file with a section of data, which no segment of the partition holds. -/
theorem test_witness_ImagesLoad_outside : FileHolds (wof [(2, 0xFFFF, 0, [])]) ∧ 0 < sectionCount (wof [(2, 0xFFFF, 0, [])]) ∧
    ¬SectionFits State.reset 0 (wof [(2, 0xFFFF, 0, [])]) 0 := by
  have n : sectionCount (wof [(2, 0xFFFF, 0, [])]) = 1 := by decide +kernel
  refine ⟨headHolds (by decide +kernel) ?_ ?_ (by rw [n]; omega), by omega, ?_⟩
  · rw [n]; intro i h; obtain rfl : i = 0 := by omega
    exact plainHolds (by decide +kernel) (by decide +kernel) (by decide +kernel)
  · rw [show unitCount (wof [(2, 0xFFFF, 0, [])]) = 0 from by decide +kernel]; exact fun _ h => absurd h (Nat.not_lt_zero _)
  · intro h
    obtain ⟨d, hd, _⟩ := h.2.1 4 (by decide +kernel)
    rw [show segOfPart State.reset 0 (fun _ => true) 4 = none from by decide +kernel] at hd
    cases hd
/-- A file with a routine whose body R241 rejects. -/
def wrtns : List Byte := wof [(6, 0xFFFF, 0, List.replicate 12 0)]
theorem test_witness_ImagesLoad_routines : FileHolds wrtns ∧ RoutinesOfFile wrtns [(0, 0, [0])] ∧ (rtnBad 0 [0]).isSome = true ∧
    (∀ i, i < sectionCount wrtns → SectionFits State.reset 0 wrtns i) := by
  have n : sectionCount wrtns = 1 := by decide +kernel
  have r : RoutinesIn (contentsAt wrtns 0) [(0, 0, [0])] := by simp only [RoutinesIn]; decide +kernel
  refine ⟨headHolds (by decide +kernel) ?_ ?_ (by rw [n]; omega), ⟨[[(0, 0, [0])]], rfl, by decide +kernel, ?_⟩, by decide +kernel, ?_⟩
  · rw [n]; intro i h; obtain rfl : i = 0 := by omega
    have k : kindAt wrtns 0 = 6 := by decide +kernel
    exact ⟨by decide +kernel, by decide +kernel, by decide +kernel, ⟨2, by decide +kernel⟩, by decide +kernel, by decide +kernel, by rw [k]; decide,
      by rw [k]; decide, fun _ => ⟨_, r⟩, by rw [k]; decide, fun h => absurd h (by rw [k]; decide), by rw [k]; decide, by rw [k]; decide⟩
  · rw [show unitCount wrtns = 0 from by decide +kernel]; exact fun _ h => absurd h (Nat.not_lt_zero _)
  · rw [show (List.range (sectionCount wrtns)).filter (fun i => kindAt wrtns i = 6) = [0] from by decide +kernel]
    intro k i l hi hl
    match k, hi, hl with
    | 0, hi, hl => cases hi; cases hl; exact r
  · rw [n]; intro i h; obtain rfl : i = 0 := by omega
    exact ⟨fun h => absurd h (by decide +kernel), fun q h => absurd h (by rw [show dataSel (kindAt wrtns 0) = none from by decide +kernel]; simp),
      fun c _ h => absurd h (by rw [show unitAt wrtns 0 = 0xFFFF from by decide +kernel]; simp [unitOn])⟩
/-- A file with a unit on layer 0 that has an image of bank 1, its first granule empty, and weight set 7. -/
def wbank : List Byte :=
  wof [(7, 0xFFFF, 0, List.replicate 4 0 ++ [1] ++ List.replicate 27 0), (4, 0, 1 + 16 * 5, List.replicate 16 0 ++ [1, 2, 3, 4]),
    (5, 0, 1, leBytes 8 (16 * 2 ^ 32) ++ leBytes 8 0), (9, 0, 0, [7] ++ List.replicate 39 0)]
/-- The partition owns column 0, and nothing runs in it. -/
def wcold : State := wowned State.reset
theorem test_witness_ImagesLoad_banks : FileHolds wbank ∧ 8 ∈ partCores wcold 0 ∧ SignatureHolds (wcold.part 0) wbank ∧ Quiescent wcold 0 ∧
    (∀ i, i < sectionCount wbank → SectionFits wcold 0 wbank i) := by
  have n : sectionCount wbank = 4 := by decide +kernel
  have u : unitCount wbank = 1 := by decide +kernel
  refine ⟨headHolds (by decide +kernel) ?_ ?_ ?_, by decide +kernel, ⟨fun _ => rfl, fun h => absurd h (by decide +kernel)⟩, fun x h => (by cases h), ?_⟩
  · rw [n]; intro i h
    interval_cases i <;> exact plainHolds (by decide +kernel) (by decide +kernel) (by decide +kernel)
  · rw [u]; intro i h; obtain rfl : i = 0 := by omega
    exact ⟨by decide +kernel, fun _ => by decide +kernel, by decide +kernel⟩
  · rw [n]; intro i j hi hj
    interval_cases i <;> interval_cases j <;> first | exact fun _ _ => rfl | exact fun h => absurd h (by decide +kernel) | exact fun _ h => absurd h (by decide +kernel)
  · rw [n]; intro i h
    interval_cases i <;> exact ⟨fun h => absurd h (by decide +kernel), fun q h => absurd h (by
      rw [show dataSel (kindAt wbank _) = none from by decide +kernel]; simp), by decide +kernel⟩
theorem test_witness_ImagesLoad_places : Declares wbank 1 8 1 ∧ (∀ i, Declares wbank i 8 1 → i = 1) ∧ (∀ i, ¬Declares wbank i 8 2) ∧
    Ranges wbank 2 0 0 1 15 ∧ (∀ i j, ¬Ranges wbank i j 0 1 16) ∧ Weighs wbank 3 0 8 7 ∧ (∀ i j, ¬Weighs wbank i j 8 6) ∧
    Puts wcold 0 wbank 1 3 (Config.spadLoc 8 (Config.bankSize 0 + 3)) := by
  have n : sectionCount wbank = 4 := by decide +kernel
  refine ⟨by simp only [Declares]; decide +kernel, ?_, ?_, by simp only [Ranges]; decide +kernel, ?_, by simp only [Weighs]; decide +kernel, ?_,
    by decide +kernel, by decide +kernel, .inr (.inr ⟨by decide +kernel, 8, by decide +kernel, by decide +kernel, by decide +kernel⟩)⟩
  · rintro i ⟨h, k, _⟩; rw [n] at h; revert k; interval_cases i <;> decide +kernel
  · rintro i ⟨h, k, b, _⟩; rw [n] at h; revert k b; interval_cases i <;> decide +kernel
  · rintro i j ⟨h, k, _, _, hj, _, _, g⟩; rw [n] at h
    have : i = 2 := by revert k; interval_cases i <;> decide +kernel
    subst this
    rw [show fsizeAt wbank 2 / 16 = 1 from by decide +kernel] at hj
    obtain rfl : j = 0 := by omega
    revert g; decide +kernel
  · rintro i j ⟨h, k, _, hj, g⟩; rw [n] at h
    have : i = 3 := by revert k; interval_cases i <;> decide +kernel
    subst this
    rw [show fsizeAt wbank 3 / 40 = 1 from by decide +kernel] at hj
    obtain rfl : j = 0 := by omega
    revert g; decide +kernel
/-- A core of another cluster of layer 0. -/
def far : Nat := clusterCore 0 1 0
/-- Cluster 0 of layer 0, which holds core 8, is contained or not; global start-up is over. -/
def wdown (d : Bool) : State := { (wowned (wout [acc (.store 5) 8 false])).modCluster 0 (fun c => { c with down := d }) with boot := (wboot 15).boot }
theorem test_witness_ContainmentAndReset : ((wdown true).cluster (64 * 0 + 0)).down = true ∧ ((wdown false).cluster (64 * 0 + 0)).down = false ∧
    clKey ((wdown true).hereOf 129) = 0 ∧ ownerPart (wdown true) ((wdown true).hereOf 129) = some 0 ∧ ((wdown true).boot.phase = 0x0F) ∧
    8 ∈ layerCores (wdown true).minimal 0 ∧ (ownerPart (wdown true) 8).isSome = true ∧ ((wdown true).ctx (16 * 8)).run = .unspawned ∧
    ownerPart (wdown true) (clusterCore 0 0 0) = some 0 ∧ ownerPart w0 (clusterCore 0 0 0) = none ∧
    ((wlnch (recW 1 1) 1).store.any fun l => l.part.toNat = 0) = true := by decide +kernel
/-- Words and a counter operation of an outside context for core 8. -/
def wlost : State :=
  let src := 16 * far + 1
  { (wowned w0).modCtx 129 (fun c => { c with mbx := [⟨src, false, 7, 0⟩] }) with
    net := [⟨src, 129, false, 7, 0, 0, 0, false⟩], ingress := [⟨src, 130, false, 7, 0, 0, 0, false⟩], cops := [⟨src, 8, 0, .dec, 0, 0⟩] }
theorem test_witness_ContainmentAndReset_lost : lostOf (fun c => decide (clKey c = 0)) wlost (16 * far + 1) = [129, 130, 129, 128] ∧
    decide (clKey ((16 * far + 1) / 16) = 0) = false ∧ wlost.bars = [] ∧ wlost.tokens = [] ∧ wlost.feq = [] ∧ wlost.held = [] ∧
    (∀ x ∈ wlost.ctxs, x.2.away = none ∧ x.1 < 2 ^ 20) ∧ (∀ w ∈ wlost.net ++ wlost.ingress, w.dst < 2 ^ 20) ∧ (∀ o ∈ wlost.cops, o.cid < 2 ^ 16) ∧
    (resetNoticeOf 129).extractLsb' 56 8 = (0x0D : BitVec 8) := by decide +kernel
/-- A context of that core, beside the contained cluster. -/
def wfar (f : Context → Context) : State := (wdown true).setCtx (16 * far + 1) (f c0)
theorem test_witness_ContainmentAndReset_outside : decide (clKey ((16 * far + 1) / 16) = 0) = false ∧
    ((wfar id).feq.all fun w => w.who ≠ 16 * far + 1) = true ∧ (∀ p ∈ [AwayPhase.queued, .hosted 1],
      ((wfar fun c => { c with away := some (away0 p none none) }).ctx (16 * far + 1)).away = some (away0 p none none)) ∧
    decide (clKey (away0 .queued none none).host = 0) = true ∧ (∀ rlx, ((wfar fun c => { c with out := [acc (.load true 3) 8 rlx] }).ctx
      (16 * far + 1)).out = [acc (.load true 3) 8 rlx] ∧ ((wfar id).ctx (16 * far + 1)).away = none ∧
      GoesInto (fun c => decide (clKey c = 0)) (wfar id) (acc (.load true 3) 8 rlx)) ∧
    decide (clKey ({ away0 (.hosted 1) none none with host := far } : Away).host = 0) = false ∧ ((wfar id).ctx (16 * far + 1)).out = [] := by
  simp only [GoesInto, HeldIn]; decide +kernel
/-- A vector engine of that core works on a tile of the contained cluster. -/
def wworks : State := withQueue (wdown true) far .vector [began .tfill (some (tile8 1 1 0)) none none none p0]
theorem test_witness_ContainmentAndReset_engine : currentCmd wworks far .vector = some (0, began .tfill (some (tile8 1 1 0)) none none none p0) ∧
    (began .tfill (some (tile8 1 1 0)) none none none p0).prog.began = true ∧
    ((began .tfill (some (tile8 1 1 0)) none none none p0).dt.toList.any fun d => decide (clKey d.cid = 0)) = true := by decide +kernel
/-- A start under way since the beginning, 30 s on or not, in the mode and with the failures given. -/
def wstart (phase : BitVec 8) (fails minFails : Nat) (minimal held : Bool) (t : Nat) : State :=
  { State.reset with boot := ⟨phase, 0, 0, fails, minFails, minimal, false, held, 0, 0⟩, tick := t }
theorem test_witness_StartUpThrottlingReports_start : (wstart 0 0 0 false true 0).boot.held = true ∧ startMode (wstart 0 2 0 false false 0).boot = false ∧
    startMode (wstart 0 3 0 false false 0).boot = true ∧ startMode (wstart 7 0 2 true false 0).boot = true ∧
    Late (wstart 7 0 0 false false (30000000 * tickPerUs)) ∧ ¬Late (wstart 7 0 0 false false (30000000 * tickPerUs - 1)) ∧
    ¬Late (wstart 0 0 0 false false (30000000 * tickPerUs)) ∧ (1 : BitVec 32).getLsbD 0 = true ∧ (2 : BitVec 32).getLsbD 0 = false := by
  decide +kernel
/-- Two spares of a cluster make up for two failed cores, and not for three. -/
theorem test_witness_StartUpThrottlingReports_flood : (∀ c ∈ upperClusters ++ List.range 80, ¬(worksOf [(79, 0), (79, 25)] c).length < 24) ∧
    (worksOf [(79, 0), (79, 12), (79, 25)] 79).length < 24 ∧ columnPasses [(65, 0), (65, 1), (65, 2)] 1 = false ∧
    columnPasses [(65, 0), (65, 1), (65, 2)] 2 = true ∧ columnPasses [(79, 0), (79, 1), (79, 2)] 15 = false ∧
    phaseNow (wstart 4 0 0 false false 0).boot = 4 ∧ phaseNow (wstart 5 0 0 false false 0).boot = 5 := by decide +kernel
theorem test_witness_StartUpThrottlingReports_outcomes : APhase 1 ∧ APhase 7 ∧ ¬APhase 8 ∧ ¬APhase 0 ∧ Causes 0x09 0 ∧ Causes 0x08 (BitVec.ofNat 7 (2 * 16 + 7)) ∧
    ¬Causes 0x0A 0 := by
  simp only [APhase]
  exact ⟨by decide, by decide, by decide, by decide, .inl (by decide), .inr (.inr (.inr (.inr ⟨rfl, 7, by decide, rfl⟩))), by
    rintro (h | h | h | h | h)
    · exact absurd h (by decide)
    · exact absurd h.1 (by decide)
    all_goals exact absurd h.1 (by decide)⟩
theorem test_witness_StartUpThrottlingReports_throttle : ∀ r ∈ [18, 27], let s : State := { w0 with clk := #v[⟨0, 0, r⟩, ⟨0, 0, 34⟩, ⟨0, 0, 41⟩, ⟨0, 0, 48⟩] }
    s.clk[0].at_ ≤ s.tick ∧ (s.tick - s.clk[0].at_) % Config.period s.clk[0].rate = 0 ∧ 18 ≤ s.clk[0].rate ∧ s.clk[0].rate ≤ 27 := by decide +kernel
theorem test_witness_StartUpThrottlingReports_report : (List.replicate 32 (5 : Byte)).length = 32 ∧ (∀ q, (State.reset.part q).log.chain.length = 32) ∧
    State.reset.dlog.chain.length = 32 := ⟨by decide, fun _ => rfl, by decide⟩

/-! ### The whole machine -/

theorem test_witness_ComputingFrame : ∃ t, computes (.add 3 1 2 false false) = true ∧ w0.me.run = .running ∧
    exec (.add 3 1 2 false false) w0 = .next t := ⟨_, rfl, rfl, rfl⟩
theorem test_witness_ComputingFrame_trap : ∃ t, exec (.add 27 1 2 false false) w0 = .next t := ⟨_, rfl⟩
/-- The word of `add x3, x1, x2` at the context's PC, whose slot is next. -/
def wstep : State :=
  (Instr.add 3 1 2 false false) |> fun i => w0.withFetchWord (32 * (encode i).length) (tableNumber (encode i))
theorem test_witness_StepsRunDecodedInstructions : mbaValid w0.minimal w0.cur = true ∧ (Instr.add 3 1 2 false false).wf = true ∧
    majorAssigned (cidLayer (w0.cur / 16)) ((encode (.add 3 1 2 false false)).getD 0 0) = true ∧
    ((encode (.add 3 1 2 false false)).getD 0 0).getLsbD 0 = false := by decide +kernel
/-- The state in which that slot begins. -/
def wslot0 : State := beginSlot { wstep with agenda := [] } 129
theorem test_witness_StepsRunDecodedInstructions_slot : wstep.agenda = [.slot 129] ∧ nextSlot wstep 129 ≤ wstep.tick ∧ ready wstep 129 = true ∧
    NothingPending (wstep.ctx 129) ∧ (∃ w0 w1, fetchGroup wslot0 129 = .group [] w0 w1 false ∧
      decodeGroup wslot0.layer wslot0.me.via [] w0 w1 false = .ok (.add 3 1 2 false false)) :=
  ⟨by decide +kernel, by decide +kernel, by decide +kernel, ⟨by decide +kernel, by decide +kernel, by decide +kernel⟩,
    0b00000000_00011_00001_00010_0_0000000_0, 0, by decide +kernel, by decide +kernel⟩
/-- The context's slot is asked for; it waits in a fence, or not; its access goes on, or not. -/
def wturn (wait : Bool) (l : List Acc) : State :=
  { (wc fun c => { c with wait := if wait then some ⟨.fence, 0, 0, 0, 0⟩ else none, out := l }) with agenda := [.slot 129] }
theorem test_witness_SlotsComeInTurn : ∀ b : Bool, (wturn b []).agenda = [.slot 129] ∧ mbaValid (wturn b []).minimal 129 = true ∧
    129 % 16 < Config.contexts (cidLayer ((wturn b []).hereOf 129)) ∧ ((wturn b []).clk.getD 0 ⟨0, 0, 1⟩).at_ ≤ (wturn b []).tick ∧
    ((wturn b []).clk.getD 0 ⟨0, 0, 1⟩).rate = 27 ∧ ((wturn b []).ctx 129).cyc ≤ (wturn b []).cycles 0 ∧
    (((wturn b []).ctx 129).wait = none ↔ b = false) ∧ ((wturn b []).ctx 129).hosted = none := by decide +kernel
/-- Context 2 of the core has a slot before context 1's next, which the agenda asks for; a die's slot table changes soon, or does not. -/
def wsoon (tab : Bool) : State :=
  let s := { (wturn false []).setCtx 130 c0 with slots := if tab then (wslots 60 true).slots else [] }
  if tab then { s with tick := 63 * Config.period 27 } else { s.modCtx 129 fun c => { c with cyc := 1 } with tick := Config.period 27 }
theorem test_witness_SlotsComeInTurn_others : (∃ j, nextContext (wsoon false) = some (j, 130) ∧ j < nextSlot (wsoon false) 129 ∧ (wsoon false).tick < j) ∧
    nextDue (wsoon false) = none ∧ (atOnce (timedEvents (wsoon false)) (wsoon false)).isNone = true ∧
    (∃ j, nextContext (wturn false []) = some (j, 129) ∧ nextSlot (wturn false []) 129 ≤ j ∧ (wturn false []).tick < j) ∧
    (atOnce (timedEvents (wturn false [])) (wturn false [])).isNone = true := by
  refine ⟨⟨2 * Config.period 27, by decide +kernel, by decide +kernel, by decide +kernel⟩, by decide +kernel, by decide +kernel,
    ⟨Config.period 27, by decide +kernel, by decide +kernel, by decide +kernel⟩, by decide +kernel⟩
theorem test_witness_SlotsComeInTurn_due : (∃ d, nextDue (wsoon true) = some d ∧ (wsoon true).tick < d ∧ d < nextSlot (wsoon true) 129 ∧
      ∀ j x, nextContext (wsoon true) = some (j, x) → d < j) ∧ (atOnce (timedEvents (wsoon true)) (wsoon true)).isNone = true ∧
    (let s := { (wturn false []).modCtx 129 fun c => { c with run := .stopped .save } with tick := Config.period 27 }
     ready s 129 = false ∧ nextSlot s 129 = s.tick) ∧
    (nextContext { wturn true [] with agenda := [] } = none ∧ nextDue { wturn true [] with agenda := [] } = none ∧
      (atOnce (allEvents { wturn true [] with agenda := [] }) { wturn true [] with agenda := [] }).isNone = true) := by
  have e : nextContext (wsoon true) = some (65 * Config.period 27, 129) := by decide +kernel
  refine ⟨⟨64 * Config.period 27, by decide +kernel, by decide +kernel, by decide +kernel, fun j x h => ?_⟩, by decide +kernel, by decide +kernel,
    by decide +kernel, by decide +kernel, by decide +kernel⟩
  rw [e] at h; cases h; decide +kernel
theorem test_witness_SlotsComeInTurn_ready : (((wturn false [acc (.load true 3) 8 false]).ctx 129).out.any fun a => !a.rlx) = true ∧
    (∀ v, (acc (.load true 3) 8 false).kind ≠ .store v) ∧ ((wfe true []).ctx 129).run = .running ∧
    (∃ a, ((wmig (away0 .queued none none)).ctx 129).away = some a ∧ ∀ n, a.phase ≠ .hosted n) ∧ isolated (wdown true) ((wdown true).hereOf 129) = true ∧
    ((w0.ctx 129).out = [] ∧ (w0.ctx 129).wait = none ∧ isolated w0 (w0.hereOf 129) = false ∧ (w0.ctx 129).stopReq = none ∧
      (w0.ctx 129).muteOut = [] ∧ (w0.part (w0.ctx 129).part.toNat).drain = false) :=
  ⟨by decide +kernel, fun _ h => (by cases h), by decide +kernel, ⟨_, rfl, fun _ h => (by cases h)⟩, by decide +kernel, by decide +kernel⟩
theorem test_witness_StepsKeepCanonicalMemory : ∃ t, Canonical State.reset ∧ step State.reset = .next t :=
  ⟨_, ⟨by decide, by decide, by decide⟩, rfl⟩
theorem test_witness_EveryStepGoesOn : ∃ m r, ({ State.reset with agenda := [.slot 0xFFFFF] } : State).agenda = .slot m :: r ∧
    mbaValid State.reset.minimal m = false := ⟨0xFFFFF, [], rfl, by decide⟩
theorem test_witness_EncodingRoundTrip : (Instr.add 31 31 31 true true).wf = true ∧ (Instr.sari 31 31 63 true).wf = true ∧ (Instr.home).wf = true := by
  decide

end Sys2Proof.Tests
end

section
/-! SUPPORT. The scalar instructions: how a step that ends with flags goes on, the shared shapes of Laws/Ops.lean as whole steps, and the
model's integer values and images as the bit vectors of the statements. -/

namespace Sys2Proof.Scalar

open Sys2Proof.Machine Sys2Proof.Spec Sys2Proof.Laws

/-! ## How a step goes on -/

/-- Adding no flags is invisible behind the step, which writes the same context once more. -/
theorem after_withFlags_zero (len : Nat) (s t : State) : after len s (withFlags s 0 t) = after len s t := by
  unfold withFlags
  split
  · rfl
  · simp [after]

/-- A step whose effect has moved the device to `t` with flags still to add (R75, R98). -/
theorem runInstr_addFlags {len : Nat} {body : M Unit} {s t : State} {f : BitVec 6} (h : body s = addFlags f t)
    (hg : t.grp = s.grp) : runInstr len body s = .next (after len s (withFlags s f t)) := by
  rw [runInstr_ok (h.trans (addFlags_run f t)), hg]
  rfl

theorem runInstr_done {len : Nat} {body : M Unit} {s t : State} (h : body s = .ok () t) :
    runInstr len body s = .next (after len s t) := runInstr_ok h

theorem runInstr_trap {len : Nat} {body : M Unit} {s t : State} {p : Trap} (h : body s = .error (.trap p) t) :
    runInstr len body s = .next (takeTrap p s) := runInstr_err h

/-! ## Shapes as whole steps -/

theorem grp_of_read {r : Reg} {s t : State} {v : Word} (h : readReg r s = .ok v t) : t.grp = s.grp :=
  (keepsM_readReg r s v t h).grp

theorem grp_of_write {r : Reg} {s t : State} {v : Word} (h : writeReg r v s = .ok () t) : t.grp = s.grp :=
  (keepsM_writeReg r v s () t h).grp

/-- A register-immediate step under a saturation field of 00, for a function that then raises no flag (R126, R129). -/
theorem aluI_step {d a : Reg} {imm : BitVec 13} {g : Nat → Word → Word → Word × BitVec 6} {f : Word → Word → Word}
    (hf : ∀ x y, g 0 x y = (f x y, 0)) {s s1 s2 : State} {x : Word} (hs : satField s = 0) (hm : FieldsOk s [d, a])
    (ha : readReg a s = .ok x s1) (hd : writeReg d (f x (immValue s.grp imm)) s1 = .ok () s2) :
    runInstr 4 (aluI d a imm g) s = .next (after 4 s s2) := by
  have hg := grp_of_read ha
  have hv : g s1.grp.sk x (immOf s1.grp imm) = (f x (immValue s.grp imm), 0) := by
    rw [hg, show s.grp.sk = 0 from hs, hf]
    rfl
  have hb := aluI_ok hm ha (f := g) (imm := imm) (d := d) (s2 := s2) (by rw [hv]; exact hd)
  rw [hv] at hb
  rw [runInstr_addFlags hb ((grp_of_write hd).trans hg), after_withFlags_zero]

/-- A shift by an immediate within 0–63 under a saturation field of 00 (R126, R129). -/
theorem aluShI_step {d a : Reg} {imm : BitVec 13} {g : Nat → Word → Word → Word × BitVec 6} {f : Word → Nat → Word}
    (hf : ∀ x, imm.toNat < 64 → g 0 x (imm.setWidth 64) = (f x imm.toNat, 0)) {s s1 s2 : State} {x : Word} (hs : satField s = 0)
    (hi : imm.toNat < 64) (hm : FieldsOk s [d, a]) (ha : readReg a s = .ok x s1) (hd : writeReg d (f x imm.toNat) s1 = .ok () s2) :
    runInstr 4 (aluShI d a imm g) s = .next (after 4 s s2) := by
  have hg := grp_of_read ha
  have hv : g s1.grp.sk x (imm.setWidth 64) = (f x imm.toNat, 0) := by
    rw [hg, show s.grp.sk = 0 from hs, hf x hi]
  have hb := aluShI_ok hm hi ha (f := g) (d := d) (s2 := s2) (by rw [hv]; exact hd)
  rw [hv] at hb
  rw [runInstr_addFlags hb ((grp_of_write hd).trans hg), after_withFlags_zero]

/-- A shift by an immediate of 64 or more raises reserved-field before it reads its operand (R105, R129). -/
theorem aluShI_reserved {d a : Reg} {imm : BitVec 13} (g : Nat → Word → Word → Word × BitVec 6) {s : State} (hi : 64 ≤ imm.toNat)
    (hm : FieldsOk s [d, a]) :
    runInstr 4 (aluShI d a imm g) s =
      .next (takeTrap ⟨0x02, BitVec.ofNat 64 (2 ^ 62 + s.grp.n * 2 ^ 32 + imm.toNat / 64 * 2 ^ 7)⟩ s) := by
  refine runInstr_trap (t := s) ?_
  unfold aluShI
  rw [bind_ok (fields_ok hm), run_get_bind, raiseIf_bind, if_pos (by simpa using hi)]
  rfl

/-! ## Integer values and images -/

theorem toInt_eq_ofNat (n v : Nat) : Machine.toInt (n + 1) v = (BitVec.ofNat (n + 1) v).toInt := by
  rw [BitVec.toInt_eq_msb_cond, BitVec.msb_eq_getLsbD_last, BitVec.getLsbD_ofNat]
  simp [Machine.toInt]

theorem opU_eq (w : Bool) (x : Word) : opU w x = if w then (x.setWidth 32).toNat else x.toNat := by
  cases w
  · exact Nat.mod_eq_of_lt x.isLt
  · exact (BitVec.toNat_setWidth 32 x).symm

theorem opS_eq (w : Bool) (x : Word) : opS w x = if w then (x.setWidth 32).toInt else x.toInt := by
  cases w
  · exact (toInt_eq_ofNat 63 x.toNat).trans (by simp)
  · exact (toInt_eq_ofNat 31 x.toNat).trans (congrArg BitVec.toInt (BitVec.eq_of_toNat_eq (by simp)))

theorem opU_false (x : Word) : opU false x = x.toNat := opU_eq false x

theorem opS_false (x : Word) : opS false x = x.toInt := opS_eq false x

theorem opSat_zero (w : Bool) (x : Word) : opSat w 0 x = opS w x := rfl

theorem resImage_false (v : Nat) : resImage false v = BitVec.ofNat 64 v := rfl

theorem wrapImage_false (e : Int) : wrapImage false e = BitVec.ofInt 64 e := by
  show BitVec.ofNat 64 (e % (2 ^ 64 : Nat)).toNat = BitVec.ofInt 64 e
  apply BitVec.eq_of_toNat_eq
  have := Int.emod_lt_of_pos e (show (0 : Int) < (2 ^ 64 : Nat) by norm_num)
  have := Int.emod_nonneg e (show ((2 ^ 64 : Nat) : Int) ≠ 0 by norm_num)
  simp only [BitVec.toNat_ofNat, BitVec.toNat_ofInt]
  omega

/-- An exact result that does not saturate is the bit vector of the integer. -/
theorem saturate_zero (e : Int) : saturate false 0 e = (BitVec.ofInt 64 e, 0) := by
  simp [saturate, wrapImage_false]

end Sys2Proof.Scalar
end

section
/-! PROOFS. O3: the immediate instructions and the constants. -/

namespace Sys2Proof.Scalar

open Sys2Proof.Machine Sys2Proof.Spec Sys2Proof.Laws

/-! ## Results of the immediate forms without saturation -/

theorem satBin_zero {f : Int → Int → Int} {g : Word → Word → Word} (h : ∀ x y, BitVec.ofInt 64 (f x.toInt y.toInt) = g x y)
    (x y : Word) : satBin false f 0 x y = (g x y, 0) := by
  rw [← h]
  simp only [satBin, opSat_zero, opS_false, saturate_zero]

theorem natBin_false {f : Nat → Nat → Nat} {g : Word → Word → Word} (h : ∀ x y, BitVec.ofNat 64 (f x.toNat y.toNat) = g x y)
    (k : Nat) (x y : Word) : natBin false f k x y = (g x y, 0) := by
  rw [← h]
  simp only [natBin, opU_false, resImage_false, Prod.mk.injEq, and_true]
  exact BitVec.eq_of_toNat_eq (by simp [width])

theorem intBin_false {f : Int → Int → Int} {g : Word → Word → Word} (h : ∀ x y, BitVec.ofInt 64 (f x.toInt y.toInt) = g x y)
    (k : Nat) (x y : Word) : intBin false f k x y = (g x y, 0) := by
  rw [← h]
  simp only [intBin, opS_false, wrapImage_false]

/-- Every form of `immForm` steps as `aluI` with a function that gives its result and no flag. -/
theorem immForm_shape {i : Instr} {d a : Reg} {imm : BitVec 13} {f : Word → Word → Word} (h : immForm i = some (d, a, imm, f)) :
    ∃ g, (∀ s, exec i s = runInstr 4 (aluI d a imm g) s) ∧ ∀ x y, g 0 x y = (f x y, 0) := by
  unfold immForm at h
  split at h
  case h_1 => cases h; exact ⟨_, fun _ => rfl, satBin_zero fun x y => by simp [BitVec.ofInt_add]⟩
  case h_2 => cases h; exact ⟨_, fun _ => rfl, natBin_false (fun x y => BitVec.eq_of_toNat_eq (by simp)) 0⟩
  case h_3 => cases h; exact ⟨_, fun _ => rfl, natBin_false (fun x y => BitVec.eq_of_toNat_eq (by simp)) 0⟩
  case h_4 => cases h; exact ⟨_, fun _ => rfl, natBin_false (fun x y => BitVec.eq_of_toNat_eq (by simp)) 0⟩
  case h_5 => cases h; exact ⟨_, fun _ => rfl, satBin_zero fun x y => by simp [BitVec.ofInt_mul]⟩
  case h_6 => cases h; exact ⟨_, fun _ => rfl, intBin_false (fun x y => by simp [BitVec.slt]; split <;> rfl) 0⟩
  case h_7 => cases h; exact ⟨_, fun _ => rfl, natBin_false (fun x y => by simp [BitVec.ult]; split <;> rfl) 0⟩
  case h_8 => cases h

/-! ## Shifts by an immediate -/

theorem shAmt_imm {imm : BitVec 13} (h : imm.toNat < 64) : shAmt false (imm.setWidth 64) = imm.toNat := by
  show (imm.setWidth 64).toNat % 64 = imm.toNat
  rw [BitVec.toNat_setWidth]
  omega

theorem shlRes_imm {imm : BitVec 13} (x : Word) (h : imm.toNat < 64) :
    shlRes false 0 x (imm.setWidth 64) = (x <<< imm.toNat, 0) := by
  simp only [shlRes, shAmt_imm h, opSat_zero, opS_false, saturate_zero, Prod.mk.injEq, and_true]
  rw [BitVec.shiftLeft_eq_mul_twoPow, BitVec.ofInt_mul, BitVec.ofInt_toInt, BitVec.ofInt_natCast]
  exact congrArg (x * ·) (BitVec.eq_of_toNat_eq (by simp))

theorem shrRes_imm {imm : BitVec 13} (x : Word) (h : imm.toNat < 64) :
    shrRes false 0 x (imm.setWidth 64) = (x >>> imm.toNat, 0) := by
  simp only [shrRes, shAmt_imm h, opU_false, resImage_false, Prod.mk.injEq, and_true]
  rw [← Nat.shiftRight_eq_div_pow, ← BitVec.toNat_ushiftRight, BitVec.ofNat_toNat, BitVec.setWidth_eq]

theorem sarRes_imm {imm : BitVec 13} (x : Word) (h : imm.toNat < 64) :
    sarRes false 0 x (imm.setWidth 64) = (x.sshiftRight imm.toNat, 0) := by
  simp only [sarRes, shAmt_imm h, opS_false, wrapImage_false, Prod.mk.injEq, and_true]
  rw [← Int.shiftRight_eq_div_pow]
  rfl

/-- Every form of `immShift` steps as `aluShI` with a function that gives its result and no flag. -/
theorem immShift_shape {i : Instr} {d a : Reg} {imm : BitVec 13} {f : Word → Nat → Word} (h : immShift i = some (d, a, imm, f)) :
    ∃ g, (∀ s, exec i s = runInstr 4 (aluShI d a imm g) s) ∧
      ∀ x, imm.toNat < 64 → g 0 x (imm.setWidth 64) = (f x imm.toNat, 0) := by
  unfold immShift at h
  split at h
  case h_1 => cases h; exact ⟨_, fun _ => rfl, shlRes_imm⟩
  case h_2 => cases h; exact ⟨_, fun _ => rfl, shrRes_imm⟩
  case h_3 => cases h; exact ⟨_, fun _ => rfl, sarRes_imm⟩
  case h_4 => cases h

theorem immediateResults : ImmediateResults := by
  refine ⟨fun i d a imm f h s s1 s2 x hs hm ha hd => ?_, fun i d a imm f h s s1 s2 x hs hi hm ha hd => ?_,
    fun i d a imm f h s hi hm => ?_⟩
  · obtain ⟨g, hg, hf⟩ := immForm_shape h
    rw [hg, aluI_step hf hs hm ha hd]
  · obtain ⟨g, hg, hf⟩ := immShift_shape h
    rw [hg, aluShI_step hf hs hi hm ha hd]
  · obtain ⟨g, hg, -⟩ := immShift_shape h
    rw [hg, aluShI_reserved g hi hm]

/-! ## Constants -/

/-- The registers whose number `lis` takes: general registers and `zr` (R131). -/
theorem plainReg_iff (r : Reg) : plainReg r = true ↔ r.toNat < 24 ∨ r.toNat = 31 := by
  simp [plainReg]

theorem lis_reserved (d : Reg) (imm : BitVec 19) (s : State) (hm : FieldsOk s [d]) (hlo : 24 ≤ d.toNat) (hhi : d.toNat ≤ 30) :
    exec (.lis d imm) s = .next (takeTrap ⟨0x02, d.setWidth 64⟩ s) := by
  have hp : plainReg d = false := by
    rw [← Bool.not_eq_true, plainReg_iff]
    omega
  refine runInstr_trap (body := bodyLis d imm) (t := s) ?_
  rw [bodyLis, bind_ok (fields_ok hm), raiseIf_bind, hp, ← BitVec.ofNat_toNat 64 d]
  rfl

theorem constantResults : ConstantResults := by
  refine ⟨fun d imm s s1 hm hd => ?_, fun d imm s s1 hm hd => ?_, fun d imm s s1 s2 x hm hp ha hd => ?_, lis_reserved⟩
  · exact runInstr_done ((bind_ok (fields_ok hm)).trans hd)
  · exact runInstr_done ((bind_ok (fields_ok hm)).trans hd)
  · refine runInstr_done (body := bodyLis d imm) ?_
    rw [bodyLis, bind_ok (fields_ok hm), bind_ok (raiseIf_ok (by simp [(plainReg_iff d).2 hp]) ..), bind_ok ha]
    exact hd

end Sys2Proof.Scalar

/-- Settles O3: each immediate form steps as `aluI` or `aluShI` with a function whose unsaturated result is its bit-vector function. -/
theorem immediateAndConstantResults : Obligations.ImmediateAndConstantResults :=
  ⟨Sys2Proof.Scalar.immediateResults, Sys2Proof.Scalar.constantResults⟩
end

section
/-! PROOFS. O7: comparisons, `sel` and the predicate instructions. -/

namespace Sys2Proof.Scalar

open Sys2Proof.Machine Sys2Proof.Spec Sys2Proof.Laws

/-! ## Conditions (R133, R134) -/

theorem decide_toNat_eq {n : Nat} (x y : BitVec n) : decide (x.toNat = y.toNat) = (x == y) := decide_eq_decide.2 BitVec.toNat_inj

theorem holds_eq (w : Bool) (x y : Word) : Cond.eq.holds w x y = rel w (fun _ x y => x == y) x y := by
  simp only [Cond.holds, opU_eq]
  cases w <;> exact decide_toNat_eq _ _

theorem holds_lt (w : Bool) (x y : Word) : Cond.lt.holds w x y = rel w (fun _ x y => x.slt y) x y := by
  simp only [Cond.holds, opS_eq]
  cases w <;> rfl

theorem holds_ltu (w : Bool) (x y : Word) : Cond.ltu.holds w x y = rel w (fun _ x y => x.ult y) x y := by
  simp only [Cond.holds, opU_eq]
  cases w <;> rfl

theorem rel_not (w : Bool) (f : (n : Nat) → BitVec n → BitVec n → Bool) (x y : Word) :
    rel w (fun n x y => !f n x y) x y = !rel w f x y := by
  cases w <;> rfl

theorem holds_ne (w : Bool) (x y : Word) : Cond.ne.holds w x y = rel w (fun _ x y => x != y) x y := by
  have h : Cond.ne.holds w x y = !Cond.eq.holds w x y := decide_not
  rw [h, holds_eq, ← rel_not]
  rfl

theorem holds_ge (w : Bool) (x y : Word) : Cond.ge.holds w x y = rel w (fun _ x y => !x.slt y) x y := by
  have h : Cond.ge.holds w x y = !Cond.lt.holds w x y := (decide_eq_decide.2 not_lt.symm).trans decide_not
  rw [h, holds_lt, rel_not]

theorem holds_geu (w : Bool) (x y : Word) : Cond.geu.holds w x y = rel w (fun _ x y => !x.ult y) x y := by
  have h : Cond.geu.holds w x y = !Cond.ltu.holds w x y := (decide_eq_decide.2 not_lt.symm).trans decide_not
  rw [h, holds_ltu, rel_not]

/-! ## The predicate word -/

theorem combine_eq (comb : BitVec 2) (old c : Bool) : combine comb old c = combined comb old c := by
  revert comb old c
  decide

theorem clear_or_self {n : Nat} (x m : BitVec n) : x &&& ~~~m ||| m = x ||| m := by
  ext j hj
  simp only [BitVec.getElem_or, BitVec.getElem_and, BitVec.getElem_not]
  cases x[j] <;> cases m[j] <;> rfl

/-- Writing bit `i` of `k`: the model clears the bit and puts the new one in its place. -/
theorem setK_eq (c : Context) (i : BitVec 5) (b : Bool) : c.setK i.toNat b = { c with k := putBit c.k i b } := by
  have h : (c.k &&& ~~~(1#32 <<< i.toNat)) ||| (if b then 1#32 <<< i.toNat else 0) = putBit c.k i b := by
    cases b
    · simp [putBit]
    · exact clear_or_self _ _
  rw [Context.setK, h]

theorem modMe_setK (s : State) (i : BitVec 5) (g : Context → Bool) :
    (s.modMe fun c => c.setK i.toNat (g c)) = putK s i (g s.me) := by
  have h (c : Context) : c.setK i.toNat (g c) = { c with k := putBit c.k i (g c) } := setK_eq c i (g c)
  simp only [h]
  rfl

/-! ## Compare -/

theorem compare_step {cond : Cond} {k : BitVec 5} {a b : Reg} {w : Bool} (comb : BitVec 2) {s s1 s2 : State} {x y : Word}
    (hm : FieldsOk s [a, b]) (ha : readReg a s = .ok x s1) (hb : readReg b s1 = .ok y s2) :
    runInstr 4 (Machine.compare cond k a b w comb) s =
      .next (after 4 s (putK s2 k (combined comb (s2.me.k.getLsbD k.toNat) (cond.holds w x y)))) := by
  refine runInstr_done ?_
  unfold Machine.compare
  rw [bind_ok (fields_ok hm), bind_ok ha, bind_ok hb, run_modMe,
    modMe_setK s2 k fun c => combine comb (c.kbit k.toNat) (cond.holds w x y), combine_eq]
  rfl

theorem compareI_step {cond : Cond} {k : BitVec 5} {a : Reg} (imm : BitVec 10) {s s1 : State} {x : Word}
    (hm : FieldsOk s [a]) (ha : readReg a s = .ok x s1) :
    runInstr 4 (compareI cond k a imm) s = .next (after 4 s (putK s1 k (cond.holds false x (imm.signExtend 64)))) := by
  refine runInstr_done ?_
  rw [compareI, bind_ok (fields_ok hm), bind_ok ha, run_modMe, modMe_setK s1 k fun _ => cond.holds false x (imm.signExtend 64)]

/-- Every form of `cmpForm` steps as `compare` with a condition that is its relation. -/
theorem cmpForm_shape {i : Instr} {k : BitVec 5} {a b : Reg} {comb : BitVec 2} {f : Word → Word → Bool}
    (h : cmpForm i = some (k, a, b, comb, f)) :
    ∃ cond w, (∀ s, exec i s = runInstr 4 (Machine.compare cond k a b w comb) s) ∧ ∀ x y, cond.holds w x y = f x y := by
  unfold cmpForm at h
  split at h
  case h_1 => cases h; exact ⟨.eq, _, fun _ => rfl, holds_eq _⟩
  case h_2 => cases h; exact ⟨.ne, _, fun _ => rfl, holds_ne _⟩
  case h_3 => cases h; exact ⟨.lt, _, fun _ => rfl, holds_lt _⟩
  case h_4 => cases h; exact ⟨.ge, _, fun _ => rfl, holds_ge _⟩
  case h_5 => cases h; exact ⟨.ltu, _, fun _ => rfl, holds_ltu _⟩
  case h_6 => cases h; exact ⟨.geu, _, fun _ => rfl, holds_geu _⟩
  case h_7 => cases h

/-- Every form of `cmpiForm` steps as `compareI` with a condition that is its relation at 64 bits. -/
theorem cmpiForm_shape {i : Instr} {k : BitVec 5} {a : Reg} {imm : BitVec 10} {f : Word → Word → Bool}
    (h : cmpiForm i = some (k, a, imm, f)) :
    ∃ cond, (∀ s, exec i s = runInstr 4 (compareI cond k a imm) s) ∧ ∀ x y, cond.holds false x y = f x y := by
  unfold cmpiForm at h
  split at h
  case h_1 => cases h; exact ⟨.eq, fun _ => rfl, holds_eq false⟩
  case h_2 => cases h; exact ⟨.ne, fun _ => rfl, holds_ne false⟩
  case h_3 => cases h; exact ⟨.lt, fun _ => rfl, holds_lt false⟩
  case h_4 => cases h; exact ⟨.ge, fun _ => rfl, holds_ge false⟩
  case h_5 => cases h; exact ⟨.ltu, fun _ => rfl, holds_ltu false⟩
  case h_6 => cases h; exact ⟨.geu, fun _ => rfl, holds_geu false⟩
  case h_7 => cases h

theorem compareResults : CompareResults := by
  refine ⟨fun i k a b comb f h s s1 s2 x y hm ha hb => ?_, fun i k a imm f h s s1 x hm ha => ?_⟩
  · obtain ⟨cond, w, hi, hf⟩ := cmpForm_shape h
    rw [hi, compare_step comb hm ha hb, hf]
  · obtain ⟨cond, hi, hf⟩ := cmpiForm_shape h
    rw [hi, compareI_step imm hm ha, hf]

/-! ## Select and the predicate instructions (R135, R136) -/

theorem sel_step {d a b : Reg} {inv : Bool} {kb : BitVec 5} {s s1 s2 s3 : State} {x y : Word} (hm : FieldsOk s [d, a, b])
    (ha : readReg a s = .ok x s1) (hb : readReg b s1 = .ok y s2)
    (hd : writeReg d (if xor (s2.me.k.getLsbD kb.toNat) inv then x else y) s2 = .ok () s3) :
    exec (.sel d a b inv kb) s = .next (after 4 s s3) := by
  refine runInstr_done (body := bodySel d a b inv kb) ?_
  rw [bodySel, bind_ok (fields_ok hm), bind_ok ha, bind_ok hb, run_me_bind]
  exact hd

theorem predicate_step (d a b : BitVec 5) (f : Bool → Bool → Bool) (s : State) :
    runInstr 4 (predicate d a b f) s =
      .next (after 4 s (putK s d (f (s.me.k.getLsbD a.toNat) (s.me.k.getLsbD b.toNat)))) := by
  refine runInstr_done ?_
  rw [predicate, run_modMe, modMe_setK s d fun c => f (c.kbit a.toNat) (c.kbit b.toNat)]
  rfl

theorem selectAndPredicateResults : SelectAndPredicateResults := by
  refine ⟨fun d a b inv kb s s1 s2 s3 x y hm ha hb hd => sel_step hm ha hb hd, fun d s s1 hm hd => ?_,
    fun a s s1 x hm ha => ?_, fun d a b s => ⟨predicate_step d a b (· && ·) s, predicate_step d a b (· || ·) s,
      predicate_step d a b (· != ·) s, predicate_step d a a (fun x _ => !x) s⟩⟩
  · refine runInstr_done (body := bodyKget d) ?_
    rw [bodyKget, bind_ok (fields_ok hm), run_me_bind]
    exact hd
  · refine runInstr_done (body := bodyKset a) ?_
    rw [bodyKset, bind_ok (fields_ok hm), bind_ok ha, run_modMe]

end Sys2Proof.Scalar

/-- Settles O7: each comparison steps as `compare` or `compareI` with a condition that is its relation, and `setK` writes one bit. -/
theorem comparesSelectsAndPredicates : Obligations.ComparesSelectsAndPredicates :=
  ⟨Sys2Proof.Scalar.compareResults, Sys2Proof.Scalar.selectAndPredicateResults⟩
end

section
/-! SUPPORT. Operands of the scalar floating-point formats: what the bits decode to, and the order of the values. -/

namespace Sys2Proof.Scalar

open Sys2Proof.Machine Sys2Proof.Spec Sys2Proof.Laws

/-! ## What an operand decodes to (R57, R58) -/

/-- The exponent of the least subnormal of a scalar format (Table 3.2). -/
def lowExp (dbl : Bool) : Int := if dbl then -1074 else -149

/-- The significand of a finite value with magnitude bits `m`. -/
def signif (dbl : Bool) (m : Nat) : Nat := if m < 2 ^ ft dbl then m else 2 ^ ft dbl + m % 2 ^ ft dbl

/-- The value with sign `s` and magnitude bits `m`. -/
def valueOf (dbl s : Bool) (m : Nat) : FVal :=
  if infMag dbl < m then .nan s (m.testBit (ft dbl - 1)) (m % 2 ^ ft dbl * 2 ^ (52 - ft dbl))
  else if m = infMag dbl then .inf s
  else .fin s (signif dbl m) (lowExp dbl + (m / 2 ^ ft dbl - 1 : Nat))

theorem fmtBits_fpFmt (dbl : Bool) : fmtBits (fpFmt dbl) = fw dbl := by cases dbl <;> rfl

theorem fpBits_fpFmt (dbl : Bool) (x : Word) : fpBits (fpFmt dbl) x = x.toNat % 2 ^ fw dbl := by
  rw [fpBits, fmtBits_fpFmt]

theorem signPos_fpFmt (dbl : Bool) : signPos (fpFmt dbl) = fw dbl - 1 := by rw [signPos, fmtBits_fpFmt]

theorem image_fpFmt (dbl : Bool) (v : Nat) : image (fpFmt dbl) v = BitVec.ofNat 64 (v % 2 ^ fw dbl) := by cases dbl <;> rfl

theorem t_fpFmt (dbl : Bool) : (ffmt (fpFmt dbl)).t = ft dbl := by cases dbl <;> rfl

theorem testBit_fpBits (dbl : Bool) (x : Word) {i : Nat} (h : i < fw dbl) : (fpBits (fpFmt dbl) x).testBit i = x.getLsbD i := by
  rw [fpBits_fpFmt, Nat.testBit_mod_two_pow, decide_eq_true h, Bool.true_and]
  rfl

theorem testBit_fmag (dbl : Bool) (x : Word) {i : Nat} (h : i < fw dbl - 1) : (fmag dbl x).testBit i = x.getLsbD i := by
  rw [fmag, Nat.testBit_mod_two_pow, decide_eq_true h, Bool.true_and]
  rfl

theorem fneg_fpBits (dbl : Bool) (x : Word) : (fpBits (fpFmt dbl) x).testBit (fw dbl - 1) = fneg dbl x :=
  testBit_fpBits dbl x (by cases dbl <;> decide)

theorem fpBits_mod_sign (dbl : Bool) (x : Word) : fpBits (fpFmt dbl) x % 2 ^ (fw dbl - 1) = fmag dbl x := by
  rw [fpBits_fpFmt, fmag]
  exact Nat.mod_mod_of_dvd _ (Nat.pow_dvd_pow 2 (Nat.sub_le _ 1))

theorem fmag_lt (dbl : Bool) (x : Word) : fmag dbl x < 2 ^ (fw dbl - 1) := Nat.mod_lt _ (by positivity)

/-- The exponent field of an operand. -/
theorem expField_fpBits (dbl : Bool) (x : Word) :
    nbits (fpBits (fpFmt dbl) x) (fw dbl - 1 - 1) (ft dbl) = fmag dbl x / 2 ^ ft dbl := by
  rw [← fpBits_mod_sign]
  generalize fpBits (fpFmt dbl) x = v
  cases dbl
  · show (v >>> 23) % 2 ^ 8 = v % 2 ^ 31 / 2 ^ 23
    rw [Nat.shiftRight_eq_div_pow]
    omega
  · show (v >>> 52) % 2 ^ 11 = v % 2 ^ 63 / 2 ^ 52
    rw [Nat.shiftRight_eq_div_pow]
    omega

/-- The fraction field of an operand. -/
theorem fraction_fpBits (dbl : Bool) (x : Word) : fpBits (fpFmt dbl) x % 2 ^ ft dbl = fmag dbl x % 2 ^ ft dbl := by
  rw [← fpBits_mod_sign, Nat.mod_mod_of_dvd _ (Nat.pow_dvd_pow 2 (by cases dbl <;> decide))]

theorem sign_place (dbl : Bool) : (ffmt (fpFmt dbl)).ebits + ft dbl = fw dbl - 1 := by cases dbl <;> rfl

theorem lowExp_eq (dbl : Bool) : lowExp dbl = 1 - (ffmt (fpFmt dbl)).bias - (ft dbl : Nat) := by cases dbl <;> rfl

theorem fpFmt_ne_8 (dbl : Bool) : fpFmt dbl ≠ 8 := by cases dbl <;> decide

/-- The exponent field is all ones from the bits of infinity on. -/
theorem expField_top_iff (dbl : Bool) {m : Nat} (h : m < 2 ^ (fw dbl - 1)) :
    m / 2 ^ ft dbl = 2 ^ (ffmt (fpFmt dbl)).ebits - 1 ↔ infMag dbl ≤ m := by
  cases dbl <;> norm_num [fw, ft, fpFmt, ffmt, infMag] at * <;> omega

/-- With the exponent field all ones, the fraction is zero in the bits of infinity alone. -/
theorem fraction_zero_iff (dbl : Bool) {m : Nat} (h : m < 2 ^ (fw dbl - 1)) (hi : infMag dbl ≤ m) :
    m % 2 ^ ft dbl = 0 ↔ m = infMag dbl := by
  cases dbl <;> norm_num [fw, ft, infMag] at * <;> omega

theorem quietBit_fraction (dbl : Bool) (m : Nat) : (m % 2 ^ ft dbl).testBit (ft dbl - 1) = m.testBit (ft dbl - 1) := by
  rw [Nat.testBit_mod_two_pow]
  cases dbl <;> rfl

theorem decodeF_fpBits (dbl : Bool) (x : Word) :
    decodeF (fpFmt dbl) (fpBits (fpFmt dbl) x) = valueOf dbl (fneg dbl x) (fmag dbl x) := by
  have hlt := fmag_lt dbl x
  unfold decodeF valueOf signif
  dsimp only
  rw [t_fpFmt]
  simp only [expField_fpBits, fraction_fpBits, sign_place, fneg_fpBits, fpFmt_ne_8, quietBit_fraction, expField_top_iff dbl hlt, ← lowExp_eq,
    ne_eq, not_false_eq_true, true_or, and_true, decide_false, Bool.false_or]
  by_cases hi : infMag dbl ≤ fmag dbl x
  · simp only [hi, if_true, fraction_zero_iff dbl hlt hi]
    by_cases he : fmag dbl x = infMag dbl
    · simp [he]
    · simp [he, lt_of_le_of_ne hi (Ne.symm he)]
  · have hn : ¬infMag dbl < fmag dbl x := fun h => hi h.le
    have he : fmag dbl x ≠ infMag dbl := fun h => hi h.ge
    simp only [hi, hn, he, if_false, Nat.div_eq_zero_iff]
    by_cases hs : fmag dbl x < 2 ^ ft dbl
    · simp [hs, Nat.mod_eq_of_lt hs, Nat.div_eq_of_lt hs]
    · simp [hs]

end Sys2Proof.Scalar
end

section
/-! SUPPORT. Class, sign and order of the values of scalar operands, from their bits. -/

namespace Sys2Proof.Scalar

open Sys2Proof.Machine Sys2Proof.Spec Sys2Proof.Laws

/-! ## The three kinds of value -/

variable {dbl s t : Bool} {m n : Nat}

theorem valueOf_nan (h : infMag dbl < m) :
    valueOf dbl s m = .nan s (m.testBit (ft dbl - 1)) (m % 2 ^ ft dbl * 2 ^ (52 - ft dbl)) := if_pos h

theorem valueOf_inf : valueOf dbl s (infMag dbl) = .inf s := by simp [valueOf]

theorem valueOf_fin (h : m < infMag dbl) : valueOf dbl s m = .fin s (signif dbl m) (lowExp dbl + (m / 2 ^ ft dbl - 1 : Nat)) := by
  rw [valueOf, if_neg h.not_gt, if_neg h.ne]

theorem two_pow_ft_lt_infMag (dbl : Bool) : 2 ^ ft dbl < infMag dbl := by cases dbl <;> decide

theorem signif_eq_zero_iff : signif dbl m = 0 ↔ m = 0 := by
  unfold signif
  have := Nat.two_pow_pos (ft dbl)
  split <;> omega

theorem signif_lt_iff : signif dbl m < 2 ^ ft dbl ↔ m < 2 ^ ft dbl := by
  unfold signif
  split <;> omega

/-! ## Class and sign -/

theorem valueOf_sign : (valueOf dbl s m).sign = s := by
  unfold valueOf
  split
  · rfl
  · split <;> rfl

theorem valueOf_isNaN : (valueOf dbl s m).isNaN = decide (infMag dbl < m) := by
  unfold valueOf
  split <;> rename_i h
  · exact (decide_eq_true h).symm
  · split <;> exact (decide_eq_false h).symm

theorem valueOf_isSNaN : (valueOf dbl s m).isSNaN = (decide (infMag dbl < m) && !m.testBit (ft dbl - 1)) := by
  unfold valueOf
  split <;> rename_i h
  · rw [decide_eq_true h]
    cases m.testBit (ft dbl - 1) <;> rfl
  · rw [decide_eq_false h]
    split <;> rfl

theorem isZero_fin (s : Bool) (m : Nat) (e : Int) : (FVal.fin s m e).isZero = decide (m = 0) := by
  cases m <;> rfl

theorem valueOf_isZero (h : m ≤ infMag dbl) : (valueOf dbl s m).isZero = decide (m = 0) := by
  rcases h.eq_or_lt with rfl | h
  · rw [valueOf_inf]
    cases dbl <;> rfl
  · rw [valueOf_fin h, isZero_fin]
    exact decide_eq_decide.2 signif_eq_zero_iff

/-! ## Order -/

/-- A magnitude with a sign. -/
def withMinus (s : Bool) (m : Nat) : Int := if s then -(m : Int) else m

theorem fkey_eq (dbl : Bool) (x : Word) : fkey dbl x = withMinus (fneg dbl x) (fmag dbl x) := rfl

theorem withMinus_lt_iff {f : Nat → Nat} (hf : StrictMono f) (h0 : f 0 = 0) :
    withMinus s (f m) < withMinus t (f n) ↔ withMinus s m < withMinus t n := by
  have hmn := hf.lt_iff_lt (a := m) (b := n)
  have hnm := hf.lt_iff_lt (a := n) (b := m)
  have hm := hf.lt_iff_lt (a := 0) (b := m)
  have hn := hf.lt_iff_lt (a := 0) (b := n)
  cases s <;> cases t <;> simp only [withMinus, if_true, if_false, Bool.false_eq_true] <;> omega

/-- The magnitude of a finite value in units of the least subnormal. -/
def scaled (dbl : Bool) (m : Nat) : Nat := signif dbl m * 2 ^ (m / 2 ^ ft dbl - 1)

theorem scaled_zero : scaled dbl 0 = 0 := by simp [scaled, signif]

/-- The magnitude by exponent field `e` and fraction `r`. -/
theorem scaled_fields (e : Nat) {r : Nat} (hr : r < 2 ^ ft dbl) :
    scaled dbl (2 ^ ft dbl * e + r) = if e = 0 then r else (2 ^ ft dbl + r) * 2 ^ (e - 1) := by
  have hdiv : (2 ^ ft dbl * e + r) / 2 ^ ft dbl = e := by
    rw [Nat.mul_add_div (Nat.two_pow_pos _), Nat.div_eq_of_lt hr, Nat.add_zero]
  have hmod : (2 ^ ft dbl * e + r) % 2 ^ ft dbl = r := by rw [Nat.mul_add_mod, Nat.mod_eq_of_lt hr]
  rw [scaled, signif, hdiv, hmod]
  rcases Nat.eq_zero_or_pos e with rfl | he
  · simp [hr]
  · have : 2 ^ ft dbl * 1 ≤ 2 ^ ft dbl * e := Nat.mul_le_mul_left _ he
    rw [if_neg (by omega), if_neg he.ne']

/-- The next magnitude bits are the next significand of the binade, or the next binade begins. -/
theorem scaled_lt_succ (dbl : Bool) (m : Nat) : scaled dbl m < scaled dbl (m + 1) := by
  obtain ⟨e, r, hr, rfl⟩ : ∃ e r, r < 2 ^ ft dbl ∧ m = 2 ^ ft dbl * e + r :=
    ⟨m / 2 ^ ft dbl, m % 2 ^ ft dbl, Nat.mod_lt _ (Nat.two_pow_pos _), (Nat.div_add_mod _ _).symm⟩
  by_cases hn : r + 1 < 2 ^ ft dbl
  · rw [Nat.add_assoc, scaled_fields e hr, scaled_fields e hn]
    split
    · exact Nat.lt_succ_self r
    · exact Nat.mul_lt_mul_of_pos_right (by omega) (Nat.two_pow_pos _)
  · have hnext : 2 ^ ft dbl * e + r + 1 = 2 ^ ft dbl * (e + 1) + 0 := by rw [Nat.mul_succ]; omega
    rw [hnext, scaled_fields e hr, scaled_fields (e + 1) (Nat.two_pow_pos _), if_neg (Nat.succ_ne_zero e), Nat.add_zero, Nat.add_sub_cancel]
    rcases Nat.eq_zero_or_pos e with rfl | he
    · simpa using hr
    · rw [if_neg he.ne', show (2 : Nat) ^ e = 2 * 2 ^ (e - 1) by rw [← pow_succ', Nat.sub_add_cancel he], ← Nat.mul_assoc]
      exact Nat.mul_lt_mul_of_pos_right (by omega) (Nat.two_pow_pos _)

theorem scaled_strictMono (dbl : Bool) : StrictMono (scaled dbl) := strictMono_nat_of_lt_succ (scaled_lt_succ dbl)

/-- The integer of a finite value at a lower exponent. -/
theorem finAt_of_le {b c e : Int} (hb : b ≤ c) (hc : c ≤ e) : finAt s m e b = finAt s m e c * 2 ^ (c - b).toNat := by
  have h : (e - b).toNat = (e - c).toNat + (c - b).toNat := by omega
  cases s <;> simp [finAt, h, pow_add, mul_assoc]

/-- Finite values compare alike at any exponent below both of theirs. -/
theorem finAt_lt_iff {b e1 e2 : Int} (h1 : b ≤ e1) (h2 : b ≤ e2) :
    finAt s m e1 (min e1 e2) < finAt t n e2 (min e1 e2) ↔ finAt s m e1 b < finAt t n e2 b := by
  rw [finAt_of_le (le_min h1 h2) (min_le_left _ _), finAt_of_le (le_min h1 h2) (min_le_right _ _)]
  exact (mul_lt_mul_iff_left₀ (by positivity)).symm

theorem finAt_scaled : finAt s (signif dbl m) (lowExp dbl + (m / 2 ^ ft dbl - 1 : Nat)) (lowExp dbl) = withMinus s (scaled dbl m) := by
  rw [finAt, add_sub_cancel_left, Int.toNat_natCast]
  rfl

/-- Values that are not NaNs are ordered as their signed magnitudes. -/
theorem valueOf_lt (hm : m ≤ infMag dbl) (hn : n ≤ infMag dbl) :
    (valueOf dbl s m).lt (valueOf dbl t n) = decide (withMinus s m < withMinus t n) := by
  have hp : 0 < infMag dbl := (Nat.two_pow_pos _).trans (two_pow_ft_lt_infMag dbl)
  rcases hm.eq_or_lt with rfl | hm <;> rcases hn.eq_or_lt with rfl | hn
  · rw [valueOf_inf, valueOf_inf]
    cases s <;> cases t <;> simp [FVal.lt, withMinus]; omega
  · rw [valueOf_inf, valueOf_fin hn]
    cases s <;> cases t <;> simp [FVal.lt, withMinus] <;> omega
  · rw [valueOf_inf, valueOf_fin hm]
    cases s <;> cases t <;> simp [FVal.lt, withMinus] <;> omega
  · rw [valueOf_fin hm, valueOf_fin hn]
    refine decide_eq_decide.2 ?_
    rw [finAt_lt_iff (b := lowExp dbl) (by omega) (by omega), finAt_scaled, finAt_scaled,
      withMinus_lt_iff (scaled_strictMono dbl) scaled_zero]

theorem valueOf_eqv (hm : m ≤ infMag dbl) (hn : n ≤ infMag dbl) :
    (valueOf dbl s m).eqv (valueOf dbl t n) = decide (withMinus s m = withMinus t n) := by
  rw [FVal.eqv, valueOf_isNaN, valueOf_isNaN, valueOf_lt hm hn, valueOf_lt hn hm, decide_eq_false hm.not_gt, decide_eq_false hn.not_gt]
  rw [Bool.eq_iff_iff]
  simp only [Bool.not_false, Bool.true_and, Bool.and_eq_true, Bool.not_eq_true', decide_eq_false_iff_not, decide_eq_true_eq]
  omega

end Sys2Proof.Scalar
end

section
/-! SUPPORT. Results of the floating-point functions that look at bits, and of `fcmp`, from the bits of their operands. -/

namespace Sys2Proof.Scalar

open Sys2Proof.Machine Sys2Proof.Spec Sys2Proof.Laws

/-! ## Operands -/

/-- The value of a scalar operand in a register (R55, R57). -/
def operandVal (dbl : Bool) (x : Word) : FVal := decodeF (fpFmt dbl) (fpBits (fpFmt dbl) x)

theorem operandVal_eq (dbl : Bool) (x : Word) : operandVal dbl x = valueOf dbl (fneg dbl x) (fmag dbl x) := decodeF_fpBits dbl x

theorem isNaN_operandVal (dbl : Bool) (x : Word) : (operandVal dbl x).isNaN = fnan dbl x := by
  rw [operandVal_eq, valueOf_isNaN, fnan]

theorem isSNaN_operandVal (dbl : Bool) (x : Word) : (operandVal dbl x).isSNaN = fsnan dbl x := by
  rw [operandVal_eq, valueOf_isSNaN, testBit_fmag dbl x (by cases dbl <;> decide), fsnan, fnan]

theorem fmag_le_of_not_fnan {dbl : Bool} {x : Word} (h : fnan dbl x = false) : fmag dbl x ≤ infMag dbl :=
  not_lt.1 (of_decide_eq_false h)

/-- The bits of an operand: its magnitude under its sign. -/
theorem fpBits_split (dbl : Bool) (x : Word) :
    fpBits (fpFmt dbl) x = fmag dbl x + if fneg dbl x then 2 ^ (fw dbl - 1) else 0 := by
  rw [fpBits_fpFmt, fneg, BitVec.getLsbD, Nat.testBit_eq_decide_div_mod_eq, fmag]
  generalize x.toNat = v
  cases dbl <;> simp only [fw, Bool.false_eq_true, if_false, if_true, decide_eq_true_eq] <;> split <;> omega

/-! ## Sign operations (R139) -/

/-- Operand bits written back are the operand in its image. -/
theorem image_fpBits (dbl : Bool) (x : Word) : image (fpFmt dbl) (fpBits (fpFmt dbl) x) = fimg dbl x := by
  rw [image_fpFmt, fpBits_fpFmt, Nat.mod_mod]
  apply BitVec.eq_of_toNat_eq
  cases dbl
  · simp [fw, fimg]
  · simp [fw, fimg, x.isLt]

theorem image_withSign (dbl : Bool) (x : Word) (s : Bool) :
    image (fpFmt dbl) (withSign (fpFmt dbl) (fpBits (fpFmt dbl) x) s) = fwith dbl x s := by
  have hlt := fmag_lt dbl x
  have hw : 2 ^ fw dbl = 2 ^ (fw dbl - 1) + 2 ^ (fw dbl - 1) := by cases dbl <;> rfl
  rw [image_fpFmt, withSign, signPos_fpFmt, fpBits_mod_sign, Nat.mod_eq_of_lt (by split <;> omega)]
  rfl

theorem nbit_sign (dbl : Bool) (x : Word) : nbit (fpBits (fpFmt dbl) x) (signPos (fpFmt dbl)) = fneg dbl x := by
  rw [signPos_fpFmt]
  exact fneg_fpBits dbl x

/-! ## Classes (R141) -/

/-- The bit of Table 6.9 that an operand's class sets. -/
def classBit (dbl : Bool) (x : Word) : Nat :=
  let m := fmag dbl x
  let n := fneg dbl x
  if m = infMag dbl then (if n then 0 else 7) else if infMag dbl < m then (if fsnan dbl x then 8 else 9)
    else if m = 0 then (if n then 3 else 4) else if m < 2 ^ ft dbl then (if n then 2 else 5) else (if n then 1 else 6)

theorem fClass_nan (code : Nat) {v : FVal} (h : v.isNaN = true) : fClass code v = if v.isSNaN then 2 ^ 8 else 2 ^ 9 := by
  cases v with
  | nan s q f => cases q <;> rfl
  | inf s => cases h
  | fin s m e => cases h

theorem fClass_operandVal (dbl : Bool) (x : Word) : fClass (fpFmt dbl) (operandVal dbl x) = 2 ^ classBit dbl x := by
  unfold classBit
  dsimp only
  rcases lt_trichotomy (fmag dbl x) (infMag dbl) with h | h | h
  · rw [operandVal_eq, valueOf_fin h, fClass, t_fpFmt]
    simp only [signif_eq_zero_iff, signif_lt_iff, h.ne, h.not_gt, if_false]
    split_ifs <;> rfl
  · rw [operandVal_eq, h, valueOf_inf, if_pos rfl, fClass]
    split <;> rfl
  · have hn : (operandVal dbl x).isNaN = true := by rw [isNaN_operandVal]; exact decide_eq_true h
    rw [fClass_nan _ hn, isSNaN_operandVal, if_neg h.ne', if_pos h]
    split <;> rfl

/-! ## Minimum and maximum (R140) -/

theorem fIf_nv (p : Bool) : fIf p fNV = if p then 0b100000 else 0 := rfl

theorem nanOf_pair (code : Nat) (s q : Bool) (f : Nat) (y : FVal) :
    nanOf code [.nan s q f, y] = some (nanBits code s f, fIf ((FVal.nan s q f).isSNaN || y.isSNaN) fNV) := by
  cases q <;> simp [nanOf, FVal.isSNaN]

/-- The quiet bit set in a fraction that lies at the top of 52 bits. -/
theorem quieted_fraction (dbl : Bool) (f : Nat) : (f * 2 ^ (52 - ft dbl) ||| 2 ^ 51) / 2 ^ (52 - ft dbl) = f ||| 2 ^ (ft dbl - 1) := by
  rw [Nat.or_div_two_pow, Nat.mul_div_cancel _ (Nat.two_pow_pos _)]
  cases dbl <;> rfl

/-- The quiet bit lies within the fraction: setting it leaves the fields above alone. -/
theorem add_or_quiet (dbl : Bool) {f : Nat} (h : f < 2 ^ ft dbl) (a : Nat) :
    2 ^ ft dbl * a + (f ||| 2 ^ (ft dbl - 1)) = (2 ^ ft dbl * a + f) ||| 2 ^ (ft dbl - 1) := by
  have hq : 2 ^ (ft dbl - 1) < 2 ^ ft dbl := by cases dbl <;> decide
  rw [Nat.two_pow_add_eq_or_of_lt (Nat.or_lt_two_pow h hq), Nat.two_pow_add_eq_or_of_lt h, Nat.or_assoc]

/-- The bits of infinity with a sign are a multiple of the fraction's unit. -/
theorem infBits_fpFmt (dbl s : Bool) :
    infBits (fpFmt dbl) s = (if s then 2 ^ (fw dbl - 1) else 0) + infMag dbl ∧ 2 ^ ft dbl ∣ infBits (fpFmt dbl) s := by
  cases dbl <;> cases s <;> decide

theorem fmag_of_nan {dbl : Bool} {x : Word} (h : infMag dbl < fmag dbl x) :
    fmag dbl x = infMag dbl + fmag dbl x % 2 ^ ft dbl := by
  have := fmag_lt dbl x
  cases dbl <;> norm_num [fw, ft, infMag] at * <;> omega

/-- The NaN result of an operand has the operand's bits and the quiet bit (R58). -/
theorem nanBits_operand {dbl : Bool} {x : Word} (h : infMag dbl < fmag dbl x) :
    nanBits (fpFmt dbl) (fneg dbl x) (fmag dbl x % 2 ^ ft dbl * 2 ^ (52 - ft dbl)) = fpBits (fpFmt dbl) x ||| 2 ^ (ft dbl - 1) := by
  obtain ⟨hi, a, ha⟩ := infBits_fpFmt dbl (fneg dbl x)
  have hb : fpBits (fpFmt dbl) x = infBits (fpFmt dbl) (fneg dbl x) + fmag dbl x % 2 ^ ft dbl := by
    have := fpBits_split dbl x
    have := fmag_of_nan h
    omega
  rw [nanBits, if_neg (fpFmt_ne_8 dbl), t_fpFmt, quieted_fraction, hb, ha]
  exact add_or_quiet dbl (Nat.mod_lt _ (Nat.two_pow_pos _)) a

/-- A NaN operand's payload written back is the operand quieted (R58). -/
theorem image_nanBits {dbl : Bool} {x : Word} (h : infMag dbl < fmag dbl x) :
    image (fpFmt dbl) (nanBits (fpFmt dbl) (fneg dbl x) (fmag dbl x % 2 ^ ft dbl * 2 ^ (52 - ft dbl))) = fquiet dbl x := by
  rw [fquiet, nanBits_operand h, image_fpFmt, Nat.or_mod_two_pow, BitVec.ofNat_or, ← image_fpFmt, image_fpBits]
  cases dbl <;> rfl

theorem valueOf_below {dbl s t : Bool} {m n : Nat} (hm : m ≤ infMag dbl) (hn : n ≤ infMag dbl) :
    (valueOf dbl s m).below (valueOf dbl t n) =
      decide (withMinus s m < withMinus t n ∨ (withMinus s m = withMinus t n ∧ s = true ∧ t = false)) := by
  rw [FVal.below, valueOf_isNaN, valueOf_isNaN, decide_eq_false hm.not_gt, decide_eq_false hn.not_gt, valueOf_lt hm hn,
    valueOf_isZero hm, valueOf_isZero hn, valueOf_sign, valueOf_sign]
  cases s <;> cases t <;> simp [withMinus]

theorem operandVal_below {dbl : Bool} {x y : Word} (hx : fnan dbl x = false) (hy : fnan dbl y = false) :
    (operandVal dbl x).below (operandVal dbl y) =
      decide (fkey dbl x < fkey dbl y ∨ (fkey dbl x = fkey dbl y ∧ fneg dbl x = true ∧ fneg dbl y = false)) := by
  rw [operandVal_eq, operandVal_eq, valueOf_below (fmag_le_of_not_fnan hx) (fmag_le_of_not_fnan hy), fkey_eq, fkey_eq]

theorem fMinMax_operands (dbl hi : Bool) (x y : Word) :
    let r := fMinMax (fpFmt dbl) hi (operandVal dbl x) (operandVal dbl y) (fpBits (fpFmt dbl) x) (fpBits (fpFmt dbl) y)
    (image (fpFmt dbl) r.1, r.2) = fpBitForm.minMax dbl hi x y := by
  dsimp only
  unfold fMinMax fpBitForm.minMax
  simp only [isNaN_operandVal, isSNaN_operandVal, fIf_nv]
  cases hx : fnan dbl x <;> cases hy : fnan dbl y
  case false.false =>
    rw [operandVal_below hx hy]
    simp only [Bool.and_self, Bool.false_eq_true, if_false, decide_eq_true_eq]
    split_ifs <;> exact Prod.ext (image_fpBits dbl _) rfl
  case false.true => exact Prod.ext (image_fpBits dbl x) rfl
  case true.false => exact Prod.ext (image_fpBits dbl y) rfl
  case true.true =>
    have hlt := of_decide_eq_true hx
    have hv := (operandVal_eq dbl x).trans (valueOf_nan hlt)
    have hq := isSNaN_operandVal dbl x
    rw [hv] at hq ⊢
    rw [nanOf_pair, hq, isSNaN_operandVal]
    exact Prod.ext (image_nanBits hlt) rfl

end Sys2Proof.Scalar
end

section
/-! PROOFS. O14: the floating-point instructions that look at bits, and `fcmp`. -/

namespace Sys2Proof.Scalar

open Sys2Proof.Machine Sys2Proof.Spec Sys2Proof.Laws

/-! ## How a floating-point instruction ends (R75, R76, R139) -/

theorem fpTrap_trapping {f : BitVec 6} {s : State} (h : trapping s f) :
    fpTrap f s = .error (.trap ⟨0x0D, BitVec.ofNat 64 (f.toNat / 2)⟩) s := by
  have hp : ((f.extractLsb' 1 5 &&& s.me.te) != 0) = true := bne_iff_ne.2 h
  rw [fpTrap, run_me_bind, run_raiseIf, if_pos hp]
  rfl

theorem fpTrap_quiet {f : BitVec 6} {s : State} (h : ¬trapping s f) : fpTrap f s = .ok () s := by
  have hp : ((f.extractLsb' 1 5 &&& s.me.te) != 0) = false := bne_eq_false_iff_eq.2 (not_not.1 h)
  rw [fpTrap, run_me_bind, raiseIf_ok hp]

/-- A step that began in `s` and has read its operands by `s1` ends with result and flags `r`: it traps on an enabled exception, and
otherwise writes `d` and adds the flags. -/
def EndsWith (s s1 : State) (d : Reg) (r : Word × BitVec 6) (o : Out) : Prop :=
  (trapping s1 r.2 → o = .next (takeTrap ⟨0x0D, BitVec.ofNat 64 (r.2.toNat / 2)⟩ s)) ∧
  ∀ s2, ¬trapping s1 r.2 → writeReg d r.1 s1 = .ok () s2 → o = .next (after 4 s (withFlags s r.2 s2))

theorem endsWith_fpEnd {body : M Unit} {s s1 : State} {d : Reg} {code : Nat} {r : FRes} (h : body s = fpEnd d code r s1)
    (hg : s1.grp = s.grp) : EndsWith s s1 d (image code r.1, r.2) (runInstr 4 body s) := by
  refine ⟨fun ht => runInstr_trap (t := s1) ?_, fun s2 ht hd => runInstr_addFlags (t := s2) ?_ ((grp_of_write hd).trans hg)⟩
  · rw [h, fpEnd, bind_err (fpTrap_trapping ht)]
  · rw [h, fpEnd, bind_ok (fpTrap_quiet ht), bind_ok hd]

theorem not_trapping_zero (s : State) : ¬trapping s 0 := by simp [trapping]

/-- A step that writes its result and knows no flags. -/
theorem endsWith_write {body : M Unit} {s s1 : State} {d : Reg} {v : Word} (h : body s = writeReg d v s1) :
    EndsWith s s1 d (v, 0) (runInstr 4 body s) := by
  refine ⟨fun ht => absurd ht (not_trapping_zero s1), fun s2 _ hd => ?_⟩
  rw [after_withFlags_zero]
  exact runInstr_done (h.trans hd)

/-- A function that does not round draws nothing (R69, R73). -/
theorem rounding_false (s : State) :
    rounding false s = .ok ⟨effRnd s.grp s.me.mode, s.grp.arith, s.grp.sat.toNat, false, 0⟩ s := by
  rw [rounding, run_get_bind, Bool.and_false]
  rfl

theorem fp1_ends {d a : Reg} {dbl : Bool} {f : Nat → REnv → Nat → FRes} {F : Word → Word × BitVec 6}
    (hF : ∀ v x, let r := f (fpFmt dbl) v (fpBits (fpFmt dbl) x); (image (fpFmt dbl) r.1, r.2) = F x) {s s1 : State} {x : Word}
    (hm : FieldsOk s [d, a]) (ha : readReg a s = .ok x s1) : EndsWith s s1 d (F x) (runInstr 4 (fp1 d a dbl false f) s) := by
  rw [← hF ⟨effRnd s1.grp s1.me.mode, s1.grp.arith, s1.grp.sat.toNat, false, 0⟩ x]
  refine endsWith_fpEnd ?_ (grp_of_read ha)
  rw [fp1, bind_ok (fields_ok hm), bind_ok ha, bind_ok (rounding_false s1)]

theorem fp2_ends {d a b : Reg} {dbl : Bool} {f : Nat → REnv → Nat → Nat → FRes} {F : Word → Word → Word × BitVec 6}
    (hF : ∀ v x y, let r := f (fpFmt dbl) v (fpBits (fpFmt dbl) x) (fpBits (fpFmt dbl) y); (image (fpFmt dbl) r.1, r.2) = F x y)
    {s s1 s2 : State} {x y : Word} (hm : FieldsOk s [d, a, b]) (ha : readReg a s = .ok x s1) (hb : readReg b s1 = .ok y s2) :
    EndsWith s s2 d (F x y) (runInstr 4 (fp2 d a b dbl false f) s) := by
  rw [← hF ⟨effRnd s2.grp s2.me.mode, s2.grp.arith, s2.grp.sat.toNat, false, 0⟩ x y]
  refine endsWith_fpEnd ?_ ((grp_of_read hb).trans (grp_of_read ha))
  rw [fp2, bind_ok (fields_ok hm), bind_ok ha, bind_ok hb, bind_ok (rounding_false s2)]

/-! ## The forms that look at bits -/

theorem readAll_cons {r : Reg} {rs : List Reg} {s t : State} {xs : List Word} (h : readAll (r :: rs) s = some (xs, t)) :
    ∃ v s1 ys, readReg r s = .ok v s1 ∧ readAll rs s1 = some (ys, t) ∧ xs = v :: ys := by
  rw [readAll] at h
  cases hr : readReg r s with
  | ok v s1 =>
    rw [hr] at h
    obtain ⟨⟨ys, t'⟩, hys, he⟩ := Option.map_eq_some_iff.1 h
    cases he
    exact ⟨v, s1, ys, rfl, hys, rfl⟩
  | error e s1 => rw [hr] at h; cases h

theorem readAll_one {a : Reg} {s s1 : State} {xs : List Word} (h : readAll [a] s = some (xs, s1)) :
    ∃ x, readReg a s = .ok x s1 ∧ xs = [x] := by
  obtain ⟨x, s', ys, ha, hn, rfl⟩ := readAll_cons h
  cases hn
  exact ⟨x, ha, rfl⟩

theorem readAll_two {a b : Reg} {s s2 : State} {xs : List Word} (h : readAll [a, b] s = some (xs, s2)) :
    ∃ x y s1, readReg a s = .ok x s1 ∧ readReg b s1 = .ok y s2 ∧ xs = [x, y] := by
  obtain ⟨x, s1, ys, ha, hr, rfl⟩ := readAll_cons h
  obtain ⟨y, hb, rfl⟩ := readAll_one hr
  exact ⟨x, y, s1, ha, hb, rfl⟩

theorem fabs_ends {d a : Reg} {dbl : Bool} {s s1 : State} {xs : List Word} (hm : FieldsOk s [d, a])
    (hr : readAll [a] s = some (xs, s1)) :
    EndsWith s s1 d (fwith dbl (xs.headD 0) false, 0) (runInstr 4 (bodyFabs d a dbl) s) := by
  obtain ⟨x, ha, rfl⟩ := readAll_one hr
  refine fp1_ends (F := fun x => (fwith dbl x false, 0)) (fun _ x => Prod.ext ?_ rfl) hm ha
  exact image_withSign dbl x false

theorem fneg_ends {d a : Reg} {dbl : Bool} {s s1 : State} {xs : List Word} (hm : FieldsOk s [d, a])
    (hr : readAll [a] s = some (xs, s1)) :
    EndsWith s s1 d (fwith dbl (xs.headD 0) !(fneg dbl (xs.headD 0)), 0) (runInstr 4 (bodyFneg d a dbl) s) := by
  obtain ⟨x, ha, rfl⟩ := readAll_one hr
  refine fp1_ends (F := fun x => (fwith dbl x !(fneg dbl x), 0)) (fun _ x => Prod.ext ?_ rfl) hm ha
  exact (image_withSign dbl x _).trans (by rw [nbit_sign])

theorem fsgnj_ends {d a b : Reg} {dbl : Bool} {s s1 : State} {xs : List Word} (hm : FieldsOk s [d, a, b])
    (hr : readAll [a, b] s = some (xs, s1)) :
    EndsWith s s1 d (fwith dbl (xs.headD 0) (fneg dbl (xs.getD 1 0)), 0) (runInstr 4 (bodyFsgnj d a b dbl) s) := by
  obtain ⟨x, y, s', ha, hb, rfl⟩ := readAll_two hr
  refine fp2_ends (F := fun x y => (fwith dbl x (fneg dbl y), 0)) (fun _ x y => Prod.ext ?_ rfl) hm ha hb
  exact (image_withSign dbl x _).trans (by rw [nbit_sign])

theorem fclass_ends {d a : Reg} {dbl : Bool} {s s1 : State} {xs : List Word} (hm : FieldsOk s [d, a])
    (hr : readAll [a] s = some (xs, s1)) :
    EndsWith s s1 d (BitVec.ofNat 64 (2 ^ classBit dbl (xs.headD 0)), 0) (runInstr 4 (bodyFclass d a dbl) s) := by
  obtain ⟨x, ha, rfl⟩ := readAll_one hr
  refine endsWith_write ?_
  rw [bodyFclass, bind_ok (fields_ok hm), bind_ok ha, List.headD_cons, ← fClass_operandVal]
  rfl

/-- `fmin` and `fmax` (R140). -/
theorem minMax_ends {d a b : Reg} {dbl : Bool} (hi : Bool) {s s1 : State} {xs : List Word} (hm : FieldsOk s [d, a, b])
    (hr : readAll [a, b] s = some (xs, s1)) :
    EndsWith s s1 d (fpBitForm.minMax dbl hi (xs.headD 0) (xs.getD 1 0))
      (runInstr 4 (fp2 d a b dbl false fun c _ x y => fMinMax c hi (decodeF c x) (decodeF c y) x y) s) := by
  obtain ⟨x, y, s', ha, hb, rfl⟩ := readAll_two hr
  refine fp2_ends (F := fpBitForm.minMax dbl hi) (fun _ x y => ?_) hm ha hb
  exact fMinMax_operands dbl hi x y

/-- Every form of `fpBitForm` steps as a body that ends with its function of the operands read. -/
theorem fpBitForm_shape {i : Instr} {d : Reg} {rs : List Reg} {f : List Word → Word × BitVec 6} (h : fpBitForm i = some (d, rs, f)) :
    ∃ body, (∀ s, exec i s = runInstr 4 body s) ∧ ∀ {s s1 : State} {xs : List Word}, FieldsOk s (d :: rs) →
      readAll rs s = some (xs, s1) → EndsWith s s1 d (f xs) (runInstr 4 body s) := by
  unfold fpBitForm at h
  split at h
  case h_1 => cases h; exact ⟨_, fun _ => rfl, fabs_ends⟩
  case h_2 => cases h; exact ⟨_, fun _ => rfl, fneg_ends⟩
  case h_3 => cases h; exact ⟨_, fun _ => rfl, fsgnj_ends⟩
  case h_4 => cases h; exact ⟨_, fun _ => rfl, fclass_ends⟩
  case h_5 => cases h; exact ⟨_, fun _ => rfl, minMax_ends false⟩
  case h_6 => cases h; exact ⟨_, fun _ => rfl, minMax_ends true⟩
  case h_7 => cases h

theorem fpBitResults : FpBitResults := by
  intro i d rs f h s s1 s2 xs hm hr
  obtain ⟨body, hi, hf⟩ := fpBitForm_shape h
  obtain ⟨htrap, hnext⟩ := hf hm hr
  rw [hi]
  exact ⟨htrap, hnext s2⟩

/-! ## Comparison (R144) -/

theorem operandVal_lt {dbl : Bool} {x y : Word} (hx : fnan dbl x = false) (hy : fnan dbl y = false) :
    (operandVal dbl x).lt (operandVal dbl y) = decide (fkey dbl x < fkey dbl y) := by
  rw [operandVal_eq, operandVal_eq, valueOf_lt (fmag_le_of_not_fnan hx) (fmag_le_of_not_fnan hy), fkey_eq, fkey_eq]

theorem num_lt (dbl : Bool) (x y : Word) :
    (!((operandVal dbl x).isNaN || (operandVal dbl y).isNaN) && (operandVal dbl x).lt (operandVal dbl y)) =
      (fcmpForm.num dbl x y && decide (fkey dbl x < fkey dbl y)) := by
  rw [isNaN_operandVal, isNaN_operandVal, fcmpForm.num]
  cases hx : fnan dbl x <;> cases hy : fnan dbl y
  case false.false => rw [operandVal_lt hx hy]; rfl
  all_goals rfl

theorem num_le (dbl : Bool) (x y : Word) :
    (!((operandVal dbl x).isNaN || (operandVal dbl y).isNaN) && !(operandVal dbl y).lt (operandVal dbl x)) =
      (fcmpForm.num dbl x y && decide (fkey dbl x ≤ fkey dbl y)) := by
  rw [isNaN_operandVal, isNaN_operandVal, fcmpForm.num]
  cases hx : fnan dbl x <;> cases hy : fnan dbl y
  case false.false => rw [operandVal_lt hy hx, ← decide_not]; simp only [not_lt]; rfl
  all_goals rfl

theorem operandVal_eqv (dbl : Bool) (x y : Word) :
    (operandVal dbl x).eqv (operandVal dbl y) = (fcmpForm.num dbl x y && fkey dbl x == fkey dbl y) := by
  cases hx : fnan dbl x <;> cases hy : fnan dbl y
  case false.false =>
    rw [operandVal_eq, operandVal_eq, valueOf_eqv (fmag_le_of_not_fnan hx) (fmag_le_of_not_fnan hy), fcmpForm.num, hx, hy]
    rfl
  all_goals simp [FVal.eqv, isNaN_operandVal, fcmpForm.num, hx, hy]

theorem any_isNaN (dbl : Bool) (x y : Word) : ((operandVal dbl x).isNaN || (operandVal dbl y).isNaN) = !fcmpForm.num dbl x y := by
  rw [isNaN_operandVal, isNaN_operandVal, fcmpForm.num, Bool.not_and, Bool.not_not, Bool.not_not]

theorem flag_any (dbl : Bool) (x y : Word) :
    fIf ((operandVal dbl x).isNaN || (operandVal dbl y).isNaN) fNV = fcmpForm.any dbl x y := by
  rw [any_isNaN, fcmpForm.any]
  cases fcmpForm.num dbl x y <;> rfl

theorem flag_sig (dbl : Bool) (x y : Word) :
    fIf ((operandVal dbl x).isSNaN || (operandVal dbl y).isSNaN) fNV = fcmpForm.sig dbl x y := by
  rw [isSNaN_operandVal, isSNaN_operandVal]
  rfl

/-- Every form of `fcmpForm` steps as `fpCompare` with a condition that gives its predicate and flag. -/
theorem fcmpForm_shape {i : Instr} {k : BitVec 5} {a b : Reg} {f : Word → Word → Bool × BitVec 6} (h : fcmpForm i = some (k, a, b, f)) :
    ∃ cond dbl, (∀ s, exec i s = runInstr 4 (fpCompare cond k a b dbl) s) ∧
      ∀ x y, fCompare cond (operandVal dbl x) (operandVal dbl y) = f x y := by
  unfold fcmpForm at h
  split at h
  case h_1 => cases h; exact ⟨0, _, fun _ => rfl, fun x y => Prod.ext (operandVal_eqv _ x y) (flag_sig _ x y)⟩
  case h_2 => cases h; exact ⟨1, _, fun _ => rfl, fun x y => Prod.ext (num_lt _ x y) (flag_any _ x y)⟩
  case h_3 => cases h; exact ⟨2, _, fun _ => rfl, fun x y => Prod.ext (num_le _ x y) (flag_any _ x y)⟩
  case h_4 => cases h; exact ⟨3, _, fun _ => rfl, fun x y => Prod.ext (any_isNaN _ x y) (flag_sig _ x y)⟩
  case h_5 => cases h; exact ⟨4, _, fun _ => rfl, fun x y => Prod.ext (operandVal_eqv _ x y) (flag_any _ x y)⟩
  case h_6 => cases h

/-- `fpCompare` behind its reads (R76, R144). -/
theorem fpCompare_run {cond : Nat} {k : BitVec 5} {a b : Reg} {dbl : Bool} {s s1 s2 : State} {x y : Word} (hm : FieldsOk s [a, b])
    (ha : readReg a s = .ok x s1) (hb : readReg b s1 = .ok y s2) {r : Bool × BitVec 6}
    (hr : fCompare cond (operandVal dbl x) (operandVal dbl y) = r) :
    fpCompare cond k a b dbl s = (do fpTrap r.2; modMe fun m => m.setK k.toNat r.1; addFlags r.2 : M Unit) s2 := by
  subst hr
  rw [fpCompare, bind_ok (fields_ok hm), bind_ok ha, bind_ok hb]
  rfl

theorem fpCompareResults : FpCompareResults := by
  intro i k a b f h s s1 s2 x y hm ha hb
  obtain ⟨cond, dbl, hi, hf⟩ := fcmpForm_shape h
  have hrun := fpCompare_run (k := k) hm ha hb (hf x y)
  rw [hi]
  refine ⟨fun ht => runInstr_trap (t := s2) ?_, fun ht => runInstr_addFlags (t := putK s2 k (f x y).1) ?_ ?_⟩
  · rw [hrun, bind_err (fpTrap_trapping ht)]
  · rw [hrun, bind_ok (fpTrap_quiet ht), bind_ok (run_modMe _ _), modMe_setK s2 k fun _ => (f x y).1]
  · exact (grp_of_read hb).trans (grp_of_read ha)

end Sys2Proof.Scalar

/-- Settles O14: the order of values is the order of signed magnitudes, from which the class, extremum and comparison of operands follow. -/
theorem fpBitAndCompareResults : Obligations.FpBitAndCompareResults :=
  ⟨Sys2Proof.Scalar.fpBitResults, Sys2Proof.Scalar.fpCompareResults⟩
end

section
/-! SUPPORT. Descriptors, the words of a table and overlapping ranges: the model's numbers as the bit vectors and ranges of the statements. -/

namespace Sys2Proof.Segments

open Sys2Proof.Machine Sys2Proof.Spec Sys2Proof.Laws

/-! ## Fields of a descriptor (Table 2.2) -/

theorem nbits_toNat {w : Nat} (x : BitVec w) (hi lo : Nat) : nbits x.toNat hi lo = (x.extractLsb' lo (hi + 1 - lo)).toNat :=
  (BitVec.extractLsb'_toNat ..).symm

theorem dBase_eq (d : Desc) : dBase d = segBase d := nbits_toNat d 79 32
theorem dLimit_eq (d : Desc) : dLimit d = segLimit d := nbits_toNat d 127 80
theorem dSpace_eq (d : Desc) : dSpace d = segSpace d := nbits_toNat d 1 0

theorem nbits_toNat_eq_zero {w : Nat} (x : BitVec w) (hi lo : Nat) : nbits x.toNat hi lo = 0 ↔ x.extractLsb' lo (hi + 1 - lo) = 0 := by
  rw [nbits_toNat, ← BitVec.toNat_inj]
  rfl

theorem segLimit_lt (d : Desc) : segLimit d < 2 ^ 48 := (d.extractLsb' 80 48).isLt

/-- A valid descriptor for a core of a layer, field by field (R37). -/
def FieldsValid (layer : Nat) (e : Desc) : Prop :=
  e.extractLsb' 13 19 = 0 ∧ e.extractLsb' 2 6 = 0 ∧ (e.getLsbD 10 = true → segSpace e = 3) ∧
    segBase e + segLimit e ≤ (if segSpace e = 0 then Config.spadSize layer
      else if segSpace e = 1 then 24 * Config.spadSize layer else 2 ^ 48)

theorem extent_eq (layer n : Nat) :
    extent layer n = if n = 0 then Config.spadSize layer else if n = 1 then 24 * Config.spadSize layer else 2 ^ 48 := by
  match n with
  | 0 => rfl
  | 1 => rfl
  | n + 2 => simp [extent]

theorem descValid_iff (layer : Nat) (e : Desc) : descValid layer e = true ↔ FieldsValid layer e := by
  simp only [descValid, FieldsValid, dRight, rX, dSpace_eq, dBase_eq, dLimit_eq, extent_eq, nbits_toNat_eq_zero, Bool.and_eq_true,
    Bool.or_eq_true, Bool.not_eq_true', decide_eq_true_eq, and_assoc, ← Bool.not_eq_true, ← imp_iff_not_or]

theorem toNat_append_add {m n : Nat} (x : BitVec m) (y : BitVec n) : (x ++ y).toNat = x.toNat * 2 ^ n + y.toNat := by
  rw [BitVec.toNat_append, ← Nat.shiftLeft_add_eq_or_of_lt y.isLt, Nat.shiftLeft_eq]

/-! ## Selectors (Table 2.3) -/

/-- A number with the four bits from bit `p` replaced. -/
theorem testBit_replace_four (n v p i : Nat) (hv : v < 16) :
    (n - n >>> p % 16 * 2 ^ p + v * 2 ^ p).testBit i = if p ≤ i ∧ i < p + 4 then v.testBit (i - p) else n.testBit i := by
  have hsplit : n - n >>> p % 16 * 2 ^ p + v * 2 ^ p = 2 ^ p * (2 ^ 4 * (n >>> p / 16) + v) + n % 2 ^ p := by
    have hlow : n = 2 ^ p * (16 * (n >>> p / 16) + n >>> p % 16) + n % 2 ^ p := by
      rw [Nat.div_add_mod, Nat.shiftRight_eq_div_pow, Nat.div_add_mod]
    have hout (x : Nat) : 2 ^ p * (16 * (n >>> p / 16) + x) = 2 ^ p * (16 * (n >>> p / 16)) + x * 2 ^ p := by ring
    rw [hout] at hlow
    rw [show 2 ^ 4 = 16 from rfl, hout]
    omega
  rw [hsplit, Nat.testBit_two_pow_mul_add _ (Nat.mod_lt _ (Nat.two_pow_pos p)), Nat.testBit_two_pow_mul_add _ hv]
  split
  · rw [if_neg (by omega), Nat.testBit_mod_two_pow]
    simp [*]
  · split
    · rw [if_pos (by omega)]
    · rw [if_neg (by omega), show (16 : Nat) = 2 ^ 4 from rfl, ← Nat.shiftRight_eq_div_pow, Nat.testBit_shiftRight, Nat.testBit_shiftRight]
      congr 1
      omega

theorem withSel_getLsbD (sel : W32) {d : Nat} (hd : d < 8) (q i : Nat) :
    (withSel sel d q).getLsbD i = if 4 * d ≤ i ∧ i < 4 * d + 4 then (q % 16).testBit (i - 4 * d) else sel.getLsbD i := by
  have hw : 4 * d + 3 + 1 - 4 * d = 4 := by omega
  rw [withSel, nbits, hw, show 2 ^ 4 = 16 from rfl, BitVec.getLsbD_ofNat, testBit_replace_four _ _ _ _ (Nat.mod_lt _ (by decide))]
  by_cases hi : i < 32
  · simp only [hi, decide_true, Bool.true_and, BitVec.getLsbD]
  · rw [decide_eq_false hi, Bool.false_and, if_neg (by omega), BitVec.getLsbD_of_ge sel i (by omega)]

theorem withSel_same (sel : W32) {d q : Nat} (hd : d < 8) (hq : q ≤ 15) : ((withSel sel d q).extractLsb' (4 * d) 4).toNat = q := by
  have h : (withSel sel d q).extractLsb' (4 * d) 4 = BitVec.ofNat 4 q := by
    ext i hi
    rw [BitVec.getElem_extractLsb', withSel_getLsbD sel hd, if_pos (by omega), BitVec.getElem_eq_testBit_toNat, BitVec.toNat_ofNat]
    congr 1
    omega
  rw [h, BitVec.toNat_ofNat, Nat.mod_eq_of_lt (by omega)]

theorem withSel_other (sel : W32) {d j : Nat} (hd : d < 8) (q : Nat) (h : j ≠ d) :
    (withSel sel d q).extractLsb' (4 * j) 4 = sel.extractLsb' (4 * j) 4 := by
  ext i hi
  rw [BitVec.getElem_extractLsb', BitVec.getElem_extractLsb', withSel_getLsbD sel hd, if_neg (by omega)]

/-! ## The table in memory (R169) -/

theorem leVal_memBytes (m : List Host.Cell) (loc n : Nat) :
    leVal (memBytes m loc n) = (List.range n).foldr (fun i r => (memGet m (loc + i)).toNat + 256 * r) 0 := by
  induction n generalizing loc with
  | zero => rfl
  | succ n ih =>
    rw [memBytes, leVal, ih, List.range_succ_eq_map, List.foldr_cons, List.foldr_map]
    simp only [Nat.add_zero, Nat.succ_eq_add_one, Nat.add_assoc, Nat.add_comm 1]

theorem rd_eq_valueAt (s : State) (loc n : Nat) : s.rd loc n = valueAt s loc n := leVal_memBytes s.mem loc n

theorem tableDesc_eq (s : State) (cid q : Nat) : tableDesc s cid q = tableEntry s cid q :=
  congrArg (BitVec.ofNat 128) (rd_eq_valueAt s _ 16)

/-- The location of the descriptor at a selector in the table of the core where the thread runs. -/
def segEntryLoc (s : State) (q : Nat) : Nat := Config.spadLoc s.here (Config.spadSize s.layer - 256 + 16 * q)

/-! ## Ranges -/

/-- Two ranges that hold bytes overlap as the model decides it from their ends. -/
theorem meets_iff_overlap {a n b k : Nat} (hn : 0 < n) (hk : 0 < k) : meets a n b k = true ↔ Overlap a n b k := by
  simp only [meets, Overlap, Bool.and_eq_true, decide_eq_true_eq]
  exact ⟨fun _ => ⟨max a b, by omega⟩, fun ⟨x, _⟩ => by omega⟩

theorem poisoned_iff (s : State) (loc : Nat) {n : Nat} (hn : 0 < n) : s.poisoned loc n = true ↔ Poisoned s loc n := by
  simp only [State.poisoned, Poisoned, List.any_eq_true, ← meets_iff_overlap (show 0 < 8 by decide) hn, meets]

/-- Every range of a place holds a byte. -/
def HoldsBytes (p : Place) : Prop := ∀ x ∈ p, 0 < x.2.1

theorem meets_iff_meet {p q : Place} (hp : HoldsBytes p) (hq : HoldsBytes q) : p.meets q = true ↔ Meet p q := by
  simp only [Place.meets, Meet, List.any_eq_true]
  constructor
  · rintro ⟨x, hx, y, hy, h⟩
    exact ⟨x, hx, y, hy, (meets_iff_overlap (hp x hx) (hq y hy)).1 h⟩
  · rintro ⟨x, hx, y, hy, h⟩
    exact ⟨x, hx, y, hy, (meets_iff_overlap (hp x hx) (hq y hy)).2 h⟩

end Sys2Proof.Segments
end

section
/-! PROOFS. O23: `lea`, `segld`, `segget` and `segchk`. All that the statement says holds, but for `segld` where an outstanding access has
an empty range inside the table entry: there the model waits, and the statement's `Meet` sees no byte in common. -/

namespace Sys2Proof.Segments

open Sys2Proof.Machine Sys2Proof.Spec Sys2Proof.Laws Sys2Proof.Scalar

/-! ## `lea` (R168) -/

theorem memInfo_eq (g : BitVec 3) (o : Int) :
    BitVec.ofNat 64 (memInfo g.toNat 7 false (ofInt 48 o)) = memTinfo g.toNat 7 false (BitVec.ofInt 48 o) := by
  have ho : (BitVec.ofInt 48 o).toNat = ofInt 48 o := BitVec.toNat_ofInt o
  have hlt : ofInt 48 o < 2 ^ 48 := ho ▸ (BitVec.ofInt 48 o).isLt
  apply BitVec.eq_of_toNat_eq
  rw [memTinfo, toNat_append_add, toNat_append_add, toNat_append_add, toNat_append_add, ho, memInfo, if_neg Bool.false_ne_true]
  simp only [BitVec.toNat_ofNat, BitVec.toNat_ofBool, Bool.toNat_false]
  omega

theorem lea_trap {d a : Reg} {g : BitVec 3} {off : BitVec 10} {s s1 : State} {x : Word} (hm : FieldsOk s [d, a]) (ha : readReg a s = .ok x s1)
    (ho : x.toInt + off.toNat < 0 ∨ segLimit (s1.me.segd g.toNat) < x.toInt + off.toNat) :
    exec (.lea d a g off) s = .next (takeTrap ⟨0x07, memTinfo g.toNat 7 false (BitVec.ofInt 48 (x.toInt + off.toNat))⟩ s) := by
  refine runInstr_trap (body := bodyLea d a g off) (t := s1) ?_
  rw [bodyLea, bind_ok (fields_ok hm), bind_ok ha, run_me_bind, raiseIf_bind, if_pos (by simpa [dLimit_eq] using ho), memInfo_eq]
  rfl

theorem lea_writes {d a : Reg} {g : BitVec 3} {off : BitVec 10} {s s1 s2 : State} {x : Word} (hm : FieldsOk s [d, a])
    (ha : readReg a s = .ok x s1) (h0 : 0 ≤ x.toInt + off.toNat) (hl : x.toInt + off.toNat ≤ segLimit (s1.me.segd g.toNat))
    (hd : writeReg d (BitVec.ofInt 64 (segBase (s1.me.segd g.toNat) + (x.toInt + off.toNat))) s1 = .ok () s2) :
    exec (.lea d a g off) s = .next (after 4 s s2) := by
  refine runInstr_done (body := bodyLea d a g off) ?_
  rw [bodyLea, bind_ok (fields_ok hm), bind_ok ha, run_me_bind, raiseIf_bind, if_neg (by simp [dLimit_eq]; omega)]
  obtain ⟨n, hn⟩ := Int.eq_ofNat_of_zero_le h0
  rw [hn] at hd ⊢
  rw [dBase_eq]
  exact hd

/-! ## `segget` and `segchk` (R170, Table 7.6) -/

theorem segmentNumber_toNat (a : Fin 8) : (BitVec.ofNat 5 a.val).toNat = a.val := Nat.mod_eq_of_lt (by omega)

theorem segget_step {d : Reg} {a : Fin 8} {h : Bool} {s s1 : State} (hm : FieldsOk s [d])
    (hd : writeReg d (if h then (s.me.segd a).extractLsb' 64 64 else (s.me.segd a).extractLsb' 0 64) s = .ok () s1) :
    exec (.segget d (BitVec.ofNat 5 a.val) (if h then 1 else 0)) s = .next (after 4 s s1) := by
  refine runInstr_done (body := bodySegget d (BitVec.ofNat 5 a.val) (if h then 1 else 0)) ?_
  rw [bodySegget, bind_ok (fields_ok hm), run_me_bind, segmentNumber_toNat]
  cases h
  · exact hd
  · exact hd

theorem toNat_append_zero_or (h : BitVec 16) {r : Word} (hr : r.toNat < 2 ^ 48) : ((h ++ 0#48 : Word) ||| r).toNat = h.toNat * 2 ^ 48 + r.toNat := by
  rw [BitVec.toNat_or, toNat_append_add, BitVec.toNat_ofNat, Nat.zero_mod, Nat.add_zero, ← Nat.shiftLeft_eq, Nat.shiftLeft_add_eq_or_of_lt hr]

/-- The bytes that a segment has from an offset on (Table 7.6). -/
theorem toNat_room (e : Desc) (o : Int) : (if 0 ≤ o ∧ o ≤ segLimit e then BitVec.ofInt 64 (segLimit e - o) else (0 : Word)).toNat =
    if 0 ≤ o ∧ o ≤ segLimit e then segLimit e - o.toNat else 0 := by
  split
  · have hl := segLimit_lt e
    rw [BitVec.toNat_ofInt]
    omega
  · rfl

theorem segRoom_eq (e : Desc) (o : Int) :
    segRoom e o = ((0#9 ++ e.extractLsb' 0 2 ++ e.extractLsb' 8 5 ++ 0#48 : Word) |||
      if 0 ≤ o ∧ o ≤ segLimit e then BitVec.ofInt 64 (segLimit e - o) else 0) := by
  have hl := segLimit_lt e
  have hroom : (if 0 ≤ o ∧ o ≤ segLimit e then segLimit e - o.toNat else 0) < 2 ^ 48 := by split <;> omega
  have hs : segSpace e < 2 ^ 2 := (e.extractLsb' 0 2).isLt
  have hr : (e.extractLsb' 8 5).toNat < 2 ^ 5 := (e.extractLsb' 8 5).isLt
  have hn : nbits e.toNat 12 8 = (e.extractLsb' 8 5).toNat := nbits_toNat e 12 8
  apply BitVec.eq_of_toNat_eq
  rw [toNat_append_zero_or _ (by rwa [toNat_room]), toNat_room, toNat_append_add, toNat_append_add, segRoom, dSpace_eq, dLimit_eq, hn,
    BitVec.toNat_ofNat, BitVec.toNat_ofNat, ← segSpace]
  omega

theorem segchk_step {d b : Reg} {a : Fin 8} {s s1 s2 : State} {o : Word} (hm : FieldsOk s [d, b]) (hb : readReg b s = .ok o s1)
    (hd : writeReg d ((0#9 ++ (s1.me.segd a).extractLsb' 0 2 ++ (s1.me.segd a).extractLsb' 8 5 ++ 0#48 : Word) |||
      if 0 ≤ o.toInt ∧ o.toInt ≤ segLimit (s1.me.segd a) then BitVec.ofInt 64 (segLimit (s1.me.segd a) - o.toInt) else 0) s1 = .ok () s2) :
    exec (.segchk d (BitVec.ofNat 5 a.val) b) s = .next (after 4 s s2) := by
  refine runInstr_done (body := bodySegchk d (BitVec.ofNat 5 a.val) b) ?_
  rw [bodySegchk, bind_ok (fields_ok hm), bind_ok hb, run_me_bind, segmentNumber_toNat, segRoom_eq]
  exact hd

/-! ## `segld` (R169, R170) -/

theorem settled_ok {s : State} (h : Settled s) : settled s = .ok () s := by
  rw [settled, run_me_bind]
  refine stallIf_ok (List.any_eq_false.2 fun a ha => ?_) ..
  rw [h a ha]
  decide

/-- What `segld` does once its selector is read and nothing plain is outstanding. -/
theorem segld_read {d a : Reg} {s s1 : State} {q : Word} (hm : FieldsOk s [a]) (ha : readReg a s = .ok q s1) (hs : Settled s1) :
    bodySegld d a s =
      if 15 < q.toNat then .error (.trap ⟨0x02, q⟩) s1
      else if s1.me.out.any fun b => b.home.meets [(segEntryLoc s1 q.toNat, 16, .plain)] then .error (.wait .access) s1
      else if s1.poisoned (segEntryLoc s1 q.toNat) 16 then
        .error (.trap ⟨0x13, BitVec.ofNat 64 (memInfo d.toNat 8 false (segEntryOff s1.here q.toNat))⟩) s1
      else if !descValid s1.layer (tableEntry s1 s1.here q.toNat) then .error (.trap ⟨0x02, q⟩) s1
      else .ok () (s1.modMe fun c => { c with
        seg := c.seg.setIfInBounds d.toNat (tableEntry s1 s1.here q.toNat), sel := withSel c.sel d.toNat q.toNat }) := by
  rw [bodySegld, bind_ok (fields_ok hm), bind_ok ha, bind_ok (settled_ok hs)]
  simp only [run_get_bind, raiseIf_bind, stallIf_bind, decide_eq_true_eq, tableDesc_eq, BitVec.ofNat_toNat, BitVec.setWidth_eq]
  rfl

theorem segd_set (c : Context) (d : Fin 8) (e : Desc) : Context.segd { c with seg := c.seg.setIfInBounds d e } d = e := by
  simp [Context.segd, Vector.getD]

theorem segd_set_ne (c : Context) {d j : Fin 8} (e : Desc) (h : j ≠ d) :
    Context.segd { c with seg := c.seg.setIfInBounds d e } j = c.segd j := by
  have : d.val ≠ j.val := fun k => h (Fin.ext k.symm)
  simp [Context.segd, Vector.getD, this]

/-- No outstanding access touches the table entry at a selector. -/
def EntryFree (s : State) (q : Nat) : Prop := ∀ b ∈ s.me.out, ¬Meet b.home [(segEntryLoc s q, 16, .plain)]

theorem not_meets_entry {s : State} {q : Nat} (hh : ∀ b ∈ s.me.out, HoldsBytes b.home) (hf : EntryFree s q) :
    (s.me.out.any fun b => b.home.meets [(segEntryLoc s q, 16, .plain)]) = false := by
  refine List.any_eq_false.2 fun b hb => ?_
  rw [meets_iff_meet (hh b hb) (by simp [HoldsBytes])]
  exact hf b hb

section

variable {d a : Reg} {s s1 : State} {q : Word} (hm : FieldsOk s [a]) (ha : readReg a s = .ok q s1) (hs : Settled s1)

include hm ha hs

theorem segld_selector (hq : 15 < q.toNat) : exec (.segld d a) s = .next (takeTrap ⟨0x02, q⟩ s) := by
  refine runInstr_trap (body := bodySegld d a) (t := s1) ?_
  rw [segld_read hm ha hs, if_pos hq]

/-- A selector of 0–15 whose entry an outstanding access touches, as the model decides it, holds the context back. -/
theorem segld_waits (hq : q.toNat ≤ 15) (hw : (s1.me.out.any fun b => b.home.meets [(segEntryLoc s1 q.toNat, 16, .plain)]) = true) :
    exec (.segld d a) s = .next (noteWait s s.cur .access) := by
  refine runInstr_err (body := bodySegld d a) (t := s1) (e := .wait .access) ?_
  rw [segld_read hm ha hs, if_neg (by omega), if_pos hw]

variable (hq : q.toNat ≤ 15) (hh : ∀ b ∈ s1.me.out, HoldsBytes b.home) (hf : EntryFree s1 q.toNat)
  (hp : ¬Poisoned s1 (segEntryLoc s1 q.toNat) 16)

include hq hh hf hp

theorem segld_checked : bodySegld d a s =
    if !descValid s1.layer (tableEntry s1 s1.here q.toNat) then .error (.trap ⟨0x02, q⟩) s1
    else .ok () (s1.modMe fun c => { c with
      seg := c.seg.setIfInBounds d.toNat (tableEntry s1 s1.here q.toNat), sel := withSel c.sel d.toNat q.toNat }) := by
  rw [segld_read hm ha hs, if_neg (by omega), not_meets_entry hh hf, if_neg Bool.false_ne_true,
    if_neg (by rwa [poisoned_iff _ _ (by decide)])]

theorem segld_invalid (hv : ¬FieldsValid s1.layer (tableEntry s1 s1.here q.toNat)) :
    exec (.segld d a) s = .next (takeTrap ⟨0x02, q⟩ s) := by
  refine runInstr_trap (body := bodySegld d a) (t := s1) ?_
  rw [segld_checked hm ha hs hq hh hf hp, if_pos (by rwa [Bool.not_eq_true', ← Bool.not_eq_true, descValid_iff])]

theorem segld_loads (hv : FieldsValid s1.layer (tableEntry s1 s1.here q.toNat)) :
    exec (.segld d a) s = .next (after 4 s (s1.modMe fun c => { c with
      seg := c.seg.setIfInBounds d.toNat (tableEntry s1 s1.here q.toNat), sel := withSel c.sel d.toNat q.toNat })) := by
  refine runInstr_done (body := bodySegld d a) ?_
  rw [segld_checked hm ha hs hq hh hf hp, (descValid_iff ..).2 hv]
  rfl

end

/-- What `segld` leaves, register by register: its segment register and its selector, and nothing else of the context or of memory. -/
theorem segld_effect {d : Fin 8} {a : Reg} {s s1 : State} {q : Word} (hm : FieldsOk s [a]) (ha : readReg a s = .ok q s1) (hs : Settled s1)
    (hq : q.toNat ≤ 15) (hh : ∀ b ∈ s1.me.out, HoldsBytes b.home) (hf : EntryFree s1 q.toNat) (hp : ¬Poisoned s1 (segEntryLoc s1 q.toNat) 16)
    (hv : FieldsValid s1.layer (tableEntry s1 s1.here q.toNat)) :
    ∃ t, exec (.segld (BitVec.ofNat 5 d.val) a) s = .next t ∧ t.me.segd d = tableEntry s1 s1.here q.toNat ∧
      (t.me.sel.extractLsb' (4 * d) 4).toNat = q.toNat ∧ t.me.pc = s.me.pc + BitVec.ofNat 64 (4 * s.grp.n + 4) ∧
      t.me.x = s1.me.x ∧ t.mem = s1.mem ∧
      ∀ j : Fin 8, j ≠ d → t.me.segd j = s1.me.segd j ∧ t.me.sel.extractLsb' (4 * j) 4 = s1.me.sel.extractLsb' (4 * j) 4 := by
  have hstep := segld_loads (d := BitVec.ofNat 5 d.val) hm ha hs hq hh hf hp hv
  rw [segmentNumber_toNat] at hstep
  refine ⟨_, hstep, ?_⟩
  simp only [after, modMe_modMe, me_modMe, true_and]
  exact ⟨segd_set .., withSel_same _ d.isLt hq, rfl,
    fun j hj => ⟨segd_set_ne _ _ hj, withSel_other _ d.isLt _ fun h => hj (Fin.ext h)⟩⟩

/-! ## An empty range in the table entry -/

/-- A relaxed access with an empty range, 8 bytes into the table entry at selector 0 of core 8. -/
def emptyAccess : Acc :=
  let p : Place := [(Config.spadLoc 8 (Config.spadSize 0 - 256 + 8), 0, .plain)]
  ⟨.store 5, p, p, 0, true, 0, 0xF0, 0, 0, 0⟩

/-- Context 1 of core 8 at PC 0x100 after reset, with that access outstanding. The table is all zeros: every descriptor of it is valid. -/
def emptyOutstanding : State :=
  { State.reset with cur := 129 }.setCtx 129 { Context.fresh 129 with run := .running, pc := 0x100, mode := 1, out := [emptyAccess] }

theorem not_overlap_empty (a b k : Nat) : ¬Overlap a 0 b k := fun ⟨x, _⟩ => by omega

theorem emptyOutstanding_settled : Settled emptyOutstanding := by simp only [Settled]; decide

theorem emptyOutstanding_entryFree : EntryFree emptyOutstanding 0 := by
  intro b hb
  obtain rfl : b = emptyAccess := List.mem_singleton.1 hb
  rintro ⟨x, hx, y, -, h⟩
  obtain rfl := List.mem_singleton.1 hx
  exact not_overlap_empty _ _ _ h

theorem emptyOutstanding_clean (loc n : Nat) : ¬Poisoned emptyOutstanding loc n := fun ⟨_, hw, _⟩ => List.not_mem_nil hw

theorem emptyOutstanding_valid : FieldsValid emptyOutstanding.layer (tableEntry emptyOutstanding emptyOutstanding.here 0) := by
  rw [show tableEntry emptyOutstanding emptyOutstanding.here 0 = 0 by decide, ← descValid_iff]
  decide

/-- The model takes the empty range to lie in the entry. -/
theorem emptyOutstanding_waits : exec (.segld 0 31) emptyOutstanding = .next (noteWait emptyOutstanding 129 .access) :=
  segld_waits (d := 0) (a := 31) (fun h => absurd h (by decide)) (readReg_zr rfl _) emptyOutstanding_settled (by decide) (by decide)

end Sys2Proof.Segments

open Sys2Proof.Machine Sys2Proof.Spec Sys2Proof.Laws Sys2Proof.Segments in
/-- Refutes O23: an outstanding relaxed access with an empty range inside the table entry meets no byte of it, so the statement has `segld`
complete and its PC advance, but `meets` compares the ends of the ranges and the context waits. Table 7.1 gives every access at least a byte:
where every outstanding range holds one, `segld_selector`, `segld_invalid` and `segld_effect` are what the statement says of `segld`; what it
says of the others is `lea_trap`, `lea_writes`, `segget_step` and `segchk_step`. -/
theorem not_segmentInstructions : ¬Obligations.SegmentInstructions := by
  unfold Obligations.SegmentInstructions
  rintro ⟨-, hsegld, -⟩
  obtain ⟨-, -, hloads⟩ := hsegld 0 31 emptyOutstanding emptyOutstanding 0 (fun h => absurd h (by decide))
    (readReg_zr rfl _) emptyOutstanding_settled
  obtain ⟨t, hstep, -, -, hpc, -⟩ := hloads (by decide) emptyOutstanding_entryFree (emptyOutstanding_clean _ _) emptyOutstanding_valid
  rw [show (BitVec.ofNat 5 (0 : Fin 8).val) = 0 from rfl, emptyOutstanding_waits] at hstep
  obtain rfl := Host.Outcome.next.inj hstep
  exact absurd hpc (by decide)
end

section
/-! SUPPORT. Synchronisation and system instructions: how a step that waits goes on. -/

namespace Sys2Proof.Sync

open Sys2Proof.Machine Sys2Proof.Spec Sys2Proof.Laws Sys2Proof.Scalar

theorem runInstr_wait {len : Nat} {body : M Unit} {s t : State} {k : WaitKind} (h : body s = .error (.wait k) t) :
    runInstr len body s = .next (noteWait s s.cur k) := runInstr_err h

theorem ctx_noteWait (s : State) (m : Nat) (k : WaitKind) :
    ∃ w : Wait, w.kind = k ∧ (noteWait s m k).ctx m = { s.ctx m with wait := some w } := ⟨_, rfl, ctx_modCtx ..⟩

/-- Noting a wait leaves the registers and the PC of the context that waits, and memory, as they were. -/
theorem waitsAt_noteWait (s : State) (k : WaitKind) : WaitsAt s (noteWait s s.cur k) k := by
  obtain ⟨w, hk, hctx⟩ := ctx_noteWait s s.cur k
  have hme : (noteWait s s.cur k).me = { s.me with wait := some w } := hctx
  simp only [WaitsAt, hme, true_and]
  exact ⟨rfl, congrArg some hk⟩

end Sys2Proof.Sync
end

section
/-! PROOFS. O30: fences, the generator and the flags. -/

namespace Sys2Proof.Sync

open Sys2Proof.Machine Sys2Proof.Spec Sys2Proof.Laws Sys2Proof.Scalar

/-! ## Fences (R202) -/

theorem fenceScope_eq (s : State) (scope : BitVec 3) : fenceScope s scope = (s.grp.scope.getD scope).toNat := by
  unfold fenceScope
  cases s.grp.scope <;> rfl

/-- What a release or full fence of a scope waits for. -/
def FenceDone (s : State) (sc : Nat) : Prop :=
  s.me.out = [] ∧ (∀ u ∈ s.reds, u.src = s.cur → coreInScope sc (16 * s.here + s.hereCtx) u.owner = false) ∧
    (sc < 6 ∨ ∀ p ∈ s.props, p.src ≠ some s.cur)

theorem fenceDone_iff (s : State) (sc : Nat) : s.fenceDone sc = true ↔ FenceDone s sc := by
  simp [State.fenceDone, FenceDone, State.hereMba, and_assoc]

theorem fenceRel_done {scope : BitVec 3} {s : State} (h : FenceDone s (s.grp.scope.getD scope).toNat) :
    runInstr 4 (fenceRel scope) s = .next (after 4 s s) := by
  refine runInstr_done ?_
  rw [fenceRel, run_get_bind, fenceScope_eq]
  exact stallIf_ok (by rw [(fenceDone_iff ..).2 h]; rfl) ..

theorem fenceRel_waits {scope : BitVec 3} {s : State} (h : ¬FenceDone s (s.grp.scope.getD scope).toNat) :
    runInstr 4 (fenceRel scope) s = .next (noteWait s s.cur .fence) := by
  refine runInstr_wait (t := s) ?_
  rw [fenceRel, run_get_bind, fenceScope_eq, run_stallIf, Bool.eq_false_iff.2 (mt (fenceDone_iff ..).1 h)]
  rfl

/-- A load or an atomic is outstanding. -/
def awaitsData (s : State) : Bool := s.me.out.any fun a => match a.kind with | .store _ => false | _ => true

theorem awaitsData_iff (s : State) : awaitsData s = true ↔ ∃ e ∈ s.me.out, ∀ v, e.kind ≠ .store v := by
  simp only [awaitsData, List.any_eq_true]
  refine exists_congr fun e => and_congr_right fun _ => ?_
  cases e.kind <;> simp

theorem fenceAcq_run (s : State) : fenceAcq s = if awaitsData s then .error (.wait .fence) s else .ok () s := by
  rw [fenceAcq, run_me_bind, run_stallIf]
  rfl

theorem fences (scope : BitVec 3) (x : Bool) (s : State) :
    let sc := (s.grp.scope.getD scope).toNat
    (FenceDone s sc → exec (.fenceRel scope x) s = .next (after 4 s s) ∧ exec (.fenceFull scope x) s = .next (after 4 s s)) ∧
    (¬FenceDone s sc → ∃ t, exec (.fenceRel scope x) s = .next t ∧ exec (.fenceFull scope x) s = .next t ∧ WaitsAt s t .fence) ∧
    ((∀ e ∈ s.me.out, ∃ v, e.kind = .store v) → exec (.fenceAcq scope x) s = .next (after 4 s s)) ∧
    ((∃ e ∈ s.me.out, ∀ v, e.kind ≠ .store v) → ∃ t, exec (.fenceAcq scope x) s = .next t ∧ WaitsAt s t .fence) := by
  refine ⟨fun h => ⟨fenceRel_done h, fenceRel_done h⟩,
    fun h => ⟨_, fenceRel_waits h, fenceRel_waits h, waitsAt_noteWait s .fence⟩, fun h => ?_, fun h => ?_⟩
  · refine runInstr_done (body := fenceAcq) ((fenceAcq_run s).trans (if_neg ?_))
    rw [awaitsData_iff]
    rintro ⟨e, he, hk⟩
    obtain ⟨v, hv⟩ := h e he
    exact hk v hv
  · exact ⟨_, runInstr_wait (body := fenceAcq) ((fenceAcq_run s).trans (if_pos ((awaitsData_iff s).2 h))), waitsAt_noteWait s .fence⟩

/-! ## The generator (R70, R71, R220, R221) -/

theorem rnd_step {d : Reg} {s s1 : State} (hm : FieldsOk s [d])
    (hd : writeReg d (xorshift s.me.rngst * 0x2545F4914F6CDD1D) s = .ok () s1) :
    exec (.rnd d) s = .next (after 4 s (s1.modMe fun c => { c with rngst := xorshift s.me.rngst, gpos := 0 })) := by
  refine runInstr_done (body := bodyRnd d) ?_
  rw [bodyRnd, bind_ok (fields_ok hm), run_me_bind]
  exact bind_ok hd

theorem ofNat_mod_sixteen (c : BitVec 8) : BitVec.ofNat 64 (c.toNat % 16) = (c.setWidth 4).setWidth 64 := by
  rw [← BitVec.ofNat_toNat, BitVec.toNat_setWidth]

theorem rngseed_step {a : Reg} {s s1 : State} {v : Word} (hm : FieldsOk s [a]) (ha : readReg a s = .ok v s1) :
    exec (.rngseed a) s = .next (after 4 s (s1.modMe fun c => { c with
      rngst := seedOf (v ^^^ BitVec.ofNat 64 (16 * (s.cur / 16)) ^^^ (c.ctxid.setWidth 4).setWidth 64), gpos := 0 })) := by
  refine runInstr_done (body := bodyRngseed a) ?_
  rw [bodyRngseed, bind_ok (fields_ok hm), bind_ok ha, run_get_bind, (keepsM_readReg a s v s1 ha).cur]
  simp only [ofNat_mod_sixteen]
  rfl

/-! ## The flags (R46, R75, R222) -/

theorem flget_step {d : Reg} {s s1 : State} (hm : FieldsOk s [d]) (hd : writeReg d (s.me.flags.setWidth 64) s = .ok () s1) :
    exec (.flget d) s = .next (after 4 s s1) := by
  refine runInstr_done (body := bodyFlget d) ?_
  rw [bodyFlget, bind_ok (fields_ok hm), run_me_bind]
  exact hd

theorem fltree_step {d : Reg} {s s1 : State} (hm : FieldsOk s [d]) (h0 : s.cur % 16 = 0) (hc : cidCci (s.cur / 16) = 0)
    (hd : writeReg d (((s.ctxs.filter fun x => clKey (x.1 / 16) = clKey (s.cur / 16)).foldl (fun f x => f ||| x.2.flags) 0#6).setWidth 64) s
      = .ok () s1) : exec (.fltree d) s = .next (after 4 s s1) := by
  have hs : clusterSupervisor s.cur = true := by simp [clusterSupervisor, mbaCtx, mbaCid, h0, hc]
  refine runInstr_done (body := bodyFltree d) ?_
  rw [bodyFltree, bind_ok (fields_ok hm), run_get_bind, if_pos hs]
  exact hd

/-- All that engines have set in the flags in the present cycle (R75, R138). -/
theorem flagOr_all (s : State) : (s.flagOr s.cur).all = (setNow s).1 := by
  unfold State.flagOr setNow State.me State.here
  cases (s.ctx s.cur).ored with
  | none => rfl
  | some o =>
    dsimp only
    split <;> rfl

theorem flclr_step {a : Reg} {s s1 : State} {v : Word} (hm : FieldsOk s [a]) (ha : readReg a s = .ok v s1) :
    exec (.flclr a) s = .next (after 4 s (s1.modMe fun c => { c with flags := c.flags &&& ~~~(v.setWidth 6) ||| (setNow s1).1 })) := by
  refine runInstr_done (body := bodyFlclr a) ?_
  rw [bodyFlclr, bind_ok (fields_ok hm), bind_ok ha, run_get_bind, flagOr_all]
  rfl

end Sys2Proof.Sync

open Sys2Proof.Sync in
/-- Settles O30: a fence stalls on what is left to perform, and the others are their effect behind one read or one write. -/
theorem fencesGeneratorFlags : Obligations.FencesGeneratorFlags :=
  ⟨fences, fun _ _ _ hm => ⟨rnd_step hm, flget_step hm, fltree_step hm⟩, fun _ _ _ _ hm ha => ⟨flclr_step hm ha, rngseed_step hm ha⟩⟩
end

section
/-! SUPPORT. An instruction that waits with what it has read from queues, and one that then takes it (R29). -/

namespace Sys2Proof.Sync

open Sys2Proof.Machine Sys2Proof.Spec Sys2Proof.Laws Sys2Proof.Scalar

/-! ## Postponing -/

/-- A read of a general register or of `zr` pops nothing. -/
theorem readReg_plain {r : Reg} {s t : State} {v : Word} (hp : plainReg r = true) (h : readReg r s = .ok v t) : t = s := by
  rcases (plainReg_iff r).1 hp with hr | hr
  · have hread : readReg r = (do let c ← me; stallIf (c.awaits r.toNat) .access; return c.reg r.toNat) := by
      unfold readReg
      generalize r.toNat = n at hr
      split
      case h_9 => rfl
      all_goals omega
    rw [hread, run_me_bind, stallIf_bind] at h
    split at h
    · cases h
    · cases h
      rfl
  · rw [readReg_zr hr] at h
    cases h
    rfl

theorem claimPort_me (s : State) (x : Reg × Word) : (claimPort s x).me = s.me := by
  unfold claimPort
  split <;> rfl

theorem claimPort_mem (s : State) (x : Reg × Word) : (claimPort s x).mem = s.mem := by
  unfold claimPort
  split <;> rfl

/-- An instruction that has read one register and waits leaves its context as it was, but for the note of what it has read. -/
theorem postpone_frame {a : Reg} {s s1 : State} {l : Word} (ha : readReg a s = .ok l s1) :
    ∃ t, postpone s [(a, l)] s1 = .ok () t ∧ t.mem = s.mem ∧ t.me = { s.me with pops := t.me.pops } := by
  by_cases hp : plainReg a = true
  · obtain rfl := readReg_plain hp ha
    exact ⟨s1, by simp [postpone, hp], rfl, rfl⟩
  · refine ⟨_, by simp only [postpone, List.filter_cons, List.filter_nil, hp]; rfl, ?_, ?_⟩
    · exact claimPort_mem s (a, l)
    · show (State.modMe _ _).me = _
      rw [me_modMe, me_modCore]
      exact congrArg (fun c : Context => { c with pops := [(a, l)] }) (claimPort_me s (a, l))

/-! ## Taking -/

/-- The word of a queue register that an instruction in progress has read leaves its queue. -/
def takeOne (s : State) (x : Reg × Word) : State :=
  if 28 ≤ x.1.toNat then match (readReg x.1).run s with | .ok _ t => t | .error _ _ => s else s

theorem takePops_eq (s : State) (m : Nat) : takePops s m =
    if (s.ctx m).pops.isEmpty then s
    else ({ (s.ctx m).pops.foldl takeOne { s with cur := m } with cur := s.cur }.modCore (mbaCid m) fun k => k.modPorts (·.take m)).modCtx m
      fun c => { c with pops := [] } := rfl

theorem takePops_none {s : State} {m : Nat} (h : (s.ctx m).pops = []) : takePops s m = s := by rw [takePops_eq, h]; rfl

theorem takeOne_word {s : State} {src : Nat} {v w : Word} {q : List QEntry} (hq : s.me.qin = .word src v :: q) :
    takeOne s (28, w) = s.modMe fun c => { c with qin := q } := by
  have hr : readReg 28 s = .ok v (s.modMe fun c => { c with qin := q }) := by
    show popQin s = _
    rw [popQin, run_me_bind, hq]
    rfl
  rw [takeOne, if_pos (show 28 ≤ (28 : Reg).toNat by decide), EStateM.run, hr]

/-- Two states that differ at most in their contexts, and in the `qin` of the current one. -/
structure OnlyQin (s t : State) : Prop where
  rest : t = { s with ctxs := t.ctxs }
  me   : ∃ q, t.me = { s.me with qin := q }

theorem OnlyQin.refl (s : State) : OnlyQin s s := ⟨rfl, _, rfl⟩

theorem OnlyQin.trans {s t u : State} (h : OnlyQin s t) (k : OnlyQin t u) : OnlyQin s u := by
  obtain ⟨q, hq⟩ := h.me
  obtain ⟨r, hr⟩ := k.me
  exact ⟨by rw [k.rest, h.rest], r, by rw [hr, hq]⟩

theorem OnlyQin.mbx {s t : State} (h : OnlyQin s t) : t.me.mbx = s.me.mbx := by
  obtain ⟨q, hq⟩ := h.me
  rw [hq]

theorem popQin_onlyQin {s t : State} {v : Word} (h : popQin s = .ok v t) : OnlyQin s t := by
  rw [popQin, run_me_bind] at h
  cases hq : s.me.qin with
  | nil =>
    rw [hq] at h
    cases h
  | cons e q =>
    rw [hq] at h
    cases e with
    | mute _ => cases h
    | word _ _ =>
      cases h
      exact ⟨rfl, _, me_modMe _ _⟩

/-- With the mailbox empty, a read of a register from `qin` on pops at most a `qin`. -/
theorem readReg_onlyQin {r : Reg} {s t : State} {v : Word} (hr : 28 ≤ r.toNat) (hm : s.me.mbx = []) (h : readReg r s = .ok v t) :
    OnlyQin s t := by
  have hcases : r = 28 ∨ r = 29 ∨ r = 30 ∨ r = 31 := by bv_omega
  rcases hcases with rfl | rfl | rfl | rfl
  · exact popQin_onlyQin h
  · cases h
  · have : popMbx s = .error (.wait .emptyRead) s := by rw [popMbx, run_get_bind, hm]; rfl
    cases this.symm.trans h
  · cases h
    exact .refl s

theorem takeOne_onlyQin {s : State} (hm : s.me.mbx = []) (x : Reg × Word) : OnlyQin s (takeOne s x) := by
  unfold takeOne
  split
  · split
    · rename_i h28 _ _ _ h
      exact readReg_onlyQin h28 hm h
    · exact .refl s
  · exact .refl s

theorem takeAll_onlyQin (l : List (Reg × Word)) {s : State} (hm : s.me.mbx = []) : OnlyQin s (l.foldl takeOne s) := by
  induction l generalizing s with
  | nil => exact .refl s
  | cons x l ih =>
    have hx := takeOne_onlyQin hm x
    exact hx.trans (ih (hx.mbx.trans hm))

/-- What the completion of an instruction in progress leaves alone, where the mailbox of its context is empty. -/
structure TakesPops (s t : State) (m : Nat) : Prop where
  mem : t.mem = s.mem
  bow : ∀ c, (t.core c).bow = (s.core c).bow
  ctx : ∃ q, t.ctx m = { s.ctx m with qin := q, pops := [] }

theorem takePops_takes {s : State} {m : Nat} (hm : (s.ctx m).mbx = []) : TakesPops s (takePops s m) m := by
  by_cases hp : (s.ctx m).pops = []
  · rw [takePops_none hp]
    refine ⟨rfl, fun _ => rfl, (s.ctx m).qin, ?_⟩
    rw [← hp]
  · rw [takePops_eq, if_neg (by simpa using hp)]
    have hq : OnlyQin { s with cur := m } ((s.ctx m).pops.foldl takeOne { s with cur := m }) := takeAll_onlyQin _ hm
    generalize (s.ctx m).pops.foldl takeOne { s with cur := m } = t at hq
    obtain ⟨q, hme⟩ := hq.me
    have hcur : t.cur = m := by rw [hq.rest]
    have hctx : t.ctx m = { s.ctx m with qin := q } := by rw [State.me, hcur] at hme; exact hme
    have hcores : t.cores = s.cores := by rw [hq.rest]
    refine ⟨by rw [hq.rest]; rfl, fun c => ?_, q, ?_⟩
    · have hcore (n : Nat) : ({ t with cur := s.cur } : State).core n = s.core n := congrArg (tget Core.init · n) hcores
      rw [core_modCtx]
      by_cases hc : c = mbaCid m
      · rw [hc, core_modCore, hcore]
        rfl
      · rw [core_modCore_ne _ _ hc, hcore]
    · rw [ctx_modCtx, ctx_modCore]
      exact congrArg (fun c : Context => { c with pops := [] }) hctx

/-- An instruction in progress that has read one word of its `qin` takes it. -/
theorem takePops_word {s : State} {m src : Nat} {v w : Word} {q : List QEntry} (hp : (s.ctx m).pops = [(28, v)])
    (hq : (s.ctx m).qin = .word src w :: q) : ((takePops s m).ctx m).qin = q := by
  have ht : takeOne { s with cur := m } (28, v) = State.modMe { s with cur := m } fun c => { c with qin := q } := takeOne_word hq
  rw [takePops_eq, hp, if_neg (by simp), List.foldl_cons, List.foldl_nil, ht, ctx_modCtx, ctx_modCore]
  exact congrArg Context.qin (ctx_modCtx { s with cur := m } m fun c => { c with qin := q })

end Sys2Proof.Sync
end

section
/-! PROOFS. O27: `recvt` and its timeout, `mbcnt` and `send`. -/

namespace Sys2Proof.Sync

open Sys2Proof.Machine Sys2Proof.Spec Sys2Proof.Laws Sys2Proof.Scalar

/-! ## `recvt` (R196) -/

/-- `recvt` ends in the context with k30 written. -/
theorem modMe_endRcv (s : State) (late : Bool) :
    (s.modMe fun c => Context.setK { c with rcv := none } 30 late) = putK (s.modMe fun c => { c with rcv := none }) 30 late := by
  rw [putK, modMe_modMe]
  exact congrArg s.modMe (funext fun c => setK_eq { c with rcv := none } 30 late)

theorem endRecvt_word {d : Reg} {s s1 s2 : State} {v : Word} (hv : readReg 30 s = .ok v s1)
    (hd : writeReg d v (putK (s1.modMe fun c => { c with rcv := none }) 30 false) = .ok () s2) : endRecvt d false s = .ok () s2 := by
  rw [endRecvt, if_neg Bool.false_ne_true, bind_ok (show popMbx s = .ok v s1 from hv)]
  exact (bind_ok (run_modMe _ _)).trans (by rwa [modMe_endRcv])

theorem endRecvt_late {d : Reg} {s s1 : State}
    (hd : writeReg d 0 (putK (s.modMe fun c => { c with rcv := none }) 30 true) = .ok () s1) : endRecvt d true s = .ok () s1 := by
  rw [endRecvt, if_pos rfl, run_pure_bind]
  exact (bind_ok (run_modMe _ _)).trans (by rwa [modMe_endRcv])

section

variable {d a : Reg} {s s1 : State} {l : Word} (hm : s.me.migrant = false) (hr : s.me.rcv = none) (ha : readReg a s = .ok l s1)

include hm hr ha

/-- A `recvt` that does not wait yet, once it has read its limit. -/
theorem bodyRecvt_fresh : bodyRecvt d a s =
    if !s1.me.mbx.isEmpty || l = 0 then endRecvt d s1.me.mbx.isEmpty s1
    else (do
      checkDest d
      postpone s [(a, l)]
      modify fun t => noteWait (t.modMe fun c => { c with rcv := some ⟨s1.cycles s1.layer + l.toNat, d, false⟩ }) t.cur .emptyRead
      throw .hold : M Unit) s1 := by
  rw [bodyRecvt, bind_ok (noMigrant_ok hm), run_get_bind, hr]
  dsimp only
  rw [bind_ok ha, run_get_bind]
  split <;> rfl

theorem recvt_word {v : Word} {s2 s3 : State} (hb : s1.me.mbx ≠ []) (hv : readReg 30 s1 = .ok v s2)
    (hd : writeReg d v (putK (s2.modMe fun c => { c with rcv := none }) 30 false) = .ok () s3) :
    exec (.recvt d a) s = .next (after 4 s s3) := by
  have he : s1.me.mbx.isEmpty = false := by simpa using hb
  refine runInstr_done (body := bodyRecvt d a) ?_
  rw [bodyRecvt_fresh hm hr ha, he, if_pos (by simp)]
  exact endRecvt_word hv hd

theorem recvt_at_once {s3 : State} (hb : s1.me.mbx = []) (hl : l = 0)
    (hd : writeReg d 0 (putK (s1.modMe fun c => { c with rcv := none }) 30 true) = .ok () s3) :
    exec (.recvt d a) s = .next (after 4 s s3) := by
  refine runInstr_done (body := bodyRecvt d a) ?_
  rw [bodyRecvt_fresh hm hr ha, hb, if_pos (by simp [hl])]
  exact endRecvt_late hd

/-- A `recvt` that begins to wait keeps its context as it was, but for the limit and what it has read. -/
theorem bodyRecvt_waits (hb : s1.me.mbx = []) (hl : l ≠ 0) (hd : checkDest d s1 = .ok () s1) :
    ∃ t w p, bodyRecvt d a s = .error .hold t ∧ t.mem = s.mem ∧ w.kind = .emptyRead ∧
      t.me = { s.me with pops := p, rcv := some ⟨s1.cycles s1.layer + l.toNat, d, false⟩, wait := some w } := by
  obtain ⟨t, ht, hmem, hme⟩ := postpone_frame ha
  have hbody := bodyRecvt_fresh (d := d) hm hr ha
  rw [hb, if_neg (by simpa using hl), bind_ok hd, bind_ok ht, bind_ok (run_modify _ _), run_throw] at hbody
  obtain ⟨w, hw, hctx⟩ := ctx_noteWait (t.modMe fun c => { c with rcv := some ⟨s1.cycles s1.layer + l.toNat, d, false⟩ }) t.cur .emptyRead
  rw [ctx_modMe, ← State.me, hme] at hctx
  exact ⟨_, w, _, hbody, hmem, hw, hctx⟩

theorem recvt_waits (hb : s1.me.mbx = []) (hl : l ≠ 0) (hd : checkDest d s1 = .ok () s1) :
    ∃ t, exec (.recvt d a) s = .next t ∧ WaitsAt s t .emptyRead ∧
      t.me.rcv = some ⟨s1.cycles s1.layer + l.toNat, d, false⟩ ∧ t.me.qin = s.me.qin ∧ t.me.mbx = s.me.mbx := by
  obtain ⟨t, w, p, hbody, hmem, hw, hme⟩ := bodyRecvt_waits hm hr ha hb hl hd
  refine ⟨t, runInstr_err (body := bodyRecvt d a) hbody, ?_⟩
  simp only [WaitsAt, hme, hmem, hw, Option.map_some, and_self]

end

/-- A `recvt` that waits, tried again: it has taken what it has read from queues. -/
theorem bodyRecvt_again {d a : Reg} {s : State} {r : Rcv} (hm : s.me.migrant = false) (hr : s.me.rcv = some r) :
    bodyRecvt d a s = endRecvt d (r.expired || (takePops s s.cur).me.mbx.isEmpty) (takePops s s.cur) := by
  rw [bodyRecvt, bind_ok (noMigrant_ok hm), run_get_bind, hr]
  rfl

theorem recvt_again_word {d a : Reg} {s s2 s3 : State} {r : Rcv} {v : Word} (hm : s.me.migrant = false) (hr : s.me.rcv = some r)
    (he : r.expired = false) (hb : (takePops s s.cur).me.mbx ≠ []) (hv : readReg 30 (takePops s s.cur) = .ok v s2)
    (hd : writeReg d v (putK (s2.modMe fun c => { c with rcv := none }) 30 false) = .ok () s3) :
    exec (.recvt d a) s = .next (after 4 s s3) := by
  have hb' : (takePops s s.cur).me.mbx.isEmpty = false := by simpa using hb
  refine runInstr_done (body := bodyRecvt d a) ?_
  rw [bodyRecvt_again hm hr, he, hb']
  exact endRecvt_word hv hd

theorem recvt_again_late {d a : Reg} {s s3 : State} {r : Rcv} (hm : s.me.migrant = false) (hr : s.me.rcv = some r)
    (he : r.expired = true) (hd : writeReg d 0 (putK ((takePops s s.cur).modMe fun c => { c with rcv := none }) 30 true) = .ok () s3) :
    exec (.recvt d a) s = .next (after 4 s s3) := by
  refine runInstr_done (body := bodyRecvt d a) ?_
  rw [bodyRecvt_again hm hr, he, Bool.true_or]
  exact endRecvt_late hd

/-! ## The timeout of `recvt` (R196, R217) -/

theorem blockedRead_mailbox {s : State} {m : Nat} (hb : (s.ctx m).mbx = []) (hw : (s.ctx m).wait.map (·.kind) = some .emptyRead) :
    blockedRead s m = true := by
  obtain ⟨w, hw', hk⟩ := Option.map_eq_some_iff.1 hw
  simp [blockedRead, hw', hk, WaitKind.isRead, waitSeen, hb]

/-- The state in which a `recvt` whose time is over has its zero delivered. -/
def timeUp (s : State) (m : Nat) : State := (takePops s m).modCtx m fun c => { c with rcv := none }.setK 30 true

/-- The state behind a `recvt` whose time is over, with zero in general register `n`. -/
def timedOut (s : State) (m n stop : Nat) : State :=
  bowMark ((resumedAfter ((timeUp s m).modCtx m fun c => c.setReg n 0) m 4).modCtx m fun c => { c with cyc := stop }) m

section

variable {s : State} {m : Nat} (hb : (s.ctx m).mbx = []) (n stop : Nat)

include hb

theorem timedOut_ctx : (timedOut s m n stop).ctx m = { (s.ctx m).setReg n 0 with
    qin := ((takePops s m).ctx m).qin, pops := [], rcv := none, k := putBit (s.ctx m).k 30 true, wait := none, via := (s.ctx m).pc,
    pc := (s.ctx m).pc + 4, cyc := stop } := by
  obtain ⟨-, -, q, hctx⟩ := takePops_takes hb
  have hk : Context.setK { s.ctx m with qin := q, pops := [], rcv := none } 30 true = _ := setK_eq _ 30 true
  simp only [timedOut, bowMark, ctx_modCore, resumedAfter, resumed, timeUp, modCtx_modCtx, ctx_modCtx, hctx, hk]
  rfl

theorem timedOut_mem : (timedOut s m n stop).mem = s.mem := by
  simp only [timedOut, bowMark, modCore_mem, resumedAfter, resumed, timeUp, modCtx_mem, (takePops_takes hb).mem]

theorem timedOut_bow : ((timedOut s m n stop).core (m / 16)).bow = (s.core (m / 16)).bow ||| (s.ctx m).bowgrp := by
  obtain ⟨-, hbow, q, hctx⟩ := takePops_takes hb
  rw [timedOut, bowMark, mbaCid, core_modCore]
  simp only [resumedAfter, resumed, timeUp, core_modCtx, hbow, modCtx_modCtx, ctx_modCtx, hctx, setReg_bowgrp, setK_bowgrp]

end

section

variable {m : Nat} {s : State} {r : Rcv} (hr : (s.ctx m).rcv = some r) (hrun : (s.ctx m).run = .running) (hb : (s.ctx m).mbx = [])
  (hw : (s.ctx m).wait.map (·.kind) = some .emptyRead)

include hr

theorem recvtExpires_early (h : cyclesAt s (m / 16) ≤ r.stop) : recvtExpires m s = s := by
  have hn : ¬r.stop < s.cycles (cidLayer (mbaCid m)) := Nat.not_lt.2 h
  simp only [recvtExpires, hr]
  rw [if_neg (by simp [hn])]

include hrun hb hw

theorem recvtExpires_delivered {t : State} (h : r.stop < cyclesAt s (m / 16)) (hd : deliver (timeUp s m) m r.d 0 = some t) :
    recvtExpires m s = bowMark ((resumedAfter t m 4).modCtx m fun c => { c with cyc := r.stop }) m := by
  have hn : r.stop < s.cycles (cidLayer (mbaCid m)) := h
  simp only [recvtExpires, hr]
  rw [if_pos (by simp [hn, hrun, blockedRead_mailbox hb hw]), ← timeUp, hd]

theorem recvtExpires_full (h : r.stop < cyclesAt s (m / 16)) (hd : deliver (timeUp s m) m r.d 0 = none) :
    recvtExpires m s = bowMark (noteWait (s.modCtx m fun c => { c with rcv := some { r with expired := true } }) m .fullWrite) m := by
  have hn : r.stop < s.cycles (cidLayer (mbaCid m)) := h
  simp only [recvtExpires, hr]
  rw [if_pos (by simp [hn, hrun, blockedRead_mailbox hb hw]), ← timeUp, hd]

theorem recvtTimeout_general (h : r.stop < cyclesAt s (m / 16)) (hd : r.d.toNat < 24) :
    ∃ t, exec (.recvtTimeout m) s = .next t ∧ (t.ctx m).pc = (s.ctx m).pc + 4 ∧ (t.ctx m).cyc = r.stop ∧
      (∀ i, i < 24 → (t.ctx m).reg i = if i = r.d.toNat then 0 else (s.ctx m).reg i) ∧ (t.ctx m).k = putBit (s.ctx m).k 30 true ∧
      (t.ctx m).wait = none ∧ (t.ctx m).rcv = none ∧ t.mem = s.mem ∧
      (∀ src v q, (s.ctx m).pops = [(28, v)] → (s.ctx m).qin = .word src v :: q → (t.ctx m).qin = q ∧ (t.ctx m).pops = []) ∧
      (t.core (m / 16)).bow = (s.core (m / 16)).bow ||| (s.ctx m).bowgrp := by
  have hstep := recvtExpires_delivered hr hrun hb hw h (t := (timeUp s m).modCtx m fun c => c.setReg r.d.toNat 0) (if_pos hd)
  refine ⟨timedOut s m r.d.toNat r.stop, congrArg Host.Outcome.next hstep, ?_⟩
  rw [timedOut_ctx hb]
  refine ⟨rfl, rfl, fun i _ => ?_, rfl, rfl, rfl, timedOut_mem hb .., fun src v q hp hq => ⟨takePops_word hp hq, rfl⟩, timedOut_bow hb ..⟩
  show ((s.ctx m).setReg r.d.toNat 0).reg i = _
  split
  · next h => rw [h, reg_setReg _ _ hd]
  · next h => exact reg_setReg_ne _ _ h

end

theorem nbits_low_twenty (v : Word) : nbits v.toNat 19 0 = (v.setWidth 20).toNat := by
  rw [BitVec.toNat_setWidth]
  rfl

theorem qlinkOk_modCtx (s : State) {m : Nat} {f : Context → Context} (h : (f (s.ctx m)).qlink = (s.ctx m).qlink) :
    qlinkOk (s.modCtx m f) m = qlinkOk s m := by
  rw [qlinkOk, ctx_modCtx, h]
  rfl

theorem qoutUsed_modCtx (s : State) {m : Nat} {f : Context → Context} (h : (f (s.ctx m)).qin = (s.ctx m).qin) (src dst : Nat) :
    qoutUsed (s.modCtx m f) src dst = qoutUsed s src dst := by
  have hq : ((s.modCtx m f).ctx dst).qin = (s.ctx dst).qin := by
    by_cases hd : dst = m
    · rw [hd, ctx_modCtx, h]
    · rw [ctx_modCtx_ne _ _ hd]
  rw [qoutUsed, hq]
  rfl

/-- Where its `qout` is full, a `recvt` whose time is over waits for that. -/
theorem deliver_qout_full {s : State} {m : Nat} {d : Reg} {v : Word} (hd : d.toNat = 29) (hq : qlinkOk s m = true) (ho : (s.ctx m).out = [])
    (hf : 16 ≤ qoutUsed s m ((s.ctx m).qlink.setWidth 20).toNat) : deliver s m d v = none := by
  obtain rfl : d = 29 := by bv_omega
  have hpush : pushQout v { s with cur := m } = .error (.wait .fullWrite) { s with cur := m } := by
    have hq' : qlinkOk { s with cur := m } m = true := hq
    have ho' : (State.me { s with cur := m }).out.isEmpty = true := List.isEmpty_iff.2 ho
    have hf' : 16 ≤ qoutUsed { s with cur := m } m (nbits (State.me { s with cur := m }).qlink.toNat 19 0) := by
      rw [nbits_low_twenty]
      exact hf
    simp only [pushQout, run_get_bind, raiseIf_bind, released_bind, stallIf_bind, hq', ho', hf', Bool.not_true, Bool.false_eq_true,
      if_false, decide_true, if_true]
  rw [deliver, if_neg (by decide), if_neg (by decide)]
  exact congrArg (fun x : EStateM.Result Stop State Unit => match x with | .ok _ t => some { t with cur := s.cur } | .error _ _ => none) hpush

theorem recvtTimeout_full {s : State} {m : Nat} {r : Rcv} (hr : (s.ctx m).rcv = some r) (hrun : (s.ctx m).run = .running)
    (hb : (s.ctx m).mbx = []) (hw : (s.ctx m).wait.map (·.kind) = some .emptyRead) (h : r.stop < cyclesAt s (m / 16)) (hd : r.d.toNat = 29)
    (hq : qlinkOk s m = true) (ho : (s.ctx m).out = []) (hp : (s.ctx m).pops = [])
    (hf : 16 ≤ qoutUsed s m ((s.ctx m).qlink.setWidth 20).toNat) :
    ∃ t, exec (.recvtTimeout m) s = .next t ∧ (t.ctx m).pc = (s.ctx m).pc ∧ (t.ctx m).k = (s.ctx m).k ∧
      (t.ctx m).rcv = some { r with expired := true } ∧ ((t.ctx m).wait.map (·.kind)) = some .fullWrite ∧ t.qnet = s.qnet := by
  have hfull : deliver (timeUp s m) m r.d 0 = none := by
    rw [timeUp, takePops_none hp]
    refine deliver_qout_full hd ((qlinkOk_modCtx s rfl).trans hq) (by rwa [ctx_modCtx]) ?_
    rw [ctx_modCtx, qoutUsed_modCtx s rfl]
    exact hf
  refine ⟨_, congrArg Host.Outcome.next (recvtExpires_full hr hrun hb hw h hfull), ?_⟩
  obtain ⟨w, hk, hctx⟩ := ctx_noteWait (s.modCtx m fun c => { c with rcv := some { r with expired := true } }) m .fullWrite
  rw [ctx_modCtx] at hctx
  rw [bowMark, ctx_modCore, hctx]
  exact ⟨rfl, rfl, rfl, congrArg some hk, rfl⟩

/-! ## `mbcnt` and `send` (R197) -/

theorem mbcnt_step {d : Reg} {s s1 : State} (hm : s.me.migrant = false)
    (hd : writeReg d (BitVec.ofNat 64 s.me.mbx.length) s = .ok () s1) : exec (.mbcnt d) s = .next (after 4 s s1) := by
  refine runInstr_done (body := bodyMbcnt d) ?_
  rw [bodyMbcnt, bind_ok (noMigrant_ok hm), run_me_bind]
  exact hd

theorem sendWord_run (m v : Word) (s : State) : sendWord m v s =
    if !mbaValid s.minimal m.toNat then .error (.trap ⟨0x02, m⟩) s
    else if !s.me.out.isEmpty then .error (.wait .access) s
    else if s.downAt (mbaCid m.toNat) then .ok () (postHw s (mbaCid s.cur) s.cur (resetNotice m.toNat))
    else if 64 ≤ creditsUsed s (mbaCid s.cur) (mbaCid m.toNat) then .error (.wait .sendFull) s
    else .ok () (bowMark (putOnNet s ⟨s.cur, m.toNat, false, v, 0, s.me.bowgrp, 0, false⟩) s.cur) := by
  simp only [sendWord, run_get_bind, raiseIf_bind, released_bind, BitVec.ofNat_toNat, BitVec.setWidth_eq]
  congr 2
  split
  · rfl
  · simp only [stallIf_bind, decide_eq_true_eq]
    rfl

theorem sendWord_up {m v : Word} {s : State} (hv : mbaValid s.minimal m.toNat = true) (hr : Released s) (hu : Up s (mbaCid m.toNat)) :
    sendWord m v s =
      if 64 ≤ creditsUsed s (mbaCid s.cur) (mbaCid m.toNat) then .error (.wait .sendFull) s
      else .ok () (bowMark (putOnNet s ⟨s.cur, m.toNat, false, v, 0, s.me.bowgrp, 0, false⟩) s.cur) := by
  have ho : s.me.out.isEmpty = true := List.isEmpty_iff.2 hr
  have hdown : s.downAt (mbaCid m.toNat) = false := by rw [State.downAt, hu.1, hu.2]; rfl
  rw [sendWord_run, hv, ho, hdown]
  rfl

section

variable {a b : Reg} {s s1 s2 : State} {m v : Word} (hm : s.me.migrant = false) (ha : readReg a s = .ok m s1) (hb : readReg b s1 = .ok v s2)

include hm ha hb

theorem bodySend_run : bodySend a b s = sendWord m v s2 := by
  rw [bodySend, bind_ok (noMigrant_ok hm), bind_ok ha, bind_ok hb]

theorem send_invalid (hv : mbaValid s2.minimal m.toNat = false) : exec (.send a b) s = .next (takeTrap ⟨0x02, m⟩ s) := by
  refine runInstr_trap (body := bodySend a b) (t := s2) ?_
  rw [bodySend_run hm ha hb, sendWord_run, hv]
  rfl

theorem send_unreleased (hv : mbaValid s2.minimal m.toNat = true) (hr : ¬Released s2) :
    exec (.send a b) s = .next (noteWait s s.cur .access) := by
  refine runInstr_wait (body := bodySend a b) (t := s2) ?_
  have ho : s2.me.out.isEmpty = false := by simpa [Released] using hr
  rw [bodySend_run hm ha hb, sendWord_run, hv, ho]
  rfl

theorem send_noCredit (hv : mbaValid s2.minimal m.toNat = true) (hr : Released s2) (hu : Up s2 (mbaCid m.toNat))
    (hc : 64 ≤ creditsUsed s2 (mbaCid s2.cur) (mbaCid m.toNat)) :
    ∃ t, exec (.send a b) s = .next t ∧ WaitsAt s t .sendFull ∧ t.net = s.net := by
  refine ⟨_, runInstr_wait (body := bodySend a b) (t := s2) ?_, waitsAt_noteWait s .sendFull, rfl⟩
  rw [bodySend_run hm ha hb, sendWord_up hv hr hu, if_pos hc]

theorem send_sends (hv : mbaValid s2.minimal m.toNat = true) (hr : Released s2) (hu : Up s2 (mbaCid m.toNat))
    (hc : creditsUsed s2 (mbaCid s2.cur) (mbaCid m.toNat) < 64) : ∃ t, exec (.send a b) s = .next t ∧
      t.net = s2.net ++ [⟨s2.cur, m.toNat, false, v, 0, s2.me.bowgrp, s2.mseq, false⟩] ∧ t.me.x = s2.me.x ∧ t.me.msgdst = s2.me.msgdst ∧
      t.mem = s2.mem ∧ t.me.pc = s.me.pc + BitVec.ofNat 64 (4 * s.grp.n + 4) := by
  have hbody := bodySend_run hm ha hb
  rw [sendWord_up hv hr hu, if_neg (Nat.not_le.2 hc)] at hbody
  refine ⟨_, runInstr_done (body := bodySend a b) hbody, ?_⟩
  rw [after, me_modMe]
  exact ⟨rfl, rfl, rfl, rfl, rfl⟩

end

end Sys2Proof.Sync

open Sys2Proof.Sync in
/-- Settles O27: each instruction is its body behind its reads; at its limit a `recvt` takes what it has read and has its zero delivered, or
waits on. -/
theorem mailboxInstructions : Obligations.MailboxInstructions := by
  refine ⟨fun d a s s1 l hm hr ha => ⟨fun v s2 s3 => recvt_word hm hr ha, fun s3 => recvt_at_once hm hr ha, recvt_waits hm hr ha⟩,
    fun d a s r hm hr => ⟨fun v s2 s3 => recvt_again_word hm hr, fun s3 => recvt_again_late hm hr⟩,
    fun m s r hr hrun hb hw => ⟨fun h => congrArg _ (recvtExpires_early hr h), recvtTimeout_general hr hrun hb hw,
      recvtTimeout_full hr hrun hb hw⟩,
    fun d s s1 => mbcnt_step, fun a b s s1 s2 m v hm ha hb => ⟨send_invalid hm ha hb, send_unreleased hm ha hb, fun hv hr hu =>
      ⟨send_sends hm ha hb hv hr hu, send_noCredit hm ha hb hv hr hu⟩⟩⟩
end

section
/-! SUPPORT. What reads and writes of register fields leave alone besides what Laws/Keep.lean lists: the threads' places, translation and the
leases. -/

namespace Sys2Proof.Sync

open Sys2Proof.Machine Sys2Proof.Spec Sys2Proof.Laws Sys2Proof.Scalar

/-! ## What the hardware's posting of words changes (R195, R375, R377) -/

/-- Two states that differ at most in words on the networks, in cores and in the work items and launches that those words count for. -/
def Posts (s t : State) : Prop :=
  t = { s with net := t.net, ingress := t.ingress, held := t.held, mseq := t.mseq, cores := t.cores, store := t.store, spaceq := t.spaceq }

theorem Posts.refl (s : State) : Posts s s := rfl

theorem Posts.trans {s t u : State} (h : Posts s t) (k : Posts t u) : Posts s u := by
  unfold Posts at h k ⊢
  rw [k, h]

theorem Posts.ctxs {s t : State} (h : Posts s t) : t.ctxs = s.ctxs := by rw [h]
theorem Posts.cur {s t : State} (h : Posts s t) : t.cur = s.cur := by rw [h]
theorem Posts.walks {s t : State} (h : Posts s t) : t.walks = s.walks := by rw [h]
theorem Posts.fills {s t : State} (h : Posts s t) : t.fills = s.fills := by rw [h]
theorem Posts.leases {s t : State} (h : Posts s t) : t.leases = s.leases := by rw [h]
theorem Posts.me {s t : State} (h : Posts s t) : t.me = s.me := by rw [State.me, State.ctx, h.ctxs, h.cur]; rfl

theorem posts_postWith (s : State) (a : HwAgent) (c d : Nat) (v : Word) (n : Nat) (it : Option Item) : Posts s (postWith s a c d v n it) := by
  unfold postWith
  dsimp only
  split <;> rfl

theorem posts_postAs (s : State) (a : HwAgent) (c d : Nat) (v : Word) (n : Nat) : Posts s (postAs s a c d v n) := posts_postWith ..

theorem posts_spaceNotice (s : State) (p : BitVec 4) : Posts s (spaceNotice s p) := by
  unfold spaceNotice
  split
  · exact Posts.trans (t := { s with spaceq := _ }) rfl (posts_postAs ..)
  · rfl

theorem posts_countPosted (s : State) (it : Item) : Posts s (countPosted s it) := by
  unfold countPosted
  split
  · rfl
  · split
    · rfl
    · exact Posts.trans (t := { s with store := _ }) rfl (posts_spaceNotice ..)

theorem posts_modCore (s : State) (c : Nat) (f : Core → Core) : Posts s (s.modCore c f) := rfl

theorem posts_takeItem (s : State) (c : Nat) (it : Item) : Posts s (takeItem s c it) := by
  have h := (((((posts_postWith s (.items c) c (16 * c) (itemWord it) 1 (some it)).trans (posts_postAs _ (.items c) c (16 * c) it.entry 2)).trans
    (posts_postAs _ (.items c) c (16 * c) it.arg 3)).trans (posts_postAs _ (.items c) c (16 * c) it.seed 4)).trans
    (posts_postAs _ (.items c) c (16 * c) it.ctr 5)).trans (posts_modCore _ c fun k => { k with claims := k.claims + 1 })
  unfold takeItem
  dsimp only
  split
  · exact h
  · exact h.trans (posts_countPosted ..)

theorem posts_takeQueuedN (c n : Nat) (s : State) : Posts s (takeQueuedN c n s) := by
  induction n generalizing s with
  | zero => rfl
  | succ n ih =>
    unfold takeQueuedN
    dsimp only
    split
    · rfl
    · split
      · exact ((posts_modCore ..).trans (posts_takeItem ..)).trans (ih _)
      · rfl

theorem posts_takeQueued (s : State) (c : Nat) : Posts s (takeQueued s c) := posts_takeQueuedN c 64 s

theorem posts_wordPosted (s : State) (h : Held) : Posts s (wordPosted s h) := by
  have go (t : State) (c : Nat) (ht : Posts s t) : Posts s (if hwBusy t (.items c) then t else takeQueued t c) := by
    split
    · exact ht
    · exact ht.trans (posts_takeQueued ..)
  obtain ⟨b, w, it⟩ := h
  cases it with
  | none =>
    cases b with
    | items c => exact go s c (.refl s)
    | _ => exact .refl s
  | some it =>
    have hc := posts_countPosted s it
    cases b with
    | items c => exact go _ c hc
    | _ => exact hc

theorem posts_release (x : State × List Held) (h : Held) : Posts x.1 (release x h).1 := by
  unfold release
  split <;> rfl

theorem posts_releaseHeld (s : State) : Posts s (releaseHeld s) := by
  have hreleases (l : List Held) (x : State × List Held) : Posts x.1 (l.foldl release x).1 := by
    induction l generalizing x with
    | nil => rfl
    | cons h l ih => exact (posts_release x h).trans (ih _)
  have hposted (l : List Held) (s : State) : Posts s (l.foldl wordPosted s) := by
    induction l generalizing s with
    | nil => rfl
    | cons h l ih => exact (posts_wordPosted s h).trans (ih _)
  unfold releaseHeld
  split
  · rfl
  · exact (Posts.trans (t := { s with held := [] }) rfl (hreleases _ _)).trans (hposted _ _)

/-! ## Reads -/

/-- What a read leaves alone: where the current thread runs, its partition, and translation. -/
structure Stays (s t : State) : Prop where
  cur   : t.cur = s.cur
  away  : t.me.away = s.me.away
  part  : t.me.part = s.me.part
  walks : t.walks = s.walks
  fills : t.fills = s.fills

theorem Stays.refl (s : State) : Stays s s := ⟨rfl, rfl, rfl, rfl, rfl⟩

theorem Stays.trans {s t u : State} (h : Stays s t) (k : Stays t u) : Stays s u :=
  ⟨k.cur.trans h.cur, k.away.trans h.away, k.part.trans h.part, k.walks.trans h.walks, k.fills.trans h.fills⟩

theorem Posts.stays {s t : State} (h : Posts s t) : Stays s t := ⟨h.cur, by rw [h.me], by rw [h.me], h.walks, h.fills⟩

theorem stays_modMe (s : State) {f : Context → Context} (ha : (f s.me).away = s.me.away) (hp : (f s.me).part = s.me.part) :
    Stays s (s.modMe f) := ⟨rfl, by rw [me_modMe, ha], by rw [me_modMe, hp], rfl, rfl⟩

theorem stays_admitWord (s : State) : Stays s (admitWord s s.cur) := by
  unfold admitWord
  dsimp only
  split
  · exact .refl s
  · split
    · exact .refl s
    · split
      · exact .refl s
      · refine ⟨rfl, ?_, ?_, rfl, rfl⟩
        · exact (congrArg Context.away (ctx_setCtx _ s.cur _) :)
        · exact (congrArg Context.part (ctx_setCtx _ s.cur _) :)

theorem stays_popPort {d : Dir} {s t : State} {v : Word} (h : popPort d s = .ok v t) : Stays s t := by
  simp only [popPort, run_get_bind, raiseIf_bind] at h
  split at h
  · cases h
  · cases hq : ((s.core (mbaCid s.cur)).portq d).next s.cur with
    | some i =>
      rw [hq] at h
      cases h
      exact (posts_modCore ..).stays
    | none =>
      rw [hq] at h
      cases h

theorem stays_popQin {s t : State} {v : Word} (h : popQin s = .ok v t) : Stays s t := by
  have hq := popQin_onlyQin h
  obtain ⟨q, hme⟩ := hq.me
  exact ⟨by rw [hq.rest], by rw [hme], by rw [hme], by rw [hq.rest], by rw [hq.rest]⟩

theorem stays_popMbx {s t : State} {v : Word} (h : popMbx s = .ok v t) : Stays s t := by
  simp only [popMbx, run_get_bind] at h
  cases hq : s.me.mbx with
  | nil =>
    rw [hq] at h
    cases h
  | cons w q =>
    rw [hq] at h
    simp only [run_set_bind, run_pure] at h
    cases h
    have hk := ((stays_modMe s (f := fun c => { c with mbx := q }.setK 31 w.hw) rfl rfl).trans (stays_admitWord _)).trans
      (posts_releaseHeld _).stays
    split
    · exact hk.trans ((posts_modCore ..).trans (posts_takeQueued ..)).stays
    · exact hk

theorem stays_readReg {r : Reg} {s t : State} {v : Word} (h : readReg r s = .ok v t) : Stays s t := by
  by_cases hp : plainReg r = true
  · rw [readReg_plain hp h]
    exact .refl s
  · have hr : r = 24 ∨ r = 25 ∨ r = 26 ∨ r = 27 ∨ r = 28 ∨ r = 29 ∨ r = 30 := by
      rw [plainReg_iff] at hp
      bv_omega
    rcases hr with rfl | rfl | rfl | rfl | rfl | rfl | rfl
    · exact stays_popPort h
    · exact stays_popPort h
    · exact stays_popPort h
    · exact stays_popPort h
    · exact stays_popQin h
    · cases h
    · exact stays_popMbx h

theorem Stays.here {s t : State} (h : Stays s t) : t.here = s.here := by
  have ha : (t.ctx s.cur).away = (s.ctx s.cur).away := by
    have := h.away
    rwa [State.me, h.cur] at this
  rw [State.here, State.hereOf, h.cur, Context.hosted, ha]
  rfl

theorem Stays.layer {s t : State} (h : Stays s t) : t.layer = s.layer := congrArg cidLayer h.here

/-! ## Writes -/

/-- An effect whose completion leaves the leases alone. -/
def KeepsLeases (x : M Unit) : Prop := ∀ s t, x s = .ok () t → t.leases = s.leases

theorem keepsLeases_pushPort (d : Dir) (v : Word) : KeepsLeases (pushPort d v) := by
  intro s t h
  simp only [pushPort, run_get_bind] at h
  cases hn : neighbour s.minimal (mbaCid s.cur) d with
  | none =>
    rw [hn] at h
    cases h
  | some n =>
    rw [hn] at h
    simp only [released_bind, stallIf_bind] at h
    split at h
    · cases h
    · split at h
      · cases h
      · cases h
        rfl

theorem keepsLeases_pushQout (v : Word) : KeepsLeases (pushQout v) := by
  intro s t h
  simp only [pushQout, run_get_bind, raiseIf_bind, released_bind, stallIf_bind] at h
  split at h
  · cases h
  · split at h
    · cases h
    · split at h
      · cases h
      · cases h
        rfl

theorem keepsLeases_sendWord (m v : Word) : KeepsLeases (sendWord m v) := by
  intro s t h
  rw [sendWord_run] at h
  split at h
  · cases h
  · split at h
    · cases h
    · split at h
      · cases h
        exact (posts_postAs ..).leases
      · split at h
        · cases h
        · cases h
          rfl

theorem keepsLeases_writeReg (r : Reg) (v : Word) : KeepsLeases (writeReg r v) := by
  unfold writeReg
  split
  · exact keepsLeases_pushPort _ _
  · exact keepsLeases_pushPort _ _
  · exact keepsLeases_pushPort _ _
  · exact keepsLeases_pushPort _ _
  · intro s t h
    cases h
  · exact keepsLeases_pushQout _
  · intro s t h
    rw [run_me_bind] at h
    exact keepsLeases_sendWord _ _ s t h
  · intro s t h
    cases h
    rfl
  · intro s t h
    simp only [run_me_bind, stallIf_bind] at h
    split at h
    · cases h
    · cases h
      rfl

theorem lease_writeReg {r : Reg} {v : Word} {s t : State} (h : writeReg r v s = .ok () t) (q : Nat) : t.lease q = s.lease q :=
  congrArg (tget Lease.init · q) (keepsLeases_writeReg r v s t h)

end Sys2Proof.Sync
end

section
/-! SUPPORT. The lease of a quad's matrix array: what a grant and the end of a term do (R258, R259). -/

namespace Sys2Proof.Sync

open Sys2Proof.Machine Sys2Proof.Spec Sys2Proof.Laws Sys2Proof.Scalar

@[simp] theorem after_lease (len : Nat) (s t : State) (q : Nat) : (after len s t).lease q = t.lease q := rfl
@[simp] theorem after_net (len : Nat) (s t : State) : (after len s t).net = t.net := rfl
@[simp] theorem after_mem (len : Nat) (s t : State) : (after len s t).mem = t.mem := rfl

/-! ## Words that can be posted (R195) -/

theorem mustHold_eq_false {s : State} {dst : Nat} (h : CanPost s dst) : mustHold s dst = false := by
  obtain ⟨hn, hh⟩ := h
  have hw : ¬64 ≤ hwWaiting s dst := Nat.not_le.2 hn
  simp only [mustHold, hw, decide_false, Bool.false_or, List.any_eq_false, decide_eq_true_eq]
  exact hh

theorem postAs_canPost {s : State} {a : HwAgent} (ha : a.isEngine = false) {cid dst : Nat} {v : Word} (h : CanPost s dst) :
    postAs s a cid dst v 0 = { s with net := s.net ++ [hwWordTo s.mseq cid dst v], mseq := s.mseq + 1 } := by
  simp only [postAs, postWith, mustHold_eq_false h, Bool.false_eq_true, if_false, putOnNet, ha]
  rfl

/-! ## The rotation (R258) -/

theorem cidChild_lt (c : Nat) : cidChild c < 4 := by
  unfold cidChild
  omega

theorem findSome?_upFrom {α : Type} {f : Nat → Option α} {b : α} {j : Nat} (a n : Nat) (hj : j < n) (hlt : ∀ i, i < j → f (a + i) = none)
    (h : f (a + j) = some b) : (upFrom a n).findSome? f = some b := by
  induction n generalizing a j with
  | zero => omega
  | succ n ih =>
    rw [upFrom, List.findSome?_cons]
    cases j with
    | zero => rw [show f a = some b from h]
    | succ j =>
      rw [show f a = none from hlt 0 (by omega)]
      refine ih (j := j) (a + 1) (by omega) (fun i hi => ?_) ?_
      · rw [show a + 1 + i = a + (i + 1) by omega]
        exact hlt (i + 1) (Nat.succ_lt_succ hi)
      · rwa [show a + 1 + j = a + (j + 1) by omega]

/-- A request's place in the rotation, counted from the last holder's core on. -/
theorem turn_iff {l : Lease} (hl : l.lastCh < 4) (x : LReq) {k : Nat} (hk : k < 4) :
    cidChild (mbaCid x.who) = (l.lastCh + (1 + k)) % 4 ↔ turnsTo l x = k := by
  have := cidChild_lt (mbaCid x.who)
  unfold turnsTo
  omega

/-- The model's search finds the request that stands first in the rotation, the oldest of its core. -/
theorem nextRequest_eq {l : Lease} {r : LReq} (hl : l.lastCh < 4) (h : GrantedNext l r) : nextRequest l = some r := by
  obtain ⟨i, hi, hfirst⟩ := h
  have hr : turnsTo l r < 4 := Nat.mod_lt _ (by decide)
  have hfind {k : Nat} (hk : k < 4) : (l.reqs.find? fun x => cidChild (mbaCid x.who) = (l.lastCh + (1 + k)) % 4) =
      l.reqs.find? fun x => turnsTo l x = k := by
    simp only [turn_iff hl _ hk]
  refine findSome?_upFrom 1 4 hr (fun k hk => ?_) ?_
  · rw [hfind (hk.trans hr), List.find?_eq_none]
    intro x hx
    obtain ⟨j, hj⟩ := List.getElem?_of_mem hx
    have := hfirst j x hj
    simp only [decide_eq_true_eq]
    omega
  · obtain ⟨hlt, hget⟩ := List.getElem?_eq_some_iff.1 hi
    rw [hfind hr, List.find?_eq_some_iff_getElem]
    refine ⟨by simp, i, hlt, hget, fun j hj => ?_⟩
    have := hfirst j _ (List.getElem?_eq_getElem (hj.trans hlt))
    simp only [Bool.not_eq_true', decide_eq_false_iff_not]
    omega

theorem nextRequest_nil {l : Lease} (h : l.reqs = []) : nextRequest l = none := by
  simp [nextRequest, h]

theorem nextRequest_single {l : Lease} {x : LReq} (h : l.reqs = [x]) : nextRequest l = some x := by
  have hx := cidChild_lt (mbaCid x.who)
  rw [nextRequest, h]
  simp only [List.find?_singleton, decide_eq_true_eq]
  refine findSome?_upFrom 1 4 (j := (cidChild (mbaCid x.who) + 3 - l.lastCh % 4) % 4) (Nat.mod_lt _ (by decide)) (fun i hi => if_neg ?_)
    (if_pos ?_)
  · omega
  · omega

/-! ## Terms and grants -/

/-- No grant word of an array waits to be posted. -/
def Quiet (s : State) (q : Nat) : Prop := ∀ h ∈ s.held, h.by_ ≠ .lease q

theorem hwBusy_eq_false {s : State} {q : Nat} (h : Quiet s q) : hwBusy s (.lease q) = false := by
  simp only [hwBusy, List.any_eq_false, decide_eq_true_eq]
  exact h

theorem beginTerm_lease (s : State) (q m : Nat) (fresh : Bool) : (beginTerm s q m fresh).lease q =
    { s.lease q with holder := some m, lastCh := cidChild (mbaCid m), terms := (s.lease q).terms + 1, began := s.cycles 0, used := 0 } := by
  unfold beginTerm
  dsimp only
  split
  · rw [State.lease, (posts_postAs ..).leases]
    exact lease_modLease ..
  · exact lease_modLease ..

theorem beginTerm_net_fresh {s : State} {m : Nat} (q : Nat) (h : CanPost s m) : (beginTerm s q m true).net =
    s.net ++ [hwWordTo s.mseq (m / 16) m (BitVec.ofNat 64 (3 * 2 ^ 56 + ((s.lease q).terms + 1).toNat))] := by
  unfold beginTerm
  dsimp only
  rw [if_pos rfl, postAs_canPost rfl (show CanPost (s.modLease q _) m from h)]
  rfl

theorem beginTerm_keeps (s : State) (q m : Nat) (fresh : Bool) : (beginTerm s q m fresh).mem = s.mem ∧ (beginTerm s q m fresh).ctxs = s.ctxs ∧
    (beginTerm s q m fresh).cur = s.cur := by
  unfold beginTerm
  dsimp only
  split
  · exact ⟨(keeps_postAs ..).mem, (posts_postAs ..).ctxs, (posts_postAs ..).cur⟩
  · exact ⟨rfl, rfl, rfl⟩

theorem grantLease_granted {s : State} {q : Nat} {r : LReq} (hh : (s.lease q).holder = none) (hq : Quiet s q)
    (hr : nextRequest (s.lease q) = some r) :
    grantLease s q = beginTerm (s.modLease q fun l => { l with reqs := l.reqs.erase r }) q r.who r.fresh := by
  rw [grantLease, hwBusy_eq_false hq]
  simp only [hh, hr, Bool.false_eq_true, if_false]

theorem grantLease_holder {s : State} {q m : Nat} (hh : (s.lease q).holder = some m) : grantLease s q = s := by
  rw [grantLease, hh]

theorem grantLease_empty {s : State} {q : Nat} (hr : (s.lease q).reqs = []) : grantLease s q = s := by
  rw [grantLease, nextRequest_nil hr, ite_self]
  cases (s.lease q).holder <;> rfl

/-- What a grant can do: nothing, or a term begins for a request. -/
theorem grantLease_cases (s : State) (q : Nat) : grantLease s q = s ∨
    ∃ r, grantLease s q = beginTerm (s.modLease q fun l => { l with reqs := l.reqs.erase r }) q r.who r.fresh := by
  unfold grantLease
  dsimp only
  split
  · exact .inr ⟨_, rfl⟩
  · exact .inl rfl

theorem grantLease_keeps (s : State) (q : Nat) : (grantLease s q).mem = s.mem ∧ (grantLease s q).ctxs = s.ctxs ∧
    (grantLease s q).cur = s.cur := by
  rcases grantLease_cases s q with h | ⟨r, h⟩
  · rw [h]
    exact ⟨rfl, rfl, rfl⟩
  · rw [h]
    exact beginTerm_keeps ..

theorem grantLease_reqs {s : State} {q : Nat} {x : LReq} (hx : x ∈ ((grantLease s q).lease q).reqs) : x ∈ (s.lease q).reqs := by
  rcases grantLease_cases s q with h | ⟨r, h⟩
  · rwa [h] at hx
  · rw [h, beginTerm_lease, lease_modLease] at hx
    exact List.mem_of_mem_erase hx

/-- A request to a free array is granted at once, whatever core held the array last. -/
theorem grantLease_single {s : State} {q : Nat} {x : LReq} (hh : (s.lease q).holder = none) (hq : Quiet s q) (hr : (s.lease q).reqs = [x]) :
    grantLease s q = beginTerm (s.modLease q fun l => { l with reqs := l.reqs.erase x }) q x.who x.fresh :=
  grantLease_granted hh hq (nextRequest_single hr)

/-- A state that differs from `s` in leases alone, with the requests, the rotation and the terms of array `q` as in `l`. -/
structure Leasing (s t : State) (q : Nat) (l : Lease) : Prop where
  rest   : t = { s with leases := t.leases }
  reqs   : (t.lease q).reqs = l.reqs
  lastCh : (t.lease q).lastCh = l.lastCh
  terms  : (t.lease q).terms = l.terms

section

variable {s t : State} {q : Nat} {l : Lease}

theorem Leasing.net (h : Leasing s t q l) : t.net = s.net := by rw [h.rest]
theorem Leasing.mseq (h : Leasing s t q l) : t.mseq = s.mseq := by rw [h.rest]
theorem Leasing.cycles (h : Leasing s t q l) (n : Nat) : t.cycles n = s.cycles n := by rw [h.rest]; rfl
theorem Leasing.quiet (h : Leasing s t q l) (hq : Quiet s q) : Quiet t q := by rw [h.rest]; exact hq
theorem Leasing.canPost (h : Leasing s t q l) {m : Nat} (hm : CanPost s m) : CanPost t m := by rw [h.rest]; exact hm

/-- The end of a holder's hold changes leases alone. -/
theorem Leasing.modLease (h : Leasing s t q l) {f : Lease → Lease} {k : Lease} (hr : (f (t.lease q)).reqs = k.reqs)
    (hc : (f (t.lease q)).lastCh = k.lastCh) (ht : (f (t.lease q)).terms = k.terms) : Leasing s (t.modLease q f) q k :=
  ⟨by rw [h.rest]; rfl, by rw [lease_modLease, hr], by rw [lease_modLease, hc], by rw [lease_modLease, ht]⟩

theorem leasing_self (s : State) (q : Nat) : Leasing s s q (s.lease q) := ⟨rfl, rfl, rfl, rfl⟩

/-- A free array passes to the request that comes next in rotation. -/
theorem grantLease_passes (h : Leasing s t q l) (hh : (t.lease q).holder = none) (hl : l.lastCh < 4) (hq : Quiet s q) {r : LReq}
    (hr : GrantedNext l r) : LeasePasses s (grantLease t q) q l r := by
  have hnext : nextRequest (t.lease q) = some r := by
    rw [← nextRequest_eq hl hr, nextRequest, nextRequest, h.reqs, h.lastCh]
  rw [grantLease_granted hh (h.quiet hq) hnext]
  unfold LeasePasses
  rw [beginTerm_lease, lease_modLease]
  refine ⟨rfl, congrArg (List.erase · r) h.reqs, congrArg (· + 1) h.terms, rfl, h.cycles 0, rfl, fun hf => ?_, fun hf hp => ?_⟩
  · rw [hf]
    exact h.net
  · have hnet := beginTerm_net_fresh (s := t.modLease q fun l => { l with reqs := l.reqs.erase r }) q (h.canPost hp)
    rw [lease_modLease] at hnet
    rw [hf, hnet]
    simp only [modLease_net, modLease_mseq, h.net, h.mseq, h.terms]

theorem endTerm_ends {m : Nat} (h : Leasing s t q (s.lease q)) (hm : (t.lease q).holder = some m) (hl : (s.lease q).lastCh < 4) (hq : Quiet s q) :
    TermEnds s (endTerm t q) q m := by
  have hend : endTerm t q = if (s.lease q).reqs.isEmpty then beginTerm t q m false
      else grantLease (t.modLease q fun l => { l with holder := none, reqs := l.reqs ++ [⟨m, false⟩] }) q := by
    rw [endTerm, hwBusy_eq_false (h.quiet hq), if_neg Bool.false_ne_true, hm, ← h.reqs]
  rw [hend]
  refine ⟨fun hr => ?_, fun r hr hg => ?_⟩
  · rw [if_pos (List.isEmpty_iff.2 hr), beginTerm_lease]
    exact ⟨rfl, h.reqs.trans hr, congrArg (· + 1) h.terms, h.cycles 0, rfl, h.net⟩
  · rw [if_neg (by simpa using hr)]
    have hk := h.modLease (f := fun l => { l with holder := none, reqs := l.reqs ++ [⟨m, false⟩] })
      (k := { s.lease q with reqs := (s.lease q).reqs ++ [⟨m, false⟩] }) (congrArg (· ++ [⟨m, false⟩]) h.reqs) h.lastCh h.terms
    exact grantLease_passes hk (by rw [lease_modLease]) hl hq hg

end

theorem endTerm_keeps (s : State) (q : Nat) : (endTerm s q).mem = s.mem ∧ (endTerm s q).ctxs = s.ctxs := by
  unfold endTerm
  dsimp only
  split
  · exact ⟨rfl, rfl⟩
  · split
    · obtain ⟨hm, hc, -⟩ := beginTerm_keeps s q _ false
      exact ⟨hm, hc⟩
    · obtain ⟨hm, hc, -⟩ := grantLease_keeps (s.modLease q _) q
      exact ⟨hm, hc⟩

end Sys2Proof.Sync
end

section
/-! PROOFS. O36: the lease instructions and the end of a term. -/

namespace Sys2Proof.Sync

open Sys2Proof.Machine Sys2Proof.Spec Sys2Proof.Laws Sys2Proof.Scalar

/-! ## `mxlease` (R225) -/

/-- An array with one more request, entered by `mxlease`. -/
def requesting (s : State) (q who : Nat) : State := s.modLease q fun l => { l with reqs := l.reqs ++ [⟨who, true⟩] }

theorem requesting_lease (s : State) (q who : Nat) :
    (requesting s q who).lease q = { s.lease q with reqs := (s.lease q).reqs ++ [⟨who, true⟩] } := lease_modLease ..

section

variable {d : Reg} {s s1 : State} (hm : s.me.migrant = false)

include hm

theorem mxlease_layer (h : s.layer ≠ 0) : exec (.mxlease d) s = .next (takeTrap ⟨0x02, BitVec.ofNat 64 s.layer⟩ s) := by
  refine runInstr_trap (body := bodyMxlease d) (t := s) ?_
  rw [bodyMxlease, bind_ok (noMigrant_ok hm), run_get_bind, raiseIf_bind, if_pos (by simpa using h)]
  rfl

variable (hl : s.layer = 0)

include hl

theorem mxlease_again (h : (s.lease (quadBase (s.cur / 16))).holder = some s.cur ∨ ∃ r ∈ (s.lease (quadBase (s.cur / 16))).reqs, r.who = s.cur)
    (hd : writeReg d 1 s = .ok () s1) : exec (.mxlease d) s = .next (after 4 s s1) := by
  refine runInstr_done (body := bodyMxlease d) ?_
  rw [bodyMxlease, bind_ok (noMigrant_ok hm), run_get_bind, raiseIf_bind, if_neg (by simp [hl])]
  rw [mbaCid, if_pos (by simpa using h)]
  exact hd

/-- A context without lease or request enters one, and a free array is granted. -/
theorem mxlease_requests (hh : (s.lease (quadBase (s.cur / 16))).holder ≠ some s.cur)
    (hr : ∀ r ∈ (s.lease (quadBase (s.cur / 16))).reqs, r.who ≠ s.cur) (hd : writeReg d 0 s = .ok () s1) :
    exec (.mxlease d) s = .next (after 4 s (grantLease (requesting s1 (quadBase (s.cur / 16)) s.cur) (quadBase (s.cur / 16)))) := by
  refine runInstr_done (body := bodyMxlease d) ?_
  rw [bodyMxlease, bind_ok (noMigrant_ok hm), run_get_bind, raiseIf_bind, if_neg (by simp [hl])]
  rw [mbaCid, if_neg (by simpa using ⟨hh, hr⟩), bind_ok hd, run_modify, (keepsM_writeReg d 0 s () s1 hd).cur]
  rfl

/-- A free array is granted at once. -/
theorem mxlease_free (hh : (s.lease (quadBase (s.cur / 16))).holder = none) (hr : (s.lease (quadBase (s.cur / 16))).reqs = [])
    (hd : writeReg d 0 s = .ok () s1) (hp : CanPost s1 s.cur) (hq : Quiet s1 (quadBase (s.cur / 16))) :
    ∃ t, exec (.mxlease d) s = .next t ∧ (t.lease (quadBase (s.cur / 16))).holder = some s.cur ∧
      (t.lease (quadBase (s.cur / 16))).terms = (s.lease (quadBase (s.cur / 16))).terms + 1 ∧ (t.lease (quadBase (s.cur / 16))).reqs = [] ∧
      t.net = s1.net ++ [hwWordTo s1.mseq (s.cur / 16) s.cur
        (BitVec.ofNat 64 (3 * 2 ^ 56 + ((s.lease (quadBase (s.cur / 16))).terms + 1).toNat))] ∧ t.mem = s.mem := by
  refine ⟨_, mxlease_requests hm hl (by simp [hh]) (by simp [hr]) hd, ?_⟩
  generalize quadBase (s.cur / 16) = q at *
  have hl1 := lease_writeReg hd q
  have hmem := (keepsM_writeReg d 0 s () s1 hd).mem
  have hlease : (requesting s1 q s.cur).lease q = { s.lease q with reqs := [⟨s.cur, true⟩] } := by rw [requesting_lease, hl1, hr, List.nil_append]
  have hgrant := grantLease_single (s := requesting s1 q s.cur) (x := ⟨s.cur, true⟩) (by rw [hlease, hh]) hq (by rw [hlease])
  have hl2 := beginTerm_lease ((requesting s1 q s.cur).modLease q fun l => { l with reqs := l.reqs.erase ⟨s.cur, true⟩ }) q s.cur true
  have hnet := beginTerm_net_fresh (s := (requesting s1 q s.cur).modLease q fun l => { l with reqs := l.reqs.erase ⟨s.cur, true⟩ }) q hp
  rw [lease_modLease, hlease] at hl2 hnet
  rw [hgrant, after_lease, after_net, after_mem, hl2]
  exact ⟨rfl, rfl, by simp, hnet, (beginTerm_keeps ..).1.trans hmem⟩

/-- Where another context holds the array, the request waits. -/
theorem mxlease_held (hh : ∃ m, (s.lease (quadBase (s.cur / 16))).holder = some m ∧ m ≠ s.cur)
    (hr : ∀ r ∈ (s.lease (quadBase (s.cur / 16))).reqs, r.who ≠ s.cur) (hd : writeReg d 0 s = .ok () s1) :
    ∃ t, exec (.mxlease d) s = .next t ∧ (t.lease (quadBase (s.cur / 16))).holder = (s.lease (quadBase (s.cur / 16))).holder ∧
      (t.lease (quadBase (s.cur / 16))).reqs = (s.lease (quadBase (s.cur / 16))).reqs ++ [⟨s.cur, true⟩] ∧ t.net = s1.net ∧ t.mem = s.mem := by
  obtain ⟨m, hm', hne⟩ := hh
  refine ⟨_, mxlease_requests hm hl (by simpa [hm'] using hne) hr hd, ?_⟩
  generalize quadBase (s.cur / 16) = q at *
  have hl1 := lease_writeReg hd q
  rw [grantLease_holder (m := m) (by rw [requesting_lease, hl1, hm'])]
  refine ⟨?_, ?_, rfl, (keepsM_writeReg d 0 s () s1 hd).mem⟩
  · rw [after_lease, requesting_lease, hl1]
  · rw [after_lease, requesting_lease, hl1]

end

/-! ## `mxrel` (R226) -/

/-- An array without a context's requests. -/
def withdrawn (s : State) (q who : Nat) : State := s.modLease q fun l => { l with reqs := l.reqs.filter (·.who != who) }

theorem withdrawn_lease (s : State) (q who : Nat) :
    (withdrawn s q who).lease q = { s.lease q with reqs := (s.lease q).reqs.filter (·.who != who) } := lease_modLease ..

/-- An array that its holder has given up. -/
def freeArray (s : State) (q : Nat) : State := s.modLease q fun l => { l with holder := none }

theorem freeArray_lease (s : State) (q : Nat) : (freeArray s q).lease q = { s.lease q with holder := none } := lease_modLease ..

/-- On the base layer, `mxrel` withdraws the issuer's request and, where it holds the array, frees it. -/
theorem releaseLease_base {s : State} {m : Nat} (h0 : cidLayer (m / 16) = 0) : releaseLease s m =
    if (s.lease (quadBase (m / 16))).holder = some m then
      grantLease (freeArray (withdrawn s (quadBase (m / 16)) m) (quadBase (m / 16))) (quadBase (m / 16))
    else withdrawn s (quadBase (m / 16)) m := by
  have hh : ((withdrawn s (quadBase (m / 16)) m).lease (quadBase (m / 16))).holder = (s.lease (quadBase (m / 16))).holder := by
    rw [withdrawn_lease]
  rw [← hh, releaseLease, mbaCid, if_neg (by simpa using h0)]
  rfl

theorem mxrel_step {s : State} (hm : s.me.migrant = false) : exec .mxrel s = .next (after 4 s (releaseLease s s.cur)) := by
  refine runInstr_done (body := bodyMxrel) ?_
  rw [bodyMxrel, bind_ok (noMigrant_ok hm), run_modify]

theorem releaseLease_keeps {s : State} (h0 : cidLayer (s.cur / 16) = 0) : (releaseLease s s.cur).mem = s.mem ∧
    (releaseLease s s.cur).me = s.me := by
  rw [releaseLease_base h0]
  split
  · obtain ⟨hmem, hctxs, hcur⟩ := grantLease_keeps (freeArray (withdrawn s (quadBase (s.cur / 16)) s.cur) (quadBase (s.cur / 16)))
      (quadBase (s.cur / 16))
    refine ⟨hmem, ?_⟩
    rw [State.me, State.ctx, hctxs, hcur]
    rfl
  · exact ⟨rfl, rfl⟩

theorem releaseLease_reqs {s : State} {m : Nat} (h0 : cidLayer (m / 16) = 0) {r : LReq}
    (hr : r ∈ ((releaseLease s m).lease (quadBase (m / 16))).reqs) : r.who ≠ m := by
  have hfilter : r ∈ ((withdrawn s (quadBase (m / 16)) m).lease (quadBase (m / 16))).reqs := by
    rw [releaseLease_base h0] at hr
    split at hr
    · have hmem := grantLease_reqs hr
      rwa [freeArray_lease] at hmem
    · exact hr
  rw [withdrawn_lease] at hfilter
  simpa using (List.mem_filter.1 hfilter).2

theorem leasing_freeArray (s : State) (q who : Nat) : Leasing s (freeArray (withdrawn s q who) q) q
    { s.lease q with reqs := (s.lease q).reqs.filter fun r => r.who ≠ who } := by
  refine ⟨rfl, ?_, ?_, ?_⟩
  · rw [freeArray_lease, withdrawn_lease]
    exact List.filter_congr fun x _ => by simp [bne, beq_eq_decide]
  · rw [freeArray_lease, withdrawn_lease]
  · rw [freeArray_lease, withdrawn_lease]

theorem mxrel_releases {s : State} (hm : s.me.migrant = false) (h0 : cidLayer (s.cur / 16) = 0) : ∃ t, exec .mxrel s = .next t ∧
    (∀ r ∈ (t.lease (quadBase (s.cur / 16))).reqs, r.who ≠ s.cur) ∧ t.mem = s.mem ∧ t.me.x = s.me.x ∧
    (let l := { s.lease (quadBase (s.cur / 16)) with reqs := (s.lease (quadBase (s.cur / 16))).reqs.filter fun r => r.who ≠ s.cur };
      (s.lease (quadBase (s.cur / 16))).holder = some s.cur → (l.reqs = [] → (t.lease (quadBase (s.cur / 16))).holder = none) ∧
        ∀ r, l.lastCh < 4 → (∀ h ∈ s.held, h.by_ ≠ .lease (quadBase (s.cur / 16))) → GrantedNext l r →
          LeasePasses s t (quadBase (s.cur / 16)) l r) ∧
    t.me.pc = s.me.pc + BitVec.ofNat 64 (4 * s.grp.n + 4) := by
  obtain ⟨hmem, hme⟩ := releaseLease_keeps h0
  refine ⟨_, mxrel_step hm, fun r => releaseLease_reqs h0, hmem, ?_, fun hh => ?_, ?_⟩
  · rw [after, me_modMe, hme]
  · have hfree := leasing_freeArray s (quadBase (s.cur / 16)) s.cur
    have hnone : ((freeArray (withdrawn s (quadBase (s.cur / 16)) s.cur) (quadBase (s.cur / 16))).lease (quadBase (s.cur / 16))).holder = none := by
      rw [freeArray_lease]
    rw [releaseLease_base h0, if_pos hh]
    refine ⟨fun hr => ?_, fun r hl hq hg => grantLease_passes hfree hnone hl hq hg⟩
    rw [after_lease, grantLease_empty (hfree.reqs.trans hr), hnone]
  · rw [after, me_modMe]

/-! ## The end of a term (R259) -/

/-- An array with one more command counted under its term. -/
def counting (s : State) (q : Nat) : State := s.modLease q fun l => { l with used := l.used + 1 }

theorem counting_lease (s : State) (q : Nat) : (counting s q).lease q = { s.lease q with used := (s.lease q).used + 1 } := lease_modLease ..

theorem countCommand_eq (s : State) (q : Nat) :
    countCommand s q = if 64 ≤ (s.lease q).used + 1 then endTerm (counting s q) q else counting s q := by
  have hu : ((counting s q).lease q).used = (s.lease q).used + 1 := by rw [counting_lease]
  rw [← hu]
  rfl

/-- A matrix command that is not the 64th of its term is counted, and nothing more. -/
theorem countCommand_counts {s : State} {q : Nat} (h : (s.lease q).used + 1 < 64) :
    (countCommand s q).lease q = { s.lease q with used := (s.lease q).used + 1 } ∧ (countCommand s q).net = s.net := by
  rw [countCommand_eq, if_neg (Nat.not_le.2 h), counting_lease]
  exact ⟨rfl, rfl⟩

section

variable {q m : Nat} {s : State} (hh : (s.lease q).holder = some m)

include hh

theorem leaseTimeout_early (hc : s.cycles 0 < (s.lease q).began + 4096) (hu : (s.lease q).used < 64) : leaseTimeout q s = s := by
  have hn : ¬((s.lease q).began + termCycles ≤ s.cycles 0 ∨ termCommands ≤ (s.lease q).used) := not_or.2 ⟨Nat.not_le.2 hc, Nat.not_le.2 hu⟩
  rw [leaseTimeout, hh, if_neg (by simp), if_neg (by simpa using hn)]

theorem leaseTimeout_due (h : (s.lease q).began + 4096 ≤ s.cycles 0 ∨ 64 ≤ (s.lease q).used) : leaseTimeout q s = endTerm s q := by
  have hd : (s.lease q).began + termCycles ≤ s.cycles 0 ∨ termCommands ≤ (s.lease q).used := h
  rw [leaseTimeout, hh, if_neg (by simp), if_pos (by simpa using hd)]

theorem leaseTermTimeout_ends (h : (s.lease q).began + 4096 ≤ s.cycles 0 ∨ 64 ≤ (s.lease q).used) (hl : (s.lease q).lastCh < 4)
    (hq : Quiet s q) : ∃ t, exec (.leaseTermTimeout q) s = .next t ∧ t.mem = s.mem ∧ t.ctxs = s.ctxs ∧ TermEnds s t q m := by
  obtain ⟨hmem, hctxs⟩ := endTerm_keeps s q
  exact ⟨endTerm s q, congrArg Host.Outcome.next (leaseTimeout_due hh h), hmem, hctxs, endTerm_ends (leasing_self s q) hh hl hq⟩

theorem countCommand_ends (h : 64 ≤ (s.lease q).used + 1) (hl : (s.lease q).lastCh < 4) (hq : Quiet s q) :
    TermEnds s (countCommand s q) q m := by
  rw [countCommand_eq, if_pos h]
  refine endTerm_ends ⟨rfl, ?_, ?_, ?_⟩ ?_ hl hq
  · rw [counting_lease]
  · rw [counting_lease]
  · rw [counting_lease]
  · rw [counting_lease, hh]

end

end Sys2Proof.Sync
end

section
/-! PROOFS. O36: `engst` and `engcancel`. -/

namespace Sys2Proof.Sync

open Sys2Proof.Machine Sys2Proof.Spec Sys2Proof.Laws Sys2Proof.Scalar Sys2Proof.Segments

/-! ## Engines by number (R223) -/

theorem engOf_present (layer : Nat) (v : Word) : (engOf v.toNat).filter (engPresent layer) = engineOf layer v := by
  have hv (n : Nat) (hn : n < 6) : v = BitVec.ofNat 64 n ↔ v.toNat = n := by
    rw [← BitVec.toNat_inj, BitVec.toNat_ofNat, Nat.mod_eq_of_lt (by omega)]
  have h0 := hv 0 (by decide)
  have h1 := hv 1 (by decide)
  have h2 := hv 2 (by decide)
  have h3 := hv 3 (by decide)
  have h4 := hv 4 (by decide)
  have h5 := hv 5 (by decide)
  unfold engineOf
  simp only [BitVec.ofNat_eq_ofNat, h0, h1, h2, h3, h4, h5]
  generalize v.toNat = n
  match n with
  | 0 | 1 | 4 => rfl
  | 2 | 3 | 5 => by_cases hl : layer = 0 <;> simp [engOf, engPresent, hl]
  | n + 6 => rfl

theorem engOf_num {n : Nat} {e : Eng} (h : engOf n = some e) : engNum e = n := by
  unfold engOf at h
  split at h <;> cases h <;> rfl

theorem engNum_of_engineOf {layer : Nat} {v : Word} {e : Eng} (h : engineOf layer v = some e) : engNum e = v.toNat := by
  rw [← engOf_present, Option.filter_eq_some_iff] at h
  exact engOf_num h.1

theorem engNum_le (e : Eng) : engNum e ≤ 5 := by cases e <;> decide

theorem engArg_run {a : Reg} {s s1 : State} {v : Word} (ha : readReg a s = .ok v s1) : engArg a s =
    if 5 < v.toNat then .error (.trap ⟨0x02, v⟩) s1 else .ok (engineOf s.layer v) s1 := by
  rw [engArg, bind_ok ha, raiseIf_bind, BitVec.ofNat_toNat, BitVec.setWidth_eq, ← engOf_present, ← (stays_readReg ha).layer]
  simp only [decide_eq_true_eq]
  rfl

theorem status_eq (e : EngSt) : e.status = statusWord e := by
  have hl := e.last.isLt
  have hc := e.cause.isLt
  apply BitVec.eq_of_toNat_eq
  rw [EngSt.status, statusWord, toNat_append_add, toNat_append_add, toNat_append_add, toNat_append_add, BitVec.toNat_ofNat]
  cases e.fault
  · simp
    omega
  · simp
    omega

/-! ## Cancellation (R224, R285) -/

theorem cancellable_eq (m : Nat) (c : Cmd) : c.cancellable m = decide (c.issuer = m ∧ c.prog.began = false ∧ c.cancelled = false) := by
  simp [Cmd.cancellable, Bool.and_assoc]

/-- An armed put that a cancellation on an engine disarms (R285). -/
def disarms (e : Eng) (m : Nat) (p : ArmPut) : Bool := e = .link && p.issuer = m

theorem filter_disarms (e : Eng) (m : Nat) (l : List ArmPut) :
    l.filter (disarms e m) = if e = .link then l.filter (fun p => p.issuer = m) else [] := by
  split
  · next h => exact List.filter_congr fun p _ => by simp [disarms, h]
  · next h => exact List.filter_eq_nil_iff.2 fun p _ => by simp [disarms, h]

/-- A context's cancellation of its commands on an engine of the core where it runs. -/
def cancelling (s : State) (e : Eng) : State :=
  (s.modEng s.here e fun g => { g with queue := g.queue.map fun c => if c.cancellable s.cur then { c with cancelled := true } else c }).modCore s.here
    fun k => { k with armput := k.armput.filter fun p => !disarms e s.cur p }

/-- How many commands and armed puts a cancellation meets. -/
def cancelled (s : State) (e : Eng) : Nat :=
  ((s.eng s.here e).queue.filter (Cmd.cancellable s.cur)).length + ((s.core s.here).armput.filter (disarms e s.cur)).length

theorem cancelling_queue (s : State) (e : Eng) : (((cancelling s e).core s.here).eng.getD (engNum e) EngSt.init).queue =
    ((s.core s.here).eng.getD (engNum e) EngSt.init).queue.map fun c => if c.cancellable s.cur then { c with cancelled := true } else c := by
  have he : engNum e < 6 := Nat.lt_succ_of_le (engNum_le e)
  rw [cancelling, core_modCore, State.modEng, core_modCore]
  simp [Vector.getD, he]

theorem cancelling_armput (s : State) (e : Eng) : ((cancelling s e).core s.here).armput =
    (s.core s.here).armput.filter fun p => !disarms e s.cur p := by
  rw [cancelling, core_modCore, State.modEng, core_modCore]

theorem cancelling_me (s : State) (e : Eng) : (cancelling s e).me = s.me := rfl

section

variable {d a : Reg} {s s1 s2 : State} {v : Word} (hm : s.me.migrant = false) (ha : readReg a s = .ok v s1)

include hm ha

theorem engst_reserved (h : 5 < v.toNat) : exec (.engst d a) s = .next (takeTrap ⟨0x02, v⟩ s) := by
  refine runInstr_trap (body := bodyEngst d a) (t := s1) ?_
  rw [bodyEngst, bind_ok (noMigrant_ok hm), bind_err ((engArg_run ha).trans (if_pos h))]

theorem engcancel_reserved (h : 5 < v.toNat) : exec (.engcancel d a) s = .next (takeTrap ⟨0x02, v⟩ s) := by
  refine runInstr_trap (body := bodyEngcancel d a) (t := s1) ?_
  rw [bodyEngcancel, bind_ok (noMigrant_ok hm), bind_err ((engArg_run ha).trans (if_pos h))]

theorem engst_absent (h : v.toNat ≤ 5) (he : engineOf s.layer v = none) (hd : writeReg d 0 s1 = .ok () s2) :
    exec (.engst d a) s = .next (after 4 s s2) := by
  refine runInstr_done (body := bodyEngst d a) ?_
  rw [bodyEngst, bind_ok (noMigrant_ok hm), bind_ok ((engArg_run ha).trans (if_neg (Nat.not_lt.2 h))), run_get_bind, he]
  exact hd

theorem engcancel_absent (h : v.toNat ≤ 5) (he : engineOf s.layer v = none) (hd : writeReg d 0 s1 = .ok () s2) :
    exec (.engcancel d a) s = .next (after 4 s s2) := by
  refine runInstr_done (body := bodyEngcancel d a) ?_
  rw [bodyEngcancel, bind_ok (noMigrant_ok hm), bind_ok ((engArg_run ha).trans (if_neg (Nat.not_lt.2 h))), he]
  exact hd

theorem engst_reads {e : Eng} (he : engineOf s.layer v = some e)
    (hd : writeReg d (statusWord ((s1.core s.here).eng.getD v.toNat EngSt.init)) s1 = .ok () s2) :
    exec (.engst d a) s = .next (after 4 s s2) := by
  have hn := engNum_of_engineOf he
  have h : ¬5 < v.toNat := Nat.not_lt.2 (hn ▸ engNum_le e)
  refine runInstr_done (body := bodyEngst d a) ?_
  rw [bodyEngst, bind_ok (noMigrant_ok hm), bind_ok ((engArg_run ha).trans (if_neg h)), run_get_bind, he]
  dsimp only
  rw [status_eq, State.eng, hn, (stays_readReg ha).here]
  exact hd

theorem bodyEngcancel_run {e : Eng} (he : engineOf s.layer v = some e) :
    bodyEngcancel d a s = writeReg d (BitVec.ofNat 64 (cancelled s1 e)) (cancelling s1 e) := by
  have h : ¬5 < v.toNat := Nat.not_lt.2 (engNum_of_engineOf he ▸ engNum_le e)
  rw [bodyEngcancel, bind_ok (noMigrant_ok hm), bind_ok ((engArg_run ha).trans (if_neg h)), he]
  rfl

theorem engcancel_cancels {e : Eng} (he : engineOf s.layer v = some e) (hd : d.toNat < 24) (hw : s1.me.awaits d.toNat = false) :
    let q := ((s1.core s.here).eng.getD v.toNat EngSt.init).queue
    let mine := fun c : Cmd => c.issuer = s.cur ∧ c.prog.began = false ∧ c.cancelled = false
    let puts := if e = .link then (s1.core s.here).armput.filter (fun p => p.issuer = s.cur) else []
    ∃ t, exec (.engcancel d a) s = .next t ∧
      ((t.core s.here).eng.getD v.toNat EngSt.init).queue = q.map (fun c => if mine c then { c with cancelled := true } else c) ∧
      (t.core s.here).armput = (s1.core s.here).armput.filter (fun p => ¬(p ∈ puts)) ∧ t.mem = s1.mem ∧
      t.me.reg d.toNat = BitVec.ofNat 64 ((q.filter fun c => mine c).length + puts.length) ∧
      t.me.pc = s.me.pc + BitVec.ofNat 64 (4 * s.grp.n + 4) := by
  intro q mine puts
  have hstay := stays_readReg ha
  have hnum := engNum_of_engineOf he
  have hputs : puts = (s1.core s.here).armput.filter (disarms e s.cur) := (filter_disarms ..).symm
  have hmine : Cmd.cancellable s.cur = fun c => decide (mine c) := funext (cancellable_eq s.cur)
  have hcount : cancelled s1 e = (q.filter fun c => mine c).length + puts.length := by
    rw [hputs, cancelled, hstay.here, hstay.cur, State.eng, hnum, hmine]
  have hstep := runInstr_done (len := 4) ((bodyEngcancel_run (d := d) hm ha he).trans (writeReg_general _ hd hw))
  refine ⟨_, hstep, ?_, ?_, rfl, ?_, ?_⟩
  · have hqueue := cancelling_queue s1 e
    rw [hstay.here, hstay.cur, hnum] at hqueue
    refine hqueue.trans (List.map_congr_left fun c _ => ?_)
    rw [hmine]
    simp only [decide_eq_true_eq]
  · have hput := cancelling_armput s1 e
    rw [hstay.here, hstay.cur] at hput
    refine hput.trans (List.filter_congr fun p hp => ?_)
    simp [hputs, List.mem_filter, hp]
  · rw [after, me_modMe, me_modMe, cancelling_me]
    show ((s1.me).setReg d.toNat _).reg d.toNat = _
    rw [reg_setReg _ _ hd, hcount]
  · rw [after, me_modMe]

end

end Sys2Proof.Sync
end

section
/-! PROOFS. O36: `tlbinv` and `tlbinvall`. -/

namespace Sys2Proof.Sync

open Sys2Proof.Machine Sys2Proof.Spec Sys2Proof.Laws Sys2Proof.Scalar

/-- A table with every entry changed by a function that leaves the default as it is. -/
theorem tget_map {α : Type} {d : α} {f : Nat → α → α} (hf : ∀ k, f k d = d) (t : Tbl α) (k : Nat) :
    tget d (t.map fun x => (x.1, f x.1 x.2)) k = f k (tget d t k) := by
  induction t with
  | nil => exact (hf k).symm
  | cons x t ih =>
    rw [List.map_cons, tget, tget, ih]
    split
    · next h => rw [h]
    · rfl

/-- The device without the translations that a scope code from a core names. -/
def dropped (s : State) (scope : Nat) (hit : TlbEnt → Bool) : State :=
  let gone := fun e : TlbEnt => e.part = s.me.part && hit e
  { s with
    cores := s.cores.map fun (x : Nat × Core) => (x.1, if tlbCore s.here scope x.1 then x.2.dropTlb gone else x.2),
    clusters := s.clusters.map fun (x : Nat × Cluster) => (x.1, if tlbCluster s.here scope x.1 then x.2.dropTlb gone else x.2) }

theorem filter_if {α : Type} (b : Bool) (p : α → Bool) (l : List α) :
    (if b then l.filter (fun x => !p x) else l) = l.filter fun x => !(b && p x) := by
  cases b <;> simp

theorem dropped_utlb (s : State) (scope : Nat) (hit : TlbEnt → Bool) (x : Nat) : ((dropped s scope hit).core x).utlb =
    (s.core x).utlb.filter fun e => !(tlbCore s.here scope x && (e.part = s.me.part && hit e)) := by
  have h : (dropped s scope hit).core x = _ := tget_map (d := Core.init)
    (f := fun c k => if tlbCore s.here scope c then k.dropTlb (fun e => e.part = s.me.part && hit e) else k) (fun c => by split <;> rfl) s.cores x
  rw [h, ← filter_if, apply_ite Core.utlb]
  rfl

theorem dropped_ptlb (s : State) (scope : Nat) (hit : TlbEnt → Bool) (x : Nat) : ((dropped s scope hit).cluster x).ptlb =
    (s.cluster x).ptlb.filter fun e => !(tlbCluster s.here scope x && (e.part = s.me.part && hit e)) := by
  have h : (dropped s scope hit).cluster x = _ := tget_map (d := Cluster.init)
    (f := fun c k => if tlbCluster s.here scope c then k.dropTlb (fun e => e.part = s.me.part && hit e) else k) (fun c => by split <;> rfl)
    s.clusters x
  rw [h, ← filter_if, apply_ite Cluster.ptlb]
  rfl

theorem tlbDrop_quiet {s : State} (hw : s.walks = []) (hf : s.fills = []) (scope : Nat) (hit : TlbEnt → Bool) (near : Nat → Bool) :
    tlbDrop scope hit near s = .ok () (dropped s scope hit) := by
  rw [tlbDrop, run_get_bind, stallIf_bind, if_neg (by simp [hw, hf])]
  rfl

theorem supervisorOnly_user {s : State} (h : s.me.sup = false) : supervisorOnly s = .error (.trap ⟨0x06, s.grp.instr⟩) s := by
  rw [supervisorOnly, run_get_bind, run_raiseIf, h, BitVec.ofNat_toNat, BitVec.setWidth_eq]
  rfl

theorem supervisorOnly_ok {s : State} (h : s.me.sup = true) : supervisorOnly s = .ok () s := by
  rw [supervisorOnly, run_get_bind, run_raiseIf, h]
  rfl

theorem tlbinv_user {a b : Reg} {s : State} (hm : FieldsOk s [a, b]) (h : s.me.sup = false) :
    exec (.tlbinv a b) s = .next (takeTrap ⟨0x06, s.grp.instr⟩ s) := by
  refine runInstr_trap (body := bodyTlbinv a b) (t := s) ?_
  rw [bodyTlbinv, bind_ok (fields_ok hm), bind_err (supervisorOnly_user h)]

theorem tlbinvall_user {b : Reg} {s : State} (hm : FieldsOk s [b]) (h : s.me.sup = false) :
    exec (.tlbinvall b) s = .next (takeTrap ⟨0x06, s.grp.instr⟩ s) := by
  refine runInstr_trap (body := bodyTlbinvall b) (t := s) ?_
  rw [bodyTlbinvall, bind_ok (fields_ok hm), bind_err (supervisorOnly_user h)]

theorem tlbinv_step {a b : Reg} {s s1 s2 : State} {v c : Word} (hm : FieldsOk s [a, b]) (h : s.me.sup = true) (hw : s.walks = []) (hf : s.fills = [])
    (ha : readReg a s = .ok v s1) (hb : readReg b s1 = .ok c s2) (hc : c.toNat ≤ 7) :
    exec (.tlbinv a b) s = .next (after 4 s (dropped s2 c.toNat fun e => e.covers v.toNat)) := by
  have hstay := (stays_readReg ha).trans (stays_readReg hb)
  refine runInstr_done (body := bodyTlbinv a b) ?_
  rw [bodyTlbinv, bind_ok (fields_ok hm), bind_ok (supervisorOnly_ok h), bind_ok ha, bind_ok hb, raiseIf_bind, if_neg (by simpa using hc)]
  exact tlbDrop_quiet (hstay.walks.trans hw) (hstay.fills.trans hf) ..

theorem tlbinvall_step {b : Reg} {s s1 : State} {c : Word} (hm : FieldsOk s [b]) (h : s.me.sup = true) (hw : s.walks = []) (hf : s.fills = [])
    (hb : readReg b s = .ok c s1) (hc : c.toNat ≤ 7) : exec (.tlbinvall b) s = .next (after 4 s (dropped s1 c.toNat fun _ => true)) := by
  have hstay := stays_readReg hb
  refine runInstr_done (body := bodyTlbinvall b) ?_
  rw [bodyTlbinvall, bind_ok (fields_ok hm), bind_ok (supervisorOnly_ok h), bind_ok hb, raiseIf_bind, if_neg (by simpa using hc)]
  exact tlbDrop_quiet (hstay.walks.trans hw) (hstay.fills.trans hf) ..

/-- What a drop behind reads leaves in the buffers, as the statement has it. -/
theorem drop_buffers {s t : State} (hs : Stays s t) (scope : Nat) (hit : TlbEnt → Bool) {P : TlbEnt → Prop} [DecidablePred P]
    (hP : ∀ e, hit e = decide (P e)) :
    (∀ x, ((dropped t scope hit).core x).utlb = (t.core x).utlb.filter fun e => ¬(tlbCore s.here scope x = true ∧ e.part = s.me.part ∧ P e)) ∧
    (∀ x, ((dropped t scope hit).cluster x).ptlb =
      (t.cluster x).ptlb.filter fun e => ¬(tlbCluster s.here scope x = true ∧ e.part = s.me.part ∧ P e)) := by
  refine ⟨fun x => ?_, fun x => ?_⟩
  · rw [dropped_utlb, hs.here, hs.part]
    exact List.filter_congr fun e _ => by simp [hP]
  · rw [dropped_ptlb, hs.here, hs.part]
    exact List.filter_congr fun e _ => by simp [hP]

theorem tlbs {a b : Reg} {s s1 s2 : State} {v c : Word} (hm : FieldsOk s [a, b]) :
    (s.me.sup = false → exec (.tlbinv a b) s = .next (takeTrap ⟨0x06, s.grp.instr⟩ s) ∧
      exec (.tlbinvall b) s = .next (takeTrap ⟨0x06, s.grp.instr⟩ s)) ∧
    (s.me.sup = true → s.walks = [] → s.fills = [] →
      (readReg a s = .ok v s1 → readReg b s1 = .ok c s2 → c.toNat ≤ 7 → ∃ t, exec (.tlbinv a b) s = .next t ∧ t.mem = s2.mem ∧
        (∀ x, (t.core x).utlb = (s2.core x).utlb.filter fun e =>
          ¬(tlbCore s.here c.toNat x = true ∧ e.part = s.me.part ∧ e.dva / 2 ^ e.bits = v.toNat / 2 ^ e.bits)) ∧
        (∀ x, (t.cluster x).ptlb = (s2.cluster x).ptlb.filter fun e =>
          ¬(tlbCluster s.here c.toNat x = true ∧ e.part = s.me.part ∧ e.dva / 2 ^ e.bits = v.toNat / 2 ^ e.bits)) ∧
        t.me.pc = s.me.pc + BitVec.ofNat 64 (4 * s.grp.n + 4)) ∧
      (readReg b s = .ok c s1 → c.toNat ≤ 7 → ∃ t, exec (.tlbinvall b) s = .next t ∧ t.mem = s1.mem ∧
        (∀ x, (t.core x).utlb = (s1.core x).utlb.filter fun e => ¬(tlbCore s.here c.toNat x = true ∧ e.part = s.me.part)) ∧
        (∀ x, (t.cluster x).ptlb = (s1.cluster x).ptlb.filter fun e => ¬(tlbCluster s.here c.toNat x = true ∧ e.part = s.me.part)) ∧
        t.me.pc = s.me.pc + BitVec.ofNat 64 (4 * s.grp.n + 4))) := by
  have hmb : FieldsOk s [b] := fun hmig r hr => hm hmig r (List.mem_cons_of_mem a hr)
  refine ⟨fun h => ⟨tlbinv_user hm h, tlbinvall_user hmb h⟩, fun h hw hf => ⟨fun ha hb hc => ?_, fun hb hc => ?_⟩⟩
  · obtain ⟨hu, hp⟩ := drop_buffers ((stays_readReg ha).trans (stays_readReg hb)) c.toNat (fun e => e.covers v.toNat)
      (P := fun e => e.dva / 2 ^ e.bits = v.toNat / 2 ^ e.bits) fun _ => rfl
    exact ⟨_, tlbinv_step hm h hw hf ha hb hc, rfl, hu, hp, by rw [after, me_modMe]⟩
  · obtain ⟨hu, hp⟩ := drop_buffers (stays_readReg hb) c.toNat (fun _ => true) (P := fun _ => True) fun _ => (decide_true ..).symm
    simp only [and_true] at hu hp
    exact ⟨_, tlbinvall_step hmb h hw hf hb hc, rfl, hu, hp, by rw [after, me_modMe]⟩

end Sys2Proof.Sync

open Sys2Proof.Sync in
/-- Settles O36: reads leave the thread's place and the walks alone and writes the leases; the model's search for the next request finds the first
in rotation; and a drop filters every buffer of its scope. -/
theorem engineControls : Obligations.EngineControls := by
  refine ⟨fun d a s s1 s2 v hm ha => ⟨fun h => ⟨engst_reserved hm ha h, engcancel_reserved hm ha h⟩,
      fun h he hd => ⟨engst_absent hm ha h he hd, engcancel_absent hm ha h he hd⟩,
      fun e he => ⟨engst_reads hm ha he, engcancel_cancels hm ha he⟩⟩,
    fun d s s1 hm => ⟨mxlease_layer hm, mxlease_again hm, mxlease_free hm, mxlease_held hm⟩,
    fun s hm => mxrel_releases hm,
    fun q m s hh => ⟨fun hc hu => congrArg _ (leaseTimeout_early hh hc hu), leaseTermTimeout_ends hh,
      fun hl hq => ⟨countCommand_counts, fun h => countCommand_ends hh h hl hq⟩⟩,
    fun a b s s1 s2 v c hm => tlbs hm⟩
end
